-- ==== Sys2Proof/Word.lean ====
section
/-! DEFINITION. The word types of the FZ4 and their plainest arithmetic (R3, R6 of spec/00_scope.md). -/

namespace Sys2Proof

/-- A variable, a literal or an instruction word: 32 bits (R38, R81). -/
abbrev Word := BitVec 32

/-- A pair of variables, or a 64-bit register (R37). -/
abbrev DWord := BitVec 64

/-- One byte of memory. -/
abbrev Byte := BitVec 8

/-- A set of lanes of one wave: bit l is lane l (R16). -/
abbrev LaneMask := BitVec 64

namespace LaneMask

/-- The lanes of a mask in ascending order. -/
def toList (m : LaneMask) : List Nat := (List.range 64).filter (fun l => m.getLsbD l)

/-- The lowest-numbered lane of a mask, when there is one. -/
def lowest? (m : LaneMask) : Option Nat := m.toList.head?

/-- The lowest-numbered lane of a mask; lane 0 for the empty mask. -/
def lowest (m : LaneMask) : Nat := m.lowest?.getD 0

/-- The mask holding exactly lane `l`. -/
def single (l : Nat) : LaneMask := BitVec.ofNat 64 (2 ^ l)

/-- The mask of the lanes of a list. -/
def ofList (ls : List Nat) : LaneMask := ls.foldl (fun m l => m ||| single l) 0

/-- The number of lanes of a mask. -/
def count (m : LaneMask) : Nat := m.toList.length

end LaneMask

/-- The low half of a pair (R312: it goes to the even variable). -/
def lo32 (v : DWord) : Word := v.setWidth 32

/-- The high half of a pair (R312: it goes to the odd variable). -/
def hi32 (v : DWord) : Word := (v >>> 32).setWidth 32

/-- A pair from its two halves. -/
def pair (lo hi : Word) : DWord := (hi.setWidth 64 <<< 32) ||| lo.setWidth 64

/-- `v` with every byte of it in ascending order of address (R3: little-endian), `n` bytes. -/
def bytesOfNat : Nat → Nat → List Byte
  | 0, _ => []
  | n + 1, v => BitVec.ofNat 8 v :: bytesOfNat n (v / 256)

/-- The number that a list of bytes in ascending order of address holds (R3). -/
def natOfBytes : List Byte → Nat
  | [] => 0
  | b :: bs => b.toNat + 256 * natOfBytes bs

/-- Replace element `k` of a list; the list is unchanged where it has no element `k`. -/
def setAt {α : Type} : List α → Nat → α → List α
  | [], _, _ => []
  | _ :: xs, 0, v => v :: xs
  | x :: xs, k + 1, v => x :: setAt xs k v

/-- The field [hi:lo] of a number (R3: both ends included). -/
def bits (v hi lo : Nat) : Nat := v / 2 ^ lo % 2 ^ (hi + 1 - lo)

/-- Bit `k` of a number. -/
def bit (v k : Nat) : Bool := v / 2 ^ k % 2 == 1

/-- 1 for true and 0 for false. -/
def b2n (b : Bool) : Nat := if b then 1 else 0

end Sys2Proof
end

