-- ==== Sys2Proof/Syntax.lean ====
section
/-! DEFINITION. The instructions and events of the FZ4, one constructor per row of the opcode table, and the operands
they carry (R81 to R93 of spec/05_encoding_and_assembly.md). -/

namespace Sys2Proof

/-- The special sources of R56. -/
inductive Special where
  | zero
  | lane
  | wave
  | group
  | seq
  | lvl (k : BitVec 3)
  | nlvl (k : BitVec 3)
  deriving DecidableEq, Repr

/-- What a source field selects (R84). A field of constructor `lit` reads the instruction's one literal word (R82). -/
inductive Src where
  | var (n : BitVec 7)
  | latch (k : BitVec 3)
  /-- Inline constant number 0 to 55: code 0x88 plus the number (R85). -/
  | const (k : Fin 56)
  | special (x : Special)
  | lit
  deriving DecidableEq, Repr

/-- The operands of a B-form instruction with two sources (R81). -/
structure BArgs where
  dist : BitVec 2
  s : Bool
  nwb : Bool
  dst : BitVec 7
  sa : Src
  sb : Src
  lit : Option Word
  deriving DecidableEq, Repr

/-- The operands of a B-form instruction whose SB is a function code (R88). -/
structure UArgs where
  dist : BitVec 2
  s : Bool
  nwb : Bool
  dst : BitVec 7
  sa : Src
  lit : Option Word
  deriving DecidableEq, Repr

/-- A control instruction of one word has no operand (R366); DIST alone varies. -/
structure CArgs where
  dist : BitVec 2
  deriving DecidableEq, Repr

/-- A hint-space instruction (R93): DIST and the free bits [23:0]. -/
structure HintArgs where
  dist : BitVec 2
  n : BitVec 24
  deriving DecidableEq, Repr

/-- The operands of an X-form instruction (R81, R82). `flag` none is FLAG 0xF. Fields that the instruction does
not use hold zero, which as a source is `.var 0`, where the instruction is well formed (R83). -/
structure XArgs where
  dist : BitVec 2
  s : Bool
  nwb : Bool
  dst : BitVec 7
  sa : Src
  sb : Src
  sc : Src
  flag : Option (Fin 12)
  imm : BitVec 16
  lit : Option Word
  deriving DecidableEq, Repr

namespace XArgs

/-- IMM.W64 (R87, R386). -/
def w64 (x : XArgs) : Bool := x.imm.getLsbD 15
/-- IMM.SGN (R87, R386). -/
def sgn (x : XArgs) : Bool := x.imm.getLsbD 14
/-- IMM.RM (R87). -/
def rm (x : XArgs) : BitVec 2 := x.imm.extractLsb' 12 2
/-- IMM.SAT (R87). -/
def sat (x : XArgs) : Bool := x.imm.getLsbD 11
/-- IMM.ORD of the memory instructions (R386). -/
def ord (x : XArgs) : BitVec 2 := x.imm.extractLsb' 12 2
/-- IMM.SCOPE of the memory and barrier instructions (R386, R406). -/
def scope (x : XArgs) : BitVec 3 := x.imm.extractLsb' 9 3
/-- IMM bits [hi:lo] as a number. -/
def immBits (x : XArgs) (hi lo : Nat) : Nat := bits x.imm.toNat hi lo

end XArgs

/-- The widths of loads and stores, in FN[2:0] (R89). -/
inductive MemWidth where
  | b8
  | b16
  | b32
  | b64
  | b128
  deriving DecidableEq, Repr

/-- The bytes of an access (R394). -/
def MemWidth.bytes : MemWidth → Nat
  | .b8 => 1
  | .b16 => 2
  | .b32 => 4
  | .b64 => 8
  | .b128 => 16

/-- The width code of R89. -/
def MemWidth.code : MemWidth → Nat
  | .b8 => 0
  | .b16 => 1
  | .b32 => 2
  | .b64 => 3
  | .b128 => 4

/-- A flow of control: a wave of a compute core (core 64 × die + number, R199; slot 0 to 95), or the one thread of a
steward core (R318). -/
inductive Flow where
  | wave (core slot : Nat)
  | steward (die st : Nat)
  deriving DecidableEq, Repr

/-- What a copy engine's work is for (R271): a stage of a window of a group slot on a core, or the running entry of a
chain (named by the physical address of its descriptor). `sector` numbers the output sector of 32 bytes (R215). -/
inductive Landing where
  | window (core group window stage sector : Nat)
  | entry (chain sector : Nat)
  deriving DecidableEq, Repr

/-- The steward firmware's choice for a fault passed to it (R226, R472). -/
inductive FaultChoice where
  | serve
  | forward
  | escalate
  deriving DecidableEq, Repr

/-- How link training ends (R245). -/
inductive Training where
  | full
  | half
  | fail
  deriving DecidableEq, Repr

/-- A unit that fails self-test (R496): its die, its class and index, and its self-test code. -/
structure UnitFailure where
  die : Nat
  unit : Nat
  index : Nat
  code : Nat
  deriving DecidableEq, Repr

/-- What the steward is given to create a context (R165, R167): its handle, the ASID and table root it gets, its home
die and the TVEC the steward sets (R296). -/
structure NewContext where
  handle : Nat
  asid : Nat
  root : Nat
  die : Nat
  tvec : DWord
  deriving DecidableEq, Repr

/-- The AtomicOp requests a host makes (R152). -/
inductive HostAtomic where
  | fetchAdd
  | swap
  | cas
  deriving DecidableEq, Repr

/-- The items of the Fox port (R457). -/
inductive FoxItem where
  | var (n lane : Nat)
  | home (n : Nat)
  | wstat
  | rstkLow
  | rstkHigh
  | counterLow (lane : Nat)
  | counterHigh (lane : Nat)
  deriving DecidableEq, Repr

/-- What the tagged instruction of a trail sample met (R461): the level that its data came from and its cycle counts, which are timing and so an input. -/
structure TrailData where
  level : Nat
  lat : List Nat
  deriving DecidableEq, Repr

/-- What a routine on a Marten core returns (R275): a0, the bytes of the output area it produced, its landing map and what it leaves in the core's private data memory (R271),
or the illegal act that ended it (R276). -/
inductive RoutineResult where
  | returned (a0 : Int) (output : List Byte) (map : List Nat) (data : List Byte)
  | illegal
  deriving DecidableEq, Repr

/-- What the scheduler firmware of a die is given to create a queue (R177): the die, its number, context, descriptor, ring, log2 of the ring's packet count and priority. -/
structure NewQueue where
  die : Nat
  number : Nat
  context : Nat
  desc : Nat
  base : Nat
  size : Nat
  prio : Nat
  deriving DecidableEq, Repr

/-- What it is given to register a chain with an engine of its die (R280, R425): the die, its context and descriptor, the engine, and the launch on whose behalf it appends. -/
structure NewChain where
  die : Nat
  context : Nat
  desc : Nat
  engine : Nat
  launch : Option Nat
  deriving DecidableEq, Repr

/-- Messages of the management port: an image offered to the ROM (R495), a verifying key registered (R485), a raise of the fuse counter (R493), the start of a steward
flow (R511), requests to create a queue and to register a chain (log 43), and any other. -/
inductive Management where
  | offer (image : List Byte)
  | key (id : Nat) (publicKey : List Byte)
  | raiseSvn (svn : Nat)
  | startFlow (die st entry : Nat)
  | createQueue (q : NewQueue)
  | bindChain (c : NewChain)
  | other
  deriving DecidableEq, Repr

/-- One constructor per row of spec/opcode_table.json: the instructions with their operands, and the
device's events with what names them. The docstring of each is its row's summary and rule. -/
inductive Instr where
  /-- IADD (R322): B-form 32-bit wrapping integer add of SA and SB. -/
  | iadd (o : BArgs)
  /-- ISUB (R322): B-form 32-bit wrapping integer subtract. -/
  | isub (o : BArgs)
  /-- AND (R331): B-form bitwise and. -/
  | and (o : BArgs)
  /-- OR (R331): B-form bitwise or. -/
  | or (o : BArgs)
  /-- XOR (R331): B-form bitwise exclusive or. -/
  | xor (o : BArgs)
  /-- SHL (R332): B-form logical left shift, count not reduced. -/
  | shl (o : BArgs)
  /-- SHR (R332): B-form logical right shift. -/
  | shr (o : BArgs)
  /-- FADD (R347): B-form FP32 add rounded by RNE. -/
  | fadd (o : BArgs)
  /-- FMUL (R347): B-form FP32 multiply rounded by RNE. -/
  | fmul (o : BArgs)
  /-- FSUB (R347): B-form FP32 subtract rounded by RNE. -/
  | fsub (o : BArgs)
  /-- MOV (R330): B-form move of SA unchanged. -/
  | mov (o : UArgs)
  /-- NOT (R331): B-form bitwise not. -/
  | not (o : UArgs)
  /-- INEG (R326): B-form two's complement negate. -/
  | ineg (o : UArgs)
  /-- IABS (R326): B-form two's complement absolute value. -/
  | iabs (o : UArgs)
  /-- POPC (R336): B-form population count. -/
  | popc (o : UArgs)
  /-- CLZ (R336): B-form count of leading zeros. -/
  | clz (o : UArgs)
  /-- CTZ (R336): B-form count of trailing zeros. -/
  | ctz (o : UArgs)
  /-- BREV (R336): B-form bit reversal. -/
  | brev (o : UArgs)
  /-- FABS (R352): B-form clears bit 31 of the operand. -/
  | fabs (o : UArgs)
  /-- FNEG (R352): B-form inverts bit 31 of the operand. -/
  | fneg (o : UArgs)
  /-- FRCP (R352): B-form correctly rounded reciprocal. -/
  | frcp (o : UArgs)
  /-- FRSQ (R352): B-form approximate reciprocal square root. -/
  | frsq (o : UArgs)
  /-- FSQRT (R352): B-form correctly rounded square root. -/
  | fsqrt (o : UArgs)
  /-- FEXP2 (R352): B-form approximate 2 to the power A. -/
  | fexp2 (o : UArgs)
  /-- FLOG2 (R352): B-form approximate base-2 logarithm. -/
  | flog2 (o : UArgs)
  /-- FSIN (R352): B-form approximate sine. -/
  | fsin (o : UArgs)
  /-- FCOS (R352): B-form approximate cosine. -/
  | fcos (o : UArgs)
  /-- FTANH (R352): B-form approximate hyperbolic tangent. -/
  | ftanh (o : UArgs)
  /-- FSIG (R352): B-form approximate logistic sigmoid. -/
  | fsig (o : UArgs)
  /-- FFRAC (R353): B-form fractional part rounded by RNE. -/
  | ffrac (o : UArgs)
  /-- FCLASS (R354): B-form class mask of an FP32 value. -/
  | fclass (o : UArgs)
  /-- IADD_X (R322): X-form add with optional 64-bit width and saturation. -/
  | iaddX (x : XArgs)
  /-- ISUB_X (R322): X-form subtract with optional 64-bit width and saturation. -/
  | isubX (x : XArgs)
  /-- IMUL (R323): Integer multiply, low half or widened. -/
  | imul (x : XArgs)
  /-- IMULH (R324): High half of the integer product. -/
  | imulh (x : XArgs)
  /-- IMAD (R323): Integer multiply-add. -/
  | imad (x : XArgs)
  /-- IMIN (R325): Signed or unsigned integer minimum. -/
  | imin (x : XArgs)
  /-- IMAX (R325): Signed or unsigned integer maximum. -/
  | imax (x : XArgs)
  /-- IABS_X (R326): X-form absolute value with optional saturation. -/
  | iabsX (x : XArgs)
  /-- INEG_X (R326): X-form negate with optional saturation. -/
  | inegX (x : XArgs)
  /-- ICMP (R327): Integer compare writing 1 or 0. -/
  | icmp (x : XArgs)
  /-- ISEL (R328): Select A or B by a 32-bit condition. -/
  | isel (x : XArgs)
  /-- BSEL (R328): Bitwise select under mask C. -/
  | bsel (x : XArgs)
  /-- LEA (R329): Base plus shifted 32-bit index. -/
  | lea (x : XArgs)
  /-- MOV_X (R330): X-form move, optionally 64-bit. -/
  | movX (x : XArgs)
  /-- AND_X (R331): X-form bitwise and. -/
  | andX (x : XArgs)
  /-- OR_X (R331): X-form bitwise or. -/
  | orX (x : XArgs)
  /-- XOR_X (R331): X-form bitwise exclusive or. -/
  | xorX (x : XArgs)
  /-- ANDN (R331): A and not B. -/
  | andn (x : XArgs)
  /-- NOT_X (R331): X-form bitwise not. -/
  | notX (x : XArgs)
  /-- SHL_X (R332): X-form left shift. -/
  | shlX (x : XArgs)
  /-- SHR_X (R332): X-form logical right shift. -/
  | shrX (x : XArgs)
  /-- SAR (R332): Arithmetic right shift. -/
  | sar (x : XArgs)
  /-- FSHL (R333): Funnel shift left of a 2W-bit pair. -/
  | fshl (x : XArgs)
  /-- FSHR (R333): Funnel shift right of a 2W-bit pair. -/
  | fshr (x : XArgs)
  /-- BFX (R334): Bit-field extract with optional sign extension. -/
  | bfx (x : XArgs)
  /-- BFI (R335): Bit-field insert. -/
  | bfi (x : XArgs)
  /-- POPC_X (R336): X-form population count. -/
  | popcX (x : XArgs)
  /-- CLZ_X (R336): X-form leading-zero count. -/
  | clzX (x : XArgs)
  /-- CTZ_X (R336): X-form trailing-zero count. -/
  | ctzX (x : XArgs)
  /-- BREV_X (R336): X-form bit reversal. -/
  | brevX (x : XArgs)
  /-- FADD_X (R347): X-form FP32 add with rounding mode and saturation. -/
  | faddX (x : XArgs)
  /-- FSUB_X (R347): X-form FP32 subtract. -/
  | fsubX (x : XArgs)
  /-- FMUL_X (R347): X-form FP32 multiply. -/
  | fmulX (x : XArgs)
  /-- FFMA (R347): FP32 fused multiply-add with one rounding. -/
  | ffma (x : XArgs)
  /-- FMIN (R348): IEEE minimum, NaN gives default NaN. -/
  | fmin (x : XArgs)
  /-- FMAX (R348): IEEE maximum. -/
  | fmax (x : XArgs)
  /-- FMINNUM (R348): minimumNumber. -/
  | fminnum (x : XArgs)
  /-- FMAXNUM (R348): maximumNumber. -/
  | fmaxnum (x : XArgs)
  /-- FCMP (R349): FP32 compare writing 1 or 0. -/
  | fcmp (x : XArgs)
  /-- FSCALE (R350): Multiply by a power of two with one rounding. -/
  | fscale (x : XArgs)
  /-- FROUND (R351): Round to an integral FP32 value. -/
  | fround (x : XArgs)
  /-- FABS_X (R352): X-form absolute value. -/
  | fabsX (x : XArgs)
  /-- FNEG_X (R352): X-form negate. -/
  | fnegX (x : XArgs)
  /-- FRCP_X (R352): X-form reciprocal with rounding mode and saturation. -/
  | frcpX (x : XArgs)
  /-- FRSQ_X (R352): X-form reciprocal square root. -/
  | frsqX (x : XArgs)
  /-- FSQRT_X (R352): X-form square root with rounding mode. -/
  | fsqrtX (x : XArgs)
  /-- FEXP2_X (R352): X-form exponential with saturation. -/
  | fexp2X (x : XArgs)
  /-- FLOG2_X (R352): X-form base-2 logarithm. -/
  | flog2X (x : XArgs)
  /-- FSIN_X (R352): X-form sine. -/
  | fsinX (x : XArgs)
  /-- FCOS_X (R352): X-form cosine. -/
  | fcosX (x : XArgs)
  /-- FTANH_X (R352): X-form hyperbolic tangent. -/
  | ftanhX (x : XArgs)
  /-- FSIG_X (R352): X-form sigmoid. -/
  | fsigX (x : XArgs)
  /-- FFRAC_X (R353): X-form fractional part with rounding mode. -/
  | ffracX (x : XArgs)
  /-- FCLASS_X (R354): X-form class mask. -/
  | fclassX (x : XArgs)
  /-- SHFL_IDX (R367): Read xa from an indexed lane of the segment. -/
  | shflIdx (x : XArgs)
  /-- SHFL_UP (R367): Read xa from a lower lane of the segment. -/
  | shflUp (x : XArgs)
  /-- SHFL_DOWN (R367): Read xa from a higher lane of the segment. -/
  | shflDown (x : XArgs)
  /-- SHFL_XOR (R367): Read xa from the lane at xor distance. -/
  | shflXor (x : XArgs)
  /-- BRA (R375): Each thread of the run goes to the relative target. -/
  | bra (x : XArgs)
  /-- BZ (R375): Per-thread branch when the operand is zero. -/
  | bz (x : XArgs)
  /-- BNZ (R375): Per-thread branch when the operand is non-zero. -/
  | bnz (x : XArgs)
  /-- BRX (R376): Per-thread indirect branch with target checks. -/
  | brx (x : XArgs)
  /-- CALL (R377): Push return header, spill if deep, branch to relative target. -/
  | call (x : XArgs)
  /-- CALLI (R377): Per-thread indirect call. -/
  | calli (x : XArgs)
  /-- GROW (R381): Per-lane requests to raise the grid's group count, served in lane order. -/
  | grow (x : XArgs)
  /-- FWAIT (R383): Hold the wave until the masked completion flags are clear. -/
  | fwait (x : XArgs)
  /-- VOTE_ANY (R368): 1 if any lane of the run holds non-zero. -/
  | voteAny (x : XArgs)
  /-- VOTE_ALL (R368): 1 if every lane of the run holds non-zero. -/
  | voteAll (x : XArgs)
  /-- VOTE_EQ (R368): 1 if all lanes of the run hold equal bits. -/
  | voteEq (x : XArgs)
  /-- BALLOT (R368): 64-bit mask of run lanes holding non-zero. -/
  | ballot (x : XArgs)
  /-- RET (R378): Each thread pops its return address, reading back a spilled entry if needed. -/
  | ret (o : CArgs)
  /-- EXIT (R379): Threads of the run stop being live; wave, group and launch may end. -/
  | exit (o : CArgs)
  /-- TRIGGER (R380): Marks the group triggered and releases at fabric scope. -/
  | trigger (o : CArgs)
  /-- YIELD (R382): Fall through and make the wave a swap candidate. -/
  | yield (o : CArgs)
  /-- NOP (R384): No effect. -/
  | nop (o : CArgs)
  /-- HINT (R93): Hint space, no effect on the FZ4. -/
  | hint (o : HintArgs)
  /-- MERGE_CHK (R48): Collapse copies if all live threads agree, report unsplit. -/
  | mergeChk (x : XArgs)
  /-- MERGE_LANE (R49): Promote one lane's value to the home or wave copy. -/
  | mergeLane (x : XArgs)
  /-- MERGE_G (R50): Capture a wave's value for the group home copy at phase completion. -/
  | mergeG (x : XArgs)
  /-- RKQ (R47): Return the split mask of a variable. -/
  | rkq (x : XArgs)
  /-- RKHOME (R47): Return the home copy of a variable. -/
  | rkhome (x : XArgs)
  /-- DOT4_E4M3 (R359): Per-lane E4M3 dot added to FP32 with one rounding. -/
  | dot4E4m3 (x : XArgs)
  /-- DOT4_E5M2 (R359): Per-lane E5M2 dot. -/
  | dot4E5m2 (x : XArgs)
  /-- DOT8_E2M1 (R359): Per-lane E2M1 dot. -/
  | dot8E2m1 (x : XArgs)
  /-- DOT2_B16 (R359): Per-lane BF16 pair dot. -/
  | dot2B16 (x : XArgs)
  /-- DOT4_I8 (R359): Per-lane INT8 dot, wrapping. -/
  | dot4I8 (x : XArgs)
  /-- DOT4_N8 (R359): Per-lane UINT8 dot, wrapping. -/
  | dot4N8 (x : XArgs)
  /-- DOT8_I4 (R359): Per-lane INT4 dot, wrapping. -/
  | dot8I4 (x : XArgs)
  /-- DOTS4_E4M3 (R71): Scaled block dot over E4M3 blocks across lanes. -/
  | dots4E4m3 (x : XArgs)
  /-- DOTS4_E5M2 (R71): Scaled block dot over E5M2 blocks. -/
  | dots4E5m2 (x : XArgs)
  /-- DOTS8_E2M1 (R71): Scaled block dot over E2M1 blocks. -/
  | dots8E2m1 (x : XArgs)
  /-- HADD2 (R355): Packed FP16 or BF16 add. -/
  | hadd2 (x : XArgs)
  /-- HSUB2 (R355): Packed subtract. -/
  | hsub2 (x : XArgs)
  /-- HMUL2 (R355): Packed multiply. -/
  | hmul2 (x : XArgs)
  /-- HFMA2 (R355): Packed fused multiply-add. -/
  | hfma2 (x : XArgs)
  /-- HMIN2 (R355): Packed minimumNumber. -/
  | hmin2 (x : XArgs)
  /-- HMAX2 (R355): Packed maximumNumber. -/
  | hmax2 (x : XArgs)
  /-- CVT_F32_I32 (R356): Integer to FP32. -/
  | cvtF32I32 (x : XArgs)
  /-- CVT_I32_F32 (R358): FP32 to clamped integer. -/
  | cvtI32F32 (x : XArgs)
  /-- CVT_F32_F16 (R357): FP16 element to FP32, exact. -/
  | cvtF32F16 (x : XArgs)
  /-- CVT_F32_B16 (R357): BF16 element to FP32, exact. -/
  | cvtF32B16 (x : XArgs)
  /-- CVT_PK_F16_F32 (R357): Two FP32 packed to FP16. -/
  | cvtPkF16F32 (x : XArgs)
  /-- CVT_PK_B16_F32 (R357): Two FP32 packed to BF16. -/
  | cvtPkB16F32 (x : XArgs)
  /-- CVT_PK_E4M3_F32 (R357): Two FP32 packed into E4M3 positions of C. -/
  | cvtPkE4m3F32 (x : XArgs)
  /-- CVT_PK_E5M2_F32 (R357): Two FP32 packed into E5M2 positions. -/
  | cvtPkE5m2F32 (x : XArgs)
  /-- CVT_PK_E2M1_F32 (R357): Two FP32 packed into one E2M1 byte. -/
  | cvtPkE2m1F32 (x : XArgs)
  /-- CVT_UP_B16_E4M3 (R357): Two E4M3 widened to BF16. -/
  | cvtUpB16E4m3 (x : XArgs)
  /-- CVT_UP_B16_E5M2 (R357): Two E5M2 widened to BF16. -/
  | cvtUpB16E5m2 (x : XArgs)
  /-- CVT_UP_B16_E2M1 (R357): Two E2M1 widened to BF16. -/
  | cvtUpB16E2m1 (x : XArgs)
  /-- CVT_B16_E8M0 (R60): Two E8M0 imported to BF16. -/
  | cvtB16E8m0 (x : XArgs)
  /-- CVT_PK_I8_F32 (R358): Two FP32 packed to INT8. -/
  | cvtPkI8F32 (x : XArgs)
  /-- CVT_PK_I4_F32 (R358): Two FP32 packed to INT4. -/
  | cvtPkI4F32 (x : XArgs)
  /-- LREAD (R374): Handler reads one lane's value of a variable. -/
  | lread (x : XArgs)
  /-- LWRITE (R374): Handler writes one lane's copy of a variable. -/
  | lwrite (x : XArgs)
  /-- LD (R394): Global load per lane, checked for all lanes first. -/
  | ld (w : MemWidth) (x : XArgs)
  /-- LDS (R396): Scratchpad load; touch may park and issue window stages. -/
  | lds (w : MemWidth) (x : XArgs)
  /-- ST (R394): Global store per lane. -/
  | st (w : MemWidth) (x : XArgs)
  /-- STS (R396): Scratchpad store. -/
  | sts (w : MemWidth) (x : XArgs)
  /-- AADD (R397): Atomic add at the home slice. -/
  | aadd (x : XArgs)
  /-- AMIN (R397): Atomic integer minimum. -/
  | amin (x : XArgs)
  /-- AMAX (R397): Atomic integer maximum. -/
  | amax (x : XArgs)
  /-- AAND (R397): Atomic and. -/
  | aand (x : XArgs)
  /-- AOR (R397): Atomic or. -/
  | aor (x : XArgs)
  /-- AXOR (R397): Atomic xor. -/
  | axor (x : XArgs)
  /-- AXCHG (R397): Atomic exchange. -/
  | axchg (x : XArgs)
  /-- ACAS (R397): Atomic compare-and-swap. -/
  | acas (x : XArgs)
  /-- AFADD (R399): Atomic floating-point add. -/
  | afadd (x : XArgs)
  /-- AFMIN (R75): Atomic floating-point minimumNumber. -/
  | afmin (x : XArgs)
  /-- AFMAX (R75): Atomic floating-point maximumNumber. -/
  | afmax (x : XArgs)
  /-- LR (R401): Load and set the thread's reservation. -/
  | lr (x : XArgs)
  /-- SC (R403): Store if the reservation stands; status 0 or 1. -/
  | sc (x : XArgs)
  /-- FENCE (R405): Order the run's accesses at a scope. -/
  | fence (x : XArgs)
  /-- MCLAIM (R253): Claim slots and accumulators all or none. -/
  | mclaim (x : XArgs)
  /-- MREL (R417): Release matrix resources once their work is done. -/
  | mrel (x : XArgs)
  /-- MFILL (R418): Accept a copy of quarters into an operand slot. -/
  | mfill (x : XArgs)
  /-- MZERO (R261): Accept an operation zeroing an accumulator and starting a chain. -/
  | mzero (x : XArgs)
  /-- MLOAD (R419): Accept an operation loading an accumulator and starting a chain. -/
  | mload (x : XArgs)
  /-- MMA (R420): Read and check parameter block, accept a multiply-accumulate. -/
  | mma (x : XArgs)
  /-- MVER (R423): Read an accumulator's VERSION. -/
  | mver (x : XArgs)
  /-- MDRAIN (R268): Accept verify then write of an accumulator tile. -/
  | mdrain (x : XArgs)
  /-- MVERIFY (R263): Accept a checksum verification of an accumulator. -/
  | mverify (x : XArgs)
  /-- MLOC (R265): Return mismatched rows or columns mask. -/
  | mloc (x : XArgs)
  /-- MFIX (R266): Correct a single mismatched element. -/
  | mfix (x : XArgs)
  /-- MRETRY (R267): Rebuild the accumulator from its replay list and verify. -/
  | mretry (x : XArgs)
  /-- MSTAT (R264): Read MSTAT of an accumulator. -/
  | mstat (x : XArgs)
  /-- BAR_INIT (R213): Arm a barrier or report why not. -/
  | barInit (x : XArgs)
  /-- BAR_ARRIVE (R213): Lower pending arrivals and test for completion. -/
  | barArrive (x : XArgs)
  /-- BAR_EXPECT (R213): Raise pending sectors and test for completion. -/
  | barExpect (x : XArgs)
  /-- BAR_WAIT (R213): Park until the named phase passes or the barrier drops. -/
  | barWait (x : XArgs)
  /-- BAR_TEST (R213): Report whether a phase has passed. -/
  | barTest (x : XArgs)
  /-- BAR_DROP (R213): Disarm a barrier, wake waiters, discard captures. -/
  | barDrop (x : XArgs)
  /-- WBIND (R118): Bind a window to a region walk and base. -/
  | wbind (x : XArgs)
  /-- WUNBIND (R411): Park until issued stages end, then make the window plain. -/
  | wunbind (x : XArgs)
  /-- WSTAT (R412): Return PDEPTH and head of a window. -/
  | wstat (x : XArgs)
  /-- ENQ (R284): Append an entry to a command chain. -/
  | enq (x : XArgs)
  /-- ESEQ (R285): Read a chain's DONE as an acquire. -/
  | eseq (x : XArgs)
  /-- TRAP (R426): Raise SOFTWARE with the given number. -/
  | trap (x : XArgs)
  /-- BRK (R426): Raise BREAKPOINT. -/
  | brk (x : XArgs)
  /-- TRET (R299): End the handler and resume TMASK lanes at TPC. -/
  | tret (x : XArgs)
  /-- TRET_SKIP (R299): End the handler and resume past the trapped instruction. -/
  | tretSkip (x : XArgs)
  /-- CSRR (R429): Read a control register. -/
  | csrr (x : XArgs)
  /-- CSRW (R432): Write a control register. -/
  | csrw (x : XArgs)
  /-- CSRS (R432): Set bits of a control register. -/
  | csrs (x : XArgs)
  /-- CSRC (R432): Clear bits of a control register. -/
  | csrc (x : XArgs)
  /-- ISYNC (R434): Discard fetched clauses not yet issued. -/
  | isync (x : XArgs)
  /-- IFLUSH (R435): Remove code lines of a range from every instruction cache. -/
  | iflush (x : XArgs)
  /-- ECALL (R436): Fence and pass a service request to the steward; hold until answered. -/
  | ecall (x : XArgs)
  /-- ECALL_ANSWER (R436): Steward answer written to the waiting wave's image. -/
  | ecallAnswer (die request : Nat) (answer : DWord)
  /-- QUEUE_QUIESCE (R181): Request to stop taking packets at a packet boundary. -/
  | queueQuiesce (x : XArgs)
  /-- QUEUE_RESUME (R181): Request to resume a quiesced queue. -/
  | queueResume (x : XArgs)
  /-- QUEUE_RESET (R182): Reset a queue, tearing down its launches. -/
  | queueReset (x : XArgs)
  /-- TRACE_BIND (R184): Bind a trace session to a queue. -/
  | traceBind (x : XArgs)
  /-- TRACE_CLOSE (R185): Close a queue's trace session with END. -/
  | traceClose (x : XArgs)
  /-- CODE_LOAD (R490): Load a Strata container into a code object. -/
  | codeLoad (x : XArgs)
  /-- HOST_MAILBOX_REQUEST (R185): Host sets OWNER of a mailbox record, raising a steward event. -/
  | hostMailboxRequest (die record : Nat) (service : Byte) (a b : DWord)
  /-- MONITOR_VERSION (R437): Return the monitor ROM version. -/
  | monitorVersion (x : XArgs)
  /-- IMAGE_VERIFY (R437): Verify an image and make it the candidate. -/
  | imageVerify (x : XArgs)
  /-- IMAGE_MEASURE (R437): Compare the candidate digest and record the measurement. -/
  | imageMeasure (x : XArgs)
  /-- ISLE_WRITE (R437): Write the measured candidate to an Isle slot. -/
  | isleWrite (x : XArgs)
  /-- ISLE_SWITCH (R437): Start a slot's image and arm the heartbeat. -/
  | isleSwitch (x : XArgs)
  /-- HEARTBEAT (R438): Feed and disarm the heartbeat, committing the new slot. -/
  | heartbeat (x : XArgs)
  /-- FUSE_SVN (R437): Return the fuse security-version counter. -/
  | fuseSvn (x : XArgs)
  /-- MONCALL_UNKNOWN (R437): Unknown monitor service returns all ones. -/
  | moncallUnknown (x : XArgs)
  /-- HEARTBEAT_TIMEOUT (R438): Heartbeat expires; monitor rolls back to the previous slot. -/
  | heartbeatTimeout (die : Nat)
  /-- WFI (R439): Wait for and take the pending steward events. -/
  | wfi (x : XArgs)
  /-- TLBINV_ALL (R440): Invalidate translations of every ASID on masked dies. -/
  | tlbinvAll (x : XArgs)
  /-- TLBINV_ASID (R440): Invalidate translations of one ASID. -/
  | tlbinvAsid (x : XArgs)
  /-- TLBINV_RANGE (R440): Invalidate translations of one ASID in a range. -/
  | tlbinvRange (x : XArgs)
  /-- DHALT (R442): Halt a wave, group or gang. -/
  | dhalt (x : XArgs)
  /-- DRESUME (R443): Resume masked halted lanes. -/
  | dresume (x : XArgs)
  /-- DSTEP (R444): Execute one instruction for chosen halted lanes. -/
  | dstep (x : XArgs)
  /-- DREAD (R445): Read a variable, register or counter of a halted wave. -/
  | dread (x : XArgs)
  /-- DWRITE (R445): Write a variable, register or counter of a halted wave. -/
  | dwrite (x : XArgs)
  /-- CLAUSE_START (R77): Choose a run, test WAIT, fetch and check a clause header and begin issue. -/
  | clauseStart (f : Flow)
  /-- WAVE_SWAP (R206): Exchange a swap candidate with the oldest ready pending wave. -/
  | waveSwap (core scheduler : Nat)
  /-- PENDING_STARVATION_TIMEOUT (R207): A pending wave ready for 4,096 cycles forces a swap candidate. -/
  | pendingStarvationTimeout (core scheduler : Nat)
  /-- MEMORY_RESPONSE (R393): Returned data written to destinations, completion flag lowered. -/
  | memoryResponse (f : Flow) (index : Nat)
  /-- IMPRECISE_FAULT (R291): An imprecise fault is taken at the wave's boundary. -/
  | impreciseFault (core slot : Nat)
  /-- OCTET_RETURN (R40): Sett engine returns an overflowed octet and unparks the wave. -/
  | octetReturn (core slot : Nat)
  /-- SECTOR_LANDING (R215): A copy sector lands, lowering PEND_SEC and setting presence. -/
  | sectorLanding (target : Landing)
  /-- STAGE_SOURCE_FAILURE (R123): A stage's source cannot be read; its lines stay absent. -/
  | stageSourceFailure (core group window stage : Nat)
  /-- BARRIER_WAKE (R217): Waiters wake the cycle after phase completion or notice. -/
  | barrierWake (core slot : Nat)
  /-- GLOBAL_BARRIER_RETEST (R216): Wave without unit entry re-tests a global barrier every 1,024 cycles. -/
  | globalBarrierRetest (core slot : Nat)
  /-- MFILL_COMPLETE (R255): Slot copy complete; tag and source addresses recorded. -/
  | mfillComplete (core index : Nat)
  /-- MATRIX_OP_START (R259): Accepted operation starts when its version arrives. -/
  | matrixOpStart (core index : Nat)
  /-- MATRIX_OP_COMPLETE (R259): Operation completes, VERSION rises, stale waiters discarded. -/
  | matrixOpComplete (core acc : Nat)
  /-- QDOORBELL (R178): Write of a queue number raises steward event bit 0. -/
  | qdoorbell (die : Nat) (value : Word)
  /-- LAUNCH_PACKET (R190): Steward takes a LAUNCH packet, copies and checks its record. -/
  | launchPacket (die queue : Nat)
  /-- WAIT_PACKET (R179): Steward takes a WAIT packet and holds the queue. -/
  | waitPacket (queue : Nat)
  /-- WAIT_SATISFIED (R179): A held WAIT's word reaches its threshold; signal stored. -/
  | waitSatisfied (queue : Nat)
  /-- MARK_PACKET (R179): Steward takes a MARK packet. -/
  | markPacket (queue : Nat)
  /-- MARK_SIGNAL (R179): Earlier launches final; MARK's SIGVAL stored. -/
  | markSignal (queue : Nat)
  /-- STEWARD_TICK (R439): 50 µs tick raises steward event bit 3. -/
  | stewardTick (die : Nat)
  /-- GROUP_PLACE (R201): Dispatcher places the next group or gang. -/
  | groupPlace (launch : Nat)
  /-- COMPACTION_DRAIN_START (R202): PLACE_BOUND expires and a drain target set is fixed. -/
  | compactionDrainStart (launch : Nat)
  /-- PREEMPT (R208): Dispatcher pre-empts lower-priority images for a launch. -/
  | preempt (launch : Nat)
  /-- SNAPSHOT_COPY (R193): First write to a protected piece is copied before it performs. -/
  | snapshotCopy (launch piece : Nat)
  /-- STEWARD_FAULT_DISPATCH (R226): Steward serves, forwards or escalates a fault. -/
  | stewardFaultDispatch (die index : Nat) (choice : FaultChoice)
  /-- REPLAY_RESTORE_DONE (R190): Snapshots restored; launch returns to RUNNING. -/
  | replayRestoreDone (launch : Nat)
  /-- CONTEXT_CREATE (R167): Steward creates a context. -/
  | contextCreate (c : NewContext)
  /-- CONTEXT_TEARDOWN (R167): Context torn down; images discarded, queues freed. -/
  | contextTeardown (handle : Nat)
  /-- SWAP (R169): CTX_STAT.SWAP set starts the 96-cycle swap to the shadow bank. -/
  | swap (core : Nat)
  /-- SWAP_END (R169): The 96 swap cycles end; core free for successor. -/
  | swapEnd (core : Nat)
  /-- SPILL_COMPLETE (R168): Sett engine writes last section and tag; image SPILLED. -/
  | spillComplete (core : Nat)
  /-- RESTORE (R172): CTX_STAT.RESTORE set starts a restore from RESTORE_PA. -/
  | restore (core : Nat)
  /-- RESTORE_COMPLETE (R172): Restore checks pass and install, or fail by R173. -/
  | restoreComplete (core : Nat)
  /-- PAGE_WALK_COMPLETE (R224): Walk reads entries, sets A and D, fills TLB or faults. -/
  | pageWalkComplete (die asid va : Nat) (write : Bool)
  /-- TIER_EPOCH (R232): Epoch expiry halves every COUNT. -/
  | tierEpoch (die : Nat)
  /-- GRANULE_MOVE_START (R233): A granule starts moving inward or outward. -/
  | granuleMoveStart (die granule : Nat)
  /-- GRANULE_MOVE_COMPLETE (R235): Last line copied; INHBM flips, MIG clears. -/
  | granuleMoveComplete (die granule : Nat)
  /-- FLIT_RECEIVE (R244): Receiver checks a flit's CRC, accepts or sends NAK. -/
  | flitReceive (die port : Nat) (goodCrc : Bool)
  /-- NAK_RESEND (R244): Sender resends from the flit after ACK. -/
  | nakResend (die port : Nat)
  /-- LINK_RETRAIN (R245): LNK_CTL.RETRAIN or eight refusals start training. -/
  | linkRetrain (die port : Nat)
  /-- LINK_TRAINING_END (R245): Training ends UP, DEGRADED or DOWN. -/
  | linkTrainingEnd (die port : Nat) (outcome : Training)
  /-- LINK_TRAINING_TIMEOUT (R245): Training exceeds 20 µs or 1 ms; port DOWN. -/
  | linkTrainingTimeout (die port : Nat)
  /-- LINK_FENCE (R245): LNK_CTL.FENCE written 1; port FENCED. -/
  | linkFence (die port : Nat)
  /-- LINK_UNFENCE (R245): FENCE written 0 while no die fenced; port DOWN. -/
  | linkUnfence (die port : Nat)
  /-- ENTRY_START (R283): Engine reads and starts the chain entry at HEAD. -/
  | entryStart (chain : Nat)
  /-- COLLECTIVE_MATCH (R287): All participants' entries started; collective runs. -/
  | collectiveMatch (chain : Nat)
  /-- ROUTINE_CALL (R275): Engine calls a routine for a chunk. -/
  | routineCall (die engine : Nat) (job : Landing)
  /-- ROUTINE_RETURN (R276): Routine returns; output checked and landed or faulted. -/
  | routineReturn (die engine : Nat) (r : RoutineResult)
  /-- ROUTINE_TIMEOUT (R276): Routine runs over 1 ms; routine fault. -/
  | routineTimeout (die engine : Nat)
  /-- ENTRY_COMPLETE (R283): STATUS written and descriptor updated at the home slice. -/
  | entryComplete (chain : Nat)
  /-- HOST_ATOMICOP (R152): Host PCIe AtomicOp performed at the home slice. -/
  | hostAtomicop (op : HostAtomic) (bytes pa b c : Nat)
  /-- FOX_READ (R457): Management read of one 32-bit item of a wave. -/
  | foxRead (die core slot : Nat) (item : FoxItem)
  /-- TRAIL_RECORD (R460): Tagged instruction's trail record enters the buffer. -/
  | trailRecord (core scheduler : Nat) (r : TrailData)
  /-- GANG_HALT (R454): Other waves of the gang halt within 48 cycles. -/
  | gangHalt (core slot : Nat)
  /-- DIE_FENCE_OFF (R478): DIE_FENCE.OFF bit set fences off a die. -/
  | dieFenceOff (die off : Nat)
  /-- MONITOR_RELEASE (R303): Management command releases a frozen die to containment. -/
  | monitorRelease (die : Nat)
  /-- LIFETIME_FOLD (R482): Hourly fold of counters into the lifetime record. -/
  | lifetimeFold (die : Nat)
  /-- POWER_SAMPLE (R498): 10 µs power sample lowers or raises the arithmetic clock. -/
  | powerSample (die watts : Nat)
  /-- MODULE_RESET (R495): Reset runs self-test and boot. -/
  | moduleReset (failed : List UnitFailure) (offered : Option (List Byte))
  /-- BOOT_TIMEOUT (R495): No image offered in 10 s; boot from the running Isle slot. -/
  | bootTimeout
  /-- SPDM_REQUEST (R497): Attestation request answered with measurements. -/
  | spdmRequest (index : Nat)
  /-- BURROW_ENTRY (R499): Power-warning pin asserted; module enters Burrow. -/
  | burrowEntry
  /-- BURROW_RESUME (R500): Pin deasserted for 50 ms; module resumes. -/
  | burrowResume (failed : List Nat)
  /-- CAPACITY_POWER_LOSS (R501): Capacity tier loses power in Burrow; contexts lost. -/
  | capacityPowerLoss
  /-- REGISTER_WRITE (R432): Write to a register with no behaviour of its own. -/
  | registerWrite (die offset bytes : Nat) (value : DWord)
  /-- HOST_POSTED_WRITE (R152): A host PCIe posted write reaches device memory, such as the bytes and TYPE of a ring slot. -/
  | hostPostedWrite (pa : Nat) (data : List Byte)
  /-- MANAGEMENT_PORT_MESSAGE (R439): A message arrives on the management port and raises steward event bit 2. -/
  | managementPortMessage (die : Nat) (m : Management)
  /-- SCRUBBING (R469): Scrubbing finds an uncorrectable error that no access consumes; the line or word is marked and logged and the page charged. An array from
  16 on is one of a core of the die: `address` then gives the core in bits 5:0, the lane or slot in bits 11:6, and the index above them. -/
  | scrubbing (die array address : Nat)
  /-- SUPPLY_DROOP (R482): A supply droop event is counted for the lifetime record. -/
  | supplyDroop (die : Nat)
  /-- TEMP_MINUTE_COUNT (R482): Each minute the die maximum temperature adds one to its TEMP bin. -/
  | tempMinuteCount (die celsius : Nat)
  deriving DecidableEq, Repr

/-- A number in a marker of a level: a constant, or the number of the variable that holds it (R487). -/
inductive Extent where
  | const (n : Nat)
  | var (k : Nat)
  deriving DecidableEq, Repr

/-- What one record of a container's SCALAR, LOOP or TILE section says (R487). -/
inductive LevelRecord where
  /-- An instruction, with the variables that its fields DST, SA, SB and SC name (up to 32,767; none where a field names none), and for a direct branch or call the number of
  the record it goes to. -/
  | instr (i : Instr) (dst sa sb sc : Option Nat) (target : Option Int)
  | loop (trip : Extent)
  | loopEnd
  | region (id : Nat)
  | regionEnd (id : Nat)
  | tileMma (m n k : Extent) (fmt : Nat)
  /-- Window number and region entry, in the marker's 8 bytes. -/
  | tileWindow (payload : Nat)
  /-- A record to which R487 gives no meaning at its level. -/
  | unread (bytes : List Byte)
  deriving DecidableEq, Repr

end Sys2Proof
end

