-- ==== Sys2Proof/WellFormed.lean ====
section
/-! DEFINITION. What makes an instruction word legal by its fields alone (R83, R90, R312 to R314, R338, R364, R385 to R389, R406, R415
of spec/), and the codes of its source fields (R84). What depends on home ranks or on the machine is not here. -/

namespace Sys2Proof

/-- The source field codes of the specials (R56), counted from 0xC0. -/
def Special.code : Special → Nat
  | .zero => 0
  | .lane => 1
  | .wave => 2
  | .group => 3
  | .seq => 4
  | .lvl k => 8 + k.toNat
  | .nlvl k => 16 + k.toNat

/-- The special of a code counted from 0xC0; the reserved codes 0xC5 to 0xC7 and 0xD8 to 0xDF have none (R56). -/
def Special.ofCode (k : Nat) : Option Special :=
  if k = 0 then some .zero
  else if k = 1 then some .lane
  else if k = 2 then some .wave
  else if k = 3 then some .group
  else if k = 4 then some .seq
  else if 8 ≤ k ∧ k < 16 then some (.lvl (BitVec.ofNat 3 (k - 8)))
  else if 16 ≤ k ∧ k < 24 then some (.nlvl (BitVec.ofNat 3 (k - 16)))
  else none

/-- The code of a source field (R84). -/
def Src.code : Src → BitVec 8
  | .var n => n.setWidth 8
  | .latch k => 0x80 ||| k.setWidth 8
  | .const k => BitVec.ofNat 8 (0x88 + k.val)
  | .special x => BitVec.ofNat 8 (0xC0 + x.code)
  | .lit => 0xFF

/-- What a source field code selects; reserved codes select nothing (R56, R84). -/
def Src.ofCode (c : BitVec 8) : Option Src :=
  let n := c.toNat
  if n < 0x80 then some (.var (BitVec.ofNat 7 n))
  else if n < 0x88 then some (.latch (BitVec.ofNat 3 (n - 0x80)))
  else if h : n - 0x88 < 56 then some (.const ⟨n - 0x88, h⟩)
  else if n < 0xE0 then (Special.ofCode (n - 0xC0)).map .special
  else if n = 0xFF then some .lit
  else none

/-- The part an operand field plays (R312, R363, R385): not used, one 32-bit value, a pair, a quad, or the name of a variable. -/
inductive Role where
  | unused
  | one
  | pair
  | quad
  | name
  deriving DecidableEq, Repr

/-- The layout of an instruction word (R81, R82): B-form with two sources, B-form with a function code in SB, a control word,
hint space, X-form, and X-form major 0x0D FN 0xB whose SB is a function code. -/
inductive Form where
  | b
  | u
  | ctl
  | hint
  | x
  | xfn (code : Nat)
  deriving DecidableEq, Repr

/-- The fields of an instruction word with the parts the spec gives them. `fn` is FN, or the SB code of a B-form; `sReq` is the value of S
that the encoding requires, if any; `immOk` says that IMM holds what the entry allows; `flagOk` that a FLAG may be named. -/
structure OpSpec where
  form : Form
  major : Nat
  fn : Nat
  sReq : Option Bool
  dist : BitVec 2
  s : Bool
  nwb : Bool
  dst : BitVec 7
  dstRole : Role
  sa : Src
  saRole : Role
  sb : Src
  sbRole : Role
  sc : Src
  scRole : Role
  flag : Option (Fin 12)
  flagOk : Bool
  imm : BitVec 16
  immOk : Bool
  lit : Option Word
  deriving DecidableEq, Repr

/-- The role of a W-bit operand under W64 (R312). -/
def wr (x : XArgs) : Role := if x.w64 then .pair else .one
/-- IMM[0] of `imul` and `imad` (R320). -/
def wide (x : XArgs) : Bool := x.imm.getLsbD 0
/-- The destination and third source of `imul` and `imad`: a pair under WIDE (R323). -/
def wideDst (x : XArgs) : Role := if wide x then .pair else wr x
/-- The factors of `imul` and `imad`: 32 bits under WIDE (R323). -/
def wideSrc (x : XArgs) : Role := if wide x then .one else wr x
/-- The role of the value of a load or store (R385). -/
def mr : MemWidth → Role
  | .b64 => .pair
  | .b128 => .quad
  | _ => .one
/-- The role of a matrix address: a 32-bit offset for the scratchpad, a pair for global memory (R256). -/
def sp (x : XArgs) : Role := if x.imm.getLsbD 0 then .pair else .one
/-- The role of a barrier operand: an offset under `.group`, a pair otherwise (R407). -/
def br (x : XArgs) : Role := if x.scope = 1 then .one else .pair
/-- No IMM bit outside the mask is set (R83). -/
def only (x : XArgs) (mask : BitVec 16) : Bool := (x.imm &&& ~~~mask) == 0
/-- LEN of `bfx` and `bfi` lies in 1 to W (R334, R335). -/
def lenOk (x : XArgs) : Bool := 1 ≤ x.immBits 6 0 && x.immBits 6 0 ≤ (if x.w64 then 64 else 32)
/-- SGN of a load stands with the widths 8 and 16 only (R387). -/
def narrowSgn (w : MemWidth) (x : XArgs) : Bool := !x.sgn || w == .b8 || w == .b16
/-- ORD is one that the instruction takes, and SCOPE is zero exactly where the access is relaxed by R386, and no code above `.fab`. -/
def ordOk (x : XArgs) (allowed : List Nat) : Bool :=
  allowed.contains x.ord.toNat && x.scope.toNat ≤ 4 && (x.ord != 0 || x.scope == 0)
/-- The SCOPE codes of the barrier instructions (R406). -/
def barScope (x : XArgs) : Bool := 1 ≤ x.scope.toNat && x.scope.toNat ≤ 4
/-- `merge.lane` takes no latch in SA (R371). -/
def notLatch : Src → Bool
  | .latch _ => false
  | _ => true
/-- The `ecall` services that the table gives rows of their own (R185, R494). -/
def ecallServices : List Nat := [0x10, 0x20, 0x21, 0x22, 0x23, 0x24]

/-- A B-form with two sources (R319, R345). -/
def bSpec (major : Nat) (o : BArgs) : OpSpec :=
  { form := .b, major, fn := 0, sReq := none, dist := o.dist, s := o.s, nwb := o.nwb, dst := o.dst, dstRole := .one, sa := o.sa,
    saRole := .one, sb := o.sb, sbRole := .one, sc := .var 0, scRole := .unused, flag := none, flagOk := true, imm := 0,
    immOk := true, lit := o.lit }

/-- A B-form with a function code in SB (R319, R345). -/
def uSpec (major code : Nat) (o : UArgs) : OpSpec :=
  { form := .u, major, fn := code, sReq := none, dist := o.dist, s := o.s, nwb := o.nwb, dst := o.dst, dstRole := .one, sa := o.sa,
    saRole := .one, sb := .var 0, sbRole := .unused, sc := .var 0, scRole := .unused, flag := none, flagOk := true, imm := 0,
    immOk := true, lit := o.lit }

/-- A control word of major 0x11 with S = 1 (R366). -/
def cSpec (code : Nat) (o : CArgs) : OpSpec :=
  { form := .ctl, major := 0x11, fn := code, sReq := some true, dist := o.dist, s := true, nwb := false, dst := 0, dstRole := .unused,
    sa := .var 0, saRole := .unused, sb := .var 0, sbRole := .unused, sc := .var 0, scRole := .unused, flag := none, flagOk := true,
    imm := 0, immOk := true, lit := none }

/-- Hint space (R93, R446). -/
def hintSpec (o : HintArgs) : OpSpec :=
  { form := .hint, major := 0x1F, fn := 0, sReq := some false, dist := o.dist, s := false, nwb := false, dst := 0, dstRole := .unused,
    sa := .var 0, saRole := .unused, sb := .var 0, sbRole := .unused, sc := .var 0, scRole := .unused, flag := none, flagOk := true,
    imm := 0, immOk := true, lit := none }

/-- An X-form (R308). -/
def xSpec (major fn : Nat) (sReq : Option Bool) (dst sa sb sc : Role) (immOk flagOk : Bool) (x : XArgs) : OpSpec :=
  { form := .x, major, fn, sReq, dist := x.dist, s := x.s, nwb := x.nwb, dst := x.dst, dstRole := dst, sa := x.sa, saRole := sa,
    sb := x.sb, sbRole := sb, sc := x.sc, scRole := sc, flag := x.flag, flagOk, imm := x.imm, immOk, lit := x.lit }

/-- The unary functions of major 0x0D FN 0xB, with the function code in SB (R352). -/
def fnSpec (code : Nat) (immOk : Bool) (x : XArgs) : OpSpec :=
  { xSpec 0x0D 0xB none .one .one .unused .unused immOk true x with form := .xfn code }

/-- What the spec says of each instruction word's fields, and none for an event, which has no word. -/
def Instr.spec : Instr → Option OpSpec
  | .iadd o => some (bSpec 0x00 o)
  | .isub o => some (bSpec 0x01 o)
  | .and o => some (bSpec 0x02 o)
  | .or o => some (bSpec 0x03 o)
  | .xor o => some (bSpec 0x04 o)
  | .shl o => some (bSpec 0x05 o)
  | .shr o => some (bSpec 0x06 o)
  | .fadd o => some (bSpec 0x07 o)
  | .fmul o => some (bSpec 0x08 o)
  | .fsub o => some (bSpec 0x0E o)
  | .mov o => some (uSpec 0x09 0 o)
  | .not o => some (uSpec 0x09 1 o)
  | .ineg o => some (uSpec 0x09 2 o)
  | .iabs o => some (uSpec 0x09 3 o)
  | .popc o => some (uSpec 0x09 4 o)
  | .clz o => some (uSpec 0x09 5 o)
  | .ctz o => some (uSpec 0x09 6 o)
  | .brev o => some (uSpec 0x09 7 o)
  | .fabs o => some (uSpec 0x0A 0 o)
  | .fneg o => some (uSpec 0x0A 1 o)
  | .frcp o => some (uSpec 0x0A 2 o)
  | .frsq o => some (uSpec 0x0A 3 o)
  | .fsqrt o => some (uSpec 0x0A 4 o)
  | .fexp2 o => some (uSpec 0x0A 5 o)
  | .flog2 o => some (uSpec 0x0A 6 o)
  | .fsin o => some (uSpec 0x0A 7 o)
  | .fcos o => some (uSpec 0x0A 8 o)
  | .ftanh o => some (uSpec 0x0A 9 o)
  | .fsig o => some (uSpec 0x0A 10 o)
  | .ffrac o => some (uSpec 0x0A 11 o)
  | .fclass o => some (uSpec 0x0A 12 o)
  | .iaddX x => some (xSpec 0x0B 0 none (wr x) (wr x) (wr x) .unused (only x 0xC800 && (x.sgn → x.sat)) true x)
  | .isubX x => some (xSpec 0x0B 1 none (wr x) (wr x) (wr x) .unused (only x 0xC800 && (x.sgn → x.sat)) true x)
  | .imul x => some (xSpec 0x0B 2 none (wideDst x) (wideSrc x) (wideSrc x) .unused (only x 0xC001 && !(x.w64 && wide x) && (x.sgn → wide x)) true x)
  | .imulh x => some (xSpec 0x0B 3 none (wr x) (wr x) (wr x) .unused (only x 0xC000) true x)
  | .imad x => some (xSpec 0x0B 4 none (wideDst x) (wideSrc x) (wideSrc x) (wideDst x) (only x 0xC001 && !(x.w64 && wide x) && (x.sgn → wide x)) true x)
  | .imin x => some (xSpec 0x0B 5 none (wr x) (wr x) (wr x) .unused (only x 0xC000) true x)
  | .imax x => some (xSpec 0x0B 6 none (wr x) (wr x) (wr x) .unused (only x 0xC000) true x)
  | .iabsX x => some (xSpec 0x0B 7 none (wr x) (wr x) .unused .unused (only x 0x8800) true x)
  | .inegX x => some (xSpec 0x0B 8 none (wr x) (wr x) .unused .unused (only x 0x8800) true x)
  | .icmp x => some (xSpec 0x0B 9 none .one (wr x) (wr x) .unused (only x 0xC007 && x.immBits 2 0 ≤ 5 && (x.sgn → 2 ≤ x.immBits 2 0)) true x)
  | .isel x => some (xSpec 0x0B 10 none (wr x) (wr x) (wr x) .one (only x 0x8000) true x)
  | .bsel x => some (xSpec 0x0B 11 none (wr x) (wr x) (wr x) (wr x) (only x 0x8000) true x)
  | .lea x => some (xSpec 0x0B 12 none (wr x) (wr x) .one .unused (only x 0xC03F && (x.sgn → x.w64) && (x.w64 || x.immBits 5 0 ≤ 31)) true x)
  | .movX x => some (xSpec 0x0B 13 none (wr x) (wr x) .unused .unused (only x 0x8000) true x)
  | .andX x => some (xSpec 0x0C 0 none (wr x) (wr x) (wr x) .unused (only x 0x8000) true x)
  | .orX x => some (xSpec 0x0C 1 none (wr x) (wr x) (wr x) .unused (only x 0x8000) true x)
  | .xorX x => some (xSpec 0x0C 2 none (wr x) (wr x) (wr x) .unused (only x 0x8000) true x)
  | .andn x => some (xSpec 0x0C 3 none (wr x) (wr x) (wr x) .unused (only x 0x8000) true x)
  | .notX x => some (xSpec 0x0C 4 none (wr x) (wr x) .unused .unused (only x 0x8000) true x)
  | .shlX x => some (xSpec 0x0C 5 none (wr x) (wr x) .one .unused (only x 0x8000) true x)
  | .shrX x => some (xSpec 0x0C 6 none (wr x) (wr x) .one .unused (only x 0x8000) true x)
  | .sar x => some (xSpec 0x0C 7 none (wr x) (wr x) .one .unused (only x 0x8000) true x)
  | .fshl x => some (xSpec 0x0C 8 none (wr x) (wr x) (wr x) .one (only x 0x8000) true x)
  | .fshr x => some (xSpec 0x0C 9 none (wr x) (wr x) (wr x) .one (only x 0x8000) true x)
  | .bfx x => some (xSpec 0x0C 10 none (wr x) (wr x) .one .unused (only x 0xC07F && lenOk x) true x)
  | .bfi x => some (xSpec 0x0C 11 none (wr x) (wr x) (wr x) .one (only x 0x807F && lenOk x) true x)
  | .popcX x => some (xSpec 0x0C 12 none .one (wr x) .unused .unused (only x 0x8000) true x)
  | .clzX x => some (xSpec 0x0C 13 none .one (wr x) .unused .unused (only x 0x8000) true x)
  | .ctzX x => some (xSpec 0x0C 14 none .one (wr x) .unused .unused (only x 0x8000) true x)
  | .brevX x => some (xSpec 0x0C 15 none (wr x) (wr x) .unused .unused (only x 0x8000) true x)
  | .faddX x => some (xSpec 0x0D 0 none .one .one .one .unused (only x 0x3800) true x)
  | .fsubX x => some (xSpec 0x0D 1 none .one .one .one .unused (only x 0x3800) true x)
  | .fmulX x => some (xSpec 0x0D 2 none .one .one .one .unused (only x 0x3800) true x)
  | .ffma x => some (xSpec 0x0D 3 none .one .one .one .one (only x 0x3800) true x)
  | .fmin x => some (xSpec 0x0D 4 none .one .one .one .unused (only x 0) true x)
  | .fmax x => some (xSpec 0x0D 5 none .one .one .one .unused (only x 0) true x)
  | .fminnum x => some (xSpec 0x0D 6 none .one .one .one .unused (only x 0) true x)
  | .fmaxnum x => some (xSpec 0x0D 7 none .one .one .one .unused (only x 0) true x)
  | .fcmp x => some (xSpec 0x0D 8 none .one .one .one .unused (only x 7) true x)
  | .fscale x => some (xSpec 0x0D 9 none .one .one .one .unused (only x 0x3800) true x)
  | .fround x => some (xSpec 0x0D 10 none .one .one .unused .unused (only x 0x3000) true x)
  | .fabsX x => some (fnSpec 0 (only x 0x0) x)
  | .fnegX x => some (fnSpec 1 (only x 0x0) x)
  | .frcpX x => some (fnSpec 2 (only x 0x3800) x)
  | .frsqX x => some (fnSpec 3 (only x 0x0) x)
  | .fsqrtX x => some (fnSpec 4 (only x 0x3000) x)
  | .fexp2X x => some (fnSpec 5 (only x 0x800) x)
  | .flog2X x => some (fnSpec 6 (only x 0x0) x)
  | .fsinX x => some (fnSpec 7 (only x 0x0) x)
  | .fcosX x => some (fnSpec 8 (only x 0x0) x)
  | .ftanhX x => some (fnSpec 9 (only x 0x0) x)
  | .fsigX x => some (fnSpec 10 (only x 0x0) x)
  | .ffracX x => some (fnSpec 11 (only x 0x3000) x)
  | .fclassX x => some (fnSpec 12 (only x 0x0) x)
  | .shflIdx x => some (xSpec 0x10 0 (some false) (wr x) (wr x) .one .unused (only x 0x8007 && x.immBits 2 0 ≤ 5) true x)
  | .shflUp x => some (xSpec 0x10 1 (some false) (wr x) (wr x) .one .unused (only x 0x8007 && x.immBits 2 0 ≤ 5) true x)
  | .shflDown x => some (xSpec 0x10 2 (some false) (wr x) (wr x) .one .unused (only x 0x8007 && x.immBits 2 0 ≤ 5) true x)
  | .shflXor x => some (xSpec 0x10 3 (some false) (wr x) (wr x) .one .unused (only x 0x8007 && x.immBits 2 0 ≤ 5) true x)
  | .bra x => some (xSpec 0x10 0 (some true) .unused .unused .unused .unused (true) false x)
  | .bz x => some (xSpec 0x10 1 (some true) .unused .one .unused .unused (true) false x)
  | .bnz x => some (xSpec 0x10 2 (some true) .unused .one .unused .unused (true) false x)
  | .brx x => some (xSpec 0x10 3 (some true) .unused .pair .unused .unused (only x 0) false x)
  | .call x => some (xSpec 0x10 4 (some true) .unused .unused .unused .unused (true) false x)
  | .calli x => some (xSpec 0x10 5 (some true) .unused .pair .unused .unused (only x 0) false x)
  | .grow x => some (xSpec 0x10 6 (some true) .one .one .unused .unused (only x 0) true x)
  | .fwait x => some (xSpec 0x10 7 (some true) .unused .unused .unused .unused (only x 0x0FFF) false x)
  | .voteAny x => some (xSpec 0x11 0 (some false) .one (wr x) .unused .unused (only x 0x8000) true x)
  | .voteAll x => some (xSpec 0x11 1 (some false) .one (wr x) .unused .unused (only x 0x8000) true x)
  | .voteEq x => some (xSpec 0x11 2 (some false) .one (wr x) .unused .unused (only x 0x8000) true x)
  | .ballot x => some (xSpec 0x11 3 (some false) .pair (wr x) .unused .unused (only x 0x8000) true x)
  | .ret o => some (cSpec 0 o)
  | .exit o => some (cSpec 1 o)
  | .trigger o => some (cSpec 2 o)
  | .yield o => some (cSpec 3 o)
  | .nop o => some (cSpec 4 o)
  | .hint o => some (hintSpec o)
  | .mergeChk x => some (xSpec 0x12 0 (some false) .one .name .unused .unused (only x 0) true x)
  | .mergeLane x => some (xSpec 0x12 1 (some false) .name .one .unused .unused (only x 0 && notLatch x.sa) true x)
  | .mergeG x => some (xSpec 0x12 2 (some false) .name .one .unused .unused (only x 0) true x)
  | .rkq x => some (xSpec 0x12 3 (some false) .pair .name .unused .unused (only x 0) true x)
  | .rkhome x => some (xSpec 0x12 4 (some false) .one .name .unused .unused (only x 0) true x)
  | .dot4E4m3 x => some (xSpec 0x13 0 (some false) .one .one .one .one (only x 0x3800) true x)
  | .dot4E5m2 x => some (xSpec 0x13 1 (some false) .one .one .one .one (only x 0x3800) true x)
  | .dot8E2m1 x => some (xSpec 0x13 2 (some false) .one .one .one .one (only x 0x3800) true x)
  | .dot2B16 x => some (xSpec 0x13 3 (some false) .one .one .one .one (only x 0x3800) true x)
  | .dot4I8 x => some (xSpec 0x13 4 (some false) .one .one .one .one (only x 0x0) true x)
  | .dot4N8 x => some (xSpec 0x13 5 (some false) .one .one .one .one (only x 0x0) true x)
  | .dot8I4 x => some (xSpec 0x13 6 (some false) .one .one .one .one (only x 0x0) true x)
  | .dots4E4m3 x => some (xSpec 0x14 0 (some false) .one .one .one .one (only x 0x3BFF && (Src.ofCode (x.imm.extractLsb' 0 8)).isSome) true x)
  | .dots4E5m2 x => some (xSpec 0x14 1 (some false) .one .one .one .one (only x 0x3BFF && (Src.ofCode (x.imm.extractLsb' 0 8)).isSome) true x)
  | .dots8E2m1 x => some (xSpec 0x14 2 (some false) .one .one .one .one (only x 0x3BFF && (Src.ofCode (x.imm.extractLsb' 0 8)).isSome) true x)
  | .hadd2 x => some (xSpec 0x15 0 (some false) .one .one .one .unused (only x 0x3801) true x)
  | .hsub2 x => some (xSpec 0x15 1 (some false) .one .one .one .unused (only x 0x3801) true x)
  | .hmul2 x => some (xSpec 0x15 2 (some false) .one .one .one .unused (only x 0x3801) true x)
  | .hfma2 x => some (xSpec 0x15 3 (some false) .one .one .one .one (only x 0x3801) true x)
  | .hmin2 x => some (xSpec 0x15 4 (some false) .one .one .one .unused (only x 0x1) true x)
  | .hmax2 x => some (xSpec 0x15 5 (some false) .one .one .one .unused (only x 0x1) true x)
  | .cvtF32I32 x => some (xSpec 0x16 0 (some false) .one .one .unused .unused (only x 0x7000) true x)
  | .cvtI32F32 x => some (xSpec 0x16 1 (some false) .one .one .unused .unused (only x 0x7000) true x)
  | .cvtF32F16 x => some (xSpec 0x16 2 (some false) .one .one .unused .unused (only x 0x1) true x)
  | .cvtF32B16 x => some (xSpec 0x16 3 (some false) .one .one .unused .unused (only x 0x1) true x)
  | .cvtPkF16F32 x => some (xSpec 0x16 4 (some false) .one .one .one .unused (only x 0x3800) true x)
  | .cvtPkB16F32 x => some (xSpec 0x16 5 (some false) .one .one .one .unused (only x 0x3800) true x)
  | .cvtPkE4m3F32 x => some (xSpec 0x16 6 (some false) .one .one .one .one (only x 0x3801) true x)
  | .cvtPkE5m2F32 x => some (xSpec 0x16 7 (some false) .one .one .one .one (only x 0x3801) true x)
  | .cvtPkE2m1F32 x => some (xSpec 0x16 8 (some false) .one .one .one .one (only x 0x3803) true x)
  | .cvtUpB16E4m3 x => some (xSpec 0x16 9 (some false) .one .one .unused .unused (only x 0x1) true x)
  | .cvtUpB16E5m2 x => some (xSpec 0x16 10 (some false) .one .one .unused .unused (only x 0x1) true x)
  | .cvtUpB16E2m1 x => some (xSpec 0x16 11 (some false) .one .one .unused .unused (only x 0x3) true x)
  | .cvtB16E8m0 x => some (xSpec 0x16 12 (some false) .one .one .unused .unused (only x 0x1) true x)
  | .cvtPkI8F32 x => some (xSpec 0x16 13 (some false) .one .one .one .one (only x 0x3801) true x)
  | .cvtPkI4F32 x => some (xSpec 0x16 14 (some false) .one .one .one .one (only x 0x3803) true x)
  | .lread x => some (xSpec 0x17 0 (some true) (wr x) .one .unused .unused (only x 0x807F && (x.w64 → x.immBits 0 0 = 0)) true x)
  | .lwrite x => some (xSpec 0x17 1 (some true) .unused .one (wr x) .unused (only x 0x807F && (x.w64 → x.immBits 0 0 = 0)) true x)
  | .ld w x => some (xSpec 0x18 (0 + w.code) none (mr w) .pair .one .unused (only x 0x7E00 && narrowSgn w x && ordOk x [0, 1]) true x)
  | .lds w x => some (xSpec 0x18 (8 + w.code) none (mr w) .one .one .unused (only x 0x4000 && narrowSgn w x) true x)
  | .st w x => some (xSpec 0x19 (0 + w.code) none .unused .pair .one (mr w) (only x 0x3E00 && ordOk x [0, 2]) true x)
  | .sts w x => some (xSpec 0x19 (8 + w.code) none .unused .one .one (mr w) (only x 0) true x)
  | .aadd x => some (xSpec 0x1A 0 none (wr x) .pair (wr x) .unused (only x 0xBE00 && ordOk x [0, 1, 2, 3]) true x)
  | .amin x => some (xSpec 0x1A 1 none (wr x) .pair (wr x) .unused (only x 0xFE00 && ordOk x [0, 1, 2, 3]) true x)
  | .amax x => some (xSpec 0x1A 2 none (wr x) .pair (wr x) .unused (only x 0xFE00 && ordOk x [0, 1, 2, 3]) true x)
  | .aand x => some (xSpec 0x1A 3 none (wr x) .pair (wr x) .unused (only x 0xBE00 && ordOk x [0, 1, 2, 3]) true x)
  | .aor x => some (xSpec 0x1A 4 none (wr x) .pair (wr x) .unused (only x 0xBE00 && ordOk x [0, 1, 2, 3]) true x)
  | .axor x => some (xSpec 0x1A 5 none (wr x) .pair (wr x) .unused (only x 0xBE00 && ordOk x [0, 1, 2, 3]) true x)
  | .axchg x => some (xSpec 0x1A 6 none (wr x) .pair (wr x) .unused (only x 0xBE00 && ordOk x [0, 1, 2, 3]) true x)
  | .acas x => some (xSpec 0x1A 7 none (wr x) .pair (wr x) (wr x) (only x 0xBE00 && ordOk x [0, 1, 2, 3]) true x)
  | .afadd x => some (xSpec 0x1A 8 none (wr x) .pair (wr x) .unused (only x 0xBE00 && ordOk x [0, 1, 2, 3]) true x)
  | .afmin x => some (xSpec 0x1A 9 none (wr x) .pair (wr x) .unused (only x 0xBE00 && ordOk x [0, 1, 2, 3]) true x)
  | .afmax x => some (xSpec 0x1A 10 none (wr x) .pair (wr x) .unused (only x 0xBE00 && ordOk x [0, 1, 2, 3]) true x)
  | .lr x => some (xSpec 0x1B 0 none (wr x) .pair .unused .unused (only x 0xBE00 && ordOk x [0, 1]) true x)
  | .sc x => some (xSpec 0x1B 1 none .one .pair (wr x) .unused (only x 0xBE00 && ordOk x [0, 2]) true x)
  | .fence x => some (xSpec 0x1B 2 none .unused .unused .unused .unused (only x 0x3E00 && ordOk x [1, 2, 3]) true x)
  | .mclaim x => some (xSpec 0x1C 0 (some true) .one .one .unused .unused (only x 0x0) true x)
  | .mrel x => some (xSpec 0x1C 1 (some true) .unused .one .unused .unused (only x 0x0) true x)
  | .mfill x => some (xSpec 0x1C 2 (some true) .unused (sp x) .unused .unused (only x 0x1FF) true x)
  | .mzero x => some (xSpec 0x1C 3 (some true) .unused .unused .one .unused (only x 0x600) true x)
  | .mload x => some (xSpec 0x1C 4 (some true) .unused (sp x) .one .one (only x 0x8601) true x)
  | .mma x => some (xSpec 0x1C 5 (some true) .one (sp x) .one .unused (only x 0x1) true x)
  | .mver x => some (xSpec 0x1C 6 (some true) .one .unused .unused .unused (only x 0x600) true x)
  | .mdrain x => some (xSpec 0x1C 7 (some true) .unused (sp x) .one .one (only x 0x7E01) true x)
  | .mverify x => some (xSpec 0x1C 8 (some true) .unused .unused .one .unused (only x 0x600) true x)
  | .mloc x => some (xSpec 0x1C 9 (some true) .pair .unused .unused .unused (only x 0x660) true x)
  | .mfix x => some (xSpec 0x1C 10 (some true) .one .unused .unused .unused (only x 0x600) true x)
  | .mretry x => some (xSpec 0x1C 11 (some true) .one .unused .unused .unused (only x 0x600) true x)
  | .mstat x => some (xSpec 0x1C 12 (some true) .pair .unused .unused .unused (only x 0x600) true x)
  | .barInit x => some (xSpec 0x1D 0 (some true) .one (br x) .one .unused (only x 0x0F00 && barScope x) true x)
  | .barArrive x => some (xSpec 0x1D 1 (some true) .one (br x) .one .unused (only x 0x0E00 && barScope x) true x)
  | .barExpect x => some (xSpec 0x1D 2 (some true) .unused (br x) .one .unused (only x 0x0E00 && barScope x) true x)
  | .barWait x => some (xSpec 0x1D 3 (some true) .one (br x) .one .unused (only x 0x0E00 && barScope x) true x)
  | .barTest x => some (xSpec 0x1D 4 (some true) .one (br x) .one .unused (only x 0x0E00 && barScope x) true x)
  | .barDrop x => some (xSpec 0x1D 5 (some true) .one (br x) .unused .unused (only x 0x0E00 && barScope x) true x)
  | .wbind x => some (xSpec 0x1D 6 (some true) .one .pair .unused .unused (only x 0x01FF) true x)
  | .wunbind x => some (xSpec 0x1D 7 (some true) .unused .unused .unused .unused (only x 0xF) true x)
  | .wstat x => some (xSpec 0x1D 8 (some true) .pair .unused .unused .unused (only x 0xF) true x)
  | .enq x => some (xSpec 0x1D 9 (some true) .pair .pair .pair .unused (only x 0) true x)
  | .eseq x => some (xSpec 0x1D 10 (some true) .pair .pair .unused .unused (only x 0) true x)
  | .trap x => some (xSpec 0x1E 0 (some true) .unused .unused .unused .unused (only x 0xFF) false x)
  | .brk x => some (xSpec 0x1E 12 (some true) .unused .unused .unused .unused (only x 0) false x)
  | .tret x => some (xSpec 0x1E 1 (some true) .unused .unused .unused .unused (x.imm = 0) false x)
  | .tretSkip x => some (xSpec 0x1E 1 (some true) .unused .unused .unused .unused (x.imm = 1) false x)
  | .csrr x => some (xSpec 0x1E 2 (some true) .pair .unused .one .unused (only x 0xFFF) true x)
  | .csrw x => some (xSpec 0x1E 3 (some true) .unused .pair .one .unused (only x 0xFFF) true x)
  | .csrs x => some (xSpec 0x1E 4 (some true) .unused .pair .one .unused (only x 0xFFF) true x)
  | .csrc x => some (xSpec 0x1E 5 (some true) .unused .pair .one .unused (only x 0xFFF) true x)
  | .isync x => some (xSpec 0x1E 6 (some true) .unused .unused .unused .unused (only x 0) true x)
  | .iflush x => some (xSpec 0x1E 7 (some true) .unused .pair .one .unused (only x 0) true x)
  | .ecall x => some (xSpec 0x1E 8 (some true) .pair .pair .pair .unused (only x 0xFF && x.imm.toNat ∉ ecallServices) true x)
  | .ecallAnswer _ _ _ => none
  | .queueQuiesce x => some (xSpec 0x1E 8 (some true) .pair .pair .pair .unused (x.imm = 0x20) true x)
  | .queueResume x => some (xSpec 0x1E 8 (some true) .pair .pair .pair .unused (x.imm = 0x21) true x)
  | .queueReset x => some (xSpec 0x1E 8 (some true) .pair .pair .pair .unused (x.imm = 0x22) true x)
  | .traceBind x => some (xSpec 0x1E 8 (some true) .pair .pair .pair .unused (x.imm = 0x23) true x)
  | .traceClose x => some (xSpec 0x1E 8 (some true) .pair .pair .pair .unused (x.imm = 0x24) true x)
  | .codeLoad x => some (xSpec 0x1E 8 (some true) .pair .pair .pair .unused (x.imm = 0x10) true x)
  | .hostMailboxRequest _ _ _ _ _ => none
  | .monitorVersion x => some (xSpec 0x1E 9 (some true) .pair .pair .pair .unused (x.imm = 0x0) true x)
  | .imageVerify x => some (xSpec 0x1E 9 (some true) .pair .pair .pair .unused (x.imm = 0x1) true x)
  | .imageMeasure x => some (xSpec 0x1E 9 (some true) .pair .pair .pair .unused (x.imm = 0x2) true x)
  | .isleWrite x => some (xSpec 0x1E 9 (some true) .pair .pair .pair .unused (x.imm = 0x3) true x)
  | .isleSwitch x => some (xSpec 0x1E 9 (some true) .pair .pair .pair .unused (x.imm = 0x4) true x)
  | .heartbeat x => some (xSpec 0x1E 9 (some true) .pair .pair .pair .unused (x.imm = 0x5) true x)
  | .fuseSvn x => some (xSpec 0x1E 9 (some true) .pair .pair .pair .unused (x.imm = 0x6) true x)
  | .moncallUnknown x => some (xSpec 0x1E 9 (some true) .pair .pair .pair .unused (only x 0xFF && 7 ≤ x.imm.toNat) true x)
  | .heartbeatTimeout _ => none
  | .wfi x => some (xSpec 0x1E 10 (some true) .one .unused .unused .unused (only x 0) true x)
  | .tlbinvAll x => some (xSpec 0x1E 11 (some true) .unused .unused .pair .unused (x.imm = 0) true x)
  | .tlbinvAsid x => some (xSpec 0x1E 11 (some true) .unused .unused .pair .unused (only x 0xFFF && x.immBits 1 0 = 1 && x.immBits 11 2 ≠ 0) true x)
  | .tlbinvRange x => some (xSpec 0x1E 11 (some true) .unused .pair .pair .one (only x 0xFFF && x.immBits 1 0 = 2 && x.immBits 11 2 ≠ 0) true x)
  | .dhalt x => some (xSpec 0x1E 0 (some false) .one .one .unused .unused (only x 0xFFF) true x)
  | .dresume x => some (xSpec 0x1E 1 (some false) .one .one .pair .unused (only x 0x3FF) true x)
  | .dstep x => some (xSpec 0x1E 2 (some false) .one .one .pair .unused (only x 0x3FF) true x)
  | .dread x => some (xSpec 0x1E 3 (some false) .quad .one .one .unused (only x 0x3FF) true x)
  | .dwrite x => some (xSpec 0x1E 4 (some false) .one .one .one .pair (only x 0x3FF) true x)
  | .clauseStart _ => none
  | .waveSwap _ _ => none
  | .pendingStarvationTimeout _ _ => none
  | .memoryResponse _ _ => none
  | .impreciseFault _ _ => none
  | .octetReturn _ _ => none
  | .sectorLanding _ => none
  | .stageSourceFailure _ _ _ _ => none
  | .barrierWake _ _ => none
  | .globalBarrierRetest _ _ => none
  | .mfillComplete _ _ => none
  | .matrixOpStart _ _ => none
  | .matrixOpComplete _ _ => none
  | .qdoorbell _ _ => none
  | .launchPacket _ _ => none
  | .waitPacket _ => none
  | .waitSatisfied _ => none
  | .markPacket _ => none
  | .markSignal _ => none
  | .stewardTick _ => none
  | .groupPlace _ => none
  | .compactionDrainStart _ => none
  | .preempt _ => none
  | .snapshotCopy _ _ => none
  | .stewardFaultDispatch _ _ _ => none
  | .replayRestoreDone _ => none
  | .contextCreate _ => none
  | .contextTeardown _ => none
  | .swap _ => none
  | .swapEnd _ => none
  | .spillComplete _ => none
  | .restore _ => none
  | .restoreComplete _ => none
  | .pageWalkComplete _ _ _ _ => none
  | .tierEpoch _ => none
  | .granuleMoveStart _ _ => none
  | .granuleMoveComplete _ _ => none
  | .flitReceive _ _ _ => none
  | .nakResend _ _ => none
  | .linkRetrain _ _ => none
  | .linkTrainingEnd _ _ _ => none
  | .linkTrainingTimeout _ _ => none
  | .linkFence _ _ => none
  | .linkUnfence _ _ => none
  | .entryStart _ => none
  | .collectiveMatch _ => none
  | .routineCall _ _ _ => none
  | .routineReturn _ _ _ => none
  | .routineTimeout _ _ => none
  | .entryComplete _ => none
  | .hostAtomicop _ _ _ _ _ => none
  | .foxRead _ _ _ _ => none
  | .trailRecord _ _ _ => none
  | .gangHalt _ _ => none
  | .dieFenceOff _ _ => none
  | .monitorRelease _ => none
  | .lifetimeFold _ => none
  | .powerSample _ _ => none
  | .moduleReset _ _ => none
  | .bootTimeout => none
  | .spdmRequest _ => none
  | .burrowEntry => none
  | .burrowResume _ => none
  | .capacityPowerLoss => none
  | .registerWrite _ _ _ _ => none
  | .hostPostedWrite _ _ => none
  | .managementPortMessage _ _ => none
  | .scrubbing _ _ _ => none
  | .supplyDroop _ => none
  | .tempMinuteCount _ _ => none

/-- Is a destination field legal for its role (R83, R312, R385)? -/
def dstOk : Role → BitVec 7 → Bool
  | .unused, d => d == 0
  | .pair, d => d.toNat % 2 == 0
  | .quad, d => d.toNat % 4 == 0
  | _, _ => true

/-- Is a source field legal for its role (R83, R312, R363, R385)? -/
def srcOk : Role → Src → Bool
  | .unused, x => x == .var 0
  | .one, _ => true
  | .pair, .var n => n.toNat % 2 == 0
  | .pair, _ => true
  | .quad, .var n => n.toNat % 4 == 0
  | .quad, _ => false
  | .name, .var _ => true
  | .name, _ => false

/-- The scale-word source that IMM[7:0] of major 0x14 holds (R346). -/
def OpSpec.xs (p : OpSpec) : Option Src :=
  if p.form = .x ∧ p.major = 0x14 then Src.ofCode (p.imm.extractLsb' 0 8) else none

/-- Some source field is 0xFF, so the instruction has a literal word (R82). -/
def OpSpec.usesLit (p : OpSpec) : Bool := p.sa == .lit || p.sb == .lit || p.sc == .lit || p.xs == some .lit

/-- The instruction is legal by its fields (R83, R90, R312, R314): each field fits the part the spec gives it, a set NWB stands only where
there is a result (R55), and there is a literal word exactly where a source field reads it. -/
def OpSpec.ok (p : OpSpec) : Bool :=
  (p.sReq.all (· == p.s)) && dstOk p.dstRole p.dst && srcOk p.saRole p.sa && srcOk p.sbRole p.sb && srcOk p.scRole p.sc
    && p.immOk && (p.flagOk || p.flag == none) && (p.dstRole != .unused || !p.nwb) && p.usesLit == p.lit.isSome

/-- A well-formed instruction: a legal instruction word. An event is no instruction word and is not well formed. -/
def Instr.wf (i : Instr) : Bool := i.spec.any OpSpec.ok

/-- The words an instruction takes: base, extension in the X-form, literal when read (R82). -/
def OpSpec.length (p : OpSpec) : Nat :=
  (match p.form with
    | .x | .xfn _ => 2
    | _ => 1) + b2n p.lit.isSome

/-- The words an instruction takes; an event takes none. -/
def Instr.length (i : Instr) : Nat := (i.spec.map OpSpec.length).getD 0

end Sys2Proof
end

