-- ==== Sys2Proof/Decode.lean ====
section
/-! DEFINITION. The decoder of instruction words and the encoder beside it (R81 to R90 of spec/05_encoding_and_assembly.md). -/

namespace Sys2Proof

/-- Why words are no instruction. Each raises the illegal-instruction trap when the words issue (R78, R90). -/
inductive DecodeError where
  /-- The instruction needs more words than there are (R78). -/
  | truncated
  /-- A reserved major, or one reserved at this S (R88, R89). -/
  | reservedMajor
  /-- An FN or SB code beyond the end of its list, or a width code 0b101 to 0b111 (R90). -/
  | reservedCode
  /-- A reserved source code (R84). -/
  | reservedSource
  /-- FLAG 0xC to 0xE (R82). -/
  | reservedFlag
  /-- A non-zero unused field, a modifier bit not taken, or a field value that the instruction's entry forbids (R83). -/
  | illegalFields
  deriving DecidableEq, Repr


/-- The B-forms with two sources (R88). -/
def pickB (major : Nat) (o : BArgs) : Option Instr :=
  match major with
  | 0 => some (.iadd o)
  | 1 => some (.isub o)
  | 2 => some (.and o)
  | 3 => some (.or o)
  | 4 => some (.xor o)
  | 5 => some (.shl o)
  | 6 => some (.shr o)
  | 7 => some (.fadd o)
  | 8 => some (.fmul o)
  | 14 => some (.fsub o)
  | _ => none

/-- The SB codes of major 0x09 (R88). -/
def pickU9 (code : Nat) (o : UArgs) : Option Instr :=
  match code with
  | 0 => some (.mov o)
  | 1 => some (.not o)
  | 2 => some (.ineg o)
  | 3 => some (.iabs o)
  | 4 => some (.popc o)
  | 5 => some (.clz o)
  | 6 => some (.ctz o)
  | 7 => some (.brev o)
  | _ => none

/-- The SB codes of major 0x0A (R88). -/
def pickUA (code : Nat) (o : UArgs) : Option Instr :=
  match code with
  | 0 => some (.fabs o)
  | 1 => some (.fneg o)
  | 2 => some (.frcp o)
  | 3 => some (.frsq o)
  | 4 => some (.fsqrt o)
  | 5 => some (.fexp2 o)
  | 6 => some (.flog2 o)
  | 7 => some (.fsin o)
  | 8 => some (.fcos o)
  | 9 => some (.ftanh o)
  | 10 => some (.fsig o)
  | 11 => some (.ffrac o)
  | 12 => some (.fclass o)
  | _ => none

/-- The B-forms with a function code (R88). -/
def pickU (major code : Nat) (o : UArgs) : Option Instr :=
  match major with
  | 9 => pickU9 code o
  | 10 => pickUA code o
  | _ => none

/-- The SB codes of major 0x11 with S = 1 (R89). -/
def pickCtl (code : Nat) (o : CArgs) : Option Instr :=
  match code with
  | 0 => some (.ret o)
  | 1 => some (.exit o)
  | 2 => some (.trigger o)
  | 3 => some (.yield o)
  | 4 => some (.nop o)
  | _ => none

/-- The SB codes of major 0x0D FN 0xB (R88). -/
def pickFn (code : Nat) (x : XArgs) : Option Instr :=
  match code with
  | 0 => some (.fabsX x)
  | 1 => some (.fnegX x)
  | 2 => some (.frcpX x)
  | 3 => some (.frsqX x)
  | 4 => some (.fsqrtX x)
  | 5 => some (.fexp2X x)
  | 6 => some (.flog2X x)
  | 7 => some (.fsinX x)
  | 8 => some (.fcosX x)
  | 9 => some (.ftanhX x)
  | 10 => some (.fsigX x)
  | 11 => some (.ffracX x)
  | 12 => some (.fclassX x)
  | _ => none

/-- The widths in FN[2:0] of majors 0x18 and 0x19 (R89). -/
def widthOf (k : Nat) : Option MemWidth :=
  match k with
  | 0 => some .b8
  | 1 => some .b16
  | 2 => some .b32
  | 3 => some .b64
  | 4 => some .b128
  | _ => none

/-- The loads (R89). -/
def pickLoad (fn : Nat) (x : XArgs) : Option Instr :=
  if fn < 8 then (widthOf fn).map (.ld · x) else (widthOf (fn - 8)).map (.lds · x)

/-- The stores (R89). -/
def pickStore (fn : Nat) (x : XArgs) : Option Instr :=
  if fn < 8 then (widthOf fn).map (.st · x) else (widthOf (fn - 8)).map (.sts · x)

/-- The services of `ecall` (R185, R436, R494). -/
def pickEcall (x : XArgs) : Instr :=
  match x.imm.toNat with
  | 0x10 => .codeLoad x
  | 0x20 => .queueQuiesce x
  | 0x21 => .queueResume x
  | 0x22 => .queueReset x
  | 0x23 => .traceBind x
  | 0x24 => .traceClose x
  | _ => .ecall x

/-- The services of `moncall` (R437). -/
def pickMoncall (x : XArgs) : Instr :=
  match x.imm.toNat with
  | 0 => .monitorVersion x
  | 1 => .imageVerify x
  | 2 => .imageMeasure x
  | 3 => .isleWrite x
  | 4 => .isleSwitch x
  | 5 => .heartbeat x
  | 6 => .fuseSvn x
  | _ => .moncallUnknown x

/-- The modes of `tlbinv` in IMM[1:0] (R440). -/
def pickTlbinv (x : XArgs) : Option Instr :=
  match x.immBits 1 0 with
  | 0 => some (.tlbinvAll x)
  | 1 => some (.tlbinvAsid x)
  | 2 => some (.tlbinvRange x)
  | _ => none

/-- The FN codes of major 0x0B (R88). -/
def pick0B (fn : Nat) (x : XArgs) : Option Instr :=
  match fn with
  | 0 => some (.iaddX x)
  | 1 => some (.isubX x)
  | 2 => some (.imul x)
  | 3 => some (.imulh x)
  | 4 => some (.imad x)
  | 5 => some (.imin x)
  | 6 => some (.imax x)
  | 7 => some (.iabsX x)
  | 8 => some (.inegX x)
  | 9 => some (.icmp x)
  | 10 => some (.isel x)
  | 11 => some (.bsel x)
  | 12 => some (.lea x)
  | 13 => some (.movX x)
  | _ => none

/-- The FN codes of major 0x0C (R88). -/
def pick0C (fn : Nat) (x : XArgs) : Option Instr :=
  match fn with
  | 0 => some (.andX x)
  | 1 => some (.orX x)
  | 2 => some (.xorX x)
  | 3 => some (.andn x)
  | 4 => some (.notX x)
  | 5 => some (.shlX x)
  | 6 => some (.shrX x)
  | 7 => some (.sar x)
  | 8 => some (.fshl x)
  | 9 => some (.fshr x)
  | 10 => some (.bfx x)
  | 11 => some (.bfi x)
  | 12 => some (.popcX x)
  | 13 => some (.clzX x)
  | 14 => some (.ctzX x)
  | 15 => some (.brevX x)
  | _ => none

/-- The FN codes of major 0x0D (R88). -/
def pick0D (fn : Nat) (x : XArgs) : Option Instr :=
  match fn with
  | 0 => some (.faddX x)
  | 1 => some (.fsubX x)
  | 2 => some (.fmulX x)
  | 3 => some (.ffma x)
  | 4 => some (.fmin x)
  | 5 => some (.fmax x)
  | 6 => some (.fminnum x)
  | 7 => some (.fmaxnum x)
  | 8 => some (.fcmp x)
  | 9 => some (.fscale x)
  | 10 => some (.fround x)
  | _ => none

/-- The FN codes of major 0x10 with S = 0 (R89). -/
def pick10l (fn : Nat) (x : XArgs) : Option Instr :=
  match fn with
  | 0 => some (.shflIdx x)
  | 1 => some (.shflUp x)
  | 2 => some (.shflDown x)
  | 3 => some (.shflXor x)
  | _ => none

/-- The FN codes of major 0x10 with S = 1 (R89). -/
def pick10w (fn : Nat) (x : XArgs) : Option Instr :=
  match fn with
  | 0 => some (.bra x)
  | 1 => some (.bz x)
  | 2 => some (.bnz x)
  | 3 => some (.brx x)
  | 4 => some (.call x)
  | 5 => some (.calli x)
  | 6 => some (.grow x)
  | 7 => some (.fwait x)
  | _ => none

/-- The FN codes of major 0x11 with S = 0 (R89). -/
def pick11l (fn : Nat) (x : XArgs) : Option Instr :=
  match fn with
  | 0 => some (.voteAny x)
  | 1 => some (.voteAll x)
  | 2 => some (.voteEq x)
  | 3 => some (.ballot x)
  | _ => none

/-- The FN codes of major 0x12 with S = 0 (R89). -/
def pick12l (fn : Nat) (x : XArgs) : Option Instr :=
  match fn with
  | 0 => some (.mergeChk x)
  | 1 => some (.mergeLane x)
  | 2 => some (.mergeG x)
  | 3 => some (.rkq x)
  | 4 => some (.rkhome x)
  | _ => none

/-- The FN codes of major 0x13 with S = 0 (R89). -/
def pick13l (fn : Nat) (x : XArgs) : Option Instr :=
  match fn with
  | 0 => some (.dot4E4m3 x)
  | 1 => some (.dot4E5m2 x)
  | 2 => some (.dot8E2m1 x)
  | 3 => some (.dot2B16 x)
  | 4 => some (.dot4I8 x)
  | 5 => some (.dot4N8 x)
  | 6 => some (.dot8I4 x)
  | _ => none

/-- The FN codes of major 0x14 with S = 0 (R89). -/
def pick14l (fn : Nat) (x : XArgs) : Option Instr :=
  match fn with
  | 0 => some (.dots4E4m3 x)
  | 1 => some (.dots4E5m2 x)
  | 2 => some (.dots8E2m1 x)
  | _ => none

/-- The FN codes of major 0x15 with S = 0 (R89). -/
def pick15l (fn : Nat) (x : XArgs) : Option Instr :=
  match fn with
  | 0 => some (.hadd2 x)
  | 1 => some (.hsub2 x)
  | 2 => some (.hmul2 x)
  | 3 => some (.hfma2 x)
  | 4 => some (.hmin2 x)
  | 5 => some (.hmax2 x)
  | _ => none

/-- The FN codes of major 0x16 with S = 0 (R89). -/
def pick16l (fn : Nat) (x : XArgs) : Option Instr :=
  match fn with
  | 0 => some (.cvtF32I32 x)
  | 1 => some (.cvtI32F32 x)
  | 2 => some (.cvtF32F16 x)
  | 3 => some (.cvtF32B16 x)
  | 4 => some (.cvtPkF16F32 x)
  | 5 => some (.cvtPkB16F32 x)
  | 6 => some (.cvtPkE4m3F32 x)
  | 7 => some (.cvtPkE5m2F32 x)
  | 8 => some (.cvtPkE2m1F32 x)
  | 9 => some (.cvtUpB16E4m3 x)
  | 10 => some (.cvtUpB16E5m2 x)
  | 11 => some (.cvtUpB16E2m1 x)
  | 12 => some (.cvtB16E8m0 x)
  | 13 => some (.cvtPkI8F32 x)
  | 14 => some (.cvtPkI4F32 x)
  | _ => none

/-- The FN codes of major 0x17 with S = 1 (R89). -/
def pick17w (fn : Nat) (x : XArgs) : Option Instr :=
  match fn with
  | 0 => some (.lread x)
  | 1 => some (.lwrite x)
  | _ => none

/-- The FN codes of major 0x1A (R89). -/
def pick1A (fn : Nat) (x : XArgs) : Option Instr :=
  match fn with
  | 0 => some (.aadd x)
  | 1 => some (.amin x)
  | 2 => some (.amax x)
  | 3 => some (.aand x)
  | 4 => some (.aor x)
  | 5 => some (.axor x)
  | 6 => some (.axchg x)
  | 7 => some (.acas x)
  | 8 => some (.afadd x)
  | 9 => some (.afmin x)
  | 10 => some (.afmax x)
  | _ => none

/-- The FN codes of major 0x1B (R89). -/
def pick1B (fn : Nat) (x : XArgs) : Option Instr :=
  match fn with
  | 0 => some (.lr x)
  | 1 => some (.sc x)
  | 2 => some (.fence x)
  | _ => none

/-- The FN codes of major 0x1C with S = 1 (R89). -/
def pick1Cw (fn : Nat) (x : XArgs) : Option Instr :=
  match fn with
  | 0 => some (.mclaim x)
  | 1 => some (.mrel x)
  | 2 => some (.mfill x)
  | 3 => some (.mzero x)
  | 4 => some (.mload x)
  | 5 => some (.mma x)
  | 6 => some (.mver x)
  | 7 => some (.mdrain x)
  | 8 => some (.mverify x)
  | 9 => some (.mloc x)
  | 10 => some (.mfix x)
  | 11 => some (.mretry x)
  | 12 => some (.mstat x)
  | _ => none

/-- The FN codes of major 0x1D with S = 1 (R89). -/
def pick1Dw (fn : Nat) (x : XArgs) : Option Instr :=
  match fn with
  | 0 => some (.barInit x)
  | 1 => some (.barArrive x)
  | 2 => some (.barExpect x)
  | 3 => some (.barWait x)
  | 4 => some (.barTest x)
  | 5 => some (.barDrop x)
  | 6 => some (.wbind x)
  | 7 => some (.wunbind x)
  | 8 => some (.wstat x)
  | 9 => some (.enq x)
  | 10 => some (.eseq x)
  | _ => none

/-- The FN codes of major 0x1E with S = 0 (R89). -/
def pick1El (fn : Nat) (x : XArgs) : Option Instr :=
  match fn with
  | 0 => some (.dhalt x)
  | 1 => some (.dresume x)
  | 2 => some (.dstep x)
  | 3 => some (.dread x)
  | 4 => some (.dwrite x)
  | _ => none

/-- The FN codes of major 0x1E with S = 1 (R89). -/
def pick1Ew (fn : Nat) (x : XArgs) : Option Instr :=
  match fn with
  | 0 => some (.trap x)
  | 1 => some (if x.imm = 1 then .tretSkip x else .tret x)
  | 2 => some (.csrr x)
  | 3 => some (.csrw x)
  | 4 => some (.csrs x)
  | 5 => some (.csrc x)
  | 6 => some (.isync x)
  | 7 => some (.iflush x)
  | 8 => some (pickEcall x)
  | 9 => some (pickMoncall x)
  | 10 => some (.wfi x)
  | 11 => pickTlbinv x
  | 12 => some (.brk x)
  | _ => none

/-- The X-forms (R88, R89). -/
def pickX (major fn : Nat) (x : XArgs) : Option Instr :=
  match major with
  | 11 => pick0B fn x
  | 12 => pick0C fn x
  | 13 => pick0D fn x
  | 16 => if x.s then pick10w fn x else pick10l fn x
  | 17 => if x.s then none else pick11l fn x
  | 18 => if x.s then none else pick12l fn x
  | 19 => if x.s then none else pick13l fn x
  | 20 => if x.s then none else pick14l fn x
  | 21 => if x.s then none else pick15l fn x
  | 22 => if x.s then none else pick16l fn x
  | 23 => if x.s then pick17w fn x else none
  | 24 => pickLoad fn x
  | 25 => pickStore fn x
  | 26 => pick1A fn x
  | 27 => pick1B fn x
  | 28 => if x.s then pick1Cw fn x else none
  | 29 => if x.s then pick1Dw fn x else none
  | 30 => if x.s then pick1Ew fn x else pick1El fn x
  | _ => none

/-- DIST of a base word (R81). -/
def wDist (w : Word) : BitVec 2 := w.extractLsb' 30 2
/-- S of a base word (R81). -/
def wS (w : Word) : Bool := w.getLsbD 29
/-- MAJOR of a base word (R81). -/
def wMajor (w : Word) : BitVec 5 := w.extractLsb' 24 5
/-- NWB of a base word (R81). -/
def wNwb (w : Word) : Bool := w.getLsbD 23
/-- DST of a base word (R81). -/
def wDst (w : Word) : BitVec 7 := w.extractLsb' 16 7
/-- SA of a base word (R81). -/
def wSa (w : Word) : BitVec 8 := w.extractLsb' 8 8
/-- SB of a base word (R81). -/
def wSb (w : Word) : BitVec 8 := w.extractLsb' 0 8
/-- SC of an extension word (R82). -/
def eSc (e : Word) : BitVec 8 := e.extractLsb' 24 8
/-- FLAG of an extension word (R82). -/
def eFlag (e : Word) : BitVec 4 := e.extractLsb' 20 4
/-- FN of an extension word (R82). -/
def eFn (e : Word) : BitVec 4 := e.extractLsb' 16 4
/-- IMM of an extension word (R82). -/
def eImm (e : Word) : BitVec 16 := e.extractLsb' 0 16

/-- The completion flag that FLAG names (R82): 0xF names none, 0xC to 0xE are illegal. -/
def flagOf (f : BitVec 4) : Option (Option (Fin 12)) :=
  if h : f.toNat < 12 then some (some ⟨f.toNat, h⟩) else if f = 15 then some none else none

/-- FLAG of a named flag (R82). -/
def flagCode : Option (Fin 12) → BitVec 4
  | some k => BitVec.ofNat 4 k.val
  | none => 15

/-- A source field, or its refusal (R84). -/
def readSrc (c : BitVec 8) : Except DecodeError Src :=
  match Src.ofCode c with
  | some x => .ok x
  | none => .error .reservedSource

/-- The literal word, taken only when a source field reads it (R82). -/
def takeLit (uses : Bool) (ws : List Word) : Except DecodeError (Option Word × List Word) :=
  if uses then
    match ws with
    | l :: rest => .ok (some l, rest)
    | [] => .error .truncated
  else .ok (none, ws)

/-- The instruction found, or its refusal when its fields are not legal (R83, R90). -/
def settle (i : Option Instr) (rest : List Word) : Except DecodeError (Instr × List Word) :=
  match i with
  | none => .error .reservedCode
  | some i => if i.wf then .ok (i, rest) else .error .illegalFields

/-- A B-form word with two sources (R81). -/
def decodeB (w : Word) (ws : List Word) : Except DecodeError (Instr × List Word) := do
  let sa ← readSrc (wSa w)
  let sb ← readSrc (wSb w)
  let (lit, rest) ← takeLit (sa == .lit || sb == .lit) ws
  settle (pickB (wMajor w).toNat
    { dist := wDist w, s := wS w, nwb := wNwb w, dst := wDst w, sa, sb, lit }) rest

/-- A B-form word with a function code in SB (R88). -/
def decodeU (w : Word) (ws : List Word) : Except DecodeError (Instr × List Word) := do
  let sa ← readSrc (wSa w)
  let (lit, rest) ← takeLit (sa == .lit) ws
  settle (pickU (wMajor w).toNat (wSb w).toNat
    { dist := wDist w, s := wS w, nwb := wNwb w, dst := wDst w, sa, lit }) rest

/-- A control word of major 0x11 with S = 1: NWB, DST and SA are unused (R83, R366). -/
def decodeCtl (w : Word) (ws : List Word) : Except DecodeError (Instr × List Word) :=
  if w.extractLsb' 8 16 = 0 then settle (pickCtl (wSb w).toNat { dist := wDist w }) ws
  else .error .illegalFields

/-- The two words of an X-form, and its literal (R82). -/
def decodeX (w e : Word) (ws : List Word) : Except DecodeError (Instr × List Word) := do
  let major := (wMajor w).toNat
  let fn := (eFn e).toNat
  let unary := major == 0x0D && fn == 0xB
  let sa ← readSrc (wSa w)
  let sb ← if unary then .ok (.var 0) else readSrc (wSb w)
  let sc ← readSrc (eSc e)
  let flag ← match flagOf (eFlag e) with
    | some f => .ok f
    | none => .error .reservedFlag
  let scale := major == 0x14 && (eImm e).extractLsb' 0 8 == 0xFF
  let (lit, rest) ← takeLit (sa == .lit || sb == .lit || sc == .lit || scale) ws
  let x : XArgs := { dist := wDist w, s := wS w, nwb := wNwb w, dst := wDst w, sa, sb, sc, flag, imm := eImm e, lit }
  settle (if unary then pickFn (wSb w).toNat x else pickX major fn x) rest

/-- The layout of a base word by its major and S (R88, R89); none for a reserved major. -/
def formOf (major : Nat) (s : Bool) : Option Form :=
  if major < 0x09 ∨ major = 0x0E then some .b
  else if major < 0x0B then some .u
  else if major = 0x0F then none
  else if major = 0x11 ∧ s then some .ctl
  else if major = 0x1F then (if s then none else some .hint)
  else if (0x12 ≤ major ∧ major ≤ 0x16) ∧ s then none
  else if (major = 0x17 ∨ major = 0x1C ∨ major = 0x1D) ∧ !s then none
  else some .x

/-- The first instruction of a list of words, with the words after it. Total: it refuses by name. -/
def decodeWords : List Word → Except DecodeError (Instr × List Word)
  | [] => .error .truncated
  | w :: ws =>
    match formOf (wMajor w).toNat (wS w) with
    | none => .error .reservedMajor
    | some .b => decodeB w ws
    | some .u => decodeU w ws
    | some .ctl => decodeCtl w ws
    | some .hint => settle (some (.hint { dist := wDist w, n := w.extractLsb' 0 24 })) ws
    | some _ =>
      match ws with
      | e :: rest => decodeX w e rest
      | [] => .error .truncated

/-- The words of bytes in ascending order of address, each little-endian (R3); a part of a word at the end is dropped. -/
def wordsOfBytes : List Byte → List Word
  | b0 :: b1 :: b2 :: b3 :: rest => (b3 ++ b2 ++ b1 ++ b0 : BitVec 32) :: wordsOfBytes rest
  | _ => []

/-- The bytes of a word in ascending order of address (R3). -/
def bytesOfWord (w : Word) : List Byte :=
  [w.extractLsb' 0 8, w.extractLsb' 8 8, w.extractLsb' 16 8, w.extractLsb' 24 8]

/-- The first instruction of a list of bytes. -/
def decode (bs : List Byte) : Except DecodeError Instr := (decodeWords (wordsOfBytes bs)).map Prod.fst

/-- A base word of its fields (R81). -/
def baseWord (dist : BitVec 2) (s : Bool) (major : BitVec 5) (nwb : Bool) (dst : BitVec 7) (sa sb : BitVec 8) : Word :=
  dist ++ BitVec.ofBool s ++ major ++ BitVec.ofBool nwb ++ dst ++ sa ++ sb

/-- An extension word of its fields (R82). -/
def extWord (sc : BitVec 8) (flag fn : BitVec 4) (imm : BitVec 16) : Word := sc ++ flag ++ fn ++ imm

/-- The words of an instruction by its fields. -/
def OpSpec.words (p : OpSpec) : List Word :=
  let major := BitVec.ofNat 5 p.major
  (match p.form with
    | .b | .hint => [baseWord p.dist p.s major p.nwb p.dst p.sa.code p.sb.code]
    | .u | .ctl => [baseWord p.dist p.s major p.nwb p.dst p.sa.code (BitVec.ofNat 8 p.fn)]
    | .x => [baseWord p.dist p.s major p.nwb p.dst p.sa.code p.sb.code,
        extWord p.sc.code (flagCode p.flag) (BitVec.ofNat 4 p.fn) p.imm]
    | .xfn code => [baseWord p.dist p.s major p.nwb p.dst p.sa.code (BitVec.ofNat 8 code),
        extWord p.sc.code (flagCode p.flag) (BitVec.ofNat 4 p.fn) p.imm])
    ++ p.lit.toList

/-- The words of a well-formed instruction; an event has none. -/
def encode : Instr → List Word
  | .hint o => [o.dist ++ (0b011111 : BitVec 6) ++ o.n]
  | i => (i.spec.map OpSpec.words).getD []

/-- The bytes of a well-formed instruction in ascending order of address. -/
def encodeBytes (i : Instr) : List Byte := (encode i).flatMap bytesOfWord

/-- What the decoder reads from an instruction whose bits are `w`, bit 0 being the least significant bit of the first word;
the bits above `nbits` are 0. -/
def decodeTableWord (nbits w : Nat) : Option Instr :=
  let v := w % 2 ^ nbits
  let bs := bytesOfNat 12 v
  match decode bs with
  | .ok i => some i
  | .error _ => none

end Sys2Proof
end

