-- ==== Sys2Proof/Machine/Coding.lean ====
section
/-! DEFINITION. The coder of compressed windows: lines, coded tiles and their way back (R127, R128 of spec/06_memory_as_programs_see_it.md). -/

namespace Sys2Proof.Machine

/-- The mantissa bits of the 16-bit elements of a COMP (R127): 7 in the BF16 layout, 10 in the FP16 layout. -/
def mantissaBits (comp : Nat) : Nat := if comp = 1 then 7 else 10

/-- The bits of a delta (R128): 4 in the BF16 layout, 3 in the FP16 layout. -/
def deltaBits (comp : Nat) : Nat := if comp = 1 then 4 else 3

/-- W: the bits of an element field (R128). -/
def elementBits (comp : Nat) : Nat := 1 + mantissaBits comp + deltaBits comp

/-- The 16-bit elements of bytes, the lowest-addressed first. -/
def lineElements (line : List Byte) : List Nat := (wordsOfBytes line).flatMap (fun w => [w.toNat % 65536, w.toNat / 65536])

/-- The exponent field of an element. -/
def exponentOf (comp e : Nat) : Nat := bits e 14 (mantissaBits comp)

/-- E0: the least exponent field of a line. -/
def leastExponent (comp : Nat) (line : List Byte) : Nat := ((lineElements line).map (exponentOf comp)).foldl min 255

/-- The code of a line (R127): the first rule that applies. -/
def lineCode (comp : Nat) (line : List Byte) : Nat :=
  let ws := wordsOfBytes line
  let e0 := leastExponent comp line
  if line.all (· == 0) then 0
  else if ws.all (fun w => some w == ws.head?) then 1
  else if (comp = 1 ∨ comp = 2) ∧ (lineElements line).all (fun e => exponentOf comp e < e0 + 2 ^ deltaBits comp) then 2
  else 3

/-- The field of an element (R128): sign, mantissa and delta. -/
def elementField (comp e0 e : Nat) : Nat :=
  let m := mantissaBits comp
  let d := deltaBits comp
  e / 32768 * 2 ^ (m + d) + e % 2 ^ m * 2 ^ d + (exponentOf comp e - e0)

/-- The element of a field (R128). -/
def fieldElement (comp e0 f : Nat) : Nat :=
  let m := mantissaBits comp
  let d := deltaBits comp
  f / 2 ^ (m + d) * 32768 + (e0 + f % 2 ^ d) * 2 ^ m + f / 2 ^ d % 2 ^ m

/-- Fields of `w` bits as one little-endian bit stream. -/
def streamOf (w : Nat) : List Nat → Nat
  | [] => 0
  | f :: fs => f + 2 ^ w * streamOf w fs

/-- `n` fields of `w` bits of a stream. -/
def fieldsOf (w v : Nat) : Nat → List Nat
  | 0 => []
  | n + 1 => v % 2 ^ w :: fieldsOf w (v / 2 ^ w) n

/-- The payload of a line under a code (R127, R128). -/
def linePayload (comp : Nat) (line : List Byte) : List Byte :=
  match lineCode comp line with
  | 0 => []
  | 1 => line.take 4
  | 2 =>
    let e0 := leastExponent comp line
    BitVec.ofNat 8 e0 :: bytesOfNat (8 * elementBits comp) (streamOf (elementBits comp) ((lineElements line).map (elementField comp e0)))
  | _ => line

/-- The bytes of a payload with a code. -/
def payloadLength (comp code : Nat) : Nat :=
  match code with
  | 0 => 0
  | 1 => 4
  | 2 => 1 + 8 * elementBits comp
  | _ => 128

/-- The line that a payload with a code stands for (R128). -/
def lineOfPayload (comp code : Nat) (bs : List Byte) : List Byte :=
  match code with
  | 0 => List.replicate 128 0
  | 1 => (List.replicate 32 (bs.take 4)).flatten
  | 2 =>
    let e0 := natOfBytes (bs.take 1)
    (fieldsOf (elementBits comp) (natOfBytes ((bs.drop 1).take (8 * elementBits comp))) 64).flatMap (fun f => bytesOfNat 2 (fieldElement comp e0 f))
  | _ => bs.take 128

/-- The 32 lines of a tile. -/
def linesOf (tile : List Byte) : List (List Byte) := (List.range 32).map (fun j => (tile.drop (128 * j)).take 128)

/-- A coded tile (R128): the header, whose bits [2j + 1:2j] are line j's code, the payloads, and zeros up to a granule. -/
def codedTile (comp : Nat) (tile : List Byte) : List Byte :=
  let ls := linesOf tile
  let body := bytesOfNat 8 (streamOf 2 (ls.map (lineCode comp))) ++ ls.flatMap (linePayload comp)
  body ++ List.replicate ((32 - body.length % 32) % 32) 0

/-- Lines read back from their codes and the payloads behind one another. -/
def linesOfPayloads (comp : Nat) : List Nat → List Byte → List Byte
  | [], _ => []
  | k :: ks, bs => lineOfPayload comp k bs ++ linesOfPayloads comp ks (bs.drop (payloadLength comp k))

/-- The tile that a coded tile stands for (R128). -/
def tileOfCoded (comp : Nat) (bs : List Byte) : List Byte := linesOfPayloads comp (fieldsOf 2 (natOfBytes (bs.take 8)) 32) (bs.drop 8)

/-- The bytes that a tile takes in storage (R128): the coded tile, or the tile itself where the coding would pass 4,096 bytes. -/
def storedTile (comp : Nat) (tile : List Byte) : Bool × List Byte :=
  let c := codedTile comp tile
  if 4096 < c.length then (true, tile) else (false, c)

/-- The offset-table entry's UNCODED and LEN of a tile's 4,096 bytes (R128, R129). -/
def tileLength (comp : Nat) (tile : List Byte) : Bool × Nat :=
  let t := storedTile comp tile
  (t.1, if t.1 then 128 else t.2.length / 32)

/-- The tile that stored bytes stand for. -/
def tileOfStored (comp : Nat) (uncoded : Bool) (bs : List Byte) : List Byte := if uncoded then bs.take 4096 else tileOfCoded comp bs

end Sys2Proof.Machine
end

