-- ==== Sys2Proof/Config.lean ====
section
/-! DEFINITION. The values that the spec leaves open: free values, which no proof can see (each is named in an entry of the assumption log), and what the part fixes. -/

namespace Sys2Proof.Config

/-- The FZ4's own value of `frsq` (R343), before its bound is applied. -/
opaque frsq : Word → Word
/-- The FZ4's own value of `fexp2` (R343). -/
opaque fexp2 : Word → Word
/-- The FZ4's own value of `flog2` (R343). -/
opaque flog2 : Word → Word
/-- The FZ4's own value of `fsin` (R343); beyond 1,024 some value in [−1, 1]. -/
opaque fsin : Word → Word
/-- The FZ4's own value of `fcos` (R343); beyond 1,024 some value in [−1, 1]. -/
opaque fcos : Word → Word
/-- The FZ4's own value of `ftanh` (R343). -/
opaque ftanh : Word → Word
/-- The FZ4's own value of `fsig` (R343). -/
opaque fsig : Word → Word

/-- The granules of a die between which and its L2 lines are filled or written back at an access, once for each line, by the machine's count (R232, log 10). -/
opaque lineTraffic : Nat → List Nat

/-- The place of the line that leaves a core's full instruction cache (R10, R162), by the machine's count (log 96). -/
opaque codeVictim : Nat → Nat

/-- What a collective's STATUS holds for the exception bits its additions raised (R249), in the bit order of WSTAT; the spec gives no layout (log 11). -/
opaque collectiveStatus : Nat → Word

/-- Whether a destination sector of a collective that has lost a link holds its final value (R250): by the machine's count and the sector (log 12). -/
opaque lostSector : Nat → Nat → Bool

/-- The verdict of XMSS-SHAKE_20_256 (R485, R495): a public key, the bytes signed and a signature; RFC 8391 is no part of the spec (log 13). -/
opaque xmss : List Byte → List Byte → List Byte → Bool

/-- The public key fused into a die (R495; log 13). -/
opaque fusedKey : Nat → List Byte

/-- The module's translation key, which only the monitor holds (R492; log 13). -/
opaque translationKey : List Byte

/-- The pad with which the monitor of a die wraps the key of a handle (R166, log 124). -/
opaque wrapPad : Nat → Nat → BitVec 256

/-- The units that fail the self-test of a boot that no reset event began (R495, R501), by the machine's count (log 127). -/
opaque selfTest : Nat → List UnitFailure

/-- The frame onto which the steward restores a poisoned page of a die (R474), by the machine's count (log 40). -/
opaque freshFrame : Nat → Nat

/-- The fuse security-version counter that a die was made with (R493; log 14). -/
opaque fusedSvn : Nat → Nat

/-- Whether a write to management flash fails (R437), by the machine's count (log 15). -/
opaque flashFails : Nat → Bool

/-- Where the monitor places the NATIVE section of a slot's image for the steward cores of a die (R438, R512; log 16): the virtual address and the frame, in units of 2 MiB; place 3 gives the tables. -/
opaque isleBase : Nat → Nat → Nat
opaque isleFrame : Nat → Nat → Nat

/-- Whether the part's translator reads a section of a TYPE at a FORMAT (R484, R490; log 17). -/
opaque readsFormat : Nat → Nat → Bool

/-- What the part's translator makes of a container's level (R490): from its TYPE, its records, and the container's FUNCS and DATA sections, code, and the byte offset of each
function's entry clause in it (log 17). -/
opaque translate : Nat → List LevelRecord → List Byte → List Byte → List Byte × List Nat

/-- The key that the steward's entropy source draws for a context (R165), by the machine's count (log 18). -/
opaque contextKey : Nat → BitVec 256

/-- A number that the scheduler firmware chooses on its own (R185), by the machine's count (log 19). -/
opaque firmwareChoice : Nat → Nat

/-- The dispatch PC that the steward of a die records as the site of a launch (R190, R458; log 20). -/
opaque dispatchPc : Nat → Nat

/-- Where in the HBM of a die the steward begins to look for the place of a save area (R170; log 24). -/
opaque saveBase : Nat → Nat

/-- The frame, in the HBM of a die, of a table with which the steward splits a leaf larger than a protected piece (R193), by the machine's count (log 98). -/
opaque tableFrame : Nat → Nat

/-- Where in the HBM of a core's die the steward places a trace buffer (R463), in units of the buffer's size, by the machine's count (log 101). -/
opaque traceBuffer : Nat → Nat

/-- Whether the steward can reserve storage for a snapshot (R192), by the machine's count (log 40). -/
opaque snapshotRoom : Nat → Bool

/-- The stream-buffer segment that a job of a copy engine takes (R271), and where the parameter page and the landing map of a routine's call stand (R275), by the machine's count
(log 32). -/
opaque jobSegment : Nat → Nat
opaque martenPage : Nat → Nat
opaque martenMap : Nat → Nat

/-- Whether the snapshots of a launch can be read when they are restored (R190), by the machine's count (log 40). -/
opaque snapshotReadable : Nat → Bool

/-- Whether a scheduler tags the instruction that it issues (R460), by the machine's count and RATE, which sets the mean interval (log 121). -/
opaque trailChoice : Nat → Nat → Bool

/-- Whether the steward firmware has admitted the management session that reads through the Fox port (R457), by the machine's count (log 120). -/
opaque sessionAdmitted : Nat → Bool

/-- The header of a flit (R242), by the machine's count: the fields that its payload gives, and the whole of it where its sender is outside (log 72). -/
opaque flitHeader : Nat → Nat

/-- The payload bytes that coding saves of a flit (R247, R251), by the machine's count (log 72). -/
opaque flitSaved : Nat → Nat

/-- The 64-byte SHAKE256 measurement of the monitor ROM (R497), as a number (log 44). -/
opaque romMeasurement : Nat

/-- The 64-byte SHAKE256 measurement of a fuse counter value (R497), as a number: the spec does not say over which bytes (log 44). -/
opaque fuseMeasurement : Nat → Nat

end Sys2Proof.Config
end

