-- ==== Sys2Proof/Machine/Tab.lean ====
section
/-! DEFINITION. Tables by number: a list of keys and values in rising order of key. They hold memory, the copies of
variables and every other collection of the state that the spec numbers. -/

namespace Sys2Proof.Machine

/-- A table by number. -/
abbrev Tab (α : Type) := List (Nat × α)

/-- The value at a key, when the table has one. -/
def Tab.get {α : Type} : Tab α → Nat → Option α
  | [], _ => none
  | (j, v) :: t, k => if j = k then some v else Tab.get t k

/-- The value at a key, or `d` where the table has none. -/
def Tab.getD {α : Type} (t : Tab α) (k : Nat) (d : α) : α := (Tab.get t k).getD d

/-- Set the value at a key; keys stay in rising order. -/
def Tab.set {α : Type} : Tab α → Nat → α → Tab α
  | [], k, v => [(k, v)]
  | (j, w) :: t, k, v =>
    if k < j then (k, v) :: (j, w) :: t
    else if j = k then (k, v) :: t
    else (j, w) :: Tab.set t k v

/-- Remove a key. -/
def Tab.del {α : Type} : Tab α → Nat → Tab α
  | [], _ => []
  | (j, w) :: t, k => if j = k then Tab.del t k else (j, w) :: Tab.del t k

/-- The keys. -/
def Tab.keys {α : Type} (t : Tab α) : List Nat := t.map Prod.fst

/-- Keep the entries whose key and value satisfy `p`. -/
def Tab.keep {α : Type} (t : Tab α) (p : Nat → α → Bool) : Tab α := t.filter (fun e => p e.1 e.2)

/-- Map the values. -/
def Tab.mapVal {α β : Type} (t : Tab α) (f : Nat → α → β) : Tab β := t.map (fun e => (e.1, f e.1 e.2))

/-- Change the value at a key, where there is one. -/
def Tab.upd {α : Type} (t : Tab α) (k : Nat) (f : α → α) : Tab α :=
  match Tab.get t k with
  | some v => Tab.set t k (f v)
  | none => t

/-- The least number from `n` up to `n + fuel` that is no key. -/
def Tab.free {α : Type} (t : Tab α) : Nat → Nat → Nat
  | n, 0 => n
  | n, fuel + 1 => if (Tab.get t n).isSome then Tab.free t (n + 1) fuel else n

/-- Keys rise strictly. -/
def Tab.sorted {α : Type} : Tab α → Bool
  | [] => true
  | [_] => true
  | (j, _) :: (k, v) :: t => j < k && Tab.sorted ((k, v) :: t)

end Sys2Proof.Machine
end

