-- ==== Sys2Proof/Machine/State.lean ====
section
/-! DEFINITION. The state of an FZ4 module as plain data, the reasons a step can stop, and the state after module reset. -/

namespace Sys2Proof.Machine

/-- Why a step stops with a fault. -/
inductive Fault where
  /-- Raised by an instruction word given to `exec` while the flow that `cur` names has no wave record, or no clause in
  progress. No step of the machine does so: an instruction issues only from a clause (R17). Safe. -/
  | noIssuer
  deriving DecidableEq, Repr

/-- Why a step refuses. -/
inductive Refusal where
  /-- Raised by an arm of `exec` whose instruction has no meaning yet. Safe. -/
  | notModelled (mnemonic : String)
  deriving DecidableEq, Repr

/-! ### Waves -/

/-- The home rank of a variable (R36). -/
inductive Rank where
  | lane
  | wave
  | group
  deriving DecidableEq, Repr

/-- One latch entry (R53): invalid, values per lane of the run, or one value for every lane (wave class). -/
inductive Latch where
  | invalid
  | lanes (v : Tab DWord)
  | uniform (v : DWord)
  deriving DecidableEq, Repr

/-- The clause in progress (R17, R306): its header's address, the header and the words fetched behind it, the word offset of the
next instruction (1 for the first) and the run it issues for. -/
structure Clause where
  addr : Nat
  header : Word
  words : List Word
  pos : Nat
  run : LaneMask
  deriving DecidableEq, Repr

/-- The trap registers (R294 to R296). -/
structure TrapRegs where
  cause : DWord
  pc : DWord
  mask : DWord
  addr : DWord
  site0 : DWord
  site1 : DWord
  deriving DecidableEq, Repr

/-- An imprecise fault that waits for its wave's boundary (R291). -/
structure Imprecise where
  code : Nat
  sub : Nat
  lane : Nat
  addr : Nat
  bank : Nat
  count : Nat
  sitePc : Nat
  siteSeq : Nat
  /-- It is precise at the word at which its wave stands: the fault of an operation on which the wave was held (R259, R260). -/
  precise : Bool := false
  deriving DecidableEq, Repr

/-- An instruction whose result is still outstanding (R96, R393): the variables it writes and their values, the flag it counts on,
and the failure found when its data return (R291), if any. `scalar` marks the write rule of R42. -/
structure Outstanding where
  dst : Option Nat
  vars : Nat
  scalar : Bool
  run : LaneMask
  vals : Tab (List Word)
  flag : Option (Fin 12)
  failure : Option Imprecise
  /-- The virtual and physical address that each lane reached, the clause of the instruction (R246), and its major. -/
  reads : Tab (Nat × Nat)
  site : Nat
  major : Nat
  /-- A request that its wave waits for, and that has no effect yet: an atomic or an `sc` on its way to another die (R246, R291). -/
  request : Bool := false
  deriving DecidableEq, Repr

/-- Why a wave is parked or held until an agent other than itself lets it go on (R119, R40, R213, R226, R436, R411, R417). -/
inductive Park where
  /-- A touched octet is overflowed (R40): variable and octet number. -/
  | octet (x k : Nat)
  /-- A touched scratchpad line is absent (R119). -/
  | line (offset : Nat)
  /-- `wunbind` of a window whose issued stages have not all ended, or a touch that would issue a stage of it (R411). -/
  | unbind (win : Nat)
  /-- `bar.wait` on a scratchpad barrier of the group: offset and token (R213). -/
  | spadBarrier (offset token : Nat)
  /-- `bar.wait` on a global barrier: physical address, token, and whether the core's unit holds an entry (R216). -/
  | globalBarrier (pa token : Nat) (entry : Bool)
  /-- A waiter whose server has passed its phase or dropped its barrier: it wakes with a status in the next cycle (R214, R217). -/
  | waking (status : Nat)
  /-- `bar.wait` woken with a status, which it writes when it goes on (R213, R217). -/
  | woken (status : Nat)
  /-- A fault passed to the steward (R293, R226). -/
  | steward
  /-- An `ecall` not answered (R436). -/
  | ecall
  /-- An `ecall` answered, whose answer it writes when the wave goes on (R436). -/
  | answered (v : DWord)
  /-- `mverify` or `mdrain` until its operation ends (R259): its sequence number. -/
  | matrix (seq : Nat)
  /-- The operation of an `mverify` or `mdrain` has completed. -/
  | matrixDone
  /-- An atomic or an `sc` on its way to another die, until the die has it; it has come there, and performs when the wave goes on; or a link has lost it (R246). -/
  | request
  | arrived
  | lost
  /-- A steward flow until the instruction it steps has completed (R444). -/
  | dstep
  /-- A steward flow stopped by the monitor (R303, R437, R438). -/
  | monitor
  /-- Another image's matrix state is still being spilled (R169). -/
  | matrixSpill
  deriving DecidableEq, Repr

/-- Where a thread runs, for the scopes of R135: its flow, and for a wave its launch, group index and wave number. -/
structure Place where
  flow : Flow
  launch : Nat
  index : Nat
  number : Nat
  deriving DecidableEq, Repr

/-- A release that a write carries (R141): its scope and where its thread ran. -/
structure SyncTag where
  scope : Nat
  place : Place
  deriving DecidableEq, Repr

/-- A watch action taken at an instruction, which is not taken again on its first execution after a resume (R456). -/
structure WatchMark where
  watch : Nat
  addr : Nat
  word : Nat
  lanes : LaneMask
  deriving DecidableEq, Repr

/-- The floating-point status bits of WSTAT (R67). -/
structure Wstat where
  inv : Bool
  dz : Bool
  ovf : Bool
  unf : Bool
  inx : Bool
  scope : Bool
  deriving DecidableEq, Repr

/-- A wave of a compute core, or the one flow of a steward core. -/
structure Wave where
  /-- The launch, the group slot on the core and the wave's number in its group (R21, R27). -/
  launch : Nat
  group : Nat
  number : Nat
  /-- The threads that have not exited, and those of them that are halted (R16, R18). -/
  live : LaneMask
  halted : LaneMask
  /-- The counter and the word of each lane (R17). -/
  counter : Tab Nat
  word : Tab Nat
  /-- The straggler bound (R19): the count of head issues, and the sweep mark; none is above every position. -/
  headIssues : Nat
  sweep : Option (Nat × Nat)
  clause : Option Clause
  /-- Lane-home slots by 64 × variable + lane (R38). -/
  slots : Tab Word
  /-- Wave home copies, and this wave's copies of group-home variables, by variable (R38). -/
  copies : Tab Word
  /-- Lane copies by 64 × variable + lane (R38). -/
  laneCopies : Tab Word
  /-- Octets in the overflow area, 8 × variable + octet (R40), and when each octet in the file was allocated. -/
  overflowed : List Nat
  octets : List Nat
  /-- The last eight results of the clause, newest first (R53). -/
  latches : List Latch
  /-- The completion-flag counts (R96). -/
  flags : Tab Nat
  outstanding : List Outstanding
  wstat : Wstat
  /-- Privilege handler, with its counter (R297) and the word at which a restored handler goes on (R306). -/
  handler : Bool
  hpc : Nat
  hword : Nat
  trap : TrapRegs
  scratch : DWord
  haltInfo : DWord
  exempt : List WatchMark
  /-- The latches kept for halted lanes (R442). -/
  kept : Tab (List Latch)
  /-- The newest four entries of each lane's return stack, newest first (all entries on a steward core), and its depth (R304). -/
  returns : Tab (List Nat)
  depth : Tab Nat
  spills : Nat
  maxDepth : Nat
  park : Option Park
  imprecise : List Imprecise
  /-- The run that the next clause start resumes: lanes, and 0 for a restore (R306), 1 for `tret`, 2 for `tret.skip` (R299). -/
  resume : Option (LaneMask × Nat)
  /-- The widest release fence that each lane has executed (R140), and the releases whose values each lane has read (R142). -/
  fences : Tab Nat
  seen : List (Nat × SyncTag)
  /-- A wave that meets R206 at its clause boundary. -/
  candidate : Bool
  /-- It has not issued since it entered the active set of its scheduler (R205). -/
  unissued : Bool
  /-- Marked for the trace (R463), and the frame in which it last wrote a record. -/
  traced : Bool
  traceFrame : Option Nat
  /-- Halted by a debugger or a watch, clause or not (R442). -/
  stopping : Bool
  deriving DecidableEq, Repr

/-! ### Groups -/

/-- A barrier's fields (R211); ARMED is its presence in the unit or table (R212). -/
structure Barrier where
  scope : Nat
  tx : Bool
  ovf : Bool
  phase : Nat
  pendSec : Int
  initArr : Nat
  pendArr : Nat
  /-- The releases of the arrivals and landings of the phase in progress, and those of the phases that have completed, by phase number (R150). -/
  arrivers : List SyncTag := []
  met : Tab (List SyncTag) := []
  deriving DecidableEq, Repr

/-- A `merge.g` capture (R50). -/
structure Capture where
  wave : Nat
  var : Nat
  barrier : Nat
  value : Word
  written : Bool
  deriving DecidableEq, Repr

/-- A stage of a window that has been issued (R120): its sectors, those landed, whether a touch came first, whether lookahead issued it,
a source failure with its address (R123), and the site of the touch that issued it. -/
structure Stage where
  sectors : Nat
  landed : List Nat
  touched : Bool
  ahead : Bool
  parked : Bool
  failed : Option Nat
  sitePc : Nat
  /-- The number of the wave whose touch issued it, and the sectors whose landing did not fit the window's budget (R129). -/
  waveNo : Nat
  refused : List Nat
  slot : Nat
  deriving DecidableEq, Repr

/-- A window's binding (R118): entry, base, head, depth, the run of untouched landings (R122), P0 (R215), the barrier and the stages issued
and not yet behind the head. -/
structure Binding where
  entry : Nat
  base : Nat
  head : Nat
  depth : Nat
  /-- DMIN and DMAX of the entry as bound (R122). -/
  dmin : Nat
  dmax : Nat
  unused : Nat
  p0 : Nat
  /-- The global barrier's physical address found at `wbind` (R118). -/
  barrierPa : Option Nat
  stages : Tab Stage
  /-- A landing found its barrier not armed, or an arrival barrier (R215). -/
  broken : Bool
  /-- A `wunbind` waits for the issued stages, and no further stage issues (R411). -/
  closing : Bool
  /-- The entry's bytes as `wbind` read them, and the landed size of a stage (R410, R118). -/
  region : List Byte
  size : Nat
  deriving DecidableEq, Repr

/-- One entry of the offset table of a compressed window (R129). -/
structure TileEntry where
  uncoded : Bool
  len : Nat
  offset : Nat
  deriving DecidableEq, Repr

/-- A window (R118, R119, R129): the binding, the absent lines by line number in the window, and the offset table by raw tile. -/
structure Window where
  bound : Option Binding
  absent : List Nat
  tiles : Tab TileEntry
  deriving DecidableEq, Repr

/-- The record of a guard touch or of a landing that does not fit (R114, R129). -/
structure GuardRecord where
  code : Nat
  sub : Nat
  wave : Nat
  offset : Nat
  bank : Nat
  count : Nat
  sitePc : Nat
  siteSeq : Nat
  deriving DecidableEq, Repr

/-- The states of a placed group (R204). -/
inductive GroupState where
  | running
  | halted
  | preempted
  | faulted
  deriving DecidableEq, Repr

/-- A group placed on a core. -/
structure Group where
  launch : Nat
  index : Nat
  /-- How many groups the module had placed before it (R205, R208). -/
  serial : Nat
  state : GroupState
  /-- Group home copies by variable (R38). -/
  home : Tab Word
  /-- Scratchpad bytes by offset (R112). -/
  spad : Tab Byte
  /-- Poisoned scratchpad words by offset div 4 (R468). -/
  poison : List Nat
  /-- The releases that scratchpad bytes carry, by offset (R133, R141). -/
  spadTags : Tab (List SyncTag)
  /-- The region table, 32 entries of 64 bytes (R115). -/
  regions : Tab Byte
  windows : Tab Window
  /-- Armed scratchpad barriers by offset (R212). -/
  barriers : Tab Barrier
  captures : List Capture
  guard : Option GuardRecord
  budget : Option GuardRecord
  triggered : Bool
  deriving DecidableEq, Repr

/-! ### The matrix engine -/

/-- An operand slot (R253, R255): contents by byte, owner group slot, source tag, valid bit, the source of each quarter (space and address),
and the words with bad parity (R470). -/
structure Slot where
  bytes : Tab Byte
  owner : Option Nat
  tag : Nat
  valid : Bool
  source : Tab (Bool × Nat)
  badParity : List Nat
  deriving DecidableEq, Repr

/-- An entry of a replay list (R261): the block's space and address, its CRC, and for each slot read the sources and the tag. -/
structure Replay where
  global : Bool
  address : Nat
  crc : Nat
  slots : List (Nat × Tab (Bool × Nat) × Nat × Bool)
  deriving DecidableEq, Repr

/-- Where a chain of accumulator operations starts (R261): zero, or the source of an `mload` (space, address, pitch, integer) with its tag. -/
inductive ChainBase where
  | zero
  | load (global : Bool) (address pitch : Nat) (tag : Nat)
  deriving DecidableEq, Repr

/-- An accumulator (R253, R259 to R267). Elements by 128 × row + column. -/
structure Acc where
  elems : Tab Word
  owner : Option Nat
  version : Nat
  cr : Tab Word
  cc : Tab Word
  ar : Tab Word
  ac : Tab Word
  base : ChainBase
  replay : List Replay
  noReplay : Bool
  unchecked : Bool
  mismatch : Bool
  rows : List Nat
  cols : List Nat
  /-- The chain's class: none while open, some true for integer (R261). -/
  cls : Option Bool
  clsBit : Bool
  fmtSeen : Nat
  retries : Nat
  /-- Bad parity was read: every row and column mismatches at the next verification (R470). -/
  forced : Bool
  /-- The site of the last verification that mismatched (R267). -/
  faultPc : Nat
  faultSeq : Nat
  deriving DecidableEq, Repr

/-- What an accepted accumulator operation does (R259). -/
inductive MatKind where
  | zero
  | load (global : Bool) (address pitch : Nat) (int : Bool)
  | mma (global : Bool) (address : Nat) (block : List Byte)
  | verify
  | drain (global : Bool) (address pitch : Nat) (add : Bool) (scope : Nat)
  deriving DecidableEq, Repr

/-- An accepted accumulator operation (R259): what it does, its accumulator, expected version, site, issuing wave and flag, and whether it runs. -/
structure MatOp where
  kind : MatKind
  acc : Nat
  version : Nat
  pc : Nat
  seq : Nat
  wave : Nat
  lane : Nat
  flag : Option (Fin 12)
  running : Bool
  /-- The bytes that a running `mload` has read (R419), and the release that a drain carries (R148). -/
  data : List Byte
  release : Option SyncTag
  /-- The watch registers as they stood when an `mverify` or `mdrain` issued (R450). -/
  watches : Tab Nat := []
  deriving DecidableEq, Repr

/-- An accepted `mfill` (R255): its slot, first quarter, bytes captured at issue, its source, its wave, its flag, and the operations that must read
the slot first. -/
structure Fill where
  slot : Nat
  quarter : Nat
  count : Nat
  global : Bool
  address : Nat
  /-- The physical addresses of the lines of a global source (R246). -/
  pas : List Nat
  bytes : List Byte
  wave : Nat
  /-- The clause and the lane of its `mfill`, as a fault of it reports them (R291). -/
  pc : Nat
  lane : Nat
  flag : Option (Fin 12)
  after : List Nat
  failure : Option Imprecise
  seq : Nat
  /-- How many fills the engine had accepted before it (R417). -/
  num : Nat := 0
  deriving DecidableEq, Repr

/-- The matrix engine of a core. -/
structure Matrix where
  slots : Tab Slot
  accs : Tab Acc
  queue : List MatOp
  fills : List Fill
  /-- Releases that wait for their operations (R417): group slot, claim mask, and how many fills had been accepted before the `mrel`. -/
  releases : List (Nat × Nat × Nat)
  seq : Nat
  /-- How many fills it has accepted. -/
  fillNum : Nat := 0
  deriving DecidableEq, Repr

/-! ### Cores -/

/-- A core's image of one context (R168): what a swap moves and a save area holds. -/
structure Image where
  context : Nat
  /-- How many images had left their cores before it (R208). -/
  order : Nat
  /-- Its matrix state has been written to the save area, so that the engine works for the image that follows it (R169). -/
  matrixOut : Bool
  /-- The bytes that its spill left in the save area, by offset (R171), and whether it waits there to return: an image that has returned leaves its area as it is. -/
  stored : Tab Byte
  away : Bool
  asid : Nat
  priority : Nat
  waves : Tab Wave
  groups : Tab Group
  matrix : Matrix
  watches : Tab Nat
  active : List Nat
  pending : List Nat
  /-- Words that an injection has made uncorrectable: they are spilled with poison (R468). -/
  bad : List Nat
  deriving DecidableEq, Repr

/-- A word of a core's variable file (array 0), wave records (8) or barrier unit (9) that an injection has made uncorrectable (R468, R477): its index, and in the file the lane whose
copy it is (64: the wave's own copy), in the barrier unit the group slot. -/
structure BadWord where
  array : Nat
  index : Nat
  lane : Nat
  deriving DecidableEq, Repr

/-- The instruction that a scheduler has tagged (R460, R461): its wave slot, where it stands in its clause, the address of its base word and its lanes. -/
structure TrailTag where
  slot : Nat
  addr : Nat
  pos : Nat
  pc : Nat
  lanes : Nat
  deriving DecidableEq, Repr

/-- One record of the error log of an array (R476). -/
structure ErrLog where
  stat : DWord
  addr : DWord
  site0 : DWord
  site1 : DWord
  deriving DecidableEq, Repr

/-- A translation held by a TLB (R227): page number of the finest size held, level, frame base and the PTE bits. -/
structure Translation where
  asid : Nat
  va : Nat
  size : Nat
  pa : Nat
  pte : Nat
  deriving DecidableEq, Repr

/-- A compute core. The waves, groups, matrix state and watches are those of the resident image. -/
structure Core where
  context : Option Nat
  asid : Nat
  priority : Nat
  waves : Tab Wave
  groups : Tab Group
  matrix : Matrix
  /-- WATCH_0 to 15 as 128-bit numbers (R447). -/
  watches : Tab Nat
  /-- Wave slots of the four active sets, in the order of their last issue with the latest last, and of the pending sets, oldest entry first (R205, R206). -/
  active : List Nat
  pending : List Nat
  /-- The shadow bank (R168), whether its spill is under way and where to, and the cycles of the swap still running (R169). -/
  shadow : Option Image
  shadowTo : Nat
  /-- SAVE_PA as latched when SWAP was set (R175). -/
  swapTo : Nat
  swapping : Bool
  swapAsked : Bool
  /-- The place among all pre-emptions of the one for which its swap has been asked (R208). -/
  swapOrder : Option Nat := none
  restoring : Bool
  rfail : Bool
  savePa : Nat
  restorePa : Nat
  restoreFrom : Nat
  fulls : Nat
  splitOvf : DWord
  /-- The octets of copies in the file, by wave slot and octet, oldest first (R40). -/
  octetAge : List (Nat × Nat)
  /-- MTOL registers by format: REL and ABS (R262). -/
  mtolRel : Tab Nat
  mtolAbs : Tab Word
  trailCtl : DWord
  traceCtl : DWord
  trailBuf : List (List Byte)
  /-- The tagged instruction of each scheduler (R460). -/
  trailTags : Tab TrailTag
  trailSerial : Nat
  trailWritten : Nat
  tracePos : Nat
  errLogs : Tab ErrLog
  errInj : Tab DWord
  bad : List BadWord
  /-- Instruction-cache lines by virtual line number and ASID: 1024 × line + ASID (R162). -/
  icache : Tab (List Byte)
  /-- The core's L1 TLB, newest first (R227). -/
  l1 : List Translation
  deriving DecidableEq, Repr

/-! ### Launches, queues and contexts -/

/-- The copied launch record (R187), with INIT, REGION and the write set as read at the take. -/
structure Record where
  replay : Bool
  narrow : Bool
  interlocked : Bool
  gang : Nat
  tiles : Nat
  windows : List (Nat × Nat)
  stackSize : Nat
  entry : Nat
  init : Tab Word
  regions : Tab Byte
  stack : Nat
  writeSet : List (Nat × Nat)
  trigAddr : Nat
  trigVal : DWord
  levels : List (Nat × Nat)
  ranks : Tab Rank
  deriving DecidableEq, Repr

/-- The states of a launch (R190). -/
inductive LaunchState where
  | taken
  | running
  | replaying
  | complete
  | failed
  | torn
  deriving DecidableEq, Repr

/-- A group fault record (R293): trap registers, reason, the registers of the trap a handler served (R302), and the wave. -/
structure FaultRecord where
  trap : TrapRegs
  reason : Nat
  original : Option TrapRegs
  deriving DecidableEq, Repr

/-- A launch (R190 to R197). -/
structure Launch where
  context : Nat
  queue : Nat
  packet : Nat
  sitePc : Nat
  record : Record
  state : LaunchState
  /-- The effective priority when it was taken, the queue's PRIO, and since when its packet has been ready (R186, R208). -/
  priority : Nat
  prio : Nat
  readySince : Nat
  count : Nat
  placed : Nat
  /-- The outermost level's extent, which `grow` raises (R30). -/
  outer : Nat
  next : Nat
  exited : List Nat
  triggeredGroups : List Nat
  triggered : Bool
  replays : Nat
  replayable : Bool
  signal : Option (Nat × DWord)
  /-- Protected pieces not yet written, and the snapshots of written ones, by 64 KiB virtual piece and then by the number of a 4 KiB page that was mapped (R193). -/
  protectedPieces : List Nat
  snapshots : Tab (Tab (List Byte))
  fault : Option FaultRecord
  /-- When the head group or gang first failed to place (R202). -/
  waitingSince : Option Nat
  /-- The core that fixes the instance of each bound unit: level, unit and core (R201). -/
  units : List (Nat × Nat × Nat)
  traced : Bool
  deriving DecidableEq, Repr

/-- A WAIT held or a packet that waits for launches (R179). -/
structure Pending where
  packet : Nat
  address : Nat
  threshold : Nat
  signal : Option (Nat × DWord)
  deriving DecidableEq, Repr

/-- A queue as the firmware of its die keeps it (R177): every field of its descriptor but WRIDX, which producers write in memory. -/
structure Queue where
  context : Nat
  die : Nat
  /-- BASE, SIZE, PRIO, RDIDX and RESET_AT. -/
  base : Nat
  size : Nat
  prio : Nat
  rdidx : Nat
  resetAt : Nat
  /-- The STATE code that a steward flow has written as a request (R185). -/
  asked : Option Nat
  /-- Virtual and physical address of the descriptor. -/
  desc : Nat
  descPa : Nat
  state : Nat
  cause : Nat
  trace : Nat
  /-- A WAIT taken and not yet satisfied, and the packets of it still unpassed (R179). -/
  held : Option Pending
  marks : List Pending
  /-- The state recorded at Burrow entry (R499). -/
  saved : Option Nat
  /-- Since when its head LAUNCH packet has been ready, and the pass of the firmware that found it so (R186). -/
  readySince : Option Nat
  readyPass : Nat := 0
  /-- SIZE of the buffers of the session bound to it, and the cores on which the steward has set TRACE_CTL for it (R185, R463). -/
  traceSize : Nat := 0
  traceCores : List Nat := []
  deriving DecidableEq, Repr

/-- The states of a context (R167). -/
inductive CtxState where
  | created
  | live
  | faulted
  | burrowed
  | dead
  deriving DecidableEq, Repr

/-- A context (R165, R167). `asid` none while it holds none. -/
structure Context where
  asid : Option Nat
  state : CtxState
  cause : Nat
  root : Nat
  die : Nat
  tvec : DWord
  /-- Cores on which it has a save area, with the area's physical address (R170). -/
  areas : Tab Nat
  deriving DecidableEq, Repr

/-! ### Dies -/

/-- The states of a link port, in the codes of LNK_STAT (R245, R251). -/
structure Port where
  state : Nat
  lanes : Nat
  detour : Bool
  coding : Bool
  fence : Bool
  retrain : Bool
  crcErr : Nat
  retrains : Nat
  degrades : Nat
  saved : Nat
  /-- The next flit to send, the last acknowledged, the next expected, and refusals in a row (R244). -/
  sent : Nat
  acked : Nat
  expected : Nat
  refusals : Nat
  nak : Bool
  /-- The epoch of the coding tables (R248). -/
  epoch : Nat
  deriving DecidableEq, Repr

/-- A tier-map entry (R231). -/
structure Granule where
  count : Nat
  frame : Nat
  dirty : Bool
  pinC : Bool
  pinH : Bool
  mig : Bool
  inHbm : Bool
  deriving DecidableEq, Repr

/-- What a page fault of an engine, or of a drain, holds up (R226, R272): a stage of a window, with the address that its end reports (R278); an entry of a chain, by the
SEQ that it has or will have, at its source or its destination; or the drain of a core. -/
inductive Stalled where
  | stage (core group window stage addr : Nat)
  | entry (chain seq : Nat) (dest : Bool)
  | drain (core : Nat)
  deriving DecidableEq, Repr

/-- A request that waits at a die's steward: a fault passed to it by a flow (R226, R293, R302) or by an engine (R226, R272), or an `ecall` with the address
of its clause as its site (R436). -/
inductive Request where
  | fault (f : Flow) (ctx : Option Nat) (trap : TrapRegs) (nested : Bool)
  | engine (job : Stalled) (ctx : Option Nat) (asid va sub : Nat)
  | ecall (f : Flow) (ctx : Option Nat) (service : Nat) (a b : DWord) (site : Nat)
  deriving DecidableEq, Repr

/-- A routine call in progress on a Marten core (R275): the chunk by its first output sector, the position and the bytes it was given, and their
poison (R468). -/
structure RoutineCall where
  job : Landing
  /-- The stream-buffer segment of its job (R271). -/
  segment : Nat
  /-- The registers a0 to a7 that the engine sets for it (R275). -/
  args : List Nat
  position : Nat
  input : List Byte
  poisoned : Bool
  deriving DecidableEq, Repr

/-- A copy engine (R271 to R276): its registers, its routine store and the private data memory of its Marten core. -/
structure Engine where
  hold : Bool
  rfaults : Nat
  routines : Tab DWord
  store : Tab Byte
  data : Tab Byte := []
  call : Option RoutineCall
  deriving DecidableEq, Repr

/-- The Badger monitor of a die (R303, R437, R438): the candidate image (its bytes), its measurement once it has passed, the running slot, the time at which
the armed heartbeat expires, the previous slot, the steward core that switched, and the fuse counter. -/
structure Monitor where
  candidate : Option (List Byte)
  measured : Option (List Byte)
  /-- The image that the die's stewards run, while one does. -/
  image : Option (List Byte)
  running : Nat
  heartbeat : Option Nat
  previous : Nat
  switcher : Nat
  /-- The fuse counter once raised; none: the value fused (R493). -/
  svn : Option Nat
  frames : Option (TrapRegs × TrapRegs)
  deriving DecidableEq, Repr

/-- Counters of a die since the last fold into the lifetime record (R482). -/
structure LifeCounters where
  temp : Tab Nat
  droop : Nat
  corr : Tab Nat
  cksum : Tab Nat
  pipe : Tab Nat
  replay : Nat
  burrow : Nat
  deriving DecidableEq, Repr

/-- A compute die. -/
structure Die where
  capW : Nat
  clock : Nat
  lowered : Nat
  /-- Host mailbox bytes (R110). -/
  mailbox : Tab Byte
  /-- Route-table entries by die: UNREACH and PORT (R240). -/
  routes : Tab (Bool × Nat)
  ports : Tab Port
  placeBound : Nat
  /-- The launch that drains, and the cores of its target set (R202). -/
  drain : Option (Nat × List Nat)
  walkRoot : Nat
  tlb : List Translation
  tierUp : Nat
  tierDown : Nat
  tierEpoch : Nat
  tierOut : Nat
  tierIn : Nat
  tiers : Tab Granule
  fenceSelf : Bool
  fenceCause : Nat
  fenceOff : Nat
  errLogs : Tab ErrLog
  frozen : Bool
  /-- Steward event sets by steward core (R439). -/
  events : Tab Nat
  requests : Tab Request
  stewards : Tab Wave
  tvecs : Tab DWord
  monitor : Monitor
  /-- The Sett key table: the keys of the contexts that occupy the die, by handle (R165, R166). -/
  keys : Tab (BitVec 256)
  engines : Tab Engine
  counters : LifeCounters
  /-- The two copies of the lifetime record, 1 KiB each (R482). -/
  lifetime : List (List Byte)
  deriving DecidableEq, Repr

/-! ### The module -/

/-- A registered chain (R280), with the running entry: its SEQ, its bytes as read (R283), the output sectors in all and those landed, its status, and
whether its collective has run or its single variable-ratio call has returned. -/
structure Chain where
  context : Nat
  die : Nat
  engine : Nat
  launch : Option Nat
  running : Option Nat
  entry : List Byte
  todo : Nat
  landed : List Nat
  status : Nat
  matched : Bool
  /-- The parameter page as read (R275), and whether sectors have been added to the barrier at AUX (R282). -/
  page : List Byte
  counted : Bool
  /-- Its STATUS cannot be written: the fault of that write was not served (R226). -/
  mute : Bool
  /-- The clause address of each appended entry's `enq`, by SEQ (R283). -/
  sites : Tab Nat
  deriving DecidableEq, Repr

/-- An armed global barrier (R212) and its context. -/
structure GlobalBarrier where
  context : Nat
  barrier : Barrier
  deriving DecidableEq, Repr

/-- A thread's reservation (R401): its flow and lane, the physical address, the width, and the translation that its `lr` used (R402). -/
structure Reservation where
  flow : Flow
  lane : Nat
  pa : Nat
  bytes : Nat
  via : Translation
  deriving DecidableEq, Repr

/-- A function of a code object (R486): its name, the address of its entry clause, its RANKS bytes and the mask of the even variables that it uses with `.64`. -/
structure FuncEntry where
  name : List Byte
  entry : Nat
  ranks : List Byte
  pairs : Nat
  deriving DecidableEq, Repr

/-- A registered code object (R486, R490): its context, its address and length, its tag, its NARROW flag and its functions. -/
structure CodeObject where
  context : Nat
  va : Nat
  length : Nat
  tag : Nat
  narrow : Bool
  entries : List FuncEntry
  deriving DecidableEq, Repr

/-- A cached translation (R492), with the KMAC256 tag that seals it. -/
structure Translated where
  digest : List Byte
  tag : Nat
  svn : Nat
  code : List Byte
  entries : List FuncEntry
  mac : List Byte
  deriving DecidableEq, Repr

/-- The power states (R496, R499). -/
inductive Power where
  | running
  | safeTalkative
  /-- Burrow entry has begun, and images still leave their cores. -/
  | entering
  | burrow
  /-- Resume is under way: the pin may be asserted again (R500, R501). -/
  | resuming
  deriving DecidableEq, Repr

/-- A `dstep` in progress (R444): the steward flow, where its status goes, the target, its core's slot and the lanes. -/
structure DStep where
  steward : Flow
  dst : Nat
  nwb : Bool
  target : Flow
  lanes : LaneMask
  /-- What the target kept of a clause of other lanes, its latches and its privilege, put back afterwards. -/
  clause : Option Clause
  latches : List Latch
  handler : Bool
  /-- The word at which the lanes stood; at word 0 the step starts its clause and waits for its WAIT flags. -/
  word : Nat
  /-- The sequence number of the target's core when the step began, and whether its instruction has issued: the step ends when that has completed. -/
  seq : Nat := 0
  issued : Bool := false
  deriving DecidableEq, Repr

/-- What happens next: a flow issues, or an event occurs. -/
inductive Act where
  | flow (f : Flow)
  | event (i : Instr)
  deriving DecidableEq, Repr

/-- The state of a module of four compute dies. -/
structure State where
  /-- Bytes of the 52-bit physical space other than zero, by address (R109). -/
  mem : Tab Byte
  /-- Poisoned 128-byte lines by line number (R468). -/
  poison : List Nat
  /-- The releases that a byte's value carries, by address (R141). -/
  tags : Tab (List SyncTag)
  cores : Tab Core
  dies : Tab Die
  launches : Tab Launch
  queues : Tab Queue
  contexts : Tab Context
  globals : Tab GlobalBarrier
  chains : Tab Chain
  reservations : List Reservation
  /-- Spilled images by the physical address of their save area (R171), as the rules for an image that is away have changed them since. -/
  saves : Tab Image
  /-- Every image that a spill has written, with the bytes that it left: what a save area with the tag of such bytes holds (R172). -/
  archive : List Image
  codes : Tab CodeObject
  /-- The translation cache (R492), and the public keys registered, by KEYID (R485). -/
  translations : List Translated
  signers : Tab (List Byte)
  /-- The handles that contexts have had, which no later context has again (R165). -/
  handles : List Nat
  /-- In Burrow, what the capacity tier keeps of the dies' key tables, each wrapped under the key fused into its die: wrapped keys by handle, by die (R166). -/
  wrapped : Tab (Tab (BitVec 256))
  /-- Isle slots A and B, and the slot that the next module reset boots (R8, R438, R502). -/
  isles : Tab (List Byte)
  bootSlot : Nat
  power : Power
  /-- The self-test log of the last module reset (R496). -/
  selfTest : List UnitFailure
  /-- Messages reported on the management port, oldest first. -/
  mgmtOut : List (Nat × Nat × Nat)
  offered : Option (List Byte)
  /-- Device time in µs (R186), and how many images have left their cores (R208). -/
  now : Nat
  swaps : Nat
  /-- How many groups have been placed (R205, R208). -/
  placings : Nat
  /-- How often the firmware has looked for packets that are ready (R186). -/
  passes : Nat
  /-- The model's own: the input tape, the flow that issues next, the counter of free values, a `dstep` in progress. -/
  agenda : List Act
  cur : Flow
  fresh : Nat
  dstep : Option DStep
  deriving DecidableEq, Repr

/-! ### Reset -/

/-- WSTAT at reset (R67). -/
def Wstat.reset : Wstat := { inv := false, dz := false, ovf := false, unf := false, inx := false, scope := false }

/-- The trap registers at reset (R294 to R296). -/
def TrapRegs.reset : TrapRegs := { cause := 0, pc := 0, mask := 0, addr := 0, site0 := 0, site1 := 0 }

/-- A wave record with no thread. -/
def Wave.reset : Wave :=
  { launch := 0, group := 0, number := 0, live := 0, halted := 0, counter := [], word := [], headIssues := 0, sweep := none, clause := none,
    slots := [], copies := [], laneCopies := [], overflowed := [], octets := [], latches := [], flags := [], outstanding := [],
    wstat := Wstat.reset, handler := false, hpc := 0, hword := 0, trap := TrapRegs.reset, scratch := 0, haltInfo := 0, exempt := [], kept := [], returns := [],
    depth := [], spills := 0, maxDepth := 0, park := none, imprecise := [], resume := none, fences := [], seen := [], candidate := false, unissued := true, traced := false,
    traceFrame := none, stopping := false }

/-- A steward flow after reset: one thread (R318), lane 0, which holds no program yet (R495, log 3, log 5). -/
def Wave.stewardReset : Wave := { Wave.reset with live := 1, park := some .monitor }

/-- A slot at module reset (R255). -/
def Slot.reset : Slot := { bytes := [], owner := none, tag := 0, valid := false, source := [], badParity := [] }

/-- An accumulator at module reset (R264). -/
def Acc.reset : Acc :=
  { elems := [], owner := none, version := 0, cr := [], cc := [], ar := [], ac := [], base := .zero, replay := [], noReplay := false,
    unchecked := false, mismatch := false, rows := [], cols := [], cls := none, clsBit := false, fmtSeen := 0, retries := 0, forced := false,
    faultPc := 0, faultSeq := 0 }

/-- A matrix engine at module reset. -/
def Matrix.reset : Matrix := { slots := [], accs := [], queue := [], fills := [], releases := [], seq := 0 }

/-- An error log at reset (R476). -/
def ErrLog.reset : ErrLog := { stat := 0, addr := 0, site0 := 0, site1 := 0 }

/-- A core at module reset. -/
def Core.reset : Core :=
  { context := none, asid := 0, priority := 0, waves := [], groups := [], matrix := Matrix.reset, watches := [], active := [], pending := [],
    shadow := none, shadowTo := 0, swapTo := 0, swapping := false, swapAsked := false, restoring := false, rfail := false, savePa := 0,
    restorePa := 0, restoreFrom := 0, fulls := 0, splitOvf := 0, octetAge := [], mtolRel := [], mtolAbs := [], trailCtl := 0, traceCtl := 0, trailBuf := [], trailTags := [],
    trailSerial := 0, trailWritten := 0, tracePos := 0, errLogs := [], errInj := [], bad := [], icache := [], l1 := [] }

/-- A port at module reset (R251). -/
def Port.reset : Port :=
  { state := 0, lanes := 0, detour := false, coding := true, fence := false, retrain := false, crcErr := 0, retrains := 0, degrades := 0,
    saved := 0, sent := 0, acked := 0, expected := 0, refusals := 0, nak := false, epoch := 0 }

/-- A tier-map entry at module reset (R231). -/
def Granule.reset : Granule :=
  { count := 0, frame := 0, dirty := false, pinC := false, pinH := false, mig := false, inHbm := false }

/-- A monitor at module reset (R437). -/
def Monitor.reset : Monitor :=
  { candidate := none, measured := none, image := none, running := 0, heartbeat := none, previous := 0, switcher := 0, svn := none, frames := none }

/-- The counters behind the lifetime record. -/
def LifeCounters.reset : LifeCounters :=
  { temp := [], droop := 0, corr := [], cksum := [], pipe := [], replay := 0, burrow := 0 }

/-- An engine at module reset (R273, R274). -/
def Engine.reset : Engine := { hold := false, rfaults := 0, routines := [], store := [], call := none }

/-- A die at module reset. -/
def Die.reset : Die :=
  { capW := 2400, clock := 2000, lowered := 0, mailbox := [], routes := [], ports := [], placeBound := 4000, drain := none, walkRoot := 0,
    tlb := [], tierUp := 16, tierDown := 2, tierEpoch := 1000, tierOut := 0, tierIn := 0, tiers := [], fenceSelf := false, fenceCause := 0,
    fenceOff := 0, errLogs := [], frozen := false, events := [], requests := [], stewards := [], tvecs := [], monitor := Monitor.reset,
    keys := [], engines := [], counters := LifeCounters.reset, lifetime := [] }

/-- The module right after reset: every register at its reset value, no context, nothing running (R495, R496; log 2, log 3, log 5). -/
def State.reset : State :=
  { mem := [], poison := [], tags := [], cores := [], dies := [], launches := [], queues := [], contexts := [], globals := [], chains := [],
    reservations := [], saves := [], archive := [], codes := [], translations := [], signers := [], handles := [], wrapped := [], isles := [], bootSlot := 0, power := .running, selfTest := [], mgmtOut := [],
    offered := none, now := 0, swaps := 0, placings := 0, passes := 0, agenda := [], cur := .steward 0 0, fresh := 0, dstep := none }

end Sys2Proof.Machine
end

