-- ==== Sys2Proof/Machine/Ops.lean ====
section
/-! DEFINITION. The named operations over the state: reaching its parts, memory by bytes, the write at the home slice with its reservations, release tags and tier bits (R137,
R141, R231, R402), steward events, error logs, the trace stream, taking a trap and returning from one. -/

namespace Sys2Proof.Machine

/-- The outcome of a step of this machine. -/
abbrev Out := Host.Outcome State Fault Refusal

/-! ### Reaching the parts -/

/-- A core by its number in the package, 64 × die + core (R199). -/
def State.core (s : State) (c : Nat) : Core := s.cores.getD c Core.reset
/-- Put a core back. -/
def State.setCore (s : State) (c : Nat) (k : Core) : State := { s with cores := s.cores.set c k }
/-- Change a core. -/
def State.modCore (s : State) (c : Nat) (g : Core → Core) : State := s.setCore c (g (s.core c))
/-- A die. -/
def State.die (s : State) (d : Nat) : Die := s.dies.getD d Die.reset
/-- Put a die back. -/
def State.setDie (s : State) (d : Nat) (k : Die) : State := { s with dies := s.dies.set d k }
/-- Change a die. -/
def State.modDie (s : State) (d : Nat) (g : Die → Die) : State := s.setDie d (g (s.die d))

/-- The die of a core (R199). -/
def dieOf (core : Nat) : Nat := core / 64

/-- The die a flow runs on. -/
def flowDie : Flow → Nat
  | .wave c _ => dieOf c
  | .steward d _ => d

/-- The record of a flow of control: a placed wave, or the flow of a steward core. -/
def State.flow? (s : State) : Flow → Option Wave
  | .wave c k => (s.core c).waves.get k
  | .steward d t => some ((s.die d).stewards.getD t Wave.stewardReset)

/-- Put a flow's record back. -/
def State.setFlow (s : State) (f : Flow) (w : Wave) : State :=
  match f with
  | .wave c k => s.modCore c (fun q => { q with waves := q.waves.set k w })
  | .steward d t => s.modDie d (fun q => { q with stewards := q.stewards.set t w })

/-- Change a flow's record, where there is one. -/
def State.modFlow (s : State) (f : Flow) (g : Wave → Wave) : State :=
  match s.flow? f with
  | some w => s.setFlow f (g w)
  | none => s

/-- A group by its core and slot. -/
def State.group? (s : State) (c g : Nat) : Option Group := (s.core c).groups.get g
/-- Put a group back. -/
def State.setGroup (s : State) (c g : Nat) (v : Group) : State := s.modCore c (fun q => { q with groups := q.groups.set g v })
/-- Change a group, where there is one. -/
def State.modGroup (s : State) (c g : Nat) (h : Group → Group) : State := s.modCore c (fun q => { q with groups := q.groups.upd g h })

/-- The group of a flow that is a wave, with the core. -/
def State.groupOf (s : State) (f : Flow) : Option (Nat × Nat × Group) :=
  match f with
  | .wave c k =>
    match (s.core c).waves.get k with
    | some w => (s.group? c w.group).map (fun g => (c, w.group, g))
    | none => none
  | .steward _ _ => none

/-- The launch of a wave. -/
def State.launchOf (s : State) (w : Wave) : Option Launch := s.launches.get w.launch

/-- A flow that runs on a steward core (R318). -/
def isSteward : Flow → Bool
  | .steward _ _ => true
  | .wave _ _ => false

/-- The context of a wave's core image; none for a steward flow. -/
def State.contextOf (s : State) (f : Flow) : Option Nat :=
  match f with
  | .wave c _ => (s.core c).context
  | .steward _ _ => none

/-- The ASID a flow's accesses use: its context's, or 0 on a steward core (R165). -/
def State.asidOf (s : State) (f : Flow) : Nat :=
  match f with
  | .wave c _ => (s.core c).asid
  | .steward _ _ => 0

/-- The home rank of a variable for a flow (R36); a steward flow's variables are read and written as wave-home (log 7). -/
def State.rank (s : State) (f : Flow) (w : Wave) (x : Nat) : Rank :=
  if isSteward f then .wave
  else match s.launchOf w with
    | some l => l.record.ranks.getD x .lane
    | none => .lane

/-- Interlocked mode (R99): the launch's mode, and every mixed clause. -/
def State.interlocked (s : State) (w : Wave) (c : Clause) : Bool :=
  c.header.extractLsb' 25 3 == 6 || (s.launchOf w).any (fun l => l.record.interlocked)

/-! ### Memory by bytes -/

/-- A byte of memory: what nothing has written reads as 0 (log 1). -/
def State.byte (s : State) (pa : Nat) : Byte := s.mem.getD pa 0

/-- Write a byte; a zero byte is not listed. -/
def Memory.setByte (m : Tab Byte) (pa : Nat) (v : Byte) : Tab Byte := if v = 0 then m.del pa else m.set pa v

/-- Write a byte of memory. -/
def State.setByte (s : State) (pa : Nat) (v : Byte) : State := { s with mem := Memory.setByte s.mem pa v }

/-- Bytes of a table of bytes from an address, in ascending order; absent bytes read 0. -/
def Memory.read (m : Tab Byte) (a n : Nat) : List Byte := (List.range n).map (fun i => m.getD (a + i) 0)

/-- Write bytes at ascending addresses. -/
def Memory.write (m : Tab Byte) (a : Nat) : List Byte → Tab Byte
  | [] => m
  | b :: bs => Memory.write (Memory.setByte m a b) (a + 1) bs

/-- Bytes of memory from a physical address. -/
def State.bytes (s : State) (pa n : Nat) : List Byte := Memory.read s.mem pa n

/-- Write bytes of memory from a physical address. -/
def State.setBytes (s : State) (pa : Nat) (bs : List Byte) : State := { s with mem := Memory.write s.mem pa bs }

/-- The canonical form of memory: addresses rise and no byte is zero. -/
def Memory.wf (m : Tab Byte) : Bool := Tab.sorted m && m.all (fun e => e.2 != 0)

/-! ### Steward events, reports and logs -/

/-- Raise an event bit on the four steward cores of a die (R439). -/
def State.raiseEvent (s : State) (d k : Nat) : State :=
  s.modDie d (fun q => { q with events := [0, 1, 2, 3].foldl (fun t st => t.set st (t.getD st 0 ||| 2 ^ k)) q.events })

/-- Report on the management port: the die, what, and a value (R303, R438, R478). -/
def State.report (s : State) (d what value : Nat) : State := { s with mgmtOut := s.mgmtOut ++ [(d, what, value)] }

/-- A counter of the lifetime record: corrected errors of an array (R482). -/
def LifeCounters.addCorr (c : LifeCounters) (array : Nat) : LifeCounters := { c with corr := c.corr.set array (c.corr.getD array 0 + 1) }

/-- An error entered in a log (R476): a corrected one raises CORR and fills an empty record; an uncorrectable one fills an empty record or one that is
not uncorrectable, and otherwise sets OVF. -/
def ErrLog.enter (e : ErrLog) (ue : Bool) (asid addr pc seq synd : Nat) : ErrLog :=
  let v := e.stat.getLsbD 63
  let held := e.stat.getLsbD 62
  let corr := (e.stat.extractLsb' 16 16).toNat
  let corr' := if ue then corr else min (corr + 1) 65535
  if (ue && (!v || !held)) || (!ue && !v) then
    { stat := BitVec.ofNat 64 (2 ^ 63 + b2n ue * 2 ^ 62 + b2n (e.stat.getLsbD 61) * 2 ^ 61 + asid % 1024 * 2 ^ 46 + corr' * 2 ^ 16 + synd % 65536),
      addr := BitVec.ofNat 64 addr, site0 := BitVec.ofNat 64 (pc % 2 ^ 48), site1 := BitVec.ofNat 64 seq }
  else
    let ovf := e.stat.getLsbD 61 || ue
    { e with stat := BitVec.ofNat 64 (b2n v * 2 ^ 63 + b2n held * 2 ^ 62 + b2n ovf * 2 ^ 61
        + (e.stat.extractLsb' 46 10).toNat * 2 ^ 46 + corr' * 2 ^ 16 + (e.stat.extractLsb' 0 16).toNat) }

/-- Log an error of a core's array (R476); a corrected one also counts for the lifetime record. -/
def State.logCore (s : State) (core array : Nat) (ue : Bool) (asid addr pc seq : Nat) : State :=
  let s := s.modCore core (fun q => { q with errLogs := q.errLogs.set array ((q.errLogs.getD array ErrLog.reset).enter ue asid addr pc seq 0) })
  if ue then s else s.modDie (dieOf core) (fun q => { q with counters := q.counters.addCorr array })

/-- Log an error of a die's array (R476). -/
def State.logDie (s : State) (d array : Nat) (ue : Bool) (asid addr pc seq : Nat) : State :=
  let s := s.modDie d (fun q => { q with errLogs := q.errLogs.set array ((q.errLogs.getD array ErrLog.reset).enter ue asid addr pc seq 0) })
  if ue then s else s.modDie d (fun q => { q with counters := q.counters.addCorr (16 + array) })

/-! ### Physical addresses (R109) -/

/-- DIE of a physical address. -/
def paDie (pa : Nat) : Nat := pa / 2 ^ 46 % 64
/-- SPACE of a physical address. -/
def paSpace (pa : Nat) : Nat := pa / 2 ^ 44 % 4
/-- OFFSET of a physical address. -/
def paOffset (pa : Nat) : Nat := pa % 2 ^ 44
/-- The 128-byte line of a physical address. -/
def lineOf (pa : Nat) : Nat := pa / 128

/-! ### Writes at the home slice -/

/-- The words of 4 bytes that bytes from an address touch. -/
def wordsAt (pa n : Nat) : List Nat := (List.range ((pa + n - 1) / 4 - pa / 4 + 1)).map (pa / 4 + ·)

/-- The releases that bytes carry (R141). -/
def tagsIn (t : Tab (List SyncTag)) (a n : Nat) : List SyncTag := ((List.range n).flatMap (fun k => t.getD (a + k) [])).dedup

/-- What a write does to the releases that its bytes carry: an atomic write continues the run, any other write ends it (R141). -/
def tagBytes (t : Tab (List SyncTag)) (a n : Nat) (atomic : Bool) (tag : Option SyncTag) : Tab (List SyncTag) :=
  (List.range n).foldl (fun t k =>
    let l := ((if atomic then t.getD (a + k) [] else []) ++ tag.toList).dedup
    if l = [] then t.del (a + k) else t.set (a + k) l) t

/-- The releases that bytes of memory carry. -/
def State.tagsAt (s : State) (pa n : Nat) : List SyncTag := tagsIn s.tags pa n

/-- A write of bytes of memory, to the releases they carry. -/
def State.tagWrite (s : State) (pa n : Nat) (atomic : Bool) (tag : Option SyncTag) : State := { s with tags := tagBytes s.tags pa n atomic tag }

/-- COUNT of each granule of a list rises by one, saturating (R231, R232). -/
def countLines (t : Tab Granule) (gs : List Nat) : Tab Granule :=
  gs.foldl (fun t g =>
    let e := t.getD (g % 8388608) Granule.reset
    t.set (g % 8388608) { e with count := min 63 (e.count + 1) }) t

/-- DIRTY of the granules that bytes from an offset touch, where the HBM holds them (R231). -/
def dirtyGranules (t : Tab Granule) (off n : Nat) : Tab Granule :=
  t.mapVal (fun g e => if e.inHbm && decide (off < 65536 * (g + 1) ∧ 65536 * g < off + n) then { e with dirty := true } else e)

/-- The lines that move between granules and L2 at an access on a die (R232): which do is a free value (log 10). EPOCH 0 stops the counting. A write marks the granules
that it touches (R231). -/
def State.countGranule (s : State) (pa n : Nat) (write : Bool) : State :=
  if paSpace pa ≠ 0 then s
  else
    ({ s with fresh := s.fresh + 1 }).modDie (paDie pa) (fun q =>
      let t := if q.tierEpoch = 0 then q.tiers else countLines q.tiers (Config.lineTraffic s.fresh)
      { q with tiers := if write then dirtyGranules t (paOffset pa) n else t })

/-- Write bytes at the home slice: every reservation on a line written is lost (R402), and the bytes' releases follow R141. -/
def State.poke (s : State) (pa : Nat) (bs : List Byte) (atomic : Bool) (tag : Option SyncTag) : State :=
  let s := s.setBytes pa bs
  let s := { s with reservations := s.reservations.filter (fun r => lineOf r.pa < lineOf pa || lineOf (pa + bs.length - 1) < lineOf r.pa) }
  (s.tagWrite pa bs.length atomic tag).countGranule pa bs.length true

/-! ### The trace stream (R463 to R466) -/

/-- The lanes of a position: the lowest counter and word of the live unhalted lanes. -/
def Wave.position (w : Wave) (l : Nat) : Nat × Nat := (w.counter.getD l 0, w.word.getD l 0)

/-- Where a wave stands for a SYNC record: its clause in progress, or its lowest lane's position (R464, R465). -/
def Wave.standing (w : Wave) : Nat × Nat × Nat × Nat :=
  match w.clause with
  | some c => (c.pos, c.header.toNat, c.addr, c.run.toNat)
  | none =>
    let l := w.live.lowest
    (w.word.getD l 0, 0, w.counter.getD l 0, w.live.toNat)

/-- A SYNC record (R464), of the word given where it stands at a clause start, else of the wave's current state. -/
def syncRecord (slot p : Nat) (w : Wave) (start : Option Nat) : List Byte :=
  let (now, header, addr, run) := w.standing
  let word := start.getD now
  [0x01, BitVec.ofNat 8 slot, BitVec.ofNat 8 word, 0] ++ bytesOfNat 4 header ++ bytesOfNat 6 addr ++ [0, 0] ++ bytesOfNat 8 run ++ bytesOfNat 8 p

/-- Append bytes to a core's trace stream: they stand at BASE + (P mod the buffer's size), and P rises (R463). -/
def State.traceBytes (s : State) (core : Nat) (bs : List Byte) : State :=
  let q := s.core core
  let base := bits q.traceCtl.toNat 51 12 * 4096
  let size := 2 ^ (bits q.traceCtl.toNat 59 56 + 12)
  let at_ := q.tracePos % size
  let s := s.poke (base + at_) (bs.take (size - at_)) false none
  let s := if bs.length ≤ size - at_ then s else s.poke base (bs.drop (size - at_)) false none
  s.modCore core (fun q => { q with tracePos := q.tracePos + bs.length })

/-- Write one record for a wave, a SYNC record first where it is the wave's first in its frame (R465). `place`: the SYNC record stands in place of this one, with the word given
where that is a clause start's. The number bounds the frames that a record may open. -/
def State.traceRec (s : State) (core slot : Nat) (rec : List Byte) (place : Option (Option Nat)) : Nat → State
  | 0 => s
  | fuel + 1 =>
    let q := s.core core
    match q.waves.get slot with
    | some w =>
      if w.traced && q.traceCtl.getLsbD 63 then
        let frame := q.tracePos / 4096
        if w.traceFrame = some frame then s.traceBytes core rec
        else if q.tracePos % 4096 + 32 > 4096 then
          (s.traceBytes core (bytesOfNat 16 0)).traceRec core slot rec place fuel
        else
          let s := s.traceBytes core (syncRecord slot q.tracePos w (place.getD none))
          let s := s.modFlow (.wave core slot) (fun w => { w with traceFrame := some frame })
          if place.isSome then s else s.traceRec core slot rec place fuel
      else s
    | none => s

/-- Write an EVENT record (R464). -/
def State.traceEvent (s : State) (f : Flow) (kind code : Nat) (lanes : LaneMask) : State :=
  match f with
  | .wave core slot =>
    s.traceRec core slot ([0x04, BitVec.ofNat 8 slot, BitVec.ofNat 8 kind, BitVec.ofNat 8 code, 0, 0, 0, 0] ++ bytesOfNat 8 lanes.toNat) none 3
  | .steward _ _ => s

/-- Write a TARGET record (R464). -/
def State.traceTarget (s : State) (f : Flow) (next : Nat) (lanes : LaneMask) : State :=
  match f with
  | .wave core slot => s.traceRec core slot ([0x03, BitVec.ofNat 8 slot] ++ bytesOfNat 6 next ++ bytesOfNat 8 lanes.toNat) none 3
  | .steward _ _ => s

/-- Write a CLAUSE record at a clause start, or a SYNC record with the word where the run resumes mid-clause (R465). -/
def State.traceClause (s : State) (f : Flow) (c : Clause) (mid : Bool) : State :=
  match f with
  | .wave core slot =>
    if mid then (s.modFlow f (fun w => { w with traceFrame := none })).traceRec core slot [] (some (some c.pos)) 3
    else s.traceRec core slot ([0x02, BitVec.ofNat 8 slot] ++ bytesOfNat 6 c.addr ++ bytesOfNat 8 c.run.toNat) (some (some 0)) 3
  | .steward _ _ => s

/-- Write END or TRUNCATED_BY_RESET (R464, R466). -/
def State.traceLast (s : State) (core type : Nat) : State :=
  let q := s.core core
  if q.traceCtl.getLsbD 63 then s.traceBytes core ([BitVec.ofNat 8 type, 0, 0, 0, 0, 0, 0, 0] ++ bytesOfNat 8 q.tracePos) else s

/-- End a trace stream with END or TRUNCATED_BY_RESET and stop it (R183, R466). -/
def State.traceEnd (s : State) (core type : Nat) : State :=
  (s.traceLast core type).modCore core (fun q => { q with traceCtl := q.traceCtl &&& ~~~(1 <<< 63 : DWord) })

/-! ### Trail tags (R459, R460) -/

/-- The wave of a tagged instruction has gone past it, and no result of its clause is still out: it has written back (R460). -/
def TrailTag.back (t : TrailTag) (w : Wave) : Bool :=
  w.clause.all (fun c => c.addr != t.addr || c.pos != t.pos) && !w.outstanding.any (fun o => o.site == t.addr)

/-- A swap, a trap or a halt that meets a tagged instruction before its write-back ends the tag (R460). -/
def State.dropTag (s : State) (f : Flow) : State :=
  match f with
  | .steward _ _ => s
  | .wave c k =>
    let q := s.core c
    if q.trailTags = [] then s
    else s.setCore c { q with trailTags := q.trailTags.keep (fun _ t => t.slot != k || (q.waves.get k).any t.back) }

/-! ### Fences (R135, R140, R142, R151) -/

/-- The thread of a lane of a flow, as a place (R135). -/
def State.placeOf (s : State) (f : Flow) : Place :=
  match s.flow? f, s.groupOf f with
  | some w, some (_, _, g) => { flow := f, launch := w.launch, index := g.index, number := w.number }
  | _, _ => { flow := f, launch := 0, index := 0, number := 0 }

/-- A scope named by a thread includes another thread (R135). A steward flow has no wave and no group: it is its own wave and group, and a copy engine stands as steward core 0 of its
die, which is the model's choice (log 94). -/
def includes (scope : Nat) (a b : Place) : Bool :=
  let waves := !isSteward a.flow && !isSteward b.flow
  match scope with
  | 0 => if waves then a.launch == b.launch && a.index == b.index && a.number == b.number else a.flow == b.flow
  | 1 => if waves then a.launch == b.launch && a.index == b.index else a.flow == b.flow
  | 2 => flowDie a.flow == flowDie b.flow
  | _ => true

/-- A release carried by a value and an acquire of a scope do not include each other (R142). -/
def State.drops (s : State) (f : Flow) (scope : Nat) (t : SyncTag) : Bool :=
  let me := s.placeOf f
  !(includes t.scope t.place me && includes scope me t.place)

/-- A fence of a run: a release fence makes later writes of its threads releases, and an acquire fence makes their earlier reads acquires (R140, R142). -/
def State.fenceRun (s : State) (f : Flow) (run : LaneMask) (release acquire : Option Nat) : State :=
  s.modFlow f (fun w =>
    let w := match release with
      | some k => { w with fences := (LaneMask.toList run).foldl (fun t l => t.set l (max k (t.getD l 0))) w.fences }
      | none => w
    match acquire with
    | some k => if w.seen.any (fun x => run.getLsbD x.1 && s.drops f k x.2) then { w with wstat := { w.wstat with scope := true } } else w
    | none => w)

/-- A `fence.ar` at fabric scope by every thread of a flow (R151, R436). -/
def State.fabricFence (s : State) (f : Flow) : State :=
  match s.flow? f with
  | some w => s.fenceRun f w.live (some 4) (some 4)
  | none => s

/-! ### Traps -/

/-- What a check finds wrong (R293): CODE, SUB, TADDR and TCAUSE.LANE, with the escalation mark and, for the faults that have one, a sequence number. -/
structure Trap where
  code : Nat
  sub : Nat := 0
  addr : Nat := 0
  lane : Nat := 0
  esc : Bool := false
  sitePc : Option Nat := none
  siteSeq : Nat := 0
  deriving DecidableEq, Repr

/-- ILLEGAL (R293). -/
def Trap.illegal : Trap := { code := 0x02 }
/-- PRIVILEGE with a register number, or 0 (R293, R414). -/
def Trap.privilege (n : Nat) : Trap := { code := 0x03, addr := n }

/-- TCAUSE of a precise trap (R294). -/
def Trap.causeReg (t : Trap) : DWord :=
  BitVec.ofNat 64 (b2n t.esc * 2 ^ 63 + t.lane % 64 * 2 ^ 56 + t.sub % 256 * 256 + t.code % 256)

/-- TPC of a point: clause header and word (R295). -/
def tpcOf (addr word : Nat) : DWord := BitVec.ofNat 64 (word % 16 * 2 ^ 48 + addr / 4 % 2 ^ 46 * 4)

/-- The trap registers of a precise trap at a word of a clause (R293 to R296). -/
def Trap.regs (t : Trap) (addr word : Nat) (run : LaneMask) : TrapRegs :=
  { cause := t.causeReg, pc := tpcOf addr word, mask := run, addr := BitVec.ofNat 64 t.addr,
    site0 := BitVec.ofNat 64 ((t.sitePc.getD addr) % 2 ^ 48), site1 := BitVec.ofNat 64 t.siteSeq }

/-- CODE of trap registers (R294). -/
def TrapRegs.code (r : TrapRegs) : Nat := (r.cause.extractLsb' 0 8).toNat
/-- SUB of trap registers (R294). -/
def TrapRegs.sub (r : TrapRegs) : Nat := (r.cause.extractLsb' 8 8).toNat
/-- ESC of trap registers (R294). -/
def TrapRegs.esc (r : TrapRegs) : Bool := r.cause.getLsbD 63
/-- IMPRECISE of trap registers (R294). -/
def TrapRegs.imprecise (r : TrapRegs) : Bool := r.cause.getLsbD 62

/-- The causes that go first to the steward (R293, R470): PAGE, MEMORY_ERROR, and TILE_CHECKSUM when ESC is set. -/
def TrapRegs.stewardCause (r : TrapRegs) : Bool := r.code == 0x06 || r.code == 0x15 || (r.code == 0x0E && r.esc)

/-- TVEC that a flow reads: its context's, or its steward core's (R296, R428). -/
def State.tvecOf (s : State) (f : Flow) : DWord :=
  match f with
  | .wave c _ => (((s.core c).context.bind s.contexts.get).map (fun x => x.tvec)).getD 0
  | .steward d t => (s.die d).tvecs.getD t 0

/-- The monitor stops a die and keeps both frames (R303): no core of it issues until a release or module reset. -/
def State.freeze (s : State) (d : Nat) (a b : TrapRegs) : State :=
  (s.modDie d (fun q => { q with frozen := true, monitor := { q.monitor with frames := some (a, b) } })).report d 1 b.code

/-- Pass a fault to the steward of the flow's die, and hold the flow (R226, R293, R302). -/
def State.passToSteward (s : State) (f : Flow) (r : TrapRegs) (nested : Bool) : State :=
  let d := flowDie f
  let ctx := s.contextOf f
  let s := s.modFlow f (fun w => { w with park := some .steward })
  (s.modDie d (fun q => { q with requests := q.requests.set (q.requests.free 0 q.requests.length) (.fault f ctx r nested) })).raiseEvent d 1

/-- A flow's threads lose their reservations (R402). -/
def State.dropReservations (s : State) (f : Flow) : State :=
  { s with reservations := s.reservations.filter (fun r => r.flow != f) }

/-- TRAP ENTRY at the handler (R297): its threads lose their reservations (R402), the trap registers are written, every latch becomes invalid, no run issues, the privilege becomes handler and
the handler's counter is TVEC.ADDR. The entry acts as a fence (R151). -/
def State.enterHandler (s : State) (f : Flow) (r : TrapRegs) : State :=
  let s := (s.fabricFence f).dropReservations f
  let vec := bits (s.tvecOf f).toNat 47 2 * 4
  let s := s.modFlow f (fun w =>
    { w with trap := r, latches := [], clause := none, handler := true, hpc := vec, park := none, resume := none })
  s.traceEvent f 2 r.code r.mask

/-- A wave of a context's image, wherever the image stands. -/
def State.imageWave (s : State) (f : Flow) (ctx : Option Nat) : Option Wave :=
  match f, ctx with
  | .wave c k, some x =>
    if (s.core c).context = some x ∧ !(s.core c).swapping then (s.core c).waves.get k
    else match (s.core c).shadow.bind (fun i => if i.context = x then some i else none) with
      | some i => i.waves.get k
      | none => (((s.contexts.get x).bind (fun y => y.areas.get c)).bind s.saves.get).bind (fun i => i.waves.get k)
  | _, _ => s.flow? f

/-- The trap registers of the wave whose forwarded trap a die's steward serves (R226, R303): those of the first fault that waits with it, or for a fault of a handler those that the
handler works on (R302). -/
def State.serving (s : State) (d : Nat) : Option TrapRegs :=
  (s.die d).requests.findSome? (fun e => match e.2 with
    | .fault f ctx r nested => some (if nested then ((s.imageWave f ctx).map (fun w => w.trap)).getD r else r)
    | .engine _ _ _ _ _ | .ecall _ _ _ _ _ _ => none)

/-- A fault of a steward flow (R303, R428): it enters at TVEC when EN is 1, the frame is free and the steward serves no trap forwarded from a wave; otherwise it
escalates to the monitor, with the frame of what was served and its own. -/
def State.stewardTrap (s : State) (d t : Nat) (w : Wave) (r : TrapRegs) : State :=
  let r := { r with mask := 1 }
  let served := s.serving d
  if (s.tvecOf (.steward d t)).getLsbD 63 && !w.handler && served.isNone then s.enterHandler (.steward d t) r
  else (s.modFlow (.steward d t) (fun w => { w with park := some .steward })).freeze d (served.getD w.trap) r

/-- A tile checksum fault counts for the lifetime record (R482). -/
def State.countChecksum (s : State) (f : Flow) (r : TrapRegs) : State :=
  match f with
  | .wave c _ =>
    if r.code = 0x0E then
      s.modDie (dieOf c) (fun q => { q with counters := { q.counters with cksum := q.counters.cksum.set (c % 64) (q.counters.cksum.getD (c % 64) 0 + 1) } })
    else s
  | .steward _ _ => s

/-- TAKING A TRAP (R293, R297, R302, R428): a trap in a handler goes to the steward; a steward cause goes to the steward; any other goes to the
context's handler when TVEC.EN is 1, and to the steward when it is 0. -/
def State.takeTrap (s : State) (f : Flow) (r : TrapRegs) : State :=
  match s.flow? f with
  | none => s
  | some w =>
    let s := (s.countChecksum f r).dropTag f
    match f with
    | .steward d t => s.stewardTrap d t w r
    | .wave _ _ =>
      if w.handler then s.passToSteward f r true
      else if r.stewardCause || !(s.tvecOf f).getLsbD 63 then s.passToSteward f r false
      else s.enterHandler f r

/-- RETURN FROM A TRAP (R299, R427): the lanes of TMASK that are live and not halted take TPC, and form the run that issues next; the privilege becomes
user. With no such lane the handler just ends. The return acts as a fence (R151). -/
def State.returnFromTrap (s : State) (f : Flow) : State :=
  match s.flow? f with
  | none => s
  | some w =>
    let addr := bits w.trap.pc.toNat 47 2 * 4
    let word := bits w.trap.pc.toNat 51 48
    let run : LaneMask := if isSteward f then 1 else w.trap.mask &&& w.live &&& ~~~w.halted
    let s := s.fabricFence f
    let set (t : Tab Nat) (v : Nat) : Tab Nat := run.toList.foldl (fun t l => t.set l v) t
    let s := s.modFlow f (fun w =>
      { w with counter := set w.counter addr, word := set w.word word, latches := [], clause := none, handler := false,
               resume := if run = 0 then none else some (run, 1) })
    s.traceEvent f 3 0 run

end Sys2Proof.Machine
end

