-- ==== Sys2Proof/Machine/Operands.lean ====
section
/-! DEFINITION. Operand forms: what each source field reads, what a result writes, and the checks on operands (R41 to R56 of spec/03_variables_and_ranks.md, R84 to
R91 of spec/05_encoding_and_assembly.md, R312 of spec/19_ref_integer.md). -/

namespace Sys2Proof.Machine

/-- What issues: the flow, its record, its clause in progress, the instruction and its fields. -/
structure Issuer where
  f : Flow
  w : Wave
  c : Clause
  i : Instr
  p : OpSpec

/-- The run of the clause (R17). -/
def Issuer.run (e : Issuer) : LaneMask := e.c.run
/-- The lowest-numbered thread of the run, for which wave-class sources resolve (R42). -/
def Issuer.lead (e : Issuer) : Nat := LaneMask.lowest e.c.run
/-- The address of the instruction's base word. -/
def Issuer.base (e : Issuer) : Nat := e.c.addr + 4 * e.c.pos
/-- The words the instruction takes. -/
def Issuer.len (e : Issuer) : Nat := e.p.length
/-- The address of the header that follows the clause (R76). -/
def Issuer.after (e : Issuer) : Nat := (e.c.addr + 4 * (e.c.words.length + 1)) % 2 ^ 48

/-- The register instructions (R429). -/
def namesRegister : Instr → Bool
  | .csrr _ | .csrw _ | .csrs _ | .csrc _ => true
  | _ => false

/-- The parts of an instruction for a flow: on a compute core a register instruction reads no SB, whose field must be zero (R430). -/
def partsFor (f : Flow) (i : Instr) (p : OpSpec) : OpSpec :=
  match f with
  | .wave _ _ => if namesRegister i then { p with sbRole := .unused } else p
  | .steward _ _ => p

/-- The issuing flow with an instruction of its clause in progress. -/
def State.issuer (s : State) (i : Instr) : Option Issuer :=
  match s.flow? s.cur, i.spec with
  | some w, some p => w.clause.map (fun c => { f := s.cur, w, c, i, p := partsFor s.cur i p })
  | _, _ => none

/-- Wave class (R91): majors 0x00 to 0x0F, 0x17 to 0x1B and 0x1E with S = 1, and majors 0x1C and 0x1D. -/
def waveClass (p : OpSpec) : Bool :=
  match p.form with
  | .hint | .ctl => false
  | _ => (p.s && (p.major < 0x10 || (0x17 ≤ p.major && p.major ≤ 0x1B) || p.major == 0x1E)) || p.major == 0x1C || p.major == 0x1D

/-- Instructions that execute once and read their sources for the lowest lane of the run: wave class, and the debug instructions (R413). -/
def scalarClass (p : OpSpec) : Bool := waveClass p || p.major == 0x1E

/-- The instructions that may fault (R289): majors 0x17 to 0x1E, `brx`, `call`, `calli`, `ret` and `merge.g`. -/
def mayFault (i : Instr) : Bool :=
  match i with
  | .brx _ | .call _ | .calli _ | .ret _ | .mergeG _ => true
  | _ => (i.spec).any (fun p => match p.form with
      | .hint => false
      | _ => 0x17 ≤ p.major && p.major ≤ 0x1E)

/-! ### Constants and specials -/

/-- The inline constants by number, code 0x88 first (R85). -/
def constTable : List Nat :=
  List.range 32 ++ [0xFFFFFFFF, 0xFFFFFFFE, 0xFFFFFFFD, 0xFFFFFFFC, 0xFFFFFFFB, 0xFFFFFFFA, 0xFFFFFFF9, 0xFFFFFFF8,
    0x3F000000, 0xBF000000, 0x3F800000, 0xBF800000, 0x40000000, 0xC0000000, 0x40800000, 0xC0800000,
    0x3E800000, 0x41000000, 0x3FB8AA3B, 0x3F317218, 0x7F800000, 0x7FC00000, 0x7F7FFFFF, 0x80000000]

/-- The pattern of an inline constant (R85). -/
def constWord (k : Fin 56) : Word := BitVec.ofNat 32 ((constTable[k.val]?).getD 0)

/-- A constant as a 64-bit source (R86): integers sign-extended, floating-point patterns zero-extended. -/
def constPair (k : Fin 56) : DWord := if k.val < 40 then (constWord k).signExtend 64 else (constWord k).setWidth 64

/-- The level classes of R25: 0 for the lane number, 1 for the wave number, 2 for the group index. -/
def levelClass (domain : Nat) : Nat := if domain ≤ 1 then 0 else if domain = 2 then 1 else 2

/-- The extent of level k (R27), the outermost level's as `grow` raised it (R30). -/
def Launch.extent (l : Launch) (k : Nat) : Nat :=
  if k + 1 = l.record.levels.length then l.outer else ((l.record.levels[k]?).map Prod.fst).getD 1

/-- The product of the extents of the levels of one class numbered below `k` (R25). -/
def Launch.below (l : Launch) (cls k : Nat) : Nat :=
  ((l.record.levels.take k).filter (fun e => levelClass e.2 == cls)).foldl (fun n e => n * e.1) 1

/-- `%lvlk` (R25, R27): mixed radix, the lower-numbered level varying fastest; 0 for a level not declared. -/
def Launch.level (l : Launch) (k lane wave group : Nat) : Nat :=
  match l.record.levels[k]? with
  | none => 0
  | some (_, dom) =>
    let n := if levelClass dom = 0 then lane else if levelClass dom = 1 then wave else group
    n / l.below (levelClass dom) k % l.extent k

/-- The unit of the gang level that a group belongs to (R26); with no gang level, or one bound to the group domain, each group is its own. -/
def Launch.gangOf (l : Launch) (index : Nat) : Nat :=
  match l.record.levels[l.record.gang]? with
  | some (_, dom) =>
    if l.record.gang = 0 ∨ levelClass dom < 2 then index else index / (l.below 2 l.record.gang * l.extent l.record.gang)
  | none => index

/-- The value of a special for a lane (R27, R56), before any extension. On a steward core all but `%zero`, read as 0 and `%nlvl` as 1 (log 7). -/
def State.special (s : State) (f : Flow) (w : Wave) (x : Special) (l : Nat) : DWord :=
  let launch := if isSteward f then none else s.launchOf w
  let index := ((s.groupOf f).map (fun g => g.2.2.index)).getD 0
  match x with
  | .zero => 0
  | .lane => BitVec.ofNat 64 l
  | .wave => BitVec.ofNat 64 w.number
  | .group => BitVec.ofNat 64 index
  | .seq => match f with
    | .wave c _ => BitVec.ofNat 64 (s.core c).matrix.seq
    | .steward _ _ => 0
  | .lvl k => BitVec.ofNat 64 ((launch.map (fun a => a.level k.toNat l w.number index)).getD 0)
  | .nlvl k => BitVec.ofNat 64 ((launch.map (fun a => if k.toNat < a.record.levels.length then a.extent k.toNat else 1)).getD 1)

/-! ### Reading -/

/-- The home copy of a group-home variable (R38). -/
def State.groupHome (s : State) (f : Flow) (x : Nat) : Word := ((s.groupOf f).map (fun g => g.2.2.home.getD x 0)).getD 0

/-- `Read(x, l)` (R45). -/
def State.readVar (s : State) (f : Flow) (w : Wave) (x l : Nat) : Word :=
  match s.rank f w x with
  | .lane => w.slots.getD (64 * x + l) 0
  | .wave =>
    match w.laneCopies.get (64 * x + l) with
    | some v => v
    | none => w.copies.getD x 0
  | .group =>
    match w.laneCopies.get (64 * x + l) with
    | some v => v
    | none =>
      match w.copies.get x with
      | some v => v
      | none => s.groupHome f x

/-- The pair that an even variable names (R37): each half resolved on its own. -/
def State.readPair (s : State) (f : Flow) (w : Wave) (x l : Nat) : DWord := pair (s.readVar f w x l) (s.readVar f w (x + 1) l)

/-- A latch's value for a lane, when it is valid for it (R53). -/
def Latch.value (k : Latch) (l : Nat) : Option DWord :=
  match k with
  | .invalid => none
  | .lanes t => t.get l
  | .uniform v => some v

/-- The latch that a source names (R53). -/
def Wave.latch (w : Wave) (k : Nat) : Latch := (w.latches[k]?).getD .invalid

/-- The value of a source in a role for a lane (R84 to R86, R312): 32 bits zero-extended, or a pair. An invalid latch has been refused before. -/
def State.src (s : State) (e : Issuer) (r : Role) (x : Src) (l : Nat) : DWord :=
  let wide := r == .pair
  match x with
  | .var n => if wide then s.readPair e.f e.w n.toNat l else (s.readVar e.f e.w n.toNat l).setWidth 64
  | .latch k =>
    let v := ((e.w.latch k.toNat).value l).getD 0
    if wide then v else (lo32 v).setWidth 64
  | .const k => if wide then constPair k else (constWord k).setWidth 64
  | .special y =>
    let v := s.special e.f e.w y l
    if wide then v else (lo32 v).setWidth 64
  | .lit =>
    let v := e.p.lit.getD 0
    if wide then v.signExtend 64 else v.setWidth 64

/-- Operand A for a lane (R311). -/
def State.srcA (s : State) (e : Issuer) (l : Nat) : DWord := s.src e e.p.saRole e.p.sa l
/-- Operand B for a lane. -/
def State.srcB (s : State) (e : Issuer) (l : Nat) : DWord := s.src e e.p.sbRole e.p.sb l
/-- Operand C for a lane. -/
def State.srcC (s : State) (e : Issuer) (l : Nat) : DWord := s.src e e.p.scRole e.p.sc l

/-! ### Which variables an instruction touches -/

/-- The variables that a role covers from a first one. -/
def roleVars (r : Role) (n : Nat) : List Nat :=
  match r with
  | .unused => []
  | .one | .name => [n]
  | .pair => [n, n + 1]
  | .quad => [n, n + 1, n + 2, n + 3]

/-- The variables a source field reads. -/
def srcVars (r : Role) (x : Src) : List Nat :=
  match x with
  | .var n => roleVars r n.toNat
  | _ => []

/-- The variable that IMM names: VAR of `lread` and `lwrite` (R363), and the scale word of major 0x14 (R346). -/
def immVars (p : OpSpec) : List Nat :=
  if p.form = .x ∧ p.major = 0x17 then
    let n := bits p.imm.toNat 6 0
    if p.imm.getLsbD 15 then [n, n + 1] else [n]
  else match p.xs with
    | some x => srcVars .one x
    | none => []

/-- The variables an instruction reads or names. -/
def readVars (p : OpSpec) : List Nat := srcVars p.saRole p.sa ++ srcVars p.sbRole p.sb ++ srcVars p.scRole p.sc ++ immVars p

/-- The variables an instruction writes or names as its destination. -/
def writeVars (p : OpSpec) : List Nat := roleVars p.dstRole p.dst.toNat

/-- The variables an outstanding result writes. -/
def Outstanding.dsts (o : Outstanding) : List Nat := (o.dst.map (fun d => (List.range o.vars).map (d + ·))).getD []

/-! ### Checks before an instruction issues -/

/-- A source read as a value uses an invalid latch (R54). -/
def latchBad (e : Issuer) (r : Role) (x : Src) : Bool :=
  match x with
  | .latch k =>
    r != .unused && (if scalarClass e.p then ((e.w.latch k.toNat).value e.lead).isNone
      else (LaneMask.toList e.run).any (fun l => ((e.w.latch k.toNat).value l).isNone))
  | _ => false

/-- A wave-class instruction names a lane-home variable in DST, SA, SB or SC (R42, R363). -/
def State.rankBad (s : State) (e : Issuer) : Bool :=
  waveClass e.p && (writeVars e.p ++ srcVars e.p.saRole e.p.sa ++ srcVars e.p.sbRole e.p.sb ++ srcVars e.p.scRole e.p.sc).any
    (fun x => s.rank e.f e.w x == .lane)

/-- The operand checks that raise the illegal-instruction trap before any effect (R42, R54). -/
def State.operandTrap (s : State) (e : Issuer) : Option Trap :=
  if s.rankBad e || latchBad e e.p.saRole e.p.sa || latchBad e e.p.sbRole e.p.sb || latchBad e e.p.scRole e.p.sc then some .illegal else none

/-- A lane-class encoding (R298, R318): S = 0 outside hint space and the debug instructions. -/
def laneClass (p : OpSpec) : Bool :=
  match p.form with
  | .hint => false
  | _ => !p.s && p.major != 0x1E

/-- The instructions that neither a handler nor, but for calls and returns, a steward core runs (R298, R364). -/
def leavesWave : Instr → Bool
  | .exit _ | .trigger _ | .grow _ | .yield _ => true
  | _ => false

/-- Calls and returns (R298). -/
def isCall : Instr → Bool
  | .call _ | .calli _ | .ret _ => true
  | _ => false

/-- `moncall`, `wfi` and `tlbinv` (R414). -/
def stewardOnly : Instr → Bool
  | .monitorVersion _ | .imageVerify _ | .imageMeasure _ | .isleWrite _ | .isleSwitch _ | .heartbeat _ | .fuseSvn _ | .moncallUnknown _
  | .wfi _ | .tlbinvAll _ | .tlbinvAsid _ | .tlbinvRange _ => true
  | _ => false

/-- `ecall` with any service (R436). -/
def isEcall : Instr → Bool
  | .ecall _ | .codeLoad _ | .queueQuiesce _ | .queueResume _ | .queueReset _ | .traceBind _ | .traceClose _ => true
  | _ => false

/-- `tret` in either form (R299). -/
def isTret : Instr → Bool
  | .tret _ | .tretSkip _ => true
  | _ => false

/-- Where an instruction may run (R298, R318, R364, R374, R414). -/
def Issuer.modeTrap (e : Issuer) : Option Trap :=
  let debug := e.p.form == .x && e.p.major == 0x1E && !e.p.s
  if isSteward e.f then
    if laneClass e.p || leavesWave e.i || (e.p.form == .x && e.p.major == 0x1C) || isEcall e.i then some .illegal else none
  else if debug || stewardOnly e.i then some (.privilege 0)
  else if e.w.handler then
    if laneClass e.p || leavesWave e.i || isCall e.i then some .illegal else none
  else if isTret e.i || (e.p.form == .x && e.p.major == 0x17) then some (.privilege 0)
  else none

/-- The instruction reads a latch, as an operand or as the scale word of a scaled dot (R84, R360). -/
def readsLatch (p : OpSpec) : Bool :=
  let is (r : Role) (x : Src) : Bool := match x with
    | .latch _ => r != .unused
    | _ => false
  is p.saRole p.sa || is p.sbRole p.sb || is p.scRole p.sc || p.xs.any (is .one)

/-- The instruction is held: its FLAG would pass 63 (R96), or interlocked mode waits for an earlier write of a variable that it names, or of a latch that it reads
(R99): a latch belongs to its clause, so a reader of one waits for the results of its clause that are still out. -/
def State.held (s : State) (e : Issuer) : Bool :=
  (e.p.flag.any (fun k => 63 ≤ e.w.flags.getD k.val 0))
    || (s.interlocked e.w e.c && e.w.outstanding.any (fun o =>
      o.dsts.any (fun d => (readVars e.p ++ writeVars e.p).contains d) || (readsLatch e.p && o.site == e.c.addr)))

/-- The copies that an instruction reads or writes (R40 to R49): variables, each list with its lanes. A source is read for the lanes that execute, and a lane-class
result is written for them; a wave-class result writes a home copy, which stands in no octet. `rkq` and `rkhome` read no copy of what they name, `merge.chk` and
`merge.lane` those of every live lane, and `merge.g` that of the lowest lane of its run. -/
def Issuer.copiesTouched (e : Issuer) : List (List Nat × List Nat) :=
  let lanes := if scalarClass e.p then [e.lead] else LaneMask.toList e.run
  let live := LaneMask.toList e.w.live
  let sources := srcVars e.p.saRole e.p.sa ++ srcVars e.p.sbRole e.p.sb ++ srcVars e.p.scRole e.p.sc ++
    (if e.p.form = .x ∧ e.p.major = 0x17 then [] else immVars e.p)
  let dst := if scalarClass e.p then [] else writeVars e.p
  match e.i with
  | .rkq _ | .rkhome _ => [(dst, lanes)]
  | .mergeChk _ => [(srcVars e.p.saRole e.p.sa, live), (dst, lanes)]
  | .mergeLane _ => [(writeVars e.p, live), (sources, [e.lead])]
  | .mergeG _ => [(writeVars e.p ++ sources, [e.lead])]
  | _ => [(sources ++ dst, lanes)]

/-- The first overflowed octet that the instruction touches (R40). -/
def Issuer.overflowTouch (e : Issuer) : Option (Nat × Nat) :=
  if e.w.overflowed = [] then none
  else e.copiesTouched.findSome? (fun t => t.1.findSome? (fun x =>
    (t.2.find? (fun l => e.w.overflowed.contains (8 * x + l / 8))).map (fun l => (x, l / 8))))

/-! ### Writing -/

/-- `EnsureWaveCopy` (R43). -/
def Wave.ensureCopy (w : Wave) (x : Nat) (home : Word) : Wave :=
  match w.copies.get x with
  | some _ => w
  | none => { w with copies := w.copies.set x home }

/-- Discard every lane copy of a variable in the wave (R41). -/
def Wave.dropLanes (w : Wave) (x : Nat) : Wave := { w with laneCopies := w.laneCopies.keep (fun k _ => k / 64 != x) }

/-- Octets that hold a copy, each once (R39). -/
def Wave.octetsHeld (w : Wave) : List Nat := (w.laneCopies.map (fun e => e.1 / 8)).dedup

/-- Octets are allocated when a copy first needs them and freed when they hold none (R39). -/
def Wave.fixOctets (w : Wave) : Wave :=
  let held := w.octetsHeld
  let old := w.octets.filter held.contains
  { w with octets := old ++ held.filter (fun o => !old.contains o), overflowed := w.overflowed.filter held.contains }

/-- Set a lane copy (R41, R44). -/
def Wave.setLane (w : Wave) (x l : Nat) (v : Word) : Wave := { w with laneCopies := w.laneCopies.set (64 * x + l) v }

/-- A lane-class write of one variable for a run (R41). `home` is the group home copy. -/
def Wave.writeRun (w : Wave) (r : Rank) (home : Word) (x : Nat) (run : LaneMask) (v : Nat → Word) : Wave :=
  let lanes := LaneMask.toList run
  match r with
  | .lane => { w with slots := lanes.foldl (fun t l => t.set (64 * x + l) (v l)) w.slots }
  | _ =>
    let w := if r = .group then w.ensureCopy x home else w
    let v0 := v (LaneMask.lowest run)
    if run = w.live ∧ lanes.all (fun l => v l == v0) then
      ({ w with copies := w.copies.set x v0 }.dropLanes x).fixOctets
    else (lanes.foldl (fun w l => w.setLane x l (v l)) w).fixOctets

/-- A wave-class write of one variable (R42): the wave's home copy, or its copy of a group-home variable; lane copies stay. -/
def Wave.writeScalar (w : Wave) (x : Nat) (v : Word) : Wave := { w with copies := w.copies.set x v }

/-- The write of one lane (R44, R374). -/
def Wave.writeOne (w : Wave) (r : Rank) (home : Word) (x l : Nat) (v : Word) : Wave :=
  match r with
  | .lane => { w with slots := w.slots.set (64 * x + l) v }
  | _ => ((if r = .group then w.ensureCopy x home else w).setLane x l v).fixOctets

/-- A write to a variable marks the wave's pending captures of it (R50). -/
def State.noteWrite (s : State) (f : Flow) (x : Nat) : State :=
  match f, s.groupOf f, s.flow? f with
  | .wave c _, some (_, g, _), some w =>
    s.modGroup c g (fun q => { q with captures := q.captures.map (fun k =>
      if k.wave = w.number ∧ k.var = x then { k with written := true } else k) })
  | _, _, _ => s

/-- Write one variable for a flow, by R41 to R43. -/
def State.writeVar (s : State) (f : Flow) (scalar : Bool) (x : Nat) (run : LaneMask) (v : Nat → Word) : State :=
  match s.flow? f with
  | none => s
  | some w =>
    let r := s.rank f w x
    let home := s.groupHome f x
    let s := s.setFlow f (if scalar then w.writeScalar x (v (LaneMask.lowest run)) else w.writeRun r home x run v)
    if r = .group then s.noteWrite f x else s

/-- Write consecutive variables from a lane's list of words. -/
def State.writeVars (s : State) (f : Flow) (scalar : Bool) (x n : Nat) (run : LaneMask) (v : Nat → List Word) : State :=
  (List.range n).foldl (fun s k => s.writeVar f scalar (x + k) run (fun l => ((v l)[k]?).getD 0)) s

/-- The words of a value of 64 bits, low half first (R312). -/
def wordsOf (v : DWord) : List Word := [lo32 v, hi32 v]

/-- The words of a byte string, low word first. -/
def wordsOfNat (n v : Nat) : List Word := (List.range n).map (fun k => BitVec.ofNat 32 (v / 2 ^ (32 * k)))

/-- The number of variables a role covers. -/
def roleCount (r : Role) : Nat := (roleVars r 0).length

/-- A result written to the destination (R41 to R43), or nowhere under NWB (R55) or with no destination. -/
def State.putWords (s : State) (e : Issuer) (run : LaneMask) (v : Nat → List Word) : State :=
  if e.p.nwb then s else s.writeVars e.f (scalarClass e.p) e.p.dst.toNat (roleCount e.p.dstRole) run v

/-- The latch entry of a result (R53): its first 64 bits. -/
def Issuer.latch (e : Issuer) (run : LaneMask) (v : Nat → List Word) : Latch :=
  let d (l : Nat) : DWord := pair (((v l)[0]?).getD 0) (if 1 < roleCount e.p.dstRole then ((v l)[1]?).getD 0 else 0)
  if scalarClass e.p then .uniform (d (LaneMask.lowest run)) else .lanes ((LaneMask.toList run).map (fun l => (l, d l)))

/-! ### Octets of the variable file (R38 to R40) -/

/-- The 32-bit slots of a core's variable file: 256 KiB (R10). -/
def fileSlots : Nat := 65536

/-- The slots that a wave of a launch holds for its lane-home variables, one per thread, and for the home copies of its wave-home variables (R38). -/
def Launch.waveSlots (l : Launch) : Nat :=
  (128 - (l.record.ranks.filter (fun r => r.2 != .lane)).length) * min 64 (l.below 0 l.record.levels.length) + (l.record.ranks.filter (fun r => r.2 == .wave)).length

/-- The slots of a core's file that are taken but for the octets of lane copies: those of its waves, and one for each wave copy of a group-home variable (R38,
R39). -/
def State.slotsTaken (s : State) (core : Nat) : Nat :=
  (s.core core).waves.foldl (fun n e =>
    n + (match s.launchOf e.2 with
      | some l => l.waveSlots + (e.2.copies.filter (fun c => l.record.ranks.getD c.1 .lane == .group)).length
      | none => 0)) 0

/-- The octets that a core's file has room for. The spec bounds neither the lane-home slots of a core's waves by its file nor the room left for copies: at least 128
octets stand (log 45). -/
def State.octetRoom (s : State) (core : Nat) : Nat := max 128 ((fileSlots - s.slotsTaken core) / 8)

/-- Octets of lane copies that stand in the file. -/
def State.splitOctets (s : State) (core : Nat) : Nat :=
  (s.core core).waves.foldl (fun n e => n + (e.2.octets.filter (fun o => !e.2.overflowed.contains o)).length) 0

/-- The octets of a core that stand in the file, oldest first: those known before that still stand there, and the new ones (R39, R40). -/
def Core.agedOctets (q : Core) : List (Nat × Nat) :=
  let held := q.waves.flatMap (fun e => (e.2.octets.filter (fun o => !e.2.overflowed.contains o)).map (fun o => (e.1, o)))
  q.octetAge.filter held.contains ++ held.filter (fun x => !q.octetAge.contains x)

/-- The octet that the Sett engine evicts (R40): one of a wave of the pending set, or else the oldest of the core. -/
def State.victim (s : State) (core : Nat) : Option (Nat × Nat) :=
  let q := s.core core
  let stands (x : Nat × Nat) : Bool := (q.waves.get x.1).any (fun w => w.octets.contains x.2 && !w.overflowed.contains x.2)
  match q.octetAge.find? (fun x => q.pending.contains x.1 && stands x) with
  | some v => some v
  | none => q.octetAge.find? stands

/-- The ages of the issuing core's octets after an instruction (R40). -/
def State.settle (s : State) (f : Flow) : State :=
  match f with
  | .wave c _ => s.modCore c (fun q => { q with octetAge := q.agedOctets })
  | .steward _ _ => s

/-! ### Completion flags -/

/-- Raise a completion flag's count (R96). -/
def Wave.raiseFlag (w : Wave) (k : Option (Fin 12)) : Wave :=
  match k with
  | some k => { w with flags := w.flags.set k.val (w.flags.getD k.val 0 + 1) }
  | none => w

/-- Lower a completion flag's count (R96). -/
def Wave.lowerFlag (w : Wave) (k : Option (Fin 12)) : Wave :=
  match k with
  | some k => { w with flags := w.flags.set k.val (w.flags.getD k.val 0 - 1) }
  | none => w

/-- Every flag of a mask is clear (R97, R383). -/
def Wave.flagsClear (w : Wave) (mask : Nat) : Bool := (List.range 12).all (fun k => !bit mask k || w.flags.getD k 0 == 0)

end Sys2Proof.Machine
end

