-- ==== Sys2Proof/Machine/Arrays.lean ====
section
/-! DEFINITION. The arrays of a core and what an armed injection does to them (R468, R470, R477 of spec/25_reliability.md). The spec numbers neither the words of an array nor, for most,
its words at all: the numbering is the model's (log 22). -/

namespace Sys2Proof.Machine

/-- An injection into an array is armed, and names a word (R477). -/
def Core.armed (q : Core) (k index : Nat) : Bool :=
  let inj := (q.errInj.getD k 0).toNat
  bit inj 63 && bits inj 51 0 == index

/-- An injection has struck, and ARM is clear (R477). -/
def Core.disarm (q : Core) (k : Nat) : Core := { q with errInj := q.errInj.set k ((q.errInj.getD k 0) &&& ~~~(1 <<< 63 : DWord)) }

/-- An armed injection is DOUBLE: the word is uncorrectable. -/
def Core.double (q : Core) (k : Nat) : Bool := (q.errInj.getD k 0).getLsbD 62

/-- The site that an error is logged with (R458, R476): an instruction's clause and 0, or what else has caused it; (0, 0) for none. -/
abbrev Site := Nat × Nat

/-- A write of a word of an array is struck where an injection for it is armed (R477): an uncorrectable word is marked by `mark`; one wrong bit is corrected, and logged with
the site of what wrote it (R468, R476). -/
def State.strike (s : State) (c k index asid : Nat) (site : Site) (mark : State → State) : State :=
  let q := s.core c
  if !q.armed k index then s
  else
    let s := s.modCore c (fun q => q.disarm k)
    if q.double k then mark s else s.logCore c k false asid index site.1 site.2

/-- A word of the variable file, of the wave records or of the barrier unit becomes uncorrectable. -/
def State.spoil (s : State) (c : Nat) (b : BadWord) : State := s.modCore c (fun q => { q with bad := q.bad ++ [b] })

/-- Nothing strikes or has struck the arrays of a core that an instruction writes. -/
def Core.sound (q : Core) : Bool := q.bad.isEmpty && !q.errInj.any (fun x => x.2.getLsbD 63)

/-- The index of a variable of a wave in the variable file (log 22). -/
def fileIndex (slot x : Nat) : Nat := 128 * slot + x

/-- A write makes an uncorrectable word good again: a word of the variables written, in the home copy and every lane copy where the write is a wave's, else in the lanes' own. -/
def BadWord.healed (b : BadWord) (k : Nat) (vars : List Nat) (scalar : Bool) (run : LaneMask) : Bool :=
  b.array == 0 && vars.any (fun x => b.index == fileIndex k x) && (scalar || (b.lane < 64 && run.getLsbD b.lane))

/-- Words of variables have been written for lanes of a wave: each is good again, and an armed injection strikes that of the lowest lane; the home copy of a wave stands as
lane 64. -/
def State.fileWritten (s : State) (c k : Nat) (vars : List Nat) (scalar : Bool) (run : LaneMask) (site : Site) : State :=
  if (s.core c).sound then s
  else
    let s := s.modCore c (fun q => { q with bad := q.bad.filter (fun b => !b.healed k vars scalar run) })
    let lane := if scalar then 64 else LaneMask.lowest run
    vars.foldl (fun s x => s.strike c 0 (fileIndex k x) (s.core c).asid site (fun s => s.spoil c { array := 0, index := fileIndex k x, lane })) s

/-- The record of a wave has been written. -/
def State.recordWritten (s : State) (c k : Nat) (site : Site) : State :=
  s.strike c 8 k (s.core c).asid site (fun s => s.spoil c { array := 8, index := k, lane := 0 })

/-- A wave is put on a core whole, at its placement or by a restore: every variable and its record are written. -/
def State.waveWritten (s : State) (c k : Nat) : State :=
  if (s.core c).sound then s else (s.fileWritten c k (List.range 128) true 0 (0, 0)).recordWritten c k (0, 0)

/-- The variables that an instruction's result goes to (R55). -/
def Issuer.results (e : Issuer) : List Nat := if e.p.nwb then [] else writeVars e.p

/-- What an instruction has written of its core's arrays: its destination, unless its result comes later, and its wave's record. -/
def State.arraysWritten (s : State) (e : Issuer) (run : LaneMask) (later : Bool) : State :=
  match e.f with
  | .steward _ _ => s
  | .wave c k =>
    if (s.core c).sound then s
    else (s.fileWritten c k (if later then [] else e.results) (scalarClass e.p) run (e.c.addr, 0)).recordWritten c k (e.c.addr, 0)

/-- MEMORY_ERROR (R470): SUB is the array and TADDR the word. -/
def Trap.memory (array index lane : Nat) : Trap := { code := 0x15, sub := array, addr := index, lane }

/-- The copy that a lane reads of a variable (R43, R45): its own, as its lane number, or the home copy, as 64. -/
def State.copyRead (s : State) (e : Issuer) (x l : Nat) : Nat :=
  if s.rank e.f e.w x == .lane || (e.w.laneCopies.get (64 * x + l)).isSome then l else 64

/-- The words of the variable file that an instruction reads beside its sources for the lanes that execute it, as variables and lanes: of the lane that `lread` reaches (R374), of every
live lane for `merge.chk` and of the lane named for `merge.lane` (R48, R49), of the lead lane for `merge.g` (R50). -/
def State.otherReads (s : State) (e : Issuer) : List (Nat × Nat) :=
  let named := (s.srcA e e.lead).toNat % 64
  let of (l : Nat) (xs : List Nat) : List (Nat × Nat) := if e.w.live.getLsbD l then xs.map (fun x => (x, l)) else []
  match e.i with
  | .lread x => of named (if x.w64 then [x.immBits 6 0, x.immBits 6 0 + 1] else [x.immBits 6 0])
  | .mergeChk _ => (srcVars e.p.saRole e.p.sa).flatMap (fun x => (LaneMask.toList e.w.live).map (fun l => (x, l)))
  | .mergeLane _ => of named e.results
  | .mergeG _ => of e.lead e.results
  | _ => []

/-- An instruction would read an uncorrectable word of its wave's record or of a variable (R468, R470). -/
def State.badRead (s : State) (e : Issuer) : Option Trap :=
  match e.f with
  | .steward _ _ => none
  | .wave c k =>
    let bad := (s.core c).bad
    if bad.isEmpty then none
    else if bad.any (fun b => b.array == 8 && b.index == k) then some (.memory 8 k e.lead)
    else
      let lanes := if scalarClass e.p then [e.lead] else LaneMask.toList e.run
      ((readVars e.p).flatMap (fun x => lanes.map (fun l => (x, l))) ++ s.otherReads e).findSome? (fun r =>
        if bad.any (fun b => b.array == 0 && b.index == fileIndex k r.1 && b.lane == s.copyRead e r.1 r.2) then some (.memory 0 (fileIndex k r.1) (if lanes.contains r.2 then r.2 else e.lead))
        else none)

/-- Words of a group's scratchpad have been written: an armed injection strikes one, and an uncorrectable word is a poisoned one (R468). -/
def State.spadWritten (s : State) (c g : Nat) (words : List Nat) (site : Site) : State :=
  if (s.core c).sound then s
  else words.foldl (fun s w => s.strike c 2 w (s.core c).asid site (fun s => s.modGroup c g (fun q => { q with poison := q.poison ++ [w] }))) s

/-- A barrier of a group's scratchpad has been written in the barrier unit. -/
def State.unitWritten (s : State) (c g off : Nat) (site : Site) : State :=
  if (s.core c).sound then s
  else s.strike c 9 (off / 16) (s.core c).asid site (fun s => s.spoil c { array := 9, index := off / 16, lane := g })

/-- A barrier of a group's scratchpad is uncorrectable in the barrier unit. -/
def Core.badBarrier (q : Core) (g off : Nat) : Bool := q.bad.any (fun b => b.array == 9 && b.index == off / 16 && b.lane == g)

/-- A word that a parity code protects and that is read again from where it came (R468): the L1 data cache and the instruction cache. The error changes no value, and is logged. -/
def State.cacheWritten (s : State) (c k index : Nat) (site : Site) : State :=
  if (s.core c).armed k index then (s.modCore c (fun q => q.disarm k)).logCore c k false (s.core c).asid index site.1 site.2 else s

/-- The uncorrectable words of a group that leaves, and of its waves, are nothing's any more. -/
def Core.forgetBad (q : Core) (g : Nat) (gone : List Nat) : Core :=
  { q with bad := q.bad.filter (fun b => !((b.array == 8 && gone.contains b.index) || (b.array == 0 && gone.contains (b.index / 128)) || (b.array == 9 && b.lane == g))) }

end Sys2Proof.Machine
end

