-- ==== Sys2Proof/Machine/Flags.lean ====
section
/-! DEFINITION. Number formats, exact values, rounding and the floating-point exceptions (R58 to R66, R342 and R518 of spec/). -/

namespace Sys2Proof.Machine

/-! ### Exceptions -/

/-- The floating-point exceptions of one result (R64 to R66). -/
structure Exc where
  inv : Bool := false
  dz : Bool := false
  ovf : Bool := false
  unf : Bool := false
  inx : Bool := false
  deriving DecidableEq, Repr

/-- Both sets of exceptions. -/
def Exc.or (a b : Exc) : Exc :=
  { inv := a.inv || b.inv, dz := a.dz || b.dz, ovf := a.ovf || b.ovf, unf := a.unf || b.unf, inx := a.inx || b.inx }

/-- The exceptions in the positions of WSTAT[4:0] (R67). -/
def Exc.bits (a : Exc) : Nat := b2n a.inv + 2 * b2n a.dz + 4 * b2n a.ovf + 8 * b2n a.unf + 16 * b2n a.inx

/-- WSTAT with exceptions ORed in (R67). -/
def Wstat.raise (w : Wstat) (x : Exc) : Wstat :=
  { w with inv := w.inv || x.inv, dz := w.dz || x.dz, ovf := w.ovf || x.ovf, unf := w.unf || x.unf, inx := w.inx || x.inx }

/-! ### Formats (R58) -/

/-- What stands above the largest finite code of a format: IEEE infinities and NaNs, E4M3's one NaN, or nothing (E2M1). -/
inductive Top where
  | ieee
  | nanOnly
  | none
  deriving DecidableEq, Repr

/-- A floating-point format (R58): widths of exponent and mantissa, bias, the largest finite code, the default NaN, what lies above. -/
structure Fmt where
  ebits : Nat
  mbits : Nat
  bias : Nat
  maxCode : Nat
  nan : Nat
  top : Top
  deriving DecidableEq, Repr

def fp32 : Fmt := { ebits := 8, mbits := 23, bias := 127, maxCode := 0x7F7FFFFF, nan := 0x7FC00000, top := .ieee }
def fp64 : Fmt := { ebits := 11, mbits := 52, bias := 1023, maxCode := 0x7FEFFFFFFFFFFFFF, nan := 0x7FF8000000000000, top := .ieee }
def fp16 : Fmt := { ebits := 5, mbits := 10, bias := 15, maxCode := 0x7BFF, nan := 0x7E00, top := .ieee }
def bf16 : Fmt := { ebits := 8, mbits := 7, bias := 127, maxCode := 0x7F7F, nan := 0x7FC0, top := .ieee }
def e5m2 : Fmt := { ebits := 5, mbits := 2, bias := 15, maxCode := 0x7B, nan := 0x7E, top := .ieee }
def e4m3 : Fmt := { ebits := 4, mbits := 3, bias := 7, maxCode := 0x7E, nan := 0x7F, top := .nanOnly }
def e2m1 : Fmt := { ebits := 2, mbits := 1, bias := 1, maxCode := 0x7, nan := 0, top := .none }

/-- The bit position of the sign. -/
def Fmt.signPos (f : Fmt) : Nat := f.ebits + f.mbits

/-- The exponent of the lowest mantissa bit of a subnormal (R59). -/
def Fmt.qmin (f : Fmt) : Int := 1 - (f.bias : Int) - (f.mbits : Int)

/-! ### Exact values -/

/-- An exact value: a NaN, an infinity, a signed zero, or sign × m × 2^e with m above zero. -/
inductive Exact where
  | nan
  | inf (neg : Bool)
  | zero (neg : Bool)
  | fin (neg : Bool) (m : Nat) (e : Int)
  deriving DecidableEq, Repr

/-- The value of a code of a format (R59). -/
def Fmt.value (f : Fmt) (code : Nat) : Exact :=
  let neg := bit code f.signPos
  let mag := code % 2 ^ f.signPos
  let e := mag / 2 ^ f.mbits
  let m := mag % 2 ^ f.mbits
  if f.maxCode < mag then
    match f.top with
    | .ieee => if m = 0 then .inf neg else .nan
    | _ => .nan
  else if mag = 0 then .zero neg
  else if e = 0 then .fin neg m f.qmin
  else .fin neg (m + 2 ^ f.mbits) (f.qmin + ((e : Int) - 1))

/-- A code is a signalling NaN (R59). -/
def Fmt.signalling (f : Fmt) (code : Nat) : Bool :=
  f.value code == .nan && f.top == .ieee && !bit code (f.mbits - 1)

/-- The sign of an exact value; a NaN counts as positive. -/
def Exact.neg : Exact → Bool
  | .nan => false
  | .inf s | .zero s => s
  | .fin s _ _ => s

/-- The negated value. -/
def Exact.negate : Exact → Exact
  | .nan => .nan
  | .inf s => .inf (!s)
  | .zero s => .zero (!s)
  | .fin s m e => .fin (!s) m e

/-- The magnitude. -/
def Exact.abs : Exact → Exact
  | .nan => .nan
  | .inf _ => .inf false
  | .zero _ => .zero false
  | .fin _ m e => .fin false m e

/-- An integer as an exact value; zero is +0. -/
def Exact.ofInt (v : Int) : Exact := if v = 0 then .zero false else .fin (v < 0) v.natAbs 0

/-- The exact product (R65, R518): a zero product has the sign of the product of the signs; 0 × ∞ is undefined. -/
def Exact.mul : Exact → Exact → Exact
  | .nan, _ | _, .nan => .nan
  | .inf _, .zero _ | .zero _, .inf _ => .nan
  | .inf s, y => .inf (s != y.neg)
  | x, .inf s => .inf (x.neg != s)
  | .zero s, y => .zero (s != y.neg)
  | x, .zero s => .zero (x.neg != s)
  | .fin s m e, .fin t n f => .fin (s != t) (m * n) (e + f)

/-- The rounding modes (R63). -/
inductive RMode where
  | rne
  | rz
  | rup
  | rdn
  deriving DecidableEq, Repr

/-- The mode that RM holds (R87). -/
def rmode (rm : BitVec 2) : RMode :=
  if rm = 0 then .rne else if rm = 1 then .rz else if rm = 2 then .rup else .rdn

/-- The signed integer of a finite value in units of 2^q, where q is not above its exponent. -/
def Exact.scaled (x : Exact) (q : Int) : Int :=
  match x with
  | .fin s m e => (if s then -1 else 1) * (m * 2 ^ (e - q).toNat : Nat)
  | _ => 0

/-- The least exponent among the finite non-zero terms, and 0 with none. -/
def lowExp : List Exact → Option Int
  | [] => none
  | .fin _ _ e :: ts => match lowExp ts with
    | some q => some (min e q)
    | none => some e
  | _ :: ts => lowExp ts

/-- The exact sum of terms (R65, R342, R518): an undefined sum is a NaN; a zero sum is +0 when every term is +0 and −0 when every term is −0, and otherwise
+0, or −0 under RDN. -/
def sumExact (mode : RMode) (ts : List Exact) : Exact :=
  if ts.any (· == .nan) then .nan
  else if ts.any (· == .inf false) && ts.any (· == .inf true) then .nan
  else if ts.any (· == .inf false) then .inf false
  else if ts.any (· == .inf true) then .inf true
  else match lowExp ts with
    | none => if ts.all (· == .zero false) then .zero false else if ts.all (· == .zero true) then .zero true else .zero (mode == .rdn)
    | some q =>
      let n := (ts.map (fun t => t.scaled q)).foldl (· + ·) 0
      if n = 0 then .zero (mode == .rdn) else .fin (n < 0) n.natAbs q

/-- Whether a < b for two values that are no NaN; zeros are equal. -/
def Exact.lt (a b : Exact) : Bool :=
  match sumExact .rne [a, b.negate] with
  | .fin s _ _ => s
  | .inf s => s
  | .nan => false
  | .zero _ => false

/-- Whether two values that are no NaN are equal; zeros are equal, and so are infinities of one sign. -/
def Exact.eqv (a b : Exact) : Bool :=
  match a, b with
  | .zero _, .zero _ => true
  | .inf s, .inf t => s == t
  | .nan, _ | _, .nan => false
  | _, _ => match sumExact .rne [a, b.negate] with
    | .zero _ => true
    | _ => false

/-! ### Rounding (R63 to R66) -/

/-- Round a magnitude m × 2^e to a multiple of 2^q: the multiple, and whether the rounding is inexact. -/
def roundMag (mode : RMode) (neg : Bool) (m : Nat) (e q : Int) : Nat × Bool :=
  if q ≤ e then (m * 2 ^ (e - q).toNat, false)
  else
    let k := (q - e).toNat
    let r := m / 2 ^ k
    let rest := m % 2 ^ k
    if rest = 0 then (r, false)
    else
      let half := 2 ^ (k - 1)
      let up := match mode with
        | .rne => half < rest || (rest == half && r % 2 == 1)
        | .rz => false
        | .rup => !neg
        | .rdn => neg
      (if up then r + 1 else r, true)

/-- The code of an infinite overflow result, or of the largest finite one (R64). -/
def Fmt.overflow (f : Fmt) (mode : RMode) (sat neg : Bool) : Nat :=
  let toInf := !sat && (match mode with
    | .rne => true
    | .rz => false
    | .rup => !neg
    | .rdn => neg)
  let mag := match f.top with
    | .none => f.maxCode
    | .nanOnly => if toInf then f.nan else f.maxCode
    | .ieee => if toInf then (2 ^ f.ebits - 1) * 2 ^ f.mbits else f.maxCode
  mag + b2n neg * 2 ^ f.signPos

/-- Round a finite non-zero value to a format (R63 to R66). -/
def Fmt.roundFin (f : Fmt) (mode : RMode) (sat neg : Bool) (m : Nat) (e : Int) : Nat × Exc :=
  let top : Int := (Nat.log2 m : Int) + e
  let free := top - (f.mbits : Int)
  let q := max free f.qmin
  let (r, inexact) := roundMag mode neg m e q
  let code := r + (q - f.qmin).toNat * 2 ^ f.mbits
  if f.maxCode < code then (f.overflow mode sat neg, { ovf := true, inx := true })
  else
    let (u, _) := roundMag mode neg m e free
    let minNormal := f.qmin + (f.mbits : Int)
    let tiny := (Nat.log2 u : Int) + free < minNormal
    (code + b2n neg * 2 ^ f.signPos, { inx := inexact, unf := inexact && tiny })

/-- Round an exact value to a format that has infinities (R64, R65): a NaN gives the default NaN and INV; an infinity stays; a zero keeps its sign. -/
def Fmt.round (f : Fmt) (mode : RMode) (sat : Bool) (v : Exact) : Nat × Exc :=
  match v with
  | .nan => (f.nan, { inv := true })
  | .inf s => ((2 ^ f.ebits - 1) * 2 ^ f.mbits + b2n s * 2 ^ f.signPos, {})
  | .zero s => (b2n s * 2 ^ f.signPos, {})
  | .fin s m e => f.roundFin mode sat s m e

/-- Convert an exact value to a narrow format (R64): as `round`, and where the format has no infinity an infinite input is treated as an overflow with INV in
place of OVF. -/
def Fmt.convert (f : Fmt) (mode : RMode) (sat : Bool) (v : Exact) : Nat × Exc :=
  match v, f.top with
  | .inf s, .nanOnly | .inf s, .none => (f.overflow mode sat s, { inv := true, inx := true })
  | _, _ => f.round mode sat v

/-- The integer that a mode chooses for an exact finite value, and whether that is inexact. -/
def Exact.toInt (mode : RMode) (v : Exact) : Int × Bool :=
  match v with
  | .fin s m e =>
    let (r, i) := roundMag mode s m e 0
    (if s then -(r : Int) else (r : Int), i)
  | _ => (0, false)

/-- A rounding to FP32 of a value held as a 32-bit pattern. -/
def roundFp32 (mode : RMode) (sat : Bool) (v : Exact) : Word × Exc :=
  let (c, x) := fp32.round mode sat v
  (BitVec.ofNat 32 c, x)

/-- The value of an FP32 pattern. -/
def f32 (w : Word) : Exact := fp32.value w.toNat

/-- The integer square root of a number below 4^n. -/
def isqrt : Nat → Nat → Nat → Nat
  | 0, _, r => r
  | n + 1, v, r => let t := r + 2 ^ n; isqrt n v (if t * t ≤ v then t else r)

end Sys2Proof.Machine
end

