-- ==== Sys2Proof/Machine/Watch.lean ====
section
/-! DEFINITION. Watch predicates and halts (R447 to R456 of spec/24_debug_and_observation.md, R442 of spec/23_ref_engines_system.md). -/

namespace Sys2Proof.Machine

/-! ### Halting -/

/-- Every wave of a group is halted, or none issues again (R204): the group's state follows. -/
def State.refreshGroup (s : State) (core g : Nat) : State :=
  let waves := (s.core core).waves.filter (fun e => e.2.group == g)
  let stopped := waves.all (fun e => e.2.live &&& ~~~e.2.halted == 0)
  s.modGroup core g (fun q =>
    match q.state with
    | .running => if stopped ∧ waves ≠ [] then { q with state := .halted } else q
    | .halted => if stopped then q else { q with state := .running }
    | _ => q)

/-- Lanes leave the run that a resumption names (R17, R299). -/
def leaveResume (r : Option (LaneMask × Nat)) (lanes : LaneMask) : Option (LaneMask × Nat) :=
  r.bind (fun r => if r.1 &&& ~~~lanes = 0 then none else some (r.1 &&& ~~~lanes, r.2))

/-- Halt lanes of a wave (R442): each keeps its counter, its word in the clause and its latches, and leaves the run in progress, or the one that is to resume. A wave in its
handler keeps the handler's clause. -/
def Wave.haltLanes (w : Wave) (lanes : LaneMask) : Wave :=
  let lanes : LaneMask := lanes &&& w.live
  let w' := { w with halted := w.halted ||| lanes, resume := leaveResume w.resume lanes }
  match w.clause with
  | none => w'
  | some c =>
    if w.handler then w' else
    let gone := LaneMask.toList (lanes &&& c.run)
    let run : LaneMask := c.run &&& ~~~lanes
    { w' with
      counter := gone.foldl (fun t l => t.set l c.addr) w.counter
      word := gone.foldl (fun t l => t.set l c.pos) w.word
      kept := gone.foldl (fun t l => t.set l w.latches) w.kept
      clause := if run = 0 then none else some { c with run } }

/-- Halt lanes of a flow's wave and let its group's state follow. -/
def State.haltLanes (s : State) (f : Flow) (lanes : LaneMask) : State :=
  let s := (s.dropTag f).modFlow f (fun w => w.haltLanes lanes)
  match f, s.flow? f with
  | .wave c _, some w => s.refreshGroup c w.group
  | _, _ => s

/-! ### Watches -/

/-- What an instruction shows to the watches, per lane (R448): the lowest byte address of a global access, the words stored, the exception bits. -/
structure Probe where
  addr : Nat → Option Nat := fun _ => none
  stored : Nat → List Nat := fun _ => []
  exc : Nat → Option Nat := fun _ => none

/-- The fields of a watch register (R447). -/
structure WatchFields where
  en : Bool
  kind : Nat
  op : Nat
  action : Nat
  fslot : Nat
  b : Nat
  filt : Bool
  hits : Nat
  a : Nat

/-- Read the fields of a watch register (R447). -/
def watchFields (v : Nat) : WatchFields :=
  { en := bit v 127, kind := bits v 126 125, op := bits v 124 122, action := bits v 121 119, fslot := bits v 118 112, b := bits v 111 64,
    filt := bit v 63, hits := bits v 62 48, a := bits v 47 0 }

/-- The comparison of a watch (R449). -/
def watchHolds (op v a b : Nat) : Bool :=
  match op with
  | 0 => v == a
  | 1 => v != a
  | 2 => v < a
  | 3 => a ≤ v
  | 4 => a ≤ v && v ≤ b
  | 5 => v &&& b == a
  | 6 => v &&& b != 0
  | _ => false

/-- The values that a watch tests for a lane (R448). An instruction that executes once makes one access, its lowest lane's (R42). -/
def Probe.values (pr : Probe) (e : Issuer) (kind lane : Nat) : List Nat :=
  let l := if scalarClass e.p then e.lead else lane
  match kind with
  | 0 => (pr.addr l).toList
  | 1 => pr.stored l
  | 2 => (pr.exc l).toList
  | _ => [e.base]

/-- The group filter of a watch (R447, R449). -/
def State.watchFilter (s : State) (e : Issuer) (core : Nat) (x : WatchFields) : Bool :=
  !x.filt || ((s.core core).waves.get x.fslot).any (fun w => w.group == e.w.group)

/-- The lanes on which a watch's predicate holds, each with the value that made it hold. -/
def State.watchFires (s : State) (e : Issuer) (core : Nat) (pr : Probe) (x : WatchFields) : List (Nat × Nat) :=
  if x.en && x.action ≤ 5 && s.watchFilter e core x then
    (LaneMask.toList e.run).filterMap (fun l =>
      ((pr.values e x.kind l).find? (fun v => watchHolds x.op (v % 2 ^ 48) x.a x.b)).map (fun v => (l, v % 2 ^ 48)))
  else []

/-- Raise HITS of a watch, saturating (R447). -/
def State.hit (s : State) (core k n : Nat) : State :=
  s.modCore core (fun q =>
    let v := q.watches.getD k 0
    let h := min 32767 (bits v 62 48 + n)
    { q with watches := q.watches.set k (v - bits v 62 48 * 2 ^ 48 + h * 2 ^ 48) })

/-- The lanes for which a watch's halting or trap action is not taken on this execution (R456). -/
def Wave.exemptLanes (w : Wave) (c : Clause) (k : Nat) : LaneMask :=
  w.exempt.foldl (fun m x => if x.watch = k ∧ x.addr = c.addr ∧ x.word = c.pos then m ||| x.lanes else m) 0

/-- The exemptions of R456 that an execution for a run has used up. -/
def Wave.useExempt (w : Wave) (c : Clause) (run : LaneMask) : Wave :=
  { w with exempt := (w.exempt.map (fun x =>
      if x.addr = c.addr ∧ x.word = c.pos then { x with lanes := x.lanes &&& ~~~run } else x)).filter (fun x => x.lanes != 0) }

/-- An instruction executes for a run: its lanes have used up their exemptions (R456). -/
def State.useExempt (s : State) (e : Issuer) (run : LaneMask) : State := if e.w.exempt = [] then s else s.modFlow e.f (fun w => w.useExempt e.c run)

/-- HALTINFO (R456). -/
def haltInfoOf (watch word addr : Nat) : DWord := BitVec.ofNat 64 (2 ^ 63 + watch * 2 ^ 52 + word * 2 ^ 48 + addr % 2 ^ 48)

/-- A halting action of a watch on lanes (R452 to R456): the lanes halt, HALTINFO is written, and the steward's event is raised. -/
def State.watchHalt (s : State) (e : Issuer) (k : Nat) (lanes : LaneMask) : State :=
  let s := s.modFlow e.f (fun w => { w with
    haltInfo := haltInfoOf k e.c.pos e.c.addr
    exempt := w.exempt ++ [{ watch := k, addr := e.c.addr, word := e.c.pos, lanes := lanes &&& e.run }] })
  ((s.haltLanes e.f lanes).traceEvent e.f 4 k lanes).raiseEvent (flowDie e.f) 1

/-- The other waves of the gang that a gang halt stops (R454): each finishes its clause and then halts. -/
def State.stopGang (s : State) (f : Flow) : State :=
  match f, s.flow? f, s.groupOf f with
  | .wave core slot, some w, some (_, _, g) =>
    match s.launchOf w with
    | none => s
    | some l =>
      let unit := l.gangOf g.index
      { s with cores := s.cores.mapVal (fun c q => { q with waves := q.waves.mapVal (fun k v =>
          if v.launch = w.launch ∧ (c, k) ≠ (core, slot) ∧ ((q.groups.get v.group).any (fun h => l.gangOf h.index = unit)) then
            { v with stopping := true }
          else v) }) }
  | _, _, _ => s

/-- What the watches decide (R451): the run that commits, with the state after the actions; a trap; or a halt of the whole wave. -/
inductive Gate where
  | go (run : LaneMask) (s : State)
  | trap (t : Trap) (s : State)
  | halted (s : State)

/-- Count and trace-mark actions on the lanes that commit (R451). -/
def State.watchCounts (s : State) (e : Issuer) (core : Nat) (fires : List (Nat × Nat × List (Nat × Nat))) (run : LaneMask) : State :=
  fires.foldl (fun s x =>
    let (k, action, lanes) := x
    let m := (lanes.filter (fun p => run.getLsbD p.1)).map Prod.fst
    if action ≤ 1 ∧ m ≠ [] then
      let s := s.hit core k m.length
      if action = 1 then s.traceEvent e.f 8 k (LaneMask.ofList m) else s
    else s) s

/-- Evaluate watch registers on an instruction that has passed its checks (R450, R451). A handler or a steward flow has none; under `dstep` only counts
and trace marks act (R444). An instruction that a watch stops has not executed, and uses up no exemption (R456). -/
def State.gateWith (s : State) (watches : Tab Nat) (e : Issuer) (pr : Probe) : Gate :=
  match e.f with
  | .steward _ _ => .go e.run s
  | .wave core _ =>
    if e.w.handler then .go e.run s else
    if watches == [] then .go e.run (s.useExempt e e.run) else
    let step := s.dstep.isSome
    let fires : List (Nat × Nat × List (Nat × Nat)) := watches.map (fun x =>
      let fs := watchFields x.2
      let lanes := s.watchFires e core pr fs
      let ex := e.w.exemptLanes e.c x.1
      (x.1, fs.action, if fs.action ≤ 1 then lanes else if step then [] else lanes.filter (fun p => !ex.getLsbD p.1)))
    let first (a : Nat) := fires.find? (fun x => x.2.1 == a && x.2.2 != [])
    let maskOf (l : List (Nat × Nat)) : LaneMask := LaneMask.ofList (l.map Prod.fst)
    let whole (k : Nat) (lanes : List (Nat × Nat)) : State := (s.hit core k lanes.length).watchHalt e k e.w.live
    match first 4 with
    | some (k, _, lanes) => .halted ((whole k lanes).stopGang e.f)
    | none =>
      match first 3 with
      | some (k, _, lanes) => .halted (whole k lanes)
      | none =>
        match first 5 with
        | some (k, _, lanes) =>
          let (l, v) := (lanes.head?).getD (0, 0)
          let s := (s.hit core k lanes.length).modFlow e.f (fun w => { w with
            exempt := w.exempt ++ [{ watch := k, addr := e.c.addr, word := e.c.pos, lanes := e.run }] })
          .trap { code := 0x12, sub := k, addr := v, lane := l } s
        | none =>
          match first 2 with
          | some (k, _, lanes) =>
            if scalarClass e.p then .halted (whole k lanes)
            else
              let held := fires.filter (fun x => x.2.1 == 2 && x.2.2 != [])
              let mask := held.foldl (fun m x => m ||| maskOf x.2.2) (0 : LaneMask)
              let s := held.foldl (fun s x => s.hit core x.1 x.2.2.length) s
              let s := s.watchHalt e k mask
              let s := s.modFlow e.f (fun w => { w with exempt := w.exempt ++ (held.filter (fun x => x.1 != k)).map (fun x =>
                { watch := x.1, addr := e.c.addr, word := e.c.pos, lanes := maskOf x.2.2 }) })
              let run : LaneMask := e.run &&& ~~~mask
              if run = 0 then .halted s else .go run ((s.useExempt e run).watchCounts e core fires run)
          | none => .go e.run ((s.useExempt e e.run).watchCounts e core fires e.run)

/-- Evaluate every watch of the issuing wave's core on an instruction, as the registers stand (R450). -/
def State.gate (s : State) (e : Issuer) (pr : Probe) : Gate :=
  s.gateWith (match e.f with
    | .wave core _ => (s.core core).watches
    | .steward _ _ => []) e pr

end Sys2Proof.Machine
end

