-- ==== Sys2Proof/Machine/Issue.lean ====
section
/-! DEFINITION. How one instruction goes through its checks, its watches and its effect, and how it leaves its clause (R17, R18, R53, R54, R289, R290, R301, R444). -/

namespace Sys2Proof.Machine

/-- Why an instruction does not take effect now: a trap; a hold, after which it issues again; or a park. -/
inductive Hold where
  | trap (t : Trap)
  /-- A trap in a state in which the checks have already acted: page walks that set A and D, and stages that a touch issued. -/
  | trapIn (s : State) (t : Trap)
  | held (s : State)
  | park (s : State) (p : Park)

/-- What an instruction does once nothing stops it. `unit` is the unit of R301; `probe` is what the watches see; `commit` is the effect for the lanes
that commit; `latch` is the entry it places, none where it places none; `target` gives each thread's next counter where it is not the fall-through;
`stay` holds the wave at the instruction; `pass` marks the second issue of an instruction whose watches have been evaluated. -/
structure Plan where
  unit : Option Nat := none
  probe : Probe := {}
  commit : LaneMask → State → State := fun _ s => s
  latch : Option (LaneMask → Latch) := some (fun _ => .invalid)
  target : Option (Nat → Nat) := none
  stay : Bool := false
  /-- The result comes later, and no destination is written yet (R96, R393). -/
  later : Bool := false
  pass : Bool := false
  /-- The state after the checks, where they have acted: page walks that set A and D, and stages that a touch issued. -/
  st : Option State := none
  /-- What follows once the instruction has left its clause. -/
  after : State → State := id

/-! ### `dstep` (R444) -/

/-- End a `dstep` in progress: the stepped lanes are halted where they stand, or where they stood when the step had no effect, the target's own clause
comes back, and the status is written. -/
def State.finishStep (s : State) (d : DStep) (status : Nat) : State :=
  let s := if status = 0 then s else s.modFlow d.target (fun w => { w with clause := w.clause.map (fun c => { c with pos := d.word }) })
  let s := s.haltLanes d.target d.lanes
  let s := s.modFlow d.target (fun w => { w with clause := d.clause, latches := d.latches, handler := d.handler })
  let s := if d.nwb then s else s.writeVar d.steward true d.dst 1 (fun _ => BitVec.ofNat 32 status)
  let s := s.modFlow d.steward (fun w => { w with park := none, latches := [.uniform (BitVec.ofNat 64 status)] })
  { s with dstep := none, cur := d.steward }

/-- Nothing that the stepped instruction has begun in its core's matrix engine is still to be done (R256, R444). -/
def State.stepDone (s : State) (d : DStep) : Bool :=
  match d.target with
  | .steward _ _ => true
  | .wave c k =>
    let m := (s.core c).matrix
    !(m.queue.any (fun o => o.wave == k && d.seq < o.seq)) && !(m.fills.any (fun f => f.wave == k && d.seq ≤ f.seq))

/-- An instruction of a `dstep` has left: the step ends with status 0 once it has completed (R444). -/
def State.afterStep (s : State) : State :=
  match s.dstep with
  | some d => if s.stepDone d then s.finishStep d 0 else { s with dstep := some { d with issued := true } }
  | none => s

/-- A MEMORY_ERROR of a wave is the uncorrectable error of its array's log (R470, R476). -/
def State.logMemory (s : State) (e : Issuer) (t : Trap) : State :=
  match e.f with
  | .wave c _ => if t.code = 0x15 then s.logCore c t.sub true (s.asidOf e.f) t.addr e.c.addr 0 else s
  | .steward _ _ => s

/-- A precise trap at the issuing instruction (R290), or the status 4 of a `dstep` (R444). -/
def State.trapAt (s : State) (e : Issuer) (t : Trap) : State :=
  match s.dstep with
  | some d => s.finishStep d (4 + t.code * 256 + t.sub * 65536)
  | none => (s.logMemory e t).takeTrap e.f (t.regs e.c.addr e.c.pos e.run)

/-- A touch on which a wave parks makes it a swap candidate (R206): of an absent line or an overflowed octet. -/
def Park.swaps (p : Park) : Bool :=
  match p with
  | .octet _ _ | .line _ => true
  | _ => false

/-- A wave waits for a barrier's phase (R213). -/
def Park.onBarrier (p : Park) : Bool :=
  match p with
  | .spadBarrier _ _ | .globalBarrier _ _ _ => true
  | _ => false

/-- A wave goes on with an instruction that has held it, and that has passed its checks before: it is woken, answered, or its operation has ended (R213, R259, R436). -/
def Park.second (p : Park) : Bool :=
  match p with
  | .woken _ | .answered _ | .matrixDone | .arrived | .lost => true
  | _ => false

/-- The issuing wave parks, or the `dstep` in progress ends with status 5 (R444). -/
def State.parkAt (s : State) (e : Issuer) (p : Park) : State :=
  match s.dstep with
  | some d => s.finishStep d 5
  | none => s.modFlow e.f (fun w => { w with park := some p, candidate := w.candidate || p.swaps })

/-! ### Checkers (R301, R467, R477) -/

/-- The checker of an instruction's unit: an armed injection for it strikes. Without DOUBLE the instruction executes again in place; with it PIPELINE_ERROR is
raised. In wave class the unit is the scalar unit. -/
def State.checker (s : State) (e : Issuer) (unit : Option Nat) : State × Option Trap :=
  match unit, e.f with
  | some u, .wave core _ =>
    let inj := (s.core core).errInj.getD 10 0
    let u := if waveClass e.p then 6 else u
    if inj.getLsbD 63 && (inj.extractLsb' 0 3).toNat == u then
      let s := s.modCore core (fun q => { q with errInj := q.errInj.set 10 (inj &&& ~~~(1 <<< 63 : DWord)) })
      let double := inj.getLsbD 62
      let s := s.logCore core 10 double (s.asidOf e.f) u e.c.addr 0
      if double then
        (s.modDie (dieOf core) (fun q => { q with counters := { q.counters with pipe := q.counters.pipe.set u (q.counters.pipe.getD u 0 + 1) } }),
          some { code := 0x11, sub := u })
      else (s, none)
    else (s, none)
  | _, _ => (s, none)

/-! ### Leaving an instruction -/

/-- The latches after an instruction (R53, R54): its entry, and behind it the last seven, unless it is one that may fault. -/
def Wave.pushLatch (w : Wave) (i : Instr) (k : Option Latch) : Wave :=
  match k with
  | some k => { w with latches := if mayFault i then [k] else (k :: w.latches).take 8 }
  | none => { w with latches := if mayFault i then [] else w.latches }

/-- The lanes that a clause's end moves (R18): those of its run that are live and not halted. -/
def Wave.movers (w : Wave) (c : Clause) : LaneMask := c.run &&& w.live &&& ~~~w.halted

/-- The distinct values of a list in ascending order. -/
def ascending (l : List Nat) : List Nat := (l.insertionSort (· ≤ ·)).dedup

/-- The TARGET records of a clause's end (R465), written while the wave still stands in the clause: one for each next counter other than the fall-through, in ascending
order. A handler has one counter, for the lanes that it was entered with (R298). -/
def State.traceTargets (s : State) (e : Issuer) (next : Nat → Nat) (lanes : List Nat) : State :=
  if e.w.handler then (if next e.lead = e.after then s else s.traceTarget e.f (next e.lead) e.run)
  else (ascending ((lanes.map next).filter (· != e.after))).foldl
    (fun s n => s.traceTarget e.f n (LaneMask.ofList (lanes.filter (fun l => next l == n)))) s

/-- The end of a clause (R18): each thread of the run takes its own next counter, at word 0; a handler's counter moves as its lowest lane's. -/
def State.endClause (s : State) (e : Issuer) (c : Clause) (target : Option (Nat → Nat)) : State :=
  match s.flow? e.f with
  | none => s
  | some w =>
    let next (l : Nat) : Nat := match target with
      | some t => t l
      | none => e.after
    let lanes := LaneMask.toList (w.movers c)
    let s := if w.traced then s.traceTargets e next lanes else s
    if w.handler then s.modFlow e.f (fun w => { w with clause := none, hpc := next e.lead })
    else s.modFlow e.f (fun w => { w with
      clause := none
      counter := lanes.foldl (fun t l => t.set l (next l)) w.counter
      word := lanes.foldl (fun t l => t.del l) w.word })

/-- Leave an instruction: its latch entry is placed, and the clause goes on at the next word or ends. -/
def State.retire (s : State) (e : Issuer) (k : Option Latch) (target : Option (Nat → Nat)) : State :=
  let s := s.modFlow e.f (fun w => { w.pushLatch e.i k with park := none })
  match (s.flow? e.f).bind (fun w => w.clause) with
  | none => s
  | some c =>
    let pos := c.pos + e.len
    if c.words.length < pos then s.endClause e c target
    else s.modFlow e.f (fun w => { w with clause := some { c with pos } })

/-- The effect and the leaving of an instruction that nothing stops. One that holds its wave goes on later, under `dstep` too (R444). -/
def State.finish (s : State) (e : Issuer) (pl : Plan) (run : LaneMask) : State :=
  let s := ((pl.commit run s).settle e.f).arraysWritten e run pl.later
  if pl.stay then s else pl.after (s.retire e (pl.latch.map (fun k => k run)) pl.target).afterStep

/-- The engine class of an instruction (R79); none for `nop` and hint space, which may stand anywhere. -/
def classOf (i : Instr) (p : OpSpec) : Option Nat :=
  match i, p.form with
  | .nop _, _ | _, .hint => none
  | _, _ =>
    if p.major < 0x10 then some (if p.s then 1 else 0)
    else if p.major = 0x10 ∨ p.major = 0x11 then some (if p.s then 4 else 0)
    else if p.major < 0x17 then some 0
    else if p.major = 0x17 then some 1
    else if p.major < 0x1C then some 2
    else if p.major < 0x1E then some 3
    else some 5

/-- The instructions that must be the last of their clause (R80). -/
def mustBeLast (i : Instr) : Bool :=
  match i with
  | .bra _ | .bz _ | .bnz _ | .brx _ | .call _ | .calli _ | .ret _ | .exit _ | .yield _ => true
  | _ => false

/-- The instruction is the last of its clause. -/
def Issuer.last (e : Issuer) : Bool := e.c.words.length < e.c.pos + e.len

/-- CLASS of a header (R76). -/
def headerClass (h : Word) : Nat := (h.extractLsb' 25 3).toNat

/-- The places of R78 to R80: the instruction fits its clause and its class, and stands last where it must. -/
def Issuer.placeTrap (e : Issuer) : Option Trap :=
  let cls := headerClass e.c.header
  let fits := e.c.pos + e.len ≤ e.c.words.length + 1
  let classOk := match classOf e.i e.p with
    | none => true
    | some k => cls == 6 || cls == k || (k == 4 && e.last)
  if fits && classOk && (!mustBeLast e.i || e.last) then none else some .illegal

/-- The checks that every instruction meets before its own (R42, R54, R78 to R80, R298, R318, R414, R470). An instruction whose privilege level does not allow it raises
PRIVILEGE and not ILLEGAL (R90). -/
def State.firstTrap (s : State) (e : Issuer) : Option Trap :=
  match e.modeTrap with
  | some t => some t
  | none =>
    match e.placeTrap with
    | some t => some t
    | none =>
      match s.operandTrap e with
      | some t => some t
      | none => s.badRead e

/-- The wave goes on with an instruction that has held it (R213, R259, R436): the checks that stand before an instruction's own have been passed. -/
def Issuer.second (e : Issuer) : Bool := e.w.park.any Park.second

/-- One instruction from its checks to its effect (R289, R290, R300): the common checks, then its own, then the checkers and the watches, then the
effect for the lanes that commit. -/
def perform (i : Instr) (plan : State → Issuer → Except Hold Plan) (s : State) : Out :=
  match s.issuer i with
  | none => .fault .noIssuer
  | some e =>
    match if e.second then none else s.firstTrap e with
    | some t => .next (s.trapAt e t)
    | none =>
      if !e.second && s.held e then .next s
      else match if e.second then none else e.overflowTouch with
        | some (x, k) => .next (s.parkAt e (.octet x k))
        | none =>
          match plan s e with
          | .error (.trap t) => .next (s.trapAt e t)
          | .error (.trapIn s' t) => .next (s'.trapAt e t)
          | .error (.held s') => .next s'
          | .error (.park s' p) => .next (s'.parkAt e p)
          | .ok pl =>
            let s := pl.st.getD s
            if pl.pass then .next (s.finish e pl e.run)
            else
              let (s, err) := s.checker e pl.unit
              match err with
              | some t => .next (s.trapAt e t)
              | none =>
                match s.gate e pl.probe with
                | .trap t s => .next (s.trapAt e t)
                | .halted s => .next s
                | .go run s => .next (s.finish e pl run)

/-! ### Arithmetic results -/

/-- OR exceptions into a flow's WSTAT. -/
def State.raiseExc (s : State) (f : Flow) (x : Exc) : State := s.modFlow f (fun w => { w with wstat := w.wstat.raise x })

/-- The lanes for which an instruction computes: the lowest of the run for wave class, else each lane of the run (R310). -/
def Issuer.lanes (e : Issuer) (run : LaneMask) : List Nat := if scalarClass e.p then [LaneMask.lowest run] else LaneMask.toList run

/-- A plan that puts, for each lane, the words of a result (R310, R311), with its exceptions where it is a floating-point instruction. The values are read from
the state before any lane writes (R316); they may depend on the run that commits. -/
def resultPlan (e : Issuer) (unit : Option Nat) (fp : Bool) (v : LaneMask → Nat → List Word) (x : LaneMask → Nat → Exc) : Plan :=
  { unit
    probe := { exc := fun l => if fp then some (x e.run (if scalarClass e.p then e.lead else l)).bits else none }
    commit := fun run s =>
      let s := if fp then s.raiseExc e.f ((e.lanes run).foldl (fun a l => a.or (x run l)) {}) else s
      s.putWords e run (v run)
    latch := some (fun run => e.latch run (v run)) }

/-- The operands of one lane (R311). -/
structure Ops where
  a : DWord
  b : DWord
  c : DWord

/-- The operands of a lane, read by R45. -/
def State.ops (s : State) (e : Issuer) (l : Nat) : Ops := { a := s.srcA e l, b := s.srcB e l, c := s.srcC e l }

/-- A per-lane integer instruction: one 64-bit value per lane, the destination taking the words of its role (R315: no WSTAT bit). -/
def intPlan (unit : Nat) (g : Ops → DWord) (s : State) (e : Issuer) : Except Hold Plan :=
  .ok (resultPlan e (some unit) false (fun _ l => wordsOf (g (s.ops e l))) (fun _ _ => {}))

/-- A per-lane floating-point instruction: one 32-bit pattern and its exceptions per lane. -/
def fpPlan (unit : Option Nat) (g : Ops → Word × Exc) (s : State) (e : Issuer) : Except Hold Plan :=
  .ok (resultPlan e unit true (fun _ l => [(g (s.ops e l)).1]) (fun _ l => (g (s.ops e l)).2))

end Sys2Proof.Machine
end

