-- ==== Sys2Proof/Machine/Mem.lean ====
section
/-! DEFINITION. Global memory: translation by walks and TLBs (R220 to R229 of spec/14_page.md), and physical checks (R109, R239, R395, R400). -/

namespace Sys2Proof.Machine

/-! ### Choosing a fault -/

/-- The order of R225 among page faults. -/
def pageRank (sub : Nat) : Nat := ([1, 8, 5, 6, 4, 3, 2, 7].takeWhile (· != sub)).length

/-- A fault comes before another (R292): the lower CODE, among page faults the order of R225, then the lower lane. -/
def Trap.before (a b : Trap) : Bool :=
  if a.code ≠ b.code then a.code < b.code
  else if a.code = 0x06 ∧ a.sub ≠ b.sub then pageRank a.sub < pageRank b.sub
  else a.lane < b.lane

/-- The fault that is taken among those of an instruction's lanes (R292). -/
def Trap.first : List Trap → Option Trap
  | [] => none
  | t :: ts => match Trap.first ts with
    | some u => some (if u.before t then u else t)
    | none => some t

/-! ### Physical checks (R109) -/

/-- The route table of a die marks another die unreachable (R239, R240). -/
def State.unreachable (s : State) (die dest : Nat) : Bool :=
  let (un, port) := (s.die die).routes.getD dest (dest != die, 0)
  un || 6 ≤ port

/-- The kinds of access that the physical checks tell apart. -/
inductive AccessKind where
  | load
  | store
  /-- An atomic; `host` for those that host memory takes (R400). -/
  | atomic (host : Bool)
  | reserve
  deriving DecidableEq, Repr

/-- An access raises the access fault for its physical address (R109, R130, R239, R395, R400). -/
def State.accessBad (s : State) (die pa bytes : Nat) (k : AccessKind) : Bool :=
  s.unreachable die (paDie pa) ||
  match paSpace pa with
  | 0 => 2 ^ 39 < paOffset pa + bytes
  | 1 => !(paDie pa % 4 == 0 || paDie pa % 4 == 2) || (match k with
    | .atomic host => !host
    | .reserve => true
    | _ => false)
  | 2 => !((k == .load || k == .store) && (bytes == 4 || bytes == 8))
  | _ => true

/-! ### Walks -/

/-- The outcome of a walk: a leaf with its entry's address, or a sub-code of R225. -/
inductive WalkEnd where
  | leaf (entry va size pa pte : Nat)
  | fault (sub : Nat)
  deriving DecidableEq, Repr

/-- A 64-bit entry of a table. -/
def State.tableWord (s : State) (pa : Nat) : Nat := natOfBytes (s.bytes pa 8)

/-- A valid entry is malformed (R223). `level` 0 to 3, `wide` for a 64 KiB table, `size` the bytes a leaf maps. -/
def pteBad (v level size : Nat) : Bool :=
  let type := bits v 2 1
  bit v 63 || type == 3 || (type == 1 && level == 0) || (type == 2 && level != 2) || (type == 0 && level == 3)
    || (type != 1 && bits v 11 3 != 0)
    || (type == 1 && (bits v 11 10 == 3 || bits v 51 12 * 4096 % size != 0))

/-- The lowest bit of VA that indexes a table of a level (R221, R222). -/
def tableShift (level : Nat) (wide : Bool) : Nat := if level = 3 then (if wide then 16 else 12) else 39 - 9 * level

/-- The address of the entry that a walk reads in a table. -/
def tableEntry (va table level : Nat) (wide : Bool) : Nat :=
  table + 8 * (if wide then va / 2 ^ 16 % 32 else va / 2 ^ tableShift level wide % 512)

/-- Walk for a die from a table of a level (R221, R222), with the levels still to read. A table on a die that the route table marks unreachable ends the walk in the
access fault (R239), which stands here as sub-code 0. -/
def State.walkFrom (s : State) (die va : Nat) : Nat → Nat → Bool → Nat → WalkEnd
  | _, _, _, 0 => .fault 5
  | table, level, wide, fuel + 1 =>
    let shift := tableShift level wide
    let entry := tableEntry va table level wide
    if s.unreachable die (paDie entry) then .fault 0
    else if s.poison.contains (lineOf entry) then .fault 8
    else
      let v := s.tableWord entry
      if !bit v 0 then .fault 1
      else if pteBad v level (2 ^ shift) then .fault 5
      else
        let addr := bits v 51 12 * 4096
        if bits v 2 1 = 1 then .leaf entry (va / 2 ^ shift * 2 ^ shift) (2 ^ shift) addr v
        else s.walkFrom die va addr (level + 1) (bits v 2 1 = 2) fuel

/-- Walk for an ASID from a die's root array (R220, R224). A root entry with another bit set than R220 allows is malformed. -/
def State.walk (s : State) (die asid va : Nat) : WalkEnd :=
  let entry := (s.die die).walkRoot + 8 * asid
  if s.unreachable die (paDie entry) then .fault 0
  else if s.poison.contains (lineOf entry) then .fault 8
  else
    let v := s.tableWord entry
    if !bit v 0 then .fault 1
    else if bits v 11 1 != 0 || bits v 63 52 != 0 then .fault 5
    else s.walkFrom die va (bits v 51 12 * 4096) 0 false 4

/-- The entries that a walk reads behind the root entry, in order, from a table of a level. -/
def State.entriesFrom (s : State) (va : Nat) : Nat → Nat → Bool → Nat → List Nat
  | _, _, _, 0 => []
  | table, level, wide, fuel + 1 =>
    let entry := tableEntry va table level wide
    let v := s.tableWord entry
    entry :: (if bit v 0 && !pteBad v level (2 ^ tableShift level wide) && bits v 2 1 != 1 then
      s.entriesFrom va (bits v 51 12 * 4096) (level + 1) (bits v 2 1 = 2) fuel else [])

/-- The entries that a walk reads (R220, R224). -/
def State.walkEntries (s : State) (die asid va : Nat) : List Nat :=
  let root := (s.die die).walkRoot + 8 * asid
  root :: (if bit (s.tableWord root) 0 then s.entriesFrom va (bits (s.tableWord root) 51 12 * 4096) 0 false 4 else [])

/-- The trap of a translation that fails for a lane (R225, R239): the page fault of its sub-code, or the access fault. -/
def pageTrap (sub va lane : Nat) : Trap := if sub = 0 then { code := 0x07, addr := va, lane } else { code := 0x06, sub, addr := va, lane }

/-- What an access is for, to the rights of a leaf. -/
inductive Use where
  | read
  | write
  | fetch
  /-- A write that may not take place: an `sc` needs the rights of a write, and sets D only where it writes (R224). -/
  | maybe
  deriving DecidableEq, Repr

/-- An access needs the rights of a write. -/
def Use.writes (u : Use) : Bool := u == .write || u == .maybe

/-- The rights of a leaf refuse an access (R225): its sub-code. -/
def leafRefuses (pte : Nat) (use : Use) (steward : Bool) : Option Nat :=
  if bit pte 9 then some 6
  else if bit pte 5 && !steward then some 4
  else if use == .fetch && !bit pte 4 then some 3
  else if use.writes && !bit pte 3 then some 2
  else if use.writes && bit pte 8 then some 7
  else none

/-! ### Bytes that a server owns -/

/-- Bytes of an armed global barrier or of a registered chain's descriptor (R211, R280). -/
def State.ownedBytes (s : State) (pa n : Nat) : Bool :=
  s.globals.any (fun e => e.1 < pa + n && pa < e.1 + 16) || s.chains.any (fun e => e.1 < pa + n && pa < e.1 + 64)

/-! ### Translation -/

/-- A walk that ended at a leaf without a fault sets A, and D for a write (R224): the state, and the entry as it then is. The OR is none of the atomic writes of
R141. -/
def State.touchLeaf (s : State) (entry pte : Nat) (write : Bool) : State × Nat :=
  let pte' := pte ||| 0x40 ||| (if write then 0x80 else 0)
  (if pte' = pte then s else s.poke entry (bytesOfNat 8 pte') false none, pte')

/-- A walker that reads a leaf sets the pins of the granules that the leaf covers (R234). -/
def State.pinLeaf (s : State) (pa size pte : Nat) : State :=
  let pin := bits pte 11 10
  if (pin = 1 ∨ pin = 2) ∧ paSpace pa = 0 then
    let first := paOffset pa / 65536
    let n := (size + 65535) / 65536
    let mark (t : Tab Granule) (k : Nat) : Tab Granule :=
      let g := t.getD (first + k) Granule.reset
      t.set (first + k) (if pin = 1 then { g with pinH := true } else { g with pinC := true })
    s.modDie (paDie pa) (fun q => { q with tiers := (List.range n).foldl mark q.tiers })
  else s

/-- A translation serves an access: its ASID and page match, its rights allow it, and a write finds D set (R224, R227). -/
def Translation.serves (t : Translation) (asid va : Nat) (use : Use) (steward : Bool) : Bool :=
  t.asid == asid && t.va ≤ va && va < t.va + t.size && (leafRefuses t.pte use steward).isNone && (use != .write || bit t.pte 7)

/-- Enter a translation in a TLB of a number of entries: the oldest goes. -/
def enterTlb (n : Nat) (t : Translation) (l : List Translation) : List Translation :=
  (t :: l.filter (fun u => !(u.asid == t.asid && u.va == t.va && u.size == t.size))).take n

/-- Translate by a walk, and fill the die TLB (R224, R227). Its reads are accesses to the dies that hold the tables (R232). -/
def State.walkFill (s : State) (die asid va : Nat) (use : Use) (steward : Bool) : State × Except Nat Translation :=
  let end_ := s.walk die asid va
  let s := (s.walkEntries die asid va).foldl (fun s a => s.countGranule a 8 false) s
  match end_ with
  | .fault k => (s, .error k)
  | .leaf entry base size pa pte =>
    let s := s.pinLeaf pa size pte
    match leafRefuses pte use steward with
    | some k => (s, .error k)
    | none =>
      let (s, pte) := s.touchLeaf entry pte (use == .write)
      let t : Translation := { asid, va := base, size, pa, pte }
      (s.modDie die (fun q => { q with tlb := enterTlb 16384 t q.tlb }), .ok t)

/-- Translate for a die: its TLB, or a walk (R227). -/
def State.translateDie (s : State) (die asid va : Nat) (use : Use) (steward : Bool) : State × Except Nat Translation :=
  match (s.die die).tlb.find? (fun t => t.serves asid va use steward) with
  | some t => (s, .ok t)
  | none => s.walkFill die asid va use steward

/-- An armed injection strikes an entry of the core's L1 TLB, which is dropped, to be walked again (R468, R477). -/
def State.l1Written (s : State) (f : Flow) (c : Nat) (t : Translation) : State :=
  let index := t.va / 4096 % 128
  let site := (((s.flow? f).bind (fun w => w.clause.map (fun x => x.addr))).getD 0, 0)
  if (s.core c).armed 7 index then (s.modCore c (fun q => { q with l1 := q.l1.drop 1 })).cacheWritten c 7 index site else s

/-- Translate a virtual address for a flow (R227): the core's L1 TLB, the die TLB, or a walk. A fault is a sub-code of R225. -/
def State.translate (s : State) (f : Flow) (asid va : Nat) (use : Use) : State × Except Nat Nat :=
  let steward := isSteward f
  let at_ (t : Translation) : Nat := t.pa + (va - t.va)
  match f with
  | .steward d _ =>
    match s.translateDie d asid va use steward with
    | (s, .ok t) => (s, .ok (at_ t))
    | (s, .error k) => (s, .error k)
  | .wave c _ =>
    match (s.core c).l1.find? (fun t => t.serves asid va use steward) with
    | some t => (s, .ok (at_ t))
    | none =>
      match s.translateDie (dieOf c) asid va use steward with
      | (s, .ok t) => ((s.modCore c (fun q => { q with l1 := enterTlb 128 t q.l1 })).l1Written f c t, .ok (at_ t))
      | (s, .error k) => (s, .error k)

/-- A page fault that an engine raises for a job, or a drain for its core, reaches the steward of its die once (R226, R272). -/
def State.engineFault (s : State) (die : Nat) (job : Stalled) (ctx : Option Nat) (asid va sub : Nat) : State :=
  let r : Request := .engine job ctx asid va sub
  if (s.die die).requests.any (fun e => e.2 == r) then s
  else (s.modDie die (fun q => { q with requests := q.requests.set (q.requests.free 0 q.requests.length) r })).raiseEvent die 1

/-- Every check of one global access with an ASID (R108, R109, R392, R225): its physical address, or its fault. -/
def State.checkGlobalAs (s : State) (f : Flow) (asid va bytes : Nat) (use : Use) (k : AccessKind) (lane : Nat) : State × Except Trap Nat :=
  if va % bytes ≠ 0 then (s, .error { code := 0x04, addr := va, lane })
  else if 2 ^ 48 ≤ va then (s, .error { code := 0x05, addr := va, lane })
  else
    match s.translate f asid va use with
    | (s, .error sub) => (s, .error (pageTrap sub va lane))
    | (s, .ok pa) => if s.accessBad (flowDie f) pa bytes k then (s, .error { code := 0x07, addr := va, lane }) else (s, .ok pa)

/-- Every check of one global access with the flow's own ASID. -/
def State.checkGlobal (s : State) (f : Flow) (va bytes : Nat) (use : Use) (k : AccessKind) (lane : Nat) : State × Except Trap Nat :=
  s.checkGlobalAs f (s.asidOf f) va bytes use k lane

/-- The checks of the accesses of several lanes, in ascending order, each with its address: the physical addresses by lane, or the fault that is taken (R292). -/
def State.checkLanes (s : State) (f : Flow) (bytes : Nat) (use : Use) (k : AccessKind) : List (Nat × Nat) → State × List Trap × Tab Nat
  | [] => (s, [], [])
  | (l, va) :: rest =>
    let (s, r) := s.checkGlobal f va bytes use k l
    let (s, ts, ps) := s.checkLanes f bytes use k rest
    match r with
    | .ok pa => (s, ts, (l, pa) :: ps)
    | .error t => (s, t :: ts, ps)

end Sys2Proof.Machine
end

