-- ==== Sys2Proof/Machine/Life.lean ====
section
/-! DEFINITION. How work ends: signals, triggers, the end of waves, groups and launches, snapshots, and what a fault does to a launch and its context (R31, R46,
R167, R179, R180, R190 to R197, R204, R472, R473). -/

namespace Sys2Proof.Machine

/-- Change a launch, where there is one. -/
def State.modLaunch (s : State) (n : Nat) (g : Launch → Launch) : State := { s with launches := s.launches.upd n g }

/-- Change a queue, where there is one. -/
def State.modQueue (s : State) (n : Nat) (g : Queue → Queue) : State := { s with queues := s.queues.upd n g }

/-- Change a context, where there is one. -/
def State.modContext (s : State) (n : Nat) (g : Context → Context) : State := { s with contexts := s.contexts.upd n g }

/-! ### Queues (R177, R181) -/

/-- WRIDX of a queue, which its producers write in memory. -/
def State.wridx (s : State) (q : Queue) : Nat := natOfBytes (s.bytes (q.descPa + 16) 8)

/-- The slot of a packet number in the ring (R178). -/
def Queue.slotVa (q : Queue) (packet : Nat) : Nat := (q.base + 64 * (packet % 2 ^ (q.size % 32))) % 2 ^ 64

/-- Set a queue's STATE and CAUSE, in the firmware's record and in the descriptor. -/
def State.queueTo (s : State) (n state cause : Nat) : State :=
  match s.queues.get n with
  | none => s
  | some q => (s.modQueue n (fun q => { q with state, cause })).poke (q.descPa + 10) [BitVec.ofNat 8 state, BitVec.ofNat 8 cause] false none

/-- A queue in ACTIVE, QUIESCING or QUIESCED goes to ERROR with a cause (R181). -/
def State.queueError (s : State) (n cause : Nat) : State :=
  match s.queues.get n with
  | some q => if 1 ≤ q.state ∧ q.state ≤ 3 then s.queueTo n 4 cause else s
  | none => s

/-! ### Snapshots (R192, R193) -/

/-- The leaf entries that map the pages of a 64 KiB piece for an ASID, walked from a die. -/
def State.pieceLeaves (s : State) (die asid piece : Nat) : List (Nat × Nat × Nat × Nat) :=
  ((List.range 16).filterMap (fun k =>
    match s.walk die asid (piece * 65536 + 4096 * k) with
    | .leaf entry va size pa _ => some (entry, va, size, pa)
    | .fault _ => none)).dedup

/-- Set or clear the SNAP bit of the leaves of a piece. -/
def State.snapBits (s : State) (die asid piece : Nat) (on : Bool) : State :=
  (s.pieceLeaves die asid piece).foldl (fun s e =>
    let v := s.tableWord e.1
    let v' := if on then v ||| 0x100 else if bit v 8 then v - 0x100 else v
    if v' = v then s else s.poke e.1 (bytesOfNat 8 v') false none) s

/-- Drop the translations that a test picks, in every TLB of a die (R229), and the reservations made through them (R402). -/
def State.dropTlb (s : State) (die : Nat) (p : Translation → Bool) : State :=
  let s := s.modDie die (fun q => { q with tlb := q.tlb.filter (fun t => !p t) })
  { s with
    reservations := s.reservations.filter (fun r => !(flowDie r.flow == die && p r.via))
    cores := s.cores.mapVal (fun c q => if dieOf c = die then { q with l1 := q.l1.filter (fun t => !p t) } else q) }

/-- Drop an ASID's translations on the four dies. -/
def State.dropAsid (s : State) (asid : Nat) : State := [0, 1, 2, 3].foldl (fun s d => s.dropTlb d (fun t => t.asid == asid)) s

/-- The physical address of a virtual one by a walk, without the rights. -/
def State.physOf (s : State) (die asid va : Nat) : Option Nat :=
  match s.walk die asid va with
  | .leaf _ base _ pa _ => some (pa + (va - base))
  | .fault _ => none

/-- The bytes of a 4 KiB frame, unless a line of it is poisoned. -/
def State.frameBytes (s : State) (pa : Nat) : Option (List Byte) :=
  if (List.range 32).any (fun k => s.poison.contains (lineOf pa + k)) then none else some (s.bytes pa 4096)

/-- The bytes of the mapped 4 KiB pages of a 64 KiB piece, by page: none where a line of one is poisoned (R192). A page that is not mapped has nothing to copy. -/
def State.pieceBytes (s : State) (die asid piece : Nat) : Option (Tab (List Byte)) :=
  (List.range 16).foldl (fun acc k =>
    match s.physOf die asid (piece * 65536 + 4096 * k) with
    | none => acc
    | some pa => acc.bind (fun t => (s.frameBytes pa).map (fun bs => t.set k bs))) (some [])

/-- A leaf larger than 64 KiB that maps an address becomes a table of smaller leaves with its bits, so that one piece of it can be protected alone (R193; log 98). -/
def State.splitLeaf (s : State) (die asid va : Nat) : State :=
  match s.walk die asid va with
  | .fault _ => s
  | .leaf entry _ size pa pte =>
    if size ≤ 65536 then s
    else
      let (n, type) := if size = 2 ^ 21 then (32, 4) else (512, 0)
      let table := paDie pa * 2 ^ 46 + Config.tableFrame s.fresh % 2 ^ 27 * 4096
      let s := (List.range n).foldl (fun (s : State) k => s.poke (table + 8 * k) (bytesOfNat 8 (pte + k * (size / n))) false none) { s with fresh := s.fresh + 1 }
      s.poke entry (bytesOfNat 8 (table + type + 1)) false none

/-- SNAPSHOT: copy a protected piece of a launch before its first write performs. Where no storage can be reserved for it, or it holds an uncorrectable error, the
launch becomes non-replayable (R192, R193). -/
def State.snapshot (s : State) (die asid launch piece : Nat) : State :=
  match s.launches.get launch with
  | none => s
  | some l =>
    if !l.protectedPieces.contains piece then s
    else
      let copy := if Config.snapshotRoom s.fresh then s.pieceBytes die asid piece else none
      State.modLaunch { s with fresh := s.fresh + 1 } launch (fun l =>
        match copy with
        | some bs => { l with protectedPieces := l.protectedPieces.filter (· != piece), snapshots := l.snapshots.set piece bs }
        | none => { l with protectedPieces := l.protectedPieces.filter (· != piece), replayable := false })

/-- Translations of a piece are dropped on every die: the `tlbinv` that follows the change of its leaves (R229, R236). -/
def State.dropPiece (s : State) (asid piece : Nat) : State :=
  [0, 1, 2, 3].foldl (fun s d => s.dropTlb d (fun t => t.asid == asid && decide (t.va < (piece + 1) * 65536 ∧ piece * 65536 < t.va + t.size))) s

/-- Serve a SNAP fault (R193, R236, R237): the piece is copied for every launch of the context that protects it, its protection is lifted, and its translations are dropped. -/
def State.serveSnap (s : State) (die ctx asid va : Nat) : State :=
  let piece := va / 65536
  let mine := s.launches.filter (fun e => e.2.context == ctx && e.2.protectedPieces.contains piece)
  ((mine.foldl (fun s e => s.snapshot die asid e.1 piece) s).snapBits die asid piece false).dropPiece asid piece

/-- Memory is written by a physical address: the first write to a piece of a protected write set is served before it performs (R193). -/
def State.firstWrite (s : State) (pa n : Nat) : State :=
  s.launches.foldl (fun s e =>
    match (s.contexts.get e.2.context).bind (fun c => c.asid.map (fun a => (c.die, a))) with
    | none => s
    | some (die, asid) =>
      let hit (piece : Nat) : Bool := (List.range 16).any (fun k =>
        (s.physOf die asid (piece * 65536 + 4096 * k)).any (fun p => pa / 4096 ≤ p / 4096 && p / 4096 ≤ (pa + n - 1) / 4096))
      (e.2.protectedPieces.filter hit).foldl (fun s piece => s.serveSnap die e.2.context asid (piece * 65536)) s) s

/-- Protect pieces of the write set (R192): SNAP set on their leaves, and translations of the ASID dropped. -/
def State.protect (s : State) (die asid : Nat) (pieces : List Nat) : State :=
  (pieces.foldl (fun s p =>
    (((s.splitLeaf die asid (p * 65536)).splitLeaf die asid (p * 65536)).snapBits die asid p true)) s).dropAsid asid

/-- The pieces of a launch's write set. -/
def Record.pieces (r : Record) : List Nat :=
  r.writeSet.flatMap (fun e => (List.range (e.2 / 65536)).map (e.1 / 65536 + ·))

/-- A final launch keeps no snapshot (R190); where it completes, protection is lifted from pieces that no other launch protects. -/
def State.freeSnapshots (s : State) (n : Nat) : State :=
  match s.launches.get n with
  | none => s
  | some l =>
    let s := s.modLaunch n (fun l => { l with snapshots := [], protectedPieces := [] })
    match (s.contexts.get l.context).bind (fun c => c.asid.map (fun a => (c.die, a))) with
    | none => s
    | some (d, a) =>
      (l.protectedPieces.filter (fun p => !s.launches.any (fun e => e.2.context == l.context && e.2.protectedPieces.contains p))).foldl
        (fun s p => (s.snapBits d a p false).dropPiece a p) s

/-! ### Code visibility (R162, R435) -/

/-- The pages of a range that have a translation, each with its physical address (R435). -/
def State.mappedPages (s : State) (die asid start len : Nat) : List (Nat × Nat) :=
  if len = 0 then []
  else (List.range ((start + len - 1) / 4096 - start / 4096 + 1)).filterMap (fun k =>
    let va := (start / 4096 + k) * 4096
    (s.physOf die asid va).map (fun pa => (va, pa)))

/-- The physical ranges of an `iflush`: the lines of the range on each mapped page, as first byte and length. -/
def flushRanges (pages : List (Nat × Nat)) (start len : Nat) : List (Nat × Nat × Nat) :=
  pages.map (fun p =>
    let lo := max p.1 (start / 64 * 64)
    let hi := min (p.1 + 4096) ((start + len + 63) / 64 * 64)
    (lo, p.2 + (lo - p.1), hi - lo))

/-- An instruction-cache line holds code of a range: by its address and ASID, or by the physical line that it maps. -/
def State.flushes (s : State) (die asid : Nat) (rs : List (Nat × Nat × Nat)) (key : Nat) : Bool :=
  let va := key / 1024 * 64
  let pa := s.physOf die (key % 1024) va
  rs.any (fun r => (key % 1024 == asid && r.1 ≤ va && va < r.1 + r.2.2) || pa.any (fun p => r.2.1 ≤ p && p < r.2.1 + r.2.2))

/-- A die that an instruction of another skips: fenced or unreachable (R435, R440). -/
def State.skipsDie (s : State) (from_ d : Nat) : Bool := (s.die d).fenceSelf || (from_ != d && s.unreachable from_ d)

/-- Remove the lines of a range from the instruction caches of the load-store domain (R435). -/
def State.flushCode (s : State) (die asid start len : Nat) : State :=
  let rs := flushRanges (s.mappedPages die asid start len) start len
  { s with cores := s.cores.mapVal (fun c q =>
      if s.skipsDie die (dieOf c) then q else { q with icache := q.icache.keep (fun key _ => !s.flushes (dieOf c) asid rs key) }) }

/-! ### Stores by the steward (R179, R197) -/

/-- Where the firmware of a die writes for a context: a walk sets A and D (R224), and a SNAP fault is served in place (R193, R226). Of the other faults it serves none (log 125): the
sub-code of the one that it meets. -/
def State.agentWrite (s : State) (die ctx asid va : Nat) : State × Except Nat Translation :=
  match s.translateDie die asid va .write true with
  | (s, .error 7) => (s.serveSnap die ctx asid va).translateDie die asid va .write true
  | x => x

/-- Bytes of a context written by the firmware of a die, in one step: a write to bytes that a barrier or a chain owns is discarded, and logged with the firmware's dispatch PC as its
site (R211, R280; log 20). -/
def State.agentPoke (s : State) (die asid pa : Nat) (bs : List Byte) (tag : Option SyncTag) : State :=
  if s.ownedBytes pa bs.length then s.logDie (paDie pa) 0 true asid pa (Config.dispatchPc die) 0 else s.poke pa bs false tag

/-- A 64-bit release at fabric scope by the firmware of a die, with a context's ASID: the state, and whether it was performed. Of the faults that R226 lets the firmware serve in place
it serves SNAP alone and drops the store at any other (DESIGN CHOICE, log 125). -/
def State.stewardStore (s : State) (die ctx va : Nat) (v : DWord) : State × Bool :=
  match (s.contexts.get ctx).bind (fun c => c.asid) with
  | none => (s, false)
  | some asid =>
    match s.agentWrite die ctx asid va with
    | (s, .error _) => (s, false)
    | (s, .ok t) =>
      let pa := t.pa + (va - t.va)
      if va % 8 ≠ 0 || 2 ^ 48 ≤ va || s.accessBad die pa 8 .store then (s, false)
      else
        (s.agentPoke die asid pa (bytesOfNat 8 v.toNat) (some { scope := 4, place := { flow := .steward die 0, launch := 0, index := 0, number := 0 } }), true)

/-- Store a signal of a queue; a store that cannot be performed is dropped and the queue goes to ERROR with SIGNAL_FAULT (R179). -/
def State.signal (s : State) (queue va : Nat) (v : DWord) : State :=
  match s.queues.get queue with
  | none => s
  | some q =>
    match s.stewardStore q.die q.context va v with
    | (s, true) => s
    | (s, false) => s.queueError queue 0x02

/-! ### Removing groups -/

/-- A group's hold on the matrix engine ends (R253). -/
def Matrix.freeGroup (m : Matrix) (g : Nat) (waves : List Nat) : Matrix :=
  { m with
    slots := m.slots.mapVal (fun _ x => if x.owner = some g then { x with owner := none } else x)
    accs := m.accs.mapVal (fun _ x => if x.owner = some g then { x with owner := none } else x)
    queue := m.queue.filter (fun o => !waves.contains o.wave)
    fills := m.fills.filter (fun o => !waves.contains o.wave)
    releases := m.releases.filter (fun r => r.1 != g) }

/-- Remove a group and its waves from a core. -/
def Core.dropGroup (q : Core) (g : Nat) : Core :=
  let gone := (q.waves.filter (fun e => e.2.group == g)).map Prod.fst
  { q with
    groups := q.groups.del g
    waves := q.waves.keep (fun _ w => w.group != g)
    matrix := q.matrix.freeGroup g gone
    active := q.active.filter (fun k => !gone.contains k)
    pending := q.pending.filter (fun k => !gone.contains k)
    bad := (q.forgetBad g gone).bad }

/-- No operation and no fill of a matrix engine is left. -/
def Matrix.quiet (m : Matrix) : Bool := m.queue.isEmpty && m.fills.isEmpty

/-- A request of a flow of a context. -/
def Request.ofFlow (r : Request) (f : Flow) (ctx : Option Nat) : Bool :=
  match r with
  | .fault g x _ _ => g == f && x == ctx
  | .ecall g x _ _ _ _ => g == f && x == ctx
  | .engine _ _ _ _ _ => false

/-- The requests of a flow of a context to its steward are dropped. -/
def State.dropRequests (s : State) (f : Flow) (ctx : Option Nat) : State :=
  s.modDie (flowDie f) (fun q => { q with requests := q.requests.keep (fun _ r => !r.ofFlow f ctx) })

/-- What the machine keeps for a flow that is no more: its reservations and its requests to the steward. -/
def State.forgetFlow (s : State) (f : Flow) : State := (s.dropReservations f).dropRequests f (s.contextOf f)

/-- A context occupies a die: its home, and those of the cores on which it has a save area (R165, R166). -/
def Context.occupies (x : Context) (die : Nat) : Bool := x.die == die || x.areas.any (fun a => dieOf a.1 == die)

/-- The key table of a die holds the keys of the contexts that occupy it (R166). -/
def State.trimKeys (s : State) : State :=
  { s with dies := s.dies.mapVal (fun d q => { q with keys := q.keys.keep (fun h _ => (s.contexts.get h).any (fun x => x.occupies d)) }) }

/-- A core whose image holds no group more has no image (R168, R170). -/
def State.freeCore (s : State) (core : Nat) : State :=
  let q := s.core core
  if q.groups ≠ [] then s
  else
    let s := s.setCore core { q with context := none, asid := 0, watches := [], active := [], pending := [], waves := [] }
    match q.context with
    | none => s
    | some c => if q.shadow.any (fun i => i.context == c) then s else (s.modContext c (fun x => { x with areas := x.areas.del core })).trimKeys

/-- Routine calls for jobs that a test picks are cancelled on the engines of a die (R125, R194). -/
def State.cancelCalls (s : State) (die : Nat) (p : Landing → Bool) : State :=
  s.modDie die (fun q => { q with engines := q.engines.mapVal (fun _ e => if e.call.any (fun c => p c.job) then { e with call := none } else e) })

/-- A landing of a stage of a group. -/
def Landing.ofGroup (core g : Nat) : Landing → Bool
  | .window c h _ _ _ => c == core && h == g
  | .entry _ _ => false

/-- Remove a group without spill (R194, R204): copies of its windows are cancelled. -/
def State.dropGroup (s : State) (core g : Nat) : State :=
  let s := s.cancelCalls (dieOf core) (Landing.ofGroup core g)
  let gone := ((s.core core).waves.filter (fun e => e.2.group == g)).map Prod.fst
  let s := gone.foldl (fun s k => s.forgetFlow (.wave core k)) s
  (s.modCore core (fun q => q.dropGroup g)).freeCore core

/-- The group slots of a launch in an image. -/
def Image.groupsOf (i : Image) (launch : Nat) : List Nat := (i.groups.filter (fun e => e.2.launch == launch)).map Prod.fst

/-- The wave slots of a launch in an image. -/
def Image.wavesOf (i : Image) (launch : Nat) : List Nat := (i.waves.filter (fun e => (i.groupsOf launch).contains e.2.group)).map Prod.fst

/-- An image without the groups of a launch. -/
def Image.without (i : Image) (launch : Nat) : Image :=
  let gs := i.groupsOf launch
  let ws := i.wavesOf launch
  { i with
    groups := i.groups.keep (fun g _ => !gs.contains g)
    waves := i.waves.keep (fun k _ => !ws.contains k)
    active := i.active.filter (fun k => !ws.contains k)
    pending := i.pending.filter (fun k => !ws.contains k)
    matrix := gs.foldl (fun m g => m.freeGroup g ws) i.matrix }

/-- The requests of the waves of a launch in an image of a core go with them (R194). -/
def State.dropImageRequests (s : State) (core launch : Nat) (i : Image) : State :=
  (i.wavesOf launch).foldl (fun s k => s.dropRequests (.wave core k) (some i.context)) s

/-- The core whose save area begins at an address. -/
def State.areaCore (s : State) (ctx pa : Nat) : Option Nat := ((s.contexts.get ctx).bind (fun x => x.areas.find? (fun a => a.2 == pa))).map Prod.fst

/-- The requests of the waves of a launch in shadow banks and save areas go with them (R194). -/
def State.dropAwayRequests (s : State) (launch : Nat) : State :=
  let s := s.cores.foldl (fun s e => e.2.shadow.elim s (fun i => s.dropImageRequests e.1 launch i)) s
  s.saves.foldl (fun s e => if e.2.away then (s.areaCore e.2.context e.1).elim s (fun c => s.dropImageRequests c launch e.2) else s) s

/-- Waves that wait for another image's matrix state to be spilled go on, once it is (R169). -/
def Core.wakeSpill (q : Core) : Core :=
  if q.shadow.any (fun i => !i.matrixOut) then q
  else { q with waves := q.waves.mapVal (fun _ w => if w.park = some .matrixSpill then { w with park := none } else w) }

/-- Save areas of images that are nowhere more are released, and a restore from one is cancelled (R167, R170). -/
def State.trimAreas (s : State) (old : Tab Image) : State :=
  State.trimKeys { s with
    contexts := s.contexts.mapVal (fun x ctx => { ctx with areas := ctx.areas.keep (fun c pa =>
      (s.core c).context == some x || (s.core c).shadow.any (fun i => i.context == x) || (s.saves.get pa).any (fun i => i.context == x && i.away)) })
    cores := s.cores.mapVal (fun _ q =>
      if q.restoring && (old.get q.restoreFrom).isSome && (s.saves.get q.restoreFrom).isNone then { q with restoring := false } else q) }

/-- Remove every placed group of a launch: resident, shadowed and spilled (R194). -/
def State.dropLaunch (s : State) (launch : Nat) : State :=
  let old := s.saves
  let s := s.cores.foldl (fun s e =>
    (e.2.groups.filter (fun g => g.2.launch == launch)).foldl (fun s g => s.dropGroup e.1 g.1) s) (s.dropAwayRequests launch)
  State.trimAreas { s with
    cores := s.cores.mapVal (fun _ q =>
      ({ q with shadow := (q.shadow.map (fun i => i.without launch)).filter (fun i => i.groups != []) } : Core).wakeSpill)
    saves := (s.saves.mapVal (fun _ i => i.without launch)).keep (fun _ i => i.groups != []) } old

/-! ### The state of a context -/

/-- The swap of a core's image is asked for, to the image's save area (R169, R175): the firmware writes SAVE_PA and sets SWAP, where no swap has been asked for. Images return in
the order in which they are pre-empted (R208). -/
def State.askSwap (s : State) (c : Nat) : State :=
  match (s.core c).context with
  | none => s
  | some x =>
    let area := ((s.contexts.get x).bind (fun y => y.areas.get c)).getD (s.core c).savePa
    if (s.core c).swapAsked || (s.core c).swapping then s
    else State.modCore { s with swaps := s.swaps + 1 } c (fun q => { q with swapAsked := true, savePa := area, swapTo := area, swapOrder := some s.swaps })

/-- The firmware writes the root entry of an ASID in a die's root array (R220). -/
def State.setRoot (s : State) (asid root d : Nat) : State :=
  if (s.die d).fenceSelf then s else s.poke ((s.die d).walkRoot + 8 * asid) (bytesOfNat 8 (root / 4096 * 4096 % 2 ^ 52 + 1)) false none

/-- A context holds an ASID. -/
def State.holdsAsid (s : State) (ctx : Nat) : Bool := (s.contexts.get ctx).any (fun x => x.asid.isSome)

/-- A context holds an ASID and its tables' root (R165, R220). -/
def State.setAsid (s : State) (ctx asid : Nat) : State :=
  match s.contexts.get ctx with
  | none => s
  | some x => (([0, 1, 2, 3] : List Nat).foldl (fun s d => s.setRoot asid x.root d) s).modContext ctx (fun x => { x with asid := some asid })

/-- A context that has given up its ASID receives the least free one (R165, log 99). -/
def State.giveAsid (s : State) (ctx : Nat) : State :=
  if s.holdsAsid ctx then s
  else
    match (List.range 1024).find? (fun a => a != 0 && s.contexts.all (fun x => x.2.asid != some a)) with
    | some a => if (s.contexts.get ctx).any (fun x => x.state == .created || x.state == .live) then s.setAsid ctx a else s
    | none => s

/-- The steward may take the ASID of a context (R165): it has images and all are spilled, none of its queues is served, and no entry of its chains runs (log 99). -/
def State.sparesAsid (s : State) (ctx : Nat) : Bool :=
  s.saves.any (fun e => e.2.context == ctx && e.2.away) && s.cores.all (fun e => e.2.context != some ctx && !e.2.shadow.any (fun i => i.context == ctx))
    && s.queues.all (fun q => q.2.context != ctx || (q.2.state != 1 && q.2.state != 2)) && s.chains.all (fun c => c.2.context != ctx || c.2.running.isNone)

/-- The steward takes the ASID of a context: its translations are dropped on every die before the number is used again (R165). -/
def State.takeAsid (s : State) (ctx : Nat) : State :=
  match (s.contexts.get ctx).bind (fun x => x.asid) with
  | some a => (s.dropAsid a).modContext ctx (fun x => { x with asid := none })
  | none => s

/-- A launch that is not final (R190). -/
def Launch.open (l : Launch) : Bool := l.state == .taken || l.state == .running || l.state == .replaying

/-- A context has an image anywhere (R168). -/
def State.hasImage (s : State) (ctx : Nat) : Bool :=
  s.cores.any (fun e => e.2.context == some ctx || e.2.shadow.any (fun i => i.context == ctx)) || s.saves.any (fun e => e.2.context == ctx && e.2.away)

/-- A LAUNCH packet stands in a queue's ring and has not been taken (R178, R179). -/
def State.launchQueued (s : State) (q : Queue) : Bool :=
  match (s.contexts.get q.context).bind (fun c => c.asid) with
  | none => false
  | some asid => (List.range (min (2 ^ (q.size % 32)) (s.wridx q - q.rdidx))).any (fun k =>
      (s.physOf q.die asid (q.slotVa (q.rdidx + k))).any (fun pa => s.byte pa == 1))

/-- LIVE goes to CREATED when the last group has retired and no launch is queued (R167). -/
def State.settleContext (s : State) (ctx : Nat) : State :=
  if s.hasImage ctx || s.launches.any (fun e => e.2.context == ctx && e.2.open) || s.queues.any (fun q => q.2.context == ctx && s.launchQueued q.2) then s
  else (s.modContext ctx (fun c => if c.state = .live then { c with state := .created, areas := [] } else c)).trimKeys

/-- A launch ends as FAILED or TORN: it stores no signal and no trigger word, and its snapshots are freed (R190). -/
def State.endLaunch (s : State) (n : Nat) (st : LaunchState) : State :=
  match s.launches.get n with
  | some l =>
    if l.open then
      let s := (s.modLaunch n (fun l => { l with state := st })).freeSnapshots n
      let s := { s with dies := s.dies.mapVal (fun _ d => if d.drain.any (fun x => x.1 == n) then { d with drain := none } else d) }
      s
    else s
  | none => s

/-- A context goes to FAULTED (R167): its queues go to ERROR with the cause, its open launches to FAILED, and each core that holds an image of it swaps. -/
def State.failContext (s : State) (ctx cause : Nat) : State :=
  match s.contexts.get ctx with
  | none => s
  | some c =>
    if c.state = .dead ∨ c.state = .faulted then s
    else
      let s := s.modContext ctx (fun c => { c with state := .faulted, cause })
      let s := (s.queues.filter (fun e => e.2.context == ctx)).foldl (fun s e => s.queueError e.1 cause) s
      let s := (s.launches.filter (fun e => e.2.context == ctx)).foldl (fun s e => s.endLaunch e.1 .failed) s
      (s.cores.filter (fun e => e.2.context == some ctx)).foldl (fun s e => s.askSwap e.1) s

/-! ### Escalation (R190, R194, R472, R473) -/

/-- The first of a launch's faults is kept with it (R293). -/
def State.keepFault (s : State) (launch : Nat) (r : FaultRecord) : State :=
  s.modLaunch launch (fun l => { l with fault := some (l.fault.getD r) })

/-- The product of the extents of the levels bound to the cohort domain or wider, as a record gives them (R25). -/
def Record.groups (r : Record) : Nat := ((r.levels.filter (fun e => levelClass e.2 == 2)).map Prod.fst).foldl (· * ·) 1

/-- The outermost level's extent in a record. -/
def Record.outerExtent (r : Record) : Nat := ((r.levels.getLast?).map Prod.fst).getD 1

/-- A launch replay counts for the lifetime record of its context's home die (R482). -/
def State.countReplay (s : State) (ctx : Nat) : State :=
  match s.contexts.get ctx with
  | some c => s.modDie c.die (fun q => { q with counters := { q.counters with replay := q.counters.replay + 1 } })
  | none => s

/-- A replay begins (R194): every group goes, and the counts return to the record's; the snapshots are copied back by REPLAY_RESTORE_DONE. -/
def State.startReplay (s : State) (n : Nat) : State :=
  (s.dropLaunch n).modLaunch n (fun l =>
    { l with state := .replaying, replays := l.replays + 1, triggered := false, triggeredGroups := [], exited := [], placed := 0, next := 0,
             count := l.record.groups, outer := l.record.outerExtent, units := [], waitingSince := none, fault := none })

/-- A launch fails, and its context with it (R190, R472). -/
def State.failLaunch (s : State) (n cause : Nat) : State :=
  match s.launches.get n with
  | some l => (s.endLaunch n .failed).failContext l.context cause
  | none => s

/-- Escalation to launch replay (R190, R473): absorbed where a replay is already on. -/
def State.escalate (s : State) (n : Nat) : State :=
  match s.launches.get n with
  | none => s
  | some l =>
    match l.state with
    | .running =>
      if !l.replayable then s.failLaunch n 0x21
      else if 2 ≤ l.replays then s.failLaunch n 0x22
      else (s.startReplay n).countReplay l.context
    | _ => s

/-- A fault that the steward escalates to launch replay (R472). `nested`: raised inside the handler; `en`: TVEC.EN. -/
def TrapRegs.escalates (r : TrapRegs) (nested en : Bool) : Bool :=
  r.code == 0x15 || (r.code == 0x0E && (r.esc || !en)) || (r.code == 0x06 && (r.sub == 6 || r.sub == 8)) || (r.code == 0x11 && (nested || !en))

/-- A group is FAULTED with its record (R204, R293, R302), and the launch escalates or fails as a program error (R472). -/
def State.faultGroup (s : State) (core g : Nat) (r : FaultRecord) (escalate : Bool) : State :=
  match s.group? core g with
  | none => s
  | some q =>
    let s := (s.modGroup core g (fun q => { q with state := .faulted })).keepFault q.launch r
    if escalate then s.escalate q.launch else s.failLaunch q.launch 0x23

/-! ### Triggers and ends -/

/-- The condition of R31 holds: TRIGGERED is set, the launch becomes non-replayable and the trigger word is stored (R190, R197). -/
def State.testTrigger (s : State) (n : Nat) : State :=
  match s.launches.get n with
  | some l =>
    if !l.triggered && l.state == .running && l.count ≤ l.triggeredGroups.length then
      let s := s.modLaunch n (fun l => { l with triggered := true, replayable := false })
      if l.record.trigAddr = 0 then s else s.signal l.queue l.record.trigAddr l.record.trigVal
    else s
  | none => s

/-- A group counts as triggered (R31). -/
def State.trigger (s : State) (n index : Nat) : State :=
  (s.modLaunch n (fun l => if l.triggered || l.triggeredGroups.contains index then l else { l with triggeredGroups := l.triggeredGroups ++ [index] })).testTrigger n

/-- The last group has exited: the launch is COMPLETE, and its signal is stored (R190). -/
def State.testComplete (s : State) (n : Nat) : State :=
  match s.launches.get n with
  | some l =>
    if l.state == .running && l.count ≤ l.exited.length then
      let s := (s.modLaunch n (fun l => { l with state := .complete })).freeSnapshots n
      match l.signal with
      | some (va, v) => s.signal l.queue va v
      | none => s
    else s
  | none => s

/-- The trap registers of a guard or window-budget record (R114, R129, R294). -/
def GuardRecord.regs (r : GuardRecord) (pc mask : DWord) : TrapRegs :=
  { cause := BitVec.ofNat 64 (2 ^ 62 + r.bank % 512 * 2 ^ 40 + min r.count 255 * 2 ^ 32 + r.sub % 256 * 256 + r.code % 256), pc, mask,
    addr := BitVec.ofNat 64 r.offset, site0 := BitVec.ofNat 64 (r.sitePc % 2 ^ 48), site1 := BitVec.ofNat 64 r.siteSeq }

/-- What is kept with the launch of a record that no wave can take (R114, R293): its registers, with reason NO_WAVE. -/
def GuardRecord.noWaveRecord (r : GuardRecord) : FaultRecord := { trap := r.regs 0 0, reason := 3, original := none }

/-- A record that no wave can take: the group is FAULTED with reason NO_WAVE (R114). -/
def State.noWave (s : State) (core g : Nat) (r : GuardRecord) : State := s.faultGroup core g r.noWaveRecord false

/-- The last wave of a group has ended (R204): the group retires, or is FAULTED where a guard or window-budget record is pending. -/
def State.retireGroup (s : State) (core g : Nat) : State :=
  match s.group? core g with
  | none => s
  | some q =>
    match q.guard, q.budget with
    | some r, _ | none, some r => (s.noWave core g r).dropGroup core g
    | none, none =>
      let s := (s.trigger q.launch q.index).dropGroup core g
      let s := (s.modLaunch q.launch (fun l => { l with exited := l.exited ++ [q.index] })).testComplete q.launch
      match s.launches.get q.launch with
      | some l => s.settleContext l.context
      | none => s

/-- Work of a wave that its core's matrix engine still holds (R259). -/
def Core.matrixBusy (q : Core) (k : Nat) : Bool := q.matrix.queue.any (fun o => o.wave == k) || q.matrix.fills.any (fun o => o.wave == k)

/-- A wave ends when no thread lives, no flag is set and no accepted operation of it is left; with the last wave its group retires (R379). -/
def State.tryEnd (s : State) (f : Flow) : State :=
  match f with
  | .steward _ _ => s
  | .wave core k =>
    match (s.core core).waves.get k with
    | none => s
    | some w =>
      if w.live = 0 && w.flagsClear 0xFFF && !(s.core core).matrixBusy k then
        let s := (s.modCore core (fun q => { q with
          waves := q.waves.del k, active := q.active.filter (· != k), pending := q.pending.filter (· != k) })).forgetFlow f
        if (s.core core).waves.any (fun e => e.2.group == w.group) then s else s.retireGroup core w.group
      else s

/-- `grow` (R30, R33, R381): the state and the status. -/
def State.growBy (s : State) (n add : Nat) : State × Nat :=
  match s.launches.get n with
  | none => (s, 3)
  | some l =>
    let dying := !(s.contexts.get l.context).any (fun c => c.state != .dead)
    let wide := (l.record.levels.getLast?).any (fun e => levelClass e.2 == 2)
    let inner := (((l.record.levels.dropLast).filter (fun e => levelClass e.2 == 2)).map Prod.fst).foldl (· * ·) 1
    if dying then (s, 3)
    else if l.triggered then (s, 2)
    else if !wide || 2 ^ 32 - 1 < l.count + add * inner then (s, 1)
    else (s.modLaunch n (fun l => { l with outer := l.outer + add, count := l.count + add * inner }), 0)

end Sys2Proof.Machine
end

