-- ==== Sys2Proof/Machine/Ports.lean ====
section
/-! DEFINITION. The ports of a die: what the loss of a link and the fence of a port or of a die do (R238 to R240, R245, R246 of spec/15_link.md, R478 to R481 of
spec/25_reliability.md). -/

namespace Sys2Proof.Machine

/-! ### Ports (R238, R251) -/

/-- A port of a die. -/
def Die.port (d : Die) (k : Nat) : Port := d.ports.getD k Port.reset

/-- Change a port. -/
def State.modPort (s : State) (d k : Nat) (g : Port → Port) : State := s.modDie d (fun q => { q with ports := q.ports.set k (g (q.port k)) })

/-- The die that a Narrows port joins (R238). -/
def joinedDie (d k : Nat) : Option Nat := if k < 3 then some ((d + 1 + k) % 4) else none

/-- The port of a die to another die of the package (R238). -/
def portTo (d e : Nat) : Nat := (e + 7 - d) % 4

/-- The other end of a Narrows port. -/
def farEnd (d k : Nat) : Option (Nat × Nat) := (joinedDie d k).map (fun e => (e, portTo e d))

/-- Change both ends of a link. -/
def State.modLink (s : State) (d k : Nat) (g : Port → Port) : State :=
  let s := s.modPort d k g
  match farEnd d k with
  | some (e, j) => s.modPort e j g
  | none => s

/-- A port passes traffic. -/
def Port.passes (p : Port) : Bool := p.state == 2 || p.state == 3

/-! ### Losing a link (R239, R240, R246) -/

/-- The dies that a route table sends through a port and that are not marked unreachable. -/
def Die.routed (d : Die) (k : Nat) : List Nat := (d.routes.filter (fun e => !e.2.1 && e.2.2 == k)).map Prod.fst

/-- The access fault of an access that a link does not answer (R246, R291). -/
def lostAccess (lane addr site : Nat) : Imprecise := { code := 0x07, sub := 0, lane, addr, bank := 0, count := 0, sitePc := site, siteSeq := 0 }

/-- Loads and atomics that a link has not answered end in the access fault, imprecisely (R246, R291). -/
def Outstanding.lose (o : Outstanding) (dests : List Nat) : Outstanding :=
  match o.failure, o.reads.find? (fun r => dests.contains (paDie r.2.2)) with
  | none, some r => { o with failure := some (lostAccess r.1 r.2.1 o.site) }
  | _, _ => o

/-- A flow's unanswered loads from dies are lost. -/
def Wave.lose (w : Wave) (dests : List Nat) : Wave := { w with outstanding := w.outstanding.map (fun o => o.lose dests) }

/-- A fill whose source has not been read is lost with its route (R255, R291). -/
def Fill.lose (f : Fill) (dests : List Nat) : Fill :=
  match f.failure with
  | none =>
    match ((List.range f.pas.length).zip f.pas).find? (fun p => dests.contains (paDie p.2)) with
    | some p => { f with failure := some (lostAccess f.lane (f.address + 128 * p.1) f.pc) }
    | none => f
  | some _ => f

/-- A core loses what it has not been given of other dies, and so does the image that it shadows. -/
def Core.lose (q : Core) (dests : List Nat) : Core :=
  { q with
    waves := q.waves.mapVal (fun _ w => w.lose dests)
    matrix := { q.matrix with fills := q.matrix.fills.map (fun f => f.lose dests) }
    shadow := q.shadow.map (fun i => { i with
      waves := i.waves.mapVal (fun _ w => w.lose dests)
      matrix := { i.matrix with fills := i.matrix.fills.map (fun f => f.lose dests) } }) }

/-- Every flow of a die loses what it has not been given of other dies. -/
def State.loseReads (s : State) (d : Nat) (dests : List Nat) : State :=
  let s := { s with cores := s.cores.mapVal (fun c q => if dieOf c = d then q.lose dests else q) }
  s.modDie d (fun q => { q with stewards := q.stewards.mapVal (fun _ w => w.lose dests) })

/-- The lowest-numbered other die of the package through which a die still reaches another (R246). -/
def State.detour (s : State) (d e : Nat) : Option Nat :=
  ([0, 1, 2, 3] : List Nat).find? (fun x => x != d && x != e && ((s.die d).port (portTo d x)).passes && ((s.die x).port (portTo x e)).passes)

/-- A port has gone to DOWN or FENCED (R246): the traffic of the joined die takes a detour, or what the port reached is unreachable. -/
def State.portLost (s : State) (d k : Nat) : State :=
  let gone := (s.die d).routed k
  let block (s : State) (dests : List Nat) : State :=
    (s.modDie d (fun q => { q with routes := dests.foldl (fun t e => t.set e (true, (t.getD e (true, k)).2)) q.routes })).loseReads d dests
  match joinedDie d k with
  | none => block s gone
  | some e =>
    match s.detour d e with
    | some x =>
      let s := block s (gone.filter (· != e))
      if gone.contains e then (s.modDie d (fun q => { q with routes := q.routes.set e (false, portTo d x) })).modPort d k (fun p => { p with detour := true }) else s
    | none => block s gone

/-- One end of a link leaves UP, DEGRADED or TRAINING for a state that passes nothing. -/
def State.dropEnd (s : State) (d k state : Nat) : State :=
  let active := ((s.die d).port k).passes || ((s.die d).port k).state == 1
  let s := s.modPort d k (fun p => { p with state, lanes := 0, retrain := false, refusals := 0, nak := false, sent := p.acked })
  if active then s.portLost d k else s

/-- A port goes to DOWN or FENCED (R245, R246). The other end of a Narrows link, which has no partner any more, goes DOWN with it (log 72). -/
def State.dropPort (s : State) (d k state : Nat) : State :=
  let s := s.dropEnd d k state
  match farEnd d k with
  | some (e, j) => if ((s.die e).port j).passes || ((s.die e).port j).state == 1 then s.dropEnd e j 0 else s
  | none => s

/-- A port enters TRAINING (R245). -/
def Port.train (p : Port) : Port := { p with state := 1, lanes := 0, retrains := if p.passes then min 65535 (p.retrains + 1) else p.retrains }

/-- A link trains (R244, R245): a port that is DOWN, UP or DEGRADED, and the other end of a link that is up. -/
def State.trainLink (s : State) (d k : Nat) : State :=
  let p := (s.die d).port k
  if p.state != 0 && !p.passes then s
  else
    let s := s.modPort d k Port.train
    match farEnd d k with
    | some (e, j) => s.modPort e j (fun p => if p.passes then p.train else p)
    | none => s

/-! ### Fenced ports (R245) -/

/-- A fence of a die holds a port FENCED (R245, R479). -/
def State.heldFenced (s : State) (d k : Nat) : Bool :=
  (s.die d).fenceSelf || (match joinedDie d k with
    | some e => bit (s.die d).fenceOff e || (s.die e).fenceSelf
    | none => false)

/-- A write of 0 to FENCE where no fence holds the port (R245): DOWN, its replay buffer empty and its coding tables reset. The flits of its far end count afresh (log 72). -/
def State.unfencePort (s : State) (d k : Nat) : State :=
  let afresh (p : Port) : Port := { p with sent := 0, acked := 0, expected := 0, refusals := 0, nak := false, epoch := 0 }
  (s.modLink d k afresh).modPort d k (fun p => { p with state := 0, lanes := 0, retrain := false })

/-! ### Tables as a whole -/

/-- Every valid leaf under a table (R221 to R223): the address of its entry, the physical address it maps and its size. -/
def State.leavesUnder (s : State) : Nat → Nat → Nat → Bool → List (Nat × Nat × Nat)
  | 0, _, _, _ => []
  | fuel + 1, table, level, wide =>
    let shift := if level = 3 then (if wide then 16 else 12) else 39 - 9 * level
    (List.range (if wide then 32 else 512)).flatMap (fun k =>
      let entry := table + 8 * k
      let v := s.tableWord entry
      if !bit v 0 || pteBad v level (2 ^ shift) then []
      else
        let addr := bits v 51 12 * 4096
        if bits v 2 1 = 1 then [(entry, addr, 2 ^ shift)] else s.leavesUnder fuel addr (level + 1) (bits v 2 1 = 2))

/-- Every valid leaf of a context's tables, by the root that its ASID has, or will have when it receives one again (R165, R220). -/
def State.leavesOf (s : State) (x : Context) : List (Nat × Nat × Nat) :=
  if x.state = .dead then []
  else match x.asid with
    | none => s.leavesUnder 4 (x.root / 4096 * 4096 % 2 ^ 52) 0 false
    | some a =>
      let v := s.tableWord ((s.die x.die).walkRoot + 8 * a)
      if bit v 0 then s.leavesUnder 4 (bits v 51 12 * 4096) 0 false else []

/-! ### Fencing a die (R478 to R481) -/

/-- A context spans a die (R480): an image, a queue, a save area, a chain or a mapped granule of it is there. -/
def State.spans (s : State) (d ctx : Nat) (x : Context) : Bool :=
  s.cores.any (fun e => dieOf e.1 == d && (e.2.context == some ctx || e.2.shadow.any (fun i => i.context == ctx))) || x.areas.any (fun a => dieOf a.1 == d || paDie a.2 == d)
    || s.queues.any (fun q => q.2.context == ctx && q.2.die == d) || s.chains.any (fun c => c.2.context == ctx && (c.2.die == d || paDie c.1 == d))
    || (s.leavesOf x).any (fun l => paSpace l.2.1 == 0 && paDie l.2.1 == d)

/-- The images on a die are lost rather than spilled (R480). -/
def State.loseImages (s : State) (d : Nat) : State :=
  let old := s.saves
  let s := s.cores.foldl (fun s e => if dieOf e.1 = d then e.2.groups.foldl (fun s g => s.dropGroup e.1 g.1) s else s) s
  let areas := s.contexts.flatMap (fun x => (x.2.areas.filter (fun a => dieOf a.1 == d)).map Prod.snd)
  State.trimAreas { s with
    cores := s.cores.mapVal (fun c q => if dieOf c = d then ({ q with shadow := none } : Core).wakeSpill else q)
    saves := s.saves.keep (fun pa _ => !areas.contains pa) } old

/-- A die stops and is fenced, and its ports with it (R245, R303, R478, R480). -/
def State.stopDie (s : State) (d : Nat) : State :=
  if (s.die d).fenceSelf then s
  else
    let spanning := (s.contexts.filter (fun x => x.2.state != .dead && s.spans d x.1 x.2)).map Prod.fst
    let s := s.modDie d (fun q => { q with frozen := true, fenceSelf := true, fenceOff := q.fenceOff })
    let s := { s with dies := s.dies.mapVal (fun e q => if e = d then q else { q with routes := q.routes.set d (true, (q.routes.getD d (true, 0)).2) }) }
    let s := (List.range 6).foldl (fun s k => if ((s.die d).port k).state = 4 then s else s.dropPort d k 4) s
    let s := spanning.foldl (fun s c => s.failContext c 0x24) s
    (s.loseImages d).report d 3 d

/-- One die fences another off (R478, R479): its bit, its route and its port. -/
def State.fenceOff (s : State) (d off : Nat) : State :=
  if d = off ∨ 4 ≤ off ∨ 4 ≤ d ∨ (s.die d).fenceSelf then s
  else
    let s := s.modDie d (fun q => { q with fenceOff := q.fenceOff ||| 2 ^ off, routes := q.routes.set off (true, (q.routes.getD off (true, 0)).2) })
    let s := s.loseReads d [off]
    if ((s.die d).port (portTo d off)).state = 4 then s else s.dropPort d (portTo d off) 4

/-- A die is fenced off by every other die of the package that is not itself fenced. -/
def State.fencedOff (s : State) (off : Nat) : Bool := ([0, 1, 2, 3] : List Nat).all (fun e => e == off || (s.die e).fenceSelf || bit (s.die e).fenceOff off)

/-- A die is fenced by all the others (R478). -/
def State.fenceDie (s : State) (d : Nat) : State := (([0, 1, 2, 3] : List Nat).foldl (fun s e => s.fenceOff e d) s).stopDie d

/-- A Narrows port of a die passes traffic, or may yet, while it trains. -/
def State.mayPass (s : State) (d e : Nat) : Bool := let p := (s.die d).port (portTo d e); p.passes || p.state == 1

/-- Two dies of the package have neither their link nor a detour (R246, R478). -/
def State.apart (s : State) (d e : Nat) : Bool :=
  !(s.die d).fenceSelf && !(s.die e).fenceSelf && !s.mayPass d e && !([0, 1, 2, 3] : List Nat).any (fun x => x != d && x != e && s.mayPass d x && s.mayPass x e)

/-- The Narrows ports of a die that pass traffic, or may yet. -/
def State.linksOf (s : State) (d : Nat) : Nat := (([0, 1, 2, 3] : List Nat).filter (fun e => e != d && s.mayPass d e)).length

/-- A port goes to DOWN or FENCED, and a Narrows port that goes DOWN with no detour fences a die (R478): of the two, that with fewer links left, or the higher (log 128). -/
def State.linkLost (s : State) (d k state : Nat) : State :=
  let s := s.dropPort d k state
  match joinedDie d k with
  | some e => if s.apart d e then s.fenceDie (if s.linksOf d < s.linksOf e then d else if s.linksOf e < s.linksOf d then e else max d e) else s
  | none => s

/-- FENCE is written (R245): 1 fences the port at once; 0 lets it go to DOWN, unless a fence of a die holds it. -/
def State.fencePort (s : State) (d k : Nat) (fence : Bool) : State :=
  let s := s.modPort d k (fun p => { p with fence })
  if fence then if ((s.die d).port k).state = 4 then s else s.linkLost d k 4
  else if ((s.die d).port k).state = 4 && !s.heldFenced d k then s.unfencePort d k else s

/-- OFF of DIE_FENCE is written (R478, R479): each bit set anew, but the die's own, fences the port to its die; a die that every other die has fenced off stops. -/
def State.putFenceOff (s : State) (d v : Nat) : State :=
  (([0, 1, 2, 3] : List Nat).filter (fun e => bit v e && e != d && !bit (s.die d).fenceOff e)).foldl (fun s e =>
    let s := s.modDie d (fun q => { q with fenceOff := q.fenceOff ||| 2 ^ e })
    let s := if ((s.die d).port (portTo d e)).state = 4 then s else s.dropPort d (portTo d e) 4
    if s.fencedOff e then s.stopDie e else s) s

end Sys2Proof.Machine
end

