-- ==== Sys2Proof/Machine/Regs.lean ====
section
/-! DEFINITION. The registers: their access, their fields and what reading and writing them does (R110, R395, R429 to R432 of spec/, and the register tables of
every chapter). -/

namespace Sys2Proof.Machine

/-- A register by its place: of a flow's record, of a compute core, of a die, or at an offset of a die's device-register space (R110, R430). -/
inductive RegId where
  | wave (f : Flow) (n : Nat)
  | core (c n : Nat)
  | die (d n : Nat)
  | dev (d off : Nat)
  deriving DecidableEq, Repr

/-- Width, privilege to read and to write (0 user, 1 handler, 2 steward, 3 monitor, 4 none), and the fields by access: RW, W1C bit by bit, W1C
fields that a 1 in any bit clears, W1S (R431, R432). -/
structure RegSpec where
  width : Nat := 64
  read : Nat
  write : Nat
  rw : Nat := 0
  w1c : Nat := 0
  wipe : List (Nat × Nat) := []
  w1s : Nat := 0

/-- The mask of a field. -/
def fieldMask (hi lo : Nat) : Nat := (2 ^ (hi + 1 - lo) - 1) * 2 ^ lo

/-- The bits of TVEC that hold a field (R296). -/
def tvecMask : Nat := 2 ^ 63 + fieldMask 47 2

/-- The registers of a flow's record (R431); TVEC is written at monitor privilege on a steward core (R428). -/
def waveSpec (steward : Bool) (n : Nat) : Option RegSpec :=
  if n = 0x000 then some { width := 32, read := 0, write := 0, rw := 0x3F }
  else if n = 0x001 ∨ n = 0x002 then some { read := 0, write := 4 }
  else if 0x010 ≤ n ∧ n ≤ 0x01F then some { width := 32, read := 0, write := 4 }
  else if n = 0x041 then some { read := 1, write := 1, rw := fieldMask 51 48 + fieldMask 47 2 }
  else if n = 0x040 ∨ (0x042 ≤ n ∧ n ≤ 0x045) then some { read := 1, write := 2 }
  else if n = 0x046 then some { read := 1, write := if steward then 3 else 2, rw := tvecMask }
  else if n = 0x047 then some { read := 1, write := 1, rw := 2 ^ 64 - 1 }
  else none

/-- ERRLOG_k_STAT (R476). -/
def errStatSpec : RegSpec := { read := 2, write := 2, w1c := 2 ^ 63, wipe := [(31, 16)] }

/-- The registers of a compute core (R431). -/
def coreSpec (n : Nat) : Option RegSpec :=
  if n = 0x100 then some { width := 32, read := 2, write := 2, w1c := 2 ^ 26, w1s := 2 ^ 31 + 2 ^ 30 }
  else if n = 0x101 ∨ n = 0x102 then some { read := 2, write := 2, rw := fieldMask 51 16 }
  else if n = 0x103 then some { width := 32, read := 0, write := 2, wipe := [(23, 16)] }
  else if n = 0x104 then some { read := 0, write := 2, rw := 2 ^ 64 - 1 }
  else if 0x110 ≤ n ∧ n ≤ 0x114 then some { read := 0, write := 2, rw := fieldMask 39 0 }
  else if n = 0x115 then some { read := 0, write := 2 }
  else if 0x118 ≤ n ∧ n ≤ 0x11B then some { read := 0, write := 4 }
  else if 0x120 ≤ n ∧ n ≤ 0x13F then some { read := 1, write := 2, rw := 2 ^ 64 - 1 }
  else if n = 0x140 then some { read := 2, write := 2, rw := 2 ^ 63 + fieldMask 59 12 }
  else if n = 0x141 then some { read := 2, write := 2, rw := 2 ^ 63 + fieldMask 59 56 + fieldMask 51 12 }
  else if 0x180 ≤ n ∧ n ≤ 0x1BF then some (if n % 4 = 0 then errStatSpec else { read := 2, write := 2 })
  else if 0x1C0 ≤ n ∧ n ≤ 0x1CF then some { read := 2, write := 2, rw := fieldMask 63 56 + fieldMask 51 0 }
  else if 0x1D0 ≤ n ∧ n ≤ 0x1FF then some { read := 2, write := 2 }
  else none

/-- The registers of a die with a number (R431). -/
def dieSpec (d n : Nat) : Option RegSpec :=
  if n = 0x200 then some { width := 32, read := 2, write := 2, rw := fieldMask 23 0 }
  else if n = 0x201 then some { read := 2, write := 2, rw := fieldMask 51 16 }
  else if n = 0x202 then some { width := 32, read := 2, write := 2, rw := fieldMask 31 20 + fieldMask 15 0 }
  else if n = 0x203 then some { read := 2, write := 4 }
  else if n = 0x204 then some { read := 2, write := 2, rw := fieldMask 55 48, w1s := (List.range 4).foldl (fun m k => if k = d % 4 then m else m + 2 ^ k) 0 }
  else none

/-- NUM, DEN and IGRAN of the shipped routines (R277). -/
def shippedRoutine (n : Nat) : Option (Nat × Nat × Nat) :=
  [(1, 1, 5), (2, 1, 5), (2, 1, 5), (4, 1, 5), (2, 1, 5), (1, 1, 14), (0, 1, 5), (0, 1, 5), (1, 2, 5)][n]?

/-- CE_RTN_n of an engine (R273). -/
def Engine.routine (e : Engine) (n : Nat) : DWord :=
  match shippedRoutine n with
  | some (num, den, ig) => BitVec.ofNat 64 (2 ^ 63 + num * 4096 + den * 256 + ig)
  | none => e.routines.getD n 0

/-- CE_STAT.HELD (R274). -/
def Engine.held (e : Engine) : Bool := e.hold && e.call.isNone

/-- An engine of a die. -/
def Die.engine (q : Die) (e : Nat) : Engine := q.engines.getD e Engine.reset

/-- Change an engine of a die. -/
def State.modEngine (s : State) (d e : Nat) (g : Engine → Engine) : State :=
  s.modDie d (fun q => { q with engines := q.engines.set e (g (q.engine e)) })

/-- The registers at an offset of device-register space that have no number (R110); offsets not in the table read as zero and ignore writes. -/
def State.devSpec (s : State) (d off : Nat) : RegSpec :=
  if off = 0x00 then { width := 32, read := 0, write := 4 }
  else if off = 0x08 then { read := 0, write := 2, rw := fieldMask 11 0, wipe := [(47, 32)] }
  else if off = 0x10 then { width := 32, read := 0, write := 2, rw := 2 ^ 32 - 1 }
  else if 0x100 ≤ off ∧ off < 0x200 then { read := 0, write := 2, rw := 2 ^ 64 - 1 }
  else if 0x1000 ≤ off ∧ off < 0x1200 then { read := 0, write := 2, rw := 2 ^ 7 + 7 }
  else if 0x2000 ≤ off ∧ off < 0x2180 then
    match (off - 0x2000) % 0x40 with
    | 0x0 => { width := 32, read := 0, write := 4 }
    | 0x8 => { width := 32, read := 0, write := 2, rw := 6, w1s := 1 }
    | 0x10 => { read := 0, write := 2, wipe := [(63, 48)], w1c := fieldMask 47 0 }
    | _ => { read := 0, write := 0 }
  else if 0x300000 ≤ off ∧ off < 0x300200 then if off % 0x20 = 0 then errStatSpec else { read := 2, write := 2 }
  else if 0x400000 ≤ off ∧ off < 0x600000 then
    let o := (off - 0x400000) % 0x20000
    let e := (s.die d).engine ((off - 0x400000) / 0x20000)
    if o = 0 then { width := 32, read := 0, write := 2, rw := 1 }
    else if o = 8 then { width := 32, read := 0, write := 2, wipe := [(31, 16)] }
    else if 0x100 ≤ o ∧ o < 0x300 then
      { read := 0, write := 2, rw := if e.held && 0x148 ≤ o then 2 ^ 63 + fieldMask 47 8 + fieldMask 3 0 else 0 }
    else if 0x10000 ≤ o then { read := 0, write := 2, rw := if e.held then 2 ^ 64 - 1 else 0 }
    else { read := 0, write := 0 }
  else if 0x1000000 ≤ off ∧ off < 0x1000000 + 4 * 8388608 then { width := 32, read := 2, write := 2, rw := 0xC }
  else { read := 0, write := 0 }

/-- The register that an offset of device-register space names (R110, R430). -/
def devReg (d off : Nat) : RegId :=
  if 0x100000 ≤ off ∧ off < 0x140000 ∧ off % 0x1000 < 0x800 then .core (64 * d + (off - 0x100000) / 0x1000) (0x100 + off % 0x1000 / 8)
  else if 0x200000 ≤ off ∧ off < 0x200800 then .die d (0x200 + (off - 0x200000) / 8)
  else .dev d off

/-- Privileges, widths and fields of a register; none for a number not in the table (R431). -/
def State.regSpec (s : State) (r : RegId) : Option RegSpec :=
  match r with
  | .wave f n => waveSpec (isSteward f) n
  | .core _ n => coreSpec n
  | .die d n => dieSpec d n
  | .dev d off => some (s.devSpec d off)

/-! ### Reading -/

/-- WSTAT (R67). -/
def Wstat.value (w : Wstat) : Nat := b2n w.inv + 2 * b2n w.dz + 4 * b2n w.ovf + 8 * b2n w.unf + 16 * b2n w.inx + 32 * b2n w.scope

/-- WSTAT from its bits. -/
def Wstat.ofNat (v : Nat) : Wstat := { inv := bit v 0, dz := bit v 1, ovf := bit v 2, unf := bit v 3, inx := bit v 4, scope := bit v 5 }

/-- Stages issued and not wholly landed (R122): those that have failed are among them until the window is unbound. -/
def Binding.inflight (b : Binding) : Nat := (b.stages.filter (fun e => e.2.landed.length < e.2.sectors)).length

/-- Stages in progress: issued, neither wholly landed nor ended (R271). -/
def Binding.jobs (b : Binding) : Nat := (b.stages.filter (fun e => e.2.landed.length < e.2.sectors && e.2.failed.isNone)).length

/-- PDEPTH of a window (R122): DMIN and DMAX are those of its region entry, read at the binding (byte 56 of the entry). INFLIGHT can pass the 8 that the table
gives it: its four bits then hold up to 15 (DESIGN CHOICE, log 131). -/
def Group.pdepth (g : Group) (win : Nat) : Nat :=
  match (g.windows.get win).bind (fun w => w.bound) with
  | none => 0
  | some b => min b.unused 3 * 65536 + min b.inflight 15 * 4096 + b.dmax % 16 * 256 + b.dmin % 16 * 16 + b.depth % 16

/-- MSTAT of an accumulator (R264). -/
def Matrix.mstat (m : Matrix) (k : Nat) : Nat :=
  let a := m.accs.getD k Acc.reset
  a.version % 2 ^ 32 * 2 ^ 32 + min a.replay.length 16 * 2 ^ 27 + b2n a.noReplay * 2 ^ 26 + b2n a.unchecked * 2 ^ 25 + b2n a.mismatch * 2 ^ 24
    + b2n a.clsBit * 2 ^ 23 + a.fmtSeen % 64 * 2 ^ 16 + min (m.queue.filter (fun o => o.acc == k)).length 8 * 256 + a.retries % 256

/-- GRPCNT (R196). -/
def Launch.grpcnt (l : Launch) : Nat := l.placed % 2 ^ 32 * 2 ^ 32 + l.count % 2 ^ 32

/-- RSTK of a wave for the lowest lane of the issuing run (R305). -/
def Wave.rstk (w : Wave) (lane : Nat) : Nat := w.spills % 2 ^ 32 * 2 ^ 32 + min w.maxDepth 65535 * 65536 + min (w.depth.getD lane 0) 65535

/-- A register of a flow's record, for the lowest lane of the issuing run. -/
def State.waveReg (s : State) (f : Flow) (n lane : Nat) : Nat :=
  match s.flow? f with
  | none => 0
  | some w =>
    if n = 0x000 then w.wstat.value
    else if n = 0x001 then w.rstk lane
    else if n = 0x002 then if isSteward f then 0 else ((s.launchOf w).map Launch.grpcnt).getD 0
    else if n < 0x020 then ((s.groupOf f).map (fun g => g.2.2.pdepth (n - 0x010))).getD 0
    else match n with
      | 0x040 => w.trap.cause.toNat
      | 0x041 => w.trap.pc.toNat
      | 0x042 => if isSteward f then 1 else w.trap.mask.toNat
      | 0x043 => w.trap.addr.toNat
      | 0x044 => w.trap.site0.toNat
      | 0x045 => w.trap.site1.toNat
      | 0x046 => (s.tvecOf f).toNat
      | 0x047 => w.scratch.toNat
      | _ => 0

/-- Global barriers for which a core's unit holds an entry (R216). -/
def Core.globalEntries (q : Core) : Nat :=
  ((q.waves.filterMap (fun e => match e.2.park with
    | some (.globalBarrier pa _ true) => some pa
    | _ => none)).dedup).length

/-- Armed scratchpad barriers of a core (R216). -/
def Core.spadEntries (q : Core) : Nat := q.groups.foldl (fun n e => n + e.2.barriers.length) 0

/-- An error log's register j: STAT, ADDR, SITE_0, SITE_1 (R476). -/
def ErrLog.part (e : ErrLog) (j : Nat) : Nat :=
  match j with
  | 0 => e.stat.toNat
  | 1 => e.addr.toNat
  | 2 => e.site0.toNat
  | _ => e.site1.toNat

/-- A register of a compute core. `g` is the group slot whose wave reads; none for a steward flow and for device-register space. SPILLBUSY of CTX_STAT reads 1 for as long as the
shadow bank holds an image: when a spill begins is left open (DESIGN CHOICE, log 132). -/
def State.coreReg (s : State) (c n : Nat) (g : Option Nat) : Nat :=
  let q := s.core c
  if n = 0x100 then
    b2n (q.swapAsked || q.swapping) * 2 ^ 31 + b2n q.restoring * 2 ^ 30 + b2n q.shadow.isSome * 2 ^ 29 + b2n q.restoring * 2 ^ 28
      + b2n q.shadow.isSome * 2 ^ 27 + b2n q.rfail * 2 ^ 26 + ((q.shadow.map (fun i => i.asid)).getD 0) % 1024 * 2 ^ 16
      + (if q.context.isSome then q.asid % 1024 else 0)
  else if n = 0x101 then q.savePa
  else if n = 0x102 then q.restorePa
  else if n = 0x103 then min q.fulls 255 * 65536 + min q.globalEntries 64 * 256 + min q.spadEntries 64
  else if n = 0x104 then q.splitOvf.toNat
  else if n ≤ 0x114 then q.mtolRel.getD (n - 0x110) 14 % 256 * 2 ^ 32 + (q.mtolAbs.getD (n - 0x110) 0x00800000).toNat
  else if n = 0x115 then 0
  else if n ≤ 0x11B then
    let a := n - 0x118
    match g with
    | none => q.matrix.mstat a
    | some g => if (q.matrix.accs.getD a Acc.reset).owner = some g then q.matrix.mstat a else 0
  else if n ≤ 0x13F then
    let v := q.watches.getD ((n - 0x120) / 2) 0
    if n % 2 = 0 then v % 2 ^ 64 else v / 2 ^ 64
  else if n = 0x140 then q.trailCtl.toNat
  else if n = 0x141 then q.traceCtl.toNat
  else if n < 0x1C0 then (q.errLogs.getD ((n - 0x180) / 4) ErrLog.reset).part (n % 4)
  else if n < 0x1D0 then (q.errInj.getD (n - 0x1C0) 0).toNat
  else 0

/-- A register of a die with a number. -/
def State.dieReg (s : State) (d n : Nat) : Nat :=
  let q := s.die d
  match n with
  | 0x200 => b2n q.drain.isSome * 2 ^ 31 + q.placeBound % 2 ^ 24
  | 0x201 => q.walkRoot
  | 0x202 => q.tierUp % 64 * 2 ^ 26 + q.tierDown % 64 * 2 ^ 20 + q.tierEpoch % 65536
  | 0x203 => q.tierOut % 2 ^ 32 * 2 ^ 32 + q.tierIn % 2 ^ 32
  | 0x204 => b2n q.fenceSelf * 2 ^ 63 + q.fenceCause % 256 * 2 ^ 48 + q.fenceOff % 16
  | _ => 0

/-- LNK_STAT (R251). -/
def Port.stat (p : Port) : Nat := (if p.state = 2 ∨ p.state = 3 then p.lanes % 16 else 0) * 16 + b2n p.detour * 8 + p.state % 8

/-- Stages of the windows of an engine's cohort in progress (R271). -/
def State.stageJobs (s : State) (d e : Nat) : Nat :=
  (s.cores.filter (fun c => dieOf c.1 == d && c.1 % 64 / 4 == e)).foldl (fun n c =>
    c.2.groups.foldl (fun n g => g.2.windows.foldl (fun n w => n + ((w.2.bound).map Binding.jobs).getD 0) n) n) 0

/-- Jobs in progress on an engine (R274): stages of its cohort's windows and entries of its chains. -/
def State.jobs (s : State) (d e : Nat) : Nat :=
  min 8 (s.stageJobs d e + (s.chains.filter (fun c => c.2.die == d && c.2.engine == e && c.2.running.isSome)).length)

/-- A tier-map entry (R231). -/
def Granule.value (g : Granule) : Nat :=
  min g.count 63 * 2 ^ 26 + (if g.inHbm then g.frame % 2 ^ 21 else 0) * 32 + b2n g.dirty * 16 + b2n g.pinC * 8 + b2n g.pinH * 4 + b2n g.mig * 2 + b2n g.inHbm

/-- A register of device-register space that has no number. -/
def State.devValue (s : State) (d off : Nat) : Nat :=
  let q := s.die d
  if off = 0x00 then 0x04040011
  else if off = 0x08 then min q.lowered 65535 * 2 ^ 32 + q.clock % 4096 * 2 ^ 20 + q.capW % 4096
  else if off = 0x10 then 0
  else if 0x100 ≤ off ∧ off < 0x200 then natOfBytes (Memory.read q.mailbox (off - 0x100) 8)
  else if 0x1000 ≤ off ∧ off < 0x1200 then
    let k := (off - 0x1000) / 8
    let (un, port) := q.routes.getD k (k != d, 0)
    b2n un * 128 + b2n (k == d) * 64 + port % 8
  else if 0x2000 ≤ off ∧ off < 0x2180 then
    let p := q.ports.getD ((off - 0x2000) / 0x40) Port.reset
    match (off - 0x2000) % 0x40 with
    | 0x0 => p.stat
    | 0x8 => b2n p.coding * 4 + b2n p.fence * 2 + b2n p.retrain
    | 0x10 => min p.crcErr 65535 * 2 ^ 48 + min p.retrains 65535 * 2 ^ 32 + min p.degrades 255 * 2 ^ 24 + p.saved / 1024 % 2 ^ 24
    | _ => 0
  else if 0x300000 ≤ off ∧ off < 0x300200 then (q.errLogs.getD ((off - 0x300000) / 0x20) ErrLog.reset).part (off % 0x20 / 8)
  else if 0x400000 ≤ off ∧ off < 0x600000 then
    let o := (off - 0x400000) % 0x20000
    let k := (off - 0x400000) / 0x20000
    let e := q.engine k
    if o = 0 then b2n e.hold
    else if o = 8 then min e.rfaults 65535 * 65536 + s.jobs d k * 256 + b2n e.held
    else if 0x100 ≤ o ∧ o < 0x300 then (e.routine ((o - 0x100) / 8)).toNat
    else if 0x10000 ≤ o then natOfBytes (Memory.read e.store (o - 0x10000) 8)
    else 0
  else if 0x1000000 ≤ off ∧ off < 0x1000000 + 4 * 8388608 then (q.tiers.getD ((off - 0x1000000) / 4) Granule.reset).value
  else 0

/-- The value of a register. -/
def State.readReg (s : State) (r : RegId) (lane : Nat) (g : Option Nat) : Nat :=
  match r with
  | .wave f n => s.waveReg f n lane
  | .core c n => s.coreReg c n g
  | .die d n => s.dieReg d n
  | .dev d off => s.devValue d off

/-! ### Writing -/

/-- The ways to write (R432). -/
inductive RegOp where
  | write
  | set
  | clear
  deriving DecidableEq, Repr

/-- What a register's fields become from what a write brings, for the bits of `half` (R395, R432). -/
def RegSpec.written (p : RegSpec) (op : RegOp) (old a half : Nat) : Nat :=
  let rw := p.rw &&& half
  let on := a &&& half
  match op with
  | .clear => old - ((old &&& rw) &&& on)
  | _ =>
    let v := match op with
      | .write => (old - (old &&& rw)) ||| (on &&& rw)
      | _ => old ||| (on &&& rw)
    let v := v - (v &&& (on &&& p.w1c))
    let v := p.wipe.foldl (fun v x => if on &&& fieldMask x.1 x.2 = 0 then v else v - (v &&& fieldMask x.1 x.2)) v
    v ||| (on &&& p.w1s)

/-- The bits that a write sets to 1 among the W1S fields. -/
def RegSpec.setBits (p : RegSpec) (op : RegOp) (a half : Nat) : Nat := if op = .clear then 0 else a &&& half &&& p.w1s

/-- Write a register of a flow's record. -/
def State.putWave (s : State) (f : Flow) (n v : Nat) : State :=
  match n with
  | 0x000 => s.modFlow f (fun w => { w with wstat := Wstat.ofNat v })
  | 0x041 => s.modFlow f (fun w => { w with trap := { w.trap with pc := BitVec.ofNat 64 v } })
  | 0x046 => match f with
    | .wave c _ => match (s.core c).context with
      | some x => s.modContext x (fun k => { k with tvec := BitVec.ofNat 64 v })
      | none => s
    | .steward d t => s.modDie d (fun q => { q with tvecs := q.tvecs.set t (BitVec.ofNat 64 v) })
  | 0x047 => s.modFlow f (fun w => { w with scratch := BitVec.ofNat 64 v })
  | _ => s

/-- An error log whose STAT takes a value; clearing V clears UE and OVF (R476). -/
def ErrLog.putStat (e : ErrLog) (v : Nat) : ErrLog :=
  { e with stat := BitVec.ofNat 64 (if bit v 63 then v else v - (v &&& (2 ^ 62 + 2 ^ 61))) }

/-- Write the trail records that a core holds to its buffer in memory (R462). -/
def State.flushTrail (s : State) (c : Nat) : State :=
  let q := s.core c
  let base := bits q.trailCtl.toNat 51 12 * 4096
  let slots := 2 ^ (bits q.trailCtl.toNat 59 56 + 7)
  let s := (q.trailBuf.zip (List.range q.trailBuf.length)).foldl (fun s e => s.poke (base + 32 * ((q.trailWritten + e.2) % slots)) e.1 false none) s
  s.modCore c (fun q => { q with trailBuf := [], trailWritten := q.trailWritten + q.trailBuf.length })

/-- TRAIL_CTL (R459, R462): EN set restarts SERIAL, EN cleared writes the buffer, and a SIZE above 8 leaves EN at 0. -/
def State.putTrail (s : State) (c v : Nat) : State :=
  let was := (s.core c).trailCtl.getLsbD 63
  let v := if 8 < bits v 59 56 && bit v 63 then v - 2 ^ 63 else v
  let s := if was && !bit v 63 then s.flushTrail c else s
  s.modCore c (fun q =>
    let q := { q with trailCtl := BitVec.ofNat 64 v }
    let q := { q with trailTags := if bit v 63 && was then q.trailTags else [] }
    if bit v 63 && !was then { q with trailSerial := 0, trailWritten := 0, trailBuf := [] } else q)

/-- TRACE_CTL (R463, R466): EN set counts P from 0, and EN cleared ends the stream with END. -/
def State.putTrace (s : State) (c v : Nat) : State :=
  let was := (s.core c).traceCtl.getLsbD 63
  let v := if 8 < bits v 59 56 && bit v 63 then v - 2 ^ 63 else v
  let s := if was && !bit v 63 then s.traceEnd c 0x06 else s
  s.modCore c (fun q =>
    let q := { q with traceCtl := BitVec.ofNat 64 v }
    if bit v 63 && !was then { q with tracePos := 0, waves := q.waves.mapVal (fun _ w => { w with traceFrame := none }) } else q)

/-- CTX_STAT (R174 to R176): SWAP latches SAVE_PA; RESTORE is ignored while an image is resident or a swap is pending. -/
def Core.putCtxStat (q : Core) (v sets : Nat) : Core :=
  let q := { q with rfail := bit v 26 }
  let q := if bit sets 31 && !q.swapAsked && !q.swapping then { q with swapAsked := true, swapTo := q.savePa } else q
  if bit sets 30 && q.context.isNone && !q.swapAsked && !q.swapping && !q.restoring then { q with restoring := true, restoreFrom := q.restorePa } else q

/-- Write a register of a compute core. `sets` are the W1S bits written 1. -/
def State.putCore (s : State) (c n v sets : Nat) : State :=
  if n = 0x100 then s.modCore c (fun q => q.putCtxStat v sets)
  else if n = 0x101 then s.modCore c (fun q => { q with savePa := v })
  else if n = 0x102 then s.modCore c (fun q => { q with restorePa := v })
  else if n = 0x103 then s.modCore c (fun q => { q with fulls := bits v 23 16 })
  else if n = 0x104 then s.modCore c (fun q => { q with splitOvf := BitVec.ofNat 64 v })
  else if 0x110 ≤ n ∧ n ≤ 0x114 then
    s.modCore c (fun q => { q with mtolRel := q.mtolRel.set (n - 0x110) (bits v 39 32), mtolAbs := q.mtolAbs.set (n - 0x110) (BitVec.ofNat 32 v) })
  else if 0x120 ≤ n ∧ n ≤ 0x13F then
    s.modCore c (fun q =>
      let k := (n - 0x120) / 2
      let old := q.watches.getD k 0
      let w := if n % 2 = 0 then old / 2 ^ 64 * 2 ^ 64 + v else v * 2 ^ 64 + old % 2 ^ 64
      { q with watches := if w = 0 then q.watches.del k else q.watches.set k w })
  else if n = 0x140 then s.putTrail c v
  else if n = 0x141 then s.putTrace c v
  else if 0x180 ≤ n ∧ n < 0x1C0 ∧ n % 4 = 0 then
    let k := (n - 0x180) / 4
    s.modCore c (fun q => { q with errLogs := q.errLogs.set k ((q.errLogs.getD k ErrLog.reset).putStat v) })
  else if 0x1C0 ≤ n ∧ n < 0x1D0 then s.modCore c (fun q => { q with errInj := q.errInj.set (n - 0x1C0) (BitVec.ofNat 64 v) })
  else s

/-- Write a register of a die with a number. -/
def State.putDie (s : State) (d n v : Nat) : State :=
  match n with
  | 0x200 => s.modDie d (fun q => { q with placeBound := v % 2 ^ 24 })
  | 0x201 => s.modDie d (fun q => { q with walkRoot := v })
  | 0x202 => s.modDie d (fun q => { q with tierUp := bits v 31 26, tierDown := bits v 25 20, tierEpoch := bits v 15 0 })
  | 0x204 => (s.modDie d (fun q => { q with fenceCause := bits v 55 48 })).putFenceOff d v
  | _ => s

/-- The power cap as a write leaves it (R498). -/
def clampCap (v : Nat) : Nat := max 600 (min 2400 v)

/-- A record of the host mailbox given to the firmware: its byte OWNER is written 1 (R185). -/
def mailboxRaised (bs : List Byte) (lo half : Nat) : Bool := lo % 32 == 24 && bit half 8 && bs[1]? == some 1

/-- Write a register of device-register space that has no number. `half` tells which bytes a store reaches. -/
def State.putDev (s : State) (d off v half sets : Nat) : State :=
  if off = 0x08 then s.modDie d (fun q => { q with capW := if half &&& 0xFFF = 0 then q.capW else clampCap (bits v 11 0), lowered := bits v 47 32 })
  else if off = 0x10 then if half &&& 0xFFF = 0 then s else s.raiseEvent d 0
  else if 0x100 ≤ off ∧ off < 0x200 then
    let bs := bytesOfNat 8 v
    let s := s.modDie d (fun q => { q with mailbox := Memory.write q.mailbox (off - 0x100) bs })
    if mailboxRaised bs (off - 0x100) half then s.raiseEvent d 0 else s
  else if 0x1000 ≤ off ∧ off < 0x1200 then s.modDie d (fun q => { q with routes := q.routes.set ((off - 0x1000) / 8) (bit v 7, v % 8) })
  else if 0x2000 ≤ off ∧ off < 0x2180 then
    let k := (off - 0x2000) / 0x40
    match (off - 0x2000) % 0x40 with
    | 0x8 =>
      let s := (s.modPort d k (fun p => { p with coding := bit v 2, retrain := p.retrain || bit sets 0 })).fencePort d k (bit v 1)
      if bit sets 0 then s.trainLink d k else s
    | 0x10 => s.modPort d k (fun p => { p with crcErr := bits v 63 48, retrains := bits v 47 32, degrades := bits v 31 24, saved := bits v 23 0 * 1024 + p.saved % 1024 })
    | _ => s
  else if 0x300000 ≤ off ∧ off < 0x300200 ∧ off % 0x20 = 0 then
    let k := (off - 0x300000) / 0x20
    s.modDie d (fun q => { q with errLogs := q.errLogs.set k ((q.errLogs.getD k ErrLog.reset).putStat v) })
  else if 0x400000 ≤ off ∧ off < 0x600000 then
    let o := (off - 0x400000) % 0x20000
    s.modEngine d ((off - 0x400000) / 0x20000) (fun e =>
      if o = 0 then { e with hold := bit v 0 }
      else if o = 8 then { e with rfaults := bits v 31 16 }
      else if 0x148 ≤ o ∧ o < 0x300 then if e.held then { e with routines := e.routines.set ((o - 0x100) / 8) (BitVec.ofNat 64 v) } else e
      else if 0x10000 ≤ o then if e.held then { e with store := Memory.write e.store (o - 0x10000) (bytesOfNat 8 v) } else e
      else e)
  else if 0x1000000 ≤ off ∧ off < 0x1000000 + 4 * 8388608 then
    let g := (off - 0x1000000) / 4
    s.modDie d (fun q =>
      let t := { q.tiers.getD g Granule.reset with pinC := bit v 3, pinH := bit v 2 }
      { q with tiers := if t = Granule.reset then q.tiers.del g else q.tiers.set g t })
  else s

/-- Write a register (R432): `half` is the mask of the bits that the access reaches. A number not in the table is left alone. -/
def State.writeReg (s : State) (r : RegId) (op : RegOp) (a half : Nat) : State :=
  match s.regSpec r with
  | none => s
  | some p =>
    let half := half &&& (2 ^ p.width - 1)
    let v := p.written op (s.readReg r 0 none) a half
    let sets := p.setBits op a half
    match r with
    | .wave f n => s.putWave f n v
    | .core c n => s.putCore c n v sets
    | .die d n => s.putDie d n v
    | .dev d off => s.putDev d off v half sets

/-! ### Memory-mapped access (R395) -/

/-- The register that an access reaches, and whether the access is to the upper half of it. A tier-map entry stands at each multiple of 4. -/
def reachedReg (pa bytes : Nat) : RegId × Bool :=
  let off := paOffset pa
  if 0x1000000 ≤ off then (.dev (paDie pa) (off / 4 * 4), false)
  else (devReg (paDie pa) (off / 8 * 8), bytes == 4 && off % 8 == 4)

/-- A load from device-register space. -/
def State.devLoad (s : State) (pa bytes : Nat) : List Byte :=
  let (r, high) := reachedReg pa bytes
  match s.regSpec r with
  | none => bytesOfNat bytes 0
  | some _ => let v := s.readReg r 0 none; bytesOfNat bytes (if high then v / 2 ^ 32 else v)

/-- A store to device-register space. -/
def State.devStore (s : State) (pa : Nat) (bs : List Byte) : State :=
  let (r, high) := reachedReg pa bs.length
  let a := natOfBytes bs
  if high then s.writeReg r .write (a * 2 ^ 32) (fieldMask 63 32)
  else s.writeReg r .write a (if bs.length = 4 then fieldMask 31 0 else 2 ^ 64 - 1)

/-- The privilege of a flow: user, handler, steward (R414). -/
def Wave.privilege (w : Wave) (f : Flow) : Nat := if isSteward f then 2 else if w.handler then 1 else 0

/-- An access to device-register space below the privilege of its register (R431). -/
def State.devRefuses (s : State) (pa bytes priv : Nat) (write : Bool) : Bool :=
  match s.regSpec (reachedReg pa bytes).1 with
  | none => false
  | some p => if write then p.write ≤ 3 && priv < p.write else priv < p.read

end Sys2Proof.Machine
end

