-- ==== Sys2Proof/Machine/Server.lean ====
section
/-! DEFINITION. Region walks, the geometry of windows, and the barrier server: counts, phase completion and what follows from it (R50, R114, R115 to R122 of
spec/06_memory_as_programs_see_it.md, R210 to R219 of spec/13_barrier.md). -/

namespace Sys2Proof.Machine

/-! ### Region entries (R115) -/

/-- A two's complement number of n bits. -/
def signed (n v : Nat) : Int := if v % 2 ^ n < 2 ^ (n - 1) then (v % 2 ^ n : Nat) else (v % 2 ^ n : Nat) - (2 ^ n : Nat)

/-- A region entry's fields. -/
structure Region where
  base : Nat
  pitch : Int
  rowBytes : Nat
  rows : Nat
  ext1 : Nat
  ext2 : Nat
  stride1 : Int
  stride2 : Int
  barrier : Nat
  dmin : Nat
  dmax : Nat
  routine : Nat
  comp : Nat
  /-- Reserved fields hold zero. -/
  clean : Bool

/-- A field of a byte string, in bytes. -/
def field (bs : List Byte) (a n : Nat) : Nat := natOfBytes ((bs.drop a).take n)

/-- Read a region entry. -/
def regionOf (bs : List Byte) : Region :=
  { base := field bs 0 8, pitch := signed 32 (field bs 8 4), rowBytes := field bs 12 4, rows := field bs 16 4, ext1 := field bs 20 4, ext2 := field bs 24 4,
    stride1 := signed 64 (field bs 32 8), stride2 := signed 64 (field bs 40 8), barrier := field bs 48 8, dmin := field bs 56 1 % 16,
    dmax := field bs 56 1 / 16, routine := field bs 57 1 % 64, comp := field bs 58 1 % 4,
    clean := field bs 28 4 == 0 && field bs 57 1 / 64 == 0 && field bs 58 1 / 4 == 0 && field bs 59 5 == 0 }

/-- E: the stages of a walk (R117). -/
def Region.stages (r : Region) : Nat := r.ext1 * r.ext2

/-- `src(s, r)` (R117), modulo 2^64 (R6). -/
def Region.source (r : Region) (base stage row : Nat) : Nat :=
  (((base + r.base : Nat) + (stage % r.ext1 : Nat) * r.stride1 + (stage / r.ext1 : Nat) * r.stride2 + (row : Nat) * r.pitch) % (2 ^ 64 : Nat)).toNat

/-- The address of a byte of a stage's source, counted in row order. -/
def Region.sourceByte (r : Region) (base stage k : Nat) : Nat := r.source base stage (k / r.rowBytes) + k % r.rowBytes

/-- The barrier that a region entry names (R115). -/
inductive RegionBarrier where
  | none
  | spad (off : Nat)
  | global (va : Nat)
  deriving DecidableEq, Repr

/-- BARRIER of a region entry. -/
def Region.bar (r : Region) : RegionBarrier :=
  if r.barrier = 0 then .none else if bit r.barrier 63 then .spad (r.barrier % 2 ^ 24) else .global r.barrier

/-! ### Windows in the allocation (R112, R117) -/

/-- A window's place: its offset and raw tiles, and its physical budget in tiles. -/
structure WinPlace where
  base : Nat
  raw : Nat
  budget : Nat
  deriving DecidableEq, Repr

/-- The places of a record's windows, which come first in the allocation. -/
def placeWindows : List (Nat × Nat) → Nat → List WinPlace
  | [], _ => []
  | (budget, raw) :: ws, base => { base, raw, budget } :: placeWindows ws (base + raw * 4096)

/-- The place of a window that the record declares. -/
def Record.place (r : Record) (win : Nat) : Option WinPlace := (placeWindows r.windows 0)[win]?

/-- The window that holds an offset. -/
def Record.windowAt (r : Record) (off : Nat) : Option (Nat × WinPlace) :=
  ((placeWindows r.windows 0).zip (List.range r.windows.length)).findSome? (fun e =>
    if e.1.base ≤ off && off < e.1.base + e.1.raw * 4096 then some (e.2, e.1) else none)

/-- The bytes of a group's allocation. -/
def Record.allocation (r : Record) : Nat := r.tiles * 4096

/-- Slot tiles of a landed size. -/
def slotTiles (size : Nat) : Nat := (size + 4095) / 4096

/-- N: the slots of a window (R117). -/
def WinPlace.slots (p : WinPlace) (size : Nat) : Nat := if size = 0 then 0 else p.raw / slotTiles size

/-- The window offset of a stage's slot. -/
def Binding.slotOff (b : Binding) (p : WinPlace) (stage : Nat) : Nat := p.base + stage % p.slots b.size * (slotTiles b.size * 4096)

/-- A window is compressed when its raw tiles exceed its budget (R126). -/
def WinPlace.compressed (p : WinPlace) : Bool := p.budget < p.raw

/-- The record of a group's launch. -/
def State.recordOf (s : State) (g : Group) : Record := ((s.launches.get g.launch).map (fun l => l.record)).getD
  { replay := false, narrow := false, interlocked := false, gang := 0, tiles := 0, windows := [], stackSize := 0, entry := 0, init := [], regions := [],
    stack := 0, writeSet := [], trigAddr := 0, trigVal := 0, levels := [], ranks := [] }

/-! ### Coded tiles (R129) -/

/-- Granules that a window's tiles hold. -/
def Window.granules (w : Window) : Nat := w.tiles.foldl (fun n e => n + e.2.len) 0

/-- Every tile packed in rising order of tile (R129). -/
def compactTiles : Tab TileEntry → Nat → Tab TileEntry
  | [], _ => []
  | (k, e) :: t, off => (k, { e with offset := off }) :: compactTiles t (off + e.len)

/-- A place for a length among tiles that stand in a budget: the least granule offset at which it is free. -/
def freePlace (t : Tab TileEntry) (len limit : Nat) : Option Nat :=
  ((0 :: t.map (fun e => e.2.offset + e.2.len)).filter (fun o =>
    o + len ≤ limit && t.all (fun e => e.2.offset + e.2.len ≤ o || o + len ≤ e.2.offset))).min?

/-- Store a tile's entry: in place where it is no longer than before, else in free granules, after a compaction where it must (R129). None: it does not fit. -/
def Window.putTile (w : Window) (p : WinPlace) (tile : Nat) (uncoded : Bool) (len : Nat) : Option Window :=
  let limit := p.budget * 128
  let old := w.tiles.get tile
  match old.bind (fun e => if len ≤ e.len then some e.offset else none) with
  | some o => some { w with tiles := w.tiles.set tile { uncoded, len, offset := o } }
  | none =>
    let rest := w.tiles.del tile
    match freePlace rest len limit with
    | some o => some { w with tiles := rest.set tile { uncoded, len, offset := o } }
    | none =>
      let packed := compactTiles rest 0
      let used := packed.foldl (fun n e => n + e.2.len) 0
      if used + len ≤ limit then some { w with tiles := packed.set tile { uncoded, len, offset := used } } else none

/-! ### Barriers (R210 to R216) -/

/-- A barrier by its place: a core, group slot and offset, or a physical address (R210). -/
inductive BarId where
  | spad (core g off : Nat)
  | global (pa : Nat)
  deriving DecidableEq, Repr

/-- The armed barrier at a place (R212). -/
def State.bar? (s : State) (id : BarId) : Option Barrier :=
  match id with
  | .spad c g off => (s.group? c g).bind (fun q => q.barriers.get off)
  | .global pa => (s.globals.get pa).map (fun x => x.barrier)

/-- The 128 bits of a barrier (R211). -/
def Barrier.value (b : Barrier) (armed : Bool) : Nat :=
  b2n armed * 2 ^ 127 + b.scope * 2 ^ 124 + b2n b.tx * 2 ^ 122 + b2n b.ovf * 2 ^ 121 + b.phase % 2 ^ 24 * 2 ^ 96 + (b.pendSec % (2 ^ 32 : Nat)).toNat * 2 ^ 64
    + b.initArr % 65536 * 2 ^ 48 + b.pendArr % 65536 * 2 ^ 32

/-- The server writes a barrier's state to its 16 bytes (R212), which then carry no release and no poison. -/
def State.barBytes (s : State) (id : BarId) (b : Barrier) (armed : Bool) : State :=
  match id with
  | .spad c g off => s.modGroup c g (fun q => { q with
      spad := Memory.write q.spad off (bytesOfNat 16 (b.value armed))
      spadTags := tagBytes q.spadTags off 16 false none
      poison := q.poison.filter (fun k => !(off ≤ 4 * k && 4 * k < off + 16)) })
  | .global pa => s.poke pa (bytesOfNat 16 (b.value armed)) false none

/-- Set an armed barrier's fields; `site` is that of the instruction or landing that causes it. -/
def State.setBar (s : State) (id : BarId) (b : Barrier) (site : Site) : State :=
  let s := match id with
    | .spad c g off => (s.modGroup c g (fun q => { q with barriers := q.barriers.set off b })).unitWritten c g off site
    | .global pa => { s with globals := s.globals.upd pa (fun x => { x with barrier := b }) }
  s.barBytes id b true

/-- PEND_SEC changed by a number, saturating with OVF (R215). -/
def Barrier.addSec (b : Barrier) (n : Int) : Barrier :=
  let v := b.pendSec + n
  let hi : Int := (2 ^ 31 : Nat) - 1
  if v < -(2 ^ 31 : Nat) then { b with pendSec := -(2 ^ 31 : Nat), ovf := true }
  else if hi < v then { b with pendSec := hi, ovf := true }
  else { b with pendSec := v }

/-- The barrier that a binding counts against. -/
def Binding.barId (b : Binding) (core g : Nat) : Option BarId :=
  match (regionOf b.region).bar with
  | .none => none
  | .spad off => some (.spad core g off)
  | .global _ => b.barrierPa.map .global

/-- The phase of a stage (R215). -/
def Binding.phaseOf (b : Binding) (stage : Nat) : Nat := (b.p0 + stage) % 2 ^ 24

/-- The phase of a stage has begun, as of the barrier's PHASE. -/
def Binding.begun (b : Binding) (phase stage : Nat) : Bool := (phase + 2 ^ 24 - b.phaseOf stage) % 2 ^ 24 < 2 ^ 23

/-- Sectors of a stage that have not landed. -/
def Stage.unlanded (t : Stage) : Nat := t.sectors - t.landed.length

/-- A scratchpad byte that an armed barrier's server owns (R211). -/
def Group.owned (g : Group) (k : Nat) : Bool := g.barriers.any (fun e => e.1 ≤ k && k < e.1 + 16)

/-- Zeros in a range of scratchpad bytes, but for those that armed barriers own (R211). -/
def Group.clearBytes (g : Group) (off n : Nat) : Group :=
  let inside (k : Nat) : Bool := off ≤ k && k < off + n
  { g with spad := Tab.keep g.spad (fun k _ => !inside k || g.owned k)
           spadTags := Tab.keep g.spadTags (fun k _ => !inside k || g.owned k)
           poison := g.poison.filter (fun k => !inside (4 * k)) }

/-- The lines of a window's stage become the slot's own again: a compressed window's tiles of it are freed (R129). -/
def Group.freeSlot (g : Group) (win : Nat) (p : WinPlace) (b : Binding) (stage : Nat) : Group :=
  if !p.compressed then g
  else
    let first := stage % p.slots b.size * slotTiles b.size
    let tiles := (List.range (slotTiles b.size)).map (first + ·)
    ({ g with windows := g.windows.upd win (fun w => { w with tiles := w.tiles.keep (fun k _ => !tiles.contains k) }) } : Group).clearBytes
      (b.slotOff p stage) (slotTiles b.size * 4096)

/-- A bound window at the completion of phase `p` of its barrier: its head moves past the stage of that phase (R121, R214). -/
def Group.headMoves (g : Group) (win : Nat) (pl : WinPlace) (b : Binding) (p : Nat) : Group × Binding :=
  if b.phaseOf b.head = p ∧ b.head < (regionOf b.region).stages then
    let g := g.freeSlot win pl b b.head
    let b' := { b with head := b.head + 1, stages := b.stages.keep (fun k t => k != b.head || t.unlanded != 0) }
    ({ g with windows := g.windows.upd win (fun w => { w with bound := some b' }) }, b')
  else (g, b)

/-- The sectors still to land of the stages of a binding whose phase begins as phase `p` completes, whether its head moves or not (R214, R215). -/
def Binding.beginning (b : Binding) (p : Nat) : Nat :=
  (b.stages.filter (fun t => decide (b.head ≤ t.1) && b.phaseOf t.1 == (p + 1) % 2 ^ 24)).foldl (fun n t => n + t.2.unlanded) 0

/-- A bound window at the completion of phase `p` of its barrier (R121, R214, R215): its head moves, and the sectors that are to be added. A transaction barrier alone counts
them. -/
def Group.headStep (g : Group) (win : Nat) (pl : WinPlace) (b : Binding) (p : Nat) : Group × Nat :=
  let r := g.headMoves win pl b p
  (r.1, r.2.beginning p)

/-- The windows of a group that are bound to a barrier take the completion of a phase: the group, and the sectors to be added. -/
def State.groupHeads (s : State) (id : BarId) (p c g : Nat) (q : Group) : Group × Nat :=
  q.windows.foldl (fun acc w =>
    match (acc.1.windows.get w.1).bind (fun w => w.bound), (s.recordOf q).place w.1 with
    | some b, some pl =>
      if b.barId c g == some id then
        let r := acc.1.headStep w.1 pl b p
        (r.1, acc.2 + if (s.bar? id).any (fun x => x.tx) then r.2 else 0)
      else acc
    | _, _ => acc) (q, 0)

/-- Every group of a table takes it. -/
def State.tableHeads (s : State) (id : BarId) (p c : Nat) (gs : Tab Group) : Tab Group × Nat :=
  gs.foldl (fun acc e =>
    let r := s.groupHeads id p c e.1 e.2
    (acc.1 ++ [(e.1, r.1)], acc.2 + r.2)) ([], 0)

/-- An image that is away from its core takes it too, for a global barrier (R125, R215). -/
def State.imageHeads (s : State) (id : BarId) (p c : Nat) (i : Image) : Image × Nat :=
  match id with
  | .spad _ _ _ => (i, 0)
  | .global _ =>
    let r := s.tableHeads id p c i.groups
    ({ i with groups := r.1 }, r.2)

/-- A core's groups, and those of the image in its shadow, take it. -/
def State.coreHeads (s : State) (id : BarId) (p c : Nat) (q : Core) : Core × Nat :=
  let r := s.tableHeads id p c q.groups
  let h : Option (Image × Nat) := q.shadow.map (s.imageHeads id p c)
  ({ q with groups := r.1, shadow := h.map Prod.fst }, r.2 + (h.map Prod.snd).getD 0)

/-- Heads move, and the sectors of the stages whose phases begin are added (R214, steps 2 and 3). A save area from which an image has returned holds none. -/
def State.moveHeads (s : State) (id : BarId) (p : Nat) (site : Site) : State :=
  let cs : Tab (Core × Nat) := s.cores.mapVal (fun c q => s.coreHeads id p c q)
  let is : Tab (Image × Nat) := s.saves.mapVal (fun _ i => if i.away then s.imageHeads id p 0 i else (i, 0))
  let add : Nat := cs.foldl (fun n x => n + x.2.2) 0 + is.foldl (fun n x => n + x.2.2) 0
  let s := { s with cores := cs.mapVal (fun _ x => x.1), saves := is.mapVal (fun _ x => x.1) }
  match s.bar? id with
  | some b => if add = 0 then s else s.setBar id (b.addSec add) site
  | none => s

/-- A wave drops its copies of a variable (R50). -/
def Wave.dropCopies (w : Wave) (x : Nat) : Wave := ({ w with copies := w.copies.del x }.dropLanes x).fixOctets

/-- Captures on a scratchpad barrier apply (R50). -/
def State.applyCaptures (s : State) (c g off : Nat) : State :=
  match s.group? c g with
  | none => s
  | some q =>
    let caps := q.captures.filter (fun k => k.barrier == off)
    let vars := (caps.map (fun k => k.var)).dedup
    let winner (x : Nat) : Option Capture := ((caps.filter (fun k => k.var == x)).foldl (fun (m : Option Capture) k =>
      match m with
      | some a => if k.wave < a.wave then some k else some a
      | none => some k) none)
    let home := vars.foldl (fun h x => match winner x with
      | some k => h.set x k.value
      | none => h) q.home
    let s := s.setGroup c g { q with home, captures := q.captures.filter (fun k => k.barrier != off) }
    s.modCore c (fun k => { k with waves := k.waves.mapVal (fun _ w =>
      if w.group = g then (caps.filter (fun a => a.wave == w.number && !a.written)).foldl (fun w a => w.dropCopies a.var) w else w) })

/-- A guard or window-budget record as an imprecise fault (R114, R129). -/
def GuardRecord.imprecise (r : GuardRecord) : Imprecise :=
  { code := r.code, sub := r.sub, lane := 0, addr := r.offset, bank := r.bank, count := r.count, sitePc := r.sitePc, siteSeq := r.siteSeq }

/-- One pending record takes effect at a phase completion (R114): at its wave's next boundary, or as NO_WAVE where the wave has ended or no thread of it is left, so that
it does not issue again. -/
def State.raiseRecord (s : State) (c g : Nat) (r : GuardRecord) : State :=
  match (s.core c).waves.find? (fun e => e.2.group == g && e.2.number == r.wave && e.2.live != 0) with
  | some (k, _) => s.modFlow (.wave c k) (fun w => { w with imprecise := w.imprecise ++ [r.imprecise] })
  | none => s.noWave c g r

/-- The records of a group take effect (R114, R129, R214). -/
def State.raiseRecords (s : State) (c g : Nat) : State :=
  match s.group? c g with
  | none => s
  | some q =>
    let s := s.setGroup c g { q with guard := none, budget := none }
    let s := q.guard.elim s (fun r => s.raiseRecord c g r)
    q.budget.elim s (fun r => s.raiseRecord c g r)

/-- A barrier is one of a group (R114): it lies in the group's allocation, or a window of the group counts against it, or a wave of the group waits on it (log 93). -/
def barOfGroup (id : BarId) (c g : Nat) (q : Group) (waves : Tab Wave) : Bool :=
  match id with
  | .spad c' g' _ => c == c' && g == g'
  | .global pa => q.windows.any (fun w => w.2.bound.any (fun b => b.barId c g == some id))
      || waves.any (fun w => w.2.group == g && (match w.2.park with
        | some (.globalBarrier p _ _) => p == pa
        | _ => false))

/-- A pending record takes effect in an image that is away from its core: at its wave, or as NO_WAVE (R114). -/
def Image.raiseRecord (i : Image) (g : Nat) (r : GuardRecord) : Image × Option GuardRecord :=
  match i.waves.find? (fun e => e.2.group == g && e.2.number == r.wave && e.2.live != 0) with
  | some (k, _) => ({ i with waves := i.waves.upd k (fun w => { w with imprecise := w.imprecise ++ [r.imprecise] }) }, none)
  | none => ({ i with groups := i.groups.upd g (fun q => { q with state := .faulted }) }, some r)

/-- The records of the groups of an image that a global barrier is one of take effect (R114, R125): the image, and by launch the records that no wave of it can take. -/
def Image.raise (i : Image) (id : BarId) : Image × List (Nat × GuardRecord) :=
  match id with
  | .spad _ _ _ => (i, [])
  | .global _ =>
    (i.groups.filter (fun g => barOfGroup id 0 g.1 g.2 i.waves)).foldl (fun (acc : Image × List (Nat × GuardRecord)) g =>
      let j := { acc.1 with groups := acc.1.groups.upd g.1 (fun q => { q with guard := none, budget := none }) }
      (g.2.guard.toList ++ g.2.budget.toList).foldl (fun (a : Image × List (Nat × GuardRecord)) r =>
        let x := a.1.raiseRecord g.1 r
        (x.1, a.2 ++ x.2.toList.map (fun r => (g.2.launch, r)))) (j, acc.2)) (i, [])

/-- The records of every group of a barrier take effect, wherever its image stands (R114, R214). -/
def State.raiseGroups (s : State) (id : BarId) : State :=
  let s := s.cores.foldl (fun s e => (e.2.groups.filter (fun g => barOfGroup id e.1 g.1 g.2 e.2.waves)).foldl (fun s g => s.raiseRecords e.1 g.1) s) s
  let lost := s.cores.flatMap (fun e => (e.2.shadow.map (fun i => (i.raise id).2)).getD []) ++ s.saves.flatMap (fun e => if e.2.away then (e.2.raise id).2 else [])
  let s : State := { s with
    cores := s.cores.mapVal (fun _ q => { q with shadow := q.shadow.map (fun i => (i.raise id).1) })
    saves := s.saves.mapVal (fun _ i => if i.away then (i.raise id).1 else i) }
  lost.foldl (fun s x => (s.keepFault x.1 x.2.noWaveRecord).failLaunch x.1 0x23) s

/-- Waiters whose token is no longer the barrier's phase wake with a status (R214, R217). `all`: every waiter, at a drop. -/
def State.wakeWaiters (s : State) (id : BarId) (phase : Nat) (all : Bool) (status : Nat) : State :=
  let hit (c : Nat) (w : Wave) : Bool := match w.park, id with
    | some (.spadBarrier off t), .spad c' g' off' => c == c' && w.group == g' && off == off' && (all || t != phase)
    | some (.globalBarrier pa t entry), .global pa' => pa == pa' && (all || t != phase) && entry
    | _, _ => false
  { s with cores := s.cores.mapVal (fun c q => { q with waves := q.waves.mapVal (fun _ w =>
      if hit c w then { w with park := some (.waking status) } else w) }) }

/-- A barrier as its phase completes (R214, step 1): PHASE rises and PEND_ARR returns, and the releases of the phase are those that a wait for it meets (R150). -/
def Barrier.flip (b : Barrier) : Barrier :=
  { b with phase := (b.phase + 1) % 2 ^ 24, pendArr := b.initArr, arrivers := [], met := if b.arrivers = [] then b.met.del b.phase else b.met.set b.phase b.arrivers }

/-- Test a barrier and complete its phase (R214): once, in the order of the rule. -/
def State.testBar (s : State) (id : BarId) (site : Site) : State :=
  match s.bar? id with
  | none => s
  | some b =>
    if b.pendArr = 0 ∧ b.pendSec = 0 ∧ !b.ovf then
      let s := s.setBar id b.flip site
      let s := match id with
        | .spad c g off => (s.applyCaptures c g off).moveHeads id b.phase site
        | .global _ => s.moveHeads id b.phase site
      (s.raiseGroups id).wakeWaiters id b.flip.phase false 0
    else s

/-- An update of a barrier, then the test of R214. -/
def State.updateBar (s : State) (id : BarId) (site : Site) (f : Barrier → Barrier) : State :=
  match s.bar? id with
  | none => s
  | some b => (s.setBar id (f b) site).testBar id site

end Sys2Proof.Machine
end

