-- ==== Sys2Proof/Machine/Window.lean ====
section
/-! DEFINITION. Windows: touches, the issue of stages, landings, source failures, binding and unbinding (R118 to R125, R129, R215, R409 to R412). -/

namespace Sys2Proof.Machine

/-! ### Lines and presence (R119) -/

/-- The lines of a window, from the window's base, that a slot covers. -/
def slotLines (b : Binding) (pl : WinPlace) (stage : Nat) : List Nat :=
  (List.range (slotTiles b.size * 32)).map (stage % pl.slots b.size * (slotTiles b.size * 32) + ·)

/-- The lines of a stage's slot that its landings make present: those with a landed byte, or in a compressed window every line of its tiles (R119). -/
def landedLines (b : Binding) (pl : WinPlace) (stage : Nat) : List Nat :=
  let all := slotLines b pl stage
  if pl.compressed then all else all.take ((b.size + 127) / 128)

/-- The line of a window that an offset lies in. -/
def lineIn (pl : WinPlace) (off : Nat) : Nat := (off - pl.base) / 128

/-- Fill a slot with zeros. -/
def Group.zeroSlot (g : Group) (pl : WinPlace) (b : Binding) (stage : Nat) : Group := g.clearBytes (b.slotOff pl stage) (slotTiles b.size * 4096)

/-- Change the binding of a window. -/
def Group.modBinding (g : Group) (win : Nat) (f : Binding → Binding) : Group :=
  { g with windows := g.windows.upd win (fun w => { w with bound := w.bound.map f }) }

/-- Change a stage. -/
def Group.modStage (g : Group) (win stage : Nat) (f : Stage → Stage) : Group :=
  g.modBinding win (fun b => { b with stages := b.stages.upd stage f })

/-! ### Issue (R119, R120, R215) -/

/-- An engine changes a barrier: a write of a global one is served first where its piece is protected (R193). -/
def State.firstBar (s : State) (id : BarId) : State :=
  match id with
  | .spad _ _ _ => s
  | .global pa => s.firstWrite pa 16

/-- ISSUE a stage of a bound window: its lines become absent, the rest of its slot is filled with zeros, and it is counted where its phase is current. -/
def State.issueStage (s : State) (c g win stage : Nat) (ahead : Bool) (pc wave : Nat) : State :=
  match s.group? c g with
  | none => s
  | some q =>
    match (q.windows.get win).bind (fun w => w.bound), (s.recordOf q).place win with
    | some b, some pl =>
      let t : Stage := { sectors := (b.size + 31) / 32, landed := [], touched := false, ahead, parked := false, failed := none, sitePc := pc, waveNo := wave, refused := [], slot := stage % pl.slots b.size }
      let lines := landedLines b pl stage
      let all := slotLines b pl stage
      let q := q.freeSlot win pl b stage
      let q := q.zeroSlot pl b stage
      let q := { q with windows := q.windows.upd win (fun w =>
        { w with absent := w.absent.filter (fun l => !all.contains l) ++ lines, bound := some { b with stages := b.stages.set stage t } }) }
      let s := s.setGroup c g q
      match b.barId c g with
      | none => s
      | some id =>
        match s.bar? id with
        | some bar => if bar.tx && bar.phase = b.phaseOf stage then (s.firstBar id).setBar id (bar.addSec t.sectors) (pc, stage + 1) else s
        | none => s
    | _, _ => s

/-! ### Touches (R120 to R123, R411) -/

/-- What a touch of a line meets before it has any effect. -/
inductive Touch where
  /-- A plain byte, or a line of an unbound window. -/
  | plain
  /-- A line of a stage of a bound window. -/
  | stage (win stage : Nat)
  | fault (t : Trap)
  deriving DecidableEq, Repr

/-- The barrier's address that a broken binding reports (R215, R293). -/
def Binding.barAddr (b : Binding) : Nat :=
  match (regionOf b.region).bar with
  | .none => 0
  | .spad off => off
  | .global va => va

/-- The stage that a slot stands for (R120). -/
def Binding.stageAt (b : Binding) (n k : Nat) : Nat := b.head + (k + n - b.head % n) % n

/-- What a touch of an offset meets (R120, R123, R215). An offset past the last whole slot belongs to no stage. -/
def State.touchOf (s : State) (q : Group) (off lane : Nat) : Touch :=
  match (s.recordOf q).windowAt off with
  | none => .plain
  | some (win, pl) =>
    match q.windows.get win with
    | none => .plain
    | some w =>
      match w.bound with
      | none => .plain
      | some b =>
        if b.broken then .fault { code := 0x0C, addr := b.barAddr, lane }
        else
          let n := pl.slots b.size
          let k := (off - pl.base) / (slotTiles b.size * 4096)
          let st := b.stageAt n k
          if n ≤ k ∨ (regionOf b.region).stages ≤ st then .fault { code := 0x09, sub := win, addr := off, lane }
          else
            match (b.stages.get st).bind (fun t => t.failed.map (fun a => (t, a))) with
            | some (t, a) =>
              if w.absent.contains (lineIn pl off) then .fault { code := 0x0A, sub := win, addr := a, lane, sitePc := t.sitePc, siteSeq := st + 1 } else .stage win st
            | none => .stage win st

/-- The depth after a touch (R122). -/
def Binding.touched (b : Binding) (stage : Nat) (parks : Bool) : Binding :=
  match b.stages.get stage with
  | none => b
  | some t =>
    let b := if t.touched then b
      else if t.unlanded = 0 then
        if b.unused = 3 then { b with unused := 0, depth := max b.dmin (b.depth - 1) } else { b with unused := b.unused + 1 }
      else { b with unused := 0 }
    let b := if parks then { b with unused := 0 } else b
    let b := if parks && t.ahead && !t.parked then { b with depth := min b.dmax (b.depth + 1) } else b
    { b with stages := b.stages.set stage { t with touched := true, parked := t.parked || (parks && t.ahead) } }

/-- The stages that a touch of stage `st` issues (R120). -/
def Binding.toIssue (b : Binding) (n st : Nat) : List Nat :=
  let top := min (st + b.depth) (min (b.head + n - 1) ((regionOf b.region).stages - 1))
  ((List.range (top + 1 - b.head)).map (b.head + ·)).filter (fun t => (b.stages.get t).isNone)

/-- A line is absent. -/
def State.lineAbsent (s : State) (c g win off : Nat) : Bool :=
  match s.group? c g with
  | none => false
  | some q =>
    match (s.recordOf q).place win with
    | none => false
    | some pl => (q.windows.get win).any (fun w => w.absent.contains (lineIn pl off))

/-- A touch takes place (R119 to R122): the state, and whether it parks, which a line past the landed size of the stage that it issues does not make it do. -/
def State.touch (s : State) (c g win st off pc wave : Nat) : State × Bool :=
  match s.group? c g with
  | none => (s, false)
  | some q =>
    match (q.windows.get win).bind (fun w => w.bound), (s.recordOf q).place win with
    | some b, some pl =>
      let old := (b.stages.get st).isSome
      let absent := s.lineAbsent c g win off
      if b.closing && !old then (s, true)
      else
        let b1 := if old then b.touched st absent else b
        let s := s.setGroup c g (q.modBinding win (fun _ => b1))
        let s := if b.closing then s else
          (b1.toIssue (pl.slots b.size) st).foldl (fun s t => s.issueStage c g win t (t != st) pc wave) s
        if old then (s, absent)
        else
          let parks := s.lineAbsent c g win off
          (s.modGroup c g (fun q => q.modBinding win (fun b => b.touched st parks)), parks)
    | _, _ => (s, false)

/-! ### Ends of stages and of bindings -/

/-- Every issued stage of a binding has landed wholly or ended (R118). -/
def Binding.settled (b : Binding) : Bool := b.stages.all (fun e => e.2.unlanded == 0 || e.2.failed.isSome)

/-- A wave waits for a line of a window of its group. -/
def Wave.waitsIn (w : Wave) (g lo hi : Nat) : Bool :=
  w.group == g && (match w.park with
    | some (.line off) => lo ≤ off && off < hi
    | _ => false)

/-- Waves that wait for a line in a range of offsets go on. -/
def State.wakeLines (s : State) (c g lo hi : Nat) : State :=
  s.modCore c (fun q => { q with waves := q.waves.mapVal (fun _ w => if w.waitsIn g lo hi then { w with park := none } else w) })

/-- The sectors of failed stages that did not land are filled with zeros (R118). -/
def Group.zeroUnlanded (g : Group) (pl : WinPlace) (b : Binding) : Group :=
  (b.stages.filter (fun e => e.2.failed.isSome)).foldl (fun g e =>
    ((List.range e.2.sectors).filter (fun k => !e.2.landed.contains k)).foldl (fun g k => g.clearBytes (b.slotOff pl e.1 + 32 * k) 32) g) g

/-- `wunbind` ends when no issued stage is still to land (R118, R411): every line becomes present, and the waves that wait are released. -/
def State.tryUnbind (s : State) (c g win : Nat) : State :=
  match s.group? c g with
  | none => s
  | some q =>
    match (q.windows.get win).bind (fun w => w.bound), (s.recordOf q).place win with
    | some b, some pl =>
      if b.closing && b.settled then
        let q := q.zeroUnlanded pl b
        let s := s.setGroup c g { q with windows := q.windows.upd win (fun w => { w with bound := none, absent := [] }) }
        let s := s.wakeLines c g pl.base (pl.base + pl.raw * 4096)
        s.modCore c (fun k => { k with waves := k.waves.mapVal (fun _ w =>
          if w.group = g ∧ w.park = some (.unbind win) then { w with park := some (.woken 0) } else w) })
      else s
    | _, _ => s

/-- A stage ends in a failure with an address (R123, R278): the waves that wait for its lines take the fault when they issue again. -/
def State.failStage (s : State) (c g win stage addr : Nat) : State :=
  match s.group? c g with
  | none => s
  | some q =>
    match (q.windows.get win).bind (fun w => w.bound), (s.recordOf q).place win with
    | some b, some pl =>
      let off := b.slotOff pl stage
      let s := s.setGroup c g (q.modStage win stage (fun t => { t with failed := some addr }))
      (s.wakeLines c g off (off + slotTiles b.size * 4096)).tryUnbind c g win
    | _, _ => s

/-! ### Landings (R119, R129, R215, R409) -/

/-- Write landed bytes to the scratchpad, but not to the 16 bytes of an armed barrier (R409); poison lands word by word (R468). -/
def Group.land (g : Group) (off : Nat) (bs : List Byte) (poisoned : Bool) : Group :=
  let at_ := (List.range bs.length).filter (fun k => !g.owned (off + k))
  let words := ((List.range ((bs.length + 3) / 4)).map (off / 4 + ·)).filter (fun k => !g.owned (4 * k))
  let rest := g.poison.filter (fun k => !words.contains k)
  { g with
    spad := at_.foldl (fun m k => Memory.setByte m (off + k) (bs.getD k 0)) g.spad
    spadTags := at_.foldl (fun t k => t.del (off + k)) g.spadTags
    poison := if poisoned then rest ++ words else rest }

/-- A release joins those of a barrier's phase in progress (R150). -/
def Barrier.release (b : Barrier) (t : SyncTag) : Barrier := { b with arrivers := (b.arrivers ++ [t]).dedup }

/-- A landing is a release by the engine, which a wait on a global barrier meets (R121, R150). The engine stands as steward core 0 of its die (log 94). -/
def Barrier.landed (b : Barrier) (id : BarId) (die : Nat) : Barrier :=
  match id with
  | .spad _ _ _ => b
  | .global _ => b.release { scope := b.scope, place := { flow := .steward die 0, launch := 0, index := 0, number := 0 } }

/-- The barrier of a landing counts one sector (R215). -/
def State.countLanding (s : State) (c g win stage : Nat) (b : Binding) (site : Site) : State :=
  match b.barId c g with
  | none => s
  | some id =>
    match s.bar? id with
    | some bar =>
      if !bar.tx then s.modGroup c g (fun q => q.modBinding win (fun b => { b with broken := true }))
      else if b.begun bar.phase stage then (s.firstBar id).updateBar id site (fun x => (x.addSec (-1)).landed id (dieOf c)) else s
    | none => s.modGroup c g (fun q => q.modBinding win (fun b => { b with broken := true }))

/-- Make lines of a window present and release the waves that wait for them. -/
def State.presentLines (s : State) (c g win : Nat) (pl : WinPlace) (lines : List Nat) : State :=
  let s := s.modGroup c g (fun q => { q with windows := q.windows.upd win (fun w => { w with absent := w.absent.filter (fun l => !lines.contains l) }) })
  lines.foldl (fun s l => s.wakeLines c g (pl.base + 128 * l) (pl.base + 128 * l + 128)) s

/-- The sectors of a line or tile of a stage that land. -/
def sectorsOf (size unit k : Nat) : List Nat := (List.range unit).map (unit * k + ·) |>.filter (· < (size + 31) / 32)

/-- The scratchpad words of a sector of a slot. -/
def sectorWords (slot sector : Nat) : List Nat := (List.range 8).map ((slot + 32 * sector) / 4 + ·)

/-- LAND one sector of a stage (R119, R121, R129, R215): its bytes are written, its line or tile becomes present when the last of its sectors has landed, and its
barrier counts it. A sector whose tile does not fit its window waits, or raises the window-budget record. -/
def State.landSector (s : State) (c g win stage sector : Nat) (bs : List Byte) (poisoned : Bool) : State :=
  match s.group? c g with
  | none => s
  | some q =>
    match q.windows.get win, (s.recordOf q).place win with
    | some w, some pl =>
      match w.bound with
      | none => s
      | some b =>
        match b.stages.get stage with
        | none => s
        | some t =>
          if t.sectors ≤ sector ∨ t.landed.contains sector ∨ t.failed.isSome then s
          else
            let slot := b.slotOff pl stage
            let q1 := q.land (slot + 32 * sector) (bs.take (b.size - 32 * sector)) poisoned
            let site : Site := (t.sitePc, stage + 1)
            let landed := t.landed ++ [sector]
            let q1 := q1.modStage win stage (fun t => { t with landed })
            let first := (slot - pl.base) / 128
            if pl.compressed then
              let tile := sector / 128
              if (sectorsOf b.size 128 tile).all landed.contains then
                let k := first / 32 + tile
                let (un, len) := tileLength (regionOf b.region).comp (Memory.read q1.spad (slot + 4096 * tile) 4096)
                match ((q1.windows.get win).bind (fun w => w.putTile pl k un len)) with
                | some w' =>
                  let s := (s.setGroup c g { q1 with windows := q1.windows.set win w' }).spadWritten c g (sectorWords slot sector) site
                  let s := s.countLanding c g win stage b site
                  ((s.presentLines c g win pl ((List.range 32).map (32 * k + ·))).tryUnbind c g win)
                | none =>
                  let mine := (List.range (slotTiles b.size)).map (first / 32 + ·)
                  let wait := s.setGroup c g (q.modStage win stage (fun t => { t with refused := t.refused ++ [sector] }))
                  if w.tiles.any (fun e => !mine.contains e.1) ∨ t.refused.contains sector then s
                  else
                    let off := slot + 32 * sector
                    let r : GuardRecord := { code := 0x0B, sub := win, wave := t.waveNo, offset := off, bank := off / 4 % 512, count := 1, sitePc := t.sitePc,
                                             siteSeq := stage + 1 }
                    wait.modGroup c g (fun q => { q with budget := some (match q.budget with
                      | some x => { x with count := min 255 (x.count + 1) }
                      | none => r) })
              else ((s.setGroup c g q1).spadWritten c g (sectorWords slot sector) site).countLanding c g win stage b site
            else
              let s := ((s.setGroup c g q1).spadWritten c g (sectorWords slot sector) site).countLanding c g win stage b site
              let line := sector / 4
              let s := if (sectorsOf b.size 4 line).all landed.contains then s.presentLines c g win pl [first + line] else s
              s.tryUnbind c g win
    | _, _ => s

/-! ### Reading the source of a stage -/

/-- Bytes that an engine of a die reads for a context at a virtual address, in one sector: the state, and the bytes with their poison, or the sub-code of the page fault, 0
for an address that cannot be accessed. -/
def State.engineRead (s : State) (die asid va n : Nat) : State × Except Nat (List Byte × Bool) :=
  if 2 ^ 48 ≤ va then (s, .error 0)
  else
    match s.translateDie die asid va .read false with
    | (s, .error sub) => (s, .error sub)
    | (s, .ok t) =>
      let pa := t.pa + (va - t.va)
      if s.accessBad die pa n .load || paSpace pa == 2 then (s, .error 0)
      else ((s.countGranule pa n false), .ok (s.bytes pa n, s.poison.contains (lineOf pa)))

/-- The engines of a die run: it is neither frozen nor fenced (R303, R480). -/
def State.engineRuns (s : State) (die : Nat) : Bool := !(s.die die).frozen && !(s.die die).fenceSelf

/-- The source of a stage cannot be read at an address: a page fault goes to the steward, and any other failure ends the stage (R123, R226). `addr` is what the end reports. -/
def State.sourceFault (s : State) (c g win stage addr va sub : Nat) : State :=
  if sub = 0 then s.failStage c g win stage addr
  else s.engineFault (dieOf c) (.stage c g win stage addr) (s.core c).context (s.core c).asid va sub

/-- A sector of a stage under routine 0 lands from its source (R117, R215). -/
def State.landSource (s : State) (c g win stage sector : Nat) : State :=
  match (s.group? c g).bind (fun q => (q.windows.get win).bind (fun w => w.bound)) with
  | none => s
  | some b =>
    let r := regionOf b.region
    let va := r.sourceByte b.base stage (32 * sector)
    let open_ := (b.stages.get stage).any (fun t => t.failed.isNone && decide (sector < t.sectors) && !t.landed.contains sector)
    if r.routine ≠ 0 || !open_ || !s.engineRuns (dieOf c) then s
    else
      match s.engineRead (dieOf c) (s.core c).asid va 32 with
      | (s, .ok (bs, p)) => s.landSector c g win stage sector bs p
      | (s, .error sub) => s.sourceFault c g win stage va va sub

/-- Input bytes of a chunk of a routine (R275): the largest multiple of its granule that is at most 16 KiB, whose output is too, and that does not pass the end. -/
def chunkBytes (num den grain left : Nat) : Nat :=
  min left (if num = 0 then 16384 else min 16384 (16384 * den / num)) / grain * grain

/-- The first input byte of the chunk of a routine that gives an output sector (R275). -/
def chunkStart (num den grain sector : Nat) : Nat :=
  if num = 0 then 0 else
    let whole := max 1 (chunkBytes num den grain (2 ^ 32))
    sector * 32 * den / num / whole * whole

/-- STAGE_SOURCE_FAILURE (R123, R278): a stage with an unlanded sector whose source cannot be read; a routine that is no longer one for windows ends the stage. With a routine a
chunk is read whole, and the end reports its first source byte; the chunks are those of the ratio at the binding. -/
def State.sourceFails (s : State) (c g win stage : Nat) : State :=
  match (s.group? c g).bind (fun q => (q.windows.get win).bind (fun w => w.bound)) with
  | none => s
  | some b =>
    match b.stages.get stage with
    | none => s
    | some t =>
      if t.failed.isSome || !s.engineRuns (dieOf c) then s
      else
        let r := regionOf b.region
        let v := (((s.die (dieOf c)).engine (c % 64 / 4)).routine r.routine).toNat
        let raw := r.rows * r.rowBytes
        let grain := 2 ^ bits v 3 0
        let addr (k : Nat) : Nat := r.sourceByte b.base stage k
        let left := (List.range t.sectors).filter (fun k => !t.landed.contains k)
        let starts := (left.map (chunkStart b.size raw grain)).dedup
        let bad (first pos : Nat) : Option (Nat × Nat × Nat) := match (s.engineRead (dieOf c) (s.core c).asid (addr pos) 32).2 with
          | .ok _ => none
          | .error sub => some (first, pos, sub)
        let failing :=
          if r.routine = 0 then left.findSome? (fun k => bad (32 * k) (32 * k))
          else starts.findSome? (fun p => (List.range (chunkBytes b.size raw grain (raw - p) / 32)).findSome? (fun k => bad p (p + 32 * k)))
        if r.routine != 0 && (!bit v 63 || bits v 15 12 == 0) && !left.isEmpty then s.failStage c g win stage (addr (starts.headD 0))
        else
          match failing with
          | some (first, pos, sub) => s.sourceFault c g win stage (addr first) (addr pos) sub
          | none => s

/-! ### Binding (R118, R410) -/

/-- The routine of an entry may be named by a walk (R278): its output-to-input ratio. -/
def State.routineRatio (s : State) (c n : Nat) : Option (Nat × Nat) :=
  let v := (((s.die (dieOf c)).engine (c % 64 / 4)).routine n).toNat
  if bit v 63 && bits v 15 12 != 0 && bits v 11 8 != 0 then some (bits v 15 12, bits v 11 8) else none

/-- Status 3 of `wbind` (R118): the walk is invalid. -/
def walkInvalid (r : Region) (pl : WinPlace) (base size alloc : Nat) : Bool :=
  let n := pl.slots size
  !r.clean || r.comp == 3 || r.rowBytes < 32 || 65536 < r.rowBytes || r.rowBytes % 32 != 0 || r.rows < 1 || 4096 < r.rows
    || r.ext1 < 1 || 2 ^ 24 < r.ext1 || r.ext2 < 1 || 2 ^ 24 < r.ext2 || r.dmin < 1 || 8 < r.dmax || r.dmax < r.dmin
    || (base + r.base) % 32 != 0 || r.pitch % 32 != 0 || r.stride1 % 32 != 0 || r.stride2 % 32 != 0 || size == 0 || 131072 < size || n == 0
    || (match r.bar with
      | .none => n < r.stages
      | .spad off => off % 16 != 0 || alloc < off + 16
      | .global va => va % 16 != 0)

end Sys2Proof.Machine
end

