-- ==== Sys2Proof/Machine/Barriers.lean ====
section
/-! DEFINITION. The barrier and window instructions (R118, R210 to R213, R406 to R412 of spec/22_ref_memory.md). -/

namespace Sys2Proof.Machine

/-- Traps of the cause table with an address (R293). -/
def Trap.at (code addr : Nat) : Trap := { code, addr }

/-- The bytes of a flow's allocation; a steward flow has none (R112). -/
def State.allocation (s : State) (f : Flow) : Nat :=
  match s.groupOf f with
  | some (_, _, q) => (s.recordOf q).allocation
  | none => 0

/-- The barrier operand of an instruction (R210, R407): its place, after the checks on its address. `write` is false for the instructions that only read. -/
def State.barOperand (s : State) (e : Issuer) (scope : Nat) (write : Bool) : State × Except Trap BarId :=
  let a := (s.srcA e e.lead).toNat
  if scope = 1 then
    let off := a % 2 ^ 24
    if off % 16 ≠ 0 then (s, .error (.at 0x04 off))
    else match s.groupOf e.f with
      | some (c, g, _) =>
        if s.allocation e.f < off + 16 then (s, .error (.at 0x08 off))
        else if (s.core c).badBarrier g off then (s, .error (.memory 9 (off / 16) 0))
        else (s, .ok (.spad c g off))
      | none => (s, .error (.at 0x08 off))
  else
    match s.checkGlobal e.f a 16 (if write then .write else .read) .reserve e.lead with
    | (s, .ok pa) => (s, .ok (.global pa))
    | (s, .error t) => (s, .error t)

/-- The barrier's address as a trap reports it (R293). -/
def State.barTrap (s : State) (e : Issuer) (scope : Nat) : Trap :=
  let a := (s.srcA e e.lead).toNat
  .at 0x0C (if scope = 1 then a % 2 ^ 24 else a)

/-- A barrier instruction after its operand: `k` gets the state, the place and the armed barrier, whose scope is the modifier's (R210). -/
def barPlan (x : XArgs) (write : Bool) (k : State → Issuer → BarId → Option Barrier → Except Hold Plan) (s : State) (e : Issuer) : Except Hold Plan :=
  let scope := x.scope.toNat
  match s.barOperand e scope write with
  | (s', .error t) => .error (.trapIn s' t)
  | (s', .ok id) =>
    match s'.bar? id with
    | some b => if b.scope ≠ scope then .error (.trapIn s' (s'.barTrap e scope)) else k s' e id (some b)
    | none => k s' e id none

/-- A plan that writes one 32-bit status after an effect, from a state in which the checks have acted. -/
def statusPlan (s : State) (e : Issuer) (v : Nat) (effect : State → State) : Plan :=
  let w : LaneMask → Nat → List Word := fun _ _ => [BitVec.ofNat 32 v]
  { st := some s, commit := fun run t => (effect t).putWords e run (w run), latch := some (fun run => e.latch run (w run)) }

/-- An instruction that parks its wave until another agent lets it go on: its watches are evaluated as it parks, with its effect, and not again (R450). Under `dstep` it has no
effect (R444). -/
def parkPlan (s : State) (e : Issuer) (p : Park) (effect : State → State) : Except Hold Plan :=
  if s.dstep.isSome then .error (.park s p) else .ok { st := some s, commit := fun _ t => (effect t).parkAt e p, stay := true }

/-- n or t of a barrier instruction (R407). -/
def State.barN (s : State) (e : Issuer) : Nat := (s.srcB e e.lead).toNat % 2 ^ 32

/-- The home slice of a physical address (R130). -/
def sliceOf (pa : Nat) : Nat × Nat := (paDie pa, bits pa 10 7 ^^^ bits pa 14 11 ^^^ bits pa 18 15 ^^^ bits pa 22 19)

/-- The barrier unit's entries of a core in use (R216). -/
def State.unitEntries (s : State) (c : Nat) : Nat := (s.core c).spadEntries + (s.core c).globalEntries

/-- The server has no room for a barrier (R212, R216). -/
def State.serverFull (s : State) (id : BarId) : Bool :=
  match id with
  | .spad c _ _ => 64 ≤ s.unitEntries c
  | .global pa => 1024 ≤ (s.globals.filter (fun e => sliceOf e.1 == sliceOf pa)).length

/-- Arm a barrier (R213). -/
def State.arm (s : State) (id : BarId) (ctx : Nat) (b : Barrier) (site : Site) : State :=
  match id with
  | .spad _ _ _ => s.setBar id b site
  | .global pa => ({ s with globals := s.globals.set pa { context := ctx, barrier := b } }).barBytes id b true

/-- The core of a flow that is a wave. -/
def flowCore : Flow → Option Nat
  | .wave c _ => some c
  | .steward _ _ => none

/-- The status of `bar.init`, in the order of R213. -/
def State.initStatus (s : State) (id : BarId) (scope n : Nat) (tx : Bool) : Nat :=
  if n < 1 ∨ 65535 < n then 4
  else match s.bar? id with
    | some b => if b.tx = tx ∧ b.scope = scope ∧ b.initArr = n then 1 else 2
    | none => if s.serverFull id then 3 else 0

/-- `bar.init` (R213). -/
def execBarInit (x : XArgs) (s : State) : Out :=
  perform (.barInit x) (fun s e =>
    let scope := x.scope.toNat
    match s.barOperand e scope true with
    | (s', .error t) => .error (.trapIn s' t)
    | (s', .ok id) =>
      let n := s'.barN e
      let tx := x.imm.getLsbD 8
      let st := s'.initStatus id scope n tx
      .ok (statusPlan s' e st (fun t =>
        match st, flowCore e.f with
        | 0, _ => t.arm id ((t.contextOf e.f).getD 0) { scope, tx, ovf := false, phase := 0, pendSec := 0, initArr := n, pendArr := n } (e.c.addr, 0)
        | 3, some c => t.modCore c (fun q => { q with fulls := min 255 (q.fulls + 1) })
        | _, _ => t))) s

/-- An arrival is a release at the barrier's scope (R150), one with n = 0 too. -/
def State.arrival (s : State) (e : Issuer) (b : Barrier) (n : Nat) : Barrier :=
  { b.release { scope := b.scope, place := s.placeOf e.f } with pendArr := b.pendArr - n }

/-- A wait that returns for a phase, or a test that reports it, is an acquire at the barrier's scope, which meets the arrivals and landings of the phase (R150): where the
scopes do not include each other, WSTAT.SCOPE is set (R142, R154). The spec names no case, so that this is the model's reading (log 95). -/
def State.noteBar (s : State) (e : Issuer) (b : Option Barrier) (phase : Nat) : State :=
  if b.any (fun b => (b.met.getD phase []).any (s.drops e.f b.scope)) then s.modFlow e.f (fun w => { w with wstat := { w.wstat with scope := true } }) else s

/-- `bar.arrive` (R213). -/
def execBarArrive (x : XArgs) (s : State) : Out :=
  perform (.barArrive x) (barPlan x true (fun s e id b =>
    let n := s.barN e
    match b with
    | none => .error (.trapIn s (s.barTrap e x.scope.toNat))
    | some b =>
      if b.pendArr < n then .error (.trapIn s (s.barTrap e x.scope.toNat))
      else .ok (statusPlan s e b.phase (fun t => t.updateBar id (e.c.addr, 0) (fun b => t.arrival e b n))))) s

/-- `bar.expect` (R213). -/
def execBarExpect (x : XArgs) (s : State) : Out :=
  perform (.barExpect x) (barPlan x true (fun s e id b =>
    let n := s.barN e
    match b with
    | none => .error (.trapIn s (s.barTrap e x.scope.toNat))
    | some b =>
      if !b.tx || 2 ^ 31 ≤ n then .error (.trapIn s (s.barTrap e x.scope.toNat))
      else .ok { st := some s, commit := fun _ t => t.updateBar id (e.c.addr, 0) (fun b => b.addSec n) })) s

/-- Where a waiter parks (R216). -/
def State.waitPark (s : State) (e : Issuer) (id : BarId) (token : Nat) : Park :=
  match id with
  | .spad _ _ off => .spadBarrier off token
  | .global pa =>
    let room := match e.f with
      | .wave c _ => decide (s.unitEntries c < 64) || (s.core c).waves.any (fun w => match w.2.park with
        | some (.globalBarrier p _ true) => p == pa
        | _ => false)
      | .steward _ _ => false
    .globalBarrier pa token room

/-- `bar.wait` (R213, R217): a wave that has been woken writes its status; a steward flow has no barrier unit and tests again. -/
def execBarWait (x : XArgs) (s : State) : Out :=
  perform (.barWait x) (fun s e =>
    match e.w.park with
    | some (.woken v) =>
      let b := match (s.barOperand e x.scope.toNat false).2 with
        | .ok id => s.bar? id
        | .error _ => none
      .ok { statusPlan s e v (fun t => if v = 0 then t.noteBar e b (s.barN e % 2 ^ 24) else t) with pass := true }
    | _ => barPlan x false (fun s e id b =>
      let t := s.barN e % 2 ^ 24
      match b with
      | none => .ok (statusPlan s e 2 (fun u => u))
      | some b =>
        if b.phase ≠ t then .ok (statusPlan s e 0 (fun u => u.noteBar e (some b) t))
        else if isSteward e.f then .error (.held s)
        else parkPlan s e (s.waitPark e id t) (fun u => u)) s e) s

/-- `bar.test` (R213). -/
def execBarTest (x : XArgs) (s : State) : Out :=
  perform (.barTest x) (barPlan x false (fun s e _ b =>
    let t := s.barN e % 2 ^ 24
    .ok (statusPlan s e (match b with
      | none => 2
      | some b => b2n (b.phase != t)) (fun u => if b.any (fun b => b.phase != t) then u.noteBar e b t else u)))) s

/-- Disarm a barrier (R213): its waiters wake with status 2, and captures on it are discarded. -/
def State.disarm (s : State) (id : BarId) (b : Barrier) : State :=
  let s := s.barBytes id b false
  let s := match id with
    | .spad c g off => s.modGroup c g (fun q => { q with barriers := q.barriers.del off, captures := q.captures.filter (fun k => k.barrier != off) })
    | .global pa => { s with globals := s.globals.del pa }
  s.wakeWaiters id 0 true 2

/-- `bar.drop` (R213). -/
def execBarDrop (x : XArgs) (s : State) : Out :=
  perform (.barDrop x) (barPlan x true (fun s e id b =>
    match b with
    | none => .ok (statusPlan s e 2 (fun u => u))
    | some b => .ok (statusPlan s e 0 (fun t => t.disarm id b)))) s

/-! ### Windows -/

/-- The window that an instruction names, or the window-range fault (R410). -/
def State.windowOf (s : State) (e : Issuer) (win : Nat) : Except Trap (Nat × Nat × Group × WinPlace × Window) :=
  match s.groupOf e.f with
  | none => .error { code := 0x09, sub := win }
  | some (c, g, q) =>
    match (s.recordOf q).place win with
    | none => .error { code := 0x09, sub := win }
    | some pl => .ok (c, g, q, pl, q.windows.getD win { bound := none, absent := [], tiles := [] })

/-- The status of `wbind` (R118). -/
def State.bindStatus (s : State) (c : Nat) (pl : WinPlace) (w : Window) (entry base : Nat) (r : Region) (alloc : Nat) : Nat × Nat :=
  match w.bound with
  | some b => (if b.entry = entry ∧ b.base = base ∧ !b.closing then 1 else 2, 0)
  | none =>
    match s.routineRatio c r.routine with
    | none => (3, 0)
    | some (num, den) =>
      let size := r.rows * r.rowBytes * num / den
      if walkInvalid r pl base size alloc then (3, 0) else if r.comp ≠ 0 && !pl.compressed then (4, 0) else (0, size)

/-- A window is bound (R118). A compressed one holds no tile then, so every tile of it reads as zero (R129). -/
def Group.bind (g : Group) (win : Nat) (pl : WinPlace) (b : Binding) : Group :=
  { g with windows := g.windows.set win { bound := some b, absent := List.range (pl.raw * 32), tiles := [] }
           spad := if pl.compressed then (g.clearBytes pl.base (pl.raw * 4096)).spad else g.spad }

/-- `wbind` (R118, R410). P0 is the phase of the named barrier, and 0 where it is not armed: the spec gives such a barrier no phase (log 107). -/
def execWbind (x : XArgs) (s : State) : Out :=
  perform (.wbind x) (fun s e =>
    let win := x.immBits 3 0
    let entry := x.immBits 8 4
    match s.windowOf e win with
    | .error t => .error (.trap t)
    | .ok (c, g, q, pl, w) =>
      let base := (s.srcA e e.lead).toNat
      let bytes := Memory.read q.regions (64 * entry) 64
      let r := regionOf bytes
      match s.bindStatus c pl w entry base r (s.allocation e.f) with
      | (0, size) =>
        let (s', found) : State × Except Trap (Option BarId) := match r.bar with
          | .none => (s, .ok none)
          | .spad off => (s, .ok (some (.spad c g off)))
          | .global va => match s.checkGlobal e.f va 16 .read .reserve e.lead with
            | (s', .ok pa) => (s', .ok (some (.global pa)))
            | (s', .error t) => (s', .error t)
        match found with
        | .error t => .error (.trapIn s' t)
        | .ok id =>
          let phase := ((id.bind s'.bar?).map (fun b => b.phase)).getD 0
          let pa := match id with
            | some (.global pa) => some pa
            | _ => none
          let b : Binding := { entry, base, head := 0, depth := r.dmin, dmin := r.dmin, dmax := r.dmax, unused := 0, p0 := phase, barrierPa := pa, stages := [],
                               broken := false, closing := false, region := bytes, size }
          .ok (statusPlan s' e 0 (fun t => t.modGroup c g (fun q => q.bind win pl b)))
      | (st, _) => .ok (statusPlan s e st (fun t => t))) s

/-- `wunbind` (R118, R411). -/
def execWunbind (x : XArgs) (s : State) : Out :=
  perform (.wunbind x) (fun s e =>
    let win := x.immBits 3 0
    match s.windowOf e win with
    | .error t => .error (.trap t)
    | .ok (c, g, _, _, w) =>
      match e.w.park, w.bound with
      | some (.woken _), _ => .ok { pass := true }
      | _, none => .ok {}
      | _, some b =>
        let close (t : State) : State := (t.modGroup c g (fun q => q.modBinding win (fun b => { b with closing := true }))).tryUnbind c g win
        if b.settled then .ok { commit := fun _ t => close t }
        else parkPlan s e (.unbind win) close) s

/-- `wstat` (R412). -/
def execWstat (x : XArgs) (s : State) : Out :=
  perform (.wstat x) (fun s e =>
    let win := x.immBits 3 0
    match s.windowOf e win with
    | .error t => .error (.trap t)
    | .ok (_, _, q, _, w) =>
      let head := (w.bound.map (fun b => b.head)).getD 0
      .ok (resultPlan e none false (fun _ _ => [BitVec.ofNat 32 (q.pdepth win), BitVec.ofNat 32 head]) (fun _ _ => {}))) s

end Sys2Proof.Machine
end

