-- ==== Sys2Proof/Machine/Access.lean ====
section
/-! DEFINITION. Results that return later, the performing of global reads and writes with their releases, and scratchpad accesses (R111, R114, R133 to R142, R192,
R291, R390 to R396). -/

namespace Sys2Proof.Machine

/-! ### Octets and the overflow areas (R40, R171) -/

/-- Where an octet of a wave slot lies in the overflow areas of a save area: 32 KiB for each wave slot, in them 32 bytes for each octet 8 × variable + octet (log 97). -/
def overflowAt (area slot n : Nat) : Nat := area + 0x263000 + 0x8000 * slot + 32 * n

/-- The save area of a core's image. -/
def State.areaOf (s : State) (c : Nat) : Option Nat := ((s.core c).context.bind s.contexts.get).bind (fun x => x.areas.get c)

/-- The eight values of an octet; a lane without a copy gives 0. -/
def Wave.octetBytes (w : Wave) (n : Nat) : List Byte := (List.range 8).flatMap (fun j => bytesOfNat 4 (w.laneCopies.getD (8 * n + j) 0).toNat)

/-- The Sett engine evicts an octet (R40): it is written to its wave's overflow area, and SPLIT_OVF counts it. -/
def State.evict (s : State) (c k n : Nat) : State :=
  match (s.core c).waves.get k with
  | none => s
  | some w =>
    let s := match s.areaOf c with
      | some a => s.poke (overflowAt a k n) (w.octetBytes n) false none
      | none => s
    (s.modFlow (.wave c k) (fun w => { w with overflowed := w.overflowed ++ [n] })).modCore c (fun q =>
      { q with splitOvf := q.splitOvf + 1, octetAge := q.octetAge.filter (· != (k, n)) })

/-- Room for one octet more in a core's file. -/
def State.makeRoom (s : State) (c : Nat) : State :=
  if s.splitOctets c < s.octetRoom c then s
  else match s.victim c with
    | some (k, n) => s.evict c k n
    | none => s

/-- An octet comes back from its overflow area: the copies that its lanes hold are read (R40). -/
def State.fillOctet (s : State) (c k n : Nat) : State :=
  let bs := match s.areaOf c with
    | some a => s.bytes (overflowAt a k n) 32
    | none => []
  let word (j : Nat) : Word := BitVec.ofNat 32 (natOfBytes ((bs.drop (4 * j)).take 4))
  (s.modFlow (.wave c k) (fun w => { w with
    laneCopies := if bs = [] then w.laneCopies else w.laneCopies.mapVal (fun i v => if i / 8 = n then word (i % 8) else v)
    overflowed := w.overflowed.filter (· != n) })).modCore c (fun q => { q with octetAge := q.octetAge ++ [(k, n)] })
    |>.fileWritten c k [n / 8] false (LaneMask.ofList ((List.range 8).map (8 * (n % 8) + ·))) (0, 0)

/-- The octets of lanes of variables come back before they are read or written by an agent other than their own wave's instructions (R40). -/
def State.callBack (s : State) (f : Flow) (vars lanes : List Nat) : State :=
  match f, s.flow? f with
  | .wave c k, some w =>
    if w.overflowed = [] then s
    else ((vars.flatMap (fun x => lanes.map (fun l => 8 * x + l / 8))).dedup.filter w.overflowed.contains).foldl (fun s n => (s.makeRoom c).fillOctet c k n) s
  | _, _ => s

/-! ### Results that return later (R96, R393) -/

/-- What an access gives: the state after it, the words by lane, and the failure that the returning data meet (R291). -/
structure Given where
  s : State
  vals : Tab (List Word) := []
  failure : Option Imprecise := none
  reads : Tab (Nat × Nat) := []

/-- The words that a result gives a lane. -/
def Given.words (g : Given) (l : Nat) : List Word := g.vals.getD l []

/-- A result is written at once, or the failure that its data met is to be taken (R291). -/
def State.give (s : State) (e : Issuer) (run : LaneMask) (g : Given) : State :=
  match g.failure with
  | none => s.putWords e run g.words
  | some x => s.modFlow e.f (fun w => { w with imprecise := w.imprecise ++ [x] })

/-- A result becomes outstanding until MEMORY_RESPONSE writes it, and its flag is raised (R96); under `dstep` it is written at once (R444). -/
def State.later (s : State) (e : Issuer) (run : LaneMask) (g : Given) : State :=
  match s.dstep with
  | some _ => s.give e run g
  | none =>
    let n := roleCount e.p.dstRole
    let o : Outstanding := { dst := if e.p.nwb || n = 0 then none else some e.p.dst.toNat, vars := n, scalar := scalarClass e.p, run, vals := g.vals,
                             flag := e.p.flag, failure := g.failure, reads := g.reads, site := e.c.addr, major := e.p.major }
    s.modFlow e.f (fun w => { (w.raiseFlag e.p.flag) with outstanding := w.outstanding ++ [o] })

/-- A plan whose result returns later: `access` performs for the run that commits. The latch entry stands from the issue on; a reader of it waits for the data in
interlocked mode (R99), and does not meet an entry whose data fail, because the fault comes first and makes every latch invalid (R54, R291). -/
def laterPlan (s : State) (e : Issuer) (probe : Probe) (access : LaneMask → State → Given) : Plan :=
  let commit (run : LaneMask) (t : State) : State :=
    let g := access run t
    g.s.later e run g
  let latch (run : LaneMask) : Latch := e.latch run (access run s).words
  { st := some s, probe, commit, latch := some latch, later := true }

/-- Accesses go to another die than their flow's, over links (R239). -/
def State.crosses (s : State) (e : Issuer) (ps : Tab Nat) : Bool := s.dstep.isNone && ps.any (fun p => paDie p.2 != flowDie e.f)

/-- The wave waits while its request is on its way. -/
def State.sendRequest (s : State) (e : Issuer) (run : LaneMask) (reads : Tab (Nat × Nat)) : State :=
  let o : Outstanding := { dst := none, vars := 0, scalar := scalarClass e.p, run, vals := [], flag := none, failure := none, reads, site := e.c.addr, major := e.p.major,
                           request := true }
  s.modFlow e.f (fun w => { w with park := some .request, outstanding := w.outstanding ++ [o] })

/-- A plan that writes memory and whose result returns later. On another die it performs when the die has the request, and its wave waits until then, so that a request that a link
loses makes no write (R246, R291): which is the model's reading (log 126). -/
def requestPlan (s : State) (e : Issuer) (probe : Probe) (ps : Tab Nat) (va : Nat → Nat) (access : LaneMask → State → Given) : Plan :=
  match e.w.park with
  | some .arrived =>
    { st := some s, commit := fun run t => (access run t).s.give e run (access run t), latch := some (fun run => e.latch run (access run s).words), pass := true }
  | some .lost => { st := some s, pass := true }
  | _ =>
    if s.crosses e ps then
      { st := some s, probe, stay := true,
        commit := fun run t => t.sendRequest e run ((ps.filter (fun p => scalarClass e.p || run.getLsbD p.1)).map (fun p => (p.1, va p.1, p.2))) }
    else laterPlan s e probe access

/-- The wave of a request goes on: the request has come to its die, or is lost. -/
def Wave.requested (w : Wave) (failed : Bool) : Wave := if w.park = some .request then { w with park := some (if failed then .lost else .arrived) } else w

/-- The returned data of an outstanding instruction are written, and its flag falls (R393); a failure leaves every destination unwritten (R291). An octet of the
destination that stands in the overflow area is brought back first (R40). Lanes that have exited
meanwhile are no threads of the wave any more (R16, R46): the result is written for the live lanes of its run, and whether these cover the wave (R41) is judged at
the return, which is the model's choice (log 92). -/
def State.respond (s : State) (f : Flow) (k : Nat) : State :=
  match s.flow? f with
  | none => s
  | some w =>
    match w.outstanding[k]? with
    | none => s
    | some o =>
      let s := s.modFlow f (fun w => { (w.lowerFlag o.flag) with outstanding := w.outstanding.eraseIdx k })
      let s := if o.request then s.modFlow f (fun w => w.requested o.failure.isSome) else s
      let s := match o.failure with
        | some x => s.modFlow f (fun w => { w with imprecise := w.imprecise ++ [x] })
        | none => match o.dst with
          | some d =>
            let v (l : Nat) : List Word := o.vals.getD l []
            let s := if o.scalar then s else s.callBack f ((List.range o.vars).map (d + ·)) (LaneMask.toList (o.run &&& w.live))
            if o.scalar then s.writeVars f true d o.vars o.run v
            else if o.run &&& w.live = 0 then s else s.writeVars f false d o.vars (o.run &&& w.live) v
          | none => s
      let s := match f, o.dst with
        | .wave c j, some d => if o.failure.isSome then s else s.fileWritten c j ((List.range o.vars).map (d + ·)) o.scalar o.run (o.site, 0)
        | _, _ => s
      (s.settle f).tryEnd f

/-! ### Lanes and addresses -/

/-- The lanes for which an access is made (R390). -/
def Issuer.accessLanes (e : Issuer) : List Nat := if scalarClass e.p then [e.lead] else LaneMask.toList e.run

/-- A lane of the instruction makes its access under a run that commits: a wave-class instruction's access is its lead lane's. -/
def Issuer.commits (e : Issuer) (run : LaneMask) (l : Nat) : Bool := scalarClass e.p || run.getLsbD l

/-- The privilege check of device registers after the other checks: the lane's trap where its register refuses (R431). -/
def State.devTrap (s : State) (e : Issuer) (bytes : Nat) (write : Bool) (pa : Nat × Nat) : Option Trap :=
  if paSpace pa.2 = 2 && s.devRefuses pa.2 bytes (e.w.privilege e.f) write then some { code := 0x03, addr := paOffset pa.2, lane := pa.1 } else none

/-- Check the accesses of an instruction (R392): the physical address of every lane, or the trap that is taken. `va` gives the address of a lane. -/
def State.resolve (s : State) (e : Issuer) (bytes : Nat) (use : Use) (k : AccessKind) (va : Nat → Nat) : State × Except Trap (Tab Nat) :=
  match s.checkLanes e.f bytes use k (e.accessLanes.map (fun l => (l, va l))) with
  | (s', ts, ps) =>
    match Trap.first (ts ++ ps.filterMap (s'.devTrap e bytes use.writes)) with
    | some t => (s', .error t)
    | none => (s', .ok ps)

/-- The address of a load or store (R394). -/
def State.loadAddr (s : State) (e : Issuer) (l : Nat) : Nat := (s.srcA e l + (lo32 (s.srcB e l)).signExtend 64).toNat

/-! ### Releases and acquires (R140 to R142) -/

/-- The scope of the release that a lane's write carries: the instruction's own, or that of a release fence before it (R140). A write that is a release at several scopes carries
the widest alone, so that only its inclusion is judged: the model's choice (DESIGN CHOICE, log 130). -/
def State.releaseOf (s : State) (e : Issuer) (l : Nat) (own : Option Nat) : Option SyncTag :=
  match s.flow? e.f with
  | none => none
  | some w =>
    let lanes := if scalarClass e.p then LaneMask.toList e.run else [l]
    let all := own.toList ++ lanes.filterMap (fun l => w.fences.get l)
    match all with
    | [] => none
    | k :: ks => some { scope := ks.foldl max k, place := s.placeOf e.f }

/-- A lane has read bytes that carry releases: they are remembered for a later acquire fence, and an acquire read whose pair fails sets WSTAT.SCOPE (R140, R142). -/
def State.noteTags (s : State) (e : Issuer) (l : Nat) (tags : List SyncTag) (acquire : Option Nat) : State :=
  if tags = [] then s
  else
    let lanes := if scalarClass e.p then LaneMask.toList e.run else [l]
    let fails := acquire.any (fun k => tags.any (s.drops e.f k))
    s.modFlow e.f (fun w => { w with
      seen := (w.seen ++ lanes.flatMap (fun l => tags.map (fun t => (l, t)))).dedup
      wstat := if fails then { w.wstat with scope := true } else w.wstat })

/-- A lane has read bytes of memory. -/
def State.noteRead (s : State) (e : Issuer) (l pa n : Nat) (acquire : Option Nat) : State := s.noteTags e l (s.tagsAt pa n) acquire

/-- The scope of an instruction's acquire or release, by its ORD (R134, R386). -/
def ordAcquire (x : XArgs) : Option Nat := if x.ord.getLsbD 0 then some x.scope.toNat else none
/-- The scope of its release. -/
def ordRelease (x : XArgs) : Option Nat := if x.ord.getLsbD 1 then some x.scope.toNat else none

/-! ### Performing -/

/-- A store or an atomic to host memory ends the replayability of its launch (R192). -/
def State.noteHost (s : State) (f : Flow) (pa : Nat) : State :=
  if paSpace pa = 1 then
    match s.flow? f with
    | some w => if isSteward f then s else s.modLaunch w.launch (fun l => { l with replayable := false })
    | none => s
  else s

/-- A plain store, or an atomic, to bytes that a barrier or a chain owns writes nothing and is logged with its site (R211, R280). -/
def State.logOwned (s : State) (e : Issuer) (pa : Nat) : State := s.logDie (paDie pa) 0 true (s.asidOf e.f) pa e.c.addr 0

/-- A steward flow's store to the STATE byte of a queue's descriptor is a request to its firmware (R185). -/
def State.noteState (s : State) (f : Flow) (pa : Nat) (bs : List Byte) : State :=
  if isSteward f then
    { s with queues := s.queues.mapVal (fun _ q =>
        if q.die = flowDie f ∧ q.asked ≠ some 5 ∧ pa ≤ q.descPa + 10 ∧ q.descPa + 10 < pa + bs.length then { q with asked := (bs[q.descPa + 10 - pa]?).map BitVec.toNat } else q) }
  else s

/-- A store performs for a lane. -/
def State.storeAt (s : State) (e : Issuer) (l pa : Nat) (bs : List Byte) (release : Option Nat) : State :=
  if paSpace pa = 2 then s.devStore pa bs
  else if s.ownedBytes pa bs.length then s.logOwned e pa
  else ((s.poke pa bs false (s.releaseOf e l release)).noteHost e.f pa).noteState e.f pa bs

/-- A load fills a word of its core's L1 data cache, 128 KiB (R10). -/
def State.dataLine (s : State) (e : Issuer) (pa : Nat) : State :=
  match e.f with
  | .wave c _ => if paSpace pa = 0 then s.cacheWritten c 3 (pa / 4 % 32768) (e.c.addr, 0) else s
  | .steward _ _ => s

/-- A load performs for a lane: its bytes. -/
def State.loadAt (s : State) (e : Issuer) (l pa n : Nat) (acquire : Option Nat) : State × List Byte :=
  if paSpace pa = 2 then (s, s.devLoad pa n)
  else (((s.noteRead e l pa n acquire).countGranule pa n false).dataLine e pa, s.bytes pa n)

/-- The failure of the lowest lane whose data are poisoned, found when they return (R291, R468). -/
def State.poisonOf (s : State) (e : Issuer) (ps : Tab Nat) (va : Nat → Nat) : Option Imprecise :=
  (ps.find? (fun p => paSpace p.2 == 0 && s.poison.contains (lineOf p.2))).map (fun p =>
    { code := 0x06, sub := 6, lane := p.1, addr := va p.1, bank := 0, count := 0, sitePc := e.c.addr, siteSeq := 0 })

/-- The words of a loaded value: extended to 32 bits where it is narrower (R394). -/
def loadWords (sgn : Bool) (bs : List Byte) : List Word :=
  let v := natOfBytes bs
  let n := bs.length
  if n < 4 then [if sgn then BitVec.ofInt 32 (signed (8 * n) v) else BitVec.ofNat 32 v] else wordsOfNat (n / 4) v

/-- The value stored by a lane (R394): the low bytes of operand C, of a variable, a pair or a quad. -/
def State.storeWords (s : State) (e : Issuer) (l : Nat) : List Word :=
  if e.p.scRole = .quad then match e.p.sc with
    | .var n => (List.range 4).map (fun k => s.readVar e.f e.w (n.toNat + k) l)
    | _ => []
  else wordsOf (s.srcC e l)

/-- The bytes of words, low word first. -/
def bytesOfWords (ws : List Word) : List Byte := ws.flatMap (fun w => bytesOfNat 4 w.toNat)

/-- The bytes that a lane stores. -/
def State.storeBytes (s : State) (e : Issuer) (n l : Nat) : List Byte := (bytesOfWords (s.storeWords e l)).take n

/-- The 32-bit words of a stored value that the watches test (R448). -/
def probeWords (bs : List Byte) : List Nat := if bs.length < 4 then [natOfBytes bs] else (wordsOfBytes bs).map (fun w => w.toNat)

/-- The loads of the lanes of a run, in ascending order of lane. -/
def State.loadLanes (s : State) (e : Issuer) (run : LaneMask) (ps : Tab Nat) (n : Nat) (sgn : Bool) (acquire : Option Nat) : State × Tab (List Word) :=
  ps.foldl (fun (acc : State × Tab (List Word)) p =>
    if e.commits run p.1 then
      let (s, bs) := acc.1.loadAt e p.1 p.2 n acquire
      (s, acc.2.set p.1 (loadWords sgn bs))
    else acc) (s, [])

/-! ### The scratchpad (R111, R114, R396) -/

/-- What a scratchpad access of a lane meets. -/
inductive SpadHit where
  | fault (t : Trap)
  | guard
  /-- Plain bytes, or a line of the stage of a window. -/
  | ok (t : Option (Nat × Nat))

/-- The offset of a scratchpad access (R111). -/
def State.spadOffset (s : State) (e : Issuer) (l : Nat) : Nat := (s.srcA e l + s.srcB e l).toNat % 2 ^ 24

/-- The bytes of an access touch a guard line (R114). -/
def inGuard (alloc off n : Nat) : Bool := 0xFFFF80 ≤ off || (off < alloc + 128 && alloc < off + n)

/-- What a touch finds is not there yet: the line is absent, or the stage that the touch issues is (R119, R120). -/
def State.linePending (s : State) (q : Group) (off : Nat) (t : Option (Nat × Nat)) : Bool :=
  match t, (s.recordOf q).windowAt off with
  | some (win, st), some (_, pl) =>
    (q.windows.get win).any (fun w => w.absent.contains (lineIn pl off) || w.bound.any (fun b => (b.stages.get st).isNone))
  | _, _ => false

/-- Check one access (R111, R114, R120, R123, R211, R468). -/
def State.spadCheck (s : State) (q : Group) (off n lane : Nat) (store : Bool) : SpadHit :=
  let alloc := (s.recordOf q).allocation
  if off % n ≠ 0 then .fault { code := 0x04, addr := off, lane }
  else if inGuard alloc off n then .guard
  else if alloc < off + n then .fault { code := 0x08, addr := off, lane }
  else
    match (if store then q.barriers.find? (fun b => b.1 < off + n && off < b.1 + 16) else none) with
    | some b => .fault { code := 0x0C, addr := b.1, lane }
    | none =>
      match s.touchOf q off lane with
      | .fault t => .fault t
      | .plain => poisoned none
      | .stage win st => poisoned (some (win, st))
where
  /-- A load of a poisoned word that is present raises MEMORY_ERROR (R468, R470). -/
  poisoned (t : Option (Nat × Nat)) : SpadHit :=
    let absent := s.linePending q off t
    let bad := (wordsAt off n).find? (fun k => q.poison.contains k)
    match store, absent, bad with
    | false, false, some k => .fault { code := 0x15, sub := 2, addr := k, lane }
    | _, _, _ => .ok t

/-- A scratchpad access that has passed its checks: its lane and offset, whether it touches a guard line, and the window and stage that it touches. -/
structure SpadTouch where
  lane : Nat
  off : Nat
  guard : Bool
  stage : Option (Nat × Nat)

/-- Touches take place one after another: the state, and the offset of the first on which the wave parks (R119, R120). -/
def State.touchAll (s : State) (c g pc wave : Nat) (ts : List SpadTouch) : State × Option Nat :=
  ts.foldl (fun (acc : State × Option Nat) t =>
    match t.stage with
    | some (win, st) =>
      let (s', parks) := acc.1.touch c g win st t.off pc wave
      (s', if parks && acc.2.isNone then some t.off else acc.2)
    | none => acc) (s, none)

/-- Scratchpad accesses of `n` bytes at offsets, each with its lane: every one is checked, with the faults of the instruction's own checks, and the wave parks where a
touch finds an absent line (R119, R120, R392). The touches of accesses that go on take place with them, so that a fault leaves every window as it was (R290). -/
def State.spadTouches (s : State) (e : Issuer) (n : Nat) (store : Bool) (extra : List Trap) (xs : List (Nat × Nat)) : Except Hold (Nat × Nat × List SpadTouch) :=
  match s.groupOf e.f with
  | none =>
    let t (x : Nat × Nat) : Trap := if x.2 % n ≠ 0 then { code := 0x04, addr := x.2, lane := x.1 } else { code := 0x08, addr := x.2, lane := x.1 }
    .error (.trap ((Trap.first (xs.map t)).getD .illegal))
  | some (c, g, q) =>
    let hits := xs.map (fun x => (x.1, x.2, s.spadCheck q x.2 n x.1 store))
    let ts := hits.filterMap (fun h => match h.2.2 with
      | .fault t => some t
      | _ => none)
    match Trap.first (ts ++ extra) with
    | some t => .error (.trap t)
    | none =>
      let touches : List SpadTouch := hits.map (fun h => { lane := h.1, off := h.2.1,
                                                           guard := match h.2.2 with
                                                             | .guard => true
                                                             | _ => false
                                                           stage := match h.2.2 with
                                                             | .ok t => t
                                                             | _ => none })
      match s.touchAll c g e.c.addr e.w.number touches with
      | (s', some o) => .error (.park s' (.line o))
      | (_, none) => .ok (c, g, touches)

/-- The scratchpad accesses of the lanes of an instruction. -/
def State.spadResolve (s : State) (e : Issuer) (n : Nat) (store : Bool) (extra : List Trap) (off : Nat → Nat) : Except Hold (Nat × Nat × List SpadTouch) :=
  s.spadTouches e n store extra (e.accessLanes.map (fun l => (l, off l)))

/-- The touches of the lanes that commit, where the accesses perform (R119, R120). -/
def State.touchRun (s : State) (e : Issuer) (run : LaneMask) (c g : Nat) (ts : List SpadTouch) : State :=
  (s.touchAll c g e.c.addr e.w.number (ts.filter (fun t => e.commits run t.lane))).1

/-- A write of scratchpad bytes, to the releases they carry (R133, R141). -/
def Group.tagSpad (q : Group) (off n : Nat) (tag : Option SyncTag) : Group := { q with spadTags := tagBytes q.spadTags off n false tag }

/-- A guard touch is recorded (R114). COUNT is 1 at the first touch, so that it counts every touch: the model's choice between the words of R114 and of R294 (DESIGN CHOICE, log 129). -/
def Group.noteGuard (q : Group) (wave off pc : Nat) : Group :=
  { q with guard := some (match q.guard with
    | some r => { r with count := min 255 (r.count + 1) }
    | none => { code := 0x10, sub := 0, wave, offset := off, bank := off / 4 % 512, count := 1, sitePc := pc, siteSeq := 0 }) }

/-- The layout of exponent-delta coding that a window's stores use: that of its bound entry, or none (R126). -/
def Window.comp (w : Window) : Nat := (w.bound.map (fun b => (regionOf b.region).comp)).getD 0

/-- A store of bytes to the allocation; a compressed window's tile is coded again, and the store has no effect where it does not fit (R129). -/
def Group.store (q : Group) (r : Record) (off : Nat) (bs : List Byte) : Option Group :=
  let spad := Memory.write q.spad off bs
  let whole := ((List.range (bs.length / 4)).map (off / 4 + ·))
  let q' := { q with spad, poison := q.poison.filter (fun k => !whole.contains k) }
  match r.windowAt off with
  | some (win, pl) =>
    if pl.compressed then
      let w := q.windows.getD win { bound := none, absent := [], tiles := [] }
      let tile := (off - pl.base) / 4096
      let (un, len) := tileLength w.comp (Memory.read spad (pl.base + 4096 * tile) 4096)
      (w.putTile pl tile un len).map (fun w' => { q' with windows := q'.windows.set win w' })
    else some q'
  | none => some q'

end Sys2Proof.Machine
end

