-- ==== Sys2Proof/Machine/Calls.lean ====
section
/-! DEFINITION. `ecall` and its services as their caller sees them: the request, and the answer when the steward has given it (R436 of
spec/23_ref_engines_system.md, R185, R494). -/

namespace Sys2Proof.Machine

/-- A request reaches the steward of a die (R436). -/
def State.request (s : State) (d : Nat) (r : Request) : State :=
  s.modDie d (fun q => { q with requests := q.requests.set (q.requests.free 0 q.requests.length) r })

/-- `ecall` (R436): a fence, then the request; the wave is held until it is answered, and then writes the answer and goes on. -/
def ecallPlan (x : XArgs) (s : State) (e : Issuer) : Except Hold Plan :=
  match e.w.park with
  | some (.answered v) => .ok { resultPlan e none false (fun _ _ => wordsOf v) (fun _ _ => {}) with pass := true }
  | _ =>
    let a := s.srcA e e.lead
    let b := s.srcB e e.lead
    .ok {
      stay := true
      commit := fun _ t => ((t.fabricFence e.f).request (flowDie e.f) (.ecall e.f (s.contextOf e.f) (x.immBits 7 0) a b e.c.addr)).modFlow e.f (fun w => { w with park := some .ecall }) }

/-- `ecall` with a service that has no constructor of its own (R436). -/
def execEcall (x : XArgs) (s : State) : Out := perform (.ecall x) (ecallPlan x) s

/-- `ecall` QUEUE_QUIESCE (R185). -/
def execQueueQuiesce (x : XArgs) (s : State) : Out := perform (.queueQuiesce x) (ecallPlan x) s

/-- `ecall` QUEUE_RESUME (R185). -/
def execQueueResume (x : XArgs) (s : State) : Out := perform (.queueResume x) (ecallPlan x) s

/-- `ecall` QUEUE_RESET (R185). -/
def execQueueReset (x : XArgs) (s : State) : Out := perform (.queueReset x) (ecallPlan x) s

/-- `ecall` TRACE_BIND (R185). -/
def execTraceBind (x : XArgs) (s : State) : Out := perform (.traceBind x) (ecallPlan x) s

/-- `ecall` TRACE_CLOSE (R185). -/
def execTraceClose (x : XArgs) (s : State) : Out := perform (.traceClose x) (ecallPlan x) s

/-- `ecall` CODE_LOAD (R494). -/
def execCodeLoad (x : XArgs) (s : State) : Out := perform (.codeLoad x) (ecallPlan x) s

end Sys2Proof.Machine
end

