-- ==== Sys2Proof/Machine/Chain.lean ====
section
/-! DEFINITION. `enq` and `eseq` (R149, R280, R281, R284 to R286 of spec/17_copy_engines.md, R425). -/

namespace Sys2Proof.Machine

/-- A 64-bit field of a chain's descriptor: HEAD 0, TAIL 8, ISSUED 16, DONE 24 (R280). -/
def State.chainWord (s : State) (pa off : Nat) : Nat := natOfBytes (s.bytes (pa + off) 8)

/-- STATE of a descriptor (R280). -/
def State.chainState (s : State) (pa : Nat) : Nat := (s.byte (pa + 33)).toNat

/-- Bytes of a descriptor or an entry written in a step at the home slice, as a release at fabric scope (R149, R280). The write is none of the atomic writes of R141. -/
def State.chainPut (s : State) (who : Place) (pa : Nat) (bs : List Byte) : State := s.poke pa bs false (some { scope := 4, place := who })

/-- The ASID with which `enq` and `eseq` reach a descriptor at a virtual address: the flow's own, or on a steward core that of the context of the chain that the
address names in it (R425). -/
def State.chainAsid (s : State) (f : Flow) (va : Nat) : Nat :=
  if !isSteward f then s.asidOf f
  else ((s.chains.findSome? (fun c => (s.contexts.get c.2.context).bind (fun x => x.asid.bind (fun a =>
    if s.physOf (flowDie f) a va = some c.1 then some a else none)))).getD 0)

/-- The launches that an `enq` makes non-replayable (R192, R425). -/
def enqLaunch (e : Issuer) (ch : Option Chain) : Option Nat :=
  if isSteward e.f then ch.bind (fun c => c.launch) else some e.w.launch

/-- Where `enq` writes NEXT of a chain's last entry (R224, R239, R284): an access of the instruction like those to its operands (R226, R290), none where the chain takes no entry or
has none. -/
def State.tailCheck (s : State) (e : Issuer) (asid pa : Nat) : State × Except Trap (Option Nat) :=
  let tail := s.chainWord pa 8
  if (s.chains.get pa).isNone || s.chainState pa == 2 || tail == 0 then (s, .ok none)
  else match s.checkGlobalAs e.f asid (tail + 8) 8 .write .store e.lead with
    | (s, .ok p) => (s, .ok (some p))
    | (s, .error t) => (s, .error t)

/-- The step of `enq` at the home slice of a descriptor (R284): the state and the sequence number, or 0 where it is refused. `next` is NEXT of its last entry. -/
def State.append (s : State) (e : Issuer) (pa xe entryPa : Nat) (next : Option Nat) : State × Nat :=
  let who := s.placeOf e.f
  if (s.chains.get pa).isNone || s.chainState pa == 2 then (s, 0)
  else
    let n := (s.chainWord pa 16 + 1) % 2 ^ 64
    let s := (s.chainPut who (pa + 16) (bytesOfNat 8 n)).chainPut who (entryPa + 56) (bytesOfNat 8 n)
    let s := match next with
      | none => (s.chainPut who pa (bytesOfNat 8 xe)).chainPut who (pa + 33) [1]
      | some p => s.chainPut who p (bytesOfNat 8 xe)
    let s := { s with chains := s.chains.upd pa (fun c => { c with sites := c.sites.set n e.c.addr }) }
    (s.chainPut who (pa + 8) (bytesOfNat 8 xe), n)

/-- The checks of `enq` (R284, R292): the addresses of the descriptor, of the entry and of NEXT of the chain's last entry. -/
def State.enqCheck (s : State) (e : Issuer) (asid xc xe : Nat) : State × Except Trap (Nat × Nat × Option Nat) :=
  match s.checkGlobalAs e.f asid xc 64 .write .reserve e.lead with
  | (s1, r1) =>
    match s1.checkGlobalAs e.f asid xe 64 .write .store e.lead with
    | (s2, r2) =>
      match r1, r2 with
      | .error t, .error u => (s2, .error (if u.before t then u else t))
      | .error t, .ok _ | .ok _, .error t => (s2, .error t)
      | .ok pa, .ok pe =>
        match s2.tailCheck e asid pa with
        | (s3, .ok next) => (s3, .ok (pa, pe, next))
        | (s3, .error t) => (s3, .error t)

/-- `enq` (R284): the two stores to the entry, then the step at the descriptor. -/
def execEnq (x : XArgs) (s : State) : Out :=
  perform (.enq x) (fun s e =>
    let xc := (s.srcA e e.lead).toNat
    let xe := (s.srcB e e.lead).toNat
    match s.enqCheck e (s.chainAsid e.f xc) xc xe with
    | (s', .error t) => .error (.trapIn s' t)
    | (s', .ok (pa, pe, next)) =>
      let access (_ : LaneMask) (t : State) : Given :=
        let t := (t.storeAt e e.lead (pe + 4) (bytesOfNat 4 0xFFFFFFFF) none).storeAt e e.lead (pe + 8) (bytesOfNat 8 0) none
        let t := ((enqLaunch e (t.chains.get pa)).elim t (fun n => t.modLaunch n (fun l => { l with replayable := false })))
        let (t, n) := t.append e pa xe pe next
        { s := t, vals := [(e.lead, wordsOf (BitVec.ofNat 64 n))] }
      .ok (requestPlan s' e {} [(e.lead, pa)] (fun _ => xc) access)) s

/-- The address of `eseq` is translated for a read (R225, R239); it need be neither aligned nor a descriptor's (R285). -/
def State.seqAddress (s : State) (e : Issuer) (xc : Nat) : State × Except Trap Nat :=
  if 2 ^ 48 ≤ xc then (s, .error { code := 0x05, addr := xc, lane := e.lead })
  else
    match s.translate e.f (s.chainAsid e.f xc) xc .read with
    | (s, .error sub) => (s, .error (pageTrap sub xc e.lead))
    | (s, .ok pa) => if s.unreachable (flowDie e.f) (paDie pa) then (s, .error { code := 0x07, addr := xc, lane := e.lead }) else (s, .ok pa)

/-- `eseq` (R285): DONE, read as an acquire at fabric scope (R149), or 0 for an address that is no registered descriptor. -/
def execEseq (x : XArgs) (s : State) : Out :=
  perform (.eseq x) (fun s e =>
    let xc := (s.srcA e e.lead).toNat
    match s.seqAddress e xc with
    | (s', .error t) => .error (.trapIn s' t)
    | (s', .ok pa) =>
      let access (_ : LaneMask) (t : State) : Given :=
        if (t.chains.get pa).isSome then
          { s := t.noteRead e e.lead (pa + 24) 8 (some 4), vals := [(e.lead, wordsOf (BitVec.ofNat 64 (t.chainWord pa 24)))],
            failure := t.poisonOf e [(e.lead, pa)] (fun _ => xc), reads := [(e.lead, xc, pa)] }
        else { s := t, vals := [(e.lead, wordsOf 0)], reads := [(e.lead, xc, pa)] }
      .ok (laterPlan s' e {} access)) s

end Sys2Proof.Machine
end

