-- ==== Sys2Proof/Machine/Clause.lean ====
section
/-! DEFINITION. The start of a clause: the choice of a run, its fetch and checks, its WAIT test, and the faults taken at a boundary (R17 to R19 of
spec/02_execution_model.md, R76 to R78, R97 of spec/05_encoding_and_assembly.md, R291, R299, R306 of spec/18_traps_and_preemption.md). -/

namespace Sys2Proof.Machine

/-! ### Whether a flow may issue (R204 to R207, R303, R480) -/

/-- A wave's park that lets it go on. -/
def goesOn : Option Park → Bool
  | none | some (.woken _) | some (.answered _) | some .matrixDone | some .arrived | some .lost => true
  | _ => false

/-- The wave belongs to a running group of a running launch of a live context. -/
def State.placedRunning (s : State) (c : Nat) (w : Wave) : Bool :=
  (s.group? c w.group).any (fun g => g.state == .running)
    && (s.launchOf w).any (fun l => l.state == .running && (s.contexts.get l.context).any (fun x => x.state == .live))

/-- The threads that a clause start may choose among. -/
def Wave.standingLanes (w : Wave) : LaneMask := w.live &&& ~~~w.halted

/-- A `dstep` is in progress on a core. -/
def State.stepping (s : State) (c : Nat) : Bool := s.dstep.any (fun d => match d.target with
  | .wave k _ => k == c
  | .steward _ _ => false)

/-- A swap of a core that has been asked for can begin: its shadow bank is empty, no restore and no `dstep` is in progress on it, and its die is not stopped (R168, R176, R303). -/
def State.swapReady (s : State) (c : Nat) : Bool :=
  let q := s.core c
  q.swapAsked && !q.swapping && !q.restoring && q.shadow.isNone && !s.stepping c && !(s.die (dieOf c)).frozen

/-- The die whose st0 stays powered in Burrow: 0, or 1 if 0 is fenced (R499). -/
def State.awakeDie (s : State) : Nat := if (s.die 0).fenceSelf then 1 else 0

/-- A flow is powered and its module runs (R496, R499, R501): cores do not issue while Burrow entry is under way, and in Burrow one steward core is left. -/
def State.powered (s : State) (f : Flow) : Bool :=
  match s.power, f with
  | .running, _ | .resuming, _ => true
  | .entering, .steward _ _ => true
  | .burrow, .steward d t => d == s.awakeDie && t == 0
  | _, _ => false

/-- A flow's core and module run, no swap of the core stops issue (R169), and a wave stands in its scheduler's active set (R205), whether it is parked or not. -/
def State.runs (s : State) (f : Flow) : Bool :=
  match s.flow? f with
  | none => false
  | some w =>
    s.powered f && !(s.die (flowDie f)).frozen &&
    (match f with
      | .wave c k => (s.core c).active.contains k && !(s.core c).swapping && !s.swapReady c && !(s.die (dieOf c)).fenceSelf && s.placedRunning c w && w.standingLanes != 0
      | .steward _ _ => w.live == 1)

/-- A flow may issue now: it runs and nothing parks it (R205). -/
def State.issuable (s : State) (f : Flow) : Bool := s.runs f && (s.flow? f).any (fun w => goesOn w.park)

/-! ### Runs (R17, R19) -/

/-- A position of the counter table as one number: counter, then word. -/
def posKey (p : Nat × Nat) : Nat := 16 * p.1 + p.2

/-- The positions of the runs in ascending order (R17). -/
def Wave.positions (w : Wave) : List (Nat × Nat) :=
  ((ascending ((LaneMask.toList w.standingLanes).map (fun l => posKey (w.position l))))).map (fun k => (k / 16, k % 16))

/-- The run at a position. -/
def Wave.runAt (w : Wave) (p : Nat × Nat) : LaneMask := LaneMask.ofList ((LaneMask.toList w.standingLanes).filter (fun l => w.position l == p))

/-- The candidate that a forced issue chooses (R19): the highest below the sweep mark, or else the highest. -/
def sweepChoice (sweep : Option (Nat × Nat)) (candidates : List (Nat × Nat)) : Option (Nat × Nat) :=
  let below := candidates.filter (fun p => match sweep with
    | none => true
    | some m => posKey p < posKey m)
  match below.getLast? with
  | some p => some p
  | none => candidates.getLast?

/-- The run of a clause start: its lanes and position, and what the head-issue count and the sweep mark become when it starts (R19). -/
structure Chosen where
  run : LaneMask
  addr : Nat
  word : Nat
  headIssues : Nat
  sweep : Option (Nat × Nat)
  /-- A forced issue, which makes the wave a swap candidate at the clause's end (R19, R206). -/
  forced : Bool := false
  /-- 0: a start, or a run that goes on mid-clause without a WAIT test (R306, R443); 1: after a trap's return (R299). -/
  mode : Nat

/-- The run that a resumption names: its lanes that still stand, at one position (R17, R299, R306). -/
def Wave.resumed (w : Wave) : Option (LaneMask × Nat) :=
  match w.resume with
  | none => none
  | some (m, mode) =>
    let left : LaneMask := m &&& w.standingLanes
    if left = 0 then none else some (left &&& w.runAt (w.position (LaneMask.lowest left)), mode)

/-- The counts of a clause that `tret` issues for a run (R19, R299): it is the wave's only run, its head run, or the run that a forced issue chooses, or it leaves them as
they are. -/
def Wave.tretCounts (w : Wave) (p : Nat × Nat) : Nat × Option (Nat × Nat) × Bool :=
  match w.positions with
  | h :: rest@(_ :: _) =>
    if 256 ≤ w.headIssues && sweepChoice w.sweep rest == some p then (0, some p, true)
    else (if p = h then w.headIssues + 1 else w.headIssues, w.sweep, false)
  | _ => (0, w.sweep, false)

/-- Choose the run of the next clause (R17, R19, R297, R299). -/
def Wave.choose (w : Wave) : Option Chosen :=
  if w.handler then some { run := if w.trap.mask = 0 then 1 else w.trap.mask, addr := w.hpc, word := w.hword, headIssues := w.headIssues, sweep := w.sweep,
                             mode := if w.hword = 0 then 1 else 0 }
  else
    match w.resumed with
    | some (run, mode) =>
      let p := w.position (LaneMask.lowest run)
      let (headIssues, sweep, forced) := if mode = 0 then (w.headIssues, w.sweep, false) else w.tretCounts p
      some { run, addr := p.1, word := p.2, headIssues, sweep, forced, mode }
    | none =>
      match w.positions with
      | [] => none
      | [p] => some { run := w.runAt p, addr := p.1, word := p.2, headIssues := 0, sweep := w.sweep, mode := 0 }
      | p :: rest =>
        if 256 ≤ w.headIssues then
          (sweepChoice w.sweep rest).map (fun q => { run := w.runAt q, addr := q.1, word := q.2, headIssues := 0, sweep := some q, forced := true, mode := 0 })
        else some { run := w.runAt p, addr := p.1, word := p.2, headIssues := w.headIssues + 1, sweep := w.sweep, mode := 0 }

/-! ### Fetch (R76 to R78, R162) -/

/-- One bit of CRC-8 with polynomial 0x07 (R77). -/
def crc8Bit (c : Nat) : Nat := if 128 ≤ c then (2 * c % 256) ^^^ 7 else 2 * c

/-- One byte, most significant bit first. -/
def crc8Byte (c : Nat) (b : Byte) : Nat := crc8Bit (crc8Bit (crc8Bit (crc8Bit (crc8Bit (crc8Bit (crc8Bit (crc8Bit (c ^^^ b.toNat))))))))

/-- CHECK of a clause (R77). -/
def clauseCheck (h : Word) (ws : List Word) : Nat :=
  (((bytesOfNat 4 h.toNat).drop 1) ++ ws.flatMap (fun w => bytesOfNat 4 w.toNat)).foldl crc8Byte 0

/-- The lines of a core's instruction cache: 64 KiB (R10). -/
def codeLines : Nat := 1024

/-- Room for a line in the instruction cache: of a full one some line leaves, which the spec does not name (log 96). -/
def Core.codeRoom (q : Core) (n : Nat) : Core := if q.icache.length < codeLines then q else { q with icache := q.icache.eraseIdx (n % q.icache.length) }

/-- The 64 bytes of a code line: from the core's instruction cache, or read and cached (R162, R225, R227). Steward cores fetch from memory. -/
def State.fetchLine (s : State) (f : Flow) (line clause : Nat) : State × Except Trap (List Byte) :=
  let asid := s.asidOf f
  let key := 1024 * line + asid
  let va := 64 * line
  let cached : Option (List Byte) := match f with
    | .wave c _ => (s.core c).icache.get key
    | .steward _ _ => none
  match cached with
  | some bs => (s, .ok bs)
  | none =>
    match s.translate f asid va .fetch with
    | (s, .error sub) => (s, .error (pageTrap sub va 0))
    | (s, .ok pa) =>
      if s.accessBad (flowDie f) pa 64 .load then (s, .error { code := 0x07, addr := va })
      else if s.poison.contains (lineOf pa) then (s, .error { code := 0x06, sub := 6, addr := va })
      else
        let bs := s.bytes pa 64
        let s := s.countGranule pa 64 false
        match f with
        | .wave c _ => (({ s with fresh := s.fresh + 1 }).modCore c (fun q => { q with icache := (q.codeRoom (Config.codeVictim s.fresh)).icache.set key bs }) |>.cacheWritten c 4 (line % codeLines) (clause, 0), .ok bs)
        | .steward _ _ => (s, .ok bs)

/-- One code word of a clause at an address. -/
def State.fetchWord (s : State) (f : Flow) (va clause : Nat) : State × Except Trap Word :=
  match s.fetchLine f (va / 64) clause with
  | (s, .error t) => (s, .error { t with addr := va })
  | (s, .ok bs) => (s, .ok (BitVec.ofNat 32 (natOfBytes ((bs.drop (va % 64)).take 4))))

/-- Words of a clause from an address on. -/
def State.fetchRun (s : State) (f : Flow) (clause va : Nat) : Nat → State × Except Trap (List Word)
  | 0 => (s, .ok [])
  | n + 1 =>
    match s.fetchWord f (va % 2 ^ 48) clause with
    | (s, .error t) => (s, .error t)
    | (s, .ok w) =>
      match s.fetchRun f clause (va + 4) n with
      | (s, .ok ws) => (s, .ok (w :: ws))
      | (s, .error t) => (s, .error t)

/-- A header's COUNT and WAIT (R76). -/
def headerCount (h : Word) : Nat := bits h.toNat 31 28
/-- WAIT of a header. -/
def headerWait (h : Word) : Nat := bits h.toNat 24 13

/-- Fetch a clause and check it (R77, R78). -/
def State.fetchClause (s : State) (f : Flow) (addr : Nat) : State × Except Trap (Word × List Word) :=
  match s.fetchWord f addr addr with
  | (s, .error t) => (s, .error t)
  | (s, .ok h) =>
    match s.fetchRun f addr (addr + 4) (headerCount h) with
    | (s, .error t) => (s, .error t)
    | (s, .ok ws) =>
      if clauseCheck h ws ≠ bits h.toNat 7 0 then (s, .error { code := 0x01, addr })
      else if headerCount h = 0 ∨ headerClass h = 7 ∨ bits h.toNat 12 8 ≠ 0 then (s, .error .illegal)
      else (s, .ok (h, ws))

/-! ### The length of a skipped instruction (R299) -/

/-- The words of the instruction at the head of a list, judged by its fields: a reserved major counts as X-form. -/
def skipLength : List Word → Nat
  | [] => 1
  | w :: rest =>
    let v := w.toNat
    let major := bits v 28 24
    let ext := ((rest.head?).getD 0).toNat
    let lit := bits v 15 8 == 0xFF || bits v 7 0 == 0xFF
    match formOf major (bit v 29) with
    | some .hint => 1
    | some .b | some .u | some .ctl => if lit then 2 else 1
    | _ => if lit || bits ext 31 24 == 0xFF || (major == 0x14 && bits ext 7 0 == 0xFF) then 3 else 2

/-! ### The start (R17, R53, R97, R306) -/

/-- One latch entry of a run put together from what its lanes kept (R306, R442). -/
def keptLatch (kept : Tab (List Latch)) (lanes : List Nat) (k : Nat) : Latch :=
  let vs := lanes.filterMap (fun l => (((kept.getD l [])[k]?).bind (fun x => x.value l)).map (fun v => (l, v)))
  if vs = [] then .invalid else .lanes vs

/-- The latches with which a run goes on mid-clause. -/
def Wave.keptLatches (w : Wave) (run : LaneMask) : List Latch := (List.range 8).map (keptLatch w.kept (LaneMask.toList run))

/-- A trap taken at a clause start, at the header with WORD 0 (R295). -/
def State.trapAtStart (s : State) (f : Flow) (k : Chosen) (t : Trap) : State :=
  (s.modFlow f (fun w => { w with resume := none })).takeTrap f (t.regs k.addr 0 k.run)

/-- A flow issues (R205): a wave goes behind the others of the active sets, which stand in the order of their last issue, least recent first. -/
def State.issued (s : State) (f : Flow) : State :=
  match f with
  | .wave c k =>
    (s.modCore c (fun q => { q with active := q.active.filter (· != k) ++ [k] })).modFlow f (fun w => { w with unissued := false })
  | .steward _ _ => s

/-- An instruction that a wave issues is tagged where its scheduler has no tag and the sampling chooses it (R460): no instruction is, while the core's buffer is full (R462). -/
def State.tagIssue (s : State) (f : Flow) : State :=
  match f, (s.flow? f).bind (fun w => w.clause) with
  | .wave c k, some x =>
    let q := s.core c
    if !q.trailCtl.getLsbD 63 || 64 ≤ q.trailBuf.length || (q.trailTags.get (k / 24)).isSome then s
    else
      let t : TrailTag := { slot := k, addr := x.addr, pos := x.pos, pc := x.addr + 4 * x.pos, lanes := (LaneMask.toList x.run).length }
      let s := if Config.trailChoice s.fresh (bits q.trailCtl.toNat 55 52) then s.setCore c { q with trailTags := q.trailTags.set (k / 24) t } else s
      { s with fresh := s.fresh + 1 }
  | _, _ => s

/-- A clause begins for a run at a word (R17): the latches of a start are none, and those of a run that goes on mid-clause are those that its lanes kept. -/
def State.beginClause (s : State) (f : Flow) (k : Chosen) (h : Word) (ws : List Word) (pos : Nat) : State :=
  let c : Clause := { addr := k.addr, header := h, words := ws, pos, run := k.run }
  let s := s.modFlow f (fun w => { w with
    clause := some c
    latches := if k.word = 0 || k.mode != 0 then [] else w.keptLatches k.run
    kept := w.kept.keep (fun l _ => !k.run.getLsbD l)
    resume := none
    hword := 0
    headIssues := k.headIssues
    sweep := k.sweep
    candidate := k.forced })
  s.traceClause f c (k.word != 0)

/-- `tret.skip` passes the instruction at which the resuming run stands (R299): the run stands at the next one, or at the next clause where that was the clause's last. Nothing is
skipped where the clause cannot be fetched or fails its check, or where the run stands beyond it. -/
def State.skipInstruction (s : State) (f : Flow) : State :=
  match (s.flow? f).bind (fun w => w.resumed.map (fun r => (r.1, w.position (LaneMask.lowest r.1)))) with
  | none => s
  | some (run, addr, word) =>
    match s.fetchClause f addr with
    | (s, .error _) => s
    | (s, .ok (_, ws)) =>
      let pos := word + skipLength (ws.drop (word - 1))
      let next : Nat × Nat := if ws.length < word then (addr, word) else if ws.length < pos then ((addr + 4 * (ws.length + 1)) % 2 ^ 48, 0) else (addr, pos)
      s.modFlow f (fun w => { w with
        counter := (LaneMask.toList run).foldl (fun t l => t.set l next.1) w.counter
        word := (LaneMask.toList run).foldl (fun t l => if next.2 = 0 then t.del l else t.set l next.2) w.word })

/-- Start a clause for a chosen run (R76 to R78, R97, R299): its fetch and checks, then its WAIT test, which a mixed clause and interlocked mode leave out (R99). -/
def State.startClause (s : State) (f : Flow) (k : Chosen) : State :=
  match s.fetchClause f k.addr with
  | (s, .error t) => s.trapAtStart f k t
  | (s, .ok (h, ws)) =>
    if ws.length < k.word then s.trapAtStart f k .illegal
    else
      match s.flow? f with
      | none => s
      | some w =>
        let c : Clause := { addr := k.addr, header := h, words := ws, pos := 1, run := k.run }
        let tests := (k.word = 0 || k.mode != 0) && !s.interlocked w c
        if tests && !w.flagsClear (headerWait h) then s else s.beginClause f k h ws (max 1 k.word)

/-! ### The halt at a clause's end (R454) -/

/-- A wave that a gang halt stops halts once its clause has ended, as `dhalt` halts one (R442). -/
def State.stopAtBoundary (s : State) (f : Flow) : State :=
  match s.flow? f with
  | none => s
  | some w =>
    if w.stopping && w.clause.isNone then
      ((s.modFlow f (fun w => { w with stopping := false })).haltLanes f w.live).traceEvent f 4 0xFF (w.live &&& ~~~w.halted)
    else s

/-- GANG_HALT (R454): a wave of a halted gang halts at its boundary. -/
def execGangHalt (core slot : Nat) (s : State) : Out := .next (s.stopAtBoundary (.wave core slot))

/-! ### Imprecise faults (R114, R129, R260, R291) -/

/-- The trap registers of an imprecise fault taken at a point for a run. A matrix-state trap at a boundary (R260) is not among the imprecise faults of R291, nor is the fault of
an operation that held its wave (R259). -/
def Imprecise.regs (r : Imprecise) (addr word : Nat) (run : LaneMask) : TrapRegs :=
  { cause := BitVec.ofNat 64 ((if r.code = 0x0D || r.precise then 0 else 2 ^ 62) + r.lane % 64 * 2 ^ 56 + r.bank % 512 * 2 ^ 40 + min r.count 255 * 2 ^ 32 + r.sub % 256 * 256
      + r.code % 256),
    pc := tpcOf addr word, mask := run, addr := BitVec.ofNat 64 r.addr, site0 := BitVec.ofNat 64 (r.sitePc % 2 ^ 48), site1 := BitVec.ofNat 64 r.siteSeq }

/-- The boundary at which a flow stands: its address, its word and the run stopped there. -/
def Wave.boundary (w : Wave) : Option (Nat × Nat × LaneMask) :=
  match w.clause with
  | some c => some (c.addr, if c.pos = 1 then 0 else c.pos, c.run)
  | none => w.choose.map (fun k => (k.addr, k.word, k.run))

/-- A wave stands at a boundary: it is not parked, or parked by an instruction that has had no effect yet, whose absent line a fault may name (R119, R129). One whose held
instruction has completed leaves it first (R217, R259, R436). -/
def atInstruction : Option Park → Bool
  | none | some (.line _) => true
  | _ => false

/-- A wave stands at a clause boundary: no clause of it is in progress, nor does the run that is next stand within one (R169, R299). -/
def Wave.atClauseBoundary (w : Wave) : Bool := w.clause.isNone && w.choose.all (fun k => k.word == 0)

/-- The imprecise faults of a wave, each with its place. -/
def Wave.faults (w : Wave) : List (Nat × Imprecise) := (List.range w.imprecise.length).zip w.imprecise

/-- The first imprecise fault that a wave can take now: that of the operation on which it was held comes first (R259), those of R260 wait for a clause boundary, and those of
R114 and R129 for an instruction boundary. -/
def Wave.dueImprecise (w : Wave) : Option (Nat × Imprecise) :=
  if atInstruction w.park then (w.faults.find? (fun r => r.2.precise)).or (w.faults.find? (fun r => w.atClauseBoundary || r.2.code != 0x0D)) else none

/-- The word of TPC for a fault at a boundary (R295): one that is precise at an instruction names its word. -/
def Imprecise.wordOf (r : Imprecise) (w : Wave) (word : Nat) : Nat := if r.precise then (w.clause.map (fun c => c.pos)).getD word else word

/-- The imprecise fault of a flow that is due is taken at the boundary where the flow stands (R169, R291). -/
def State.takeDue (s : State) (f : Flow) : State :=
  match s.flow? f with
  | none => s
  | some w =>
    match w.dueImprecise, w.boundary with
    | some (n, r), some (addr, word, run) =>
      (s.modFlow f (fun w => { w with imprecise := w.imprecise.eraseIdx n })).takeTrap f (r.regs addr (r.wordOf w word) run)
    | _, _ => s

/-- An imprecise fault of a flow that runs is taken at a boundary (R291). -/
def State.takeImprecise (s : State) (f : Flow) : State := if s.runs f then s.takeDue f else s

/-- IMPRECISE_FAULT (R291): an imprecise fault is taken at a boundary of its wave. -/
def execImpreciseFault (core slot : Nat) (s : State) : Out := .next (s.takeImprecise (.wave core slot))

end Sys2Proof.Machine
end

