-- ==== Sys2Proof/Machine/Approx.lean ====
section
/-! DEFINITION. The functions that the spec bounds but does not fix (R343, R352 of spec/20_ref_float.md): a free value within the bound of its entry, the bound being
judged against a fixed-point evaluation of 160 fractional bits (log 8). -/

namespace Sys2Proof.Machine

/-- The fractional bits of the fixed-point evaluations. -/
def fxBits : Nat := 160
/-- One. -/
def fxOne : Nat := 2 ^ fxBits
/-- ln 2 in fixed point. -/
def fxLn2 : Nat := 0xB17217F7D1CF79ABC9E3B39803F2F6AF40F34326
/-- π/2 in fixed point. -/
def fxHalfPi : Nat := 0x1921FB54442D18469898CC51701B839A252049C11

/-- The sum of terms t, t·x/a, t·x/a·x/(a+1), … in fixed point. -/
def expTerms : Nat → Nat → Nat → Nat → Nat
  | 0, _, _, _ => 0
  | n + 1, x, a, t => t + expTerms n x (a + 1) (t * x / fxOne / a)

/-- 2^f for f in [0, 1), in fixed point. -/
def exp2Fx (f : Nat) : Nat := expTerms 48 (f * fxLn2 / fxOne) 1 fxOne

/-- The sum of z/a + z³/(a+2) + … in fixed point. -/
def atanhTerms : Nat → Nat → Nat → Nat → Nat
  | 0, _, _, _ => 0
  | n + 1, z2, a, t => t / a + atanhTerms n z2 (a + 2) (t * z2 / fxOne)

/-- ln m for m in [1, 2), in fixed point. -/
def lnFx (m : Nat) : Nat :=
  let z := (m - fxOne) * fxOne / (m + fxOne)
  2 * atanhTerms 56 (z * z / fxOne) 1 z

/-- The alternating sum t − t·r²/(a(a+1)) + … in fixed point: sine from (t = r, a = 2), cosine from (t = 1, a = 1). -/
def trigTerms : Nat → Nat → Nat → Nat → Int
  | 0, _, _, _ => 0
  | n + 1, r2, a, t => (t : Int) - trigTerms n r2 (a + 2) (t * r2 / fxOne / (a * (a + 1)))

/-- A finite magnitude m × 2^e in fixed point. -/
def toFx (m : Nat) (e : Int) : Nat :=
  if 0 ≤ e + fxBits then m * 2 ^ (e + fxBits).toNat else m / 2 ^ (-(e + fxBits)).toNat

/-- A fixed-point integer as an exact value. -/
def ofFx (v : Int) (shift : Int) : Exact := if v = 0 then .zero false else .fin (v < 0) v.natAbs (shift - fxBits)

/-- 2^A (R352). -/
def evalExp2 (neg : Bool) (m : Nat) (e : Int) : Exact :=
  let a : Int := if neg then -(toFx m e : Int) else toFx m e
  ofFx (exp2Fx (a % (fxOne : Int)).toNat) (a / (fxOne : Int))

/-- log2 of a positive value (R352). -/
def evalLog2 (m : Nat) (e : Int) : Exact :=
  let l := Nat.log2 m
  let mant := if l ≤ fxBits then m * 2 ^ (fxBits - l) else m / 2 ^ (l - fxBits)
  ofFx (((l : Int) + e) * fxOne + (lnFx mant * fxOne / fxLn2 : Nat)) 0

/-- sin (or cos, `turn` = 1) of ±x for x up to 1,024 (R352). -/
def evalTrig (turn : Nat) (neg : Bool) (m : Nat) (e : Int) : Exact :=
  let x := toFx m e
  let q := (2 * x + fxHalfPi) / (2 * fxHalfPi)
  let r : Int := (x : Int) - q * fxHalfPi
  let r2 := r.natAbs * r.natAbs / fxOne
  let sinR : Int := (if r < 0 then -1 else 1) * trigTerms 40 r2 2 r.natAbs
  let cosR : Int := trigTerms 40 r2 1 fxOne
  let v : Int := match (q + turn) % 4 with
    | 0 => sinR
    | 1 => cosR
    | 2 => -sinR
    | _ => -cosR
  ofFx (if neg ∧ turn = 0 then -v else v) 0

/-- e^x in fixed point for x in fixed point: the integer of e^x × 2^160. -/
def expFx (x : Nat) : Nat :=
  let t := x * fxOne / fxLn2
  exp2Fx (t % fxOne) * 2 ^ (t / fxOne)

/-- tanh for a magnitude below 9 (R352). -/
def evalTanh (neg : Bool) (m : Nat) (e : Int) : Exact :=
  if (Nat.log2 m : Int) + e < -40 then .fin neg m e
  else
    let y := expFx (2 * toFx m e)
    .fin neg ((y - fxOne) * fxOne / (y + fxOne)) (-(fxBits : Int))

/-- The logistic sigmoid of a finite non-zero value (R352). -/
def evalSig (neg : Bool) (m : Nat) (e : Int) : Exact :=
  if 8 ≤ (Nat.log2 m : Int) + e then (if neg then .fin false 1 (-300) else .fin false (fxOne - 1) (-(fxBits : Int)))
  else
    let y := expFx (toFx m e)
    let low := 2 ^ (2 * fxBits + 400) / (fxOne + y)
    if neg then .fin false low (-(fxBits : Int) - 400)
    else .fin false (2 ^ (fxBits + 400) - low) (-(fxBits : Int) - 400)

/-- 1/√A of a positive value (R352). -/
def evalRsqrt (m : Nat) (e : Int) : Exact :=
  let (m, e) := if e % 2 = 0 then (m, e) else (2 * m, e - 1)
  .fin false (isqrt 210 (2 ^ 400 / m) 0) (-200 - e / 2)

/-- One unit in the last place of FP32 at a value (R352). -/
def ulp (y : Exact) : Int :=
  match y with
  | .fin _ m e => max ((Nat.log2 m : Int) + e) (-126) - 23
  | _ => -149

/-- A free value within a bound: the choice where it is a finite FP32 value not further than the bound from the exact one, and else the nearest FP32 value. -/
def within (choice : Word) (y bound : Exact) : Word :=
  let near : Bool := match f32 choice with
    | .nan | .inf _ => false
    | v => !(bound.lt (sumExact .rne [v, y.negate]).abs)
  if near then choice else (roundFp32 .rne false y).1

/-- The exceptions of an approximated result that is not exact (R66, R343). UNF is judged on the function's exact value and not on the delivered one, which may lie elsewhere within its bound:
the model's choice (log 106). -/
def inexactExc (y : Exact) : Exc :=
  { inx := true, unf := (y.abs).lt (.fin false 1 (-126)) }

/-- The greater of two ulp counts and an absolute bound. -/
def boundOf (ulps : Nat) (abs : Option Int) (y : Exact) : Exact :=
  let b : Exact := .fin false ulps (ulp y)
  match abs with
  | some a => let c : Exact := .fin false 1 a; if b.lt c then c else b
  | none => b

end Sys2Proof.Machine
end

