-- ==== Sys2Proof/Machine/Float.lean ====
section
/-! DEFINITION. The FP32 instructions (R338 to R354 of spec/20_ref_float.md). -/

namespace Sys2Proof.Machine

/-- The FP32 value of an operand. -/
def fval (v : DWord) : Exact := f32 (lo32 v)

/-- FP32 results of the arithmetic of R347, each rounded once. -/
def fpAdd (m : RMode) (sat : Bool) (a b : DWord) : Word × Exc := roundFp32 m sat (sumExact m [fval a, fval b])
/-- Subtraction (R347). -/
def fpSub (m : RMode) (sat : Bool) (a b : DWord) : Word × Exc := roundFp32 m sat (sumExact m [fval a, (fval b).negate])
/-- Multiplication (R347). -/
def fpMul (m : RMode) (sat : Bool) (a b : DWord) : Word × Exc := roundFp32 m sat ((fval a).mul (fval b))
/-- Fused multiply-add (R347). -/
def fpFma (m : RMode) (sat : Bool) (a b c : DWord) : Word × Exc := roundFp32 m sat (sumExact m [(fval a).mul (fval b), fval c])

/-- Less(a, b) of R348: −0 is less than +0. -/
def lessZero (a b : Exact) : Bool :=
  match a, b with
  | .zero s, .zero t => s && !t
  | _, _ => a.lt b

/-- The minimum or maximum of two patterns of a format that are no NaN (R348). -/
def pickMin (f : Fmt) (isMax : Bool) (a b : Nat) : Nat :=
  if isMax then (if lessZero (f.value a) (f.value b) then b else a) else (if lessZero (f.value b) (f.value a) then b else a)

/-- `fminnum`, `fmaxnum` and the packed forms in a format (R348, R355). -/
def minNum (f : Fmt) (isMax : Bool) (a b : Nat) : Nat × Exc :=
  let x : Exc := { inv := f.signalling a || f.signalling b }
  let na := f.value a == .nan
  let nb := f.value b == .nan
  if na && nb then (f.nan, x) else if na then (b, x) else if nb then (a, x) else (pickMin f isMax a b, x)

/-- `fmin` and `fmax` (R348). -/
def minIeee (isMax : Bool) (a b : Nat) : Nat × Exc :=
  if fp32.value a == .nan || fp32.value b == .nan then (fp32.nan, { inv := true }) else (pickMin fp32 isMax a b, {})

/-- A pattern and its exceptions as a 32-bit result. -/
def as32 (r : Nat × Exc) : Word × Exc := (BitVec.ofNat 32 r.1, r.2)

/-- `fcmp` (R349). -/
def fpCmp (cond : Nat) (a b : Word) : Word × Exc :=
  let x := f32 a
  let y := f32 b
  let un := x == .nan || y == .nan
  let snan := fp32.signalling a.toNat || fp32.signalling b.toNat
  let res : Bool := match cond with
    | 0 => !un && x.eqv y
    | 1 => un || !x.eqv y
    | 2 => !un && x.lt y
    | 3 => !un && (x.lt y || x.eqv y)
    | 4 => !un && y.lt x
    | 5 => !un && (y.lt x || x.eqv y)
    | 6 => un
    | _ => !un
  let inv := if 2 ≤ cond ∧ cond ≤ 5 then un else snan
  (BitVec.ofNat 32 (b2n res), { inv })

/-- `fscale` (R350). Scales beyond 1,000 in magnitude act as 1,000: either is past every exponent of FP32. -/
def fpScale (m : RMode) (sat : Bool) (a b : DWord) : Word × Exc :=
  match fval a with
  | .fin s n e => roundFp32 m sat (.fin s n (e + max (-1000) (min 1000 (lo32 b).toInt)))
  | v => roundFp32 m sat v

/-- `fround` (R351). -/
def fpRoundInt (m : RMode) (a : DWord) : Word × Exc :=
  match fval a with
  | .fin s n e =>
    let (r, _) := roundMag m s n e 0
    if r = 0 then ((roundFp32 m false (.zero s)).1, {}) else ((roundFp32 m false (.fin s r 0)).1, {})
  | v => roundFp32 m false v

/-- `ffrac` (R353). -/
def fpFrac (m : RMode) (a : DWord) : Word × Exc :=
  match fval a with
  | .nan | .inf _ => roundFp32 m false .nan
  | .zero _ => (0, {})
  | .fin s n e =>
    if 0 ≤ e then (0, {})
    else
      let one := 2 ^ (-e).toNat
      let f := n % one
      if f = 0 then (0, {}) else roundFp32 m false (.fin false (if s then one - f else f) e)

/-- `fclass` (R354). -/
def fpClass (a : Word) : Word :=
  match f32 a with
  | .nan => if fp32.signalling a.toNat then 0x100 else 0x200
  | .inf s => if s then 0x001 else 0x080
  | .zero s => if s then 0x008 else 0x010
  | .fin s n _ => if n < 2 ^ 23 then (if s then 0x004 else 0x020) else (if s then 0x002 else 0x040)

/-- `frcp` (R352): correctly rounded, with a sticky bit below the quotient. -/
def fpRcp (m : RMode) (sat : Bool) (a : DWord) : Word × Exc :=
  match fval a with
  | .nan => roundFp32 m sat .nan
  | .inf s => roundFp32 m sat (.zero s)
  | .zero s => ((roundFp32 m sat (.inf s)).1, { dz := true })
  | .fin s n e => roundFp32 m sat (.fin s (2 * (2 ^ 80 / n) + b2n (2 ^ 80 % n != 0)) (-81 - e))

/-- `fsqrt` (R352): correctly rounded, with a sticky bit below the root. -/
def fpSqrt (m : RMode) (a : DWord) : Word × Exc :=
  match fval a with
  | .fin false n e =>
    let (n, e) := if e % 2 = 0 then (n, e) else (2 * n, e - 1)
    let v := n * 2 ^ 80
    let r := isqrt 60 v 0
    roundFp32 m false (.fin false (2 * r + b2n (r * r != v)) (e / 2 - 41))
  | .fin true _ _ | .inf true => roundFp32 m false .nan
  | v => roundFp32 m false v

/-- `frsq` (R352). -/
def fpRsq (a : DWord) : Word × Exc :=
  match fval a with
  | .nan | .inf true | .fin true _ _ => roundFp32 .rne false .nan
  | .inf false => (0, {})
  | .zero s => ((roundFp32 .rne false (.inf s)).1, { dz := true })
  | .fin false n e =>
    let l := Nat.log2 n
    if n = 2 ^ l ∧ ((l : Int) + e) % 2 = 0 then roundFp32 .rne false (.fin false 1 (-(((l : Int) + e) / 2)))
    else
      let y := evalRsqrt n e
      (within (Config.frsq (lo32 a)) y (boundOf 1 none y), { inx := true })

/-- `fexp2` (R352). -/
def fpExp2 (sat : Bool) (a : DWord) : Word × Exc :=
  match fval a with
  | .nan => roundFp32 .rne sat .nan
  | .inf s => if s then (0, {}) else roundFp32 .rne sat (.inf false)
  | .zero _ => (0x3F800000, {})
  | .fin s n e =>
    let big := 7 ≤ (Nat.log2 n : Int) + e
    if big ∧ !s then (BitVec.ofNat 32 (fp32.overflow .rne sat false), { ovf := true, inx := true })
    else if s ∧ !(Exact.fin false n e).lt (.fin false 151 0) then (0, { unf := true, inx := true })
    else
      let (r, frac) := (Exact.fin s n e).toInt .rz
      if !frac ∧ -149 ≤ r then roundFp32 .rne sat (.fin false 1 r)
      else
        let y := evalExp2 s n e
        (within (Config.fexp2 (lo32 a)) y (boundOf 2 none y), inexactExc y)

/-- `flog2` (R352). -/
def fpLog2 (a : DWord) : Word × Exc :=
  match fval a with
  | .nan | .inf true | .fin true _ _ => roundFp32 .rne false .nan
  | .inf false => roundFp32 .rne false (.inf false)
  | .zero _ => ((roundFp32 .rne false (.inf true)).1, { dz := true })
  | .fin false n e =>
    let l := Nat.log2 n
    if n = 2 ^ l then roundFp32 .rne false (Exact.ofInt ((l : Int) + e))
    else
      let y := evalLog2 n e
      (within (Config.flog2 (lo32 a)) y (boundOf 2 (some (-22)) y), inexactExc y)

/-- `fsin` and `fcos` of a finite non-zero value (R352): beyond 1,024 some value in [−1, 1]. -/
def fpTrig (choice : Word) (turn : Nat) (neg : Bool) (n : Nat) (e : Int) : Word × Exc :=
  if (Exact.fin false 1024 0).lt (.fin false n e) then
    (within choice (.zero false) (.fin false 1 0), { inx := true })
  else
    let y := evalTrig turn neg n e
    (within choice y (.fin false 1 (-21)), inexactExc y)

/-- `fsin` (R352). -/
def fpSin (a : DWord) : Word × Exc :=
  match fval a with
  | .nan | .inf _ => roundFp32 .rne false .nan
  | .zero s => roundFp32 .rne false (.zero s)
  | .fin s n e => fpTrig (Config.fsin (lo32 a)) 0 s n e

/-- `fcos` (R352). -/
def fpCos (a : DWord) : Word × Exc :=
  match fval a with
  | .nan | .inf _ => roundFp32 .rne false .nan
  | .zero _ => (0x3F800000, {})
  | .fin s n e => fpTrig (Config.fcos (lo32 a)) 1 s n e

/-- `ftanh` (R352). -/
def fpTanh (a : DWord) : Word × Exc :=
  match fval a with
  | .nan => roundFp32 .rne false .nan
  | .inf s => roundFp32 .rne false (.fin s 1 0)
  | .zero s => roundFp32 .rne false (.zero s)
  | .fin s n e =>
    if !(Exact.fin false n e).lt (.fin false 9 0) then ((roundFp32 .rne false (.fin s 1 0)).1, { inx := true })
    else
      let y := evalTanh s n e
      (within (Config.ftanh (lo32 a)) y (boundOf 2 (some (-22)) y), inexactExc y)

/-- `fsig` (R352). -/
def fpSig (a : DWord) : Word × Exc :=
  match fval a with
  | .nan => roundFp32 .rne false .nan
  | .inf s => if s then (0, {}) else (0x3F800000, {})
  | .zero _ => (0x3F000000, {})
  | .fin s n e =>
    let y := evalSig s n e
    (within (Config.fsig (lo32 a)) y (boundOf 2 (some (-22)) y), inexactExc y)

/-! ### Meanings -/

/-- `fadd`, B-form: RNE, no saturation (R347). -/
def execFadd (o : BArgs) (s : State) : Out :=
  perform (.fadd o) (fpPlan (some 3) (fun v => fpAdd .rne false v.a v.b)) s

/-- `fmul`, B-form: RNE, no saturation (R347). -/
def execFmul (o : BArgs) (s : State) : Out :=
  perform (.fmul o) (fpPlan (some 4) (fun v => fpMul .rne false v.a v.b)) s

/-- `fsub`, B-form: RNE, no saturation (R347). -/
def execFsub (o : BArgs) (s : State) : Out :=
  perform (.fsub o) (fpPlan (some 3) (fun v => fpSub .rne false v.a v.b)) s

/-- `fabs`, B-form (R352). -/
def execFabs (o : UArgs) (s : State) : Out :=
  perform (.fabs o) (fpPlan none (fun v => (lo32 v.a &&& 0x7FFFFFFF, {}))) s

/-- `fneg`, B-form (R352). -/
def execFneg (o : UArgs) (s : State) : Out :=
  perform (.fneg o) (fpPlan none (fun v => (lo32 v.a ^^^ 0x80000000, {}))) s

/-- `frcp`, B-form (R352). -/
def execFrcp (o : UArgs) (s : State) : Out :=
  perform (.frcp o) (fpPlan none (fun v => fpRcp .rne false v.a)) s

/-- `frsq`, B-form (R352). -/
def execFrsq (o : UArgs) (s : State) : Out :=
  perform (.frsq o) (fpPlan none (fun v => fpRsq v.a)) s

/-- `fsqrt`, B-form (R352). -/
def execFsqrt (o : UArgs) (s : State) : Out :=
  perform (.fsqrt o) (fpPlan none (fun v => fpSqrt .rne v.a)) s

/-- `fexp2`, B-form (R352). -/
def execFexp2 (o : UArgs) (s : State) : Out :=
  perform (.fexp2 o) (fpPlan none (fun v => fpExp2 false v.a)) s

/-- `flog2`, B-form (R352). -/
def execFlog2 (o : UArgs) (s : State) : Out :=
  perform (.flog2 o) (fpPlan none (fun v => fpLog2 v.a)) s

/-- `fsin`, B-form (R352). -/
def execFsin (o : UArgs) (s : State) : Out :=
  perform (.fsin o) (fpPlan none (fun v => fpSin v.a)) s

/-- `fcos`, B-form (R352). -/
def execFcos (o : UArgs) (s : State) : Out :=
  perform (.fcos o) (fpPlan none (fun v => fpCos v.a)) s

/-- `ftanh`, B-form (R352). -/
def execFtanh (o : UArgs) (s : State) : Out :=
  perform (.ftanh o) (fpPlan none (fun v => fpTanh v.a)) s

/-- `fsig`, B-form (R352). -/
def execFsig (o : UArgs) (s : State) : Out :=
  perform (.fsig o) (fpPlan none (fun v => fpSig v.a)) s

/-- `ffrac`, B-form (R353). -/
def execFfrac (o : UArgs) (s : State) : Out :=
  perform (.ffrac o) (fpPlan none (fun v => fpFrac .rne v.a)) s

/-- `fclass`, B-form (R354). -/
def execFclass (o : UArgs) (s : State) : Out :=
  perform (.fclass o) (fpPlan none (fun v => (fpClass (lo32 v.a), {}))) s

/-- `fadd`, X-form (R347). -/
def execFaddX (x : XArgs) (s : State) : Out :=
  perform (.faddX x) (fpPlan (some 3) (fun v => fpAdd (rmode x.rm) x.sat v.a v.b)) s

/-- `fsub`, X-form (R347). -/
def execFsubX (x : XArgs) (s : State) : Out :=
  perform (.fsubX x) (fpPlan (some 3) (fun v => fpSub (rmode x.rm) x.sat v.a v.b)) s

/-- `fmul`, X-form (R347). -/
def execFmulX (x : XArgs) (s : State) : Out :=
  perform (.fmulX x) (fpPlan (some 4) (fun v => fpMul (rmode x.rm) x.sat v.a v.b)) s

/-- `ffma`, X-form (R347). -/
def execFfma (x : XArgs) (s : State) : Out :=
  perform (.ffma x) (fpPlan (some 4) (fun v => fpFma (rmode x.rm) x.sat v.a v.b v.c)) s

/-- `fmin`, X-form (R348). -/
def execFmin (x : XArgs) (s : State) : Out :=
  perform (.fmin x) (fpPlan (some 3) (fun v => as32 (minIeee false (lo32 v.a).toNat (lo32 v.b).toNat))) s

/-- `fmax`, X-form (R348). -/
def execFmax (x : XArgs) (s : State) : Out :=
  perform (.fmax x) (fpPlan (some 3) (fun v => as32 (minIeee true (lo32 v.a).toNat (lo32 v.b).toNat))) s

/-- `fminnum`, X-form (R348). -/
def execFminnum (x : XArgs) (s : State) : Out :=
  perform (.fminnum x) (fpPlan (some 3) (fun v => as32 (minNum fp32 false (lo32 v.a).toNat (lo32 v.b).toNat))) s

/-- `fmaxnum`, X-form (R348). -/
def execFmaxnum (x : XArgs) (s : State) : Out :=
  perform (.fmaxnum x) (fpPlan (some 3) (fun v => as32 (minNum fp32 true (lo32 v.a).toNat (lo32 v.b).toNat))) s

/-- `fcmp`, X-form (R349). -/
def execFcmp (x : XArgs) (s : State) : Out :=
  perform (.fcmp x) (fpPlan (some 3) (fun v => fpCmp (x.immBits 2 0) (lo32 v.a) (lo32 v.b))) s

/-- `fscale`, X-form (R350). -/
def execFscale (x : XArgs) (s : State) : Out :=
  perform (.fscale x) (fpPlan none (fun v => fpScale (rmode x.rm) x.sat v.a v.b)) s

/-- `fround`, X-form (R351). -/
def execFround (x : XArgs) (s : State) : Out :=
  perform (.fround x) (fpPlan none (fun v => fpRoundInt (rmode x.rm) v.a)) s

/-- `fabs`, X-form (R352). -/
def execFabsX (x : XArgs) (s : State) : Out :=
  perform (.fabsX x) (fpPlan none (fun v => (lo32 v.a &&& 0x7FFFFFFF, {}))) s

/-- `fneg`, X-form (R352). -/
def execFnegX (x : XArgs) (s : State) : Out :=
  perform (.fnegX x) (fpPlan none (fun v => (lo32 v.a ^^^ 0x80000000, {}))) s

/-- `frcp`, X-form (R352). -/
def execFrcpX (x : XArgs) (s : State) : Out :=
  perform (.frcpX x) (fpPlan none (fun v => fpRcp (rmode x.rm) x.sat v.a)) s

/-- `frsq`, X-form (R352). -/
def execFrsqX (x : XArgs) (s : State) : Out :=
  perform (.frsqX x) (fpPlan none (fun v => fpRsq v.a)) s

/-- `fsqrt`, X-form (R352). -/
def execFsqrtX (x : XArgs) (s : State) : Out :=
  perform (.fsqrtX x) (fpPlan none (fun v => fpSqrt (rmode x.rm) v.a)) s

/-- `fexp2`, X-form (R352). -/
def execFexp2X (x : XArgs) (s : State) : Out :=
  perform (.fexp2X x) (fpPlan none (fun v => fpExp2 x.sat v.a)) s

/-- `flog2`, X-form (R352). -/
def execFlog2X (x : XArgs) (s : State) : Out :=
  perform (.flog2X x) (fpPlan none (fun v => fpLog2 v.a)) s

/-- `fsin`, X-form (R352). -/
def execFsinX (x : XArgs) (s : State) : Out :=
  perform (.fsinX x) (fpPlan none (fun v => fpSin v.a)) s

/-- `fcos`, X-form (R352). -/
def execFcosX (x : XArgs) (s : State) : Out :=
  perform (.fcosX x) (fpPlan none (fun v => fpCos v.a)) s

/-- `ftanh`, X-form (R352). -/
def execFtanhX (x : XArgs) (s : State) : Out :=
  perform (.ftanhX x) (fpPlan none (fun v => fpTanh v.a)) s

/-- `fsig`, X-form (R352). -/
def execFsigX (x : XArgs) (s : State) : Out :=
  perform (.fsigX x) (fpPlan none (fun v => fpSig v.a)) s

/-- `ffrac`, X-form (R353). -/
def execFfracX (x : XArgs) (s : State) : Out :=
  perform (.ffracX x) (fpPlan none (fun v => fpFrac (rmode x.rm) v.a)) s

/-- `fclass`, X-form (R354). -/
def execFclassX (x : XArgs) (s : State) : Out :=
  perform (.fclassX x) (fpPlan none (fun v => (fpClass (lo32 v.a), {}))) s

end Sys2Proof.Machine
end

