-- ==== Sys2Proof/Machine/Convert.lean ====
section
/-! DEFINITION. The conversions (R356 to R358 of spec/20_ref_float.md). -/

namespace Sys2Proof.Machine

/-- POS (R356). -/
def posOf (x : XArgs) : Nat := x.immBits 1 0

/-- Element `k` of width `w` of a word (R62). -/
def element (w k : Nat) (v : DWord) : Nat := (lo32 v).toNat / 2 ^ (w * k) % 2 ^ w

/-- A word with element `k` of width `w` replaced; every other bit stays (R357). -/
def withElement (w k : Nat) (v : Nat) (e : Nat) : Nat := v - v / 2 ^ (w * k) % 2 ^ w * 2 ^ (w * k) + e % 2 ^ w * 2 ^ (w * k)

/-- Two FP32 sources converted to a format and packed at positions 2 × pos and 2 × pos + 1 of C (R356). -/
def packTwo (w pos : Nat) (g : Exact → Nat × Exc) (v : Ops) : Word × Exc :=
  let a := g (fval v.a)
  let b := g (fval v.b)
  (BitVec.ofNat 32 (withElement w (2 * pos + 1) (withElement w (2 * pos) (lo32 v.c).toNat a.1) b.1), a.2.or b.2)

/-- Widening of one element to FP32 (R357). -/
def widenOne (f : Fmt) (k : Nat) (a : DWord) : Word × Exc :=
  roundFp32 .rne false (f.value (element 16 k a))

/-- Widening of two elements to BF16 (R357). -/
def widenTwo (f : Fmt) (w pos : Nat) (a : DWord) : Word × Exc :=
  let lo := bf16.round .rne false (f.value (element w (2 * pos) a))
  let hi := bf16.round .rne false (f.value (element w (2 * pos + 1) a))
  (BitVec.ofNat 32 (lo.1 + 65536 * hi.1), lo.2.or hi.2)

/-- The import of an E8M0 code to BF16 (R60, R357). -/
def importE8m0 (e : Nat) : Nat × Exc :=
  if e = 0xFF then (0x7FC0, { inv := true }) else if e = 0 then (0x0040, {}) else (e * 0x80, {})

/-- `cvt.i32.f32` (R358). -/
def toInt32 (m : RMode) (sgn : Bool) (v : Exact) : Word × Exc :=
  let lo : Int := if sgn then -(2 ^ 31) else 0
  let hi : Int := if sgn then 2 ^ 31 - 1 else 2 ^ 32 - 1
  let bad : Exc := { inv := true, ovf := true, inx := true }
  match v with
  | .nan => (0, { inv := true })
  | .inf neg => (BitVec.ofInt 32 (if neg then lo else hi), bad)
  | .zero _ => (0, {})
  | .fin _ _ _ =>
    let (r, inexact) := v.toInt m
    if r < lo then (BitVec.ofInt 32 lo, bad) else if hi < r then (BitVec.ofInt 32 hi, bad) else (BitVec.ofInt 32 r, { inx := inexact })

/-- A conversion to INT8 or INT4, of `w` bits (R64, R358). -/
def toNarrowInt (w : Nat) (m : RMode) (sat : Bool) (v : Exact) : Nat × Exc :=
  let lo : Int := -(2 ^ (w - 1) : Nat)
  let hi : Int := (2 ^ (w - 1) : Nat) - 1
  let code (n : Int) : Nat := (n % (2 ^ w : Nat)).toNat
  let bad : Exc := { inv := true, ovf := true, inx := true }
  match v with
  | .nan => (0, { inv := true })
  | .inf neg => (if sat then code (if neg then lo else hi) else 0, bad)
  | .zero _ => (0, {})
  | .fin _ _ _ =>
    let (r, inexact) := v.toInt m
    if r < lo ∨ hi < r then (code (if sat then max lo (min hi r) else r), bad) else (code r, { inx := inexact })

/-- Two FP32 sources as the two halves of a word (R356: FN 0x4 and 0x5, which take no C). -/
def packHalves (f : Fmt) (x : XArgs) (v : Ops) : Word × Exc :=
  packTwo 16 0 (f.convert (rmode x.rm) x.sat) { v with c := 0 }

/-- `cvt.f32.i32` (R356, R357, R358). -/
def execCvtF32I32 (x : XArgs) (s : State) : Out :=
  perform (.cvtF32I32 x) (fpPlan none (fun v => roundFp32 (rmode x.rm) false (.ofInt (if x.sgn then (lo32 v.a).toInt else (lo32 v.a).toNat)))) s

/-- `cvt.i32.f32` (R356, R357, R358). -/
def execCvtI32F32 (x : XArgs) (s : State) : Out :=
  perform (.cvtI32F32 x) (fpPlan none (fun v => toInt32 (rmode x.rm) x.sgn (fval v.a))) s

/-- `cvt.f32.f16` (R356, R357, R358). -/
def execCvtF32F16 (x : XArgs) (s : State) : Out :=
  perform (.cvtF32F16 x) (fpPlan none (fun v => widenOne fp16 (posOf x) v.a)) s

/-- `cvt.f32.b16` (R356, R357, R358). -/
def execCvtF32B16 (x : XArgs) (s : State) : Out :=
  perform (.cvtF32B16 x) (fpPlan none (fun v => widenOne bf16 (posOf x) v.a)) s

/-- `cvt.pk.f16.f32` (R356, R357, R358). -/
def execCvtPkF16F32 (x : XArgs) (s : State) : Out :=
  perform (.cvtPkF16F32 x) (fpPlan none (fun v => packHalves fp16 x v)) s

/-- `cvt.pk.b16.f32` (R356, R357, R358). -/
def execCvtPkB16F32 (x : XArgs) (s : State) : Out :=
  perform (.cvtPkB16F32 x) (fpPlan none (fun v => packHalves bf16 x v)) s

/-- `cvt.pk.e4m3.f32` (R356, R357, R358). -/
def execCvtPkE4m3F32 (x : XArgs) (s : State) : Out :=
  perform (.cvtPkE4m3F32 x) (fpPlan none (fun v => packTwo 8 (posOf x) (e4m3.convert (rmode x.rm) x.sat) v)) s

/-- `cvt.pk.e5m2.f32` (R356, R357, R358). -/
def execCvtPkE5m2F32 (x : XArgs) (s : State) : Out :=
  perform (.cvtPkE5m2F32 x) (fpPlan none (fun v => packTwo 8 (posOf x) (e5m2.convert (rmode x.rm) x.sat) v)) s

/-- `cvt.pk.e2m1.f32` (R356, R357, R358). -/
def execCvtPkE2m1F32 (x : XArgs) (s : State) : Out :=
  perform (.cvtPkE2m1F32 x) (fpPlan none (fun v => packTwo 4 (posOf x) (e2m1.convert (rmode x.rm) x.sat) v)) s

/-- `cvt.up.b16.e4m3` (R356, R357, R358). -/
def execCvtUpB16E4m3 (x : XArgs) (s : State) : Out :=
  perform (.cvtUpB16E4m3 x) (fpPlan none (fun v => widenTwo e4m3 8 (posOf x) v.a)) s

/-- `cvt.up.b16.e5m2` (R356, R357, R358). -/
def execCvtUpB16E5m2 (x : XArgs) (s : State) : Out :=
  perform (.cvtUpB16E5m2 x) (fpPlan none (fun v => widenTwo e5m2 8 (posOf x) v.a)) s

/-- `cvt.up.b16.e2m1` (R356, R357, R358). -/
def execCvtUpB16E2m1 (x : XArgs) (s : State) : Out :=
  perform (.cvtUpB16E2m1 x) (fpPlan none (fun v => widenTwo e2m1 4 (posOf x) v.a)) s

/-- `cvt.b16.e8m0` (R356, R357, R358). -/
def execCvtB16E8m0 (x : XArgs) (s : State) : Out :=
  perform (.cvtB16E8m0 x) (fpPlan none (fun v => 
    let lo := importE8m0 (element 8 (2 * posOf x) v.a)
    let hi := importE8m0 (element 8 (2 * posOf x + 1) v.a)
    (BitVec.ofNat 32 (lo.1 + 65536 * hi.1), lo.2.or hi.2))) s

/-- `cvt.pk.i8.f32` (R356, R357, R358). -/
def execCvtPkI8F32 (x : XArgs) (s : State) : Out :=
  perform (.cvtPkI8F32 x) (fpPlan none (fun v => packTwo 8 (posOf x) (toNarrowInt 8 (rmode x.rm) x.sat) v)) s

/-- `cvt.pk.i4.f32` (R356, R357, R358). -/
def execCvtPkI4F32 (x : XArgs) (s : State) : Out :=
  perform (.cvtPkI4F32 x) (fpPlan none (fun v => packTwo 4 (posOf x) (toNarrowInt 4 (rmode x.rm) x.sat) v)) s

end Sys2Proof.Machine
end

