-- ==== Sys2Proof/Machine/Copy.lean ====
section
/-! DEFINITION. The copy engines: entries of chains, landings, routines on the Marten cores and collectives (R271 to R288 of spec/17_copy_engines.md, R249 and R250 of
spec/15_link.md, R468). -/

namespace Sys2Proof.Machine

/-! ### Entries (R280 to R283) -/

/-- The fields of an entry (R281). -/
structure Entry where
  op : Nat
  routine : Nat
  fmt : Nat
  src : Nat
  dst : Nat
  len : Nat
  arg : Nat
  aux : Nat
  /-- The fields that must be zero are. -/
  clean : Bool

/-- Read an entry. -/
def entryOf (bs : List Byte) : Entry :=
  let op := field bs 0 1
  { op, routine := field bs 1 1, fmt := field bs 2 1, src := field bs 16 8, dst := field bs 24 8, len := field bs 32 4, arg := field bs 40 8, aux := field bs 48 8,
    clean := field bs 3 1 == 0 && field bs 36 4 == 0 && (if op = 1 then field bs 1 1 < 64 else field bs 1 1 == 0) }

/-- A reduction (R287). -/
def Entry.reduces (n : Entry) : Bool := n.op == 0x10 || n.op == 0x12
/-- A collective. -/
def Entry.collective (n : Entry) : Bool := 0x10 ≤ n.op && n.op ≤ 0x13

/-- Bytes of an element of a format (R281). -/
def elementBytes (fmt : Nat) : Nat := if fmt = 2 ∨ fmt = 3 then 2 else 4

/-- The output bytes of a COPY for which its ranges are compared: by its ratio, or LEN for a variable one (log 30). -/
def Entry.output (n : Entry) (num den : Nat) : Nat := if num = 0 ∨ den = 0 then n.len else n.len * num / den

/-- Two ranges of addresses overlap. -/
def rangesMeet (a m b n : Nat) : Bool := a < b + n && b < a + m

/-- The alignment of AUX by OP: a barrier, a peers descriptor or a chain descriptor (R210, R280, R287; log 31). -/
def Entry.auxAlign (n : Entry) : Nat := if n.op = 1 then 16 else if n.op = 0x20 then 64 else 8

/-- The status with which an entry ends as it starts (R276, R281, R283); 0: it starts. `v` is the routine's register. -/
def Entry.startStatus (n : Entry) (v : Nat) : Nat :=
  let known := n.op == 0x01 || n.collective || n.op == 0x20
  let bad := !known || 4 < n.fmt || !n.clean || bit n.aux 63 || n.aux % n.auxAlign != 0
    || n.src % 32 != 0 || n.dst % 32 != 0 || n.len % 32 != 0 || n.len == 0
    || (n.reduces && (n.fmt == 0 || n.len % elementBytes n.fmt != 0))
  if bad then 1
  else if n.op ≠ 1 then 0
  else if !bit v 63 then 4
  else if bits v 15 12 = 0 ∧ 16384 < n.len then 1
  else if n.routine ≠ 0 ∧ n.len % 2 ^ bits v 3 0 ≠ 0 then 1
  else if rangesMeet n.src n.len n.dst (n.output (bits v 15 12) (bits v 11 8)) then 1
  else 0

/-- The register of the routine that an entry names. -/
def State.entryRoutine (s : State) (c : Chain) (n : Entry) : Nat := ((((s.die c.die).engine c.engine).routine (n.routine % 64))).toNat

/-- The ASID of a chain's context (R272). -/
def State.chainAs (s : State) (c : Chain) : Nat := ((s.contexts.get c.context).bind (fun x => x.asid)).getD 0

/-- The engine of a die as a place (R135). -/
def enginePlace (die : Nat) : Place := { flow := .steward die 0, launch := 0, index := 0, number := 0 }

/-- Change a chain, where there is one. -/
def State.modChain (s : State) (pa : Nat) (g : Chain → Chain) : State := { s with chains := s.chains.upd pa g }

/-- Bytes that an engine reads in sectors: the state, and the bytes and whether any was poisoned, or the address and the sub-code of the first failure. -/
def State.engineReads (s : State) (die asid va : Nat) : Nat → State × Except (Nat × Nat) (List Byte × Bool)
  | 0 => (s, .ok ([], false))
  | n + 1 =>
    match s.engineRead die asid va 32 with
    | (s, .error sub) => (s, .error (va, sub))
    | (s, .ok (bs, p)) =>
      match s.engineReads die asid (va + 32) n with
      | (s, .ok (rest, q)) => (s, .ok (bs ++ rest, p || q))
      | (s, .error e) => (s, .error e)

/-- Where an engine writes at a virtual address: the state, and the physical address, or the sub-code of the page fault, 0 for an address that cannot be accessed. -/
def State.engineDest (s : State) (die asid va n : Nat) : State × Except Nat Nat :=
  if 2 ^ 48 ≤ va then (s, .error 0)
  else
    match s.translateDie die asid va .write false with
    | (s, .error sub) => (s, .error sub)
    | (s, .ok t) =>
      let pa := t.pa + (va - t.va)
      if s.accessBad die pa n .store || paSpace pa == 2 then (s, .error 0) else (s, .ok pa)

/-- A sector lands in global memory: bytes that a barrier or a chain owns keep their values and the write is logged with the entry's site (R211, R280, R283), and
poison marks the line (R468). -/
def State.landGlobal (s : State) (c : Chain) (asid pa : Nat) (bs : List Byte) (poisoned : Bool) : State :=
  if s.ownedBytes pa bs.length then s.logDie (paDie pa) 0 true asid pa (c.sites.getD (c.running.getD 0) 0) (c.running.getD 0)
  else
    let s := s.poke pa bs false none
    if poisoned && paSpace pa == 0 && !s.poison.contains (lineOf pa) then { s with poison := s.poison ++ [lineOf pa] } else s

/-- The status of an entry's error: the first one stays, but BARRIER_STATE, which a landing only records (R215, R279). -/
def Chain.fail (c : Chain) (status : Nat) : Chain := if c.status = 0 ∨ c.status = 6 then { c with status } else c

/-- An entry whose bytes cannot be read, or whose start meets an unserved fault, ends with a status: its SEQ is the one after DONE (R280, R284). -/
def State.endStart (s : State) (chain : Nat) (c : Chain) (bs : List Byte) (status : Nat) : State :=
  { s with chains := s.chains.set chain { c with
      running := some ((s.chainWord chain 24 + 1) % 2 ^ 64), entry := bs, todo := 0, landed := [], status, matched := false, page := [], counted := false, mute := false } }

/-- The SEQ of a chain's running entry, or that which the entry that starts next will have (R280, R284). -/
def State.seqNow (s : State) (chain : Nat) (c : Chain) : Nat := c.running.getD ((s.chainWord chain 24 + 1) % 2 ^ 64)

/-- An entry meets a failure at an address (R226, R272): a page fault goes to the steward, and any other ends the entry with its status. -/
def State.entryFault (s : State) (chain va sub : Nat) (dest : Bool) : State :=
  match s.chains.get chain with
  | none => s
  | some c =>
    if sub ≠ 0 then s.engineFault c.die (.entry chain (s.seqNow chain c) dest) (some c.context) (s.chainAs c) va sub
    else if c.running.isNone then s.endStart chain c [] (if dest then 3 else 2)
    else s.modChain chain (fun c => c.fail (if dest then 3 else 2))

/-- The armed global barrier that an entry's AUX names, translated when it is used (R229, R282): the state, and its address and itself, or the sub-code of the failure. -/
def State.entryBar (s : State) (c : Chain) : State × Except Nat (Option (Nat × Barrier)) :=
  match s.engineDest c.die (s.chainAs c) (entryOf c.entry).aux 16 with
  | (s, .error sub) => (s, .error sub)
  | (s, .ok pa) => (s, .ok ((s.bar? (.global pa)).map (fun b => (pa, b))))

/-- A COPY names a barrier in AUX (R281). -/
def Chain.barred (c : Chain) : Bool := (entryOf c.entry).op == 1 && (entryOf c.entry).aux != 0

/-- The site of a chain's running entry (R283). -/
def Chain.site (c : Chain) : Site := (c.sites.getD (c.running.getD 0) 0, c.running.getD 0)

/-- Change the sectors that an entry's transaction barrier awaits (R215, R279, R282): false where no such barrier is armed there. A landing is a release by the engine (R150). -/
def State.entryCount (s : State) (c : Chain) (n : Int) (landing : Bool) : State × Except Nat Bool :=
  match s.entryBar c with
  | (s, .error sub) => (s, .error sub)
  | (s, .ok (some (pa, b))) =>
    if b.tx then (s.updateBar (.global pa) c.site (fun b => if landing then (b.addSec n).landed (.global pa) c.die else b.addSec n), .ok true) else (s, .ok false)
  | (s, .ok none) => (s, .ok false)

/-- A landing of an entry counts against its barrier (R215, R282): on a barrier that is not an armed transaction barrier the status records it. -/
def State.countEntry (s : State) (chain : Nat) : State :=
  match s.chains.get chain with
  | none => s
  | some c =>
    if !c.barred then s
    else match s.entryCount c (-1) true with
      | (s, .ok true) => s
      | (s, .ok false) => s.modChain chain (fun c => if c.status = 0 then { c with status := 6 } else c)
      | (s, .error _) => s.modChain chain (fun c => c.fail 3)

/-- The count of an entry's output sectors is added to its transaction barrier (R282); one that starts again is counted once. -/
def State.addEntry (s : State) (chain n : Nat) : State :=
  match s.chains.get chain with
  | none => s
  | some c =>
    if !c.barred then s
    else match s.entryCount c n false with
      | (s, .ok true) => s.modChain chain (fun c => { c with counted := true })
      | (s, .ok false) => s
      | (s, .error _) => s.modChain chain (fun c => c.fail 3)

/-- The page fault that an entry's barrier meets (R226): none for an entry without one. -/
def State.barFault (s : State) (c : Chain) : State × Option Nat :=
  if !c.barred then (s, none)
  else match s.entryBar c with
    | (s, .error (sub + 1)) => (s, some (sub + 1))
    | (s, _) => (s, none)

/-- One output sector of an entry lands at an address, once neither its destination nor its barrier has met a page fault. -/
def State.landEntry (s : State) (chain sector va : Nat) (bs : List Byte) (poisoned : Bool) : State :=
  match s.chains.get chain with
  | none => s
  | some c =>
    let asid := s.chainAs c
    match s.engineDest c.die asid va 32 with
    | (s, .error sub) => s.entryFault chain va sub true
    | (s, .ok pa) =>
      match s.barFault c with
      | (s, some sub) => s.entryFault chain (entryOf c.entry).aux sub true
      | (s, none) => ((s.landGlobal c asid pa bs poisoned).modChain chain (fun c => { c with landed := c.landed ++ [sector] })).countEntry chain

/-- An entry has ended early: its status is an error other than BARRIER_STATE, which a landing only records (R215). -/
def Chain.ended (c : Chain) : Bool := c.status != 0 && c.status != 6

/-- Stages of an engine of a die in progress, which take its segments before chain entries do (R271). -/
def State.segmentsFull (s : State) (c : Chain) : Bool := decide (8 ≤ s.stageJobs c.die c.engine)

/-- An engine works on an entry's chunks: the module and its die run, and a segment is left for chains (R271, R288, R303). -/
def State.entryRuns (s : State) (c : Chain) : Bool := s.power == .running && s.engineRuns c.die && !s.segmentsFull c

/-- ENTRY_START (R281 to R283): the engine reads the entry at HEAD and starts it. -/
def State.startEntry (s : State) (chain : Nat) : State :=
  match s.chains.get chain with
  | none => s
  | some c =>
    let asid := s.chainAs c
    if s.chainState chain ≠ 1 || c.running.isSome || s.power != .running || !s.engineRuns c.die then s
    else
      match s.engineReads c.die asid (s.chainWord chain 0) 2 with
      | (s, .error (va, sub)) => s.entryFault chain va sub false
      | (s, .ok (bs, _)) =>
        let n := entryOf bs
        let v := s.entryRoutine c n
        let st := n.startStatus v
        let fixed := bits v 15 12 != 0
        let todo := if n.op = 1 then (if fixed then (n.output (bits v 15 12) (bits v 11 8) + 31) / 32 else 0) else 0
        let paged := n.op == 1 && n.arg != 0 && (n.routine == 6 || n.routine == 7 || 9 ≤ n.routine)
        match if st = 0 && paged then s.engineReads c.die asid n.arg 128 else (s, .ok ([], false)) with
        | (s, .error (va, sub)) => if sub ≠ 0 then s.entryFault chain va sub false else s.endStart chain c bs 2
        | (s, .ok (page, _)) =>
          let c := { c with
            running := some (field bs 56 8), entry := bs, todo, landed := [], status := st, matched := n.op == 1 && fixed, page, counted := false, mute := false }
          let counts := c.status == 0 && n.op == 1 && fixed
          match if counts then s.barFault c else (s, none) with
          | (s, some sub) => s.entryFault chain n.aux sub true
          | (s, none) =>
            let s := { s with chains := s.chains.set chain c }
            if counts then s.addEntry chain todo else s

/-- ENTRY_START (R283). -/
def execEntryStart (chain : Nat) (s : State) : Out := .next (s.startEntry chain)

/-- A sector of a routine-0 COPY lands (R282). -/
def State.copySector (s : State) (chain sector : Nat) : State :=
  match s.chains.get chain with
  | none => s
  | some c =>
    let n := entryOf c.entry
    if c.running.isNone || c.ended || n.op ≠ 1 || n.routine ≠ 0 || c.todo ≤ sector || c.landed.contains sector || !s.entryRuns c then s
    else
      match s.engineRead c.die (s.chainAs c) (n.src + 32 * sector) 32 with
      | (s, .error sub) => s.entryFault chain (n.src + 32 * sector) sub false
      | (s, .ok (bs, p)) => s.landEntry chain sector (n.dst + 32 * sector) bs p

/-- SECTOR_LANDING (R215): a sector of a window stage or of a chain entry without a routine. -/
def execSectorLanding (target : Landing) (s : State) : Out :=
  .next <| match target with
    | .window c g win st k => s.landSource c g win st k
    | .entry chain k => s.copySector chain k

/-! ### Completion (R279, R283) -/

/-- The threshold of a WAITSEQ is reached (R282), or its read of DONE fails. An address that is no registered descriptor has DONE 0, as for `eseq`. -/
def State.waitSeq (s : State) (c : Chain) (n : Entry) : State × Except Nat Bool :=
  match s.translateDie c.die (s.chainAs c) n.aux .read false with
  | (s, .error sub) => (s, .error sub)
  | (s, .ok t) =>
    let pa := t.pa + (n.aux - t.va)
    if s.accessBad c.die pa 8 .load then (s, .error 0) else (s, .ok (n.arg ≤ (if (s.chains.get pa).isSome then s.chainWord pa 24 else 0)))

/-- The running entry may complete, but for the threshold of a WAITSEQ. A collective with an unserved destination still takes part in its match (R287). -/
def Chain.done (c : Chain) : Bool :=
  let n := entryOf c.entry
  c.running.isSome && (if n.collective && c.status == 3 then c.matched else c.ended || (n.op != 0x20 && c.matched && c.landed.length == c.todo))

/-- The step at the descriptor (R283). -/
def State.chainStep (s : State) (who : Place) (chain seq status next : Nat) : State :=
  let s := (s.firstWrite chain 64).chainPut who (chain + 24) (bytesOfNat 8 seq)
  let s := if status = 0 then s else
    let s := s.chainPut who (chain + 36) (bytesOfNat 4 (min (2 ^ 32 - 1) (natOfBytes (s.bytes (chain + 36) 4) + 1)))
    if s.chainWord chain 40 = 0 then s.chainPut who (chain + 40) (bytesOfNat 8 seq) else s
  if next = 0 then ((s.chainPut who chain (bytesOfNat 8 0)).chainPut who (chain + 8) (bytesOfNat 8 0)).chainPut who (chain + 33) [0]
  else s.chainPut who chain (bytesOfNat 8 next)

/-- The unlanded sectors of an entry that ended in error leave its barrier, once (R279): the state, and the sub-code of the page fault that this meets. -/
def State.withdrawEntry (s : State) (chain : Nat) (c : Chain) : State × Option Nat :=
  let left := c.todo - c.landed.length
  if c.ended && c.counted && left != 0 then
    match s.entryCount c (-(left : Nat)) false with
    | (s, .error (sub + 1)) => (s, some (sub + 1))
    | (s, _) => (s.modChain chain (fun c => { c with counted := false }), none)
  else (s, none)

/-- The running entry is over: the descriptor takes its step, with NEXT of the entry. -/
def State.closeEntry (s : State) (chain : Nat) (c : Chain) (next : Nat) : State :=
  (s.chainStep (enginePlace c.die) chain (c.running.getD 0) c.status next).modChain chain (fun x => { x with
    running := none, entry := [], todo := 0, landed := [], status := 0, matched := false, page := [], counted := false, mute := false, sites := x.sites.del (c.running.getD 0) })

/-- The running entry completes: its unlanded sectors leave its barrier and its STATUS is written, page faults of which go to the steward (R226), then the descriptor takes its
step. -/
def State.finishEntry (s : State) (chain : Nat) (c : Chain) : State :=
  let head := s.chainWord chain 0
  let asid := s.chainAs c
  match s.withdrawEntry chain c with
  | (s, some sub) => s.entryFault chain (entryOf c.entry).aux sub true
  | (s, none) =>
    if c.mute then
      match s.engineRead c.die asid (head + 8) 8 with
      | (s, .ok (bs, _)) => s.closeEntry chain c (natOfBytes bs)
      | (s, .error _) => s.closeEntry chain c 0
    else
      match s.engineDest c.die asid (head + 4) 4 with
      | (s, .ok pa) => (s.chainPut (enginePlace c.die) pa (bytesOfNat 4 c.status)).closeEntry chain c (natOfBytes (s.bytes (pa + 4) 8))
      | (s, .error 0) => s.closeEntry chain c 0
      | (s, .error sub) => s.entryFault chain (head + 4) sub true

/-- ENTRY_COMPLETE (R282, R283). -/
def State.completeEntry (s : State) (chain : Nat) : State :=
  match s.chains.get chain with
  | none => s
  | some c =>
    let n := entryOf c.entry
    if s.power == .burrow || !s.engineRuns c.die then s
    else if c.done then s.finishEntry chain c
    else if c.running.isSome && n.op == 0x20 then
      match s.waitSeq c n with
      | (s, .ok true) => s.finishEntry chain c
      | (s, .ok false) => s
      | (s, .error sub) => s.entryFault chain n.aux sub false
    else s

/-- ENTRY_COMPLETE (R283). -/
def execEntryComplete (chain : Nat) (s : State) : Out := .next (s.completeEntry chain)

/-! ### Routines (R273 to R278) -/

/-- Elements of bytes, each of a number of bytes. -/
def elementsOf (k : Nat) : List Byte → Nat → List Nat
  | _, 0 => []
  | bs, n + 1 => natOfBytes (bs.take k) :: elementsOf k (bs.drop k) n

/-- One code of a format as BF16, exactly (R277). -/
def asBf16 (f : Fmt) (v : Nat) : Nat := (bf16.round .rne false (f.value v)).1

/-- Element (o, k) of width `w` bits among 16 KiB in normal layout (R254). -/
def bitsAt (bs : List Byte) (pos w : Nat) : Nat := natOfBytes ((bs.drop (pos / 8)).take ((w + 7) / 8)) / 2 ^ (pos % 8) % 2 ^ w

/-- 16 KiB of elements of width `w` bits, in normal layout, as their transposed layout (R254, R277). -/
def transposed (w : Nat) (bs : List Byte) : List Byte :=
  let per := 1024 / w
  if w = 4 then
    (List.range 16384).map (fun b =>
      let e (n : Nat) : Nat := bitsAt bs ((n % 128 * per + n / 128) * w) w
      BitVec.ofNat 8 (e (2 * b) + 16 * e (2 * b + 1)))
  else (List.range (128 * per)).flatMap (fun n => bytesOfNat (w / 8) (bitsAt bs ((n % 128 * per + n / 128) * w) w))

/-- 32-byte sectors of bytes. -/
def sectorOf (bs : List Byte) (k : Nat) : List Byte := (bs.drop (32 * k)).take 32

/-- What a shipped routine does with a chunk (R277): its output and the map entries it changes, or none for a routine fault. -/
def shipped (n arg : Nat) (page input : List Byte) : Option (List Byte × List Nat) :=
  let len := input.length
  let bytes2 (l : List Nat) : List Byte := l.flatMap (bytesOfNat 2)
  match n with
  | 1 => some (bytes2 ((elementsOf 1 input len).map (asBf16 e4m3)), [])
  | 2 => some (bytes2 ((elementsOf 1 input len).map (asBf16 e5m2)), [])
  | 3 => some (bytes2 ((elementsOf 1 input len).flatMap (fun b => [asBf16 e2m1 (b % 16), asBf16 e2m1 (b / 16)])), [])
  | 4 => some (bytes2 ((elementsOf 1 input len).map (fun e => (importE8m0 e).1)), [])
  | 5 => if 4 ≤ arg then none else some (transposed ([4, 8, 16, 32].getD arg 4) input, [])
  | 6 =>
    let m := natOfBytes (page.take 4)
    let idx := elementsOf 4 (page.drop 4) m
    if page = [] ∨ 1023 < m ∨ idx.any (fun k => decide (len / 32 ≤ k)) then none else some (idx.flatMap (sectorOf input), [])
  | 7 =>
    let m := natOfBytes (page.take 4)
    if page = [] ∨ m ≠ len / 32 then none else some (input, elementsOf 4 (page.drop 4) m)
  | 8 => some (bytes2 ((elementsOf 4 input (len / 4)).map (fun e => (bf16.round .rne false (fp32.value e)).1)), [])
  | _ => none

/-- What a call gave (R275, R276): the output and its map, or none for a routine fault. `num`, `den` are the ratio and `first` the output sector of the chunk;
`fixedMap`: a changed map entry is a fault. -/
def callResult (v first : Nat) (input : List Byte) (fixedMap : Bool) (r : Option (Int × List Byte × List Nat)) : Option (List Byte × List Nat) :=
  match r with
  | none => none
  | some (a0, output, map) =>
    let num := bits v 15 12
    let den := bits v 11 8
    if a0 < 0 ∨ a0 % 32 ≠ 0 ∨ 16384 < a0 then none
    else
      let n := a0.toNat
      let preset := (List.range (n / 32)).map (first + ·)
      let m := (List.range (n / 32)).map (fun k => (map[k]?).getD (first + k))
      if num ≠ 0 ∧ n * den ≠ input.length * num then none
      else if fixedMap && m != preset then none
      else some ((output ++ List.replicate n 0).take n, m)

/-- The routine number of a job, its register, the source bytes in all, and ARG; none where there is no such job or no routine in it. -/
structure Job where
  routine : Nat
  reg : Nat
  size : Nat
  arg : Nat
  page : List Byte
  die : Nat
  engine : Nat
  asid : Nat
  addr : Nat → Nat

/-- The job that a landing names, while its stage or entry has not ended and the sector has not landed. -/
def State.jobOf (s : State) (t : Landing) : Option Job :=
  match t with
  | .window c g win st k =>
    match (s.group? c g).bind (fun q => (q.windows.get win).bind (fun w => w.bound)) with
    | none => none
    | some b =>
      match b.stages.get st with
      | none => none
      | some x =>
        let r := regionOf b.region
        let e := c % 64 / 4
        if r.routine = 0 || x.failed.isSome || x.landed.contains k || x.sectors ≤ k then none
        else some { routine := r.routine, reg := (((s.die (dieOf c)).engine e).routine r.routine).toNat, size := r.rows * r.rowBytes, arg := 0, page := [],
                    die := dieOf c, engine := e, asid := (s.core c).asid, addr := r.sourceByte b.base st }
  | .entry chain k =>
    match s.chains.get chain with
    | none => none
    | some c =>
      let n := entryOf c.entry
      let v := s.entryRoutine c n
      if c.running.isNone || c.ended || n.op ≠ 1 || n.routine = 0 || c.landed.contains k || (if bits v 15 12 = 0 then c.matched || k != 0 else c.todo ≤ k) then none
      else some { routine := n.routine, reg := v, size := n.len, arg := n.arg, page := c.page, die := c.die, engine := c.engine, asid := s.chainAs c,
                  addr := fun p => n.src + p }

/-- The engine of a job works on it: an entry needs a segment that no stage takes (R271). -/
def State.jobRuns (s : State) (t : Landing) : Bool :=
  match t with
  | .window c _ _ _ _ => s.engineRuns (dieOf c)
  | .entry chain _ => (s.chains.get chain).any s.entryRuns

/-- The routine of a job may be called (R276, R278): it is valid, and in a window's stage its ratio is fixed. -/
def Job.callable (j : Job) (t : Landing) : Bool :=
  bit j.reg 63 && (match t with
    | .window .. => bits j.reg 15 12 != 0
    | .entry .. => true)

/-- The registers a0 to a7 of a call (R275); where the page and the map stand is the engine's own (log 32). -/
def callArgs (segment chunk pos arg n : Nat) : List Nat :=
  let input := 0x10000000 + 0x8000 * segment
  [input, chunk, input + 0x4000, 0x4000, arg, pos, if arg = 0 then 0 else Config.martenPage n, Config.martenMap n]

/-- The first output sector that a landing names. -/
def landingSector : Landing → Nat
  | .window _ _ _ _ k => k
  | .entry _ k => k

/-- A job ends in a routine fault or an unserved source fault (R276, R278, R279). -/
def State.failJob (s : State) (t : Landing) (status addr : Nat) : State :=
  match t with
  | .window c g win st _ => s.failStage c g win st addr
  | .entry chain _ => s.modChain chain (fun c => c.fail status)

/-- A routine fault (R276). -/
def State.routineFault (s : State) (die engine : Nat) (t : Landing) (addr : Nat) : State :=
  (s.modEngine die engine (fun e => { e with rfaults := min 65535 (e.rfaults + 1), call := none })).failJob t 5 addr

/-- Sectors that an engine reads at addresses: the state, and the bytes and whether any was poisoned, or the address and the sub-code of the first failure. -/
def State.readSectors (s : State) (die asid : Nat) (addrs : List Nat) : State × Except (Nat × Nat) (List Byte × Bool) :=
  addrs.foldl (fun (acc : State × Except (Nat × Nat) (List Byte × Bool)) va =>
    match acc with
    | (s, .ok (bs, p)) =>
      match s.engineRead die asid va 32 with
      | (s, .ok (more, q)) => (s, .ok (bs ++ more, p || q))
      | (s, .error sub) => (s, .error (va, sub))
    | x => x) (s, .ok ([], false))

/-- The source of a job fails (R226, R272): for a stage its end reports the chunk's first byte (R278). -/
def State.jobFault (s : State) (t : Landing) (first va sub : Nat) : State :=
  match t with
  | .window c g win st _ => s.sourceFault c g win st first va sub
  | .entry chain _ => s.entryFault chain va sub false

/-- ROUTINE_CALL (R274, R275): the engine calls a job's routine for the chunk that begins at an output sector. -/
def State.routineCall (s : State) (die engine : Nat) (t : Landing) : State :=
  let e := (s.die die).engine engine
  match s.jobOf t with
  | none => s
  | some j =>
    if j.die ≠ die ∨ j.engine ≠ engine ∨ !s.jobRuns t ∨ e.hold ∨ e.call.isSome ∨ s.power ≠ .running then s
    else
      let num := bits j.reg 15 12
      let den := bits j.reg 11 8
      let grain := 2 ^ bits j.reg 3 0
      let pos := if num = 0 then 0 else landingSector t * 32 * den / num
      let whole := chunkBytes num den grain j.size
      let chunk := chunkBytes num den grain (j.size - pos)
      if num ≠ 0 ∧ whole ≠ 0 ∧ (pos % whole ≠ 0 ∨ pos * num / den ≠ landingSector t * 32) then s
      else if !j.callable t then s
      else if chunk = 0 ∨ den = 0 then s.routineFault die engine t (j.addr pos)
      else
        match s.readSectors die j.asid ((List.range ((chunk + 31) / 32)).map (fun k => j.addr (pos + 32 * k))) with
        | (s, .ok (input, poisoned)) =>
          let segment := Config.jobSegment s.fresh % 8
          let call : RoutineCall := { job := t, segment, args := callArgs segment chunk pos j.arg s.fresh, position := pos, input := input.take chunk, poisoned }
          State.modEngine { s with fresh := s.fresh + 1 } die engine (fun e => { e with call := some call })
        | (s, .error (va, sub)) => s.jobFault t (j.addr pos) va sub

/-- ROUTINE_CALL (R275). -/
def execRoutineCall (die engine : Nat) (job : Landing) (s : State) : Out := .next (s.routineCall die engine job)

/-- The addresses at which the output of a call for an entry lands (R275). -/
def State.callDests (s : State) (chain : Nat) (map : List Nat) : List Nat :=
  let dst := ((s.chains.get chain).map (fun x => (entryOf x.entry).dst)).getD 0
  map.map (fun m => dst + 32 * m)

/-- The first page fault that an entry's barrier, or one of its destinations, meets. -/
def State.destFault (s : State) (chain : Nat) (vas : List Nat) : State × Option (Nat × Nat) :=
  match s.chains.get chain with
  | none => (s, none)
  | some c =>
    let start : State × Option (Nat × Nat) := match s.barFault c with
      | (s, some sub) => (s, some ((entryOf c.entry).aux, sub))
      | (s, none) => (s, none)
    vas.foldl (fun (acc : State × Option (Nat × Nat)) va =>
      match acc with
      | (s, none) => (match s.engineDest c.die (s.chainAs c) va 32 with
        | (s, .error (sub + 1)) => (s, some (va, sub + 1))
        | (s, _) => (s, none))
      | x => x) start

/-- The output of a call lands (R275): at the sectors of its map for an entry, at the matching place of its slot for a stage. -/
def State.landCall (s : State) (c : RoutineCall) (num : Nat) (output : List Byte) (map : List Nat) : State :=
  let n := output.length / 32
  match c.job with
  | .window core g win st k => (List.range n).foldl (fun s i => s.landSector core g win st (k + i) (sectorOf output i) c.poisoned) s
  | .entry chain k =>
    let s := if num ≠ 0 then s else
      let before := (s.chains.get chain).any (fun x => x.counted)
      let s := s.modChain chain (fun x => { x with todo := n, matched := true })
      if before then s else s.addEntry chain n
    ((List.range n).zip (s.callDests chain map)).foldl (fun s i =>
      if (s.chains.get chain).any (fun x => !x.ended) then s.landEntry chain (k + i.1) i.2 (sectorOf output i.1) c.poisoned else s) s

/-- ROUTINE_RETURN (R276): the routine returns, or is stopped at an illegal act. Shipped routines compute their result; what another routine returns is the Marten
core's, and is given (log 32). -/
def State.routineReturn (s : State) (die engine : Nat) (r : RoutineResult) : State :=
  let e := (s.die die).engine engine
  match e.call with
  | none => s
  | some c =>
    let ended := s.modEngine die engine (fun e => { e with call := none })
    if !s.engineRuns die then s
    else match s.jobOf c.job with
    | none => ended
    | some j =>
      let data := match r with
        | .returned _ _ _ data => if j.routine ≤ 8 then e.data else (data.zip (List.range 32768)).filterMap (fun x => if x.1 = 0 then none else some (x.2, x.1))
        | .illegal => e.data
      let isWindow := match c.job with
        | .window .. => true
        | .entry .. => false
      let given : Option (Int × List Byte × List Nat) :=
        if j.routine ≤ 8 then (shipped j.routine j.arg j.page c.input).map (fun x => ((x.1.length : Int), x.1, x.2))
        else match r with
          | .returned a0 output map _ => some (a0, output, map)
          | .illegal => none
      match callResult j.reg (landingSector c.job) c.input isWindow given with
      | none => s.routineFault die engine c.job (j.addr c.position)
      | some (output, map) =>
        let finish (s : State) : State := (s.modEngine die engine (fun e => { e with call := none, data })).landCall c (bits j.reg 15 12) output map
        match c.job with
        | .window .. => finish s
        | .entry chain _ =>
          match s.destFault chain (s.callDests chain map) with
          | (s, some (va, sub)) => s.entryFault chain va sub true
          | (s, none) => finish s

/-- ROUTINE_RETURN (R276). -/
def execRoutineReturn (die engine : Nat) (r : RoutineResult) (s : State) : Out := .next (s.routineReturn die engine r)

/-- ROUTINE_TIMEOUT (R276): a call that runs for more than 1 ms is a routine fault. -/
def State.routineTimeout (s : State) (die engine : Nat) : State :=
  match ((s.die die).engine engine).call with
  | none => s
  | some c =>
    if !s.engineRuns die then s
    else match s.jobOf c.job with
    | none => s.modEngine die engine (fun e => { e with call := none })
    | some j => s.routineFault die engine c.job (j.addr c.position)

/-- ROUTINE_TIMEOUT (R276). -/
def execRoutineTimeout (die engine : Nat) (s : State) : Out := .next (s.routineTimeout die engine)

/-! ### Collectives (R249, R250, R287) -/

/-- The sum of one element over the participants, in ascending order (R249): its code, and the exceptions raised. -/
def sumElements (fmt : Nat) (vs : List Nat) : Nat × Exc :=
  if fmt = 4 then (vs.foldl (· + ·) 0 % 2 ^ 32, {})
  else
    let f := if fmt = 2 then bf16 else if fmt = 3 then fp16 else fp32
    match vs with
    | [] => (0, {})
    | v :: rest =>
      let (a, x) := rest.foldl (fun (acc : Exact × Exc) u =>
        let (r, y) := fp32.round .rne false (sumExact .rne [acc.1, f.value u])
        (fp32.value r, acc.2.or y)) (f.value v, {})
      let (r, y) := f.round .rne false a
      (r, x.or y)

/-- The sum of buffers, element by element. -/
def sumBuffers (fmt len : Nat) (bufs : List (List Byte)) : List Byte × Exc :=
  let k := elementBytes fmt
  (List.range (len / k)).foldl (fun (acc : List Byte × Exc) i =>
    let (v, x) := sumElements fmt (bufs.map (fun b => field b (k * i) k))
    (acc.1 ++ bytesOfNat k v, acc.2.or x)) ([], {})

/-- Words of 8 bytes that an engine reads one by one, or the address and the sub-code of the first failure. -/
def State.engineWords (s : State) (die asid va : Nat) : Nat → State × Except (Nat × Nat) (List Nat)
  | 0 => (s, .ok [])
  | n + 1 =>
    match s.engineRead die asid va 8 with
    | (s, .error sub) => (s, .error (va, sub))
    | (s, .ok (bs, _)) =>
      match s.engineWords die asid (va + 8) n with
      | (s, .ok l) => (s, .ok (natOfBytes bs :: l))
      | (s, .error e) => (s, .error e)

/-- What a peers descriptor gives (R287): the chains that it names, as physical addresses; none where N is outside 2 to 64; or the failure of its reading. -/
def State.peersOf (s : State) (c : Chain) (n : Entry) : State × Except (Nat × Nat) (Option (List (Option Nat))) :=
  let asid := s.chainAs c
  match s.engineWords c.die asid n.aux 1 with
  | (s, .error e) => (s, .error e)
  | (s, .ok l) =>
    let count := l.headD 0
    if count < 2 ∨ 64 < count then (s, .ok none)
    else match s.engineWords c.die asid (n.aux + 8) count with
      | (s, .error e) => (s, .error e)
      | (s, .ok vas) => (s, .ok (some (vas.map (s.physOf c.die asid))))

/-- Set the status of a matched entry and end it. -/
def State.endMatched (s : State) (chain status : Nat) : State := s.modChain chain (fun c => { c with status, matched := true, todo := 0, landed := [] })

/-- Bytes of SRC and DST of a participant (R287). -/
def Entry.sizes (n : Entry) (count : Nat) : Nat × Nat := (if n.op = 0x12 then n.len * count else n.len, if n.op = 0x11 then n.len * count else n.len)

/-- What each participant's DST receives, by rank (R287), with the exceptions raised. -/
def collectiveResult (n : Entry) (count : Nat) (srcs : List (List Byte)) (rank : Nat) : List Byte × Exc :=
  match n.op with
  | 0x10 => sumBuffers n.fmt n.len srcs
  | 0x12 => sumBuffers n.fmt n.len (srcs.map (fun b => (b.drop (rank * n.len)).take n.len))
  | 0x11 => (srcs.flatMap (fun b => b), {})
  | _ => ((srcs[n.arg % 64]?).getD (List.replicate (n.len * count) 0), {})

/-- Write a participant's destination in sectors; `keep` tells the sectors that keep their values. A sector whose destination cannot be accessed ends it as DEST_FAULT. -/
def State.landCollective (s : State) (chain va : Nat) (bs : List Byte) (poisoned : Bool) (keep : Nat → Bool) : State :=
  (List.range (bs.length / 32)).foldl (fun s i =>
    match s.chains.get chain with
    | none => s
    | some c =>
      if keep i || c.status == 3 then s
      else
        match s.engineDest c.die (s.chainAs c) (va + 32 * i) 32 with
        | (s, .error _) => s.modChain chain (fun c => { c with status := 3 })
        | (s, .ok pa) => s.landGlobal c (s.chainAs c) pa (sectorOf bs i) poisoned) s

/-- A running entry of a chain meets those of another in one collective: a collective of its context, with its peers descriptor and tag (R287). One whose destination fault
was not served still takes part. -/
def Chain.joins (c x : Chain) : Bool :=
  x.running.isSome && (x.status == 0 || x.status == 3) && !x.matched && x.context == c.context && (entryOf x.entry).collective
    && (entryOf x.entry).aux == (entryOf c.entry).aux && (entryOf x.entry).arg / 2 ^ 32 == (entryOf c.entry).arg / 2 ^ 32

/-- The chains whose running entries meet a chain's. -/
def State.joiners (s : State) (c : Chain) : List Nat := (s.chains.filter (fun e => c.joins e.2)).map Prod.fst

/-- The source bytes of participants, each with the number of sectors that are read of it; or the participant, the address and the sub-code of the first failure. -/
def State.sourcesOf (s : State) (ps : List (Nat × Chain × Nat)) : State × Except (Nat × Nat × Nat) (List (List Byte × Bool)) :=
  ps.foldl (fun (acc : State × Except (Nat × Nat × Nat) (List (List Byte × Bool))) k =>
    match acc with
    | (s, .ok l) => (match s.engineReads k.2.1.die (s.chainAs k.2.1) (entryOf k.2.1.entry).src k.2.2 with
      | (s, .ok x) => (s, .ok (l ++ [x]))
      | (s, .error e) => (s, .error (k.1, e)))
    | x => x) (s, .ok [])

/-- An address of a participant lies where no route of its die leads (R239, R250). -/
def State.cutOff (s : State) (die asid va : Nat) : Bool := (s.physOf die asid va).any (fun pa => s.unreachable die (paDie pa))

/-- The die on which the chain of a descriptor runs, or that of the descriptor itself. -/
def State.peerDie (s : State) (pa : Nat) : Nat := ((s.chains.get pa).map (fun c => c.die)).getD (paDie pa)

/-- A link between participants is lost (R250): of the peers, those that have started among them. -/
def State.peersLost (s : State) (ps : List Nat) : Bool := ps.any (fun a => ps.any (fun b => s.unreachable (s.peerDie a) (s.peerDie b)))

/-- The first page fault among the destinations of participants: the chain, the address and the sub-code. -/
def State.destsFault (s : State) (ps : List (Nat × List Nat)) : State × Option (Nat × Nat × Nat) :=
  ps.foldl (fun (acc : State × Option (Nat × Nat × Nat)) k =>
    match acc with
    | (s, none) => if (s.chains.get k.1).any (fun c => c.status == 3) then (s, none) else
      (match s.destFault k.1 k.2 with
      | (s, some e) => (s, some (k.1, e))
      | (s, none) => (s, none))
    | x => x) (s, none)

/-- COLLECTIVE_MATCH (R287): when every participant's matching entry has started, the collective runs. Where a link between its participants is lost, those that have started
complete with LINK_LOST (R250). A page fault of a participant waits for the steward (R226). -/
def State.collective (s : State) (chain : Nat) : State :=
  match s.chains.get chain with
  | none => s
  | some c =>
    let n := entryOf c.entry
    if !c.joins c || s.power == .burrow || !s.engineRuns c.die then s
    else
      let matched := s.joiners c
      let all (st : Nat) (s : State) : State := matched.foldl (fun s k => s.endMatched k st) s
      match s.peersOf c n with
      | (s, .error (va, sub)) =>
        if sub ≠ 0 then s.entryFault chain va sub false else all (if s.cutOff c.die (s.chainAs c) va then 8 else 7) s
      | (s, .ok none) => s.endMatched chain 7
      | (s, .ok (some peers)) =>
        let lost := s.peersLost (peers.filterMap id)
        if !peers.contains (some chain) then all 7 s
        else if !peers.all (fun p => p.any matched.contains) then (if lost then all 8 s else s)
        else
          let ps := peers.filterMap id
          let part (k : Nat) : Chain := s.chains.getD k c
          let same (k : Nat) : Bool :=
            let m := entryOf (part k).entry
            m.op == n.op && m.fmt == n.fmt && m.len == n.len && m.arg % 64 == n.arg % 64 && ps.contains k
          if !matched.all same || (n.op == 0x13 && ps.length ≤ n.arg % 64) then all 7 s
          else
            let sizes := n.sizes ps.length
            if !ps.all (fun k => s.engineRuns (part k).die) then s
            else
            let needed (r : Nat) : Nat := if n.op = 0x13 ∧ r ≠ n.arg % 64 then 0 else sizes.1 / 32
            match s.sourcesOf ((ps.zip (List.range ps.length)).map (fun k => (k.1, part k.1, needed k.2))) with
            | (s, .error (k, va, sub)) =>
              if sub ≠ 0 then s.entryFault k va sub false else all (if lost || s.cutOff (part k).die (s.chainAs (part k)) va then 8 else 2) s
            | (s, .ok l) =>
              match s.destsFault (ps.map (fun k => (k, (List.range (sizes.2 / 32)).map (fun i => (entryOf (part k).entry).dst + 32 * i)))) with
              | (s, some (k, va, sub)) => s.entryFault k va sub true
              | (s, none) =>
                let poisoned := l.any (fun x => x.2)
                let count := s.fresh
                let s := { s with fresh := s.fresh + 1 }
                (ps.zip (List.range ps.length)).foldl (fun s e =>
                  let (bs, x) := collectiveResult n ps.length (l.map Prod.fst) e.2
                  let dst := (entryOf (part e.1).entry).dst
                  let cut := lost || (List.range (sizes.2 / 32)).any (fun i => s.cutOff (part e.1).die (s.chainAs (part e.1)) (dst + 32 * i))
                  let st := if cut then 8 else if x.bits = 0 then 0 else (Config.collectiveStatus x.bits).toNat
                  let keep (i : Nat) : Bool :=
                    (lost && !Config.lostSector count (2 ^ 32 * e.2 + i)) || s.cutOff (part e.1).die (s.chainAs (part e.1)) (dst + 32 * i)
                  ((s.endMatched e.1 (if (part e.1).status = 3 then 3 else 0)).landCollective e.1 dst bs poisoned keep).modChain e.1
                    (fun c => if c.status = 0 then { c with status := st } else c)) s

/-- COLLECTIVE_MATCH (R287). -/
def execCollectiveMatch (chain : Nat) (s : State) : Out := .next (s.collective chain)

end Sys2Proof.Machine
end

