-- ==== Sys2Proof/Machine/Digest.lean ====
section
/-! DEFINITION. The digest SHAKE256 (R437, R492, R497) and the tag KMAC256 (R171), which the spec names and FIPS 202 and SP 800-185 define (log 23). -/

namespace Sys2Proof.Machine

/-- The powers of x modulo x⁸ + x⁶ + x⁵ + x⁴ + 1 over two elements, as numbers. -/
def xPower : Nat → Nat
  | 0 => 1
  | n + 1 => let v := 2 * xPower n; if 256 ≤ v then v ^^^ 0x171 else v

/-- The constant of a round: bit 2^j − 1 is the constant coefficient of x^(7 · round + j). -/
def roundConstant (round : Nat) : DWord := BitVec.ofNat 64 (((List.range 7).map (fun j => xPower (7 * round + j) % 2 * 2 ^ (2 ^ j - 1))).foldl (· + ·) 0)

/-- A sponge's 25 words; the word at (x, y) stands at 5x + y. -/
abbrev SpongeState := Tab DWord

/-- The word at (x, y), both modulo 5. -/
def spongeWord (a : SpongeState) (x y : Nat) : DWord := a.getD (5 * (x % 5) + y % 5) 0

/-- The state with a given word at each place. -/
def spongeOf (f : Nat → Nat → DWord) : SpongeState := (List.range 25).map (fun k => (k, f (k / 5) (k % 5)))

/-- Each word takes the parities of two neighbouring columns. -/
def spongeMix (a : SpongeState) : SpongeState :=
  let parity (x : Nat) : DWord := (List.range 5).foldl (fun v y => v ^^^ spongeWord a x y) 0
  let ps := (List.range 5).map (fun x => parity (x + 4) ^^^ (parity (x + 1)).rotateLeft 1)
  spongeOf (fun x y => spongeWord a x y ^^^ (ps[x]?).getD 0)

/-- The places that the words turn through: (1, 0), then each (x, y) is followed by (y, 2x + 3y). -/
def spongePath : Nat → Nat × Nat
  | 0 => (1, 0)
  | n + 1 => ((spongePath n).2, (2 * (spongePath n).1 + 3 * (spongePath n).2) % 5)

/-- Every word on the path moves one place along it, turned left by a triangular number. -/
def spongeTurn (a : SpongeState) : SpongeState :=
  (List.range 24).foldl (fun t n =>
    let p := spongePath n
    let q := spongePath (n + 1)
    t.set (5 * q.1 + q.2) ((spongeWord a p.1 p.2).rotateLeft ((n + 1) * (n + 2) / 2 % 64))) a

/-- The one nonlinear step, along rows. -/
def spongeBend (a : SpongeState) : SpongeState :=
  spongeOf (fun x y => spongeWord a x y ^^^ (spongeWord a (x + 2) y &&& ~~~spongeWord a (x + 1) y))

/-- The permutation of 24 rounds. -/
def spongeRounds (a : SpongeState) : SpongeState :=
  (List.range 24).foldl (fun a r =>
    let b := spongeBend (spongeTurn (spongeMix a))
    b.set 0 (b.getD 0 0 ^^^ roundConstant r)) a

/-- The bytes that a sponge takes or gives at a time. -/
def spongeRate : Nat := 136

/-- Word k of a block enters at (k mod 5, k div 5). -/
def spongeEnter (a : SpongeState) (block : List Byte) : SpongeState :=
  spongeOf (fun x y =>
    let k := x + 5 * y
    spongeWord a x y ^^^ (if k < 17 then BitVec.ofNat 64 (natOfBytes ((block.drop (8 * k)).take 8)) else 0))

/-- Take in a number of whole blocks. -/
def spongeTake (bs : List Byte) (a : SpongeState) : Nat → SpongeState
  | 0 => a
  | n + 1 => spongeTake (bs.drop spongeRate) (spongeRounds (spongeEnter a (bs.take spongeRate))) n

/-- The message with its domain suffix and the final bit, in whole blocks. -/
def spongePad (suffix : Byte) (bs : List Byte) : List Byte :=
  let gap := spongeRate - 1 - bs.length % spongeRate
  if gap = 0 then bs ++ [suffix ||| 0x80] else bs ++ [suffix] ++ List.replicate (gap - 1) 0 ++ [0x80]

/-- The first `n` bytes that a sponge gives, at most one block. -/
def sponge (suffix : Byte) (bs : List Byte) (n : Nat) : List Byte :=
  let m := spongePad suffix bs
  let a := spongeTake m (spongeOf (fun _ _ => 0)) (m.length / spongeRate)
  ((List.range 17).flatMap (fun k => bytesOfNat 8 (spongeWord a k (k / 5)).toNat)).take n

/-- The 64-byte SHAKE256 digest of bytes. -/
def shake256 (bs : List Byte) : List Byte := sponge 0x1F bs 64

/-- A number in the fewest bytes, the most significant first. -/
def bigEndian (v : Nat) : List Byte := (bytesOfNat (max 1 ((Nat.log2 v + 8) / 8)) v).reverse

/-- A number with its length before it. -/
def leftEncode (v : Nat) : List Byte := BitVec.ofNat 8 (bigEndian v).length :: bigEndian v

/-- A number with its length behind it. -/
def rightEncode (v : Nat) : List Byte := bigEndian v ++ [BitVec.ofNat 8 (bigEndian v).length]

/-- A string with its length in bits before it. -/
def encodeString (bs : List Byte) : List Byte := leftEncode (8 * bs.length) ++ bs

/-- Strings behind the rate, filled with zeros to whole blocks. -/
def padBlocks (bs : List Byte) : List Byte :=
  let b := leftEncode spongeRate ++ bs
  b ++ List.replicate ((spongeRate - b.length % spongeRate) % spongeRate) 0

/-- "KMAC" in ASCII. -/
def kmacName : List Byte := [0x4B, 0x4D, 0x41, 0x43]

/-- KMAC256 with an output of 256 bits. -/
def kmac256 (key message custom : List Byte) : List Byte :=
  sponge 0x04 (padBlocks (encodeString kmacName ++ encodeString custom) ++ padBlocks (encodeString key) ++ message ++ rightEncode 256) 32

end Sys2Proof.Machine
end

