-- ==== Sys2Proof/Machine/Control.lean ====
section
/-! DEFINITION. Branches, calls, returns, exits and the other control instructions (R304, R375 to R384 of spec/21_ref_lanes_ranks_control.md, R93). -/

namespace Sys2Proof.Machine

/-! ### Branches (R375, R376) -/

/-- T: the target of a direct branch or call (R92, R375). -/
def Issuer.branchTarget (e : Issuer) (x : XArgs) : Nat := (((e.base : Nat) + 4 * signed 16 x.imm.toNat) % (2 ^ 48 : Nat)).toNat

/-- The lanes whose sources a control instruction reads: those of the run, or in a handler the lowest lane of TMASK (R298, R362). -/
def Issuer.controlLanes (e : Issuer) : List Nat := if e.w.handler then [e.lead] else LaneMask.toList e.run

/-- The checks of an indirect target (R376). -/
def targetTrap (t l : Nat) : Option Trap := if 2 ^ 48 ≤ t ∨ t % 4 ≠ 0 then some { code := 0x05, addr := t, lane := l } else none

/-- An instruction that gives each thread its next counter and no result. -/
def jumpPlan (next : Nat → Nat) : Plan := { target := some next }

/-- `bra` (R375). -/
def execBra (x : XArgs) (s : State) : Out := perform (.bra x) (fun _ e => .ok (jumpPlan (fun _ => e.branchTarget x))) s

/-- `bz` (R375). -/
def execBz (x : XArgs) (s : State) : Out :=
  perform (.bz x) (fun s e => .ok (jumpPlan (fun l => if lo32 (s.srcA e l) = 0 then e.branchTarget x else e.after))) s

/-- `bnz` (R375). -/
def execBnz (x : XArgs) (s : State) : Out :=
  perform (.bnz x) (fun s e => .ok (jumpPlan (fun l => if lo32 (s.srcA e l) = 0 then e.after else e.branchTarget x))) s

/-- `brx` (R376). -/
def execBrx (x : XArgs) (s : State) : Out :=
  perform (.brx x) (fun s e =>
    let t (l : Nat) : Nat := (s.srcA e l).toNat
    match Trap.first (e.controlLanes.filterMap (fun l => targetTrap (t l) l)) with
    | some f => .error (.trap f)
    | none => .ok (jumpPlan t)) s

/-! ### Calls and returns (R304, R377, R378) -/

/-- Waves per group: the product of the extents of the levels bound to the group domain (R25). -/
def Record.wavesPerGroup (r : Record) : Nat := ((r.levels.filter (fun e => e.2 == 2)).map Prod.fst).foldl (· * ·) 1

/-- The virtual address of the stack slot of an entry of a lane (R304). -/
def State.stackSlot (s : State) (e : Issuer) (l entry : Nat) : Nat :=
  match s.launchOf e.w, s.groupOf e.f with
  | some a, some (_, _, g) =>
    let wave := g.index * a.record.wavesPerGroup + e.w.number
    (a.record.stack + a.record.stackSize * 64 * (64 * wave + l) + 8 * (entry - 1)) % 2 ^ 64
  | _, _ => 0

/-- The greatest depth of a flow's return stacks (R304, R377). -/
def State.stackLimit (s : State) (e : Issuer) : Nat :=
  if isSteward e.f then 64 else ((s.launchOf e.w).map (fun l => l.record.stackSize * 8 + 4)).getD 4

/-- Check the stack slots of lanes (R304): each lane with the entry to be reached. -/
def State.checkSlots (s : State) (e : Issuer) (use : Use) (ls : List (Nat × Nat)) : State × List Trap × Tab Nat :=
  s.checkLanes e.f 8 use (if use == .write then .store else .load) (ls.map (fun p => (p.1, s.stackSlot e p.1 p.2)))

/-- The depth of a lane's return stack. -/
def Issuer.depth (e : Issuer) (l : Nat) : Nat := e.w.depth.getD l 0

/-- One lane's push: the newest four entries stay on chip, all of them on a steward core (R304). -/
def Wave.push (w : Wave) (steward : Bool) (l next : Nat) : Wave :=
  let old := w.returns.getD l []
  let d := w.depth.getD l 0 + 1
  { w with
    returns := w.returns.set l (next :: (if steward then old else old.take 3))
    depth := w.depth.set l d
    maxDepth := min 65535 (max w.maxDepth d)
    spills := if !steward && 5 ≤ d then (w.spills + 1) % 2 ^ 32 else w.spills }

/-- A call (R377): every lane's checks, then the pushes and the spills. -/
def callPlan (target : Nat → Nat) (check : Bool) (s : State) (e : Issuer) : Except Hold Plan :=
  let steward := isSteward e.f
  let lanes := LaneMask.toList e.run
  let d (l : Nat) : Nat := e.depth l + 1
  let tooDeep (l : Nat) : Bool := s.stackLimit e < d l
  let bad := if check then lanes.filterMap (fun l => targetTrap (target l) l) else []
  let full := (lanes.filter tooDeep).map (fun l => ({ code := 0x0F, addr := if steward then 0 else s.stackSlot e l (d l - 4), lane := l } : Trap))
  let spill := lanes.filter (fun l => !steward && !tooDeep l && 5 ≤ d l)
  match s.checkSlots e .write (spill.map (fun l => (l, d l - 4))) with
  | (s', ts, ps) =>
    match Trap.first (bad ++ full ++ ts) with
    | some t => .error (.trapIn s' t)
    | none =>
      let commit (run : LaneMask) (t : State) : State :=
        let t := (ps.filter (fun p => run.getLsbD p.1)).foldl (fun t p =>
          t.storeAt e p.1 p.2 (bytesOfNat 8 (((e.w.returns.getD p.1 [])[3]?).getD 0)) none) t
        t.modFlow e.f (fun w => (LaneMask.toList run).foldl (fun w l => w.push steward l e.after) w)
      .ok { st := some s', commit, target := some target }

/-- `call` (R377). -/
def execCall (x : XArgs) (s : State) : Out := perform (.call x) (fun s e => callPlan (fun _ => e.branchTarget x) false s e) s

/-- `calli` (R377). -/
def execCalli (x : XArgs) (s : State) : Out := perform (.calli x) (fun s e => callPlan (fun l => (s.srcA e l).toNat) true s e) s

/-- A failure found when data return is taken at the wave's next boundary (R291). -/
def State.failWith (s : State) (f : Flow) (x : Option Imprecise) : State :=
  match x with
  | some x => s.modFlow f (fun w => { w with imprecise := w.imprecise ++ [x] })
  | none => s

/-- `ret` (R378): from depth 5 or more, entry d − 4 is read back from its slot. A slot whose line is poisoned is found so when it returns (R291, log 123). -/
def execRet (o : CArgs) (s : State) : Out :=
  perform (.ret o) (fun s e =>
    let steward := isSteward e.f
    let lanes := LaneMask.toList e.run
    let empty := (lanes.filter (fun l => e.depth l == 0)).map (fun l =>
      ({ code := 0x0F, sub := 1, addr := if steward then 0 else s.stackSlot e l 1, lane := l } : Trap))
    let deep := lanes.filter (fun l => !steward && 5 ≤ e.depth l)
    match s.checkSlots e .read (deep.map (fun l => (l, e.depth l - 4))) with
    | (s', ts, ps) =>
      match Trap.first (empty ++ ts) with
      | some t => .error (.trapIn s' t)
      | none =>
        let commit (run : LaneMask) (t : State) : State :=
          (LaneMask.toList run).foldl (fun t l =>
            let (t, back) : State × List Nat := match ps.get l with
              | some pa => let (t, bs) := t.loadAt e l pa 8 none; (t, [natOfBytes bs])
              | none => (t, [])
            t.modFlow e.f (fun w => { w with
              returns := w.returns.set l ((w.returns.getD l []).tail ++ back)
              depth := w.depth.set l (w.depth.getD l 0 - 1) })) t |>.failWith e.f (t.poisonOf e (ps.filter (fun p => run.getLsbD p.1)) (fun l => s.stackSlot e l (e.depth l - 4)))
        .ok { st := some s', commit, target := some (fun l => ((e.w.returns.getD l []).head?).getD 0) }) s

/-! ### Ending, triggering and growing (R379 to R381) -/

/-- Threads stop being live (R46, R379). -/
def Wave.exitLanes (w : Wave) (run : LaneMask) : Wave :=
  { w with
    live := w.live &&& ~~~run
    counter := w.counter.keep (fun l _ => !run.getLsbD l)
    word := w.word.keep (fun l _ => !run.getLsbD l)
    laneCopies := w.laneCopies.keep (fun k _ => !run.getLsbD (k % 64)) }.fixOctets

/-- `exit` (R379). -/
def execExit (o : CArgs) (s : State) : Out :=
  perform (.exit o) (fun _ e => .ok {
    commit := fun run s =>
      let s := s.traceEvent e.f 1 0 run
      let s := { s with reservations := s.reservations.filter (fun r => !(r.flow == e.f && run.getLsbD r.lane)) }
      s.modFlow e.f (fun w => w.exitLanes run)
    after := fun s => s.tryEnd e.f }) s

/-- The group of a flow executes `trigger` (R31, R380). -/
def State.triggerOf (s : State) (f : Flow) : State :=
  match s.groupOf f with
  | some (c, g, q) =>
    if q.triggered then s else (s.setGroup c g { q with triggered := true }).trigger q.launch q.index
  | none => s

/-- `trigger` (R380). -/
def execTrigger (o : CArgs) (s : State) : Out := perform (.trigger o) (fun _ e => .ok { commit := fun _ s => s.triggerOf e.f }) s

/-- The requests of a run's lanes, in ascending order (R381): the state and the statuses. -/
def State.growLanes (s : State) (e : Issuer) (run : LaneMask) (n : Nat → Nat) : State × Tab (List Word) :=
  (LaneMask.toList run).foldl (fun (a : State × Tab (List Word)) l =>
    let (s, st) := a.1.growBy e.w.launch (n l)
    (s, a.2.set l [BitVec.ofNat 32 st])) (s, [])

/-- `grow` (R381). -/
def execGrow (x : XArgs) (s : State) : Out :=
  perform (.grow x) (fun s e =>
    let n (l : Nat) : Nat := (lo32 (s.srcA e l)).toNat
    .ok {
      commit := fun run t =>
        let (t, vals) := t.growLanes e run n
        t.putWords e run (fun l => vals.getD l [])
      latch := some (fun run =>
        let vals := (s.growLanes e run n).2
        e.latch run (fun l => vals.getD l [])) }) s

/-! ### Waiting and doing nothing (R93, R382 to R384) -/

/-- `yield` (R382). -/
def execYield (o : CArgs) (s : State) : Out :=
  perform (.yield o) (fun _ e => .ok { commit := fun _ s => s.modFlow e.f (fun w => { w with candidate := true }) }) s

/-- A masked flag of a flow counts an instruction of the matrix or system majors (R383): an outstanding one, or an operation or fill that its core's engine holds. -/
def State.flagsEngine (s : State) (f : Flow) (w : Wave) (mask : Nat) : Bool :=
  let masked (k : Option (Fin 12)) : Bool := k.any (fun k => bit mask k.val)
  w.outstanding.any (fun o => masked o.flag && (o.major == 0x1C || o.major == 0x1D)) ||
    (match f with
      | .wave c k => (s.core c).matrix.queue.any (fun o => o.wave == k && masked o.flag) || (s.core c).matrix.fills.any (fun o => o.wave == k && masked o.flag)
      | .steward _ _ => false)

/-- `fwait` (R383): it does not issue until every flag of its mask is clear; a wait on an engine instruction's flag, as the last instruction of its clause, makes the wave a
swap candidate. -/
def execFwait (x : XArgs) (s : State) : Out :=
  perform (.fwait x) (fun s e =>
    if e.w.flagsClear (x.immBits 11 0) then .ok {}
    else if s.dstep.isSome then .error (.park s .dstep)
    else .error (.held (if e.last && s.flagsEngine e.f e.w (x.immBits 11 0) then s.modFlow e.f (fun w => { w with candidate := true }) else s))) s

/-- `nop` (R384). -/
def execNop (o : CArgs) (s : State) : Out := perform (.nop o) (fun _ _ => .ok { latch := none }) s

/-- Hint space (R93, R446). -/
def execHint (o : HintArgs) (s : State) : Out := perform (.hint o) (fun _ _ => .ok { latch := none }) s

end Sys2Proof.Machine
end

