-- ==== Sys2Proof/Machine/Dots.lean ====
section
/-! DEFINITION. The narrow dot products (R68 to R72 and R518 of spec/04_numbers_and_arithmetic.md, R359 to R361 of spec/20_ref_float.md). -/

namespace Sys2Proof.Machine

/-- The products of the elements of two words (R70). -/
def products (f : Fmt) (w : Nat) (a b : DWord) : List Exact :=
  (List.range (32 / w)).map (fun k => (f.value (element w k a)).mul (f.value (element w k b)))

/-- A plain floating-point dot (R359, R518). -/
def dotFp (f : Fmt) (w : Nat) (x : XArgs) (v : Ops) : Word × Exc :=
  let m := rmode x.rm
  roundFp32 m x.sat (sumExact m [fval v.c, sumExact m (products f w v.a v.b)])

/-- An element as an integer: two's complement, or unsigned for UINT8 (R61). -/
def intElement (signed : Bool) (w k : Nat) (v : DWord) : Int :=
  let e := element w k v
  if signed ∧ 2 ^ (w - 1) ≤ e then (e : Int) - (2 ^ w : Nat) else e

/-- A plain integer dot, which wraps (R359). -/
def dotInt (signed : Bool) (w : Nat) (v : Ops) : DWord :=
  BitVec.ofInt 64 ((List.range (32 / w)).foldl (fun n k => n + intElement signed w k v.a * intElement signed w k v.b) ((lo32 v.c).toNat : Int))

/-- The scale word's source, held in IMM[7:0] (R346). -/
def scaleSrc (x : XArgs) : Src := (Src.ofCode (x.imm.extractLsb' 0 8)).getD (.var 0)

/-- The lanes of a lane's block that are in the run (R68). -/
def blockLanes (run : LaneMask) (lanes l : Nat) : List Nat := (LaneMask.toList run).filter (fun m => m / lanes == l / lanes)

/-- The lead lane of a lane's block (R68). -/
def leadOf (lanes l : Nat) : Nat := l / lanes * lanes

/-- A scaled block dot for one lane of the issuing run (R71, R72, R360). A lane halt takes no product out of a block's sum (R452). -/
def dotScaled (f : Fmt) (w : Nat) (x : XArgs) (s : State) (e : Issuer) (run : LaneMask) (l : Nat) : Word × Exc :=
  let m := rmode x.rm
  let lead := leadOf w l
  let word := if e.w.live.getLsbD lead then s.src e .one (scaleSrc x) lead else 0
  let sa := bf16.value (half16 word (x.immBits 8 8))
  let sb := bf16.value (half16 word (x.immBits 9 9))
  let sum := sumExact m ((blockLanes run w l).flatMap (fun k => products f w (s.srcA e k) (s.srcB e k)))
  roundFp32 m x.sat (sumExact m [fval (s.srcC e l), (sa.mul sb).mul sum])
where
  /-- A half of the scale word (R69). -/
  half16 (v : DWord) (h : Nat) : Nat := v.toNat / 2 ^ (16 * h) % 65536

/-- The plan of a scaled dot: a latch that has no entry for a live lead lane is read invalid (R54, R360). -/
def scaledPlan (f : Fmt) (w : Nat) (x : XArgs) (s : State) (e : Issuer) : Except Hold Plan :=
  let bad := match scaleSrc x with
    | .latch k => (LaneMask.toList e.run).any (fun l => e.w.live.getLsbD (leadOf w l) && ((e.w.latch k.toNat).value (leadOf w l)).isNone)
    | _ => false
  if bad then .error (.trap .illegal)
  else .ok (resultPlan e (some 5) true (fun _ l => [(dotScaled f w x s e e.run l).1]) (fun _ l => (dotScaled f w x s e e.run l).2))

/-- `dot4.e4m3` (R359). -/
def execDot4E4m3 (x : XArgs) (s : State) : Out := perform (.dot4E4m3 x) (fpPlan (some 5) (dotFp e4m3 8 x)) s

/-- `dot4.e5m2` (R359). -/
def execDot4E5m2 (x : XArgs) (s : State) : Out := perform (.dot4E5m2 x) (fpPlan (some 5) (dotFp e5m2 8 x)) s

/-- `dot8.e2m1` (R359). -/
def execDot8E2m1 (x : XArgs) (s : State) : Out := perform (.dot8E2m1 x) (fpPlan (some 5) (dotFp e2m1 4 x)) s

/-- `dot2.b16` (R359). -/
def execDot2B16 (x : XArgs) (s : State) : Out := perform (.dot2B16 x) (fpPlan (some 5) (dotFp bf16 16 x)) s

/-- `dot4.i8` (R359). -/
def execDot4I8 (x : XArgs) (s : State) : Out := perform (.dot4I8 x) (intPlan 5 (dotInt true 8)) s

/-- `dot4.n8` (R359). -/
def execDot4N8 (x : XArgs) (s : State) : Out := perform (.dot4N8 x) (intPlan 5 (dotInt false 8)) s

/-- `dot8.i4` (R359). -/
def execDot8I4 (x : XArgs) (s : State) : Out := perform (.dot8I4 x) (intPlan 5 (dotInt true 4)) s

/-- `dots4.e4m3` (R71, R360). -/
def execDots4E4m3 (x : XArgs) (s : State) : Out := perform (.dots4E4m3 x) (scaledPlan e4m3 8 x) s

/-- `dots4.e5m2` (R71, R360). -/
def execDots4E5m2 (x : XArgs) (s : State) : Out := perform (.dots4E5m2 x) (scaledPlan e5m2 8 x) s

/-- `dots8.e2m1` (R71, R360). -/
def execDots8E2m1 (x : XArgs) (s : State) : Out := perform (.dots8E2m1 x) (scaledPlan e2m1 4 x) s

end Sys2Proof.Machine
end

