-- ==== Sys2Proof/Machine/Tensor.lean ====
section
/-! DEFINITION. The arithmetic of the matrix engine: tags, operand elements, one operation with its checksums, verification and repair (R73, R254, R255, R258,
R261 to R263, R266, R518). -/

namespace Sys2Proof.Machine

/-! ### CRC-32C (R255) -/

/-- One bit of a reflected CRC with polynomial 0x1EDC6F41. -/
def crcBit (c : Nat) : Nat := if c % 2 = 1 then c / 2 ^^^ 0x82F63B78 else c / 2

/-- One byte. -/
def crcByte (c : Nat) (b : Byte) : Nat := crcBit (crcBit (crcBit (crcBit (crcBit (crcBit (crcBit (crcBit (c ^^^ b.toNat))))))))

/-- The CRC-32C of bytes (log 21). -/
def crc32c (bs : List Byte) : Nat := bs.foldl crcByte 0xFFFFFFFF ^^^ 0xFFFFFFFF

/-! ### The parameter block (R258) -/

/-- The fields of a parameter block. -/
structure Block where
  fmt : Nat
  acc : Nat
  ta : Bool
  tb : Bool
  scaled : Bool
  slotA : Nat
  slotB : Nat
  slotS : Nat
  sqa : Nat
  sqb : Nat
  blk0 : Nat
  /-- No reserved bit is set. -/
  clean : Bool

/-- Read a parameter block. -/
def blockOf (bs : List Byte) : Block :=
  let v := natOfBytes (bs.take 8)
  { fmt := bits v 7 0, acc := bits v 9 8, ta := bit v 10, tb := bit v 11, scaled := bit v 12, slotA := bits v 19 16, slotB := bits v 23 20,
    slotS := bits v 27 24, sqa := bits v 29 28, sqb := bits v 31 30, blk0 := bits v 35 32, clean := bits v 15 13 == 0 && bits v 63 36 == 0 }

/-- Kop of a format (R254). -/
def kop (fmt : Nat) : Nat := if fmt = 2 then 256 else if fmt = 3 ∨ fmt = 4 then 64 else 128

/-- The width of an element in bits. -/
def elemBits (fmt : Nat) : Nat := if fmt = 2 then 4 else if fmt = 3 ∨ fmt = 4 then 16 else 8

/-- The floating-point format of FMT 0 to 4. -/
def blockFmt (fmt : Nat) : Fmt :=
  match fmt with
  | 0 => e4m3
  | 1 => e5m2
  | 2 => e2m1
  | 3 => bf16
  | _ => fp16

/-- Integer class: FMT 5. -/
def Block.int (b : Block) : Bool := b.fmt == 5

/-- What R258 refuses in a block by itself. -/
def Block.bad (b : Block) : Bool :=
  5 < b.fmt || !b.clean || (b.scaled && b.int) || (!b.scaled && (b.slotS != 0 || b.sqa != 0 || b.sqb != 0 || b.blk0 != 0)) || 16 < b.blk0 + kop b.fmt / 32

/-- The slots that an operation reads. -/
def Block.slots (b : Block) : List Nat := ([b.slotA, b.slotB] ++ (if b.scaled then [b.slotS] else [])).dedup

/-! ### Operand elements (R254) -/

/-- Element (o, k) of a slot as a code. -/
def slotCode (m : Tab Byte) (fmt : Nat) (transposed : Bool) (o k : Nat) : Nat :=
  let w := elemBits fmt
  let p := if transposed then (k * 128 + o) * w else (o * kop fmt + k) * w
  natOfBytes (Memory.read m (p / 8) 2) / 2 ^ (p % 8) % 2 ^ w

/-- The scale of outer index o and block b of an operation (R258). -/
def slotScale (m : Tab Byte) (b : Block) (quarter o blk : Nat) : Exact :=
  if b.scaled then bf16.value (natOfBytes (Memory.read m (4096 * quarter + 32 * o + 2 * (b.blk0 + blk)) 2)) else .fin false 1 0

/-- The slots' contents of an operation. -/
structure Operands where
  a : Tab Byte
  b : Tab Byte
  s : Tab Byte

/-- The exact terms A(i, k) × B(k, j) of one block (R73). -/
def blockProducts (p : Block) (m : Operands) (i j blk : Nat) : List Exact :=
  (List.range 32).map (fun n =>
    let k := 32 * blk + n
    ((blockFmt p.fmt).value (slotCode m.a p.fmt p.ta i k)).mul ((blockFmt p.fmt).value (slotCode m.b p.fmt p.tb j k)))

/-- The scale sA(i, b) × sB(j, b). -/
def blockScale (p : Block) (m : Operands) (i j blk : Nat) : Exact := (slotScale m.s p p.sqa i blk).mul (slotScale m.s p p.sqb j blk)

/-- The block term sA × sB × P(i, j), exact (R261). -/
def blockTerm (p : Block) (m : Operands) (i j blk : Nat) : Exact := (blockScale p m i j blk).mul (sumExact .rne (blockProducts p m i j blk))

/-- The absolute term |sA × sB| × Σ |A × B| (R261). -/
def absTerm (p : Block) (m : Operands) (i j blk : Nat) : Exact :=
  (blockScale p m i j blk).abs.mul (sumExact .rne ((blockProducts p m i j blk).map Exact.abs))

/-- The integer term of one block of an INT8 operation. -/
def intTerm (p : Block) (m : Operands) (i j blk : Nat) : Int :=
  (List.range 32).foldl (fun n k =>
    let k := 32 * blk + k
    n + signed8 (slotCode m.a p.fmt p.ta i k) * signed8 (slotCode m.b p.fmt p.tb j k)) 0
where
  /-- A code as a two's complement byte. -/
  signed8 (v : Nat) : Int := if v < 128 then (v : Int) else (v : Int) - 256

/-- An FP32 value with exact terms added in one rounding, with its exceptions; the terms are summed first (R261, R518). -/
def addRoundExc (w : Word) (ts : List Exact) : Word × Exc := roundFp32 .rne false (sumExact .rne [f32 w, sumExact .rne ts])

/-- An FP32 value with exact terms added in one rounding. -/
def addRound (w : Word) (ts : List Exact) : Word := (addRoundExc w ts).1

/-- An integer value with terms added modulo 2^32. -/
def addWrap (w : Word) (ts : List Int) : Word := w + BitVec.ofInt 32 (ts.foldl (· + ·) 0)

/-- A table of 128 words. -/
def vec (f : Nat → Word) : Tab Word := (List.range 128).map (fun i => (i, f i))

/-- A table of 128 × 128 words. -/
def square (f : Nat → Nat → Word) : Tab Word := (List.range 16384).map (fun n => (n, f (n / 128) (n % 128)))

/-- Element (i, j) of an accumulator. -/
def Acc.at (a : Acc) (i j : Nat) : Word := a.elems.getD (128 * i + j) 0

/-- The indices 0 to 127. -/
def idx : List Nat := List.range 128

/-- One block of an operation (R261). -/
def Acc.block (a : Acc) (p : Block) (m : Operands) (blk : Nat) : Acc :=
  if p.int then
    { a with
      elems := square (fun i j => addWrap (a.at i j) [intTerm p m i j blk])
      cr := vec (fun i => addWrap (a.cr.getD i 0) (idx.map (fun j => intTerm p m i j blk)))
      cc := vec (fun j => addWrap (a.cc.getD j 0) (idx.map (fun i => intTerm p m i j blk))) }
  else
    { a with
      elems := square (fun i j => addRound (a.at i j) [blockTerm p m i j blk])
      cr := vec (fun i => addRound (a.cr.getD i 0) (idx.map (fun j => blockTerm p m i j blk)))
      cc := vec (fun j => addRound (a.cc.getD j 0) (idx.map (fun i => blockTerm p m i j blk)))
      ar := vec (fun i => addRound (a.ar.getD i 0) (idx.map (fun j => absTerm p m i j blk)))
      ac := vec (fun j => addRound (a.ac.getD j 0) (idx.map (fun i => absTerm p m i j blk))) }

/-- Every block of an operation in ascending order (R73, R261). -/
def Acc.mma (a : Acc) (p : Block) (m : Operands) : Acc := (List.range (kop p.fmt / 32)).foldl (fun a b => a.block p m b) a

/-- The exceptions of the roundings of one block of an operation to its accumulator's elements (R64 to R66, R72, R73). -/
def Acc.blockExc (a : Acc) (p : Block) (m : Operands) (blk : Nat) : Exc :=
  if p.int then {} else idx.foldl (fun x i => idx.foldl (fun x j => x.or (addRoundExc (a.at i j) [blockTerm p m i j blk]).2) x) {}

/-- The exceptions of an operation, which its completion adds to its wave's WSTAT: overflow by R72, and by the same rule the others of R64 to R66 (log 122). -/
def Acc.mmaExc (a : Acc) (p : Block) (m : Operands) : Exc :=
  ((List.range (kop p.fmt / 32)).foldl (fun (t : Exc × Acc) b => (t.1.or (t.2.blockExc p m b), t.2.block p m b)) ({}, a)).1

/-! ### Bases (R261) -/

/-- The exact sum of words, rounded once (R261, R263). -/
def sumRound (ws : List Word) : Word := (roundFp32 .rne false (sumExact .rne (ws.map f32))).1

/-- The sum of words modulo 2^32. -/
def sumWrap (ws : List Word) : Word := ws.foldl (· + ·) 0

/-- Row i and column j of an accumulator. -/
def Acc.row (a : Acc) (i : Nat) : List Word := idx.map (fun j => a.at i j)
/-- Column j of an accumulator. -/
def Acc.col (a : Acc) (j : Nat) : List Word := idx.map (fun i => a.at i j)

/-- The word with its sign bit clear. -/
def absWord (w : Word) : Word := w &&& 0x7FFFFFFF

/-- `mzero`'s values (R261). -/
def Acc.zeroed (a : Acc) : Acc := { a with elems := [], cr := [], cc := [], ar := [], ac := [] }

/-- `mload`'s values from the 64 KiB read, with the checksum vectors formed (R261). -/
def Acc.loaded (a : Acc) (int : Bool) (bs : List Byte) : Acc :=
  let ws := wordsOfBytes bs
  let a := { a with elems := (List.range 16384).zip ws }
  if int then { a with cr := vec (fun i => sumWrap (a.row i)), cc := vec (fun j => sumWrap (a.col j)), ar := [], ac := [] }
  else
    { a with
      cr := vec (fun i => sumRound (a.row i))
      cc := vec (fun j => sumRound (a.col j))
      ar := vec (fun i => sumRound ((a.row i).map absWord))
      ac := vec (fun j => sumRound ((a.col j).map absWord)) }

/-- A new chain (R261). -/
def Acc.newChain (a : Acc) (base : ChainBase) (cls : Option Bool) : Acc :=
  { a with base, replay := [], fmtSeen := 0, noReplay := false, cls, clsBit := cls == some true }

/-! ### Verification (R263) -/

/-- What a row or column shows. -/
inductive Check where
  | pass
  | unchecked
  | mismatch
  deriving DecidableEq, Repr

/-- An FP32 pattern is an infinity or a NaN. -/
def nonFinite (w : Word) : Bool := w &&& 0x7F800000 == 0x7F800000

/-- The larger of two values. -/
def Exact.max (a b : Exact) : Exact := if a.lt b then b else a

/-- Check one row or column against its checksum and its absolute companion. -/
def checkLine (int : Bool) (abs : Exact) (rel : Nat) (ws : List Word) (sum asum : Word) : Check :=
  if int then (if sumWrap ws = sum then .pass else .mismatch)
  else if nonFinite sum || ws.any nonFinite then .unchecked
  else
    let diff := (sumExact .rne [f32 (sumRound ws), (f32 sum).negate]).abs
    if (Exact.max abs ((f32 asum).mul (.fin false 1 (-(rel : Int))))).lt diff then .mismatch else .pass

/-- ABS and REL of a verification: the largest ABS and the smallest REL of the formats seen (R262, R263). -/
def Core.tolerance (q : Core) (fmtSeen : Nat) : Exact × Nat :=
  let seen := (List.range 6).filter (fun k => bit fmtSeen k)
  let abs (k : Nat) : Exact := if k = 5 then .zero false else f32 (q.mtolAbs.getD k 0x00800000)
  let rel (k : Nat) : Nat := if k = 5 then 0 else q.mtolRel.getD k 14 % 256
  (seen.foldl (fun m k => m.max (abs k)) (.zero false), seen.foldl (fun m k => min m (rel k)) 255)

/-- A verification: the mismatched rows and columns, and whether any was unchecked (R263, R470). -/
def Acc.verify (a : Acc) (tol : Exact × Nat) : List Nat × List Nat × Bool :=
  if a.forced then (idx, idx, false)
  else
    let int := a.cls == some true
    let rows := idx.map (fun i => checkLine int tol.1 tol.2 (a.row i) (a.cr.getD i 0) (a.ar.getD i 0))
    let cols := idx.map (fun j => checkLine int tol.1 tol.2 (a.col j) (a.cc.getD j 0) (a.ac.getD j 0))
    let bad (l : List Check) : List Nat := (idx.zip l).filterMap (fun e => if e.2 = .mismatch then some e.1 else none)
    (bad rows, bad cols, (rows ++ cols).contains .unchecked)

/-- The accumulator after a verification (R263, R470): with no mismatch MISMATCH clears and UNCHECKED says whether any was unchecked. -/
def Acc.verified (a : Acc) (tol : Exact × Nat) : Acc :=
  let (rows, cols, un) := a.verify tol
  if rows = [] ∧ cols = [] then { a with mismatch := false, rows, cols, unchecked := un }
  else { a with mismatch := true, rows, cols, forced := false }

/-! ### Repair (R265, R266) -/

/-- The mask that `mloc` gives (R265). -/
def Acc.locMask (a : Acc) (sel : Nat) : DWord :=
  if !a.mismatch then 0
  else
    let l := if sel < 2 then a.rows else a.cols
    LaneMask.ofList ((l.filter (fun n => n / 64 == sel % 2)).map (· % 64))

/-- The correction of element (r, c) (R266). -/
def Acc.corrected (a : Acc) (r c : Nat) : Acc :=
  let sum := a.row r
  let v := if a.cls = some true then a.at r c + (a.cr.getD r 0 - sumWrap sum)
    else (roundFp32 .rne false (sumExact .rne [f32 (a.at r c), sumExact .rne [f32 (a.cr.getD r 0), (f32 (sumRound sum)).negate]])).1
  { a with elems := a.elems.set (128 * r + c) v }

/-- `mfix`: the accumulator and the status (R266). -/
def Acc.fix (a : Acc) (tol : Exact × Nat) : Acc × Nat :=
  if !a.mismatch then (a, 3)
  else
    match a.rows, a.cols with
    | [r], [c] =>
      let b := (a.corrected r c).verified tol
      (b, if b.mismatch then 2 else 0)
    | _, _ => (a, 1)

end Sys2Proof.Machine
end

