-- ==== Sys2Proof/Machine/Matrix.lean ====
section
/-! DEFINITION. The matrix instructions (R253 to R269 of spec/16_matrix_engine.md, R416 to R424 of spec/23_ref_engines_system.md). -/

namespace Sys2Proof.Machine

/-! ### The engine (R253, R169) -/

/-- The shadowed image whose matrix state the engine of a core still holds, until the Sett engine has written that state to its save area (R169). -/
def Core.engineShadow (q : Core) : Option Image := q.shadow.filter (fun i => !i.matrixOut)

/-- The matrix state that the engine of a core holds: the shadowed image's until it is spilled, and then the resident one's (R169). -/
def Core.engine (q : Core) : Matrix :=
  match q.engineShadow with
  | some i => i.matrix
  | none => q.matrix

/-- Put the engine's matrix state back. -/
def Core.putEngine (q : Core) (m : Matrix) : Core :=
  match q.engineShadow with
  | some i => { q with shadow := some { i with matrix := m } }
  | none => { q with matrix := m }

/-- Change the engine of a core. -/
def State.modMatrix (s : State) (c : Nat) (f : Matrix → Matrix) : State := s.modCore c (fun q => q.putEngine (f q.engine))

/-- Change a wave of the image that the engine works for. -/
def State.modEngineWave (s : State) (c k : Nat) (f : Wave → Wave) : State :=
  s.modCore c (fun q => match q.engineShadow with
    | some i => { q with shadow := some { i with waves := i.waves.upd k f } }
    | none => { q with waves := q.waves.upd k f })

/-- A group of the image that the engine works for. -/
def Core.engineGroup (q : Core) (g : Nat) : Option Group :=
  match q.engineShadow with
  | some i => i.groups.get g
  | none => q.groups.get g

/-- Put a group of that image back. -/
def State.setEngineGroup (s : State) (c g : Nat) (v : Group) : State :=
  s.modCore c (fun q => match q.engineShadow with
    | some i => { q with shadow := some { i with groups := i.groups.set g v } }
    | none => { q with groups := q.groups.set g v })

/-- A core as it would stand with an image in place of its resident one. -/
def Core.withImage (q : Core) (i : Image) : Core :=
  { q with context := some i.context, asid := i.asid, priority := i.priority, waves := i.waves, groups := i.groups, matrix := i.matrix, watches := i.watches,
           active := i.active, pending := i.pending, shadow := none }

/-- Something happens to the image that a core's engine works for, as if it were resident (R169): the resident one, or the shadowed one, which stays in the shadow bank. -/
def State.forEngine {α : Type} (s : State) (c : Nat) (f : State → State × α) : State × α :=
  let q := s.core c
  match q.engineShadow with
  | none => f s
  | some i =>
    let (t, x) := f (s.setCore c (q.withImage i))
    (t.modCore c (fun r => { r with
      context := q.context, asid := q.asid, priority := q.priority, waves := q.waves, groups := q.groups, matrix := q.matrix, watches := q.watches,
      active := q.active, pending := q.pending
      shadow := some { i with waves := r.waves, groups := r.groups, matrix := r.matrix, watches := r.watches } }), x)

/-- The context whose image the engine works for. -/
def Core.engineContext (q : Core) : Option Nat :=
  match q.engineShadow with
  | some i => some i.context
  | none => q.context

/-- The ASID that the engine's accesses use. -/
def Core.engineAsid (q : Core) : Nat :=
  match q.engineShadow with
  | some i => i.asid
  | none => q.asid

/-- The Sett engine has written the matrix state of the shadowed image, which it spills first, once its operations have ended (R169): waves that wait for the engine go on. -/
def Core.spillMatrix (q : Core) : Option Core :=
  match q.engineShadow with
  | some i =>
    if i.matrix.quiet && !q.swapping then some ({ q with shadow := some { i with matrixOut := true } } : Core).wakeSpill else none
  | none => none

/-- Slot k. -/
def Matrix.slot (m : Matrix) (k : Nat) : Slot := m.slots.getD k Slot.reset
/-- Accumulator k. -/
def Matrix.acc (m : Matrix) (k : Nat) : Acc := m.accs.getD k Acc.reset
/-- Put an accumulator back. -/
def Matrix.setAcc (m : Matrix) (k : Nat) (a : Acc) : Matrix := { m with accs := m.accs.set k a }
/-- Put a slot back. -/
def Matrix.setSlot (m : Matrix) (k : Nat) (v : Slot) : Matrix := { m with slots := m.slots.set k v }

/-- The resource of a bit of a claim mask is held by a group (R253). -/
def Matrix.holds (m : Matrix) (g b : Nat) : Bool := if b < 16 then (m.slot b).owner == some g else (m.acc (b - 16)).owner == some g

/-- The owner of the resource of a bit. -/
def Matrix.ownerOf (m : Matrix) (b : Nat) : Option Nat := if b < 16 then (m.slot b).owner else (m.acc (b - 16)).owner

/-- The bits of a claim mask. -/
def claimBits (mask : Nat) : List Nat := (List.range 20).filter (fun b => bit mask b)

/-- A resource passes to a group, or to none; a newly claimed accumulator starts afresh (R253). -/
def Matrix.give (m : Matrix) (b : Nat) (g : Option Nat) : Matrix :=
  if b < 16 then m.setSlot b { m.slot b with owner := g }
  else
    let a := m.acc (b - 16)
    match g with
    | some _ => m.setAcc (b - 16) { Acc.reset with elems := a.elems, cr := a.cr, cc := a.cc, ar := a.ar, ac := a.ac, owner := g }
    | none => m.setAcc (b - 16) { a with owner := none }

/-- The slots that an operation reads. -/
def MatOp.reads (o : MatOp) : List Nat :=
  match o.kind with
  | .mma _ _ b => (blockOf b).slots
  | _ => []

/-- Nothing accepted holds back the release of the resource of a bit (R253, R417): of a slot, the fills accepted before the release and the operations that read it; of an
accumulator, its operations. -/
def Matrix.idle (m : Matrix) (fills b : Nat) : Bool :=
  if b < 16 then !(m.fills.any (fun f => f.slot == b && f.num < fills)) && !(m.queue.any (fun o => o.reads.contains b))
  else !(m.queue.any (fun o => o.acc == b - 16))

/-- The releases that wait take effect where their resource is idle (R417). -/
def Matrix.settleReleases (m : Matrix) : Matrix :=
  m.releases.foldl (fun m r =>
    let free := (claimBits r.2.1).filter (m.idle r.2.2)
    let rest := (claimBits r.2.1).filter (fun b => !free.contains b)
    let m := free.foldl (fun m b => if m.holds r.1 b then m.give b none else m) m
    if rest = [] then m else { m with releases := m.releases ++ [(r.1, rest.foldl (fun n b => n + 2 ^ b) 0, r.2.2)] }) { m with releases := [] }

/-- An accepted operation that has not started and that the release of its mismatched accumulator discards (R417). -/
def Matrix.released (m : Matrix) (o : MatOp) : Bool :=
  !o.running && (m.acc o.acc).mismatch && m.releases.any (fun r => bit r.2.1 (16 + o.acc) && (m.acc o.acc).owner == some r.1)

/-! ### Ends of operations (R259, R260) -/

/-- An operation leaves the queue: its flag falls, and a wave held for it goes on (R96, R259). -/
def State.opLeaves (s : State) (c : Nat) (o : MatOp) (park : Option Park) : State :=
  let s := s.modMatrix c (fun m => { m with queue := m.queue.filter (fun x => x.seq != o.seq) })
  s.modEngineWave c o.wave (fun w =>
    let w := w.lowerFlag o.flag
    if w.park = some (.matrix o.seq) then { w with park } else w)

/-- An operation that ends with a fault taken at its wave's next boundary (R260, R291). -/
def State.opFails (s : State) (c : Nat) (o : MatOp) (code sub addr : Nat) : State :=
  let s := s.opLeaves c o (some .matrixDone)
  s.modEngineWave c o.wave (fun w => { w with imprecise := w.imprecise ++
    [{ code, sub, lane := o.lane, addr, bank := 0, count := 0, sitePc := o.pc, siteSeq := o.seq }] })

/-- An operation on which its wave is held ends with a fault that is precise at its instruction (R259, R263, R421): the wave takes it when it goes on. -/
def State.opTraps (s : State) (c : Nat) (o : MatOp) (t : Trap) : State :=
  let s := s.opLeaves c o none
  s.modEngineWave c o.wave (fun w => { w with imprecise := w.imprecise ++
    [{ code := t.code, sub := t.sub, lane := t.lane, addr := t.addr, bank := 0, count := 0, sitePc := t.sitePc.getD o.pc, siteSeq := t.siteSeq, precise := true }] })

/-- An operation is discarded (R260, R417): the matrix-state trap at its wave's next clause boundary. -/
def State.discardOp (s : State) (c : Nat) (o : MatOp) : State := s.opFails c o 0x0D o.acc 0

/-- A wave of the resident image may end after an operation of it has (R259, R379). -/
def State.opTryEnd (s : State) (c k : Nat) : State := if (s.core c).engineShadow.isSome then s else s.tryEnd (.wave c k)

/-- v is behind VERSION (R259). -/
def staleVersion (v version : Nat) : Bool := 2 ^ 31 ≤ (v + 2 ^ 32 - version % 2 ^ 32) % 2 ^ 32

/-- Queued operations whose version VERSION has passed are discarded (R260), and so are those that a release discards; releases take effect (R417). -/
def State.settleEngine (s : State) (c : Nat) : State :=
  let m := (s.core c).engine
  let stale := m.queue.filter (fun o => (!o.running && staleVersion o.version (m.acc o.acc).version) || m.released o)
  let s := stale.foldl (fun s o => s.discardOp c o) s
  stale.foldl (fun s o => s.opTryEnd c o.wave) (s.modMatrix c Matrix.settleReleases)

/-! ### The shape of a matrix instruction (R256, R257) -/

/-- MATRIX_STATE, with SUB the accumulator (R293). -/
def Trap.matrix (acc : Nat) : Trap := { code := 0x0D, sub := acc }

/-- A matrix instruction executes once, for the lowest lane of its run: a trap of it is that lane's (R256, R292). -/
def ofLead (e : Issuer) (r : Except Hold Plan) : Except Hold Plan :=
  match r with
  | .error (.trap t) => .error (.trap { t with lane := e.lead })
  | .error (.trapIn s t) => .error (.trapIn s { t with lane := e.lead })
  | _ => r

/-- A matrix instruction on its core: while another image's matrix state is not spilled its wave parks (R169). -/
def matrixPlan (k : State → Issuer → Nat → Except Hold Plan) (s : State) (e : Issuer) : Except Hold Plan :=
  match e.f with
  | .steward _ _ => .error (.trap .illegal)
  | .wave c _ => if (s.core c).engineShadow.isSome then .error (.park s .matrixSpill) else ofLead e (k s e c)

/-- The address that operand A gives in the instruction's space (R256, R416). -/
def State.tileAddr (s : State) (e : Issuer) (global : Bool) : Nat :=
  if global then (s.srcA e e.lead).toNat else (s.srcA e e.lead).toNat % 2 ^ 24

/-- The lines of 128 bytes of a run of 4 KiB quarters. -/
def runLines (addr n : Nat) : List Nat := (List.range (32 * n)).map (fun k => addr + 128 * k)

/-- The lines of a tile of 128 rows of 512 bytes (R261, R268). -/
def pitchLines (addr pitch : Nat) : List Nat := (List.range 512).map (fun k => addr + pitch * (k / 4) + 128 * (k % 4))

/-- An address of a line in its space. -/
def inSpace (global : Bool) (a : Nat) : Nat := if global then a % 2 ^ 64 else a % 2 ^ 24

/-- The lines of an instruction's tile once every check has passed: the state after the checks, the physical address of each global line, and the touches of
scratchpad lines. -/
structure TileOk where
  s : State
  pas : List Nat
  touches : List SpadTouch

/-- The first guard line that a tile touches: the access is then discarded whole (R114). -/
def TileOk.guard (t : TileOk) : Option Nat := (t.touches.find? (fun x => x.guard)).map (fun x => x.off)

/-- Check the lines of an instruction, with the faults of its own checks (R257, R292, R392). -/
def State.tileLines (s : State) (e : Issuer) (global write add : Bool) (extra : List Trap) (lines : List Nat) : Except Hold TileOk :=
  let xs := lines.map (fun a => (e.lead, inSpace global a))
  if global then
    match s.checkLanes e.f 128 (if write then .write else .read) (if add then .atomic false else if write then .store else .load) xs with
    | (s', ts, ps) =>
      match Trap.first (ts ++ extra) with
      | some t => .error (.trapIn s' t)
      | none => .ok { s := s', pas := ps.map Prod.snd, touches := [] }
  else
    match s.spadTouches e 128 write extra xs with
    | .error h => .error h
    | .ok (_, _, touches) => .ok { s, pas := [], touches }

/-- The touches of a tile take place where its access performs (R119, R120), and a guard touch is recorded (R114). -/
def State.touchTile (s : State) (e : Issuer) (ok : TileOk) : State :=
  match e.f with
  | .wave c _ =>
    let s := s.touchRun e e.run c e.w.group ok.touches
    match ok.guard with
    | some off => s.modGroup c e.w.group (fun q => q.noteGuard e.w.number off e.c.addr)
    | none => s
  | .steward _ _ => s

/-- The bytes of lines as the instruction reads them, with the releases that a scratchpad source carries (R133): zeros where the access touches a guard line (R114). -/
def State.readLines (s : State) (e : Issuer) (global : Bool) (lines : List Nat) (ok : TileOk) : State × List Byte :=
  if global then ok.pas.foldl (fun (a : State × List Byte) pa => let (s, bs) := a.1.loadAt e e.lead pa 128 none; (s, a.2 ++ bs)) (s, [])
  else if ok.guard.isSome then (s, List.replicate (128 * lines.length) 0)
  else
    match s.groupOf e.f with
    | none => (s, [])
    | some (_, _, q) =>
      (s.noteTags e e.lead (lines.flatMap (fun a => tagsIn q.spadTags (inSpace false a) 128)).dedup none,
        lines.flatMap (fun a => Memory.read q.spad (inSpace false a) 128))

/-! ### Claims (R253, R417) -/

/-- `mclaim` (R253, R417). -/
def execMclaim (x : XArgs) (s : State) : Out :=
  perform (.mclaim x) (matrixPlan (fun s e c =>
    let m := (s.core c).matrix
    let g := e.w.group
    let mask := (lo32 (s.srcA e e.lead)).toNat
    if mask = 0 ∨ 2 ^ 20 ≤ mask then .ok (statusPlan s e 2 id)
    else if m.releases.any (fun r => r.2.1 &&& mask != 0) then .error (.held s)
    else if (claimBits mask).any (fun b => (m.ownerOf b).any (fun h => h != g)) then .ok (statusPlan s e 1 id)
    else
      let fresh := (claimBits mask).filter (fun b => !m.holds g b)
      .ok (statusPlan s e 0 (fun t => t.modMatrix c (fun m => fresh.foldl (fun m b => m.give b (some g)) m))))) s

/-- `mrel` (R253, R417): what the group holds of the mask is released as its operations end; operations that have not started on a mismatched accumulator are discarded. -/
def execMrel (x : XArgs) (s : State) : Out :=
  perform (.mrel x) (matrixPlan (fun s e c =>
    let mask := (lo32 (s.srcA e e.lead)).toNat
    let commit (_ : LaneMask) (t : State) : State :=
      let m := (t.core c).matrix
      let mine := (claimBits mask).filter (m.holds e.w.group)
      (t.modMatrix c (fun m => { m with releases := m.releases ++ [(e.w.group, mine.foldl (fun n b => n + 2 ^ b) 0, m.fillNum)] })).settleEngine c
    .ok { commit })) s

/-! ### Filling a slot (R255, R418) -/

/-- The failure of a fill or load that meets a poisoned line: PAGE, POISON, at the first one (R291, R468). -/
def State.poisonedLine (s : State) (pas lines : List Nat) : Option Nat :=
  ((pas.zip lines).find? (fun p => s.poison.contains (lineOf p.1))).map Prod.snd

/-- A fill is accepted (R255): its bytes are those of its source now. -/
def State.acceptFill (s : State) (e : Issuer) (c slot quarter n : Nat) (global : Bool) (addr : Nat) (ok : TileOk) : State :=
  let lines := runLines addr n
  let (s, bytes) := s.readLines e global lines ok
  let m := (s.core c).matrix
  let failure := (s.poisonedLine ok.pas lines).map (fun a =>
    ({ code := 0x06, sub := 6, lane := e.lead, addr := a, bank := 0, count := 0, sitePc := e.c.addr, siteSeq := 0 } : Imprecise))
  let f : Fill := { slot, quarter, count := n, global, address := addr, pas := ok.pas, bytes, wave := (match e.f with
                      | .wave _ k => k
                      | .steward _ _ => 0), pc := e.c.addr, lane := e.lead, flag := e.p.flag,
                    after := (m.queue.filter (fun o => o.reads.contains slot)).map (fun o => o.seq), failure, seq := m.seq, num := m.fillNum }
  (s.modMatrix c (fun m => { m with fills := m.fills ++ [f], fillNum := m.fillNum + 1 })).modFlow e.f (fun w => w.raiseFlag e.p.flag)

/-- `mfill` (R255, R257, R418). -/
def execMfill (x : XArgs) (s : State) : Out :=
  perform (.mfill x) (matrixPlan (fun s e c =>
    let global := x.imm.getLsbD 0
    let slot := x.immBits 4 1
    let quarter := x.immBits 6 5
    let n := x.immBits 8 7 + 1
    let addr := s.tileAddr e global
    if addr % 128 ≠ 0 then .error (.trap { code := 0x04, addr })
    else
      let extra := if !(s.core c).matrix.holds e.w.group slot || 4 < quarter + n then [Trap.matrix 0] else []
      match s.tileLines e global false false extra (runLines addr n) with
      | .error h => .error h
      | .ok ok => .ok { st := some ok.s, commit := fun _ t => (t.touchTile e ok).acceptFill e c slot quarter n global addr ok })) s

/-! ### Accumulator operations (R259 to R261, R419 to R422) -/

/-- ACC of an instruction (R256). -/
def accOf (x : XArgs) : Nat := x.immBits 10 9

/-- How far a version lies ahead of an accumulator's (R259). -/
def Matrix.ahead (m : Matrix) (acc v : Nat) : Nat := (v + 2 ^ 32 - (m.acc acc).version % 2 ^ 32) % 2 ^ 32

/-- The accepted operations that run on an accumulator before version v, in the order in which they run: by version, and of one version the first accepted (R259, R260). -/
def Matrix.before (m : Matrix) (acc v : Nat) : List MatOp :=
  let ops := (m.queue.filter (fun o => o.acc == acc && m.ahead acc o.version < m.ahead acc v)).insertionSort (fun a b => m.ahead acc a.version ≤ m.ahead acc b.version)
  ops.foldl (fun l o => if l.any (fun p => p.version == o.version) then l else l ++ [o]) []

/-- The class of the chain on which an operation that expects version v will run (R261). -/
def Matrix.classAt (m : Matrix) (acc v : Nat) : Option Bool :=
  (m.before acc v).foldl (fun c o =>
    match o.kind with
    | .zero => none
    | .load _ _ _ int => some int
    | .mma _ _ b => some (c.getD (blockOf b).int)
    | _ => c) (m.acc acc).cls

/-- An operation is accepted (R259): the sequence number rises, and its flag is raised (R96). -/
def State.accept (s : State) (e : Issuer) (c : Nat) (kind : MatKind) (acc v : Nat) (release : Option SyncTag) : State :=
  let seq := ((s.core c).matrix.seq + 1) % 2 ^ 64
  let o : MatOp := { kind, acc, version := v, pc := e.c.addr, seq, wave := (match e.f with
                       | .wave _ k => k
                       | .steward _ _ => 0), lane := e.lead, flag := e.p.flag, running := false, data := [], release,
                      watches := match kind with
                        | .verify | .drain _ _ _ _ _ => (s.core c).watches
                        | _ => [] }
  (s.modMatrix c (fun m => { m with queue := m.queue ++ [o], seq })).modFlow e.f (fun w => w.raiseFlag e.p.flag)

/-- Operand B: the expected version. -/
def State.expected (s : State) (e : Issuer) : Nat := (lo32 (s.srcB e e.lead)).toNat

/-- An accumulator operation whose checks have passed: a full queue holds its wave (R259). -/
def acceptPlan (c : Nat) (s : State) (pl : Plan) : Except Hold Plan :=
  if 8 ≤ (s.core c).matrix.queue.length then .error (.held s) else .ok pl

/-- MATRIX_STATE for an accumulator that the group does not hold (R257). -/
def State.accTraps (s : State) (e : Issuer) (c acc : Nat) : List Trap := if (s.core c).matrix.holds e.w.group (16 + acc) then [] else [Trap.matrix acc]

/-- MATRIX_STATE for an operation that is stale, or on an accumulator that the group does not hold (R257, R259). -/
def State.opTraps? (s : State) (e : Issuer) (c acc v : Nat) : List Trap :=
  s.accTraps e c acc ++ (if staleVersion v ((s.core c).matrix.acc acc).version then [Trap.matrix acc] else [])

/-- `mzero` (R261, R419). -/
def execMzero (x : XArgs) (s : State) : Out :=
  perform (.mzero x) (matrixPlan (fun s e c =>
    let v := s.expected e
    match s.opTraps? e c (accOf x) v with
    | t :: _ => .error (.trap t)
    | [] => acceptPlan c s { commit := fun _ t => t.accept e c .zero (accOf x) v none })) s

/-- The pitch of `mload` and `mdrain` (R257). -/
def State.pitchOf (s : State) (e : Issuer) : Nat := (lo32 (s.srcC e e.lead)).toNat

/-- The alignment fault of a tile's address and pitch (R257). -/
def tileAlign (addr pitch : Nat) : Option Trap :=
  if addr % 128 ≠ 0 ∨ pitch % 128 ≠ 0 ∨ pitch < 512 ∨ 2 ^ 24 < pitch then some { code := 0x04, addr } else none

/-- `mload` (R257, R261, R419). -/
def execMload (x : XArgs) (s : State) : Out :=
  perform (.mload x) (matrixPlan (fun s e c =>
    let global := x.imm.getLsbD 0
    let addr := s.tileAddr e global
    let pitch := s.pitchOf e
    let v := s.expected e
    match tileAlign addr pitch with
    | some t => .error (.trap t)
    | none =>
      match s.tileLines e global false false (s.opTraps? e c (accOf x) v) (pitchLines addr pitch) with
      | .error h => .error h
      | .ok ok => acceptPlan c ok.s {
          st := some ok.s
          commit := fun _ t => (t.touchTile e ok).accept e c (.load global addr pitch (x.imm.getLsbD 15)) (accOf x) v none })) s

/-- The 8 bytes of a parameter block as they stand (R258, R420): the state after the checks, the bytes, the touch of a scratchpad line, and what the read itself does. -/
def State.readBlock (s : State) (e : Issuer) (global : Bool) (addr : Nat) : Except Hold (State × List Byte × TileOk × (State → State)) :=
  if addr % 8 ≠ 0 then .error (.trap { code := 0x04, addr })
  else if global then
    match s.checkGlobal e.f addr 8 .read .load e.lead with
    | (s', .error t) => .error (.trapIn s' t)
    | (s', .ok pa) =>
      match s'.devTrap e 8 false (e.lead, pa) with
      | some t => .error (.trapIn s' t)
      | none =>
        if s'.poison.contains (lineOf pa) then .error (.trapIn s' { code := 0x06, sub := 6, addr, lane := e.lead })
        else .ok (s', (s'.loadAt e e.lead pa 8 none).2, { s := s', pas := [], touches := [] }, fun t => (t.loadAt e e.lead pa 8 none).1)
  else
    match s.spadTouches e 8 false [] [(e.lead, addr)] with
    | .error h => .error h
    | .ok (c, g, touches) =>
      let ok : TileOk := { s, pas := [], touches }
      .ok (s, if ok.guard.isSome then List.replicate 8 0 else ((s.group? c g).map (fun q => Memory.read q.spad addr 8)).getD [], ok,
        fun t => t.noteTags e e.lead (if ok.guard.isSome then [] else ((s.group? c g).map (fun q => tagsIn q.spadTags addr 8)).getD []) none)

/-- What an `mma` meets once its block is read (R257, R258, R261, R418). -/
def State.blockBad (s : State) (e : Issuer) (c : Nat) (b : Block) (v : Nat) : Bool :=
  let m := (s.core c).matrix
  let filled (k : Nat) : Bool := (m.slot k).valid || m.fills.any (fun f => f.slot == k)
  b.bad || !m.holds e.w.group (16 + b.acc) || b.slots.any (fun k => !m.holds e.w.group k || !filled k) || (m.classAt b.acc v).any (fun k => k != b.int)

/-- `mma` (R258, R261, R420). -/
def execMma (x : XArgs) (s : State) : Out :=
  perform (.mma x) (matrixPlan (fun s e c =>
    let global := x.imm.getLsbD 0
    let addr := s.tileAddr e global
    match s.readBlock e global addr with
    | .error h => .error h
    | .ok (s', bs, ok, read) =>
      let b := blockOf bs
      let v := s.expected e
      if s'.blockBad e c b v || staleVersion v ((s.core c).matrix.acc b.acc).version then .error (.trapIn s' (.matrix b.acc))
      else
        acceptPlan c s' (statusPlan s' e (((s.core c).matrix.seq + 1) % 2 ^ 64 % 2 ^ 32) (fun t =>
          (read (t.touchTile e ok)).accept e c (.mma global addr bs) b.acc v none)))) s

/-- The tile checksum fault of an accumulator's last verification (R263, R267, R422). -/
def Acc.checksumTrap (a : Acc) (k : Nat) (esc : Bool) : Trap :=
  { code := 0x0E, sub := k, addr := k * 2 ^ 32 + a.version % 2 ^ 32, esc, sitePc := some a.faultPc, siteSeq := a.faultSeq }

/-- The tile checksum fault that `mverify` and `mdrain` raise again at once while MISMATCH of an accumulator of the group is set (R422). -/
def State.stillBad (s : State) (e : Issuer) (c acc : Nat) : Option Trap :=
  let m := (s.core c).matrix
  if m.holds e.w.group (16 + acc) && (m.acc acc).mismatch then some ((m.acc acc).checksumTrap acc false) else none

/-- `mverify` and `mdrain` once their own checks have passed (R259, R422): the operation is accepted and the wave is held until it ends. The watches are evaluated when
it is about to complete, because it may still fault (R300, R450). -/
def heldPlan (c acc v : Nat) (kind : MatKind) (release : Option SyncTag) (note : State → State) (s : State) (e : Issuer) : Except Hold Plan :=
  acceptPlan c s {
    st := some s
    stay := true
    pass := true
    commit := fun _ t =>
      let t := (note t).accept e c kind acc v release
      t.modFlow e.f (fun w => { w with park := some (.matrix (t.core c).matrix.seq) }) }

/-- `mverify` (R263, R421). -/
def execMverify (x : XArgs) (s : State) : Out :=
  perform (.mverify x) (matrixPlan (fun s e c =>
    if e.w.park = some .matrixDone then .ok { pass := true }
    else
      let v := s.expected e
      match (s.stillBad e c (accOf x)).or (Trap.first (s.opTraps? e c (accOf x) v)) with
      | some t => .error (.trap t)
      | none => heldPlan c (accOf x) v .verify none id s e)) s

/-- `mdrain` (R257, R268, R421). The lines of a scratchpad tile are touched as it writes them. -/
def execMdrain (x : XArgs) (s : State) : Out :=
  perform (.mdrain x) (matrixPlan (fun s e c =>
    if e.w.park = some .matrixDone then .ok { pass := true }
    else
      let global := x.imm.getLsbD 0
      let add := x.imm.getLsbD 11
      let scope := x.immBits 14 12
      let addr := s.tileAddr e global
      let pitch := s.pitchOf e
      match (s.stillBad e c (accOf x)).or (tileAlign addr pitch) with
      | some t => .error (.trap t)
      | none =>
        let lines := pitchLines addr pitch
        let v := s.expected e
        let extra := s.opTraps? e c (accOf x) v ++ (if 4 < scope || (!global && 1 < scope) then [Trap.matrix (accOf x)] else [])
        match s.tileLines e global true add extra lines with
        | .error h => .error h
        | .ok ok =>
          heldPlan c (accOf x) v (.drain global addr pitch add scope) (s.releaseOf e e.lead (some scope))
            (fun t => ok.pas.foldl (fun t pa => t.noteHost e.f pa) t) ok.s e)) s

/-! ### Reading accumulator state (R423) -/

/-- An instruction that reads accumulator state: 0 for one that the group does not hold. -/
def accRead (x : XArgs) (f : Matrix → Nat → DWord) (s : State) (e : Issuer) (c : Nat) : Except Hold Plan :=
  let m := (s.core c).matrix
  let v := if m.holds e.w.group (16 + accOf x) then f m (accOf x) else 0
  .ok (resultPlan e none false (fun _ _ => wordsOf v) (fun _ _ => {}))

/-- `mver` (R423). -/
def execMver (x : XArgs) (s : State) : Out := perform (.mver x) (matrixPlan (accRead x (fun m k => BitVec.ofNat 64 ((m.acc k).version % 2 ^ 32)))) s

/-- `mstat` (R264, R423). -/
def execMstat (x : XArgs) (s : State) : Out := perform (.mstat x) (matrixPlan (accRead x (fun m k => BitVec.ofNat 64 (m.mstat k)))) s

/-- `mloc` (R265, R423). -/
def execMloc (x : XArgs) (s : State) : Out := perform (.mloc x) (matrixPlan (accRead x (fun m k => (m.acc k).locMask (x.immBits 6 5)))) s

/-! ### Repair (R266, R267, R424) -/

/-- An operation runs on an accumulator. -/
def Matrix.runs (m : Matrix) (acc : Nat) : Bool := m.queue.any (fun o => o.acc == acc && o.running)

/-- A repair instruction: its wave is held while an operation runs on its accumulator (R424). -/
def repairPlan (x : XArgs) (k : State → Issuer → Nat → Except Hold Plan) : State → Issuer → Except Hold Plan :=
  matrixPlan (fun s e c =>
    match s.accTraps e c (accOf x) with
    | t :: _ => .error (.trap t)
    | [] => if (s.core c).matrix.runs (accOf x) then .error (.held s) else k s e c)

/-- `mfix` (R266, R424). -/
def execMfix (x : XArgs) (s : State) : Out :=
  perform (.mfix x) (repairPlan x (fun s e c =>
    let k := accOf x
    let (a, st) := ((s.core c).matrix.acc k).fix ((s.core c).tolerance ((s.core c).matrix.acc k).fmtSeen)
    .ok (statusPlan s e st (fun t => t.modMatrix c (fun m => m.setAcc k a))))) s

/-- Why the engine cannot read something again (R267, R470): a scratchpad word that is uncorrectable, or a line that cannot be read or differs. -/
inductive Unread where
  | word (k : Nat)
  | differs
  deriving DecidableEq, Repr

/-- Scratchpad bytes of a group as the engine reads them (R114, R470): zeros where the access touches a guard line, and no bytes of an uncorrectable word. -/
def Group.engineRead (q : Group) (guard : Bool) (off n : Nat) : Except Unread (List Byte) :=
  if guard then .ok (List.replicate n 0)
  else match (wordsAt off n).find? q.poison.contains with
    | some w => .error (.word w)
    | none => .ok (Memory.read q.spad off n)

/-- The engine reads lines again for a group (R267). -/
def State.rereadLines (s : State) (c g : Nat) (global : Bool) (lines : List Nat) : State × Except Unread (List Byte) :=
  if global then
    lines.foldl (fun (a : State × Except Unread (List Byte)) va =>
      match a.2 with
      | .error _ => a
      | .ok bs =>
        match a.1.engineRead (dieOf c) (s.core c).engineAsid (inSpace true va) 128 with
        | (s, .ok (b, false)) => (s, .ok (bs ++ b))
        | (s, _) => (s, .error .differs)) (s, .ok [])
  else
    match (s.core c).engineGroup g with
    | none => (s, .error .differs)
    | some q =>
      let guard := lines.any (fun o => inGuard (s.recordOf q).allocation (inSpace false o) 128)
      (s, lines.foldl (fun (a : Except Unread (List Byte)) o =>
        match a, q.engineRead guard (inSpace false o) 128 with
        | .ok bs, .ok b => .ok (bs ++ b)
        | .error x, _ | .ok _, .error x => .error x) (.ok []))

/-- The 8 bytes of a block, read again. -/
def State.rereadBlock (s : State) (c g : Nat) (global : Bool) (addr : Nat) : State × Except Unread (List Byte) :=
  if global then
    match s.engineRead (dieOf c) (s.core c).engineAsid addr 8 with
    | (s, .ok (b, false)) => (s, .ok b)
    | (s, _) => (s, .error .differs)
  else (s, match (s.core c).engineGroup g with
    | none => .error .differs
    | some q => q.engineRead (inGuard (s.recordOf q).allocation addr 8) addr 8)

/-- The bytes of a slot whose tag has changed, read again from its recorded sources (R267). -/
def State.rereadSlot (s : State) (c g : Nat) (source : Tab (Bool × Nat)) (tag : Nat) : State × Except Unread (Tab Byte) :=
  let (s, bs) := (List.range 4).foldl (fun (a : State × Except Unread (List Byte)) q =>
    match a.2, source.get q with
    | .ok bs, some (global, addr) =>
      match a.1.rereadLines c g global (runLines addr 1) with
      | (s, .ok b) => (s, .ok (bs ++ b))
      | (s, .error x) => (s, .error x)
    | .ok _, none => (a.1, .error .differs)
    | .error x, _ => (a.1, .error x)) (s, .ok [])
  (s, match bs with
    | .ok bs => if crc32c bs = tag then .ok (Memory.write [] 0 bs) else .error .differs
    | .error x => .error x)

/-- One entry of a replay list runs again (R267). -/
def State.replayEntry (s : State) (c g : Nat) (a : Acc) (r : Replay) : State × Except Unread Acc :=
  let m := (s.core c).engine
  match s.rereadBlock c g r.global r.address with
  | (s, .error x) => (s, .error x)
  | (s, .ok bs) =>
    if crc32c bs ≠ r.crc then (s, .error .differs)
    else
      let b := blockOf bs
      let (s, got) := r.slots.foldl (fun (acc : State × Except Unread (Tab (Tab Byte))) x =>
        let (k, source, tag, valid) := x
        match acc.2 with
        | .error _ => acc
        | .ok t =>
          let now := m.slot k
          if now.tag = tag ∧ now.valid = valid then (acc.1, .ok (t.set k now.bytes))
          else match acc.1.rereadSlot c g source tag with
            | (s, .ok bytes) => (s, .ok (t.set k bytes))
            | (s, .error x) => (s, .error x)) (s, .ok [])
      let bad := r.slots.any (fun x => (m.slot x.1).tag == x.2.2.1 && (m.slot x.1).badParity != [])
      (s, got.map (fun t =>
        let a' := a.mma b { a := t.getD b.slotA [], b := t.getD b.slotB [], s := t.getD b.slotS [] }
        { a' with forced := a.forced || bad }))

/-- The accumulator rebuilt from its chain's base (R267). -/
def State.rebuild (s : State) (c g : Nat) (a : Acc) : State × Except Unread Acc :=
  let a := { a with forced := false }
  if a.noReplay then (s, .error .differs)
  else
    let (s, start) : State × Except Unread Acc := match a.base with
      | .zero => (s, .ok a.zeroed)
      | .load global addr pitch tag =>
        match s.rereadLines c g global (pitchLines addr pitch) with
        | (s, .ok bs) => (s, if crc32c bs = tag then .ok (a.loaded (a.cls == some true) bs) else .error .differs)
        | (s, .error x) => (s, .error x)
    a.replay.foldl (fun (acc : State × Except Unread Acc) r =>
      match acc.2 with
      | .error _ => acc
      | .ok b => acc.1.replayEntry c g b r) (s, start)

/-- The fault of an `mretry` that cannot rebuild its accumulator: MEMORY_ERROR at an uncorrectable word (R470), or the tile checksum fault with ESC (R267). -/
def Acc.retryTrap (a : Acc) (k : Nat) (x : Unread) : Trap :=
  match x with
  | .word w => .memory 2 w 0
  | .differs => a.checksumTrap k true

/-- `mretry` (R267, R424). -/
def execMretry (x : XArgs) (s : State) : Out :=
  perform (.mretry x) (repairPlan x (fun s e c =>
    let k := accOf x
    let a := (s.core c).matrix.acc k
    if !a.mismatch then .ok (statusPlan s e 3 id)
    else
      match s.rebuild c e.w.group a with
      | (s', .error x) => .error (.trapIn s' (a.retryTrap k x))
      | (s', .ok b) =>
        let b := b.verified ((s.core c).tolerance a.fmtSeen)
        if b.mismatch then .error (.trapIn s' (a.checksumTrap k true))
        else .ok (statusPlan s' e 0 (fun t => t.modMatrix c (fun m => m.setAcc k { b with retries := min 255 (a.retries + 1) }))))) s

end Sys2Proof.Machine
end

