-- ==== Sys2Proof/Machine/Integer.lean ====
section
/-! DEFINITION. The integer and bit instructions (R307 to R337 of spec/19_ref_integer.md). -/

namespace Sys2Proof.Machine

/-- W: the operation width (R311). -/
def opWidth (w64 : Bool) : Nat := if w64 then 64 else 32

/-- U(v): the low W bits as an unsigned integer (R311). -/
def uOf (w : Nat) (v : DWord) : Nat := v.toNat % 2 ^ w

/-- S(v): the low W bits as a two's complement integer (R311). -/
def sOf (w : Nat) (v : DWord) : Int := if 2 ^ (w - 1) ≤ uOf w v then (uOf w v : Int) - (2 ^ w : Nat) else uOf w v

/-- N(v): S(v) under `.i`, U(v) under `.n` (R311). -/
def nOf (sgn : Bool) (w : Nat) (v : DWord) : Int := if sgn then sOf w v else uOf w v

/-- Clamp(v) (R311). -/
def clamp (sgn : Bool) (w : Nat) (v : Int) : Int :=
  if sgn then max (-(2 ^ (w - 1) : Nat)) (min ((2 ^ (w - 1) : Nat) - 1) v) else max 0 (min ((2 ^ w : Nat) - 1) v)

/-- A result modulo 2^64; a 32-bit destination takes its low half (R311). -/
def put (v : Int) : DWord := BitVec.ofInt 64 v

/-! ### Arithmetic -/

/-- `iadd` and `isub` (R322). -/
def addSub (sub sat sgn : Bool) (w : Nat) (a b : DWord) : DWord :=
  let x : Int := if sat then nOf sgn w a else uOf w a
  let y : Int := if sat then nOf sgn w b else uOf w b
  let v := if sub then x - y else x + y
  put (if sat then clamp sgn w v else v)

/-- `imul` and `imad` (R323). -/
def mulAdd (wide sgn : Bool) (w : Nat) (a b c : DWord) : DWord :=
  let p : Int := if wide then nOf sgn 32 a * nOf sgn 32 b else (uOf w a * uOf w b : Nat)
  put (p + (if wide then uOf 64 c else uOf w c : Nat))

/-- `imulh` (R324). -/
def mulHigh (sgn : Bool) (w : Nat) (a b : DWord) : DWord := put (nOf sgn w a * nOf sgn w b / (2 ^ w : Nat))

/-- `imin` and `imax` (R325). -/
def minMax (isMax sgn : Bool) (w : Nat) (a b : DWord) : DWord :=
  if isMax then (if nOf sgn w a < nOf sgn w b then b else a) else (if nOf sgn w b < nOf sgn w a then b else a)

/-- `iabs` and `ineg` (R326). -/
def absNeg (neg sat : Bool) (w : Nat) (a : DWord) : DWord :=
  let v := if neg then -(sOf w a) else ((sOf w a).natAbs : Int)
  put (if sat then min v ((2 ^ (w - 1) : Nat) - 1) else v)

/-- The conditions of `icmp` (R327). -/
def intCond (cond : Nat) (sgn : Bool) (w : Nat) (a b : DWord) : Bool :=
  let x := nOf sgn w a
  let y := nOf sgn w b
  match cond with
  | 0 => uOf w a == uOf w b
  | 1 => uOf w a != uOf w b
  | 2 => x < y
  | 3 => x ≤ y
  | 4 => y < x
  | _ => y ≤ x

/-- `lea` (R329): the index stays 32 bits. -/
def leaOf (w64 sgn : Bool) (sh : Nat) (a b : DWord) : DWord :=
  let i : Int := if w64 then nOf sgn 32 b else uOf 32 b
  put ((uOf (opWidth w64) a : Int) + i * (2 ^ sh : Nat))

/-! ### Logic, shifts and bit fields -/

/-- The shifts (R332): 0 `shl`, 1 `shr`, 2 `sar`; the count is not reduced. -/
def shiftOf (kind w : Nat) (a b : DWord) : DWord :=
  let n := uOf 32 b
  match kind with
  | 0 => if w ≤ n then 0 else put (uOf w a * 2 ^ n : Nat)
  | 1 => if w ≤ n then 0 else put (uOf w a / 2 ^ n : Nat)
  | _ => put (sOf w a / (2 ^ min n w : Nat))

/-- The funnel shifts (R333). -/
def funnel (right : Bool) (w : Nat) (a b c : DWord) : DWord :=
  let t := uOf w a * 2 ^ w + uOf w b
  let n := uOf 32 c % w
  put ((if right then t / 2 ^ n else t * 2 ^ n / 2 ^ w) % 2 ^ w : Nat)

/-- `bfx` (R334). -/
def bitExtract (sgn : Bool) (len w : Nat) (a b : DWord) : DWord :=
  let f := if w ≤ uOf 32 b then 0 else uOf w a / 2 ^ uOf 32 b % 2 ^ len
  put (if sgn ∧ bit f (len - 1) then (f : Int) - (2 ^ len : Nat) else f)

/-- `bfi` (R335). -/
def bitInsert (len w : Nat) (a b c : DWord) : DWord :=
  let p := uOf 32 c
  if w ≤ p then a
  else
    let m : DWord := BitVec.ofNat 64 ((2 ^ len - 1) * 2 ^ p % 2 ^ w)
    (a &&& ~~~m) ||| (BitVec.ofNat 64 (uOf w b * 2 ^ p) &&& m)

/-- The number of bits of a W-bit value that are 1 (R336). -/
def popOf (w : Nat) (a : DWord) : Nat := ((List.range w).filter (fun k => a.getLsbD k)).length

/-- The number of 0 bits above the highest 1 bit (R336). -/
def clzOf (w : Nat) (a : DWord) : Nat := ((List.range w).takeWhile (fun k => !a.getLsbD (w - 1 - k))).length

/-- The number of 0 bits below the lowest 1 bit (R336). -/
def ctzOf (w : Nat) (a : DWord) : Nat := ((List.range w).takeWhile (fun k => !a.getLsbD k)).length

/-- Bit reversal of a W-bit value (R336). -/
def brevOf (w : Nat) (a : DWord) : DWord :=
  BitVec.ofNat 64 ((List.range w).foldl (fun n k => 2 * n + b2n (a.getLsbD k)) 0)

/-! ### Meanings -/

/-- `iadd`, B-form (R322). -/
def execIadd (o : BArgs) (s : State) : Out :=
  perform (.iadd o) (intPlan 0 (fun v => addSub false false false 32 v.a v.b)) s

/-- `isub`, B-form (R322). -/
def execIsub (o : BArgs) (s : State) : Out :=
  perform (.isub o) (intPlan 0 (fun v => addSub true false false 32 v.a v.b)) s

/-- `and`, B-form (R331). -/
def execAnd (o : BArgs) (s : State) : Out :=
  perform (.and o) (intPlan 2 (fun v => v.a &&& v.b)) s

/-- `or`, B-form (R331). -/
def execOr (o : BArgs) (s : State) : Out :=
  perform (.or o) (intPlan 2 (fun v => v.a ||| v.b)) s

/-- `xor`, B-form (R331). -/
def execXor (o : BArgs) (s : State) : Out :=
  perform (.xor o) (intPlan 2 (fun v => v.a ^^^ v.b)) s

/-- `shl`, B-form (R332). -/
def execShl (o : BArgs) (s : State) : Out :=
  perform (.shl o) (intPlan 2 (fun v => shiftOf 0 32 v.a v.b)) s

/-- `shr`, B-form (R332). -/
def execShr (o : BArgs) (s : State) : Out :=
  perform (.shr o) (intPlan 2 (fun v => shiftOf 1 32 v.a v.b)) s

/-- `mov`, B-form (R330). -/
def execMov (o : UArgs) (s : State) : Out :=
  perform (.mov o) (intPlan 2 (fun v => v.a)) s

/-- `not`, B-form (R331). -/
def execNot (o : UArgs) (s : State) : Out :=
  perform (.not o) (intPlan 2 (fun v => ~~~v.a)) s

/-- `ineg`, B-form (R326). -/
def execIneg (o : UArgs) (s : State) : Out :=
  perform (.ineg o) (intPlan 0 (fun v => absNeg true false 32 v.a)) s

/-- `iabs`, B-form (R326). -/
def execIabs (o : UArgs) (s : State) : Out :=
  perform (.iabs o) (intPlan 0 (fun v => absNeg false false 32 v.a)) s

/-- `popc`, B-form (R336). -/
def execPopc (o : UArgs) (s : State) : Out :=
  perform (.popc o) (intPlan 2 (fun v => BitVec.ofNat 64 (popOf 32 v.a))) s

/-- `clz`, B-form (R336). -/
def execClz (o : UArgs) (s : State) : Out :=
  perform (.clz o) (intPlan 2 (fun v => BitVec.ofNat 64 (clzOf 32 v.a))) s

/-- `ctz`, B-form (R336). -/
def execCtz (o : UArgs) (s : State) : Out :=
  perform (.ctz o) (intPlan 2 (fun v => BitVec.ofNat 64 (ctzOf 32 v.a))) s

/-- `brev`, B-form (R336). -/
def execBrev (o : UArgs) (s : State) : Out :=
  perform (.brev o) (intPlan 2 (fun v => brevOf 32 v.a)) s

/-- `iadd`, X-form (R322). -/
def execIaddX (x : XArgs) (s : State) : Out :=
  perform (.iaddX x) (intPlan 0 (fun v => addSub false x.sat x.sgn (opWidth x.w64) v.a v.b)) s

/-- `isub`, X-form (R322). -/
def execIsubX (x : XArgs) (s : State) : Out :=
  perform (.isubX x) (intPlan 0 (fun v => addSub true x.sat x.sgn (opWidth x.w64) v.a v.b)) s

/-- `imul`, X-form (R323). -/
def execImul (x : XArgs) (s : State) : Out :=
  perform (.imul x) (intPlan 1 (fun v => mulAdd (wide x) x.sgn (opWidth x.w64) v.a v.b 0)) s

/-- `imulh`, X-form (R324). -/
def execImulh (x : XArgs) (s : State) : Out :=
  perform (.imulh x) (intPlan 1 (fun v => mulHigh x.sgn (opWidth x.w64) v.a v.b)) s

/-- `imad`, X-form (R323). -/
def execImad (x : XArgs) (s : State) : Out :=
  perform (.imad x) (intPlan 1 (fun v => mulAdd (wide x) x.sgn (opWidth x.w64) v.a v.b v.c)) s

/-- `imin`, X-form (R325). -/
def execImin (x : XArgs) (s : State) : Out :=
  perform (.imin x) (intPlan 0 (fun v => minMax false x.sgn (opWidth x.w64) v.a v.b)) s

/-- `imax`, X-form (R325). -/
def execImax (x : XArgs) (s : State) : Out :=
  perform (.imax x) (intPlan 0 (fun v => minMax true x.sgn (opWidth x.w64) v.a v.b)) s

/-- `iabs`, X-form (R326). -/
def execIabsX (x : XArgs) (s : State) : Out :=
  perform (.iabsX x) (intPlan 0 (fun v => absNeg false x.sat (opWidth x.w64) v.a)) s

/-- `ineg`, X-form (R326). -/
def execInegX (x : XArgs) (s : State) : Out :=
  perform (.inegX x) (intPlan 0 (fun v => absNeg true x.sat (opWidth x.w64) v.a)) s

/-- `icmp`, X-form (R327). -/
def execIcmp (x : XArgs) (s : State) : Out :=
  perform (.icmp x) (intPlan 0 (fun v => BitVec.ofNat 64 (b2n (intCond (x.immBits 2 0) x.sgn (opWidth x.w64) v.a v.b)))) s

/-- `isel`, X-form (R328). -/
def execIsel (x : XArgs) (s : State) : Out :=
  perform (.isel x) (intPlan 2 (fun v => if uOf 32 v.c ≠ 0 then v.a else v.b)) s

/-- `bsel`, X-form (R328). -/
def execBsel (x : XArgs) (s : State) : Out :=
  perform (.bsel x) (intPlan 2 (fun v => (v.a &&& v.c) ||| (v.b &&& ~~~v.c))) s

/-- `lea`, X-form (R329). -/
def execLea (x : XArgs) (s : State) : Out :=
  perform (.lea x) (intPlan 0 (fun v => leaOf x.w64 x.sgn (x.immBits 5 0) v.a v.b)) s

/-- `mov`, X-form (R330). -/
def execMovX (x : XArgs) (s : State) : Out :=
  perform (.movX x) (intPlan 2 (fun v => v.a)) s

/-- `and`, X-form (R331). -/
def execAndX (x : XArgs) (s : State) : Out :=
  perform (.andX x) (intPlan 2 (fun v => v.a &&& v.b)) s

/-- `or`, X-form (R331). -/
def execOrX (x : XArgs) (s : State) : Out :=
  perform (.orX x) (intPlan 2 (fun v => v.a ||| v.b)) s

/-- `xor`, X-form (R331). -/
def execXorX (x : XArgs) (s : State) : Out :=
  perform (.xorX x) (intPlan 2 (fun v => v.a ^^^ v.b)) s

/-- `andn`, X-form (R331). -/
def execAndn (x : XArgs) (s : State) : Out :=
  perform (.andn x) (intPlan 2 (fun v => v.a &&& ~~~v.b)) s

/-- `not`, X-form (R331). -/
def execNotX (x : XArgs) (s : State) : Out :=
  perform (.notX x) (intPlan 2 (fun v => ~~~v.a)) s

/-- `shl`, X-form (R332). -/
def execShlX (x : XArgs) (s : State) : Out :=
  perform (.shlX x) (intPlan 2 (fun v => shiftOf 0 (opWidth x.w64) v.a v.b)) s

/-- `shr`, X-form (R332). -/
def execShrX (x : XArgs) (s : State) : Out :=
  perform (.shrX x) (intPlan 2 (fun v => shiftOf 1 (opWidth x.w64) v.a v.b)) s

/-- `sar`, X-form (R332). -/
def execSar (x : XArgs) (s : State) : Out :=
  perform (.sar x) (intPlan 2 (fun v => shiftOf 2 (opWidth x.w64) v.a v.b)) s

/-- `fshl`, X-form (R333). -/
def execFshl (x : XArgs) (s : State) : Out :=
  perform (.fshl x) (intPlan 2 (fun v => funnel false (opWidth x.w64) v.a v.b v.c)) s

/-- `fshr`, X-form (R333). -/
def execFshr (x : XArgs) (s : State) : Out :=
  perform (.fshr x) (intPlan 2 (fun v => funnel true (opWidth x.w64) v.a v.b v.c)) s

/-- `bfx`, X-form (R334). -/
def execBfx (x : XArgs) (s : State) : Out :=
  perform (.bfx x) (intPlan 2 (fun v => bitExtract x.sgn (x.immBits 6 0) (opWidth x.w64) v.a v.b)) s

/-- `bfi`, X-form (R335). -/
def execBfi (x : XArgs) (s : State) : Out :=
  perform (.bfi x) (intPlan 2 (fun v => bitInsert (x.immBits 6 0) (opWidth x.w64) v.a v.b v.c)) s

/-- `popc`, X-form (R336). -/
def execPopcX (x : XArgs) (s : State) : Out :=
  perform (.popcX x) (intPlan 2 (fun v => BitVec.ofNat 64 (popOf (opWidth x.w64) v.a))) s

/-- `clz`, X-form (R336). -/
def execClzX (x : XArgs) (s : State) : Out :=
  perform (.clzX x) (intPlan 2 (fun v => BitVec.ofNat 64 (clzOf (opWidth x.w64) v.a))) s

/-- `ctz`, X-form (R336). -/
def execCtzX (x : XArgs) (s : State) : Out :=
  perform (.ctzX x) (intPlan 2 (fun v => BitVec.ofNat 64 (ctzOf (opWidth x.w64) v.a))) s

/-- `brev`, X-form (R336). -/
def execBrevX (x : XArgs) (s : State) : Out :=
  perform (.brevX x) (intPlan 2 (fun v => brevOf (opWidth x.w64) v.a)) s

end Sys2Proof.Machine
end

