-- ==== Sys2Proof/Machine/Memory.lean ====
section
/-! DEFINITION. Loads, stores, atomics, reservations and fences (R385 to R405 of spec/22_ref_memory.md, R75 of spec/04_numbers_and_arithmetic.md). -/

namespace Sys2Proof.Machine

/-! ### Loads and stores (R394 to R396) -/

/-- `ld` (R394). -/
def execLd (w : MemWidth) (x : XArgs) (s : State) : Out :=
  perform (.ld w x) (fun s e =>
    let va := s.loadAddr e
    match s.resolve e w.bytes .read .load va with
    | (s', .error t) => .error (.trapIn s' t)
    | (s', .ok ps) =>
      let access (run : LaneMask) (t : State) : Given :=
        let (t', vals) := t.loadLanes e run ps w.bytes x.sgn (ordAcquire x)
        { s := t', vals, failure := t.poisonOf e (ps.filter (fun p => e.commits run p.1)) va,
          reads := (ps.filter (fun p => e.commits run p.1)).map (fun p => (p.1, va p.1, p.2)) }
      .ok (laterPlan s' e { addr := fun l => some (va l) } access)) s

/-- `st` (R394). -/
def execSt (w : MemWidth) (x : XArgs) (s : State) : Out :=
  perform (.st w x) (fun s e =>
    let va := s.loadAddr e
    match s.resolve e w.bytes .write .store va with
    | (s', .error t) => .error (.trapIn s' t)
    | (s', .ok ps) =>
      let bytes (l : Nat) : List Byte := s.storeBytes e w.bytes l
      let commit (run : LaneMask) (t : State) : State :=
        ps.foldl (fun t p => if e.commits run p.1 then t.storeAt e p.1 p.2 (bytes p.1) (ordRelease x) else t) t
      .ok { st := some s', probe := { addr := fun l => some (va l), stored := fun l => probeWords (bytes l) }, commit }) s

/-- `lds` (R396). -/
def execLds (w : MemWidth) (x : XArgs) (s : State) : Out :=
  perform (.lds w x) (fun s e =>
    let off := s.spadOffset e
    match s.spadResolve e w.bytes false [] off with
    | .error h => .error h
    | .ok (c, g, lanes) =>
      let access (run : LaneMask) (t : State) : Given :=
        lanes.foldl (fun (a : Given) p =>
          if e.commits run p.lane then
            let q := a.s.group? c g
            let bs := if p.guard then List.replicate w.bytes 0 else (q.map (fun q => Memory.read q.spad p.off w.bytes)).getD []
            let s := if p.guard then a.s.modGroup c g (fun q => q.noteGuard e.w.number p.off e.c.addr)
              else a.s.noteTags e p.lane ((q.map (fun q => tagsIn q.spadTags p.off w.bytes)).getD []) none
            { a with s, vals := a.vals.set p.lane (loadWords x.sgn bs) }
          else a) { s := t.touchRun e run c g lanes }
      .ok (laterPlan s e {} access)) s

/-- The stores of the lanes of `sts` up to the first that does not fit (R129): the group, and that lane. Each carries the release of its lane (R133, R140). -/
def spadStores (r : Record) (off : Nat → Nat) (bytes : Nat → List Byte) (tag : Nat → Option SyncTag) (wave pc : Nat) : List (Nat × Bool) → Group → Group × Option Nat
  | [], q => (q, none)
  | (l, guard) :: rest, q =>
    if guard then spadStores r off bytes tag wave pc rest (q.noteGuard wave (off l) pc)
    else match q.store r (off l) (bytes l) with
      | some q' => spadStores r off bytes tag wave pc rest (q'.tagSpad (off l) (bytes l).length (tag l))
      | none => (q, some l)

/-- The window-budget fault of an `sts` (R129, R292): of the first lane, among those that touch lines of the allocation that are there, whose store does not fit. -/
def State.budgetTrap (s : State) (e : Issuer) (n : Nat) (off : Nat → Nat) (bytes : Nat → List Byte) : Option Trap :=
  match s.groupOf e.f with
  | none => none
  | some (_, _, q) =>
    let r := s.recordOf q
    let there (l : Nat) : Bool := match s.touchOf q (off l) l with
      | .stage win st => !s.linePending q (off l) (some (win, st))
      | _ => true
    let inside := e.accessLanes.filter (fun l => off l % n == 0 && !inGuard r.allocation (off l) n && decide (off l + n ≤ r.allocation) && there l)
    (spadStores r off bytes (fun _ => none) e.w.number e.c.addr (inside.map (fun l => (l, false))) q).2.map (fun l =>
      { code := 0x0B, sub := ((r.windowAt (off l)).map Prod.fst).getD 0, addr := off l, lane := l })

/-- `sts` (R396). -/
def execSts (w : MemWidth) (x : XArgs) (s : State) : Out :=
  perform (.sts w x) (fun s e =>
    let off := s.spadOffset e
    let bytes (l : Nat) : List Byte := s.storeBytes e w.bytes l
    match s.spadResolve e w.bytes true (s.budgetTrap e w.bytes off bytes).toList off with
    | .error h => .error h
    | .ok (c, g, lanes) =>
      let commit (run : LaneMask) (t : State) : State :=
        let t := t.touchRun e run c g lanes
        t.modGroup c g (fun q => (spadStores (t.recordOf q) off bytes (fun l => t.releaseOf e l none) e.w.number e.c.addr
          ((lanes.filter (fun p => e.commits run p.lane)).map (fun p => (p.lane, p.guard))) q).1)
          |>.spadWritten c g ((lanes.filter (fun p => e.commits run p.lane && !p.guard)).flatMap (fun p => wordsAt p.off w.bytes)) (e.c.addr, 0)
      .ok { probe := { stored := fun l => probeWords (bytes l) }, commit }) s

/-! ### Atomics (R75, R397 to R400) -/

/-- What an atomic makes of the old value: the new value where it writes, and its exceptions. -/
structure AtomicResult where
  new : Option Nat
  exc : Exc := {}

/-- An atomic instruction (R397): its operation on old, B and C of a width, and whether host memory takes it (R400). -/
def atomicPlan (host : Bool) (op : (w : Nat) → Nat → Nat → Nat → AtomicResult) (x : XArgs) (s : State) (e : Issuer) : Except Hold Plan :=
  let w := opWidth x.w64
  let va (l : Nat) : Nat := (s.srcA e l).toNat
  match s.resolve e (w / 8) .write (.atomic host) va with
  | (s', .error t) => .error (.trapIn s' t)
  | (s', .ok ps) =>
    let one (t : State) (p : Nat × Nat) : State × Nat :=
      let (t, bs) := t.loadAt e p.1 p.2 (w / 8) (ordAcquire x)
      let old := natOfBytes bs
      let r := op w old (uOf w (s.srcB e p.1)) (uOf w (s.srcC e p.1))
      if t.ownedBytes p.2 (w / 8) then (t.logOwned e p.2, old)
      else
        let t := match r.new with
          | some v => t.poke p.2 (bytesOfNat (w / 8) v) true (t.releaseOf e p.1 (ordRelease x))
          | none => t
        ((t.noteHost e.f p.2).raiseExc e.f r.exc, old)
    let access (run : LaneMask) (t : State) : Given :=
      match t.poisonOf e (ps.filter (fun p => e.commits run p.1)) va with
      | some f => { s := t, failure := some f }
      | none => ps.foldl (fun (a : Given) p =>
          if e.commits run p.1 then
            let (t, old) := one a.s p
            { a with s := t, vals := a.vals.set p.1 (wordsOfNat 2 old) }
          else a) { s := t }
    .ok (requestPlan s' e { addr := fun l => some (va l) } ps va access)

/-- An atomic that always writes and raises nothing. -/
def plainAtomic (f : Nat → Nat → Nat → Nat) (w old b _ : Nat) : AtomicResult := { new := some (f w old b) }

/-- `amin` and `amax` (R397): old where the values are equal. -/
def atomicMinMax (isMax sgn : Bool) (w old b _ : Nat) : AtomicResult :=
  let x := nOf sgn w (BitVec.ofNat 64 old)
  let y := nOf sgn w (BitVec.ofNat 64 b)
  { new := some (if isMax then (if x < y then b else old) else (if y < x then b else old)) }

/-- The format of a floating-point atomic (R398). -/
def atomicFmt (w : Nat) : Fmt := if w = 64 then fp64 else fp32

/-- `afadd` (R399). -/
def atomicFadd (w old b _ : Nat) : AtomicResult :=
  let f := atomicFmt w
  let (v, x) := f.round .rne false (sumExact .rne [f.value old, f.value b])
  { new := some v, exc := x }

/-- `afmin` and `afmax` (R75). -/
def atomicFminMax (isMax : Bool) (w old b _ : Nat) : AtomicResult :=
  let f := atomicFmt w
  let x : Exc := { inv := f.signalling old || f.signalling b }
  let no := f.value old == .nan
  let nb := f.value b == .nan
  let v := if no && nb then f.nan else if no then b else if nb then old
    else if isMax then (if lessZero (f.value old) (f.value b) then b else old) else (if lessZero (f.value b) (f.value old) then b else old)
  { new := some v, exc := x }

/-- `aadd` (R397). -/
def execAadd (x : XArgs) (s : State) : Out := perform (.aadd x) (atomicPlan true (plainAtomic (fun w a b => (a + b) % 2 ^ w)) x) s
/-- `amin` (R397). -/
def execAmin (x : XArgs) (s : State) : Out := perform (.amin x) (atomicPlan false (atomicMinMax false x.sgn) x) s
/-- `amax` (R397). -/
def execAmax (x : XArgs) (s : State) : Out := perform (.amax x) (atomicPlan false (atomicMinMax true x.sgn) x) s
/-- `aand` (R397). -/
def execAand (x : XArgs) (s : State) : Out := perform (.aand x) (atomicPlan false (plainAtomic (fun _ a b => a &&& b)) x) s
/-- `aor` (R397). -/
def execAor (x : XArgs) (s : State) : Out := perform (.aor x) (atomicPlan false (plainAtomic (fun _ a b => a ||| b)) x) s
/-- `axor` (R397). -/
def execAxor (x : XArgs) (s : State) : Out := perform (.axor x) (atomicPlan false (plainAtomic (fun _ a b => a ^^^ b)) x) s
/-- `axchg` (R397). -/
def execAxchg (x : XArgs) (s : State) : Out := perform (.axchg x) (atomicPlan true (plainAtomic (fun _ _ b => b)) x) s
/-- `acas` (R397). -/
def execAcas (x : XArgs) (s : State) : Out :=
  perform (.acas x) (atomicPlan true (fun _ old b c => { new := if old = b then some c else none }) x) s
/-- `afadd` (R399). -/
def execAfadd (x : XArgs) (s : State) : Out := perform (.afadd x) (atomicPlan false atomicFadd x) s
/-- `afmin` (R75). -/
def execAfmin (x : XArgs) (s : State) : Out := perform (.afmin x) (atomicPlan false (atomicFminMax false) x) s
/-- `afmax` (R75). -/
def execAfmax (x : XArgs) (s : State) : Out := perform (.afmax x) (atomicPlan false (atomicFminMax true) x) s

/-! ### Reservations (R401 to R404) -/

/-- Register a reservation: it replaces the thread's earlier one, and a home slice that holds 8,192 drops its oldest (R401, R402). -/
def State.reserve (s : State) (r : Reservation) : State :=
  let l := s.reservations.filter (fun x => !(x.flow == r.flow && x.lane == r.lane))
  let mine := l.filter (fun x => sliceOf x.pa == sliceOf r.pa)
  let l := match mine.head? with
    | some old => if 8192 ≤ mine.length then l.erase old else l
    | none => l
  { s with reservations := l ++ [r] }

/-- The thread's reservation is cleared. -/
def State.clearReservation (s : State) (f : Flow) (l : Nat) : State :=
  { s with reservations := s.reservations.filter (fun x => !(x.flow == f && x.lane == l)) }

/-- The translation through which a flow reaches a virtual address, as its TLBs hold it (R227, R402). -/
def State.viaOf (s : State) (f : Flow) (va : Nat) : Translation :=
  let asid := s.asidOf f
  let covers (t : Translation) : Bool := t.asid == asid && t.va ≤ va && va < t.va + t.size
  let l1 := match f with
    | .wave c _ => (s.core c).l1
    | .steward _ _ => []
  ((l1 ++ (s.die (flowDie f)).tlb).find? covers).getD { asid, va, size := 1, pa := 0, pte := 0 }

/-- `lr` (R401). -/
def execLr (x : XArgs) (s : State) : Out :=
  perform (.lr x) (fun s e =>
    let n := opWidth x.w64 / 8
    let va (l : Nat) : Nat := (s.srcA e l).toNat
    match s.resolve e n .read .reserve va with
    | (s', .error t) => .error (.trapIn s' t)
    | (s', .ok ps) =>
      let access (run : LaneMask) (t : State) : Given :=
        let mine := ps.filter (fun p => e.commits run p.1)
        let (t', vals) := t.loadLanes e run ps n false (ordAcquire x)
        let fail := t.poisonOf e mine va
        let t' := if fail.isSome then mine.foldl (fun t p => t.clearReservation e.f p.1) t' else mine.foldl (fun t p => t.reserve { flow := e.f, lane := p.1, pa := p.2, bytes := n, via := t.viaOf e.f (va p.1) }) t'
        { s := t', vals, failure := fail, reads := (ps.filter (fun p => e.commits run p.1)).map (fun p => (p.1, va p.1, p.2)) }
      .ok (laterPlan s' e { addr := fun l => some (va l) } access)) s

/-- `sc` for one lane (R403): the state and the status. One that writes sets D on its page (R224). -/
def State.scLane (s : State) (e : Issuer) (l va pa n v : Nat) (release : Option Nat) : State × Nat :=
  if s.reservations.any (fun r => r.flow == e.f && r.lane == l && r.pa == pa && r.bytes == n) && !s.ownedBytes pa n then
    let s := (s.translate e.f (s.asidOf e.f) va .write).1
    ((s.poke pa (bytesOfNat n v) true (s.releaseOf e l release)).clearReservation e.f l, 0)
  else ((if s.ownedBytes pa n then s.logOwned e pa else s).clearReservation e.f l, 1)

/-- `sc` (R403). -/
def execSc (x : XArgs) (s : State) : Out :=
  perform (.sc x) (fun s e =>
    let n := opWidth x.w64 / 8
    let va (l : Nat) : Nat := (s.srcA e l).toNat
    match s.resolve e n .maybe .reserve va with
    | (s', .error t) => .error (.trapIn s' t)
    | (s', .ok ps) =>
      let access (run : LaneMask) (t : State) : Given :=
        ps.foldl (fun (a : Given) p =>
          if e.commits run p.1 then
            let (t, st) := a.s.scLane e p.1 (va p.1) p.2 n (uOf (8 * n) (s.srcB e p.1)) (ordRelease x)
            { a with s := t, vals := a.vals.set p.1 [BitVec.ofNat 32 st] }
          else a) { s := t }
      .ok (requestPlan s' e { addr := fun l => some (va l) } ps va access)) s

/-! ### Fences (R405) -/

/-- A read of the threads of a run has not returned: a load, an atomic, an `lr` or an `sc` (R140, R405). -/
def Wave.readsOut (w : Wave) (run : LaneMask) : Bool :=
  w.outstanding.any (fun o => (o.major == 0x18 || o.major == 0x1A || o.major == 0x1B) && o.run &&& run != 0)

/-- `fence` (R405): it waits, and holds its wave meanwhile, until the reads that an acquire orders have returned, and so completes when its wait has ended (R393). Writes
perform at their issue, so a release has none to wait for (log 4). -/
def execFence (x : XArgs) (s : State) : Out :=
  perform (.fence x) (fun s e =>
    if (ordAcquire x).isSome && e.w.readsOut e.run && s.dstep.isNone then .error (.held s)
    else .ok { commit := fun run s => s.fenceRun e.f run (ordRelease x) (ordAcquire x) }) s

end Sys2Proof.Machine
end

