-- ==== Sys2Proof/Machine/Sched.lean ====
section
/-! DEFINITION. What a core's schedulers and units do for waves on their own: the choice of the wave that issues, the sets and their swaps, returned data and octets, wakes, and
the failures of window stages (R40, R123, R205 to R207, R216, R217, R393). -/

namespace Sys2Proof.Machine

/-! ### Whether a wave is ready (R97, R205, R383) -/

/-- The words of a clause from the next instruction on (R76). -/
def Clause.rest (c : Clause) : List Word := c.words.drop (c.pos - 1)

/-- The next instruction of a clause in progress. -/
def Clause.next (c : Clause) : Except DecodeError Instr := (decodeWords c.rest).map Prod.fst

/-- The next instruction of a clause is its last. -/
def Clause.atLast (c : Clause) : Bool :=
  match decodeWords c.rest with
  | .ok (_, rest) => rest.isEmpty
  | .error _ => true

/-- A matrix instruction that may wait for the engine (R259, R417, R424). -/
def Matrix.mayHold (m : Matrix) : Instr → Bool
  | .mclaim _ => !m.releases.isEmpty
  | .mzero _ | .mload _ | .mma _ | .mverify _ | .mdrain _ => decide (8 ≤ m.queue.length)
  | .mfix x | .mretry x => m.runs (accOf x)
  | _ => false

/-- A flow's next instruction, or the start of its next clause, waits: for its flags (R97, R383), for an earlier result in interlocked mode (R99), for its FLAG's
count (R96), for earlier reads (R405) or for the matrix engine. -/
def State.waits (s : State) (f : Flow) : Bool :=
  match s.flow? f with
  | none => false
  | some w =>
    match w.clause with
    | some c =>
      match c.next with
      | .ok i => !w.park.any Park.second && ({ s with cur := f }.issuer i).any (fun e => s.held e || (match i, f with
          | .fwait x, _ => !w.flagsClear (x.immBits 11 0)
          | .fence x, _ => (ordAcquire x).isSome && w.readsOut e.run
          | _, .wave k _ => (s.core k).matrix.mayHold i
          | _, .steward _ _ => false))
      | .error _ => false
    | none =>
      !w.stopping && w.choose.any (fun k => match s.fetchClause f k.addr with
        | (_, .ok (h, ws)) =>
          (k.word = 0 || k.mode != 0) && !s.interlocked w { addr := k.addr, header := h, words := ws, pos := 1, run := k.run } && !w.flagsClear (headerWait h)
        | (_, .error _) => false)

/-- A wave is ready, but for its place in a set (R205): a run of it can issue, it is not parked, and nothing holds it. An imprecise fault that is due holds for no flag. -/
def State.waveReady (s : State) (c k : Nat) : Bool :=
  match (s.core c).waves.get k with
  | none => false
  | some w =>
    s.placedRunning c w && w.standingLanes != 0 && (w.dueImprecise.isSome || (goesOn w.park && (w.clause.isSome || w.choose.isSome) && !s.waits (.wave c k)))

/-- A wave of an active set can issue in this cycle. -/
def State.canIssue (s : State) (c k : Nat) : Bool := s.runs (.wave c k) && s.waveReady c k

/-! ### The choice of the wave that issues (R94, R205) -/

/-- The scheduler of a wave slot (R441). -/
def schedulerOf (slot : Nat) : Nat := slot / 24

/-- The active waves of a scheduler, least recent issue first. -/
def Core.activeOf (q : Core) (sch : Nat) : List Nat := q.active.filter (fun k => schedulerOf k == sch)

/-- The next instruction of a wave's clause is held by its DIST (R94): it may not issue in the cycle after the instruction before it. A mixed clause and interlocked mode
ignore DIST (R99), and DIST of the first instruction counts from an earlier clause. -/
def State.distHolds (s : State) (w : Wave) (c : Clause) : Bool :=
  !s.interlocked w c && c.pos != 1 && (c.rest.head?).any (fun x => bits x.toNat 31 30 != 0)

/-- A wave keeps its scheduler (R205): it stands within its clause and its DIST does not hold it. -/
def State.keeps (s : State) (c k : Nat) : Bool :=
  ((s.core c).waves.get k).any (fun w => w.clause.any (fun x => !s.distHolds w x))

/-- When a wave of a core was placed: by its group, then by its slot (R205). -/
def State.placedBefore (s : State) (c a b : Nat) : Bool :=
  let at_ (k : Nat) : Nat := (((s.core c).waves.get k).bind (fun w => s.group? c w.group)).elim 0 (fun g => g.serial)
  at_ a < at_ b || (at_ a == at_ b && a ≤ b)

/-- The wave of a list that issued least recently (R205): one that has not issued since it entered the active set, the one placed earliest, or else the first. -/
def State.leastRecent (s : State) (c : Nat) (ks : List Nat) : Option Nat :=
  let fresh := ks.filter (fun k => ((s.core c).waves.get k).any (fun w => w.unissued))
  match fresh.find? (fun k => fresh.all (fun j => s.placedBefore c k j)) with
  | some k => some k
  | none => ks.head?

/-- The wave whose turn it is at a scheduler (R205): the one that issued last, while it keeps the scheduler and is ready, or else the ready one that issued least recently. -/
def State.pick (s : State) (c sch : Nat) : Option Nat :=
  let act := (s.core c).activeOf sch
  match act.getLast? with
  | some k => if s.keeps c k && s.canIssue c k then some k else s.leastRecent c (act.filter (s.canIssue c))
  | none => none

/-! ### Active and pending sets (R205 to R207) -/

/-- A wave waits at an `fwait` at the end of its clause for a flag of an engine instruction (R206, R383). -/
def State.fwaitSwaps (s : State) (f : Flow) (w : Wave) (c : Clause) : Bool :=
  match c.next with
  | .ok (.fwait x) => c.atLast && !w.flagsClear (x.immBits 11 0) && s.flagsEngine f w (x.immBits 11 0)
  | _ => false

/-- A wave stands where it may leave the active set: at a clause boundary, or held at the last instruction of its clause by a park or by such an `fwait` (R206). -/
def State.atBoundary (s : State) (f : Flow) (w : Wave) : Bool :=
  match w.clause with
  | none => true
  | some c => (!goesOn w.park && c.atLast) || s.fwaitSwaps f w c

/-- A wave is a swap candidate (R206, R207): it is marked as one, or it waits at an `fwait` or a `bar.wait` that is the last instruction of its clause (R383, R408). -/
def State.mustSwap (s : State) (c k : Nat) : Bool :=
  ((s.core c).waves.get k).any (fun w => s.atBoundary (.wave c k) w && (w.candidate || w.park.any Park.onBarrier || w.clause.any (s.fwaitSwaps (.wave c k) w)))

/-- A wave may be a swap candidate: it must, or it has a global access whose data are still out, which may have missed beyond L1 (log 68). -/
def State.maySwap (s : State) (c k : Nat) : Bool :=
  s.mustSwap c k || ((s.core c).waves.get k).any (fun w => s.atBoundary (.wave c k) w && w.outstanding.any (fun o => o.reads != []))

/-- The active waves of a scheduler that are swap candidates at a boundary. -/
def State.candidates (s : State) (c sch : Nat) : List Nat := ((s.core c).activeOf sch).filter (s.maySwap c)

/-- The ready waves of a scheduler's pending set, oldest entry first. -/
def State.readyPending (s : State) (c sch : Nat) : List Nat := (s.core c).pending.filter (fun k => schedulerOf k == sch && s.waveReady c k)

/-- A wave enters the active set from the pending set (R205). -/
def State.enter (s : State) (c k : Nat) : State :=
  (s.modCore c (fun q => { q with active := k :: q.active, pending := q.pending.filter (· != k) })).modFlow (.wave c k) (fun w => { w with unissued := true })

/-- Exchange a candidate with a pending wave (R206): the candidate enters the pending set as its youngest member. -/
def State.exchange (s : State) (c out in_ : Nat) : State :=
  let s := s.modCore c (fun q => { q with active := q.active.filter (· != out) })
  let s := s.enter c in_
  (s.modCore c (fun q => { q with pending := q.pending ++ [out] })).modFlow (.wave c out) (fun w => { w with candidate := false })

/-- WAVE_SWAP (R206): the first candidate of a scheduler is exchanged with its oldest ready pending wave. -/
def execWaveSwap (core scheduler : Nat) (s : State) : Out :=
  .next <|
    match s.candidates core scheduler, s.readyPending core scheduler with
    | out :: _, in_ :: _ => s.exchange core out in_
    | _, _ => s

/-- PENDING_STARVATION_TIMEOUT (R207): the active wave that issued least recently becomes a candidate at its next clause boundary. -/
def execPendingStarvationTimeout (core scheduler : Nat) (s : State) : Out :=
  .next <|
    if s.readyPending core scheduler = [] then s
    else
      match s.leastRecent core ((s.core core).activeOf scheduler) with
      | some k => s.modFlow (.wave core k) (fun w => { w with candidate := true })
      | none => s

/-- A wave's swap is due before it issues again (R206). -/
def State.swapDue (s : State) (f : Flow) : Bool :=
  match f with
  | .wave c k => s.mustSwap c k && s.readyPending c (schedulerOf k) != []
  | .steward _ _ => false

/-- CLAUSE_START (R17, R76 to R78, R97, R206): an issuable flow with no clause in progress starts one, unless it is a candidate whose swap is due. -/
def execClauseStart (f : Flow) (s : State) : Out :=
  .next <|
    match s.flow? f with
    | none => s
    | some w =>
      if s.issuable f && w.clause.isNone && !w.stopping && w.imprecise.isEmpty && !s.swapDue f then
        match w.choose with
        | some k => ({ s with cur := f }).startClause f k
        | none => s
      else s

/-! ### Data, octets and wakes -/

/-- MEMORY_RESPONSE (R393): an outstanding instruction's data return. -/
def execMemoryResponse (f : Flow) (index : Nat) (s : State) : Out := .next (s.respond f index)

/-- The octet that a wave waits for is back in the file, in place of another where none is free (R40). A handler that waits for an octet to be free gets that room (R374). -/
def State.returnOctet (s : State) (c k : Nat) : State :=
  match (s.core c).waves.get k with
  | none => s
  | some w =>
    match w.park with
    | some (.octet x o) =>
      let n := 8 * x + o
      let s := s.makeRoom c
      let s := if w.overflowed.contains n then s.fillOctet c k n else s
      s.modFlow (.wave c k) (fun w => { w with park := none })
    | _ => s

/-- OCTET_RETURN (R40). -/
def execOctetReturn (core slot : Nat) (s : State) : Out := .next (s.returnOctet core slot)

/-- A waiter whose phase has passed, or whose barrier is dropped, is ready with its status (R217). -/
def Wave.wake (w : Wave) : Wave :=
  match w.park with
  | some (.waking st) => { w with park := some (.woken st) }
  | _ => w

/-- BARRIER_WAKE (R217). -/
def execBarrierWake (core slot : Nat) (s : State) : Out := .next (s.modFlow (.wave core slot) Wave.wake)

/-- A wave without an entry in its core's barrier unit tests its global barrier again (R216). -/
def State.retest (s : State) (w : Wave) : Wave :=
  match w.park with
  | some (.globalBarrier pa token false) =>
    match s.bar? (.global pa) with
    | none => { w with park := some (.woken 2) }
    | some b => if b.phase = token then w else { w with park := some (.woken 0) }
  | _ => w

/-- GLOBAL_BARRIER_RETEST (R216). -/
def execGlobalBarrierRetest (core slot : Nat) (s : State) : Out := .next (s.modFlow (.wave core slot) s.retest)

/-! ### What precedes an issue (R40, R169, R205, R206) -/

/-- What a scheduler, or the Sett engine of its core, does before a wave issues: an octet leaves an over-full file; the
matrix state of a shadowed image is spilled (R169); the oldest ready pending wave enters an active set that has
room (log 68); the first candidate is exchanged where a pending wave is ready. -/
def State.chore (s : State) (c sch : Nat) : Option State :=
  let q := s.core c
  match (if s.octetRoom c < s.splitOctets c then s.victim c else none), q.spillMatrix with
  | some (k, n), _ => some (s.evict c k n)
  | none, some q' => some (s.setCore c q')
  | none, none =>
    match (if (q.activeOf sch).length < 8 then (s.readyPending c sch).head? else none) with
    | some k => some (s.enter c k)
    | none =>
      match (q.activeOf sch).find? (s.mustSwap c), s.readyPending c sch with
      | some out, in_ :: _ => some (s.exchange c out in_)
      | _, _ => none

/-! ### Window stages (R123, R278) -/

/-- STAGE_SOURCE_FAILURE (R123, R278): a stage with an unlanded sector that cannot be read ends. -/
def execStageSourceFailure (core group window stage : Nat) (s : State) : Out := .next (s.sourceFails core group window stage)

end Sys2Proof.Machine
end

