-- ==== Sys2Proof/Machine/Area.lean ====
section
/-! DEFINITION. The save area of an image: its sections, its header and its tag (R170 to R172 of spec/09_context.md). The spec gives the place, the size and the contents of each
section, and the model its inner order (log 24). -/

namespace Sys2Proof.Machine

/-- A piece of a save area: an offset and bytes. -/
abbrev Piece := Nat × List Byte

/-- The bytes of a save area (R170). -/
def areaSize : Nat := 0x563000

/-- A value of a table at each of its keys, at steps from an offset. -/
def piecesOf {α : Type} (t : Tab α) (at_ step : Nat) (f : α → List Byte) : List Piece := t.map (fun e => (at_ + step * e.1, f e.2))

/-- The bytes of a word. -/
def wordBytes (w : Word) : List Byte := bytesOfNat 4 w.toNat

/-! ### Group records (R171) -/

/-- The state of a window: 32 bytes. -/
def Window.record (w : Window) : List Byte :=
  match w.bound with
  | none => bytesOfNat 32 0
  | some b => bytesOfNat 1 (1 + 2 * b2n b.broken + 4 * b2n b.closing) ++ bytesOfNat 1 b.entry ++ bytesOfNat 1 b.depth ++ bytesOfNat 1 b.unused ++ bytesOfNat 4 b.head
      ++ bytesOfNat 4 b.p0 ++ bytesOfNat 4 b.size ++ bytesOfNat 8 b.base ++ bytesOfNat 8 (b.barrierPa.getD 0)

/-- A capture: 16 bytes. -/
def Capture.record (k : Capture) : List Byte :=
  bytesOfNat 1 k.wave ++ bytesOfNat 1 k.var ++ bytesOfNat 2 (b2n k.written) ++ bytesOfNat 4 k.barrier ++ wordBytes k.value ++ bytesOfNat 4 0

/-- The wave mask of a group-home variable (R38): the waves of its group that hold a copy, a wave's own or one of a lane. -/
def waveMask (waves : List Wave) (x : Nat) : Nat :=
  (waves.filter (fun w => (w.copies.get x).isSome || w.laneCopies.any (fun e => e.1 / 64 == x))).foldl (fun m w => m ||| 2 ^ (w.number % 32)) 0

/-- A group record: home copies, the wave masks of its group-home variables, region table, windows and captures. -/
def Group.pieces (g : Group) (n : Nat) (waves : List Wave) : List Piece :=
  let at_ := 0x1000 + 0x1000 * n
  piecesOf g.home at_ 4 wordBytes ++ g.home.map (fun e => (at_ + 512 + 4 * e.1, bytesOfNat 4 (waveMask waves e.1))) ++ piecesOf g.regions (at_ + 1024) 1 (fun b => [b])
    ++ piecesOf g.windows (at_ + 3072) 32 Window.record ++ (g.captures.zip (List.range 32)).map (fun k => (at_ + 3584 + 16 * k.2, k.1.record))

/-! ### Wave records (R171, R306) -/

/-- The trap registers of a wave. -/
def TrapRegs.record (r : TrapRegs) : List Byte := ([r.cause, r.pc, r.mask, r.addr, r.site0, r.site1] : List DWord).flatMap (fun v => bytesOfNat 8 v.toNat)

/-- What a park keeps: its kind and a number. -/
def Park.record : Park → List Byte
  | .octet x k => bytesOfNat 8 1 ++ bytesOfNat 8 (8 * x + k)
  | .line off => bytesOfNat 8 2 ++ bytesOfNat 8 off
  | .unbind win => bytesOfNat 8 3 ++ bytesOfNat 8 win
  | .spadBarrier off token => bytesOfNat 8 4 ++ bytesOfNat 4 off ++ bytesOfNat 4 token
  | .globalBarrier pa token _ => bytesOfNat 4 5 ++ bytesOfNat 4 token ++ bytesOfNat 8 pa
  | .waking st => bytesOfNat 8 6 ++ bytesOfNat 8 st
  | .woken st => bytesOfNat 8 7 ++ bytesOfNat 8 st
  | .steward => bytesOfNat 16 8
  | .ecall => bytesOfNat 16 9
  | .answered v => bytesOfNat 8 10 ++ bytesOfNat 8 v.toNat
  | .matrix seq => bytesOfNat 8 11 ++ bytesOfNat 8 seq
  | .matrixDone => bytesOfNat 16 12
  | .dstep => bytesOfNat 16 13
  | .monitor => bytesOfNat 16 14
  | .matrixSpill => bytesOfNat 16 15
  | .request => bytesOfNat 16 16
  | .arrived => bytesOfNat 16 17
  | .lost => bytesOfNat 16 18

/-- A latch entry holds one value for every lane (R53). -/
def Latch.isUniform : Latch → Bool
  | .uniform _ => true
  | .invalid | .lanes _ => false

/-- A bit for each of the eight latches that a lane keeps, as a test picks them (R53, R306). -/
def Wave.latchBits (w : Wave) (l : Nat) (p : Latch → Bool) : Nat :=
  ((w.kept.getD l []).zip (List.range 8)).foldl (fun v e => if p e.1 then v + 2 ^ e.2 else v) 0

/-- Flags, WSTAT, sweep mark, counts and the rest of a wave, with the validity of its latches: at most 512 bytes. -/
def Wave.status (w : Wave) : List Byte :=
  (List.range 12).flatMap (fun k => bytesOfNat 2 (w.flags.getD k 0)) ++ bytesOfNat 8 w.wstat.value
    ++ bytesOfNat 8 (w.sweep.elim 0 (fun p => (tpcOf p.1 p.2).toNat + 1)) ++ bytesOfNat 8 w.headIssues ++ bytesOfNat 8 w.halted.toNat
    ++ bytesOfNat 8 (w.resume.elim 0 (fun r => r.1.toNat)) ++ bytesOfNat 8 (w.resume.elim 0 Prod.snd) ++ w.trap.record ++ bytesOfNat 8 w.scratch.toNat ++ bytesOfNat 8 w.haltInfo.toNat
    ++ bytesOfNat 8 w.hpc ++ bytesOfNat 4 w.hword ++ bytesOfNat 4 (b2n w.handler) ++ (List.range 64).flatMap (fun l => bytesOfNat 2 (w.depth.getD l 0))
    ++ bytesOfNat 8 w.spills ++ bytesOfNat 8 w.maxDepth ++ (w.park.elim (bytesOfNat 16 0) Park.record)
    ++ bytesOfNat 8 w.live.toNat ++ (List.range 64).flatMap (fun l => bytesOfNat 1 (w.latchBits l (fun k => k != .invalid)))
    ++ (List.range 64).flatMap (fun l => bytesOfNat 1 (w.latchBits l (fun k => k.isUniform)))

/-- The lanes that hold a copy of a variable. -/
def Wave.splitMask (w : Wave) (x : Nat) : LaneMask := LaneMask.ofList ((w.laneCopies.filter (fun e => e.1 / 64 == x)).map (fun e => e.1 % 64))

/-- A wave record: latches, return stacks, counter table, lane masks of its variables, and the rest. -/
def Wave.pieces (w : Wave) (k : Nat) : List Piece :=
  let at_ := 0x61000 + 0x2000 * k
  let latch (e : Nat × List Latch) : List Piece := (e.2.zip (List.range 8)).map (fun x => (at_ + 512 * x.2 + 8 * e.1, bytesOfNat 8 ((x.1.value e.1).getD 0).toNat))
  let stack (e : Nat × List Nat) : List Piece := (e.2.zip (List.range 4)).map (fun x => (at_ + 4096 + 32 * e.1 + 8 * x.2, bytesOfNat 8 x.1))
  w.kept.flatMap latch ++ w.returns.flatMap stack ++ w.live.toList.map (fun l => (at_ + 6144 + 8 * l, bytesOfNat 8 (tpcOf (w.position l).1 (w.position l).2).toNat))
    ++ ((w.laneCopies.map (fun e => e.1 / 64)).dedup).map (fun x => (at_ + 6656 + 8 * x, bytesOfNat 8 (w.splitMask x).toNat)) ++ [(at_ + 7680, w.status)]

/-! ### The variable file and the matrix engine (R171) -/

/-- What a wave holds in the variable file: its lane-home slots, its wave copies, and its octets that stand there. -/
def Wave.fileBytes (w : Wave) : List Byte :=
  w.slots.flatMap (fun e => wordBytes e.2) ++ w.copies.flatMap (fun e => wordBytes e.2) ++ (w.octets.filter (fun o => !w.overflowed.contains o)).flatMap w.octetBytes

/-- A source address, with its space in bit 63. -/
def sourceBytes (x : Bool × Nat) (more : Nat) : List Byte := bytesOfNat 8 (b2n x.1 * 2 ^ 63 + more * 2 ^ 62 + x.2 % 2 ^ 48)

/-- An entry of a replay list (R261), 48 bytes: its block and the CRC, and for each slot that it read the source address, the tag and its valid bit. -/
def Replay.record (r : Replay) : List Byte :=
  sourceBytes (r.global, r.address) 0 ++ bytesOfNat 4 (r.crc % 2 ^ 32)
    ++ (r.slots.take 3).flatMap (fun x => sourceBytes (x.2.1.getD 0 (false, 0)) (b2n x.2.2.2) ++ bytesOfNat 4 (x.2.2.1 % 2 ^ 32))

/-- Accumulators, operand slots, tags, versions, MSTAT and replay lists. -/
def Matrix.pieces (m : Matrix) : List Piece :=
  m.accs.flatMap (fun a => piecesOf a.2.elems (0x161000 + 0x10000 * a.1) 4 wordBytes) ++ m.slots.flatMap (fun x => piecesOf x.2.bytes (0x1A1000 + 0x4000 * x.1) 1 (fun b => [b]))
    ++ piecesOf m.slots 0x1E1000 8 (fun x => bytesOfNat 4 x.tag ++ bytesOfNat 2 (b2n x.valid) ++ bytesOfNat 2 (x.owner.elim 0 (· + 1)))
    ++ m.accs.map (fun a => (0x1E1080 + 16 * a.1, bytesOfNat 8 a.2.version ++ bytesOfNat 8 (m.mstat a.1)))
    ++ m.accs.flatMap (fun a => (a.2.replay.zip (List.range 16)).map (fun r => (0x1E10C0 + 0x300 * a.1 + 48 * r.2, r.1.record)))
    ++ m.slots.flatMap (fun x => piecesOf x.2.source (0x1E1CC0 + 32 * x.1) 8 (fun y => sourceBytes y 0))

/-! ### The scratchpad (R112, R128, R129, R171) -/

/-- The bytes of a range of a group's scratchpad, at an offset of the area. -/
def Group.plainPieces (g : Group) (lo n at_ : Nat) : List Piece := (g.spad.filter (fun e => lo ≤ e.1 && e.1 < lo + n)).map (fun e => (at_ + (e.1 - lo), [e.2]))

/-- The stored tiles of a compressed window, at its physical base in the area. -/
def Group.tilePieces (g : Group) (w : Window) (pl : WinPlace) (at_ : Nat) : List Piece :=
  w.tiles.map (fun e => (at_ + 32 * e.2.offset, (storedTile w.comp (Memory.read g.spad (pl.base + 4096 * e.1) 4096)).2.take (32 * e.2.len)))

/-- Windows in physical storage, one behind another: a plain one as it is, a compressed one by its stored tiles. -/
def Group.windowPieces (g : Group) : List (Nat × WinPlace) → Nat → List Piece
  | [], _ => []
  | (n, pl) :: ws, at_ =>
    (if pl.compressed then (g.windows.get n).elim [] (fun w => g.tilePieces w pl at_) else g.plainPieces pl.base (pl.raw * 4096) at_) ++ g.windowPieces ws (at_ + pl.budget * 4096)

/-- The windows of a record with their places, by number. -/
def Record.numbered (r : Record) : List (Nat × WinPlace) := (List.range r.windows.length).zip (placeWindows r.windows 0)

/-- The tiles of offset space and the physical tiles that a record's windows take. -/
def Record.windowTiles (r : Record) : Nat × Nat := ((r.windows.map Prod.snd).foldl (· + ·) 0, (r.windows.map Prod.fst).foldl (· + ·) 0)

/-- A group in physical storage: its windows, then its plain bytes. -/
def Group.spadPieces (g : Group) (r : Record) (at_ : Nat) : List Piece :=
  let t := r.windowTiles
  g.windowPieces r.numbered at_ ++ g.plainPieces (4096 * t.1) (r.allocation - 4096 * t.1) (at_ + 4096 * t.2)

/-- The physical lines of a group that are present, from a first line: those of plain windows and of plain bytes (R119). -/
def Group.presentLines (g : Group) (r : Record) (first : Nat) : List Nat :=
  let wins := (r.numbered.foldl (fun (a : Nat × List Nat) x =>
    let n := 32 * x.2.budget
    let here := (List.range n).filter (fun l => x.2.compressed || !(g.windows.get x.1).any (fun w => w.absent.contains l))
    (a.1 + n, a.2 ++ here.map (a.1 + ·))) (first, [])).2
  let t := r.windowTiles
  wins ++ (List.range (32 * (r.tiles - t.1))).map (first + 32 * t.2 + ·)

/-- The groups of an image with the tile at which each stands, one behind another in the order of their slots. -/
def State.spadPlaces (s : State) : Tab Group → Nat → List (Group × Nat)
  | [], _ => []
  | (_, g) :: gs, tile =>
    let r := s.recordOf g
    (g, tile) :: s.spadPlaces gs (tile + (r.tiles - r.windowTiles.1 + r.windowTiles.2))

/-- Scratchpad storage, presence bits, and the armed barriers of the unit. -/
def State.spadSections (s : State) (gs : Tab Group) : List Piece :=
  let places := s.spadPlaces gs 0
  let present := places.flatMap (fun p => p.1.presentLines (s.recordOf p.1) (32 * p.2))
  let bars := gs.flatMap (fun g => g.2.barriers.map Prod.snd)
  places.flatMap (fun p => p.1.spadPieces (s.recordOf p.1) (0x1E2000 + 4096 * p.2))
    ++ [(0x262000, bytesOfNat 512 ((present.dedup).foldl (fun v l => v ||| 2 ^ l) 0))]
    ++ (bars.zip (List.range 64)).map (fun b => (0x262200 + 16 * b.2, bytesOfNat 16 (b.1.value true)))

/-! ### The area (R40, R171) -/

/-- The octets of an image in its overflow areas, as they stand in another area. -/
def State.overflowPieces (s : State) (i : Image) (old : Nat) : List Piece :=
  i.waves.flatMap (fun w => w.2.overflowed.map (fun n => (overflowAt 0 w.1 n, s.bytes (overflowAt old w.1 n) 32)))

/-- The sections of an image, behind its header. -/
def State.sections (s : State) (i : Image) (old : Nat) : List Piece :=
  i.groups.flatMap (fun g => g.2.pieces g.1 ((i.waves.map Prod.snd).filter (fun w => w.group == g.1))) ++ i.waves.flatMap (fun w => w.2.pieces w.1)
    ++ [(0x121000, (i.waves.flatMap (fun w => w.2.fileBytes)).take 0x40000)] ++ i.matrix.pieces ++ s.spadSections i.groups ++ piecesOf i.watches 0x262600 16 (bytesOfNat 16)
    ++ s.overflowPieces i old

/-- Bytes 0 to 223 of the header of a save area (R171). -/
def Image.headerBytes (i : Image) (core : Nat) : List Byte :=
  bytesOfNat 4 0x5A584354 ++ bytesOfNat 2 1 ++ bytesOfNat 2 (i.asid % 1024) ++ bytesOfNat 8 i.context ++ bytesOfNat 2 core ++ bytesOfNat 2 i.groups.length
    ++ bytesOfNat 2 i.waves.length ++ bytesOfNat 2 0 ++ bytesOfNat 8 i.matrix.seq ++ bytesOfNat 8 areaSize ++ bytesOfNat 184 0

/-- The bytes of an area that are not zero, by offset. -/
def State.areaBytes (s : State) (pa : Nat) : Tab Byte := (s.mem.filter (fun e => pa ≤ e.1 && e.1 < pa + areaSize)).map (fun e => (e.1 - pa, e.2))

/-- "FZ4 SAVE" in ASCII. -/
def saveName : List Byte := [0x46, 0x5A, 0x34, 0x20, 0x53, 0x41, 0x56, 0x45]

/-- The tag of an area (R171): KMAC256 over its bytes, with TAG read as zero, under a context's key. -/
def State.areaTag (s : State) (pa : Nat) (key : BitVec 256) : List Byte :=
  kmac256 (bytesOfNat 32 key.toNat) (s.bytes pa 224 ++ bytesOfNat 32 0 ++ s.bytes (pa + 256) (areaSize - 256)) saveName

/-- The key of a context (R165), as the key tables of the dies that it occupies hold it (R166). -/
def State.keyOf (s : State) (ctx : Nat) : BitVec 256 := (s.dies.findSome? (fun d => d.2.keys.get ctx)).getD 0

/-- An area is written afresh: zeros, then pieces; reservations on it and the releases of its bytes go (R141, R402). -/
def State.fillArea (s : State) (pa : Nat) (ps : List Piece) : State :=
  let outside (a : Nat) : Bool := a < pa || pa + areaSize ≤ a
  ({ s with
    mem := ps.foldl (fun m p => Memory.write m (pa + p.1) p.2) (s.mem.keep (fun a _ => outside a))
    tags := s.tags.keep (fun a _ => outside a)
    reservations := s.reservations.filter (fun r => outside r.pa) } : State).countGranule pa areaSize true

/-- An image is written to an area, with its header and its tag (R171). -/
def State.writeArea (s : State) (core pa old : Nat) (i : Image) : State :=
  let s := (s.firstWrite pa areaSize).fillArea pa ((0, i.headerBytes core) :: s.sections i old)
  s.poke (pa + 224) (s.areaTag pa (s.keyOf i.context)) false none

/-! ### The check of a restore (R172, R173) -/

/-- A line of a range holds an uncorrectable error. -/
def State.poisonIn (s : State) (lo n : Nat) : Bool := s.poison.any (fun l => lineOf lo ≤ l && l < lineOf (lo + n))

/-- The header of a save area passes its check (R172): the context that it names. -/
def State.headerGood (s : State) (core pa : Nat) : Option Nat :=
  let h := s.bytes pa 256
  let ctx := field h 8 8
  let known := (s.contexts.get ctx).any (fun x => x.asid.isSome && x.state == .live) && ((s.die (dieOf core)).keys.get ctx).isSome
  if field h 0 4 = 0x5A584354 ∧ field h 4 2 = 1 ∧ field h 32 8 = areaSize ∧ field h 16 2 = core ∧ known ∧ !s.poisonIn pa 4096 then some ctx else none

/-- The image whose bytes an area holds, with the area at which it was spilled: the one spilled there, or else one of which it is a copy, waiting still or spilled before. -/
def State.imageOf (s : State) (pa : Nat) : Option (Nat × Image) :=
  let held := s.areaBytes pa
  let here := (s.saves.get pa).bind (fun i => if i.stored = held then some (pa, i) else none)
  (here.or (s.saves.find? (fun e => e.2.stored == held))).or ((s.archive.find? (fun i => i.stored == held)).map (fun i => (pa, i)))

/-- What lies behind the header passes its check (R172): no error, and the tag of the context that the header names. -/
def State.areaIntact (s : State) (pa ctx : Nat) : Bool :=
  !s.poisonIn (pa + 4096) (areaSize - 4096) && s.bytes (pa + 224) 32 == s.areaTag pa (s.keyOf ctx)

end Sys2Proof.Machine
end

