-- ==== Sys2Proof/Machine/Container.lean ====
section
/-! DEFINITION. Strata containers (R483 to R486, R512 of spec/26_compatibility_and_loading.md and spec/32_program_firmware_update.md). -/

namespace Sys2Proof.Machine

/-! ### Headers and sections (R483, R484) -/

/-- A container's header. -/
structure Container where
  narrow : Bool
  keyId : Nat
  tag : Nat
  svn : Nat
  nsect : Nat
  sectOff : Nat
  length : Nat
  sigOff : Nat
  clean : Bool

/-- Read a header. -/
def containerOf (bs : List Byte) : Container :=
  { narrow := bit (field bs 6 1) 0, keyId := field bs 7 1, tag := field bs 8 4, svn := field bs 12 4, nsect := field bs 16 4, sectOff := field bs 20 4,
    length := field bs 24 8, sigOff := field bs 32 8,
    clean := field bs 0 4 == 0x41525453 && field bs 4 2 == 1 && field bs 6 1 / 2 == 0 && (List.range 24).all (fun k => field bs (40 + k) 1 == 0) }

/-- A section of a container. -/
structure Section where
  type : Nat
  optional : Bool
  format : Nat
  zero : Nat
  offset : Nat
  length : Nat

/-- The section table. -/
def sectionsOf (bs : List Byte) : List Section :=
  let c := containerOf bs
  (List.range (min c.nsect 256)).map (fun k =>
    let o := c.sectOff + 24 * k
    { type := field bs o 2 % 2 ^ 15, optional := bit (field bs o 2) 15, format := field bs (o + 2) 2, zero := field bs (o + 4) 4, offset := field bs (o + 8) 8,
      length := field bs (o + 16) 8 })

/-- A type that R484 lists. -/
def Section.known (x : Section) : Bool := 1 ≤ x.type && x.type ≤ 7
/-- The translator passes over a section (R484). -/
def Section.skipped (x : Section) : Bool := !x.known || !Config.readsFormat x.type x.format
/-- The bytes of a section. -/
def Section.bytes (x : Section) (bs : List Byte) : List Byte := (bs.drop x.offset).take x.length

/-- The section of a type, whatever its FORMAT. -/
def rawSection (bs : List Byte) (type : Nat) : Option Section := (sectionsOf bs).find? (fun x => x.type == type)
/-- The section of a type that the translator reads. -/
def sectionOf (bs : List Byte) (type : Nat) : Option Section := (sectionsOf bs).find? (fun x => x.type == type && !x.skipped)

/-- The header, the table and the places of the sections are as R483 and R484 lay down: what the bytes alone decide. -/
def containerShape (bs : List Byte) : Bool :=
  let c := containerOf bs
  let xs := sectionsOf bs
  let tableEnd := c.sectOff + 24 * c.nsect
  64 ≤ bs.length && c.clean && c.length == bs.length && c.sigOff + 2820 == c.length && 1 ≤ c.nsect && c.nsect ≤ 256 && c.sectOff % 8 == 0 && 64 ≤ c.sectOff
    && tableEnd ≤ c.sigOff
    && xs.all (fun x => x.zero == 0 && x.offset % 16 == 0 && tableEnd ≤ x.offset && x.offset + x.length ≤ c.sigOff
      && (x.optional || x.known) && (x.optional || x.type == 0 || 3 < x.type))
    && (xs.zip (List.range xs.length)).all (fun a => (xs.zip (List.range xs.length)).all (fun b =>
      a.2 == b.2 || a.1.offset + a.1.length ≤ b.1.offset || b.1.offset + b.1.length ≤ a.1.offset))
    && (xs.filter (fun x => x.type == 6)).length == 1
    && xs.all (fun x => (xs.filter (fun y => y.type == x.type)).length == 1)
    && ((rawSection bs 4).isSome || c.tag == 0)

/-- A container that the translator does not refuse (R483, R484): KEYID is one of the eight, and it reads every section that is not OPTIONAL. -/
def containerGood (bs : List Byte) : Bool :=
  containerShape bs && (containerOf bs).keyId < 8 && (sectionsOf bs).all (fun x => x.optional || !x.skipped)

/-- The bytes that a container's signature covers, and its signature (R485). -/
def signedBytes (bs : List Byte) : List Byte := bs.take (containerOf bs).sigOff
def signatureOf (bs : List Byte) : List Byte := (bs.drop (containerOf bs).sigOff).take 2820
/-- A container's signature verifies against a public key (R485). -/
def signedBy (key bs : List Byte) : Bool := Config.xmss key (signedBytes bs) (signatureOf bs)

/-- The functions of a FUNCS section (R486), with their entry clauses counted from an address. -/
def functionsOf (funcs : Option Section) (bs : List Byte) (base : Nat) : List FuncEntry :=
  match funcs with
  | none => []
  | some x =>
    let t := x.bytes bs
    (List.range (t.length / 64)).map (fun k =>
      let e := (t.drop (64 * k)).take 64
      { name := (e.drop 48).take 16, entry := (base + field e 32 8) % 2 ^ 64, ranks := e.take 32, pairs := field e 40 8 })

/-- The bytes of a name padded with zeros. -/
def paddedName (cs : List Nat) : List Byte := (cs.map (BitVec.ofNat 8) ++ List.replicate 16 0).take 16

/-- "steward" in ASCII (R512). -/
def stewardName : List Byte := paddedName [0x73, 0x74, 0x65, 0x77, 0x61, 0x72, 0x64]

/-- The byte offset in NATIVE of a scheduler image's entry clause (R512); none where the container is no scheduler image. -/
def imageEntry (bs : List Byte) : Option Nat :=
  if containerShape bs && (containerOf bs).tag == 0x04040011 && (rawSection bs 4).isSome then
    ((functionsOf (rawSection bs 6) bs 0).find? (fun f => f.name == stewardName)).map (fun f => f.entry)
  else none

/-- The code of a scheduler image (R512). -/
def imageCode (bs : List Byte) : List Byte := ((rawSection bs 4).map (fun x => x.bytes bs)).getD []

end Sys2Proof.Machine
end

