-- ==== Sys2Proof/Machine/Levels.lean ====
section
/-! DEFINITION. The levels of a container (R487 of spec/26_compatibility_and_loading.md). -/

namespace Sys2Proof.Machine

/-- The variable that a source names: bits [6:0] from its field and bits [14:7] from the record's byte (R487). -/
def wideVar (role : Role) (x : Src) (high : Nat) : Option Nat :=
  match role, x with
  | .unused, _ => none
  | _, .var n => some (high % 256 * 128 + n.toNat)
  | _, _ => none

/-- The words of a record that are its instruction's: an instruction without an extension word leaves bytes [7:4] zero (R487). -/
def recordWords (base ext lit : Word) : List Word :=
  match formOf (wMajor base).toNat (wS base) with
  | some .x => [base, ext, lit]
  | _ => if ext = 0 then [base, lit] else []

/-- The record that a direct branch or call goes to, counted in records from its own (R487). -/
def recordTarget (i : Instr) (index : Nat) : Option Int :=
  match i with
  | .bra x | .bz x | .bnz x | .call x => some (index + signed 16 x.imm.toNat)
  | _ => none

/-- An instruction of a record (R487): DIST is 0, there is no completion flag, and a literal word that it does not read is 0. -/
def instrRecord (r : List Byte) (index : Nat) : Option LevelRecord :=
  let word (k : Nat) : Word := BitVec.ofNat 32 (field r (4 * k) 4)
  match decodeWords (recordWords (word 0) (word 1) (word 2)) with
  | .ok (i, rest) =>
    i.spec.bind (fun p =>
      if p.dist = 0 ∧ p.flag = none ∧ rest.all (· == 0) then
        some (.instr i (wideVar p.dstRole (.var p.dst) (field r 12 1)) (wideVar p.saRole p.sa (field r 13 1)) (wideVar p.sbRole p.sb (field r 14 1))
          (wideVar p.scRole p.sc (field r 15 1)) (recordTarget i index))
      else none)
  | .error _ => none

/-- A 16-bit extent of TILE_MMA: a variable number where its top bit is set (log 17). -/
def tileExtent (v : Nat) : Extent := if bit v 15 then .var (v % 2 ^ 15) else .const v

/-- A marker of a record (R487). SCALAR (TYPE 3) holds none, LOOP (TYPE 2) those of loops and regions, and TILE (TYPE 1) all. -/
def markerRecord (level : Nat) (r : List Byte) : Option LevelRecord :=
  let v := field r 4 8
  match field r 2 1 with
  | 0x01 => if level ≤ 2 then some (.loop (if bit v 63 then .var (v % 2 ^ 63) else .const v)) else none
  | 0x02 => if level ≤ 2 ∧ v = 0 then some .loopEnd else none
  | 0x03 => if level ≤ 2 then some (.region v) else none
  | 0x04 => if level ≤ 2 then some (.regionEnd v) else none
  | 0x10 => if level = 1 then some (.tileMma (tileExtent (field r 4 2)) (tileExtent (field r 6 2)) (tileExtent (field r 8 2)) (field r 10 2)) else none
  | 0x11 => if level = 1 then some (.tileWindow v) else none
  | _ => none

/-- A record whose base word has MAJOR 0x1F with S = 1 is a marker (R487). -/
def isMarker (base : Word) : Bool := wMajor base == 0x1F && wS base

/-- One record of 16 bytes (R487). -/
def levelRecord (level : Nat) (r : List Byte) (index : Nat) : LevelRecord :=
  ((if isMarker (BitVec.ofNat 32 (field r 0 4)) then (if field r 3 1 < 64 then markerRecord level r else none) else instrRecord r index)).getD (.unread r)

/-- The records of a level: TYPE 1 TILE, 2 LOOP, 3 SCALAR (R484, R487). -/
def levelRecords (level : Nat) (bs : List Byte) : List LevelRecord :=
  (List.range (bs.length / 16)).map (fun k => levelRecord level ((bs.drop (16 * k)).take 16) k)

/-- The level that the translator takes (R490): of TILE, LOOP and SCALAR, in that order, the first that is present and whose FORMAT it reads. -/
def levelOf (bs : List Byte) : Option (Nat × List LevelRecord) :=
  [1, 2, 3].findSome? (fun k => (sectionOf bs k).map (fun x => (k, levelRecords k (x.bytes bs))))

/-- What the translator makes of a container: code, and each function with its entry clause there; none where it reads no level (R490, log 17). -/
def translated (bs : List Byte) : Option (List Byte × List FuncEntry) :=
  (levelOf bs).map (fun l =>
    let part (type : Nat) : List Byte := ((sectionOf bs type).map (fun x => x.bytes bs)).getD []
    let (code, offs) := Config.translate l.1 l.2 (part 6) (part 7)
    (code, ((functionsOf (sectionOf bs 6) bs 0).zip offs).map (fun e => { e.1 with entry := e.2 })))

end Sys2Proof.Machine
end

