-- ==== Sys2Proof/Machine/Monitor.lean ====
section
/-! DEFINITION. The Badger monitor: the services of `moncall` and the heartbeat (R437, R438 of spec/23_ref_engines_system.md, R493, R502, R512 to R514). -/

namespace Sys2Proof.Machine

/-- Change a die's monitor. -/
def State.modMonitor (s : State) (d : Nat) (g : Monitor → Monitor) : State := s.modDie d (fun q => { q with monitor := g q.monitor })

/-- The fuse security-version counter of a die (R437, R493). -/
def State.fuse (s : State) (d : Nat) : Nat := (s.die d).monitor.svn.getD (Config.fusedSvn d)

/-- Bytes lie wholly in the memory granules of a die (R437). -/
def inDie (d pa n : Nat) : Bool := paDie pa == d && pa / 2 ^ 52 == 0 && paSpace pa == 0 && paOffset pa + n ≤ 2 ^ 39

/-- No line of a range is poisoned. -/
def State.readable (s : State) (pa n : Nat) : Bool := !s.poison.any (fun l => lineOf pa ≤ l && l ≤ lineOf (pa + n - 1))

/-- The checks of IMAGE_VERIFY that an image's own bytes decide, in the order given (R437, R485, R512); 0: it passes. -/
def State.imageStatus (s : State) (d : Nat) (bs : List Byte) : Nat :=
  if !signedBy (Config.fusedKey d) bs then 1 else if (containerOf bs).svn < s.fuse d then 2 else if (imageEntry bs).isNone then 3 else 0

/-- IMAGE_VERIFY (R437): the state and the result. -/
def State.imageVerify (s : State) (d a n : Nat) : State × Nat :=
  let s := s.modMonitor d (fun m => { m with candidate := none, measured := none })
  let bs := s.bytes a n
  let st := if !s.readable a n then 1 else s.imageStatus d bs
  if st ≠ 0 then (s, st) else if !inDie d a n then (s, 4) else (s.modMonitor d (fun m => { m with candidate := some bs }), 0)

/-- IMAGE_MEASURE (R437). -/
def State.imageMeasure (s : State) (d a : Nat) : State × Nat :=
  match (s.die d).monitor.candidate with
  | none => (s, 2)
  | some bs =>
    if !inDie d a 64 || !s.readable a 64 then (s, 3)
    else
      let digest := shake256 bs
      if s.bytes a 64 = digest then (s.modMonitor d (fun m => { m with measured := some digest }), 0) else (s, 1)

/-- The candidate has passed IMAGE_MEASURE. -/
def Monitor.ready (m : Monitor) : Option (List Byte) := m.candidate.bind (fun bs => if m.measured = some (shake256 bs) then some bs else none)

/-- ISLE_WRITE (R437, R502). -/
def State.isleWrite (s : State) (d slot : Nat) : State × Nat :=
  let m := (s.die d).monitor
  if 1 < slot then (s, 2 ^ 64 - 1)
  else if slot = m.running then (s, 3)
  else match m.ready with
    | none => (s, 1)
    | some bs =>
      let fails := Config.flashFails s.fresh
      let s := { s with fresh := s.fresh + 1 }
      if fails then (s, 2) else ({ s with isles := s.isles.set slot bs }, 0)

/-! ### Placing an image (R495, R512; log 16) -/

/-- The virtual address, in ASID 0, of the NATIVE section of the image of a place: 0 and 1 the slots', 2 that of an image offered. -/
def isleVa (d place : Nat) : Nat := place * 2 ^ 45 + Config.isleBase d place % 2 ^ 23 * 2 ^ 21

/-- The physical address of its first byte, in the memory of the die. -/
def islePa (d place : Nat) : Nat := d * 2 ^ 46 + place * 2 ^ 37 + Config.isleFrame d place % 2 ^ 15 * 2 ^ 21

/-- The frames for the root array and the tables of a place. -/
def isleTable (d place k : Nat) : Nat := d * 2 ^ 46 + 3 * 2 ^ 37 + Config.isleFrame d 3 % 2 ^ 10 * 2 ^ 26 + place * 2 ^ 24 + k * 4096

/-- Where the flows of an image start (R512). -/
def isleStart (d place : Nat) (bs : List Byte) : Nat := (isleVa d place + (imageEntry bs).getD 0) % 2 ^ 48

/-- The table that an entry names; an entry that names none is given an empty one in a frame. -/
def State.tableAt (s : State) (entry frame : Nat) : State × Nat :=
  let v := s.tableWord entry
  if bit v 0 && bits v 11 1 == 0 then (s, bits v 51 12 * 4096)
  else ((s.poke frame (List.replicate 4096 0) false none).poke entry (bytesOfNat 8 (frame + 1)) false none, frame)

/-- Page k of 2 MiB of an image is mapped for the stewards of the die (R221, R222): readable, writable and executable by them alone. -/
def State.mapIsle (s : State) (d place k : Nat) : State :=
  let va := isleVa d place + k * 2 ^ 21
  let (s, t0) := s.tableAt (s.die d).walkRoot (isleTable d place 16)
  let (s, t1) := s.tableAt (tableEntry va t0 0 false) (isleTable d place (17 + (va / 2 ^ 39 - isleVa d place / 2 ^ 39)))
  let (s, t2) := s.tableAt (tableEntry va t1 1 false) (isleTable d place (32 + (va / 2 ^ 30 - isleVa d place / 2 ^ 30)))
  s.poke (tableEntry va t2 2 false) (bytesOfNat 8 (islePa d place + k * 2 ^ 21 + 0xFB)) false none

/-- The NATIVE section of an image is placed for the stewards of a die, and is visible to them (R162, R495, R512). -/
def State.placeImage (s : State) (d place : Nat) (bs : List Byte) : State :=
  let code := imageCode bs
  let s := (List.range ((code.length + 2 ^ 21 - 1) / 2 ^ 21)).foldl (fun s k => s.mapIsle d place k) (s.poke (islePa d place) code false none)
  (s.dropTlb d (fun t => t.asid == 0)).flushCode d 0 (isleVa d place) code.length

/-- A steward flow that starts at an address. -/
def Wave.flowAt (addr : Nat) : Wave := { Wave.reset with live := 1, counter := [(0, addr)] }

/-- A steward flow is replaced: a `dstep` of it ends without effect, and its reservations and requests go (R402, R438). -/
def State.stopFlow (s : State) (f : Flow) : State :=
  let s := match s.dstep with
    | some d => if d.steward = f then s.finishStep d 5 else s
    | none => s
  s.forgetFlow f

/-- An image starts on the steward cores of a die other than one, from its place (R437, R438, R495). -/
def State.startImage (s : State) (d place but : Nat) (bs : List Byte) : State :=
  let s := ((([0, 1, 2, 3] : List Nat).filter (· != but)).map (fun k => Flow.steward d k)).foldl (fun s f => s.stopFlow f) (s.placeImage d place bs)
  (s.modMonitor d (fun m => { m with image := some bs })).modDie d (fun q =>
    { q with stewards := [0, 1, 2, 3].foldl (fun t k => if k = but then t else t.set k (Wave.flowAt (isleStart d place bs))) q.stewards })

/-- ISLE_SWITCH (R437). -/
def State.isleSwitch (s : State) (d st slot us : Nat) : State × Nat :=
  let m := (s.die d).monitor
  if 1 < slot ∨ us < 1 ∨ 1000000 < us then (s, 0x8000000000000001)
  else if slot = m.running then (s, 0x8000000000000002)
  else if !(s.isles.get slot).any (fun bs => s.imageStatus d bs == 0) then (s, 0x8000000000000003)
  else if m.heartbeat.isSome then (s, 0x8000000000000004)
  else
    let s := s.modMonitor d (fun m => { m with running := slot, previous := m.running, heartbeat := some (s.now + us), switcher := st })
    (s.startImage d slot st ((s.isles.get slot).getD []), m.running)

/-- The heartbeat expires (R438): the die rolls back to the previous slot, with its queues QUIESCED. -/
def State.rollBack (s : State) (d : Nat) : State :=
  let m := (s.die d).monitor
  if m.heartbeat.isNone then s
  else
    let s := s.modMonitor d (fun m => { m with running := m.previous, heartbeat := none })
    let s := s.startImage d m.previous m.switcher ((s.isles.get m.previous).getD [])
    let s := (s.queues.filter (fun e => e.2.die == d && e.2.state != 0)).foldl (fun s e => s.queueTo e.1 3 0) s
    (s.report d 2 m.previous).raiseEvent d 4

/-- HEARTBEAT (R437, R438, R514): an expiry in the same cycle is served first. -/
def State.feed (s : State) (d : Nat) : State × Nat :=
  match (s.die d).monitor.heartbeat with
  | none => (s, 1)
  | some t =>
    if t ≤ s.now then (s.rollBack d, 1)
    else (State.raiseEvent { s.modMonitor d (fun m => { m with heartbeat := none }) with bootSlot := (s.die d).monitor.running } d 4, 0)

/-- The units of a die are powered (R499). -/
def State.dieOn (s : State) (d : Nat) : Bool := s.power != .burrow || d == s.awakeDie

/-- HEARTBEAT_TIMEOUT (R438). -/
def execHeartbeatTimeout (die : Nat) (s : State) : Out :=
  .next <| match (s.die die).monitor.heartbeat with
    | none => s
    | some t => if s.dieOn die then State.rollBack { s with now := max s.now t } die else s

/-- A `moncall` (R437): the monitor acts on A and B, and its result is written. -/
def moncallPlan (service : State → Issuer → Nat → Nat → State × Nat) (s : State) (e : Issuer) : Except Hold Plan :=
  let a := (s.srcA e e.lead).toNat
  let b := (s.srcB e e.lead).toNat
  let result := BitVec.ofNat 64 (service s e a b).2
  let pl := resultPlan e none false (fun _ _ => wordsOf result) (fun _ _ => {})
  .ok { pl with commit := fun run s => pl.commit run (service s e a b).1 }

/-- The steward core of a flow. -/
def stewardCore : Flow → Nat
  | .steward _ t => t
  | .wave _ _ => 0

/-- `moncall` VERSION (R437). -/
def execMonitorVersion (x : XArgs) (s : State) : Out := perform (.monitorVersion x) (moncallPlan (fun s _ _ _ => (s, 0x10000))) s

/-- `moncall` IMAGE_VERIFY (R437). -/
def execImageVerify (x : XArgs) (s : State) : Out := perform (.imageVerify x) (moncallPlan (fun s e a b => s.imageVerify (flowDie e.f) a b)) s

/-- `moncall` IMAGE_MEASURE (R437). -/
def execImageMeasure (x : XArgs) (s : State) : Out := perform (.imageMeasure x) (moncallPlan (fun s e a _ => s.imageMeasure (flowDie e.f) a)) s

/-- `moncall` ISLE_WRITE (R437). -/
def execIsleWrite (x : XArgs) (s : State) : Out := perform (.isleWrite x) (moncallPlan (fun s e a _ => s.isleWrite (flowDie e.f) a)) s

/-- `moncall` ISLE_SWITCH (R437). -/
def execIsleSwitch (x : XArgs) (s : State) : Out := perform (.isleSwitch x) (moncallPlan (fun s e a b => s.isleSwitch (flowDie e.f) (stewardCore e.f) a b)) s

/-- `moncall` HEARTBEAT (R437). -/
def execHeartbeat (x : XArgs) (s : State) : Out := perform (.heartbeat x) (moncallPlan (fun s e _ _ => s.feed (flowDie e.f))) s

/-- `moncall` FUSE_SVN (R437). -/
def execFuseSvn (x : XArgs) (s : State) : Out := perform (.fuseSvn x) (moncallPlan (fun s e _ _ => (s, s.fuse (flowDie e.f)))) s

/-- `moncall` with any other number (R437). -/
def execMoncallUnknown (x : XArgs) (s : State) : Out := perform (.moncallUnknown x) (moncallPlan (fun s _ _ _ => (s, 2 ^ 64 - 1))) s

end Sys2Proof.Machine
end

