-- ==== Sys2Proof/Machine/System.lean ====
section
/-! DEFINITION. Traps on purpose and their return, code visibility, steward events and translations (R297 to R299, R426 to R428, R434, R435, R439, R440 of
spec/23_ref_engines_system.md, R162, R163, R229). -/

namespace Sys2Proof.Machine

/-! ### Traps and returns (R426 to R428) -/

/-- `trap` (R426): SOFTWARE with SUB its number, for the issuing run. -/
def execTrap (x : XArgs) (s : State) : Out := perform (.trap x) (fun _ _ => .error (.trap { code := 0x13, sub := x.immBits 7 0 })) s

/-- `brk` (R426): BREAKPOINT, for the issuing run. -/
def execBrk (x : XArgs) (s : State) : Out := perform (.brk x) (fun _ _ => .error (.trap { code := 0x14 })) s

/-- TPC names an instruction of a clause, and the trap was precise: `tret.skip` passes that instruction (R299). -/
def TrapRegs.skips (r : TrapRegs) : Bool := bits r.pc.toNat 51 48 != 0 && !r.imprecise

/-- A return from a trap (R299, R427), with or without the instruction at TPC. -/
def State.trapReturn (s : State) (e : Issuer) (skip : Bool) : State :=
  if skip && e.w.trap.skips then (s.returnFromTrap e.f).skipInstruction e.f else s.returnFromTrap e.f

/-- A return from a trap, after which a wave with no live thread ends (R427). -/
def returnPlan (skip : Bool) (e : Issuer) : Plan := { latch := none, commit := fun _ s => s.trapReturn e skip, after := fun s => s.tryEnd e.f }

/-- `tret` (R299, R427). -/
def execTret (x : XArgs) (s : State) : Out := perform (.tret x) (fun _ e => .ok (returnPlan false e)) s

/-- `tret.skip` (R299, R427): the run goes on after the instruction at TPC. -/
def execTretSkip (x : XArgs) (s : State) : Out := perform (.tretSkip x) (fun _ e => .ok (returnPlan true e)) s

/-! ### Code visibility (R162, R163, R434, R435) -/

/-- `isync` (R434): clauses fetched and not yet issued are discarded. The machine fetches a clause only when it starts it, so none is held. -/
def execIsync (x : XArgs) (s : State) : Out := perform (.isync x) (fun _ _ => .ok {}) s

/-- `iflush` (R435). -/
def execIflush (x : XArgs) (s : State) : Out :=
  perform (.iflush x) (fun s e =>
    let start := (s.srcA e e.lead).toNat
    let len := (lo32 (s.srcB e e.lead)).toNat
    let last := start + len - 1
    if 2 ^ 48 ≤ start then .error (.trap { code := 0x05, addr := start })
    else if len ≠ 0 ∧ 2 ^ 48 ≤ last then .error (.trap { code := 0x05, addr := last })
    else .ok { commit := fun _ t => t.flushCode (flowDie e.f) (s.asidOf e.f) start len }) s

/-! ### Steward events (R439) -/

/-- The pending events of a steward flow. -/
def State.eventsOf (s : State) (f : Flow) : Nat :=
  match f with
  | .steward d t => (s.die d).events.getD t 0
  | .wave _ _ => 0

/-- The set of pending events is taken. -/
def State.takeEvents (s : State) (f : Flow) : State :=
  match f with
  | .steward d t => s.modDie d (fun q => { q with events := q.events.set t 0 })
  | .wave _ _ => s

/-- `wfi` (R439): it waits until an event is pending, and takes the set. -/
def execWfi (x : XArgs) (s : State) : Out :=
  perform (.wfi x) (fun s e =>
    let v := s.eventsOf e.f
    if v = 0 then .error (.held s) else .ok (statusPlan s e v (fun t => t.takeEvents e.f))) s

/-! ### Invalidating translations (R229, R440) -/

/-- The dies that a mask names and that are reached (R440). -/
def State.maskedDies (s : State) (from_ mask : Nat) : List Nat := (List.range 4).filter (fun d => bit mask d && !s.skipsDie from_ d)

/-- Drop from the TLBs of the masked dies the translations that a test picks, after the release fence of R229. -/
def tlbPlan (x : XArgs) (pick : State → Issuer → Translation → Bool) (s : State) (e : Issuer) : Except Hold Plan :=
  let dies := s.maskedDies (flowDie e.f) (s.srcB e e.lead).toNat
  let p := pick s e
  if x.immBits 1 0 ≠ 0 ∧ x.immBits 11 2 = 0 then .error (.trap .illegal)
  else .ok { commit := fun run t => dies.foldl (fun t d => t.dropTlb d p) (t.fenceRun e.f run (some 4) none) }

/-- `tlbinv.all` (R440). -/
def execTlbinvAll (x : XArgs) (s : State) : Out := perform (.tlbinvAll x) (tlbPlan x (fun _ _ _ => true)) s

/-- `tlbinv.asid` (R440). -/
def execTlbinvAsid (x : XArgs) (s : State) : Out := perform (.tlbinvAsid x) (tlbPlan x (fun _ _ t => t.asid == x.immBits 11 2)) s

/-- `tlbinv.range` (R440): entries of the ASID that map any byte of the range. -/
def execTlbinvRange (x : XArgs) (s : State) : Out :=
  perform (.tlbinvRange x) (tlbPlan x (fun s e t =>
    let start := (s.srcA e e.lead).toNat
    let len := 4096 * (lo32 (s.srcC e e.lead)).toNat
    t.asid == x.immBits 11 2 && len != 0 && t.va < start + len && start < t.va + t.size)) s

end Sys2Proof.Machine
end

