-- ==== Sys2Proof/Machine/Loader.lean ====
section
/-! DEFINITION. Loading a Strata container (R490 to R494 of spec/26_compatibility_and_loading.md). -/

namespace Sys2Proof.Machine

/-- The leaf that maps an address, unless it is poisoned: every access through such a leaf faults (R225, R236). Its entry, the entry's value, and the physical address. -/
def State.goodLeaf (s : State) (die asid va : Nat) : Option (Nat × Nat × Nat) :=
  match s.walk die asid va with
  | .leaf entry base _ pa pte => if bit pte 9 then none else some (entry, pte, pa + (va - base))
  | .fault _ => none

/-- Bytes at virtual addresses of an ASID, as the steward of a die reads them: page by page; none where a page is not mapped or is poisoned, or a line of it is. -/
def State.readVa (s : State) (die asid va n : Nat) : Nat → Option (List Byte)
  | 0 => if n = 0 then some [] else none
  | fuel + 1 =>
    if n = 0 then some []
    else
      let k := min n (4096 - va % 4096)
      match s.goodLeaf die asid va with
      | none => none
      | some (_, _, pa) =>
        if !s.readable pa k || s.accessBad die pa 1 .load || 2 ^ 48 ≤ va then none
        else (s.readVa die asid (va + k) (n - k) fuel).map (fun rest => s.bytes pa k ++ rest)

/-- Every byte of a range of virtual addresses, or none. -/
def State.stewardRead (s : State) (die asid va n : Nat) : Option (List Byte) := s.readVa die asid va n (n / 4096 + 2)

/-- The steward's reads of a range set A in the leaves that its walks reach (R224). -/
def State.touchRead (s : State) (die asid va n : Nat) : State :=
  if n = 0 then s
  else (List.range ((va + n - 1) / 4096 - va / 4096 + 1)).foldl (fun s k =>
    match s.goodLeaf die asid (max va ((va / 4096 + k) * 4096)) with
    | some (entry, pte, _) => (s.touchLeaf entry pte false).1
    | none => s) s

/-- The blocks of 16 bytes of a write, each with its offset: what a barrier or a chain owns begins and ends with a block (R209, R277). -/
def blocksOf (pa : Nat) (bs : List Byte) : List (Nat × List Byte) :=
  let first := min bs.length (16 - pa % 16)
  (0, bs.take first) :: (List.range ((bs.length - first + 15) / 16)).map (fun k => (first + 16 * k, ((bs.drop (first + 16 * k)).take 16)))

/-- Bytes of a context that the firmware writes over bytes that may be owned: only the blocks that no server owns are written (R211, R280). -/
def State.agentFill (s : State) (die asid pa : Nat) (bs : List Byte) : State :=
  if s.ownedBytes pa bs.length then (blocksOf pa bs).foldl (fun s b => s.agentPoke die asid (pa + b.1) b.2 none) s else s.poke pa bs false none

/-- Where the firmware writes code, or an empty TYPE, for a context, whatever the rights of the page: SNAP is served first (R193), and A and D are set (R224). -/
def State.agentPage (s : State) (die ctx asid va : Nat) : State × Option Nat :=
  match s.goodLeaf die asid va with
  | none => (s, none)
  | some (_, pte, _) =>
    let s := if bit pte 8 then s.serveSnap die ctx asid va else s
    match s.goodLeaf die asid va with
    | none => (s, none)
    | some (entry, pte, pa) => ((s.touchLeaf entry pte true).1, some pa)

/-- Bytes written at virtual addresses of a context by the steward of a die: none where a page is not mapped, or is poisoned. -/
def State.writeVa (s : State) (die ctx asid va : Nat) (bs : List Byte) : Nat → Option State
  | 0 => if bs = [] then some s else none
  | fuel + 1 =>
    if bs = [] then some s
    else
      let k := min bs.length (4096 - va % 4096)
      match s.agentPage die ctx asid va with
      | (_, none) => none
      | (s, some pa) =>
        if 2 ^ 48 ≤ va || paSpace pa != 0 || s.accessBad die pa 1 .store then none
        else (s.agentFill die asid pa (bs.take k)).writeVa die ctx asid (va + k) (bs.drop k) fuel

/-- The answers of CODE_LOAD that refuse (R494). -/
def loadRefusal (k : Nat) : Nat := 2 ^ 63 + k

/-- The code that a load registers (R490): its bytes, its tag, and its functions by offset; with the translation to cache, if one was made. -/
structure Loaded where
  code : List Byte
  tag : Nat
  entries : List FuncEntry
  cache : Option Translated

/-- The bytes of a FUNCS entry (R486). -/
def FuncEntry.bytes (f : FuncEntry) : List Byte := f.ranks ++ bytesOfNat 8 f.entry ++ bytesOfNat 8 f.pairs ++ f.name

/-- The tag under which the monitor seals a translation (R492): KMAC256 over its parts, under the module's translation key (log 13). -/
def Translated.sealOf (t : Translated) : List Byte :=
  kmac256 Config.translationKey (t.digest ++ bytesOfNat 4 t.tag ++ bytesOfNat 4 t.svn ++ t.code ++ t.entries.flatMap FuncEntry.bytes) []

/-- A translation's seal is good. -/
def Translated.sound (t : Translated) : Bool := t.mac == t.sealOf

/-- A cached translation is for a container, by its digest, and for this device (R490). -/
def Translated.is (t : Translated) (digest : List Byte) : Bool := t.digest == digest && t.tag == 0x04040011

/-- Steps 2 to 5 of a load (R490, R492). -/
def State.chooseCode (s : State) (bs : List Byte) : Option Loaded :=
  let c := containerOf bs
  let digest := shake256 bs
  let native := (sectionOf bs 4).map (fun x => x.bytes bs)
  match s.translations.find? (fun t => t.is digest && t.sound) with
  | some t => some { code := t.code, tag := t.tag, entries := t.entries, cache := none }
  | none =>
    match native, (if c.tag = 0x04040011 then native else none) with
    | _, some code => some { code, tag := c.tag, entries := functionsOf (sectionOf bs 6) bs 0, cache := none }
    | n, none =>
      match translated bs with
      | some (code, entries) =>
        let t : Translated := { digest, tag := 0x04040011, svn := c.svn, code, entries, mac := [] }
        some { code, tag := 0x04040011, entries, cache := some { t with mac := t.sealOf } }
      | none => n.map (fun code => { code, tag := c.tag, entries := functionsOf (sectionOf bs 6) bs 0, cache := none })

/-- CODE_LOAD (R490, R493, R494) for a context at a base address that the firmware chooses: the state and the answer. -/
def State.codeLoad (s : State) (die ctx a b base : Nat) : State × Nat :=
  match (s.contexts.get ctx).bind (fun c => c.asid) with
  | none => (s, loadRefusal 1)
  | some asid =>
    match s.stewardRead die asid a b with
    | none => (s, loadRefusal 1)
    | some bs =>
      let c := containerOf bs
      let s := s.touchRead die asid a b
      if !containerGood bs then (s, loadRefusal 1)
      else if !(s.signers.get c.keyId).any (fun key => signedBy key bs) then (s, loadRefusal 2)
      else if c.svn < s.fuse die then
        ({ s with translations := s.translations.filter (fun t => s.fuse die ≤ t.svn) }, loadRefusal 3)
      else
        let digest := shake256 bs
        let found := s.chooseCode bs
        let s := { s with translations := s.translations.filter (fun t => !t.is digest || t.sound) }
        match found with
        | none => (s, loadRefusal 4)
        | some x =>
          if base % 64 ≠ 0 ∨ 2 ^ 48 < base + x.code.length then (s, loadRefusal 5)
          else
            match s.writeVa die ctx asid base x.code (x.code.length / 4096 + 2) with
            | none => (s, loadRefusal 5)
            | some t =>
              let t := t.flushCode die asid base x.code.length
              let o : CodeObject := { context := ctx, va := base, length := x.code.length, tag := x.tag, narrow := c.narrow,
                                      entries := x.entries.map (fun f => { f with entry := (base + f.entry) % 2 ^ 64 }) }
              ({ t with codes := t.codes.set (t.codes.free 0 t.codes.length) o, translations := t.translations ++ x.cache.toList }, base)

end Sys2Proof.Machine
end

