-- ==== Sys2Proof/Machine/Firmware.lean ====
section
/-! DEFINITION. The scheduler firmware of the stewards: queues and their packets, requests, `ecall` answers, launch records and their checks (R165, R177 to R191, R196 of
spec/10_queue.md and spec/11_kernel.md, R436, R439). -/

namespace Sys2Proof.Machine

/-! ### The descriptor (R177) -/

/-- The descriptor as the firmware keeps it. -/
def Queue.bytes (q : Queue) (wridx : Nat) : List Byte :=
  bytesOfNat 8 q.base ++ bytesOfNat 1 q.size ++ bytesOfNat 1 q.prio ++ bytesOfNat 1 q.state ++ bytesOfNat 1 q.cause ++ bytesOfNat 4 0 ++ bytesOfNat 8 wridx
    ++ bytesOfNat 8 q.rdidx ++ bytesOfNat 8 q.resetAt ++ bytesOfNat 8 q.trace ++ bytesOfNat 16 0

/-- The fields of a descriptor are rewritten from the firmware's own, all but WRIDX (R177). -/
def State.rewrite (s : State) (n : Nat) : State :=
  match s.queues.get n with
  | none => s
  | some q =>
    let bs := q.bytes (s.wridx q)
    if s.bytes q.descPa 64 = bs then s
    else ((s.poke q.descPa (bs.take 16) false none).poke (q.descPa + 24) (bs.drop 24) false none)

/-- Change a queue, and its descriptor with it. -/
def State.setQueue (s : State) (n : Nat) (g : Queue → Queue) : State := (s.modQueue n g).rewrite n

/-! ### Trace sessions (R183, R184, R463) -/

/-- A launch belongs to a queue. -/
def State.launchOfQueue (s : State) (n launch : Nat) : Bool := (s.launches.get launch).any (fun l => l.queue == n)

/-- Another queue's session records on a core too: the core writes one stream for all its marked waves (R463). -/
def State.sharesTrace (s : State) (n core : Nat) : Bool := s.queues.any (fun q => q.1 != n && q.2.trace != 0 && q.2.traceCores.contains core)

/-- The launches of a queue, and their waves wherever they stand, are traced no more (R184). -/
def State.unmark (s : State) (n : Nat) : State :=
  let off (t : Tab Wave) : Tab Wave := t.mapVal (fun _ w => if s.launchOfQueue n w.launch then { w with traced := false } else w)
  { s with
    launches := s.launches.mapVal (fun _ l => if l.queue = n then { l with traced := false } else l)
    cores := s.cores.mapVal (fun _ q => { q with waves := off q.waves, shadow := q.shadow.map (fun i => { i with waves := off i.waves }) })
    saves := s.saves.mapVal (fun _ i => { i with waves := off i.waves }) }

/-- The session of a queue closes with a last record of a type on each of its cores (R183, R185), whose stream ends there unless another session records on it (log 101). -/
def State.closeSession (s : State) (n type : Nat) : State :=
  match s.queues.get n with
  | none => s
  | some q =>
    if q.trace = 0 then s
    else
      let s := q.traceCores.foldl (fun s c => if s.sharesTrace n c then s.traceLast c type else s.traceEnd c type) s
      (s.setQueue n (fun q => { q with trace := 0, traceSize := 0, traceCores := [] })).unmark n

/-- A session number that no queue has: the firmware's own choice, or the least free one (R184). -/
def State.freeSession (s : State) (choice : Nat) : Nat :=
  let taken (k : Nat) : Bool := s.queues.any (fun q => q.2.trace == k)
  let id := choice % (2 ^ 32 - 1) + 1
  if taken id then (((List.range (s.queues.length + 1)).map (· + 1)).find? (fun k => !taken k)).getD id else id

/-! ### Quiesce, resume and reset (R181, R182) -/

/-- A request refused by a queue's state (R185). -/
def badState : Nat := 0x8000000000000001

/-- Tear down a launch that has not completed: its groups go without spill (R190). -/
def State.tearLaunch (s : State) (n : Nat) : State := if (s.launches.get n).any Launch.open then (s.dropLaunch n).endLaunch n .torn else s

/-- A byte written by the steward at a virtual address of a queue's context, where it is mapped. -/
def State.putCtxByte (s : State) (die ctx va : Nat) (v : Byte) : State :=
  match (s.contexts.get ctx).bind (fun c => c.asid) with
  | none => s
  | some asid =>
    match s.agentPage die ctx asid va with
    | (s, some pa) => s.agentPoke die asid pa [v] none
    | (_, none) => s

/-- Change a wave of a context's image on a core, wherever the image stands (R168); without a context, a flow as it stands. -/
def State.modImageWave (s : State) (f : Flow) (ctx : Option Nat) (g : Wave → Wave) : State :=
  match f, ctx with
  | .wave c k, some x =>
    if (s.core c).context = some x ∧ !(s.core c).swapping then s.modFlow f g
    else if (s.core c).shadow.any (fun i => i.context == x) then
      s.modCore c (fun q => { q with shadow := q.shadow.map (fun i => { i with waves := i.waves.upd k g }) })
    else match (s.contexts.get x).bind (fun y => y.areas.get c) with
      | some pa => { s with saves := s.saves.upd pa (fun i => { i with waves := i.waves.upd k g }) }
      | none => s
  | _, _ => s.modFlow f g

/-- An `ecall` is answered: the value waits for its wave (R436). -/
def State.giveAnswer (s : State) (f : Flow) (ctx : Option Nat) (v : Nat) : State :=
  s.modImageWave f ctx (fun w => if w.park = some .ecall then { w with park := some (.answered (BitVec.ofNat 64 v)) } else w)

/-- A record of a die's host mailbox that its firmware has not answered yet (R185): its 32 bytes. -/
def State.mailboxRecord (s : State) (die record : Nat) : Option (List Byte) :=
  let r := Memory.read (s.die die).mailbox (32 * record) 32
  if field r 25 1 = 1 then some r else none

/-- The firmware writes the answer of a mailbox record, and clears OWNER (R185). -/
def State.answerMailbox (s : State) (die record v : Nat) : State :=
  let o := 32 * record
  s.modDie die (fun q => { q with mailbox := Memory.write (Memory.write q.mailbox (o + 16) (bytesOfNat 8 v)) (o + 25) [0] })

/-- The requests of waves at the stewards of the four dies that ask a service of a queue: die, number, flow and context. -/
def State.queueCalls (s : State) (n service : Nat) : List (Nat × Nat × Flow × Option Nat) :=
  ([0, 1, 2, 3] : List Nat).flatMap (fun d => (s.die d).requests.filterMap (fun e =>
    match e.2 with
    | .ecall f ctx m a _ _ => if m = service ∧ a.toNat = n then some (d, e.1, f, ctx) else none
    | _ => none))

/-- The records of the host at the stewards of the four dies that ask a service of a queue: die and record. -/
def State.queueRecords (s : State) (n service : Nat) : List (Nat × Nat) :=
  ([0, 1, 2, 3] : List Nat).flatMap (fun d => ((List.range 8).filter (fun k => (s.mailboxRecord d k).any (fun r => field r 24 1 == service && field r 0 8 == n))).map (fun k => (d, k)))

/-- A reset request for a queue waits, from a steward flow, the host or a program (R181, R185). -/
def State.resetPending (s : State) (n : Nat) (q : Queue) : Bool := q.asked == some 5 || !(s.queueRecords n 0x22).isEmpty || !(s.queueCalls n 0x22).isEmpty

/-- The requests of a service that wait for a queue are answered with a value. -/
def State.answerAll (s : State) (n service v : Nat) : State :=
  let s := (s.queueRecords n service).foldl (fun s r => s.answerMailbox r.1 r.2 v) s
  (s.queueCalls n service).foldl (fun s r => (s.modDie r.1 (fun q => { q with requests := q.requests.del r.2.1 })).giveAnswer r.2.2.1 r.2.2.2 v) s

/-- A reset discards the quiesce and resume requests that wait with it: the queue's state allows them no more (R181, R185). -/
def State.discardAsked (s : State) (n : Nat) : State :=
  ((s.answerAll n 0x20 badState).answerAll n 0x21 badState).modQueue n (fun q => { q with asked := none })

/-- RESET (R182). What the spec leaves open: a WAIT held is dropped and its signal not stored, and RDIDX never falls (log 102). -/
def State.resetQueue (s : State) (n : Nat) : State :=
  match s.queues.get n with
  | none => s
  | some q =>
    let upto := s.wridx q
    let s := (s.discardAsked n).setQueue n (fun q => { q with state := 5, resetAt := upto, held := none })
    let s := (s.launches.filter (fun e => e.2.queue == n)).foldl (fun s e => s.tearLaunch e.1) s
    let s := (List.range (upto - q.rdidx)).foldl (fun s k => s.putCtxByte q.die q.context (q.slotVa (q.rdidx + k)) 0) s
    let s := s.setQueue n (fun q => { q with rdidx := max q.rdidx upto })
    let s := s.closeSession n 0x07
    s.setQueue n (fun q => { q with state := 1, cause := 0, readySince := none })

/-- A service of the table of R185 on a queue: the state and the answer. A quiesce or resume request is discarded where a reset waits with it (R181). `size` is the session
buffer's, and `choice` a number of the firmware's own. -/
def State.queueService (s : State) (n service size choice : Nat) : State × Nat :=
  match s.queues.get n with
  | none => (s, badState)
  | some q =>
    match service with
    | 0x20 => if q.state = 1 ∧ !s.resetPending n q then (s.setQueue n (fun q => { q with state := 2 }), 0) else (s, badState)
    | 0x21 => if q.state = 3 ∧ !s.resetPending n q then ((s.giveAsid q.context).setQueue n (fun q => { q with state := 1 }), 0) else (s, badState)
    | 0x22 => if q.state = 0 then (s, badState) else ((s.giveAsid q.context).resetQueue n, 0)
    | 0x23 =>
      let id := s.freeSession choice
      if q.state = 0 ∨ q.state = 5 ∨ q.trace ≠ 0 then (s, badState) else (s.setQueue n (fun q => { q with trace := id, traceSize := size % 16, traceCores := [] }), id)
    | _ => if q.trace = 0 then (s, badState) else (s.closeSession n 0x06, 0)

/-- A service as the firmware of a die answers it (R185, R436, R494). `ctx` is the caller's context, none for the host. -/
def State.service (s : State) (die : Nat) (ctx : Option Nat) (n a b choice : Nat) : State × Nat :=
  if 0x20 ≤ n ∧ n ≤ 0x24 then
    if ctx.isSome && (s.queues.get a).any (fun q => some q.context != ctx) then (s, 0x8000000000000002) else s.queueService a n b choice
  else match n, ctx with
    | 0x10, some c => s.codeLoad die c a b choice
    | _, _ => (s, 2 ^ 64 - 1)

/-! ### `ecall` answers (R436) -/

/-- The scheduler firmware of a die runs (R303, R478, R496). -/
def State.firmwareRuns (s : State) (d : Nat) : Bool := s.power == .running && !(s.die d).frozen && !(s.die d).fenceSelf

/-- A service comes to the firmware that performs it (R185): the steward's own, and of a service on a queue that of the queue's serving die, to which it is passed on. -/
def State.servedAt (s : State) (die n a : Nat) : Bool :=
  s.firmwareRuns die && (!(0x20 ≤ n && n ≤ 0x24) || (s.queues.get a).all (fun q => q.die == die || (s.firmwareRuns q.die && !s.unreachable die q.die)))

/-- The service of an answer: a load takes its base address, and a bind its session number, from the firmware's answer. A request whose firmware does not run waits. -/
def State.answerRequest (s : State) (die request : Nat) (answer : DWord) : State :=
  match (s.die die).requests.get request with
  | some (.ecall f ctx n a b _) =>
    if !s.servedAt die n a.toNat then s
    else
      let s := s.modDie die (fun q => { q with requests := q.requests.del request })
      let (s, v) := s.service die ctx n a.toNat b.toNat answer.toNat
      s.giveAnswer f ctx v
  | _ => s

/-- ECALL_ANSWER (R436). -/
def execEcallAnswer (die request : Nat) (answer : DWord) (s : State) : Out := .next (s.answerRequest die request answer)

/-! ### The host mailbox (R185) -/

/-- The host reaches the device registers of a die (R15, R110): the die and one of the host's two ports are not fenced. -/
def State.barOpen (s : State) (die : Nat) : Bool := !(s.die die).fenceSelf && !((s.die 0).fenceSelf && (s.die 2).fenceSelf)

/-- HOST_MAILBOX_REQUEST (R185): the host writes a record and then its OWNER, which raises event bit 0; a write to a die that it does not reach is lost (R15). -/
def execHostMailboxRequest (die record : Nat) (service : Byte) (a b : DWord) (s : State) : Out :=
  let o := 32 * (record % 8)
  .next (if !s.barOpen die then s else (s.modDie die (fun q => { q with
    mailbox := Memory.write q.mailbox o (bytesOfNat 8 a.toNat ++ bytesOfNat 8 b.toNat ++ (Memory.read q.mailbox (o + 16) 8) ++ [service, 1] ++ List.replicate 6 0) })).raiseEvent die 0)

/-- The firmware answers a record whose OWNER is 1 and whose service a test picks, and clears OWNER. -/
def State.serveMailbox (s : State) (die record : Nat) (p : Nat → Bool) : State :=
  match s.mailboxRecord die record with
  | none => s
  | some r =>
    if !p (field r 24 1) || !s.servedAt die (field r 24 1) (field r 0 8) then s
    else
      -- OWNER is cleared first, so that the record's own request is none of those that wait
      let (t, v) := State.service { (s.answerMailbox die record 0) with fresh := s.fresh + 1 } die none (field r 24 1) (field r 0 8) (field r 8 8) (Config.firmwareChoice s.fresh)
      t.answerMailbox die record v

/-! ### Packets (R178 to R180, R186) -/

/-- A packet as the firmware reads it. -/
structure Packet where
  number : Nat
  type : Nat
  barrier : Bool
  signal : Option (Nat × DWord)
  addr : Nat
  arg : Nat
  good : Bool

/-- Read a packet (R179, R180). -/
def packetOf (number : Nat) (bs : List Byte) : Packet :=
  let type := field bs 0 1
  let flags := field bs 1 1
  let sig := bit flags 1
  { number, type, barrier := bit flags 0, signal := if sig then some (field bs 24 8, BitVec.ofNat 64 (field bs 32 8)) else none, addr := field bs 8 8, arg := field bs 16 8,
    good := (type == 1 || type == 2 || type == 3) && flags / 4 == 0 && field bs 2 6 == 0 && (List.range 24).all (fun k => field bs (40 + k) 1 == 0)
      && (!sig || field bs 24 8 % 8 == 0) && (type == 2 || field bs 16 8 == 0) && (type != 3 || field bs 8 8 == 0) }

/-- The packet at the head of a queue: none where there is none, or where its slot cannot be read. -/
def State.head (s : State) (q : Queue) : Option Packet :=
  match (s.contexts.get q.context).bind (fun c => c.asid) with
  | none => none
  | some asid => (s.stewardRead q.die asid (q.slotVa q.rdidx) 64).bind (fun bs => if field bs 0 1 = 0 then none else some (packetOf q.rdidx bs))

/-- Every earlier packet of a queue has passed (R179): its launches have triggered or are final, and no WAIT is held. -/
def State.passed (s : State) (n : Nat) (q : Queue) : Bool := q.held.isNone && s.launches.all (fun e => e.2.queue != n || !e.2.open || e.2.triggered)

/-- A queue from which its firmware takes packets. -/
def State.takes (s : State) (q : Queue) : Bool :=
  q.state == 1 && q.held.isNone && s.firmwareRuns q.die
    && (s.contexts.get q.context).any (fun c => (c.state == .created || c.state == .live) && c.asid.isSome)

/-- The packet that a queue's firmware may start now. -/
def State.ready (s : State) (n : Nat) : Option (Queue × Packet) :=
  match s.queues.get n with
  | none => none
  | some q => if !s.takes q then none else (s.head q).bind (fun p => if p.good && (!p.barrier || s.passed n q) then some (q, p) else none)

/-- A packet that breaks R180 leaves its queue in ERROR. -/
def State.rejectBad (s : State) (n : Nat) : State :=
  match s.queues.get n with
  | none => s
  | some q => if s.takes q && (s.head q).any (fun p => !p.good) then s.queueError n 0x01 else s

/-- Take a packet: its TYPE is cleared and RDIDX is raised (R178). -/
def State.take (s : State) (n : Nat) (q : Queue) (p : Packet) : State :=
  let s := match (s.contexts.get q.context).bind (fun c => c.asid) with
    | some asid => s.touchRead q.die asid (q.slotVa p.number) 64
    | none => s
  (s.putCtxByte q.die q.context (q.slotVa p.number) 0).setQueue n (fun q => { q with rdidx := (q.rdidx + 1) % 2 ^ 64, readySince := none })

/-- A queue's head LAUNCH packet is ready to start, and was not before (R186). -/
def State.newlyReady (s : State) (n : Nat) (q : Queue) : Bool := q.readySince.isNone && (s.ready n).any (fun r => r.2.type == 1)

/-- Note since when each head LAUNCH packet has been ready, and in which order they became so (R186, log 25): at the beginning of every step. -/
def State.noteReady (s : State) : State :=
  if s.queues.any (fun e => s.newlyReady e.1 e.2) then
    { s with passes := s.passes + 1, queues := s.queues.mapVal (fun n q => if s.newlyReady n q then { q with readySince := some s.now, readyPass := s.passes } else q) }
  else s

/-- The effective priority of a packet that has been ready since a time (R186). -/
def State.aged (s : State) (prio since : Nat) : Nat := if prio = 7 then 7 else min 6 (prio + (s.now - since) / 2000)

/-- The effective priority of a head LAUNCH packet (R186). -/
def State.priority (s : State) (q : Queue) : Nat := s.aged q.prio (q.readySince.getD s.now)

/-- A queue's head launch goes before another's (R186). -/
def State.goesBefore (s : State) (a b : Nat × Queue) : Bool :=
  let pa := s.priority a.2
  let pb := s.priority b.2
  if pa ≠ pb then pb < pa
  else if a.2.readyPass ≠ b.2.readyPass then a.2.readyPass < b.2.readyPass
  else a.1 < b.1

/-- No other queue's head launch on a die goes before this one's. -/
def State.chosen (s : State) (n : Nat) (q : Queue) : Bool :=
  (s.queues.filter (fun e => e.2.die == q.die && e.1 != n && (s.ready e.1).any (fun r => r.2.type == 1))).all (fun e => !s.goesBefore e (n, q))

/-! ### Launch records (R187, R189, R491) -/

/-- A launch record's bytes as a record, with INIT, REGION and the write-set list as read. -/
def readRecord (bs init region wset : List Byte) (interlocked : Bool) : Record :=
  let nlvl := field bs 2 1 % 16
  let nwin := field bs 5 1
  let flags := field bs 3 1
  { replay := bit flags 0, narrow := bit flags 1, interlocked := interlocked || bit flags 2, gang := field bs 2 1 / 16 % 8, tiles := field bs 4 1,
    windows := (List.range nwin).map (fun k => (field bs (168 + 2 * k) 1, field bs (169 + 2 * k) 1)), stackSize := field bs 6 2, entry := field bs 8 8,
    init := (List.range 128).filterMap (fun k => let v := field init (4 * k) 4; if v = 0 then none else some (k, BitVec.ofNat 32 v)),
    regions := (region.zip (List.range region.length)).filterMap (fun e => if e.1 = 0 then none else some (e.2, e.1)),
    stack := field bs 32 8, writeSet := (List.range (wset.length / 16)).map (fun k => (field wset (16 * k) 8, field wset (16 * k + 8) 8)),
    trigAddr := field bs 56 8, trigVal := BitVec.ofNat 64 (field bs 64 8),
    levels := (List.range nlvl).map (fun k => (field bs (72 + 8 * k) 4, field bs (76 + 8 * k) 1)),
    ranks := (List.range 128).filterMap (fun k =>
      match field bs (136 + k / 4) 1 / 4 ^ (k % 4) % 4 with
      | 1 => some (k, Rank.wave)
      | 2 => some (k, Rank.group)
      | _ => none) }

/-- The zero bytes of a record, and the entries that stand past its counts, are zero, and its addresses are aligned (R187). -/
def recordShape (bs : List Byte) (addr : Nat) : Bool :=
  let zero (a n : Nat) : Bool := (List.range n).all (fun k => field bs (a + k) 1 == 0)
  let nlvl := field bs 2 1 % 16
  let nwin := field bs 5 1
  field bs 0 2 == 1 && field bs 2 1 / 128 == 0 && field bs 3 1 / 8 == 0 && zero 52 4 && zero 200 56
    && (List.range 8).all (fun k => if k < nlvl then zero (77 + 8 * k) 3 else zero (72 + 8 * k) 8)
    && (List.range 16).all (fun k => k < nwin || zero (168 + 2 * k) 2)
    && addr % 64 == 0 && field bs 8 8 % 4 == 0 && field bs 16 8 % 4 == 0 && field bs 24 8 % 64 == 0 && field bs 32 8 % 64 == 0 && field bs 40 8 % 16 == 0
    && field bs 56 8 % 8 == 0 && (field bs 6 2 != 0 || field bs 32 8 == 0)

/-- The product of the extents of the levels that a test picks. -/
def extentProduct (ls : List (Nat × Nat)) (p : Nat → Bool) : Nat := ((ls.filter (fun e => p e.2)).map Prod.fst).foldl (· * ·) 1

/-- R24, R25 and the gang level are kept (R189, BAD_LEVELS). -/
def Record.levelsGood (r : Record) : Bool :=
  let ls := r.levels
  let doms := ls.map Prod.snd
  let wide (d : Nat) : Bool := levelClass d == 2
  1 ≤ ls.length && ls.length ≤ 8 && doms.head? == some 0 && (doms.drop 1).all (fun d => 1 ≤ d && d ≤ 6)
    && ((doms.drop 1).zip (doms.drop 2)).all (fun e => e.1 ≤ e.2) && ls.all (fun e => 1 ≤ e.1)
    && extentProduct ls (fun d => levelClass d == 0) ≤ (if r.narrow then 32 else 64) && extentProduct ls (fun d => levelClass d == 1) ≤ 32
    && extentProduct ls wide ≤ 2 ^ 32 - 1 && r.gang < ls.length && (r.gang == 0 || (ls[r.gang]?).any (fun e => 2 ≤ e.2))

/-- The function of a code object of a context whose entry clause is at an address. -/
def State.functionAt (s : State) (ctx entry : Nat) : Option (CodeObject × FuncEntry) :=
  s.codes.findSome? (fun o => if o.2.context = ctx then (o.2.entries.find? (fun f => f.entry == entry)).map (fun f => (o.2, f)) else none)

/-- Rank codes are valid and those of the function, and each pair that the function uses with `.64` has one rank (R189, BAD_RANKS). -/
def ranksGood (bs : List Byte) (r : Record) (f : FuncEntry) : Bool :=
  (List.range 128).all (fun k => field bs (136 + k / 4) 1 / 4 ^ (k % 4) % 4 != 3) && (bs.drop 136).take 32 == f.ranks
    && (List.range 64).all (fun k => !bit f.pairs k || r.ranks.getD (2 * k) .lane == r.ranks.getD (2 * k + 1) .lane)

/-- R112 and R126 are kept (R189, BAD_SCRATCH). -/
def Record.scratchGood (r : Record) : Bool :=
  let raw := (r.windows.map Prod.snd).foldl (· + ·) 0
  1 ≤ r.tiles && r.tiles ≤ 127 && r.windows.length ≤ 16 && r.windows.all (fun w => w.1 ≤ w.2 && w.2 ≤ 2 * w.1) && raw ≤ r.tiles

/-- The write set is well formed (R187, R189, BAD_WSET): one with REPLAY has an entry, and no entry of a list is misaligned, empty or over another (log 90). -/
def Record.writeSetGood (r : Record) : Bool :=
  (!r.replay || r.writeSet != []) && r.writeSet.all (fun e => e.1 % 65536 == 0 && e.2 % 65536 == 0 && e.2 != 0)
    && (r.writeSet.zip (List.range r.writeSet.length)).all (fun a => (r.writeSet.zip (List.range r.writeSet.length)).all (fun b =>
      a.2 == b.2 || !rangesMeetSet a.1 b.1))
where
  rangesMeetSet (a b : Nat × Nat) : Bool := a.1 < b.1 + b.2 && b.1 < a.1 + a.2

/-- Physical tiles that a group takes (R112). -/
def Record.physical (r : Record) : Nat := r.tiles - (r.windows.map Prod.snd).foldl (· + ·) 0 + (r.windows.map Prod.fst).foldl (· + ·) 0

/-- Groups of one gang (R26). -/
def Record.gangSize (r : Record) : Nat :=
  match r.levels[r.gang]? with
  | some (_, d) => if r.gang = 0 ∨ levelClass d < 2 then 1 else extentProduct (r.levels.take (r.gang + 1)) (fun d => levelClass d == 2)
  | none => 1

/-! ### Room on a core (R199, R200) -/

/-- The waves of a core by scheduler, its groups and its free tiles. -/
structure Room where
  free : List Nat
  groups : Nat
  tiles : Nat

/-- An empty core: 24 wave slots in each of four schedulers, 32 groups, 128 tiles. -/
def Room.empty : Room := { free := [24, 24, 24, 24], groups := 32, tiles := 128 }

/-- The scheduler with the most free slots, the lower number on a tie (R200). -/
def pickScheduler (free : List Nat) : Option Nat :=
  let best := free.foldl max 0
  if best = 0 then none else some (free.takeWhile (· != best)).length

/-- Assign waves one by one (R200): the schedulers they go to. -/
def assignWaves (free : List Nat) : Nat → Option (List Nat × List Nat)
  | 0 => some ([], free)
  | n + 1 =>
    match pickScheduler free with
    | none => none
    | some k => (assignWaves (setAt free k (free.getD k 0 - 1)) n).map (fun r => (k :: r.1, r.2))

/-- A core's room after a group of a record, where the group fits (R199). -/
def Room.put (m : Room) (r : Record) : Option Room :=
  if m.groups = 0 ∨ m.tiles < r.physical then none
  else (assignWaves m.free r.wavesPerGroup).map (fun a => { free := a.2, groups := m.groups - 1, tiles := m.tiles - r.physical })

/-- The instance of a domain that a core lies in (R201): a cohort, a die, or the package. -/
def instanceOf (domain core : Nat) : Nat := if domain = 3 then core / 4 else if domain = 4 then core / 64 else 0

/-! ### Candidates and scans (R201) -/

/-- The units of bound levels that a group index belongs to: level, unit and domain (R26). -/
def Launch.boundUnits (l : Launch) (index : Nat) : List (Nat × Nat × Nat) :=
  (List.range l.record.levels.length).filterMap (fun k =>
    match l.record.levels[k]? with
    | some (_, d) =>
      if 3 ≤ d ∧ d ≤ 5 then
        some (k, if k + 1 = l.record.levels.length then 0 else index / (l.below 2 k * l.extent k), d)
      else none
    | none => none)

/-- The cores of the package, those of a serving die first. -/
def scanOrder (die : Nat) : List Nat := (List.range 64).map (64 * die + ·) ++ (List.range 256).filter (fun c => dieOf c != die)

/-- The candidate cores of a group, in order, given the cores that fix the instances of units. -/
def candidateCores (l : Launch) (die index : Nat) (units : List (Nat × Nat × Nat)) : List Nat :=
  let fixed := (l.boundUnits index).filterMap (fun u => (units.find? (fun x => x.1 == u.1 && x.2.1 == u.2.1)).map (fun x => (u.2.2, x.2.2)))
  if fixed = [] then scanOrder die else (List.range 256).filter (fun c => fixed.all (fun f => instanceOf f.1 c == instanceOf f.1 f.2))

/-- A scan so far: the rooms used, the cores that fix units, and the groups placed. -/
structure Scan where
  rooms : List (Nat × Room)
  units : List (Nat × Nat × Nat)
  placed : List (Nat × Nat)

/-- Place the groups of a gang one by one, each counted against those after it (R201): none where one finds no core. -/
def scanGang (l : Launch) (die : Nat) (room : Nat → Option Room) : List Nat → Scan → Option Scan
  | [], a => some a
  | i :: is, a =>
    let found := (candidateCores l die i a.units).findSome? (fun c =>
      let m := match a.rooms.find? (fun e => e.1 == c) with
        | some e => some e.2
        | none => room c
      (m.bind (fun m => m.put l.record)).map (fun m => (c, m)))
    match found with
    | none => none
    | some (c, m) =>
      let new := (l.boundUnits i).filter (fun u => !a.units.any (fun x => x.1 == u.1 && x.2.1 == u.2.1))
      scanGang l die room is { rooms := (c, m) :: a.rooms, units := a.units ++ new.map (fun u => (u.1, u.2.1, c)), placed := a.placed ++ [(i, c)] }

/-- The group indices of the gang at the head of a launch's order (R23). When `grow` raises an outermost gang level, the new groups belong to the one unit of that level,
whose gang is then placed a second time, as one batch; the spec does not say so (log 100). -/
def Launch.headGang (l : Launch) : List Nat :=
  ((List.range (min 8192 (l.count - l.next))).map (l.next + ·)).takeWhile (fun i => l.gangOf i == l.gangOf l.next)

/-- A launch of a record, with nothing of it placed. -/
def Record.launch (r : Record) : Launch :=
  { context := 0, queue := 0, packet := 0, sitePc := 0, record := r, state := .taken, priority := 0, prio := 0, readySince := 0, count := r.groups, placed := 0,
    outer := r.outerExtent, next := 0, exited := [], triggeredGroups := [], triggered := false, replays := 0, replayable := r.replay, signal := none, protectedPieces := [],
    snapshots := [], fault := none, waitingSince := none, units := [], traced := false }

/-- One gang fits the device without its fenced dies (R189, R202, PLACEMENT): a scan finds a core for each of its groups where nothing else is placed. -/
def State.gangFits (s : State) (die : Nat) (r : Record) : Bool :=
  let room (c : Nat) : Option Room := if (s.die (dieOf c)).fenceSelf then none else some Room.empty
  r.gangSize ≤ 8192 && (scanGang r.launch die room r.launch.headGang { rooms := [], units := [], placed := [] }).isSome

/-- The status with which a record is refused (R189), in the order of the table; 0: it passes. -/
def State.recordStatus (s : State) (die ctx addr : Nat) (bs init region wset : Option (List Byte)) (r : Record) : Nat :=
  match bs, init, region, wset with
  | some b, some _, some _, some _ =>
    match s.functionAt ctx r.entry with
    | none => 0x10
    | some (o, f) =>
      if !recordShape b addr || o.narrow != r.narrow then 0x10
      else if !r.levelsGood then 0x11
      else if !ranksGood b r f then 0x12
      else if !r.scratchGood then 0x13
      else if !s.gangFits die r then 0x14
      else if 4096 < field b 48 4 ∨ !r.writeSetGood then 0x15
      else 0
  | _, _, _, _ => 0x10

/-- Read and check the record of a launch: the copied record and the status. -/
def State.copyRecord (s : State) (die ctx asid addr : Nat) : Record × Nat :=
  let bs := s.stewardRead die asid addr 256
  let b := bs.getD []
  let opt (va n : Nat) : Option (List Byte) := if va = 0 then some [] else s.stewardRead die asid va n
  let init := opt (field b 16 8) 512
  let region := opt (field b 24 8) 2048
  let n := min 4096 (field b 48 4)
  let wset := if n = 0 then some [] else s.stewardRead die asid (field b 40 8) (16 * n)
  let other := (s.functionAt ctx (field b 8 8)).any (fun x => x.1.tag != 0x04040011)
  let r := readRecord b (init.getD []) (region.getD []) (wset.getD []) other
  (r, s.recordStatus die ctx addr bs init region wset r)

/-- The reads of a launch's record, and of what it names, set A (R224). -/
def State.touchRecord (s : State) (die asid addr : Nat) : State :=
  let b := (s.stewardRead die asid addr 256).getD []
  let opt (s : State) (va n : Nat) : State := if va = 0 then s else s.touchRead die asid va n
  (opt (opt (s.touchRead die asid addr 256) (field b 16 8) 512) (field b 24 8) 2048).touchRead die asid (field b 40 8) (16 * min 4096 (field b 48 4))

/-- Start or refuse the launch of a taken packet (R190). -/
def State.startLaunch (s : State) (n : Nat) (q : Queue) (p : Packet) (priority : Nat) : State :=
  match (s.contexts.get q.context).bind (fun c => c.asid) with
  | none => s
  | some asid =>
    let (r, st) := s.copyRecord q.die q.context asid p.addr
    let id := s.launches.free 1 s.launches.length
    let l : Launch := { r.launch with
      context := q.context
      queue := n
      packet := p.number
      sitePc := Config.dispatchPc q.die
      state := if st = 0 then .running else .failed
      priority
      prio := q.prio
      readySince := q.readySince.getD s.now
      signal := p.signal
      protectedPieces := if st = 0 && r.replay then r.pieces else []
      traced := q.trace != 0 }
    let s := State.touchRecord { s with launches := s.launches.set id l } q.die asid p.addr
    if st ≠ 0 then s.queueError n st else if r.replay then s.protect q.die asid r.pieces else s

/-- LAUNCH_PACKET (R186, R190): the chosen queue's head launch is taken. -/
def execLaunchPacket (die queue : Nat) (s : State) : Out :=
  .next <|
    let s := s.rejectBad queue
    match s.ready queue with
    | some (q, p) => if q.die = die ∧ p.type = 1 ∧ s.chosen queue q then (s.take queue q p).startLaunch queue q p (s.priority q) else s
    | none => s

/-- WAIT_PACKET (R179): a WAIT is taken, and holds its queue. -/
def execWaitPacket (queue : Nat) (s : State) : Out :=
  .next <|
    let s := s.rejectBad queue
    match s.ready queue with
    | some (q, p) =>
      if p.type = 2 then
        (s.take queue q p).modQueue queue (fun q => { q with held := some { packet := p.number, address := p.addr, threshold := p.arg, signal := p.signal } })
      else s
    | none => s

/-- WAIT_SATISFIED (R179): the word of a held WAIT has reached its threshold, and its signal is stored. -/
def execWaitSatisfied (queue : Nat) (s : State) : Out :=
  .next <|
    match s.queues.get queue with
    | none => s
    | some q =>
      match q.held, (s.contexts.get q.context).bind (fun c => c.asid) with
      | some h, some asid =>
        match (if q.state = 1 then s.stewardRead q.die asid h.address 8 else none) with
        | some bs =>
          if h.threshold ≤ natOfBytes bs then
            let s := (s.touchRead q.die asid h.address 8).modQueue queue (fun q => { q with held := none })
            match h.signal with
            | some (va, v) => s.signal queue va v
            | none => s
          else s
        | none => s
      | _, _ => s

/-- MARK_PACKET (R179): a MARK is taken; its signal waits for the earlier launches. -/
def execMarkPacket (queue : Nat) (s : State) : Out :=
  .next <|
    let s := s.rejectBad queue
    match s.ready queue with
    | some (q, p) =>
      if p.type = 3 then
        (s.take queue q p).modQueue queue (fun q =>
          if p.signal.isSome then { q with marks := q.marks ++ [{ packet := p.number, address := 0, threshold := 0, signal := p.signal }] } else q)
      else s
    | none => s

/-- MARK_SIGNAL (R179): every earlier launch of the oldest waiting MARK is final, and its signal is stored. -/
def execMarkSignal (queue : Nat) (s : State) : Out :=
  .next <|
    match (s.queues.get queue).bind (fun q => q.marks.head?) with
    | none => s
    | some m =>
      if s.launches.any (fun e => e.2.queue == queue && e.2.open && e.2.packet < m.packet) then s
      else
        let s := s.modQueue queue (fun q => { q with marks := q.marks.drop 1 })
        match m.signal with
        | some (va, v) => s.signal queue va v
        | none => s

/-! ### Visits (R177, R178, R181, R185, R439) -/

/-- QDOORBELL (R178): the host's write of a queue number raises event bit 0, upon which the firmware looks for packets; at a die that it does not reach it is lost (R15). -/
def execQdoorbell (die : Nat) (value : Word) (s : State) : Out :=
  .next (if !s.barOpen die then s else s.writeReg (devReg die 0x10) .write value.toNat (fieldMask 31 0))

/-- The firmware visits a queue (R177, R181, R185): a request written to STATE is taken, QUIESCING ends, and the descriptor is rewritten. -/
def State.visit (s : State) (n : Nat) : State :=
  match s.queues.get n with
  | none => s
  | some q =>
    let s := s.modQueue n (fun q => { q with asked := none })
    let s := match q.asked with
      | some 5 => (s.queueService n 0x22 0 0).1
      | some 2 => (s.queueService n 0x20 0 0).1
      | some 1 => (s.queueService n 0x21 0 0).1
      | _ => if q.state = 2 then s.modQueue n (fun q => { q with state := 3 }) else s
    s.rewrite n

/-- The lowest die that is not fenced, whose ticks the model counts time by (log 25). -/
def State.clockDie (s : State) : Nat := (([0, 1, 2, 3] : List Nat).find? (fun d => !(s.die d).fenceSelf)).getD 0

/-- STEWARD_TICK (R439): event bit 3 is raised, and the firmware of the die serves its mailbox and visits its queues, resets asked for by the host last (R181). -/
def execStewardTick (die : Nat) (s : State) : Out :=
  .next <|
    let s := if die = s.clockDie then { s with now := s.now + 50 } else s
    let s := s.raiseEvent die 3
    if !s.firmwareRuns die then s
    else
      let s := (List.range 8).foldl (fun s k => s.serveMailbox die k (· != 0x22)) s
      let s := (s.queues.filter (fun e => e.2.die == die)).foldl (fun s e => s.visit e.1) s
      (List.range 8).foldl (fun s k => s.serveMailbox die k (· == 0x22)) s

end Sys2Proof.Machine
end

