-- ==== Sys2Proof/Machine/Place.lean ====
section
/-! DEFINITION. The dispatchers: placement of groups and gangs, compaction drain and the choice of victims (R22, R23, R167, R188, R199 to R209 of spec/12_group.md). -/

namespace Sys2Proof.Machine

/-! ### Save areas (R170) -/

/-- The places of save areas in the HBM of a die: 64 KiB aligned, apart from one another (log 24). -/
def areaPlaces : Nat := 96420

/-- The physical address of a place. -/
def areaPa (die place : Nat) : Nat := die * 2 ^ 46 + place % areaPlaces * 0x570000

/-- A place for a save area in the HBM of a die that none has, and whose frames no context's tables map: the first from the die's own, which the spec leaves to the steward
(R170; log 24). -/
def State.freeArea (s : State) (die : Nat) : Option Nat :=
  let used := s.contexts.flatMap (fun x => x.2.areas.map Prod.snd)
  let mapped := s.contexts.flatMap (fun x => (s.leavesOf x.2).map (fun l => (l.2.1, l.2.2)))
  let most := used.length + mapped.foldl (fun n l => n + l.2 / 0x570000 + 2) 0 + 1
  ((List.range (min areaPlaces most)).map (fun j => areaPa die (Config.saveBase die + j))).find? (fun a =>
    !used.contains a && mapped.all (fun l => l.1 + l.2 ≤ a || a + areaBytes ≤ l.1))
where
  areaBytes : Nat := 0x563000

/-- The steward keeps an area in HBM (R132, R170): it pins its granules there, which stay pinned (R234). -/
def State.pinArea (s : State) (pa : Nat) : State :=
  s.modDie (paDie pa) (fun q => { q with tiers := (List.range 87).foldl (fun t k =>
    t.set (paOffset pa / 65536 + k) { t.getD (paOffset pa / 65536 + k) Granule.reset with pinH := true }) q.tiers })

/-- A context's save area on a core, or a place for it. -/
def State.areaFor (s : State) (ctx c : Nat) : Option Nat := ((s.contexts.get ctx).bind (fun x => x.areas.get c)).or (s.freeArea (dieOf c))

/-! ### Room (R199) -/

/-- A wave slot of a scheduler is free. -/
def Core.slotFree (q : Core) (k : Nat) : Bool := (q.waves.get k).isNone

/-- The room of a core, counting the groups that a test picks. -/
def State.roomOf (s : State) (c : Nat) (p : Group → Bool) : Room :=
  let q := s.core c
  let gs := q.groups.filter (fun e => p e.2)
  let kept (k : Nat) : Bool := (q.waves.get k).any (fun w => gs.any (fun e => e.1 == w.group))
  { free := [0, 1, 2, 3].map (fun sch => ((List.range 24).filter (fun j => !kept (24 * sch + j))).length)
    groups := 32 - gs.length
    tiles := 128 - gs.foldl (fun n e => n + (s.recordOf e.2).physical) 0 }

/-- A core of a die that works. -/
def State.coreWorks (s : State) (c : Nat) : Bool := !(s.die (dieOf c)).fenceSelf && !(s.die (dieOf c)).frozen

/-- The compaction drain of another launch keeps new groups off a core (R202). -/
def State.drained (s : State) (launch c : Nat) : Bool := s.dies.any (fun d => d.2.drain.any (fun x => x.1 != launch && x.2.contains c))

/-- A core holds an image of a context that is not resident: it returns there (R208), and no second one begins (log 26). -/
def State.imageAway (s : State) (ctx c : Nat) : Bool := (s.contexts.get ctx).any (fun x => (x.areas.get c).isSome) && (s.core c).context != some ctx

/-- Where a group may go: the room of a core for a launch, as it is (R199). -/
def State.roomNow (s : State) (launch ctx c : Nat) : Option Room :=
  let q := s.core c
  if s.coreWorks c && (q.context == none || q.context == some ctx) && !q.swapping && !q.swapAsked && !q.restoring && !s.drained launch c && !s.imageAway ctx c && (s.areaFor ctx c).isSome then
    some (s.roomOf c (fun _ => true))
  else none

/-- The room that a core would have for a launch without the groups of other launches (R202). -/
def State.roomCleared (s : State) (launch ctx c : Nat) : Option Room :=
  if s.coreWorks c && !s.drained launch c && !s.imageAway ctx c then some (s.roomOf c (fun g => g.launch == launch)) else none

/-- The room that a core would have without an image of a context of a lower priority (R208); drain keeps pre-emption off its cores (R209). -/
def State.roomPreempted (s : State) (launch ctx prio c : Nat) : Option Room :=
  let q := s.core c
  if s.dies.any (fun d => d.2.drain.any (fun x => x.2.contains c)) then none
  else if q.context == none || q.context == some ctx then s.roomNow launch ctx c
  else if s.coreWorks c && q.priority < prio && !s.imageAway ctx c then some Room.empty
  else none

/-! ### Scans (R201) -/

/-- The serving die of a launch's queue. -/
def State.servingDie (s : State) (l : Launch) : Nat := ((s.queues.get l.queue).map (fun q => q.die)).getD ((s.contexts.get l.context).map (fun c => c.die) |>.getD 0)

/-- Scan for a launch's head gang with a view of the cores' rooms. -/
def State.scanHead (s : State) (l : Launch) (room : Nat → Option Room) : Option Scan :=
  scanGang l (s.servingDie l) room l.headGang { rooms := [], units := l.units, placed := [] }

/-! ### Placing (R167, R188, R200, R204) -/

/-- The lanes in use of a record (R25). -/
def Record.lanes (r : Record) : Nat := extentProduct r.levels (fun d => levelClass d == 0)

/-- A wave of a group at its launch (R25, R188). -/
def newWave (l : Launch) (id slot number : Nat) : Wave :=
  let n := min 64 l.record.lanes
  { Wave.reset with
    launch := id
    group := slot
    number
    live := LaneMask.ofList (List.range n)
    counter := (List.range n).map (fun k => (k, l.record.entry))
    slots := l.record.init.flatMap (fun e => if l.record.ranks.getD e.1 .lane = .lane then (List.range n).map (fun k => (64 * e.1 + k, e.2)) else [])
    copies := l.record.init.keep (fun x _ => l.record.ranks.getD x .lane == .wave)
    traced := l.traced }

/-- A group at its placement. -/
def newGroup (l : Launch) (id index serial : Nat) : Group :=
  { launch := id, index, serial, state := .running, home := l.record.init.keep (fun x _ => l.record.ranks.getD x .lane == .group), spad := [], poison := [], spadTags := [],
    regions := l.record.regions, windows := [], barriers := [], captures := [], guard := none, budget := none, triggered := false }

/-- The lowest free wave slot of a scheduler. -/
def Core.freeSlot (q : Core) (sch : Nat) : Nat := ((List.range 24).map (24 * sch + ·)).find? q.slotFree |>.getD (24 * sch)

/-- A wave enters a core: the active set of its scheduler while that has fewer than eight waves, else the pending set (R200). -/
def Core.addWave (q : Core) (sch : Nat) (w : Wave) : Core :=
  let k := q.freeSlot sch
  let q' := { q with waves := q.waves.set k w }
  if (q.active.filter (fun j => j / 24 == sch)).length < 8 then { q' with active := k :: q.active } else { q' with pending := q.pending ++ [k] }

/-- The steward sets TRACE_CTL on a core of a session's launch (R463), which records there from then on, in a buffer of the session's size whose place the steward chooses
(R185, log 101). A core whose stream runs goes on with it. -/
def State.traceCore (s : State) (queue c : Nat) (q : Core) : Core × State :=
  match s.queues.get queue with
  | none => (q, s)
  | some x =>
    let bytes := 2 ^ (x.traceSize + 12)
    let on : Core := { q with
      traceCtl := BitVec.ofNat 64 (2 ^ 63 + x.traceSize * 2 ^ 56 + (dieOf c * 2 ^ 46 + Config.traceBuffer s.fresh * bytes % 2 ^ 39) % 2 ^ 52), tracePos := 0 }
    let s : State := { s with
      fresh := s.fresh + 1
      queues := s.queues.set queue { x with traceCores := if x.traceCores.contains c then x.traceCores else x.traceCores ++ [c] } }
    (if q.traceCtl.getLsbD 63 || 8 < x.traceSize then q else on, s)

/-- The key of a context comes to the key table of a die that the context comes to occupy, from that of another (R166). -/
def State.bringKey (s : State) (die ctx : Nat) : State :=
  if ((s.die die).keys.get ctx).isSome then s
  else match s.dies.findSome? (fun d => d.2.keys.get ctx) with
    | some k => s.modDie die (fun d => { d with keys := d.keys.set ctx k })
    | none => s

/-- A group is placed on a core (R167, R188, R200). -/
def State.placeGroup (s : State) (id : Nat) (l : Launch) (index c : Nat) : State :=
  let q := s.core c
  let fresh := q.context.isNone
  let area := (s.areaFor l.context c).getD 0
  let q := if fresh then { q with context := some l.context, asid := ((s.contexts.get l.context).bind (fun x => x.asid)).getD 0, priority := l.priority } else q
  let g := q.groups.free 0 32
  let schs := match assignWaves (s.roomOf c (fun _ => true)).free l.record.wavesPerGroup with
    | some a => a.1
    | none => []
  let q := { q with groups := q.groups.set g (newGroup l id index s.placings) }
  let q := (schs.zip (List.range schs.length)).foldl (fun q e => q.addWave e.1 (newWave l id g e.2)) q
  let s := { s with placings := s.placings + 1 }
  let s := s.bringKey (dieOf c) l.context
  let (q, s) := if l.traced then s.traceCore l.queue c q else (q, s)
  let fresh := ((s.contexts.get l.context).bind (fun x => x.areas.get c)).isNone
  let s := if fresh then s.pinArea area else s
  let s := (s.setCore c q).modContext l.context (fun x => { x with
    state := if x.state = .created then .live else x.state
    areas := if (x.areas.get c).isNone then x.areas.set c area else x.areas })
  ((q.waves.filter (fun e => e.2.group == g)).map Prod.fst).foldl (fun s k => s.waveWritten c k) s

/-- A launch whose groups may be placed. -/
def State.placeable (s : State) (l : Launch) : Bool :=
  l.state == .running && l.next < l.count && s.power == .running
    && (s.contexts.get l.context).any (fun c => (c.state == .created || c.state == .live) && c.asid.isSome)

/-- Compaction drain for a launch ends (R202). -/
def State.endDrain (s : State) (id : Nat) : State :=
  { s with dies := s.dies.mapVal (fun _ d => if d.drain.any (fun x => x.1 == id) then { d with drain := none } else d) }

/-- GROUP_PLACE (R201): the head group or gang of a launch is placed, or waits. Its context holds an ASID for it (R165). -/
def execGroupPlace (launch : Nat) (s : State) : Out :=
  .next <|
    match s.launches.get launch with
    | none => s
    | some l =>
      let s := s.giveAsid l.context
      if !s.placeable l then s
      else
        match s.scanHead l (s.roomNow launch l.context) with
        | none => s.modLaunch launch (fun l => { l with waitingSince := some (l.waitingSince.getD s.now) })
        | some a =>
          let t := a.placed.foldl (fun t e => t.placeGroup launch l e.1 e.2) s
          (t.modLaunch launch (fun l => { l with placed := l.placed + a.placed.length, next := l.next + a.placed.length, units := a.units, waitingSince := none })).endDrain launch

/-! ### Compaction drain (R202, R203) -/

/-- COMPACTION_DRAIN_START (R202): the head of a launch has waited longer than PLACE_BOUND, and its target set is fixed. It drains on each die that has a core of the set,
where no other launch drains. -/
def execCompactionDrainStart (launch : Nat) (s : State) : Out :=
  .next <|
    match s.launches.get launch with
    | none => s
    | some l =>
      let bound := (s.die (s.servingDie l)).placeBound
      match l.waitingSince with
      | none => s
      | some t =>
        if !s.placeable l || !(bound == 0 || bound < s.now - t) then s
        else
          match s.scanHead l (s.roomCleared launch l.context) with
          | none => s
          | some a =>
            let cores := (a.placed.map Prod.snd).dedup
            let dies := (cores.map dieOf).dedup
            if dies.any (fun d => (s.die d).drain.isSome) then s
            else dies.foldl (fun s d => s.modDie d (fun q => { q with drain := some (launch, cores.filter (fun c => dieOf c == d)) })) s

/-! ### Victims (R208, R209) -/

/-- The gangs that have a group resident on a core: launch and unit. -/
def State.gangsOn (s : State) (c : Nat) : List (Nat × Nat) :=
  (s.core c).groups.map (fun e => (e.2.launch, ((s.launches.get e.2.launch).map (fun l => l.gangOf e.2.index)).getD e.2.index))

/-- The cores on which a gang has groups resident. -/
def State.coresOf (s : State) (gang : Nat × Nat) : List Nat := (s.cores.filter (fun e => (s.gangsOn e.1).contains gang)).map Prod.fst

/-- Cores joined by gangs that stand on them (R22, R208). -/
def State.joined (s : State) (cs : List Nat) : Nat → List Nat
  | 0 => cs
  | fuel + 1 =>
    let more := (cs ++ cs.flatMap (fun c => (s.gangsOn c).flatMap s.coresOf)).dedup
    if more.length = cs.length then cs else s.joined more fuel

/-- One core's image leaves before another's (R208): that of the lower priority, and then the one placed more recently. -/
def State.leavesBefore (s : State) (a b : Nat) : Bool :=
  let serial (c : Nat) : Nat := (s.core c).groups.foldl (fun n g => max n g.2.serial) 0
  (s.core a).priority < (s.core b).priority || ((s.core a).priority == (s.core b).priority && serial b < serial a)

/-- Put a core into a list in the order in which images leave. -/
def State.insertVictim (s : State) (c : Nat) : List Nat → List Nat
  | [] => [c]
  | d :: ds => if s.leavesBefore c d then c :: d :: ds else d :: s.insertVictim c ds

/-- PREEMPT (R208, R209): images of lower-priority contexts leave the first set of cores that would then hold the launch's head, and with them every group of their gangs; none
leaves where one would stand on a core that drains. -/
def execPreempt (launch : Nat) (s : State) : Out :=
  .next <|
    match s.launches.get launch with
    | none => s
    | some l =>
      let prio := s.aged l.prio l.readySince
      if !s.placeable l || (s.scanHead l (s.roomNow launch l.context)).isSome then s
      else
        match s.scanHead l (s.roomPreempted launch l.context prio) with
        | none => s
        | some a =>
          let victims := s.joined (((a.placed.map Prod.snd).dedup).filter (fun c => (s.core c).context.any (fun x => x != l.context))) 256
          if victims.any (fun c => s.dies.any (fun d => d.2.drain.any (fun x => x.2.contains c))) then s
          else (victims.foldl (fun cs c => s.insertVictim c cs) []).foldl (fun s c => s.askSwap c) s

end Sys2Proof.Machine
end

