-- ==== Sys2Proof/Machine/Swap.lean ====
section
/-! DEFINITION. Images that leave their cores and return: the swap, the spill, the restore and its checks (R125, R151, R165 to R176 of spec/09_context.md, R204, R208,
R219, R306, R466, R508). -/

namespace Sys2Proof.Machine

/-! ### Leaving (R125, R151, R169, R306) -/

/-- A wave stops between two instructions: its record keeps the run that held the clause, the word of its next instruction and its latches (R306). -/
def Wave.cut (w : Wave) : Wave :=
  match w.clause with
  | none => w
  | some c =>
    let lanes := LaneMask.toList c.run
    let w' := { w with clause := none, latches := [], kept := lanes.foldl (fun t l => t.set l w.latches) w.kept }
    if w.handler then { w' with hword := c.pos }
    else { w' with
      counter := lanes.foldl (fun t l => t.set l c.addr) w.counter
      word := lanes.foldl (fun t l => t.set l c.pos) w.word
      resume := some (c.run, 0) }

/-- A wave reaches its boundary: its accesses in flight complete, a trap raised before the boundary is taken (R169), it is ordered by a fence (R151), and its threads lose
their reservations (R402). -/
def State.leaveWave (s : State) (c k : Nat) : State :=
  let f : Flow := .wave c k
  match s.flow? f with
  | none => s
  | some w =>
    let s := (List.range w.outstanding.length).foldl (fun s _ => s.respond f 0) s
    let s := (s.takeDue f).dropTag f
    ((s.fabricFence f).dropReservations f).traceEvent f 6 0 w.live

/-- A stage is cancelled at pre-emption (R125): its lines are absent, and none of its sectors has landed. -/
def Group.cancelStage (g : Group) (win : Nat) (pl : WinPlace) (b : Binding) (stage : Nat) : Group :=
  let lines := slotLines b pl stage
  let g := g.freeSlot win pl b stage
  let g := g.modStage win stage (fun t => { t with landed := [], refused := [] })
  { g with windows := g.windows.upd win (fun w => { w with absent := w.absent.filter (fun l => !lines.contains l) ++ lines }) }

/-- A stage of a binding is cancelled at pre-emption: it has neither landed wholly nor ended (R125). -/
def Stage.cut (t : Stage) : Bool := t.unlanded != 0 && t.failed.isNone

/-- Cancel one stage of a window, and count the sectors of it that had landed again where its phase has begun (R125). -/
def State.cancelStage (s : State) (c g win stage : Nat) : State :=
  match s.group? c g with
  | none => s
  | some q =>
    match (q.windows.get win).bind (fun w => w.bound), (s.recordOf q).place win with
    | some b, some pl =>
      match b.stages.get stage with
      | none => s
      | some t =>
        if !t.cut then s
        else
          let s := s.setGroup c g (q.cancelStage win pl b stage)
          match b.barId c g with
          | none => s
          | some id =>
            match s.bar? id with
            | some bar => if bar.tx && b.begun bar.phase stage then (s.firstBar id).setBar id (bar.addSec t.landed.length) (t.sitePc, stage + 1) else s
            | none => s
    | _, _ => s

/-- Every stage of a group that has not wholly landed is cancelled. -/
def State.cancelStages (s : State) (c g : Nat) : State :=
  match s.group? c g with
  | none => s
  | some q => q.windows.foldl (fun s w => match w.2.bound with
      | none => s
      | some b => b.stages.foldl (fun s t => s.cancelStage c g w.1 t.1) s) s

/-- The state of a group whose image leaves (R204). -/
def Group.leave (g : Group) : Group :=
  match g.state with
  | .running | .halted => { g with state := .preempted }
  | _ => g

/-- The image that a core holds. -/
def Core.image (q : Core) (ctx order : Nat) : Image :=
  { context := ctx, order := q.swapOrder.getD order, matrixOut := false, stored := [], away := false, asid := q.asid, priority := q.priority, waves := q.waves.mapVal (fun _ w => w.cut),
    groups := q.groups.mapVal (fun _ g => g.leave), matrix := q.matrix, watches := q.watches, active := q.active, pending := q.pending,
    bad := q.bad.map (fun b => b.index) }

/-- The image moves to the shadow bank, and the core is free for a successor (R168, R169, R508). A swap of a core without an image moves none, and takes its 96 cycles all the same
(DESIGN CHOICE, log 132). -/
def Core.leave (q : Core) (order : Nat) : Core :=
  match q.context with
  | none => { q with swapping := true, swapAsked := false, swapOrder := none }
  | some x =>
    { q with context := none, asid := 0, waves := [], groups := [], matrix := { Matrix.reset with seq := q.matrix.seq }, watches := [], active := [], pending := [], bad := [],
             shadow := some (q.image x order), shadowTo := q.swapTo, swapping := true, swapAsked := false, swapOrder := none }

/-- An armed injection strikes a word of the shadow bank as an image moves there: one that is uncorrectable will be spilled with poison (R468, R477). -/
def State.shadowWritten (s : State) (core : Nat) : State :=
  let q := s.core core
  let word := bits (q.errInj.getD 1 0).toNat 51 0
  if q.shadow.isNone then s
  else s.strike core 1 word 0 (0, 0) (fun s => s.modCore core (fun q => { q with shadow := q.shadow.map (fun i => { i with bad := i.bad ++ [word] }) }))

/-- A core whose image a swap takes with another's (R22, R204): its groups are pre-empted at once, and its swap is asked for. -/
def State.preemptCore (s : State) (c : Nat) : State :=
  (s.askSwap c).modCore c (fun q => { q with groups := q.groups.mapVal (fun _ g => g.leave) })

/-- SWAP (R168, R169, R176, R204): a swap that has been asked for begins, once it can. The gangs of the image are pre-empted whole: every core that holds a group of one swaps. -/
def State.swap (s : State) (core : Nat) : State :=
  if !s.swapReady core then s
  else
    let s := ((s.joined [core] 256).filter (· != core)).foldl (fun s c => s.preemptCore c) s
    let s := (s.core core).waves.keys.foldl (fun s k => s.leaveWave core k) s
    let s := (s.core core).groups.keys.foldl (fun s g => (s.cancelCalls (dieOf core) (Landing.ofGroup core g)).cancelStages core g) s
    State.shadowWritten { s.modCore core (fun q => q.leave s.swaps) with swaps := s.swaps + 1 } core

/-- SWAP (R169). -/
def execSwap (core : Nat) (s : State) : Out := .next (s.swap core)

/-- SWAP_END (R169): the 96 cycles end, and SWAP reads 0. -/
def execSwapEnd (core : Nat) (s : State) : Out := .next (s.modCore core (fun q => { q with swapping := false }))

/-! ### The spill (R168, R169, R171) -/

/-- The work of an image that goes on in the shadow bank is done (R169). -/
def Image.idle (i : Image) : Bool := i.matrix.quiet && i.waves.all (fun e => e.2.flagsClear 0xFFF && e.2.outstanding.isEmpty)

/-- SPILL_COMPLETE (R168): the last section and the tag are written, the shadow bank is free, and waves that wait for the matrix engine go on. Uncorrectable words of the bank are
spilled with poison, and logged (R468, R476). A SAVE_PA other than the reserved area becomes the image's area, and the reserved one is released (DESIGN CHOICE, log 24). -/
def execSpillComplete (core : Nat) (s : State) : Out :=
  .next <|
    let q := s.core core
    match q.shadow with
    | none => s
    | some i =>
      if q.swapping || !i.idle || (s.die (dieOf core)).frozen then s
      else
        let pa := q.shadowTo
        let old := ((s.contexts.get i.context).bind (fun x => x.areas.get core)).getD pa
        let s := s.writeArea core pa old i
        let s : State := { s with poison := (s.poison ++ i.bad.map (fun w => lineOf (pa + 4096 + 4 * w % (areaSize - 4096)))).dedup }
        let s := i.bad.foldl (fun s w => s.logCore core 1 true i.asid w 0 0) s
        let s := s.modCore core (fun q => ({ q with shadow := none } : Core).wakeSpill)
        let s := s.modContext i.context (fun x => { x with areas := x.areas.set core pa })
        let i := { i with stored := s.areaBytes pa, away := true }
        { s with saves := (s.saves.keep (fun a j => !(a == old && a != pa && j.context == i.context))).set pa i, archive := s.archive ++ [i] }

/-! ### The restore (R168, R172, R173, R208) -/

/-- The spilled images that wait to return: their core, the address of their save area and themselves. -/
def State.spilled (s : State) : List (Nat × Nat × Image) :=
  s.contexts.flatMap (fun x => if x.2.state = .live then
    x.2.areas.filterMap (fun a => (s.saves.get a.2).bind (fun i => if i.context = x.1 ∧ i.away then some (a.1, a.2, i) else none)) else [])

/-- The gangs of a table of groups: launch and unit. -/
def State.gangsIn (s : State) (gs : Tab Group) : List (Nat × Nat) :=
  gs.map (fun e => (e.2.launch, ((s.launches.get e.2.launch).map (fun l => l.gangOf e.2.index)).getD e.2.index))

/-- The spilled images that share a gang with those of a list, in steps (R208). -/
def State.joinedAway (s : State) (is : List (Nat × Nat × Image)) : Nat → List (Nat × Nat × Image)
  | 0 => is
  | fuel + 1 =>
    let gangs := is.flatMap (fun x => s.gangsIn x.2.2.groups)
    let more := s.spilled.filter (fun x => (s.gangsIn x.2.2.groups).any gangs.contains || is.any (fun y => y.2.1 == x.2.1))
    if more.length = is.length then is else s.joinedAway more fuel

/-- A core can take an image back. -/
def State.canReturn (s : State) (c : Nat) : Bool :=
  let q := s.core c
  s.coreWorks c && (s.power == .running || s.power == .resuming) && q.context.isNone && !q.swapping && !q.swapAsked && !q.restoring && !s.dies.any (fun d => d.2.drain.any (fun x => x.2.contains c))

/-- The oldest image that waits to return to a core (R208). -/
def State.oldestAway (s : State) (c : Nat) : Option (Nat × Nat × Image) :=
  (s.spilled.filter (fun x => x.1 == c)).foldl (fun (m : Option (Nat × Nat × Image)) x => match m with
    | some y => if x.2.2.order < y.2.2.order then some x else some y
    | none => some x) none

/-- The firmware sets RESTORE on a core for an image (R174, R175). -/
def State.askRestore (s : State) (x : Nat × Nat × Image) : State :=
  s.modCore x.1 (fun q => { q with restorePa := x.2.1, restoreFrom := x.2.1, restoring := true })

/-- RESTORE (R165, R168, R172, R208): the oldest image that waits for a free core returns to it, and with it every image of its gangs. Each must be the oldest that waits for its
own core, that core must be free, and no image of the gangs may still be on its way out. A context that has given up its ASID receives one first. -/
def execRestore (core : Nat) (s : State) : Out :=
  .next <|
    match s.oldestAway core with
    | none => s
    | some x =>
      let is := s.joinedAway [x] 256
      let gangs := is.flatMap (fun y => s.gangsIn y.2.2.groups)
      let late := s.cores.any (fun e => e.2.shadow.any (fun i => (s.gangsIn i.groups).any gangs.contains))
      let s' := s.giveAsid x.2.2.context
      if late || !is.all (fun y => s.canReturn y.1 && (s.oldestAway y.1).any (fun z => z.2.1 == y.2.1)) || !s'.holdsAsid x.2.2.context then s
      else is.foldl (fun s y => s.askRestore y) s'

/-- A wave of an image that returns (R219, R306): its wait on a global barrier is rebuilt, and a phase that passed meanwhile wakes it at once. -/
def State.returnWave (s : State) (w : Wave) : Wave :=
  match w.park with
  | some (.globalBarrier pa token _) =>
    match s.bar? (.global pa) with
    | none => { w with park := some (.waking 2) }
    | some b => if b.phase = token then w else { w with park := some (.waking 0) }
  | _ => w

/-- A cancelled stage is issued again (R119, R125): its lines are absent, and the rest of its slot is zeros and present. Its barrier counts it already, or will. -/
def Group.issueAgain (g : Group) (win : Nat) (pl : WinPlace) (b : Binding) (stage : Nat) : Group :=
  let all := slotLines b pl stage
  let g := (g.freeSlot win pl b stage).zeroSlot pl b stage
  { g with windows := g.windows.upd win (fun w => { w with absent := w.absent.filter (fun l => !all.contains l) ++ landedLines b pl stage }) }

/-- Every cancelled stage of a group's windows is issued again, in ascending order (R125). -/
def Group.issueCut (g : Group) (r : Record) : Group :=
  g.windows.foldl (fun (g : Group) w =>
    match w.2.bound, r.place w.1 with
    | some b, some pl => (b.stages.filter (fun t => t.2.cut)).foldl (fun g t => g.issueAgain w.1 pl b t.1) g
    | _, _ => g) g

/-- A group whose image returns reads as halted where no wave of it can issue (R204). -/
def Group.back (g : Group) (stopped : Bool) : Group :=
  match g.state with
  | .preempted => { g with state := if stopped then .halted else .running }
  | _ => g

/-- Install an image on a core (R172, R508): its groups stay pre-empted until their gangs are back, and its cancelled stages are issued again (R125). The core's
sequence number goes on from the image's, and RFAIL of an earlier restore stays until software clears it: R171 and R174 leave both open (logs 104 and 105). -/
def State.install (s : State) (core : Nat) (i : Image) (asid : Nat) : State :=
  s.modCore core (fun q =>
    { q with context := some i.context, asid, priority := i.priority, waves := i.waves.mapVal (fun _ w => s.returnWave w),
             groups := i.groups.mapVal (fun _ g => g.issueCut (s.recordOf g)), matrix := i.matrix, watches := i.watches, active := i.active, pending := i.pending,
             restoring := false })

/-- A gang is back (R204, R208): no image of it is in a shadow bank or a save area, and no core that holds a group of it is to swap. -/
def State.gangBack (s : State) (gang : Nat × Nat) : Bool :=
  s.cores.all (fun e => !(e.2.shadow.any (fun i => (s.gangsIn i.groups).contains gang)) && !(e.2.swapAsked && (s.gangsIn e.2.groups).contains gang))
    && s.saves.all (fun e => !(e.2.away && (s.gangsIn e.2.groups).contains gang))

/-- The groups of gangs that are back run or are halted again, together (R204). -/
def State.wakeGangs (s : State) (gangs : List (Nat × Nat)) : State :=
  let ready := gangs.filter s.gangBack
  { s with cores := s.cores.mapVal (fun _ q =>
      let stopped (g : Nat) : Bool := q.waves.all (fun e => e.2.group != g || e.2.live &&& ~~~e.2.halted == 0)
      { q with groups := q.groups.mapVal (fun n g => if (s.gangsIn [(n, g)]).any ready.contains then g.back (stopped n) else g) }) }

/-- What a restored wave does at once: it is ordered by a fence (R151), its trace records stand (R466), and it ends where nothing of it is left. -/
def State.returned (s : State) (core k : Nat) : State :=
  let f : Flow := .wave core k
  match s.flow? f with
  | none => s
  | some w =>
    let s := (s.fabricFence f).traceEvent f 7 0 w.live
    let s := (s.modFlow f (fun w => { w with traceFrame := none })).traceRec core k [] (some none) 3
    s.tryEnd f

/-- The image of a context on a core waits in its save area no more. -/
def State.homeAgain (s : State) (ctx core a : Nat) : State :=
  let area := (s.contexts.get ctx).bind (fun x => x.areas.get core)
  { s with saves := s.saves.mapVal (fun p i => if p == a || (i.context == ctx && area == some p) then { i with away := false } else i) }

/-- Everything that an image holds of its core's arrays is written as it returns (R477). -/
def State.imageWritten (s : State) (core : Nat) (i : Image) : State :=
  if (s.core core).sound then s
  else
    let s := i.waves.keys.foldl (fun s k => s.waveWritten core k) s
    i.groups.foldl (fun s g =>
      g.2.barriers.keys.foldl (fun s off => s.unitWritten core g.1 off (0, 0)) (s.spadWritten core g.1 ((g.2.spad.keys.map (· / 4)).dedup) (0, 0))) s

/-- RESTORE_COMPLETE (R172, R173): the image is installed when every check passes; a bad header charges no context, and a bad tag or an uncorrectable error behind the header
faults the context that the header names. A failed restore sets RFAIL, which stands until it is cleared (R174). -/
def execRestoreComplete (core : Nat) (s : State) : Out :=
  .next <|
    let q := s.core core
    if !q.restoring || (s.die (dieOf core)).frozen then s
    else
      let pa := q.restoreFrom
      let failed := s.modCore core (fun q => { q with restoring := false, rfail := true })
      match s.headerGood core pa with
      | none => failed
      | some ctx =>
        if !s.areaIntact pa ctx then failed.failContext ctx 0x20
        else match s.imageOf pa with
        | none => failed
        | some (a, i) =>
          let s := (s.install core i (((s.contexts.get ctx).bind (fun x => x.asid)).getD 0)).imageWritten core i
          let s := (s.homeAgain ctx core a).modContext ctx (fun x => { x with areas := x.areas.set core a })
          i.waves.keys.foldl (fun s k => s.returned core k) (s.wakeGangs (s.gangsIn i.groups))

end Sys2Proof.Machine
end

