-- ==== Sys2Proof/Machine/Contexts.lean ====
section
/-! DEFINITION. Contexts made and torn down, replays, and what the firmware does with a fault passed to it (R165 to R167, R181, R190, R193, R194, R198, R226, R237, R288,
R293, R302, R472 to R474). -/

namespace Sys2Proof.Machine

/-! ### Creation (R165, R167, R220) -/

/-- CONTEXT_CREATE (R165, R167): handle, ASID and table root are assigned, and its key enters the Sett key table of its die (R166). A handle is used once, and no two contexts hold one ASID: one that another context holds is
taken from it, where the steward may, or else nothing is created. The reserved bits of TVEC read zero (R4, R296). -/
def execContextCreate (c : NewContext) (s : State) : Out :=
  .next <|
    let holders := (s.contexts.filter (fun x => x.2.asid == some c.asid)).map Prod.fst
    if s.handles.contains c.handle || 2 ^ 64 ≤ c.handle || c.asid == 0 || 1024 ≤ c.asid || 4 ≤ c.die || s.power != .running || !holders.all s.sparesAsid || (s.die c.die).fenceSelf then s
    else
      let s := holders.foldl (fun s h => s.takeAsid h) s
      let x : Context := { asid := none, state := .created, cause := 0, root := c.root, die := c.die, tvec := BitVec.ofNat 64 (c.tvec.toNat &&& tvecMask), areas := [] }
      let s := s.modDie c.die (fun d => { d with keys := d.keys.set c.handle (Config.contextKey s.fresh) })
      State.setAsid { s with contexts := s.contexts.set c.handle x, handles := s.handles ++ [c.handle], fresh := s.fresh + 1 } c.handle c.asid

/-! ### Teardown (R167, R181, R190, R198, R212, R288) -/

/-- A chain of a torn-down context is STOPPED, and its descriptor is plain memory again (R280, R288). -/
def State.stopChain (s : State) (pa : Nat) (c : Chain) : State :=
  let s := s.chainPut (enginePlace c.die) (pa + 33) [2]
  { s with chains := s.chains.del pa }

/-- A queue of a torn-down context is FREE (R181). -/
def State.freeQueue (s : State) (n : Nat) : State :=
  let s := (s.resetQueue n).queueTo n 0 0
  { s with queues := s.queues.del n }

/-- Every image of a context goes, resident, shadowed or spilled, and no spill or restore of one goes on (R167). -/
def State.dropContext (s : State) (ctx : Nat) : State :=
  let old := s.saves
  let s := s.cores.foldl (fun s e => if e.2.context = some ctx then e.2.groups.foldl (fun s g => s.dropGroup e.1 g.1) s else s) s
  State.trimAreas { s with
    cores := s.cores.mapVal (fun _ q => ({ q with shadow := q.shadow.filter (fun i => i.context != ctx) } : Core).wakeSpill)
    saves := s.saves.keep (fun _ i => i.context != ctx) } old

/-- The context of a request. -/
def requestContext : Request → Option Nat
  | .fault _ ctx _ _ => ctx
  | .ecall _ ctx _ _ _ _ => ctx
  | .engine _ ctx _ _ _ => ctx

/-- What the stewards keep for a context goes: its requests, its key, wrapped or not (R166), and its code objects, and the table entries of its barriers. -/
def State.forgetContext (s : State) (ctx : Nat) : State :=
  { s with
    dies := s.dies.mapVal (fun _ d => { d with keys := d.keys.del ctx, requests := d.requests.keep (fun _ r => requestContext r != some ctx) })
    codes := s.codes.keep (fun _ o => o.context != ctx)
    wrapped := s.wrapped.mapVal (fun _ t => t.del ctx)
    globals := s.globals.keep (fun _ b => b.context != ctx) }

/-- CONTEXT_TEARDOWN (R167). -/
def execContextTeardown (handle : Nat) (s : State) : Out :=
  .next <|
    match s.contexts.get handle with
    | none => s
    | some x =>
      if x.state = .dead then s
      else
        let s := s.modContext handle (fun c => { c with state := .dead })
        let s := (s.queues.filter (fun e => e.2.context == handle)).foldl (fun s e => s.freeQueue e.1) s
        let s := (s.launches.filter (fun e => e.2.context == handle)).foldl (fun s e => s.tearLaunch e.1) s
        let s := s.dropContext handle
        let s := (s.chains.filter (fun e => e.2.context == handle)).foldl (fun s e => s.stopChain e.1 e.2) s
        let s := x.asid.elim s (fun a => s.dropAsid a)
        (s.modContext handle (fun c => { c with asid := none, areas := [] })).forgetContext handle

/-! ### Replay (R194, R474) -/

/-- A 64 KiB frame of a die that nothing has: no leaf maps it, no area or poison lies in it, and its bytes are all zero. The first from the steward's own choice (log 40). -/
def State.freeFrame (s : State) (die : Nat) : Option Nat :=
  let taken : List (Nat × Nat) := s.contexts.flatMap (fun x => (s.leavesOf x.2).map (fun l => (l.2.1, l.2.2)) ++ x.2.areas.map (fun a => (a.2, 0x570000)))
    ++ s.poison.map (fun l => (128 * l, 128)) ++ s.mem.map (fun e => (e.1, 1))
  let most := taken.foldl (fun n l => n + l.2 / 65536 + 2) 1
  ((List.range (min (2 ^ 23) most)).map (fun j => die * 2 ^ 46 + (Config.freshFrame s.fresh + j) % 2 ^ 23 * 65536)).find? (fun p =>
    taken.all (fun l => l.1 + l.2 ≤ p || p + 65536 ≤ l.1))

/-- A piece that holds a POISONED page is mapped to fresh frames, and POISON is cleared (R474): none where the die has none. Pages without a copy keep their bytes. -/
def State.freshPiece (s : State) (die asid piece : Nat) : Option State :=
  let leaves := s.pieceLeaves die asid piece
  if !leaves.any (fun e => bit (s.tableWord e.1) 9) then some s
  else (s.freeFrame die).map (fun p =>
    leaves.foldl (fun (s : State) e =>
      let off := e.2.1 % 65536
      let pte := s.tableWord e.1
      let bs := s.bytes e.2.2.2 e.2.2.1
      let pte' := pte - bits pte 51 12 * 4096 + (p + off) - (if bit pte 9 then 0x200 else 0)
      (s.poke (p + off) bs false none).poke e.1 (bytesOfNat 8 pte') false none) { s with fresh := s.fresh + 1 })

/-- The bytes of a snapshot go back over the pages of their piece: none where a page cannot be written (R474, log 40). Bytes that a barrier or a chain owns keep their values
(R211, R280). -/
def State.putBack (s : State) (die asid piece : Nat) (pages : Tab (List Byte)) : Option State :=
  pages.foldl (fun acc e => acc.bind (fun s =>
    (s.physOf die asid (piece * 65536 + 4096 * e.1)).map (fun p =>
      State.agentFill { s with poison := s.poison.filter (fun l => l < lineOf p || lineOf p + 32 ≤ l) } die asid p e.2)))
    ((((s.splitLeaf die asid (piece * 65536)).splitLeaf die asid (piece * 65536)).dropPiece asid piece).freshPiece die asid piece)

/-- Every snapshot of a launch goes back, and its piece is protected again. -/
def State.restoreSnapshots (s : State) (n : Nat) (l : Launch) (die asid : Nat) : Option State :=
  (l.snapshots.foldl (fun (acc : Option State) e => acc.bind (fun s => s.putBack die asid e.1 e.2)) (some s)).map (fun s =>
    let pieces := l.snapshots.keys
    (s.protect die asid pieces).modLaunch n (fun l => { l with snapshots := [], protectedPieces := (l.protectedPieces ++ pieces).dedup }))

/-- REPLAY_RESTORE_DONE (R190, R194, R474): the snapshots are back, and the launch runs from index 0. A snapshot that cannot be read (log 40) and a piece that cannot be
restored fail it. -/
def execReplayRestoreDone (launch : Nat) (s : State) : Out :=
  .next <|
    match s.launches.get launch with
    | none => s
    | some l =>
      if l.state ≠ .replaying then s
      else
        match (s.contexts.get l.context).bind (fun c => c.asid.map (fun a => (c.die, a))) with
        | none => s
        | some (die, asid) =>
          let t := if l.snapshots = [] || Config.snapshotReadable s.fresh then s.restoreSnapshots launch l die asid else none
          match t with
          | some t => State.modLaunch { t with fresh := s.fresh + 1 } launch (fun l => { l with state := .running })
          | none => State.failLaunch { s with fresh := s.fresh + 1 } launch 0x21

/-! ### Faults passed to the steward (R193, R226, R237, R293, R302, R472) -/

/-- A wave that the steward has served goes on where it stands. -/
def State.letGo (s : State) (f : Flow) (ctx : Option Nat) : State :=
  s.modImageWave f ctx (fun w => if w.park = some .steward then { w with park := none } else w)

/-- The group of a wave is FAULTED, wherever its image stands (R204). -/
def State.faultImage (s : State) (f : Flow) (ctx : Option Nat) (g : Nat) : State :=
  let mark (t : Tab Group) : Tab Group := t.upd g (fun q => { q with state := .faulted })
  match f, ctx with
  | .wave c _, some x =>
    if (s.core c).context = some x ∧ !(s.core c).swapping then s.modCore c (fun q => { q with groups := mark q.groups })
    else if (s.core c).shadow.any (fun i => i.context == x) then s.modCore c (fun q => { q with shadow := q.shadow.map (fun i => { i with groups := mark i.groups }) })
    else match (s.contexts.get x).bind (fun y => y.areas.get c) with
      | some pa => { s with saves := s.saves.upd pa (fun i => { i with groups := mark i.groups }) }
      | none => s
  | _, _ => s

/-- A fault takes a wave's group and launch with it (R293, R302, R472). -/
def State.fail (s : State) (f : Flow) (ctx : Option Nat) (w : Wave) (r : FaultRecord) (escalate : Bool) : State :=
  let s := (s.faultImage f ctx w.group).keepFault w.launch r
  if escalate then s.escalate w.launch else s.failLaunch w.launch 0x23

/-- A fault forwarded to the handler (R226, R297). -/
def State.forward (s : State) (f : Flow) (ctx : Option Nat) (r : TrapRegs) : State :=
  match f, ctx with
  | .wave c _, some x =>
    if (s.core c).context = some x ∧ !(s.core c).swapping then s.enterHandler f r
    else
      let vec := bits (((s.contexts.get x).map (fun (y : Context) => y.tvec)).getD 0).toNat 47 2 * 4
      s.modImageWave f ctx (fun w => { w with trap := r, latches := [], kept := [], clause := none, handler := true, hpc := vec, hword := 0, park := none, resume := none })
  | _, _ => s

/-- The virtual address of a SNAP fault of a context that waits at a steward. -/
def snapAt (ctx : Nat) : Request → Option (Flow × Nat)
  | .fault f (some x) r _ => if x = ctx ∧ r.code = 0x06 ∧ r.sub = 7 then some (f, r.addr.toNat) else none
  | _ => none

/-- The first writes to a piece are served as one fault: the piece is copied, and every writer of it goes on (R193, R237). -/
def State.serveWriters (s : State) (die ctx asid va : Nat) : State :=
  let s := s.serveSnap die ctx asid va
  let hit (r : Request) : Bool := (snapAt ctx r).any (fun x => x.2 / 65536 == va / 65536)
  let waiting := s.dies.flatMap (fun d => d.2.requests.filterMap (fun e => if hit e.2 then snapAt ctx e.2 else none))
  let s := waiting.foldl (fun s x => s.letGo x.1 (some ctx)) s
  let same (r : Request) : Bool := hit r || (match r with
    | .engine _ (some x) _ a 7 => x == ctx && a / 65536 == va / 65536
    | _ => false)
  { s with dies := s.dies.mapVal (fun _ d => { d with requests := d.requests.keep (fun _ r => !same r) }) }

/-- What the firmware does with a fault (R226, R302, R472). Its choice holds only where the rules leave it one. -/
def State.dispatchFault (s : State) (d : Nat) (f : Flow) (ctx : Option Nat) (r : TrapRegs) (nested : Bool) (choice : FaultChoice) : State :=
  match s.imageWave f ctx with
  | none => s
  | some w =>
    let en := (((ctx.bind s.contexts.get).map (fun (x : Context) => x.tvec)).getD 0).getLsbD 63
    let record : FaultRecord := { trap := r, reason := if nested then 2 else 1, original := if nested then some w.trap else none }
    if r.escalates nested en then s.fail f ctx w record true
    else if r.code = 0x06 ∧ r.sub = 7 then
      match ctx.bind (fun x => ((s.contexts.get x).bind (fun y => y.asid)).map (fun a => (x, a))) with
      | some (x, a) => (s.serveWriters d x a r.addr.toNat).letGo f ctx
      | none => s
    else if r.code = 0x06 ∧ choice = .serve then s.letGo f ctx
    else if r.code = 0x06 ∧ !nested ∧ en then s.forward f ctx r
    else s.fail f ctx w record false

/-- A job whose fault the steward does not serve ends, if it is still there and still meets it (R226, R279): a stage by R123, an entry with its status. An entry whose STATUS
cannot be written completes without it, and one that has ended leaves a barrier that it cannot reach as it is. -/
def State.endJob (s : State) (d asid va : Nat) : Stalled → State
  | .stage c g win st addr =>
    match (s.group? c g).bind (fun q => (q.windows.get win).bind (fun w => w.bound)) with
    | none => s
    | some b =>
      let r := regionOf b.region
      let reads := (List.range (r.rows * r.rowBytes / 32)).any (fun k => r.sourceByte b.base st (32 * k) == va)
      let open_ := (b.stages.get st).any (fun t => t.unlanded != 0 && t.failed.isNone)
      if reads && open_ && (s.core c).asid == asid && (match (s.engineRead d asid va 32).2 with
        | .ok _ => false
        | .error _ => true) then s.failStage c g win st addr else s
  | .entry chain seq dest =>
    match s.chains.get chain with
    | none => s
    | some c =>
      let still := match (s.translateDie d asid va (if dest then .write else .read) false).2 with
        | .ok _ => false
        | .error _ => true
      let aux := (entryOf c.entry).aux
      if !still || s.chainAs c != asid || s.seqNow chain c != seq || s.chainState chain != 1 then s
      else if c.running.isNone then s.endStart chain c [] (if dest then 3 else 2)
      else if dest && c.done && va == s.chainWord chain 0 + 4 then s.modChain chain (fun c => { c with mute := true })
      else s.modChain chain (fun c => { c.fail (if dest then 3 else 2) with counted := c.counted && !(dest && c.ended && va == aux) })
  | .drain _ => s

/-- What the firmware does with a page fault of an engine (R193, R226). -/
def State.dispatchEngine (s : State) (d : Nat) (job : Stalled) (ctx : Option Nat) (asid va sub : Nat) (choice : FaultChoice) : State :=
  if sub = 7 then ctx.elim s (fun x => s.serveWriters d x asid va)
  else if choice = .serve ∧ sub ≠ 6 ∧ sub ≠ 8 then s
  else s.endJob d asid va job

/-- STEWARD_FAULT_DISPATCH (R226). -/
def execStewardFaultDispatch (die index : Nat) (choice : FaultChoice) (s : State) : Out :=
  .next <|
    if (s.die die).frozen then s
    else
      let rest := s.modDie die (fun q => { q with requests := q.requests.del index })
      match (s.die die).requests.get index with
      | some (.fault f ctx r nested) => rest.dispatchFault die f ctx r nested choice
      | some (.engine job ctx asid va sub) => rest.dispatchEngine die job ctx asid va sub choice
      | _ => s

/-- SNAPSHOT_COPY (R193): a first write that waits for a piece of a launch's write set is served. -/
def execSnapshotCopy (launch piece : Nat) (s : State) : Out :=
  .next <|
    match s.launches.get launch with
    | none => s
    | some l =>
      let waits := s.dies.any (fun d => d.2.requests.any (fun e => (snapAt l.context e.2).any (fun x => x.2 / 65536 == piece) || (match e.2 with
        | .engine _ (some x) _ a 7 => x == l.context && a / 65536 == piece
        | _ => false)))
      match (s.contexts.get l.context).bind (fun c => c.asid.map (fun a => (c.die, a))) with
      | some (die, asid) => if l.protectedPieces.contains piece && waits then s.serveWriters die l.context asid (piece * 65536) else s
      | none => s

end Sys2Proof.Machine
end

