-- ==== Sys2Proof/Machine/Csr.lean ====
section
/-! DEFINITION. The register instructions (R429 to R433 of spec/23_ref_engines_system.md). -/

namespace Sys2Proof.Machine

/-- The register that a number names for a flow, or the trap (R430, R431). -/
def State.namedReg (s : State) (e : Issuer) (n : Nat) : Except Trap RegId :=
  match e.f with
  | .wave c _ =>
    if e.p.sb ≠ .var 0 then .error .illegal
    else if n < 0x100 then .ok (.wave e.f n)
    else if n < 0x200 then .ok (.core c n)
    else if n < 0x300 then .error (.privilege n)
    else .error .illegal
  | .steward d _ =>
    if n < 0x100 then .ok (.wave e.f n)
    else if n < 0x200 then
      let c := (lo32 (s.srcB e e.lead)).toNat
      if 63 < c then .error .illegal else .ok (.core (64 * d + c) n)
    else .ok (.die d n)

/-- The register that an instruction may read or write (R431): a number that is not in the table is illegal, and a privilege below the table's is refused. -/
def State.regAccess (s : State) (e : Issuer) (n : Nat) (write : Bool) : Except Trap (RegId × RegSpec) :=
  match s.namedReg e n with
  | .error t => .error t
  | .ok r =>
    match s.regSpec r with
    | none => .error .illegal
    | some p =>
      let priv := e.w.privilege e.f
      if (if write then p.write < 4 && priv < p.write else priv < p.read) then .error (.privilege n) else .ok (r, p)

/-- The register number of a register instruction (R415). -/
def regNumber (x : XArgs) : Nat := x.immBits 11 0

/-- The group slot whose accumulators a flow's reads of MSTAT see (R431). -/
def Issuer.regGroup (e : Issuer) : Option Nat := if isSteward e.f then none else some e.w.group

/-- `csrr` (R429). -/
def execCsrr (x : XArgs) (s : State) : Out :=
  perform (.csrr x) (fun s e =>
    match s.regAccess e (regNumber x) false with
    | .error t => .error (.trap t)
    | .ok (r, _) => .ok (resultPlan e none false (fun _ _ => wordsOf (BitVec.ofNat 64 (s.readReg r e.lead e.regGroup))) (fun _ _ => {}))) s

/-- A write of a register by one of the three ways (R432). A register that no privilege writes ignores it. -/
def regPlan (x : XArgs) (op : RegOp) (s : State) (e : Issuer) : Except Hold Plan :=
  match s.regAccess e (regNumber x) true with
  | .error t => .error (.trap t)
  | .ok (r, p) =>
    let a := (s.srcA e e.lead).toNat
    .ok { commit := fun _ t => if p.write = 4 then t else t.writeReg r op a (2 ^ 64 - 1) }

/-- `csrw` (R432). -/
def execCsrw (x : XArgs) (s : State) : Out := perform (.csrw x) (regPlan x .write) s

/-- `csrs` (R432). -/
def execCsrs (x : XArgs) (s : State) : Out := perform (.csrs x) (regPlan x .set) s

/-- `csrc` (R432). -/
def execCsrc (x : XArgs) (s : State) : Out := perform (.csrc x) (regPlan x .clear) s

end Sys2Proof.Machine
end

