-- ==== Sys2Proof/Machine/Ranks.lean ====
section
/-! DEFINITION. The rank instructions and the handler's reach into single lanes (R44, R47 to R52 of spec/03_variables_and_ranks.md, R369 to R374 of
spec/21_ref_lanes_ranks_control.md). -/

namespace Sys2Proof.Machine

/-- The variable that a naming source field holds (R363). -/
def varOf (x : Src) : Nat :=
  match x with
  | .var n => n.toNat
  | _ => 0

/-- `rkq` (R47). -/
def State.splitMask (s : State) (e : Issuer) (x : Nat) : DWord :=
  match s.rank e.f e.w x with
  | .lane => e.w.live
  | .wave => LaneMask.ofList ((e.w.laneCopies.filter (fun k => k.1 / 64 == x)).map (fun k => k.1 % 64))
  | .group =>
    match e.f with
    | .wave c _ =>
      LaneMask.ofList ((((s.core c).waves.filter (fun k => k.2.group == e.w.group && (k.2.copies.get x).isSome))).map (fun k => k.2.number))
    | .steward _ _ => 0

/-- `rkhome` (R47). -/
def State.homeCopy (s : State) (e : Issuer) (x l : Nat) : Word :=
  match s.rank e.f e.w x with
  | .lane => e.w.slots.getD (64 * x + l) 0
  | .wave => e.w.copies.getD x 0
  | .group => s.groupHome e.f x

/-- Set the home copy of a wave-home variable, or the wave's copy of a group-home one, and discard every lane copy of it (R48, R49). -/
def Wave.collapse (w : Wave) (x : Nat) (v : Word) : Wave := ({ w with copies := w.copies.set x v }.dropLanes x).fixOctets

/-- `merge.chk` (R48): the wave after it, and its result. -/
def State.mergeCheck (s : State) (e : Issuer) (w : Wave) (x : Nat) : Wave × Bool :=
  let vals := (LaneMask.toList w.live).map (s.readVar e.f w x)
  let v := (vals.head?).getD 0
  if vals.all (· == v) then
    let w' := w.collapse x v
    if s.rank e.f w x = .group then
      if v = s.groupHome e.f x then ({ w' with copies := w'.copies.del x }, true) else (w', false)
    else (w', true)
  else (w, false)

/-- A variable has no split in a wave (R48): no lane copy, and of a group-home variable no wave copy. -/
def State.unsplit (s : State) (e : Issuer) (w : Wave) (x : Nat) : Bool :=
  !w.laneCopies.any (fun k => k.1 / 64 == x) && (s.rank e.f w x != .group || (w.copies.get x).isNone)

/-- `merge.chk` (R370): the collapse, then the result to every lane of the run. Under NWB no copy is created or discarded (R55), and the result says whether the variable has no split
as it stands, which is the model's choice (log 91). -/
def execMergeChk (x : XArgs) (s : State) : Out :=
  perform (.mergeChk x) (fun s e =>
    let n := varOf x.sa
    if s.rank e.f e.w n = .lane then .error (.trap .illegal)
    else
      let (w', merged) := s.mergeCheck e e.w n
      let r := if e.p.nwb then s.unsplit e e.w n else merged
      let v : LaneMask → Nat → List Word := fun _ _ => [BitVec.ofNat 32 (b2n r)]
      let pl := resultPlan e none false v (fun _ _ => {})
      let commit (run : LaneMask) (s : State) : State :=
        if e.p.nwb then s
        else
          let s := s.modFlow e.f (fun w => { w with copies := w'.copies, laneCopies := w'.laneCopies, octets := w'.octets, overflowed := w'.overflowed })
          s.putWords e run (v run)
      .ok { pl with commit }) s

/-- `merge.lane` (R371). Under NWB no copy is created or discarded (R55). Its latch entry is invalid: the model's choice (log 91). -/
def execMergeLane (x : XArgs) (s : State) : Out :=
  perform (.mergeLane x) (fun s e =>
    let n := x.dst.toNat
    let named := match x.sa with
      | .var k => s.rank e.f e.w k.toNat == .lane
      | _ => false
    if s.rank e.f e.w n = .lane || named then .error (.trap .illegal)
    else
      let commit (run : LaneMask) (s : State) : State :=
        let l := (s.srcA e (LaneMask.lowest run)).toNat % 64
        if e.w.live.getLsbD l && !e.p.nwb then
          let v := s.readVar e.f e.w n l
          let s := s.modFlow e.f (fun w => w.collapse n v)
          if s.rank e.f e.w n = .group then s.noteWrite e.f n else s
        else s
      .ok { commit }) s

/-- `merge.g` (R372): the capture of R50. Under NWB none is made, because it would discard copies when it applies (R55). Its latch entry is invalid: the model's choice (log 91). -/
def execMergeG (x : XArgs) (s : State) : Out :=
  perform (.mergeG x) (fun s e =>
    let n := x.dst.toNat
    if s.rank e.f e.w n ≠ .group then .error (.trap .illegal)
    else match s.groupOf e.f with
      | none => .error (.trap .illegal)
      | some (core, g, grp) =>
        let off := (s.srcA e e.lead).toNat % 2 ^ 24
        let ok := off % 16 == 0 && (grp.barriers.get off).any (fun b => b.scope == 1)
        if !ok then .error (.trap { code := 0x0C, addr := off })
        else
          let commit (run : LaneMask) (s : State) : State :=
            let cap : Capture := { wave := e.w.number, var := n, barrier := off, value := s.readVar e.f e.w n (LaneMask.lowest run), written := false }
            if e.p.nwb then s else s.modGroup core g (fun q =>
              { q with captures := q.captures.filter (fun k => !(k.wave == cap.wave && k.var == n && k.barrier == off)) ++ [cap] })
          .ok { commit }) s

/-- `rkq` (R369). -/
def execRkq (x : XArgs) (s : State) : Out :=
  perform (.rkq x) (fun s e => .ok (resultPlan e none false (fun _ _ => wordsOf (s.splitMask e (varOf x.sa))) (fun _ _ => {}))) s

/-- `rkhome` (R369). -/
def execRkhome (x : XArgs) (s : State) : Out :=
  perform (.rkhome x) (fun s e => .ok (resultPlan e none false (fun _ l => [s.homeCopy e (varOf x.sa) l]) (fun _ _ => {}))) s

/-- The lane that `lread` and `lwrite` reach, and VAR (R374). -/
def State.reached (s : State) (e : Issuer) : Nat := (s.srcA e e.lead).toNat % 64

/-- The octet of the lane reached, where it is overflowed (R40, R374). -/
def State.reachedOctet (s : State) (e : Issuer) (n : Nat) (wide : Bool) : Option (Nat × Nat) :=
  let k := s.reached e / 8
  (if wide then [n, n + 1] else [n]).findSome? (fun v => if e.w.overflowed.contains (8 * v + k) then some (v, k) else none)

/-- The octet that the write of a live lane needs (R39, R374), where the wave holds none for it and no octet of the file is free: the handler parks for it (R40). -/
def State.octetNeeded (s : State) (e : Issuer) (n : Nat) (wide : Bool) : Option (Nat × Nat) :=
  let l := s.reached e
  let vars := if wide then [n, n + 1] else [n]
  match e.f with
  | .steward _ _ => none
  | .wave c _ =>
    let lacks (v : Nat) : Bool := s.rank e.f e.w v != .lane && !e.w.octets.contains (8 * v + l / 8)
    if e.w.live.getLsbD l && decide (s.octetRoom c < s.splitOctets c + (vars.filter lacks).length) then (vars.find? lacks).map (fun v => (v, l / 8)) else none

/-- `lread` (R374). -/
def execLread (x : XArgs) (s : State) : Out :=
  perform (.lread x) (fun s e =>
    let n := x.immBits 6 0
    let l := s.reached e
    match s.reachedOctet e n x.w64 with
    | some (v, k) => .error (.park s (.octet v k))
    | none =>
      let r : List Word := if e.w.live.getLsbD l then [s.readVar e.f e.w n l, if x.w64 then s.readVar e.f e.w (n + 1) l else 0] else [0, 0]
      .ok (resultPlan e none false (fun _ _ => r) (fun _ _ => {}))) s

/-- A write of one lane of a variable of a flow (R44, R374). -/
def State.writeLane (s : State) (f : Flow) (x l : Nat) (v : Word) : State :=
  match s.flow? f with
  | none => s
  | some w =>
    let r := s.rank f w x
    let s := s.setFlow f (w.writeOne r (s.groupHome f x) x l v)
    if r = .group then s.noteWrite f x else s

/-- Lane copies of variables of a wave have been written for one lane, which heals and may strike their words (R468, R477). -/
def State.laneWritten (s : State) (f : Flow) (vars : List Nat) (l : Nat) (site : Site) : State :=
  match f with
  | .wave c k => s.fileWritten c k vars false (BitVec.ofNat 64 (2 ^ l)) site
  | .steward _ _ => s

/-- `lwrite` (R374). -/
def execLwrite (x : XArgs) (s : State) : Out :=
  perform (.lwrite x) (fun s e =>
    let n := x.immBits 6 0
    let l := s.reached e
    match (s.reachedOctet e n x.w64).or (s.octetNeeded e n x.w64) with
    | some (v, k) => .error (.park s (.octet v k))
    | none =>
      let v := s.srcB e e.lead
      let commit (_ : LaneMask) (s : State) : State :=
        if e.w.live.getLsbD l then
          let s := s.writeLane e.f n l (lo32 v)
          let s := if x.w64 then s.writeLane e.f (n + 1) l (hi32 v) else s
          s.laneWritten e.f (if x.w64 then [n, n + 1] else [n]) l (e.c.addr, 0)
        else s
      .ok { commit }) s

end Sys2Proof.Machine
end

