-- ==== Sys2Proof/Machine/Debug.lean ====
section
/-! DEFINITION. The debug instructions (R441 to R445 of spec/23_ref_engines_system.md), the Fox port (R457) and trail records (R460 to R462 of
spec/24_debug_and_observation.md). -/

namespace Sys2Proof.Machine

/-! ### Naming a wave (R441) -/

/-- The core and slot that a wave identifier names, where it is well formed. -/
def waveIdent (die id : Nat) : Option (Nat × Nat) :=
  if id / 2 ^ 13 ≠ 0 ∨ 96 ≤ id % 128 then none else some (64 * die + bits id 12 7, id % 128)

/-- The target wave of a debug instruction, or the status that refuses it (log 33 gives the order). -/
def State.debugTarget (s : State) (e : Issuer) (id asid : Nat) : Except Nat (Nat × Nat × Wave) :=
  match waveIdent (flowDie e.f) id with
  | none => .error 3
  | some (c, k) =>
    let q := s.core c
    match q.context, q.waves.get k with
    | some _, some w => if q.asid ≠ asid then .error 6 else .ok (c, k, w)
    | _, _ => .error 1

/-- The plan of a debug instruction that writes a status. -/
def debugStatus (e : Issuer) (status : Nat) : Plan := resultPlan e none false (fun _ _ => [BitVec.ofNat 32 status]) (fun _ _ => {})

/-- A debug instruction that acts and writes status 0. -/
def debugPlan (x : XArgs) (act : State → Issuer → Nat → Nat → Wave → Except Nat (State → State)) (s : State) (e : Issuer) : Except Hold Plan :=
  match s.debugTarget e (s.srcA e e.lead).toNat (x.immBits 9 0) with
  | .error st => .ok (debugStatus e st)
  | .ok (c, k, w) =>
    match act s e c k w with
    | .error st => .ok (debugStatus e st)
    | .ok g => let pl := debugStatus e 0; .ok { pl with commit := fun run s => g (pl.commit run s) }

/-- Every live lane of a wave is halted. -/
def Wave.stopped (w : Wave) : Bool := w.live &&& ~~~w.halted == 0

/-! ### `dhalt` and `dresume` (R442, R443) -/

/-- Halt every live lane of a wave. -/
def State.haltWave (s : State) (f : Flow) : State :=
  match s.flow? f with
  | none => s
  | some w => if w.stopped then s else (s.haltLanes f w.live).traceEvent f 4 0xFF (w.live &&& ~~~w.halted)

/-- The waves of a group or gang other than the target finish a clause that they have started, and halt at its end (R442, R454). -/
def State.stopOthers (s : State) (c k : Nat) (w : Wave) (scope : Nat) : State :=
  if scope = 2 then s.stopGang (.wave c k)
  else if scope = 1 then
    s.modCore c (fun q => { q with waves := q.waves.mapVal (fun j v => if v.group = w.group ∧ j ≠ k ∧ !v.stopped then { v with stopping := true } else v) })
  else s

/-- `dhalt` (R442). -/
def execDhalt (x : XArgs) (s : State) : Out :=
  perform (.dhalt x) (debugPlan x (fun _ _ c k w =>
    let scope := x.immBits 11 10
    if scope = 3 then .error 3 else .ok (fun s => (s.haltWave (.wave c k)).stopOthers c k w scope))) s

/-- Resume halted lanes of a wave (R443). -/
def State.resumeLanes (s : State) (c k : Nat) (mask : LaneMask) : State :=
  let f : Flow := .wave c k
  match s.flow? f with
  | none => s
  | some w =>
    let lanes : LaneMask := mask &&& w.halted &&& w.live
    if lanes = 0 then s
    else
      let s := s.modFlow f (fun w => { w with halted := w.halted &&& ~~~lanes, stopping := false })
      (s.refreshGroup c w.group).traceEvent f 5 0 lanes

/-- `dresume` (R443). -/
def execDresume (x : XArgs) (s : State) : Out :=
  perform (.dresume x) (debugPlan x (fun s e c k _ => let mask := s.srcB e e.lead; .ok (fun s => s.resumeLanes c k mask))) s

/-! ### `dstep` (R444) -/

/-- Begin a step of lanes that stand halted at one place: their clause stands ready for them alone, and the trace has its start (R465). -/
def State.beginStep (s : State) (e : Issuer) (target : Flow) (lanes : LaneMask) (addr word : Nat) (h : Word) (ws : List Word) : State :=
  match s.flow? target with
  | none => s
  | some w =>
    let d : DStep := { steward := e.f, dst := e.p.dst.toNat, nwb := e.p.nwb, target, lanes, clause := w.clause, latches := w.latches, handler := w.handler,
                       word, seq := match target with
                         | .wave c _ => (s.core c).matrix.seq
                         | .steward _ _ => 0 }
    let c : Clause := { addr, header := h, words := ws, pos := max 1 word, run := lanes }
    let s := s.modFlow target (fun w => { w with
      clause := some c
      latches := if word = 0 then [] else w.keptLatches lanes
      kept := w.kept.keep (fun l _ => !lanes.getLsbD l)
      halted := w.halted &&& ~~~lanes
      handler := false })
    { (s.traceClause target c (word != 0)).modFlow e.f (fun w => { w with park := some .dstep }) with dstep := some d }

/-- `dstep` (R444): the lanes are checked and their clause is fetched; the step itself follows. -/
def execDstep (x : XArgs) (s : State) : Out :=
  perform (.dstep x) (fun s e =>
    match s.debugTarget e (s.srcA e e.lead).toNat (x.immBits 9 0) with
    | .error st => .ok (debugStatus e st)
    | .ok (c, k, w) =>
      let lanes : LaneMask := s.srcB e e.lead
      let at_ := w.position (LaneMask.lowest lanes)
      if lanes = 0 || lanes &&& w.live &&& w.halted != lanes || !(LaneMask.toList lanes).all (fun l => w.position l == at_) then .ok (debugStatus e 2)
      else
        match s.fetchClause (.wave c k) at_.1 with
        | (s', .error t) => .ok { debugStatus e (4 + t.code * 256 + t.sub * 65536) with st := some s' }
        | (s', .ok (h, ws)) =>
          if ws.length < at_.2 then .ok { debugStatus e (4 + 2 * 256) with st := some s' }
          else .ok { st := some s', after := fun s => s.beginStep e (.wave c k) lanes at_.1 at_.2 h ws }) s

/-! ### `dread` and `dwrite` (R445) -/

/-- What a selector names. -/
inductive Selected where
  | var (x lane : Nat)
  | home (x : Nat)
  | reg (n : Nat)
  | lane (l : Nat)
  deriving DecidableEq, Repr

/-- Read a selector; none for a reserved use. -/
def selected (v : Nat) : Option Selected :=
  if bits v 29 13 ≠ 0 then none
  else match bits v 31 30 with
    | 0 => some (.var (v % 128) (bits v 12 7))
    | 1 => if bits v 12 7 ≠ 0 then none else some (.home (v % 128))
    | 2 => if 0xFF < v % 8192 then none else some (.reg (v % 8192))
    | _ => if v % 128 ≠ 0 then none else some (.lane (bits v 12 7))

/-- The lanes that a selector names are halted; kind 0b00 takes a lane that is not live too (R445). -/
def Selected.ready (x : Selected) (w : Wave) : Bool :=
  match x with
  | .var _ l => !w.live.getLsbD l || w.halted.getLsbD l
  | .lane l => w.live.getLsbD l && w.halted.getLsbD l
  | .home _ | .reg _ => w.stopped

/-- The home copy of a variable of a flow (R47); a lane-home variable has none. -/
def State.homeOf (s : State) (f : Flow) (w : Wave) (x : Nat) : Option Word :=
  match s.rank f w x with
  | .lane => none
  | .wave => some (w.copies.getD x 0)
  | .group => some (s.groupHome f x)

/-- A lane's counter, word and marks, as kind 0b11 reads them. -/
def Wave.laneItem (w : Wave) (l : Nat) : Nat :=
  w.counter.getD l 0 % 2 ^ 48 + w.word.getD l 0 % 16 * 2 ^ 48 + b2n (w.halted.getLsbD l) * 2 ^ 62 + b2n (w.live.getLsbD l) * 2 ^ 63

/-- What `dread` returns for a selector of a wave, or its status. -/
def State.debugRead (s : State) (f : Flow) (w : Wave) (x : Selected) : Except Nat Nat :=
  match x with
  | .var v l => .ok (if w.live.getLsbD l then (s.readVar f w v l).toNat else 0)
  | .home v => match s.homeOf f w v with
    | some u => .ok u.toNat
    | none => .error 3
  | .reg n => if n = 0xF0 then .ok w.haltInfo.toNat else if (waveSpec false n).isSome then .ok (s.waveReg f n (LaneMask.lowest w.live)) else .error 3
  | .lane l => .ok (w.laneItem l)

/-- `dread` (R445): the status, zero and the value. -/
def execDread (x : XArgs) (s : State) : Out :=
  perform (.dread x) (fun s e =>
    let r : Except Nat Nat := match s.debugTarget e (s.srcA e e.lead).toNat (x.immBits 9 0) with
      | .error st => .error st
      | .ok (c, k, w) =>
        match selected (lo32 (s.srcB e e.lead)).toNat with
        | none => .error 3
        | some sel => if sel.ready w then s.debugRead (.wave c k) w sel else .error 2
    let ws : List Word := match r with
      | .ok v => [0, 0] ++ wordsOf (BitVec.ofNat 64 v)
      | .error st => [BitVec.ofNat 32 st, 0, 0, 0]
    .ok (resultPlan e none false (fun _ _ => ws) (fun _ _ => {}))) s

/-- Every wave of a group is halted. -/
def State.groupStopped (s : State) (c g : Nat) : Bool := (s.core c).waves.all (fun e => e.2.group != g || e.2.stopped)

/-- What `dwrite` does for a selector, or its status. For R50 only a write by kind 0b00 counts as a write of the wave after its capture of a group-home variable; that a write of the home
copy by kind 0b01 does not is the model's choice, which the spec leaves open (log 103). -/
def State.debugWrite (s : State) (c k : Nat) (w : Wave) (x : Selected) (v : DWord) : Except Nat (State → State) :=
  let f : Flow := .wave c k
  match x with
  | .var n l => if w.live.getLsbD l then .ok (fun s => ((s.callBack f [n] [l]).writeLane f n l (lo32 v)).settle f) else .error 2
  | .home n =>
    match s.rank f w n with
    | .lane => .error 3
    | .wave => .ok (fun s => s.modFlow f (fun w => { w with copies := w.copies.set n (lo32 v) }))
    | .group => if s.groupStopped c w.group then .ok (fun s => s.modGroup c w.group (fun q => { q with home := q.home.set n (lo32 v) })) else .error 2
  | .reg n => if n = 0 ∨ n = 0x41 ∨ n = 0x47 then .ok (fun s => s.writeReg (.wave f n) .write v.toNat (2 ^ 64 - 1)) else .error 3
  | .lane l =>
    if w.live.getLsbD l then
      .ok (fun s => s.modFlow f (fun w => { w with counter := w.counter.set l (v.toNat % 2 ^ 48), word := w.word.del l, kept := w.kept.del l }))
    else .error 2

/-- A debugger's write has written words of the variable file, or of the wave's record (R468, R477). -/
def State.debugWritten (s : State) (c k : Nat) (x : Selected) (site : Site) : State :=
  match x with
  | .var n l => s.laneWritten (.wave c k) [n] l site
  | .home n => s.fileWritten c k [n] true 0 site
  | .reg _ | .lane _ => s.recordWritten c k site

/-- `dwrite` (R445). -/
def execDwrite (x : XArgs) (s : State) : Out :=
  perform (.dwrite x) (debugPlan x (fun s e c k w =>
    match selected (lo32 (s.srcB e e.lead)).toNat with
    | none => .error 3
    | some sel =>
      if sel.ready w then (s.debugWrite c k w sel (s.srcC e e.lead)).map (fun g s => (g s).debugWritten c k sel (e.c.addr, 0)) else .error 2)) s

/-! ### The Fox port (R457) -/

/-- The answer to a request: its status byte and its 32-bit value. -/
def State.foxValue (s : State) (c k : Nat) (item : FoxItem) : Nat × Nat :=
  let f : Flow := .wave c k
  match (s.core c).context, (s.core c).waves.get k with
  | some _, some w =>
    match item with
    | .var n l => if w.live.getLsbD (l % 64) then (0, (s.readVar f w (n % 128) (l % 64)).toNat) else (2, 0)
    | .home n => (0, ((s.homeOf f w (n % 128)).getD 0).toNat)
    | .wstat => (0, w.wstat.value)
    | .rstkLow => (0, w.rstk (LaneMask.lowest w.live) % 2 ^ 32)
    | .rstkHigh => (0, w.rstk (LaneMask.lowest w.live) / 2 ^ 32)
    | .counterLow l => if w.live.getLsbD (l % 64) then (0, w.laneItem (l % 64) % 2 ^ 32) else (2, 0)
    | .counterHigh l =>
      let v := w.laneItem (l % 64)
      if w.live.getLsbD (l % 64) then (0, bits v 51 32 + b2n (bit v 62) * 2 ^ 30 + b2n (bit v 63) * 2 ^ 31) else (2, 0)
  | _, _ => (1, 0)

/-- FOX_READ (R457): the answer goes to the management port, where the steward firmware has admitted the session that asks, which is a free value (log 120); the wave is left as it
is. -/
def execFoxRead (die core slot : Nat) (item : FoxItem) (s : State) : Out :=
  let r := s.foxValue (64 * die + core % 64) slot item
  let t := { s with fresh := s.fresh + 1 }
  .next (if Config.sessionAdmitted s.fresh then t.report die (0x100 + r.1) r.2 else t)

/-! ### Trail records (R459 to R462) -/

/-- A trail record (R461). -/
def trailBytes (core asid serial : Nat) (t : TrailTag) (r : TrailData) : List Byte :=
  bytesOfNat 6 t.pc ++ bytesOfNat 2 (t.slot % 128 + core % 64 * 128) ++ bytesOfNat 2 (asid % 1024) ++ bytesOfNat 1 (r.level % 8) ++ bytesOfNat 1 t.lanes ++ bytesOfNat 4 serial
    ++ ((List.range 5).flatMap (fun k => bytesOfNat 2 (min 65535 (r.lat.getD k 0)))) ++ bytesOfNat 6 0

/-- A record enters a core's buffer, which is written to memory when it holds 32 (R462). -/
def State.pushTrail (s : State) (core : Nat) (bs : List Byte) : State :=
  let s := s.modCore core (fun q => { q with trailBuf := q.trailBuf ++ [bs], trailSerial := (q.trailSerial + 1) % 2 ^ 32 })
  if 32 ≤ (s.core core).trailBuf.length then s.flushTrail core else s

/-- The record of a scheduler's tagged instruction, once it has written back (R460, R461). LEVEL and the cycle counts are the event's. -/
def State.trailRecord (s : State) (core scheduler : Nat) (r : TrailData) : State :=
  let q := s.core core
  match q.trailTags.get scheduler with
  | none => s
  | some t =>
    match q.waves.get t.slot with
    | none => s
    | some w =>
      if t.back w then
        (s.modCore core (fun q => { q with trailTags := q.trailTags.del scheduler })).pushTrail core (trailBytes core q.asid q.trailSerial t r)
      else s

/-- TRAIL_RECORD (R460). -/
def execTrailRecord (core scheduler : Nat) (r : TrailData) (s : State) : Out := .next (s.trailRecord core scheduler r)

end Sys2Proof.Machine
end

