-- ==== Sys2Proof/Machine/Engine.lean ====
section
/-! DEFINITION. What the matrix engine does on its own: fills end, operations start, complete, fail or are discarded (R255, R259 to R263, R268, R418, R419,
R470, R477). -/

namespace Sys2Proof.Machine

/-! ### Fills (R255, R418, R470) -/

/-- The words of 32 bytes of a slot that bytes cover (R468). -/
def parityWords (quarter count : Nat) : List Nat := (List.range (128 * count)).map (128 * quarter + ·)

/-- An armed injection into the operand memory strikes a word that a fill writes (R477, R468): words are numbered 512 to a slot (log 22). The word is given, with its wrong bits. -/
def Core.strikeOperand (q : Core) (slot : Nat) (words : List Nat) : Core × Option (Nat × List Nat) :=
  let inj := (q.errInj.getD 5 0).toNat
  let w := bits inj 51 0
  if bit inj 63 ∧ w / 512 = slot ∧ words.contains (w % 512) then
    (q.disarm 5, some (w % 512, if bit inj 62 then [bits inj 61 56, bits inj 61 56 + 1] else [bits inj 61 56]))
  else (q, none)

/-- Bits of a word of a slot come out wrong, and its parity is bad. -/
def Slot.struck (v : Slot) (w : Nat) (wrong : List Nat) : Slot :=
  { v with
    bytes := wrong.foldl (fun t b => Memory.write t (32 * w + b / 8) ((Memory.read t (32 * w + b / 8) 1).map (· ^^^ BitVec.ofNat 8 (2 ^ (b % 8))))) v.bytes
    badParity := v.badParity ++ [w] }

/-- A slot after a fill (R255): its bytes, its tag and the source of each quarter; with a failed source its tag is not valid (R418). -/
def Slot.filled (v : Slot) (f : Fill) : Slot :=
  match f.failure with
  | some _ => { v with valid := false }
  | none =>
    let words := parityWords f.quarter f.count
    let bytes := Memory.write v.bytes (4096 * f.quarter) f.bytes
    { v with
      bytes
      tag := crc32c (Memory.read bytes 0 16384)
      valid := true
      source := (List.range f.count).foldl (fun t k => t.set (f.quarter + k) (f.global, f.address + 4096 * k)) v.source
      badParity := v.badParity.filter (fun w => !words.contains w) }

/-- A fill may end: every operation that must read its slot first has, and no earlier fill of the slot is left (R255). -/
def Matrix.fillReady (m : Matrix) (n : Nat) (f : Fill) : Bool :=
  !(f.after.any (fun k => m.queue.any (fun o => o.seq == k))) && !((m.fills.take n).any (fun g => g.slot == f.slot))

/-- MFILL_COMPLETE (R255, R418): the last byte of a fill is in its slot. -/
def execMfillComplete (core index : Nat) (s : State) : Out :=
  .next <|
    let m := (s.core core).engine
    match m.fills[index]? with
    | none => s
    | some f =>
      if !m.fillReady index f || (s.die (dieOf core)).frozen then s
      else
        let (q, hit) := if f.failure.isSome then (s.core core, none) else (s.core core).strikeOperand f.slot (parityWords f.quarter f.count)
        let filled := (m.slot f.slot).filled f
        let slot := match hit with
          | some (w, wrong) => filled.struck w wrong
          | none => filled
        let s := (s.setCore core q).modMatrix core (fun m => { (m.setSlot f.slot slot) with fills := m.fills.eraseIdx index })
        let s := s.modEngineWave core f.wave (fun w => { (w.lowerFlag f.flag) with imprecise := w.imprecise ++ f.failure.toList })
        (s.settleEngine core).opTryEnd core f.wave

/-! ### Starts (R259, R419) -/

/-- An accepted operation may start (R255, R259). -/
def Matrix.opReady (m : Matrix) (o : MatOp) : Bool :=
  let a := m.acc o.acc
  !o.running && a.version % 2 ^ 32 == o.version && !a.mismatch && !m.runs o.acc && !(m.fills.any (fun f => f.seq < o.seq && o.reads.contains f.slot))

/-- The operations that may start, in the order of acceptance. -/
def Matrix.ready (m : Matrix) : List MatOp := m.queue.filter m.opReady

/-- An operation runs. -/
def State.runOp (s : State) (c : Nat) (o : MatOp) (data : List Byte) : State :=
  s.modMatrix c (fun m => { m with queue := m.queue.map (fun x => if x.seq = o.seq then { x with running := true, data } else x) })

/-- A tile of 128 rows touches a guard line of a group's allocation: the access is discarded whole (R114). -/
def Record.tileGuard (r : Record) (addr pitch : Nat) : Bool := (pitchLines addr pitch).any (fun o => inGuard r.allocation (inSpace false o) 128)

/-- The rows of an `mload` as it starts (R419): the state, and the bytes or the fault of the first row that fails: CODE, SUB and TADDR (R291, R470). -/
def State.loadRows (s : State) (c g : Nat) (global : Bool) (addr pitch : Nat) : State × Except (Nat × Nat × Nat) (List Byte) :=
  if !global && ((s.core c).engineGroup g).any (fun q => (s.recordOf q).tileGuard addr pitch) then (s, .ok (List.replicate 65536 0))
  else (List.range 128).foldl (fun (a : State × Except (Nat × Nat × Nat) (List Byte)) i =>
    match a.2 with
    | .error x => (a.1, .error x)
    | .ok bs =>
      let row := (List.range 4).map (fun k => addr + pitch * i + 128 * k)
      match a.1.rereadLines c g global row with
      | (s, .ok b) => (s, .ok (bs ++ b))
      | (s, .error (.word w)) => (s, .error (0x15, 2, w))
      | (s, .error .differs) =>
        let va := inSpace global (addr + pitch * i)
        (s, .error (rowFault s c va))) (s, .ok [])
where
  /-- CODE, SUB and TADDR of a row that cannot be read (R291). -/
  rowFault (s : State) (c va : Nat) : Nat × Nat × Nat :=
    match (s.translateDie (dieOf c) (s.core c).engineAsid va .read false).2 with
    | .error sub => if sub = 0 then (0x07, 0, va) else (0x06, sub, va)
    | .ok t => if s.poison.contains (lineOf (t.pa + (va - t.va))) || (List.range 4).any (fun k => s.poison.contains (lineOf (t.pa + (va - t.va)) + k)) then (0x06, 6, va)
      else (0x07, 0, va)

/-- A MEMORY_ERROR that the engine meets is the uncorrectable error of its array's log (R470, R476). -/
def State.logEngine (s : State) (c : Nat) (o : MatOp) (code sub addr : Nat) : State :=
  if code = 0x15 then s.logCore c sub true (s.core c).engineAsid addr o.pc o.seq else s

/-- MATRIX_OP_START (R259): the first accepted operation that may start does; an `mload` reads its source, and an `mma` whose slot a failed fill has left
invalid is discarded (R418). -/
def execMatrixOpStart (core index : Nat) (s : State) : Out :=
  .next <|
    let m := (s.core core).engine
    match m.queue[index]?, m.ready.head? with
    | some o, some first =>
      if o.seq ≠ first.seq ∨ (s.die (dieOf core)).frozen then s
      else
        match o.kind with
        | .load global addr pitch _ =>
          match s.loadRows core (((m.acc o.acc).owner).getD 0) global addr pitch with
          | (s, .ok bs) => s.runOp core o bs
          | (s, .error (code, sub, va)) => (((s.logEngine core o code sub va).opFails core o code sub va).settleEngine core).opTryEnd core o.wave
        | .mma _ _ _ =>
          if o.reads.any (fun k => !(m.slot k).valid) then ((s.discardOp core o).settleEngine core).opTryEnd core o.wave else s.runOp core o []
        | _ => s.runOp core o []
    | _, _ => s

/-! ### Drains (R268) -/

/-- The 32 words of line k of a tile (four lines to a row). -/
def Acc.line (a : Acc) (k : Nat) : List Word := (List.range 32).map (fun n => a.at (k / 4) (32 * (k % 4) + n))

/-- The bytes that a drain writes to a line, with its exceptions; `old` is the line before, for `.add`. -/
def Acc.drainLine (a : Acc) (add : Bool) (k : Nat) (old : List Byte) : List Byte × Exc :=
  if !add then (bytesOfWords (a.line k), {})
  else if a.cls = some true then (bytesOfWords ((a.line k).zip (wordsOfBytes old) |>.map (fun p => p.1 + p.2)), {})
  else
    let rs := ((a.line k).zip (wordsOfBytes old)).map (fun p => roundFp32 .rne false (sumExact .rne [f32 p.2, f32 p.1]))
    (bytesOfWords (rs.map Prod.fst), rs.foldl (fun x r => x.or r.2) {})

/-- A global line is written (R148): bytes that a barrier or a chain owns are left alone and logged (R211, R280). -/
def State.drainTo (s : State) (o : MatOp) (asid pa : Nat) (bs : List Byte) (add : Bool) : State :=
  if s.ownedBytes pa 128 then
    (List.range 32).foldl (fun s k =>
      if s.ownedBytes (pa + 4 * k) 4 then s.logDie (paDie pa) 0 true asid (pa + 4 * k) o.pc o.seq
      else s.poke (pa + 4 * k) ((bs.drop (4 * k)).take 4) add o.release) s
  else s.poke pa bs add o.release

/-- What a drain comes to: written; a fault, with its precision; or a stall while the steward serves a protected page (R226), in the state after the walks. -/
inductive Drained where
  | done (s : State) (x : Exc)
  | fault (s : State) (t : Trap) (precise : Bool)
  | stall (s : State)

/-- The lines that a drain writes, translated as it performs, so that none is written by a translation that a `tlbinv` has dropped (R229): the physical addresses, or
the fault of the first line that may not be written. A line that a link no longer reaches is logged as an uncorrectable error of the links (R246, R476). -/
def State.drainLines (s : State) (die asid : Nat) (o : MatOp) : List Nat → State × Except Trap (List Nat)
  | [] => (s, .ok [])
  | va :: rest =>
    match s.translateDie die asid va .write false with
    | (s, .error sub) => (s, .error (pageTrap sub va 0))
    | (s, .ok t) =>
      let pa := t.pa + (va - t.va)
      if s.accessBad die pa 128 .store then (if s.unreachable die (paDie pa) then s.logDie die 5 true asid pa o.pc o.seq else s, .error { code := 0x07, addr := va })
      else match s.drainLines die asid o rest with
        | (s, .ok l) => (s, .ok (pa :: l))
        | (s, .error t) => (s, .error t)

/-- Write a global tile in one update (R148, R268). A write to a protected page stalls while the steward serves the fault (R193, R226). A line that is read for `.add` and
is poisoned makes the imprecise fault of R291; any other is precise at the drain (R421). -/
def State.drainGlobal (s : State) (c : Nat) (o : MatOp) (a : Acc) (addr pitch : Nat) (add : Bool) : Drained :=
  let asid := (s.core c).engineAsid
  let vas := (pitchLines addr pitch).map (inSpace true)
  match s.drainLines (dieOf c) asid o vas with
  | (s, .error t) => if t.code = 0x06 ∧ t.sub = 7 then .stall (s.engineFault (dieOf c) (.drain c) (s.core c).engineContext asid t.addr 7) else .fault s t true
  | (s, .ok lines) =>
    match if add then s.poisonedLine lines vas else none with
    | some va => .fault s { code := 0x06, sub := 6, addr := va } false
    | none =>
      let (s, x) := (lines.zip (List.range 512)).foldl (fun (acc : State × Exc) p =>
        let (bs, y) := a.drainLine add p.2 (acc.1.bytes p.1 128)
        (acc.1.drainTo o asid p.1 bs add, acc.2.or y)) (s, {})
      .done s x

/-- Write a scratchpad tile with the drain's release (R148): a tile that touches a guard line is discarded whole (R114), and a tile of a compressed window that does not fit
faults (R129). -/
def State.drainSpad (s : State) (c g : Nat) (o : MatOp) (a : Acc) (addr pitch : Nat) (add : Bool) : Drained :=
  match (s.core c).engineGroup g with
  | none => .done s {}
  | some q =>
    let r := s.recordOf q
    let step (acc : Except Trap (Group × Exc)) (k : Nat) : Except Trap (Group × Exc) :=
      match acc with
      | .error t => .error t
      | .ok (q, x) =>
        let off := inSpace false (addr + pitch * (k / 4) + 128 * (k % 4))
        match q.barriers.find? (fun b => b.1 < off + 128 && off < b.1 + 16) with
          | some b => .error { code := 0x0C, addr := b.1 }
          | none =>
            match if add then (wordsAt off 128).find? q.poison.contains else none with
            | some w => .error { code := 0x15, sub := 2, addr := w }
            | none =>
              let (bs, y) := a.drainLine add k (Memory.read q.spad off 128)
              match q.store r off bs with
              | some q' => .ok ({ q' with spadTags := tagBytes q'.spadTags off 128 add o.release }, x.or y)
              | none => .error { code := 0x0B, sub := ((r.windowAt off).map Prod.fst).getD 0, addr := off }
    if r.tileGuard addr pitch then .done s {}
    else
      match (List.range 512).foldl step (.ok (q, {})) with
      | .error t => .fault s t true
      | .ok (q', x) =>
        let t := s.setEngineGroup c g q'
        .done (if (s.core c).engineShadow.isSome then t
          else t.spadWritten c g ((List.range 512).flatMap (fun k => wordsAt (inSpace false (addr + pitch * (k / 4) + 128 * (k % 4))) 128)) (o.pc, o.seq)) x

/-! ### Completion (R259 to R263) -/

/-- An armed injection into the accumulators strikes the operation whose completion sets VERSION to VER (R477). -/
def State.strikeAcc (s : State) (c k : Nat) : State :=
  let q := s.core c
  let inj := (q.errInj.getD 6 0).toNat
  let a := q.engine.acc k
  if bit inj 63 ∧ bits inj 15 14 = k ∧ bits inj 47 16 = a.version then
    let n := bits inj 13 0
    let a := { a with elems := a.elems.set n (a.elems.getD n 0 ^^^ BitVec.ofNat 32 (2 ^ (bits inj 61 56 % 32))) }
    (s.modMatrix c (fun m => m.setAcc k a)).modCore c (fun q => { q with errInj := q.errInj.set 6 (BitVec.ofNat 64 (inj - 2 ^ 63)) })
  else s

/-- An operation completes (R259): VERSION rises, its wave goes on, and what waited for it follows. -/
def State.opCompletes (s : State) (c : Nat) (o : MatOp) (a : Acc) : State :=
  let s := s.modMatrix c (fun m => m.setAcc o.acc { a with version := (a.version + 1) % 2 ^ 32 })
  (((s.strikeAcc c o.acc).opLeaves c o (some .matrixDone)).settleEngine c).opTryEnd c o.wave

/-- A verification mismatches (R263): VERSION stays, and the wave takes the tile checksum fault at the instruction on which it is held. -/
def State.opMismatches (s : State) (c : Nat) (o : MatOp) (a : Acc) : State :=
  let a := { a with faultPc := o.pc, faultSeq := o.seq }
  ((s.modMatrix c (fun m => m.setAcc o.acc a)).opTraps c o { a.checksumTrap o.acc false with lane := o.lane }).settleEngine c

/-- The accumulator after an `mma` (R261, R470): the slots it read, and the words of bad parity among them, are those of the engine now. -/
def Matrix.afterMma (m : Matrix) (o : MatOp) (global : Bool) (address : Nat) (block : List Byte) : Acc :=
  let b := blockOf block
  let a := m.acc o.acc
  let a' := a.mma b { a := (m.slot b.slotA).bytes, b := (m.slot b.slotB).bytes, s := (m.slot b.slotS).bytes }
  let cls := a.cls.getD b.int
  let entry : Replay := { global, address, crc := crc32c block, slots := b.slots.map (fun k => (k, (m.slot k).source, (m.slot k).tag, (m.slot k).valid)) }
  { a' with
    cls := some cls
    clsBit := cls
    fmtSeen := a.fmtSeen ||| 2 ^ b.fmt
    replay := if a.replay.length < 16 then a.replay ++ [entry] else a.replay
    noReplay := a.noReplay || decide (16 ≤ a.replay.length)
    forced := a.forced || b.slots.any (fun k => (m.slot k).badParity != []) }

/-- The exceptions of an `mma` as it completes (R72, R73). -/
def Matrix.excOf (m : Matrix) (o : MatOp) (block : List Byte) : Exc :=
  let b := blockOf block
  (m.acc o.acc).mmaExc b { a := (m.slot b.slotA).bytes, b := (m.slot b.slotB).bytes, s := (m.slot b.slotS).bytes }

/-- The words of bad parity that an operation has read are logged (R470, R476). -/
def State.logParity (s : State) (c : Nat) (o : MatOp) : State :=
  let m := (s.core c).engine
  (o.reads.flatMap (fun k => (m.slot k).badParity.map (512 * k + ·))).foldl (fun s w => s.logCore c 5 true (s.core c).engineAsid w o.pc o.seq) s

/-- A drain whose write faults (R291, R421). -/
def State.drainFault (s : State) (c : Nat) (o : MatOp) (t : Trap) (precise : Bool) : State :=
  let s := s.logEngine c o t.code t.sub t.addr
  if precise then s.opTraps c o { t with lane := o.lane } else s.opFails c o t.code t.sub t.addr

/-- The issuing instruction of an operation on which a wave is held, where the wave stands at it still. -/
def State.heldIssuer (s : State) (c : Nat) (o : MatOp) : Option Issuer :=
  let f : Flow := .wave c o.wave
  ((s.flow? f).bind (fun w => w.clause)).bind (fun k =>
    match decodeWords (k.words.drop (k.pos - 1)) with
    | .ok (i, _) => ({ s with cur := f }).issuer i
    | .error _ => none)

/-- The watches of a held operation that is about to complete, as they stood when it issued (R300, R450): the state in which it goes on, or the one in which a halt or a watch
trap has stopped it, with no effect of it. -/
def State.heldGate (s : State) (c : Nat) (o : MatOp) : State × Bool :=
  s.forEngine c (fun s =>
    match s.heldIssuer c o with
    | none => (s, true)
    | some e =>
      match s.gateWith o.watches e {} with
      | .go _ s => (s, true)
      | .halted s => (s.opLeaves c o none, false)
      | .trap t s => (s.opTraps c o t, false))

/-- The touches of a drain's scratchpad tile, as it writes (R119, R120, R268), and the record of a guard touch (R114). -/
def State.drainTouches (s : State) (c : Nat) (o : MatOp) (addr pitch : Nat) : State :=
  (s.forEngine c (fun s =>
    match s.heldIssuer c o with
    | none => (s, ())
    | some e =>
      match s.spadTouches e 128 true [] ((pitchLines addr pitch).map (fun a => (e.lead, inSpace false a))) with
      | .ok (_, _, touches) => (s.touchTile e { s, pas := [], touches }, ())
      | .error _ => (s, ()))).1

/-- The tile of a drain whose verification has passed (R268). -/
def State.drained? (s : State) (c : Nat) (o : MatOp) (a : Acc) (global : Bool) (addr pitch : Nat) (add : Bool) : Drained :=
  if global then s.drainGlobal c o a addr pitch add else s.drainSpad c (a.owner.getD 0) o a addr pitch add

/-- A drain whose verification has passed writes its tile (R268). -/
def State.drain (s : State) (c : Nat) (o : MatOp) (a : Acc) (global : Bool) (addr pitch : Nat) (add : Bool) : State :=
  match s.drained? c o a global addr pitch add with
  | .stall s => s
  | .fault s t precise => ((s.modMatrix c (fun m => m.setAcc o.acc a)).drainFault c o t precise).settleEngine c
  | .done _ _ =>
    match s.heldGate c o with
    | (s, false) => s
    | (s, true) =>
      let s := if global then s else s.drainTouches c o addr pitch
      match (s.modMatrix c (fun m => m.setAcc o.acc a)).drained? c o a global addr pitch add with
      | .done s x => (s.modEngineWave c o.wave (fun w => { w with wstat := w.wstat.raise x })).opCompletes c o a
      | .fault s _ _ | .stall s => s

/-- A verification that has passed completes (R263). -/
def State.verifyPasses (s : State) (c : Nat) (o : MatOp) (a : Acc) : State :=
  match s.heldGate c o with
  | (s, false) => s
  | (s, true) => s.opCompletes c o a

/-- MATRIX_OP_COMPLETE (R259, R261, R263, R268): the operation that runs on an accumulator ends. -/
def execMatrixOpComplete (core acc : Nat) (s : State) : Out :=
  .next <|
    let m := (s.core core).engine
    match (if (s.die (dieOf core)).frozen then none else m.queue.find? (fun o => o.acc == acc && o.running)) with
    | none => s
    | some o =>
      let a := m.acc acc
      let checked := a.verified ((s.core core).tolerance a.fmtSeen)
      match o.kind with
      | .zero => s.opCompletes core o (a.zeroed.newChain .zero none)
      | .load global addr pitch int => s.opCompletes core o ((a.loaded int o.data).newChain (.load global addr pitch (crc32c o.data)) (some int))
      | .mma global addr block =>
        ((s.logParity core o).modEngineWave core o.wave (fun w => { w with wstat := w.wstat.raise (m.excOf o block) })).opCompletes core o (m.afterMma o global addr block)
      | .verify => if checked.mismatch then s.opMismatches core o checked else s.verifyPasses core o checked
      | .drain global addr pitch add _ => if checked.mismatch then s.opMismatches core o checked else s.drain core o checked global addr pitch add

end Sys2Proof.Machine
end

