-- ==== Sys2Proof/Machine/Lanes.lean ====
section
/-! DEFINITION. Shuffles, votes and ballot (R367, R368 of spec/21_ref_lanes_ranks_control.md). -/

namespace Sys2Proof.Machine

/-- Narrow-wave mode (R35). -/
def State.narrow (s : State) (w : Wave) : Bool := (s.launchOf w).any (fun l => l.record.narrow)

/-- G: the lanes of a segment (R367). -/
def State.segment (s : State) (w : Wave) (seg : Nat) : Nat := if seg = 0 then (if s.narrow w then 32 else 64) else 2 ^ seg

/-- The shuffles of R367. -/
inductive Shuffle where
  | idx
  | up
  | down
  | xor
  deriving DecidableEq, Repr

/-- q: the place in the segment that a lane at place `p` reads with operand `n`; none below 0 (R367). -/
def Shuffle.place (k : Shuffle) (p n : Nat) : Option Nat :=
  match k with
  | .idx => some n
  | .up => if n ≤ p then some (p - n) else none
  | .down => some (p + n)
  | .xor => some (p ^^^ n)

/-- The lane whose value a lane receives: its own where the source yields nothing (R367). -/
def Shuffle.source (k : Shuffle) (g : Nat) (run : LaneMask) (l n : Nat) : Nat :=
  match k.place (l % g) n with
  | some q => if q < g ∧ run.getLsbD (l / g * g + q) then l / g * g + q else l
  | none => l

/-- The plan of a shuffle (R367), over the run as it stands when the instruction commits: a lane that a watch halts at it yields nothing (R17, R452, log 119). -/
def shufflePlan (k : Shuffle) (x : XArgs) (s : State) (e : Issuer) : Except Hold Plan :=
  let g := s.segment e.w (x.immBits 2 0)
  .ok (resultPlan e none false (fun run l => wordsOf (s.srcA e (k.source g run l (s.srcB e l).toNat))) (fun _ _ => {}))

/-- The plan of a vote: one value of the run's operands, put to every lane of it (R368); a lane that a watch halts at it is not examined (R17, R452, log 119). -/
def votePlan (v : List DWord → List Nat → DWord) (s : State) (e : Issuer) : Except Hold Plan :=
  .ok (resultPlan e none false (fun run _ => wordsOf (v ((LaneMask.toList run).map (s.srcA e)) (LaneMask.toList run))) (fun _ _ => {}))

/-- A condition as 1 or 0. -/
def flag64 (c : Bool) : DWord := if c then 1 else 0

/-- `ballot` (R368): the lanes that hold a value other than 0. -/
def ballotOf (vs : List DWord) (ls : List Nat) : DWord :=
  LaneMask.ofList (((vs.zip ls).filter (fun e => e.1 != 0)).map Prod.snd)

/-- `vote.eq` (R368). -/
def allSame (vs : List DWord) : Bool := vs.all (fun v => some v == vs.head?)

/-- `shfl.idx` (R367). -/
def execShflIdx (x : XArgs) (s : State) : Out := perform (.shflIdx x) (shufflePlan .idx x) s
/-- `shfl.up` (R367). -/
def execShflUp (x : XArgs) (s : State) : Out := perform (.shflUp x) (shufflePlan .up x) s
/-- `shfl.down` (R367). -/
def execShflDown (x : XArgs) (s : State) : Out := perform (.shflDown x) (shufflePlan .down x) s
/-- `shfl.xor` (R367). -/
def execShflXor (x : XArgs) (s : State) : Out := perform (.shflXor x) (shufflePlan .xor x) s
/-- `vote.any` (R368). -/
def execVoteAny (x : XArgs) (s : State) : Out := perform (.voteAny x) (votePlan (fun vs _ => flag64 (vs.any (· != 0)))) s
/-- `vote.all` (R368). -/
def execVoteAll (x : XArgs) (s : State) : Out := perform (.voteAll x) (votePlan (fun vs _ => flag64 (vs.all (· != 0)))) s
/-- `vote.eq` (R368). -/
def execVoteEq (x : XArgs) (s : State) : Out := perform (.voteEq x) (votePlan (fun vs _ => flag64 (allSame vs))) s
/-- `ballot` (R368). -/
def execBallot (x : XArgs) (s : State) : Out := perform (.ballot x) (votePlan ballotOf) s

end Sys2Proof.Machine
end

