-- ==== Sys2Proof/Machine/Tiers.lean ====
section
/-! DEFINITION. The tiers of a die's memory, walks that fill a TLB, and the charging of a page with an error (R224, R227, R230 to R236 of spec/14_page.md, R469 of
spec/25_reliability.md). -/

namespace Sys2Proof.Machine

/-! ### Granules (R231 to R235) -/

/-- A granule's entry of the tier map. -/
def Die.granule (d : Die) (g : Nat) : Granule := d.tiers.getD g Granule.reset

/-- Set a granule's entry; an entry at its reset value is not listed. -/
def Die.setGranule (d : Die) (g : Nat) (v : Granule) : Die := { d with tiers := if v = Granule.reset then d.tiers.del g else d.tiers.set g v }

/-- TIER_EPOCH (R232): every COUNT is halved, rounding down; EPOCH 0 stops counting. -/
def execTierEpoch (die : Nat) (s : State) : Out :=
  .next (s.modDie die (fun d =>
    if d.tierEpoch = 0 then d
    else { d with tiers := (d.tiers.mapVal (fun _ g => { g with count := g.count / 2 })).keep (fun _ g => g != Granule.reset) }))

/-- The HBM frames in use: of granules held there, and of those that are moving inward. -/
def Die.frames (d : Die) : List Nat := (d.tiers.filter (fun e => e.2.inHbm || e.2.mig)).map (fun e => e.2.frame)

/-- The lowest free HBM frame of the 1,464,331 (R230; log 41). -/
def Die.freeFrame (d : Die) : Option Nat :=
  let used := d.frames
  ((List.range (used.length + 1)).find? (fun k => !used.contains k)).bind (fun k => if k < 1464331 then some k else none)

/-- The granule that moves outward to make room (R233): the least COUNT not above DOWN of those with PINH 0, and among equals the lowest number. -/
def Die.victim (d : Die) : Option Nat :=
  ((d.tiers.filter (fun e => e.2.inHbm && !e.2.mig && !e.2.pinH && decide (e.2.count ≤ d.tierDown))).foldl (fun (m : Option (Nat × Nat)) e =>
    match m with
    | some x => if e.2.count < x.2 then some (e.1, e.2.count) else some x
    | none => some (e.1, e.2.count)) none).map Prod.fst

/-- A granule that must or may move inward (R233). -/
def Die.wantsIn (d : Die) (g : Granule) : Bool := !g.inHbm && !g.mig && (g.pinH || (d.tierEpoch != 0 && decide (d.tierUp ≤ g.count) && !g.pinC))

/-- A granule that must move outward at once (R233). -/
def wantsOut (g : Granule) : Bool := g.inHbm && !g.mig && g.pinC && !g.pinH

/-- A move starts (R233): inward to a free frame, or else the victim's move outward goes first; without a frame or a victim nothing moves. -/
def Die.startMove (d : Die) (n : Nat) : Die :=
  let g := d.granule n
  if wantsOut g then d.setGranule n { g with mig := true }
  else if d.wantsIn g then
    match d.freeFrame with
    | some f => d.setGranule n { g with mig := true, frame := f }
    | none => match d.victim with
      | some v => d.setGranule v { d.granule v with mig := true }
      | none => d
  else d

/-- GRANULE_MOVE_START (R233). -/
def execGranuleMoveStart (die granule : Nat) (s : State) : Out := .next (if granule < 8388608 then s.modDie die (fun d => d.startMove granule) else s)

/-- A move ends (R235): INHBM flips, MIG clears, and IN or OUT counts. -/
def Die.endMove (d : Die) (n : Nat) : Die :=
  let g := d.granule n
  if !g.mig then d
  else if g.inHbm then { d.setGranule n { g with mig := false, inHbm := false, frame := 0, dirty := false } with tierOut := (d.tierOut + 1) % 2 ^ 32 }
  else { d.setGranule n { g with mig := false, inHbm := true, dirty := false } with tierIn := (d.tierIn + 1) % 2 ^ 32 }

/-! ### Walks (R224, R227) -/

/-- PAGE_WALK_COMPLETE (R224, R227): a walk ends at a leaf, sets A and D, and fills the die's TLB; one that faults fills nothing (log 42). -/
def execPageWalkComplete (die asid va : Nat) (write : Bool) (s : State) : Out :=
  .next (if 2 ^ 48 ≤ va then s else (s.walkFill die asid va (if write then .write else .read) (asid == 0)).1)

/-! ### An error that no access consumes (R469, R236) -/

/-- The page that holds a line is POISONED in every context that maps it, and its translations are dropped (R236). -/
def State.chargePage (s : State) (pa : Nat) : State :=
  let hit (e : Nat × Nat × Nat) : Bool := e.2.1 ≤ pa && pa < e.2.1 + e.2.2
  let entries := ((s.contexts.flatMap (fun x => s.leavesOf x.2)).filter hit).map Prod.fst
  let s := entries.foldl (fun s a => s.poke a (bytesOfNat 8 (s.tableWord a ||| 0x200)) false none) s
  ([0, 1, 2, 3] : List Nat).foldl (fun s d => s.dropTlb d (fun t => t.pa ≤ pa && pa < t.pa + t.size)) s

/-- An uncorrectable error of memory is found in a line and not consumed: it is logged, and the page charged. -/
def State.foundInLine (s : State) (die array pa : Nat) : State := (s.logDie die array true 0 pa 0 0).chargePage pa

/-- The poisoned lines of a granule of a die. -/
def State.granulePoison (s : State) (die granule : Nat) : List Nat :=
  s.poison.filter (fun l => paSpace (128 * l) == 0 && paDie (128 * l) == die && paOffset (128 * l) / 65536 == granule)

/-- GRANULE_MOVE_COMPLETE (R235): no value changes. The move finds the granule's poisoned lines, which stay marked (R468, R469). -/
def execGranuleMoveComplete (die granule : Nat) (s : State) : Out :=
  .next <|
    let found := if ((s.die die).granule granule).mig then s.granulePoison die granule else []
    found.foldl (fun s l => s.foundInLine die 1 (128 * l)) (s.modDie die (fun d => d.endMove granule))

/-- A word of a core's array is found to be uncorrectable: it is marked as an injection would mark it (R468; log 22). -/
def State.markWord (s : State) (c array index sub : Nat) : State :=
  match array with
  | 1 => s.modCore c (fun q => { q with shadow := q.shadow.map (fun i => { i with bad := i.bad ++ [index] }) })
  | 2 => s.modGroup c sub (fun g => { g with poison := g.poison ++ [index] })
  | 5 => s.modMatrix c (fun m => m.setSlot (index / 512) { m.slot (index / 512) with badParity := (m.slot (index / 512)).badParity ++ [index % 512] })
  | 0 | 8 | 9 => s.spoil c { array, index, lane := sub }
  | _ => s

/-- Where an uncorrectable error is found that no access consumes (R469): in an array of a die at an address, or in an array of a core at an index, for a lane of the variable
file or a group's slot. -/
inductive Scrubbed where
  | die (die array address : Nat)
  | core (core array index sub : Nat)
  deriving DecidableEq, Repr

/-- The place that a SCRUBBING event names: arrays from 16 on are those of a core. -/
def scrubbedAt (die array address : Nat) : Scrubbed :=
  if array < 16 then .die die array address else .core (64 * die + address % 64) (array - 16) (address / 4096) (address / 64 % 64)

/-- SCRUBBING (R469): an uncorrectable error is logged with ASID 0 and site (0, 0) (R476). A word of a core's array is marked; in an L2 slice or in memory (arrays 0 and 1 of the
die) the line is marked and the page charged. The die arrays that R476 does not name, from 6 on, stand for the shared state of R478, an error of which
fences the die (log 128). -/
def execScrubbing (die array address : Nat) (s : State) : Out :=
  .next <|
    match scrubbedAt die array address with
    | .core core array index sub =>
      if 10 ≤ array then s else (s.logCore core array true 0 index 0 0).markWord core array index sub
    | .die die array address =>
      if 16 ≤ array then s
      else if 6 ≤ array then (s.logDie die array true 0 address 0 0).fenceDie die
      else if 1 < array ∨ paSpace address ≠ 0 ∨ 2 ^ 52 ≤ address then s.logDie die array true 0 address 0 0
      else
        let s := if s.poison.contains (lineOf address) then s else { s with poison := s.poison ++ [lineOf address] }
        s.foundInLine die array address

end Sys2Proof.Machine
end

