-- ==== Sys2Proof/Machine/Links.lean ====
section
/-! DEFINITION. The links between dies, and the fence of a die (R238 to R248, R251 of spec/15_link.md, R303, R471, R478 to R481 of spec/25_reliability.md). -/

namespace Sys2Proof.Machine

/-! ### Flits (R242 to R244, R248) -/

/-- The other end has sent one more flit, and knows how far its flits are acknowledged. What coding has saved of a flit counts at its sender, and for a port whose other
end is outside at its receiver (R251, log 72). -/
def State.sentTo (s : State) (d k acked saved : Nat) : State :=
  let save (p : Port) : Port := { p with saved := p.saved + (if p.coding then saved else 0) }
  match farEnd d k with
  | some (e, j) => s.modPort e j (fun p => save { p with sent := p.sent + 1, acked := max p.acked acked })
  | none => s.modPort d k save

/-- The sender of a link has no room in its replay buffer of 512 flits (R244). -/
def State.replayFull (s : State) (d k : Nat) : Bool :=
  match farEnd d k with
  | some (e, j) => let p := (s.die e).port j; p.acked + 512 ≤ p.sent
  | none => false

/-- The sender of a link, where it is a port of the package, passes traffic too (R245). -/
def State.sends (s : State) (d k : Nat) : Bool :=
  match farEnd d k with
  | some (e, j) => ((s.die e).port j).passes
  | none => true

/-- The fields of a header that the payload gives, as far as they are free (R242, R247; log 72): FMT 0b11 is never sent, and CODED only with TENSOR, where coding is enabled. -/
def headerFields (coding : Bool) (free : Nat) : Nat :=
  let v := free % 2 ^ 39
  let v := if bits v 34 33 = 3 then v - 2 ^ 33 else v
  if bit v 35 && !(coding && bit v 36) then v - 2 ^ 35 else v

/-- The header of the flit that comes to a port (R242): SEQ, ACK and NAK of the sender's counts. The fields that the payload gives are free, and so is the whole header where
the sender is outside (log 72). -/
def State.flitHeader (s : State) (d k : Nat) : Nat :=
  let free := Config.flitHeader s.fresh
  match farEnd d k with
  | some (e, j) =>
    let p := (s.die e).port j
    p.sent % 4096 * 2 ^ 52 + (p.expected + 4095) % 4096 * 2 ^ 40 + b2n p.nak * 2 ^ 39 + headerFields p.coding free
  | none => free / 2 ^ 39 % 2 ^ 25 * 2 ^ 39 + headerFields true free

/-- A flit is refused for its CRC (R244, R251): CRCERR counts it, and the log of the links, array 5 of the die, records its header (R242, R476, log 72). -/
def State.refuseFlit (s : State) (d k : Nat) (first : Bool) : State :=
  let header := s.flitHeader d k
  let s := s.modPort d k (fun p =>
    let p := { p with crcErr := min 65535 (p.crcErr + 1) }
    if first then { p with nak := true, refusals := p.refusals + 1 } else p)
  { s.logDie d 5 false 0 header 0 0 with fresh := s.fresh + 1 }

/-- FLIT_RECEIVE (R244, R248, R251): a flit with a good CRC is accepted in order; a bad one is discarded with every later one until the resend, and counts. The eighth refusal
of one flit trains the link. -/
def execFlitReceive (die port : Nat) (goodCrc : Bool) (s : State) : Out :=
  .next <|
    let p := (s.die die).port port
    if !p.passes || !s.sends die port || s.replayFull die port || 6 ≤ port then s
    else if goodCrc then
      if p.nak then s.sentTo die port 0 0
      else
        let s := s.modPort die port (fun p => { p with expected := p.expected + 1, refusals := 0, epoch := (p.expected + 1) / 4096 })
        { s.sentTo die port (p.expected + 1) (Config.flitSaved s.fresh % 53) with fresh := s.fresh + 1 }
    else
      let s := (s.refuseFlit die port (!p.nak)).sentTo die port 0 0
      if 8 ≤ ((s.die die).port port).refusals then s.trainLink die port else s

/-- NAK_RESEND (R244): the sender resends from the flit after ACK; the receiver accepts again. For a Straits port, whose other end is outside, the port is the receiver. -/
def execNakResend (die port : Nat) (s : State) : Out :=
  .next <|
    match farEnd die port with
    | some (e, j) =>
      if ((s.die e).port j).nak then (s.modPort e j (fun p => { p with nak := false })).modPort die port (fun p => { p with sent := p.acked }) else s
    | none => s.modPort die port (fun p => { p with nak := false })

/-! ### Training (R244, R245, R248) -/

/-- LINK_RETRAIN (R244, R245): RETRAIN written 1, or a flit refused eight times in a row. A link that is up trains at both ends. -/
def execLinkRetrain (die port : Nat) (s : State) : Out :=
  .next <|
    let p := (s.die die).port port
    let asked := p.retrain && (p.state == 0 || p.passes)
    let refused := p.passes && decide (8 ≤ p.refusals)
    if asked || refused then s.trainLink die port else s

/-- A port whose training succeeds (R245): the flits of its replay buffer are sent again (R244). -/
def Port.trained (p : Port) (full : Bool) : Port :=
  if p.state != 1 then p
  else { p with state := if full then 2 else 3, lanes := if full then 8 else 4, retrain := false, refusals := 0, nak := false, detour := false, sent := p.acked,
                degrades := if full then p.degrades else min 255 (p.degrades + 1) }

/-- The route of the joined die goes by its own port again, where it took a detour. -/
def State.straightenEnd (s : State) (d k : Nat) : State :=
  match joinedDie d k with
  | some e => if ((s.die d).port k).detour then s.modDie d (fun q => { q with routes := q.routes.set e (false, k) }) else s
  | none => s

/-- The same at both ends of a link. -/
def State.straighten (s : State) (d k : Nat) : State :=
  match farEnd d k with
  | some (e, j) => (s.straightenEnd d k).straightenEnd e j
  | none => s.straightenEnd d k

/-- LINK_TRAINING_END (R245): both ends of a Narrows link leave TRAINING together. A port that fails is DOWN. -/
def execLinkTrainingEnd (die port : Nat) (outcome : Training) (s : State) : Out :=
  .next <|
    let p := (s.die die).port port
    let ready := match farEnd die port with
      | some (e, j) => ((s.die e).port j).state == 1
      | none => true
    if p.state ≠ 1 then s
    else
      match outcome, ready with
      | .full, true => ((s.straighten die port).modLink die port (fun p => p.trained true))
      | .half, true => ((s.straighten die port).modLink die port (fun p => p.trained false))
      | _, _ => s.linkLost die port 0

/-- LINK_TRAINING_TIMEOUT (R245). -/
def execLinkTrainingTimeout (die port : Nat) (s : State) : Out := .next (if ((s.die die).port port).state = 1 then s.linkLost die port 0 else s)

/-! ### Fenced ports (R245) -/

/-- LINK_FENCE (R245): FENCE is 1, and the port is FENCED. -/
def execLinkFence (die port : Nat) (s : State) : Out := .next (if ((s.die die).port port).fence then s.fencePort die port true else s)

/-- LINK_UNFENCE (R245): FENCE is 0 and no fence holds the port; it is DOWN, with its replay buffer empty and its coding tables reset. -/
def execLinkUnfence (die port : Nat) (s : State) : Out := .next (if ((s.die die).port port).fence then s else s.fencePort die port false)

/-! ### Fencing a die (R478 to R481) -/

/-- DIE_FENCE_OFF (R478): a die's OFF bit for another is set; when every other die has set it, that die stops. -/
def execDieFenceOff (die off : Nat) (s : State) : Out :=
  .next <|
    let s := s.fenceOff die off
    if off < 4 && s.fencedOff off then s.stopDie off else s

/-- MONITOR_RELEASE (R303, R471): a management command releases a frozen die to its fence. -/
def execMonitorRelease (die : Nat) (s : State) : Out := .next (if (s.die die).frozen ∧ !(s.die die).fenceSelf ∧ die < 4 then s.fenceDie die else s)

end Sys2Proof.Machine
end

