-- ==== Sys2Proof/Machine/Power.lean ====
section
/-! DEFINITION. Reset and boot, attestation, the power cap, the lifetime record and Burrow (R8, R166, R482 of spec/25_reliability.md, R495 to R502 of
spec/27_bringup_power_trust.md). -/

namespace Sys2Proof.Machine

/-! ### The power cap (R498) -/

/-- A sample of module power (R498). -/
def Die.sample (d : Die) (watts : Nat) : Die :=
  if d.capW < watts then
    if d.clock ≤ 1000 then d else { d with clock := max 1000 (d.clock - 50), lowered := min 65535 (d.lowered + 1) }
  else if watts * 100 < 95 * d.capW then { d with clock := min 2000 (d.clock + 50) }
  else d

/-- POWER_SAMPLE (R498): a die whose arithmetic is powered. -/
def execPowerSample (die watts : Nat) (s : State) : Out :=
  .next (if s.power = .running ∨ s.power = .entering ∨ s.power = .resuming then s.modDie die (fun d => d.sample watts) else s)

/-! ### The lifetime record (R252, R482) -/

/-- A saturating sum in a number of bytes. -/
def satBytes (n a b : Nat) : Nat := min (256 ^ n - 1) (a + b)

/-- One copy of the record is valid. -/
def lifetimeValid (r : List Byte) : Bool := r.length == 1024 && field r 1020 4 == crc32c (r.take 1020)

/-- The valid copy with the greater HOURS, where there is one, and its number. Of two with equal HOURS the later is that with the greater counters, none of which ever falls. -/
def newestCopy (copies : List (List Byte)) : Option (Nat × List Byte) :=
  ((List.range copies.length).zip copies).foldl (fun (m : Option (Nat × List Byte)) c =>
    if !lifetimeValid c.2 then m
    else match m with
      | some x => if age x.2 < age c.2 then some c else some x
      | none => some c) none
where
  age (r : List Byte) : Nat := field r 0 8 * 2 ^ 8160 + natOfBytes (r.take 1020)

/-- A run of saturating counters: `n` of them of `w` bytes at an offset of an old record, raised by what has been counted. -/
def foldCounts (old : List Byte) (off n w : Nat) (add : Nat → Nat) : List Byte :=
  (List.range n).flatMap (fun k => bytesOfNat w (satBytes w (field old (off + w * k) w) (add k)))

/-- The record after a fold. -/
def foldRecord (old : List Byte) (c : LifeCounters) (ports : Nat → Port) (hours : Nat) : List Byte :=
  let body := foldCounts old 0 1 8 (fun _ => hours) ++ foldCounts old 8 16 4 (fun k => c.temp.getD k 0) ++ foldCounts old 72 1 8 (fun _ => c.droop)
    ++ foldCounts old 80 32 8 (fun k => c.corr.getD k 0) ++ foldCounts old 336 64 4 (fun k => c.cksum.getD k 0) ++ foldCounts old 592 7 8 (fun k => c.pipe.getD k 0)
    ++ foldCounts old 648 6 4 (fun k => (ports k).retrains) ++ foldCounts old 672 6 4 (fun k => (ports k).degrades) ++ foldCounts old 696 1 8 (fun _ => c.burrow)
    ++ foldCounts old 704 1 8 (fun _ => c.replay) ++ bytesOfNat 308 0
  body ++ bytesOfNat 4 (crc32c body)

/-- Fold a die's counters: the copy that is not the newest is written, and the link counters are cleared. -/
def Die.fold (d : Die) (hours : Nat) : Die :=
  let copies := (d.lifetime ++ [[], []]).take 2
  let newest := newestCopy copies
  let record := foldRecord ((newest.map Prod.snd).getD []) d.counters d.port hours
  let copies := match newest, copies with
    | some (0, _), [a, _] => [a, record]
    | _, [_, b] => [record, b]
    | _, x => x
  { d with lifetime := copies, counters := LifeCounters.reset,
           ports := (List.range 6).foldl (fun t k => t.set k { d.port k with retrains := 0, degrades := 0 }) d.ports }

/-- LIFETIME_FOLD (R482): the hourly fold by the steward of a die that is powered and runs. -/
def execLifetimeFold (die : Nat) (s : State) : Out := .next (if s.dieOn die && !(s.die die).frozen then s.modDie die (fun d => d.fold 1) else s)

/-- SUPPLY_DROOP (R482). -/
def execSupplyDroop (die : Nat) (s : State) : Out :=
  .next (if !s.dieOn die then s else s.modDie die (fun d => { d with counters := { d.counters with droop := d.counters.droop + 1 } }))

/-- TEMP_MINUTE_COUNT (R482): a minute with a die maximum in a bin of eight degrees; bin 15 takes every value above. -/
def execTempMinuteCount (die celsius : Nat) (s : State) : Out :=
  .next (if !s.dieOn die then s else s.modDie die (fun d =>
    let b := min 15 (celsius / 8)
    { d with counters := { d.counters with temp := d.counters.temp.set b (d.counters.temp.getD b 0 + 1) } }))

/-! ### Boot (R495, R496) -/

/-- The dies of the package that are not fenced. -/
def State.workingDies (s : State) : List Nat := ([0, 1, 2, 3] : List Nat).filter (fun d => !(s.die d).fenceSelf)

/-- An image boots on all four steward cores of a die (R495): 0 and 1 a slot's place, 2 that of an image offered. The root array is given a place, where the die has none (log 16). -/
def State.bootDie (s : State) (d place : Nat) (bs : List Byte) : State :=
  let s := s.modDie d (fun q => { q with walkRoot := if q.walkRoot = 0 then isleTable d place 0 else q.walkRoot })
  (s.startImage d place 4 bs).modMonitor d (fun m => { m with running := if place < 2 then place else s.bootSlot })

/-- The images that the ROM of a die tries in order: one offered, the running slot, the other slot (R495). -/
def State.bootChoices (s : State) (offered : Option (List Byte)) : List (Nat × List Byte) :=
  (offered.toList.map (fun bs => (2, bs))) ++ ([s.bootSlot, 1 - s.bootSlot].filterMap (fun k => (s.isles.get k).map (fun bs => (k, bs))))

/-- The ROM of a die boots the first image that verifies; a die for which none does runs nothing. -/
def State.romBoot (s : State) (offered : Option (List Byte)) (d : Nat) : State :=
  match (s.bootChoices offered).find? (fun c => s.imageStatus d c.2 == 0) with
  | some (k, bs) => s.bootDie d k bs
  | none => s

/-- At boot the steward of a die writes the route-table entries of the dies of the package (R240). -/
def State.writeRoutes (s : State) (d : Nat) : State :=
  s.modDie d (fun q => { q with routes := (s.workingDies.filter (· != d)).foldl (fun t e => t.set e (false, portTo d e)) q.routes })

/-- A die has booted. -/
def State.booted (s : State) (d : Nat) : Bool := (s.die d).monitor.image.isSome

/-- The module boots (R495, R496): it runs where some die boots a verified image, and else enters the safe talkative state. -/
def State.boot (s : State) (offered : Option (List Byte)) : State :=
  let s := s.workingDies.foldl (fun s d => s.romBoot offered d) s
  if s.workingDies.any s.booted then (s.workingDies.filter s.booted).foldl (fun s d => s.writeRoutes d) s else { s with power := .safeTalkative }

/-- The module waits for an image: it runs, and no die has booted (R495). -/
def State.awaitsImage (s : State) : Bool := s.power == .running && !([0, 1, 2, 3] : List Nat).any s.booted

/-- What module reset keeps: the fuses, the handles that have been given (R165), management flash, what the management port has been told, and the model's own tape, clock and count. -/
def State.afterReset (s : State) : State :=
  { State.reset with
    isles := s.isles
    bootSlot := s.bootSlot
    dies := ([0, 1, 2, 3] : List Nat).map (fun d => (d, { Die.reset with
      lifetime := (s.die d).lifetime
      monitor := { Monitor.reset with svn := (s.die d).monitor.svn, running := s.bootSlot }
      ports := (List.range 6).map (fun k => (k, { Port.reset with state := 1 })) }))
    mgmtOut := s.mgmtOut
    handles := s.handles
    now := s.now
    agenda := s.agenda
    fresh := s.fresh }

/-- Module reset (R495, R496): self-test, whose log names each unit that fails, then boot from an image offered; without one the ROM waits. -/
def State.moduleReset (s : State) (failed : List UnitFailure) (offered : Option (List Byte)) : State :=
  let log := failed.filter (fun u => u.die < 4)
  let bad := (log.map (fun u => u.die)).dedup
  let s : State := { s.afterReset with selfTest := log }
  if 2 ≤ bad.length then { s with power := .safeTalkative }
  else
    let s := bad.foldl (fun s d => s.fenceDie d) s
    match offered with
    | some bs => s.boot (some bs)
    | none => s

/-- MODULE_RESET (R495). -/
def execModuleReset (failed : List UnitFailure) (offered : Option (List Byte)) (s : State) : Out := .next (s.moduleReset failed offered)

/-- BOOT_TIMEOUT (R495): no image has been offered, and the running Isle slot boots. -/
def execBootTimeout (s : State) : Out := .next (if s.awaitsImage then s.boot none else s)

/-! ### Attestation (R497) -/

/-- A measurement by its index: none where there is no such measurement. -/
def State.measurement (s : State) (d index : Nat) : Option Nat :=
  let m := (s.die d).monitor
  match index with
  | 1 => some Config.romMeasurement
  | 2 => m.image.map (fun bs => natOfBytes (shake256 bs))
  | 3 => m.measured.map natOfBytes
  | 4 => some (Config.fuseMeasurement (s.fuse d))
  | _ => none

/-- SPDM_REQUEST (R497): the steward of die 0, or of die 1 if die 0 is fenced, answers on the management port. -/
def execSpdmRequest (index : Nat) (s : State) : Out :=
  .next <|
    let d := if (s.die 0).fenceSelf then 1 else 0
    match s.measurement d index with
    | some v => s.report d (0x200 + index) v
    | none => s

/-! ### Burrow (R499 to R501) -/

/-- A queue at Burrow entry: its state is recorded, and it takes no packet (R499). -/
def State.burrowQueue (s : State) (n : Nat) : State :=
  s.setQueue n (fun q => { q with saved := some q.state, state := if q.state = 1 ∨ q.state = 2 then 3 else q.state })

/-- A running COPY stops at a chunk boundary and will start again from its start (R288): the sectors that it has landed are awaited again, at its barrier as well, and a
variable-ratio routine will be called again. -/
def State.stopCopy (s : State) (pa : Nat) (c : Chain) : State :=
  if c.running.isNone || (entryOf c.entry).op != 1 || c.ended then s
  else
    let s := { s with chains := s.chains.set pa { c with landed := [], matched := bits (s.entryRoutine c (entryOf c.entry)) 15 12 != 0 } }
    if c.counted then (s.entryCount c c.landed.length false).1 else s

/-- Step 1 of entry (R499): queues are recorded and quiesced, and engines stop. -/
def State.quietQueues (s : State) : State :=
  let s := s.queues.foldl (fun s q => s.burrowQueue q.1) s
  s.chains.foldl (fun s c => s.stopCopy c.1 c.2) s

/-- Step 2 of entry (R499): contexts go to BURROWED and every image is to leave its core. -/
def State.leaveCores (s : State) : State :=
  let s := s.cores.foldl (fun s e => (s.modCore e.1 (fun q => { q with restoring := false })).askSwap e.1) s
  { s with
    power := .entering
    contexts := s.contexts.mapVal (fun _ x => if x.state = .created ∨ x.state = .live then { x with state := .burrowed } else x)
    dies := s.dies.mapVal (fun _ d => { d with drain := none, engines := d.engines.mapVal (fun _ e => { e with call := none }) }) }

/-- Every image is spilled, and no collective runs (R288, R499). -/
def State.quiet (s : State) : Bool :=
  s.cores.all (fun e => e.2.context.isNone && e.2.shadow.isNone && !e.2.swapping) && s.chains.all (fun c => c.2.running.isNone || !c.2.matched || (entryOf c.2.entry).op == 1)

/-- A key table wrapped for a die, or unwrapped: one pad for each handle, under the key fused into the die (R166, log 124). -/
def wrapKeys (d : Nat) (t : Tab (BitVec 256)) : Tab (BitVec 256) := t.mapVal (fun h k => k ^^^ Config.wrapPad d h)

/-- A die at the end of entry (R482, R499): its dirty granules are written home, its key table leaves it, and what its TLBs held is lost; its steward folds the lifetime record. -/
def Die.burrow (d : Die) : Die :=
  let d := { d with keys := [], tlb := [], tiers := d.tiers.mapVal (fun _ g => { g with dirty := false }) }
  if d.frozen then d else ({ d with counters := { d.counters with burrow := d.counters.burrow + 1 } } : Die).fold 0

/-- Entry ends (R166, R499, steps 3 to 5): the key tables are wrapped, each die is done with, and the units that are powered off lose what their caches held. -/
def State.endBurrow (s : State) : State :=
  let all : List Nat := [0, 1, 2, 3]
  all.foldl (fun s d => s.modDie d Die.burrow) { s with
    power := .burrow
    cores := s.cores.mapVal (fun _ q => { q with icache := [], l1 := [] })
    wrapped := all.map (fun d => (d, wrapKeys d (s.die d).keys)) }

/-- BURROW_ENTRY (R499, R501): the first event begins entry, at step 2 where it finds a resume under way; it ends once every image is spilled. -/
def execBurrowEntry (s : State) : Out :=
  .next <|
    let s := if s.power = .running then s.quietQueues.leaveCores else if s.power = .resuming then s.leaveCores else s
    if s.power = .entering ∧ s.quiet then s.endBurrow else s

/-- A queue at resume (R500). -/
def State.resumeQueue (s : State) (n : Nat) : State :=
  match s.queues.get n with
  | none => s
  | some q =>
    let faulted := (s.contexts.get q.context).any (fun x => x.state == .faulted)
    let state := match q.saved with
      | some 1 => if faulted then q.state else 1
      | _ => q.state
    s.setQueue n (fun q => { q with state, saved := none, readySince := none })

/-- Step 2 of resume (R500): the key tables are unwrapped, and the tier map comes back with nothing in HBM; contexts return to their states (R167). -/
def State.wakeUp (s : State) : State :=
  { s with
    wrapped := []
    power := .resuming
    dies := s.dies.mapVal (fun k d => { d with
      keys := if d.fenceSelf then [] else wrapKeys k (s.wrapped.getD k [])
      tiers := (d.tiers.mapVal (fun _ g => { g with inHbm := false, mig := false, frame := 0, dirty := false })).keep (fun _ g => g != Granule.reset) })
    contexts := s.contexts.mapVal (fun k (x : Context) => if x.state = CtxState.burrowed then { x with state := if s.hasImage k then CtxState.live else CtxState.created } else x) }

/-- BURROW_RESUME (R500, R501): the first event takes steps 1 and 2, after which images return to their cores; the next ends the resume, with the queues in the states that were
recorded. A die that fails self-test is fenced. -/
def execBurrowResume (failed : List Nat) (s : State) : Out :=
  .next <|
    if s.power = .burrow then (((failed.filter (· < 4)).dedup).foldl (fun s d => s.fenceDie d) s).wakeUp
    else if s.power = .resuming then s.queues.keys.foldl (fun s q => s.resumeQueue q) { s with power := .running }
    else s

/-- CAPACITY_POWER_LOSS (R501): every context is lost, and the module boots from reset; what its self-test finds is a free value (log 127). -/
def execCapacityPowerLoss (s : State) : Out :=
  .next (if s.power = .burrow then State.moduleReset { s with fresh := s.fresh + 1 } (Config.selfTest s.fresh) none else s)

end Sys2Proof.Machine
end

