-- ==== Sys2Proof/Machine/Outside.lean ====
section
/-! DEFINITION. What reaches the module from outside: the host's writes and AtomicOps, register writes and the management port (R110, R152 of
spec/07_consistency_model.md, R432, R439, R485, R493, R495). -/

namespace Sys2Proof.Machine

/-! ### The host (R110, R152) -/

/-- The bytes of a host atomic lie in the memory of a die of the module, naturally aligned. -/
def hostReach (pa n : Nat) : Bool := pa / 2 ^ 52 == 0 && paDie pa < 4 && paSpace pa == 0 && pa % n == 0 && paOffset pa + n ≤ 2 ^ 39

/-- What a host atomic makes of the old value (R152): a relaxed `aadd`, `axchg` or `acas`. -/
def hostAtomicNew (op : HostAtomic) (w old b c : Nat) : Option Nat :=
  match op with
  | .fetchAdd => some ((old + b) % 2 ^ w)
  | .swap => some (b % 2 ^ w)
  | .cas => if old = b % 2 ^ w then some (c % 2 ^ w) else none

/-- HOST_ATOMICOP (R152): one step at the home slice. A 128-bit CAS and an AtomicOp to device-register space complete with Completer Abort and change nothing. -/
def execHostAtomicop (op : HostAtomic) (bytes pa b c : Nat) (s : State) : Out :=
  .next <|
    if !(bytes == 4 || bytes == 8) || !hostReach pa bytes || s.power != .running || (s.die (paDie pa)).fenceSelf then s
    else if s.poison.contains (lineOf pa) then s
    else if s.ownedBytes pa bytes then s.logDie (paDie pa) 0 true 0 pa 0 0
    else
      match hostAtomicNew op (8 * bytes) (natOfBytes (s.bytes pa bytes)) b c with
      | some v => (s.firstWrite pa bytes).poke pa (bytesOfNat bytes v) true none
      | none => s

/-- One byte of a host write to the device-register range of BAR 0 (R110): only QDOORBELL and the mailbox take it. -/
def State.barByte (s : State) (d off : Nat) (v : Byte) : State :=
  if 0x100 ≤ off ∧ off < 0x200 then
    let s := s.modDie d (fun q => { q with mailbox := Memory.write q.mailbox (off - 0x100) [v] })
    if off % 32 = 25 ∧ v = 1 then s.raiseEvent d 0 else s
  else if off = 0x10 ∨ off = 0x11 then s.raiseEvent d 0
  else s

/-- HOST_POSTED_WRITE (R152): bytes in memory, in host memory, or in the device-register range of BAR 0. -/
def execHostPostedWrite (pa : Nat) (data : List Byte) (s : State) : Out :=
  .next <|
    if pa / 2 ^ 52 ≠ 0 ∨ 4 ≤ paDie pa ∨ data = [] ∨ s.power ≠ .running then s
    else match paSpace pa with
      | 0 =>
        if 2 ^ 39 < paOffset pa + data.length ∨ (s.die (paDie pa)).fenceSelf then s
        else if s.ownedBytes pa data.length then s.logDie (paDie pa) 0 true 0 pa 0 0
        else (s.firstWrite pa data.length).poke pa data false none
      | 1 => if 2 ^ 44 < paOffset pa + data.length ∨ paDie pa % 2 = 1 ∨ (s.die (paDie pa)).fenceSelf then s else s.poke pa data false none
      | 2 =>
        if 0x1000 < paOffset pa + data.length ∨ !s.barOpen (paDie pa) then s
        else (data.zip (List.range data.length)).foldl (fun s e => s.barByte (paDie pa) (paOffset pa + e.2) e.1) s
      | _ => s

/-! ### Register writes (R432) -/

/-- REGISTER_WRITE (R432): a write of 32 or 64 bits to device-register space by the steward of a die; the fields take it by their kinds of access. -/
def execRegisterWrite (die offset bytes : Nat) (value : DWord) (s : State) : Out :=
  .next <|
    if !(bytes == 4 || bytes == 8) || offset % bytes != 0 || 4 ≤ die || 2 ^ 44 ≤ offset || (s.die die).fenceSelf then s
    else s.devStore (die * 2 ^ 46 + 2 * 2 ^ 44 + offset) (bytesOfNat bytes value.toNat)

/-! ### The management port (R439) -/

/-- The physical address of a virtual one that is mapped for reading and writing by user privilege. -/
def State.writableAt (s : State) (die asid va : Nat) : Option Nat :=
  match s.walk die asid va with
  | .leaf _ base _ pa pte => if bit pte 3 && !bit pte 5 && va < 2 ^ 48 then some (pa + (va - base)) else none
  | .fault _ => none

/-- The firmware of a die creates a queue (R177, R181): ACTIVE, with indices and TRACE 0. Its descriptor lies in the HBM of the die, mapped read-write into the context. -/
def State.createQueue (s : State) (d : Nat) (q : NewQueue) : State :=
  match s.contexts.get q.context with
  | none => s
  | some x =>
    match x.asid.bind (fun a => s.writableAt d a q.desc) with
    | none => s
    | some pa =>
      if paSpace pa != 0 || paDie pa != d || s.ownedBytes pa 64 ||  (s.queues.get q.number).isSome || 4096 ≤ q.number || !(x.state == .created || x.state == .live) || q.desc % 64 != 0 || q.base % 4096 != 0
          || q.size < 4 || 16 < q.size || 7 < q.prio || s.power != .running then s
      else
        let new : Queue := { context := q.context, die := d, base := q.base, size := q.size, prio := q.prio, rdidx := 0, resetAt := 0, asked := none, desc := q.desc, descPa := pa,
                             state := 1, cause := 0, trace := 0, held := none, marks := [], saved := none, readySince := none }
        State.poke { s with queues := s.queues.set q.number new } pa (new.bytes 0) false none

/-- The firmware of a die registers a chain with one of its engines (R280): an empty descriptor. -/
def State.bindChain (s : State) (d : Nat) (c : NewChain) : State :=
  match (s.contexts.get c.context).bind (fun x => x.asid.bind (fun a => s.physOf d a c.desc)) with
  | none => s
  | some pa =>
    if (s.chains.get pa).isSome || c.desc % 64 != 0 || 16 ≤ c.engine || s.power != .running || s.ownedBytes pa 64
        || 64 ≤ (s.chains.filter (fun e => e.2.die == d && e.2.engine == c.engine)).length then s
    else
      let s := s.poke pa (bytesOfNat 32 0 ++ bytesOfNat 1 c.engine ++ bytesOfNat 31 0) false none
      let new : Chain := { context := c.context, die := d, engine := c.engine, launch := c.launch, running := none, entry := [], todo := 0, landed := [], status := 0,
                           matched := false, page := [], counted := false, mute := false, sites := [] }
      { s with chains := s.chains.set pa new }

/-- A die carries a management port, and is not fenced (R9, R15). -/
def State.managed (s : State) (die : Nat) : Bool := die < 2 && !(s.die die).fenceSelf

/-- The dies whose stewards survive the self-test (R496). -/
def State.survivors (s : State) : List Nat := ([0, 1, 2, 3] : List Nat).filter (fun d => !(s.die d).fenceSelf && !s.selfTest.any (fun u => u.die == d))

/-- In the safe talkative state every steward that survives answers the management port with the self-test log (R496): the die, the class, the index and the code of each failing
unit, one record after another. -/
def State.answerLog (s : State) : State :=
  if s.power ≠ .safeTalkative then s
  else s.survivors.foldl (fun s d => s.selfTest.foldl (fun s u => (((s.report d 0x400 u.die).report d 0x401 u.unit).report d 0x402 u.index).report d 0x403 u.code) s) s

/-- MANAGEMENT_PORT_MESSAGE (R439): event bit 2 is raised, and the message has its effect. A request may name the die whose firmware or steward core
it is for. -/
def execManagementPortMessage (die : Nat) (m : Management) (s : State) : Out :=
  .next <|
    if !s.managed die then s else
    let s := (s.raiseEvent die 2).answerLog
    match m with
    | .offer bs => if s.awaitsImage then s.boot (some bs) else { s with offered := some bs }
    | .key id publicKey => if 8 ≤ id || (s.signers.get id).isSome then s else { s with signers := s.signers.set id publicKey }
    | .raiseSvn v => ([0, 1, 2, 3] : List Nat).foldl (fun s d => s.modMonitor d (fun x => { x with svn := some (max v (s.fuse d)) })) s
    | .startFlow d st entry => if 4 ≤ st ∨ 4 ≤ d ∨ (s.die d).fenceSelf ∨ s.power ≠ .running then s else
        (s.stopFlow (.steward d st)).modDie d (fun q => { q.fold 0 with stewards := q.stewards.set st (Wave.flowAt (entry % 2 ^ 48)) })
    | .createQueue q => if 4 ≤ q.die ∨ (s.die q.die).fenceSelf then s else s.createQueue q.die q
    | .bindChain c => if 4 ≤ c.die ∨ (s.die c.die).fenceSelf then s else s.bindChain c.die c
    | .other => s

end Sys2Proof.Machine
end

