-- ==== Sys2Proof/Machine/Packed.lean ====
section
/-! DEFINITION. Packed FP16 and BF16 arithmetic (R355 of spec/20_ref_float.md). -/

namespace Sys2Proof.Machine

/-- FMTB (R346): the format of the two halves. -/
def packedFmt (x : XArgs) : Fmt := if x.imm.getLsbD 0 then bf16 else fp16

/-- Half `h` of a word (R62). -/
def half (v : DWord) (h : Nat) : Nat := v.toNat / 2 ^ (16 * h) % 65536

/-- Two halves, each from its own operands, as one word; the exceptions of both (R341, R355). -/
def packedOf (g : Nat → Nat → Nat → Nat × Exc) (v : Ops) : Word × Exc :=
  let lo := g (half v.a 0) (half v.b 0) (half v.c 0)
  let hi := g (half v.a 1) (half v.b 1) (half v.c 1)
  (BitVec.ofNat 32 (lo.1 + 65536 * hi.1), lo.2.or hi.2)

/-- `hadd2` (R355). -/
def execHadd2 (x : XArgs) (s : State) : Out :=
  let f := packedFmt x
  perform (.hadd2 x) (fpPlan (some 3) (packedOf (fun a b _ => f.round (rmode x.rm) x.sat (sumExact (rmode x.rm) [f.value a, f.value b])))) s

/-- `hsub2` (R355). -/
def execHsub2 (x : XArgs) (s : State) : Out :=
  let f := packedFmt x
  perform (.hsub2 x) (fpPlan (some 3) (packedOf (fun a b _ => f.round (rmode x.rm) x.sat (sumExact (rmode x.rm) [f.value a, (f.value b).negate])))) s

/-- `hmul2` (R355). -/
def execHmul2 (x : XArgs) (s : State) : Out :=
  let f := packedFmt x
  perform (.hmul2 x) (fpPlan (some 4) (packedOf (fun a b _ => f.round (rmode x.rm) x.sat ((f.value a).mul (f.value b))))) s

/-- `hfma2` (R355). -/
def execHfma2 (x : XArgs) (s : State) : Out :=
  let f := packedFmt x
  perform (.hfma2 x) (fpPlan (some 4) (packedOf (fun a b c => f.round (rmode x.rm) x.sat (sumExact (rmode x.rm) [(f.value a).mul (f.value b), f.value c])))) s

/-- `hmin2` (R355). -/
def execHmin2 (x : XArgs) (s : State) : Out :=
  let f := packedFmt x
  perform (.hmin2 x) (fpPlan (some 3) (packedOf (fun a b _ => minNum f false a b))) s

/-- `hmax2` (R355). -/
def execHmax2 (x : XArgs) (s : State) : Out :=
  let f := packedFmt x
  perform (.hmax2 x) (fpPlan (some 3) (packedOf (fun a b _ => minNum f true a b))) s

end Sys2Proof.Machine
end

