-- ==== Sys2Proof/Machine/Dispatch.lean ====
section
/-! DEFINITION. The meaning of every constructor of Instr: one arm each. -/

namespace Sys2Proof.Machine

/-- Execute an instruction for the flow that `cur` names, or let an event occur. -/
def exec (i : Instr) (s : State) : Host.Outcome State Fault Refusal :=
  match i with
  | .iadd o => Sys2Proof.Machine.execIadd o s
  | .isub o => Sys2Proof.Machine.execIsub o s
  | .and o => Sys2Proof.Machine.execAnd o s
  | .or o => Sys2Proof.Machine.execOr o s
  | .xor o => Sys2Proof.Machine.execXor o s
  | .shl o => Sys2Proof.Machine.execShl o s
  | .shr o => Sys2Proof.Machine.execShr o s
  | .fadd o => Sys2Proof.Machine.execFadd o s
  | .fmul o => Sys2Proof.Machine.execFmul o s
  | .fsub o => Sys2Proof.Machine.execFsub o s
  | .mov o => Sys2Proof.Machine.execMov o s
  | .not o => Sys2Proof.Machine.execNot o s
  | .ineg o => Sys2Proof.Machine.execIneg o s
  | .iabs o => Sys2Proof.Machine.execIabs o s
  | .popc o => Sys2Proof.Machine.execPopc o s
  | .clz o => Sys2Proof.Machine.execClz o s
  | .ctz o => Sys2Proof.Machine.execCtz o s
  | .brev o => Sys2Proof.Machine.execBrev o s
  | .fabs o => Sys2Proof.Machine.execFabs o s
  | .fneg o => Sys2Proof.Machine.execFneg o s
  | .frcp o => Sys2Proof.Machine.execFrcp o s
  | .frsq o => Sys2Proof.Machine.execFrsq o s
  | .fsqrt o => Sys2Proof.Machine.execFsqrt o s
  | .fexp2 o => Sys2Proof.Machine.execFexp2 o s
  | .flog2 o => Sys2Proof.Machine.execFlog2 o s
  | .fsin o => Sys2Proof.Machine.execFsin o s
  | .fcos o => Sys2Proof.Machine.execFcos o s
  | .ftanh o => Sys2Proof.Machine.execFtanh o s
  | .fsig o => Sys2Proof.Machine.execFsig o s
  | .ffrac o => Sys2Proof.Machine.execFfrac o s
  | .fclass o => Sys2Proof.Machine.execFclass o s
  | .iaddX x => Sys2Proof.Machine.execIaddX x s
  | .isubX x => Sys2Proof.Machine.execIsubX x s
  | .imul x => Sys2Proof.Machine.execImul x s
  | .imulh x => Sys2Proof.Machine.execImulh x s
  | .imad x => Sys2Proof.Machine.execImad x s
  | .imin x => Sys2Proof.Machine.execImin x s
  | .imax x => Sys2Proof.Machine.execImax x s
  | .iabsX x => Sys2Proof.Machine.execIabsX x s
  | .inegX x => Sys2Proof.Machine.execInegX x s
  | .icmp x => Sys2Proof.Machine.execIcmp x s
  | .isel x => Sys2Proof.Machine.execIsel x s
  | .bsel x => Sys2Proof.Machine.execBsel x s
  | .lea x => Sys2Proof.Machine.execLea x s
  | .movX x => Sys2Proof.Machine.execMovX x s
  | .andX x => Sys2Proof.Machine.execAndX x s
  | .orX x => Sys2Proof.Machine.execOrX x s
  | .xorX x => Sys2Proof.Machine.execXorX x s
  | .andn x => Sys2Proof.Machine.execAndn x s
  | .notX x => Sys2Proof.Machine.execNotX x s
  | .shlX x => Sys2Proof.Machine.execShlX x s
  | .shrX x => Sys2Proof.Machine.execShrX x s
  | .sar x => Sys2Proof.Machine.execSar x s
  | .fshl x => Sys2Proof.Machine.execFshl x s
  | .fshr x => Sys2Proof.Machine.execFshr x s
  | .bfx x => Sys2Proof.Machine.execBfx x s
  | .bfi x => Sys2Proof.Machine.execBfi x s
  | .popcX x => Sys2Proof.Machine.execPopcX x s
  | .clzX x => Sys2Proof.Machine.execClzX x s
  | .ctzX x => Sys2Proof.Machine.execCtzX x s
  | .brevX x => Sys2Proof.Machine.execBrevX x s
  | .faddX x => Sys2Proof.Machine.execFaddX x s
  | .fsubX x => Sys2Proof.Machine.execFsubX x s
  | .fmulX x => Sys2Proof.Machine.execFmulX x s
  | .ffma x => Sys2Proof.Machine.execFfma x s
  | .fmin x => Sys2Proof.Machine.execFmin x s
  | .fmax x => Sys2Proof.Machine.execFmax x s
  | .fminnum x => Sys2Proof.Machine.execFminnum x s
  | .fmaxnum x => Sys2Proof.Machine.execFmaxnum x s
  | .fcmp x => Sys2Proof.Machine.execFcmp x s
  | .fscale x => Sys2Proof.Machine.execFscale x s
  | .fround x => Sys2Proof.Machine.execFround x s
  | .fabsX x => Sys2Proof.Machine.execFabsX x s
  | .fnegX x => Sys2Proof.Machine.execFnegX x s
  | .frcpX x => Sys2Proof.Machine.execFrcpX x s
  | .frsqX x => Sys2Proof.Machine.execFrsqX x s
  | .fsqrtX x => Sys2Proof.Machine.execFsqrtX x s
  | .fexp2X x => Sys2Proof.Machine.execFexp2X x s
  | .flog2X x => Sys2Proof.Machine.execFlog2X x s
  | .fsinX x => Sys2Proof.Machine.execFsinX x s
  | .fcosX x => Sys2Proof.Machine.execFcosX x s
  | .ftanhX x => Sys2Proof.Machine.execFtanhX x s
  | .fsigX x => Sys2Proof.Machine.execFsigX x s
  | .ffracX x => Sys2Proof.Machine.execFfracX x s
  | .fclassX x => Sys2Proof.Machine.execFclassX x s
  | .shflIdx x => Sys2Proof.Machine.execShflIdx x s
  | .shflUp x => Sys2Proof.Machine.execShflUp x s
  | .shflDown x => Sys2Proof.Machine.execShflDown x s
  | .shflXor x => Sys2Proof.Machine.execShflXor x s
  | .bra x => Sys2Proof.Machine.execBra x s
  | .bz x => Sys2Proof.Machine.execBz x s
  | .bnz x => Sys2Proof.Machine.execBnz x s
  | .brx x => Sys2Proof.Machine.execBrx x s
  | .call x => Sys2Proof.Machine.execCall x s
  | .calli x => Sys2Proof.Machine.execCalli x s
  | .grow x => Sys2Proof.Machine.execGrow x s
  | .fwait x => Sys2Proof.Machine.execFwait x s
  | .voteAny x => Sys2Proof.Machine.execVoteAny x s
  | .voteAll x => Sys2Proof.Machine.execVoteAll x s
  | .voteEq x => Sys2Proof.Machine.execVoteEq x s
  | .ballot x => Sys2Proof.Machine.execBallot x s
  | .ret o => Sys2Proof.Machine.execRet o s
  | .exit o => Sys2Proof.Machine.execExit o s
  | .trigger o => Sys2Proof.Machine.execTrigger o s
  | .yield o => Sys2Proof.Machine.execYield o s
  | .nop o => Sys2Proof.Machine.execNop o s
  | .hint o => Sys2Proof.Machine.execHint o s
  | .mergeChk x => Sys2Proof.Machine.execMergeChk x s
  | .mergeLane x => Sys2Proof.Machine.execMergeLane x s
  | .mergeG x => Sys2Proof.Machine.execMergeG x s
  | .rkq x => Sys2Proof.Machine.execRkq x s
  | .rkhome x => Sys2Proof.Machine.execRkhome x s
  | .dot4E4m3 x => Sys2Proof.Machine.execDot4E4m3 x s
  | .dot4E5m2 x => Sys2Proof.Machine.execDot4E5m2 x s
  | .dot8E2m1 x => Sys2Proof.Machine.execDot8E2m1 x s
  | .dot2B16 x => Sys2Proof.Machine.execDot2B16 x s
  | .dot4I8 x => Sys2Proof.Machine.execDot4I8 x s
  | .dot4N8 x => Sys2Proof.Machine.execDot4N8 x s
  | .dot8I4 x => Sys2Proof.Machine.execDot8I4 x s
  | .dots4E4m3 x => Sys2Proof.Machine.execDots4E4m3 x s
  | .dots4E5m2 x => Sys2Proof.Machine.execDots4E5m2 x s
  | .dots8E2m1 x => Sys2Proof.Machine.execDots8E2m1 x s
  | .hadd2 x => Sys2Proof.Machine.execHadd2 x s
  | .hsub2 x => Sys2Proof.Machine.execHsub2 x s
  | .hmul2 x => Sys2Proof.Machine.execHmul2 x s
  | .hfma2 x => Sys2Proof.Machine.execHfma2 x s
  | .hmin2 x => Sys2Proof.Machine.execHmin2 x s
  | .hmax2 x => Sys2Proof.Machine.execHmax2 x s
  | .cvtF32I32 x => Sys2Proof.Machine.execCvtF32I32 x s
  | .cvtI32F32 x => Sys2Proof.Machine.execCvtI32F32 x s
  | .cvtF32F16 x => Sys2Proof.Machine.execCvtF32F16 x s
  | .cvtF32B16 x => Sys2Proof.Machine.execCvtF32B16 x s
  | .cvtPkF16F32 x => Sys2Proof.Machine.execCvtPkF16F32 x s
  | .cvtPkB16F32 x => Sys2Proof.Machine.execCvtPkB16F32 x s
  | .cvtPkE4m3F32 x => Sys2Proof.Machine.execCvtPkE4m3F32 x s
  | .cvtPkE5m2F32 x => Sys2Proof.Machine.execCvtPkE5m2F32 x s
  | .cvtPkE2m1F32 x => Sys2Proof.Machine.execCvtPkE2m1F32 x s
  | .cvtUpB16E4m3 x => Sys2Proof.Machine.execCvtUpB16E4m3 x s
  | .cvtUpB16E5m2 x => Sys2Proof.Machine.execCvtUpB16E5m2 x s
  | .cvtUpB16E2m1 x => Sys2Proof.Machine.execCvtUpB16E2m1 x s
  | .cvtB16E8m0 x => Sys2Proof.Machine.execCvtB16E8m0 x s
  | .cvtPkI8F32 x => Sys2Proof.Machine.execCvtPkI8F32 x s
  | .cvtPkI4F32 x => Sys2Proof.Machine.execCvtPkI4F32 x s
  | .lread x => Sys2Proof.Machine.execLread x s
  | .lwrite x => Sys2Proof.Machine.execLwrite x s
  | .ld w x => Sys2Proof.Machine.execLd w x s
  | .lds w x => Sys2Proof.Machine.execLds w x s
  | .st w x => Sys2Proof.Machine.execSt w x s
  | .sts w x => Sys2Proof.Machine.execSts w x s
  | .aadd x => Sys2Proof.Machine.execAadd x s
  | .amin x => Sys2Proof.Machine.execAmin x s
  | .amax x => Sys2Proof.Machine.execAmax x s
  | .aand x => Sys2Proof.Machine.execAand x s
  | .aor x => Sys2Proof.Machine.execAor x s
  | .axor x => Sys2Proof.Machine.execAxor x s
  | .axchg x => Sys2Proof.Machine.execAxchg x s
  | .acas x => Sys2Proof.Machine.execAcas x s
  | .afadd x => Sys2Proof.Machine.execAfadd x s
  | .afmin x => Sys2Proof.Machine.execAfmin x s
  | .afmax x => Sys2Proof.Machine.execAfmax x s
  | .lr x => Sys2Proof.Machine.execLr x s
  | .sc x => Sys2Proof.Machine.execSc x s
  | .fence x => Sys2Proof.Machine.execFence x s
  | .mclaim x => Sys2Proof.Machine.execMclaim x s
  | .mrel x => Sys2Proof.Machine.execMrel x s
  | .mfill x => Sys2Proof.Machine.execMfill x s
  | .mzero x => Sys2Proof.Machine.execMzero x s
  | .mload x => Sys2Proof.Machine.execMload x s
  | .mma x => Sys2Proof.Machine.execMma x s
  | .mver x => Sys2Proof.Machine.execMver x s
  | .mdrain x => Sys2Proof.Machine.execMdrain x s
  | .mverify x => Sys2Proof.Machine.execMverify x s
  | .mloc x => Sys2Proof.Machine.execMloc x s
  | .mfix x => Sys2Proof.Machine.execMfix x s
  | .mretry x => Sys2Proof.Machine.execMretry x s
  | .mstat x => Sys2Proof.Machine.execMstat x s
  | .barInit x => Sys2Proof.Machine.execBarInit x s
  | .barArrive x => Sys2Proof.Machine.execBarArrive x s
  | .barExpect x => Sys2Proof.Machine.execBarExpect x s
  | .barWait x => Sys2Proof.Machine.execBarWait x s
  | .barTest x => Sys2Proof.Machine.execBarTest x s
  | .barDrop x => Sys2Proof.Machine.execBarDrop x s
  | .wbind x => Sys2Proof.Machine.execWbind x s
  | .wunbind x => Sys2Proof.Machine.execWunbind x s
  | .wstat x => Sys2Proof.Machine.execWstat x s
  | .enq x => Sys2Proof.Machine.execEnq x s
  | .eseq x => Sys2Proof.Machine.execEseq x s
  | .trap x => Sys2Proof.Machine.execTrap x s
  | .brk x => Sys2Proof.Machine.execBrk x s
  | .tret x => Sys2Proof.Machine.execTret x s
  | .tretSkip x => Sys2Proof.Machine.execTretSkip x s
  | .csrr x => Sys2Proof.Machine.execCsrr x s
  | .csrw x => Sys2Proof.Machine.execCsrw x s
  | .csrs x => Sys2Proof.Machine.execCsrs x s
  | .csrc x => Sys2Proof.Machine.execCsrc x s
  | .isync x => Sys2Proof.Machine.execIsync x s
  | .iflush x => Sys2Proof.Machine.execIflush x s
  | .ecall x => Sys2Proof.Machine.execEcall x s
  | .ecallAnswer die request answer => Sys2Proof.Machine.execEcallAnswer die request answer s
  | .queueQuiesce x => Sys2Proof.Machine.execQueueQuiesce x s
  | .queueResume x => Sys2Proof.Machine.execQueueResume x s
  | .queueReset x => Sys2Proof.Machine.execQueueReset x s
  | .traceBind x => Sys2Proof.Machine.execTraceBind x s
  | .traceClose x => Sys2Proof.Machine.execTraceClose x s
  | .codeLoad x => Sys2Proof.Machine.execCodeLoad x s
  | .hostMailboxRequest die record service a b => Sys2Proof.Machine.execHostMailboxRequest die record service a b s
  | .monitorVersion x => Sys2Proof.Machine.execMonitorVersion x s
  | .imageVerify x => Sys2Proof.Machine.execImageVerify x s
  | .imageMeasure x => Sys2Proof.Machine.execImageMeasure x s
  | .isleWrite x => Sys2Proof.Machine.execIsleWrite x s
  | .isleSwitch x => Sys2Proof.Machine.execIsleSwitch x s
  | .heartbeat x => Sys2Proof.Machine.execHeartbeat x s
  | .fuseSvn x => Sys2Proof.Machine.execFuseSvn x s
  | .moncallUnknown x => Sys2Proof.Machine.execMoncallUnknown x s
  | .heartbeatTimeout die => Sys2Proof.Machine.execHeartbeatTimeout die s
  | .wfi x => Sys2Proof.Machine.execWfi x s
  | .tlbinvAll x => Sys2Proof.Machine.execTlbinvAll x s
  | .tlbinvAsid x => Sys2Proof.Machine.execTlbinvAsid x s
  | .tlbinvRange x => Sys2Proof.Machine.execTlbinvRange x s
  | .dhalt x => Sys2Proof.Machine.execDhalt x s
  | .dresume x => Sys2Proof.Machine.execDresume x s
  | .dstep x => Sys2Proof.Machine.execDstep x s
  | .dread x => Sys2Proof.Machine.execDread x s
  | .dwrite x => Sys2Proof.Machine.execDwrite x s
  | .clauseStart f => Sys2Proof.Machine.execClauseStart f s
  | .waveSwap core scheduler => Sys2Proof.Machine.execWaveSwap core scheduler s
  | .pendingStarvationTimeout core scheduler => Sys2Proof.Machine.execPendingStarvationTimeout core scheduler s
  | .memoryResponse f index => Sys2Proof.Machine.execMemoryResponse f index s
  | .impreciseFault core slot => Sys2Proof.Machine.execImpreciseFault core slot s
  | .octetReturn core slot => Sys2Proof.Machine.execOctetReturn core slot s
  | .sectorLanding target => Sys2Proof.Machine.execSectorLanding target s
  | .stageSourceFailure core group window stage => Sys2Proof.Machine.execStageSourceFailure core group window stage s
  | .barrierWake core slot => Sys2Proof.Machine.execBarrierWake core slot s
  | .globalBarrierRetest core slot => Sys2Proof.Machine.execGlobalBarrierRetest core slot s
  | .mfillComplete core index => Sys2Proof.Machine.execMfillComplete core index s
  | .matrixOpStart core index => Sys2Proof.Machine.execMatrixOpStart core index s
  | .matrixOpComplete core acc => Sys2Proof.Machine.execMatrixOpComplete core acc s
  | .qdoorbell die value => Sys2Proof.Machine.execQdoorbell die value s
  | .launchPacket die queue => Sys2Proof.Machine.execLaunchPacket die queue s
  | .waitPacket queue => Sys2Proof.Machine.execWaitPacket queue s
  | .waitSatisfied queue => Sys2Proof.Machine.execWaitSatisfied queue s
  | .markPacket queue => Sys2Proof.Machine.execMarkPacket queue s
  | .markSignal queue => Sys2Proof.Machine.execMarkSignal queue s
  | .stewardTick die => Sys2Proof.Machine.execStewardTick die s
  | .groupPlace launch => Sys2Proof.Machine.execGroupPlace launch s
  | .compactionDrainStart launch => Sys2Proof.Machine.execCompactionDrainStart launch s
  | .preempt launch => Sys2Proof.Machine.execPreempt launch s
  | .snapshotCopy launch piece => Sys2Proof.Machine.execSnapshotCopy launch piece s
  | .stewardFaultDispatch die index choice => Sys2Proof.Machine.execStewardFaultDispatch die index choice s
  | .replayRestoreDone launch => Sys2Proof.Machine.execReplayRestoreDone launch s
  | .contextCreate c => Sys2Proof.Machine.execContextCreate c s
  | .contextTeardown handle => Sys2Proof.Machine.execContextTeardown handle s
  | .swap core => Sys2Proof.Machine.execSwap core s
  | .swapEnd core => Sys2Proof.Machine.execSwapEnd core s
  | .spillComplete core => Sys2Proof.Machine.execSpillComplete core s
  | .restore core => Sys2Proof.Machine.execRestore core s
  | .restoreComplete core => Sys2Proof.Machine.execRestoreComplete core s
  | .pageWalkComplete die asid va write => Sys2Proof.Machine.execPageWalkComplete die asid va write s
  | .tierEpoch die => Sys2Proof.Machine.execTierEpoch die s
  | .granuleMoveStart die granule => Sys2Proof.Machine.execGranuleMoveStart die granule s
  | .granuleMoveComplete die granule => Sys2Proof.Machine.execGranuleMoveComplete die granule s
  | .flitReceive die port goodCrc => Sys2Proof.Machine.execFlitReceive die port goodCrc s
  | .nakResend die port => Sys2Proof.Machine.execNakResend die port s
  | .linkRetrain die port => Sys2Proof.Machine.execLinkRetrain die port s
  | .linkTrainingEnd die port outcome => Sys2Proof.Machine.execLinkTrainingEnd die port outcome s
  | .linkTrainingTimeout die port => Sys2Proof.Machine.execLinkTrainingTimeout die port s
  | .linkFence die port => Sys2Proof.Machine.execLinkFence die port s
  | .linkUnfence die port => Sys2Proof.Machine.execLinkUnfence die port s
  | .entryStart chain => Sys2Proof.Machine.execEntryStart chain s
  | .collectiveMatch chain => Sys2Proof.Machine.execCollectiveMatch chain s
  | .routineCall die engine job => Sys2Proof.Machine.execRoutineCall die engine job s
  | .routineReturn die engine r => Sys2Proof.Machine.execRoutineReturn die engine r s
  | .routineTimeout die engine => Sys2Proof.Machine.execRoutineTimeout die engine s
  | .entryComplete chain => Sys2Proof.Machine.execEntryComplete chain s
  | .hostAtomicop op bytes pa b c => Sys2Proof.Machine.execHostAtomicop op bytes pa b c s
  | .foxRead die core slot item => Sys2Proof.Machine.execFoxRead die core slot item s
  | .trailRecord core scheduler r => Sys2Proof.Machine.execTrailRecord core scheduler r s
  | .gangHalt core slot => Sys2Proof.Machine.execGangHalt core slot s
  | .dieFenceOff die off => Sys2Proof.Machine.execDieFenceOff die off s
  | .monitorRelease die => Sys2Proof.Machine.execMonitorRelease die s
  | .lifetimeFold die => Sys2Proof.Machine.execLifetimeFold die s
  | .powerSample die watts => Sys2Proof.Machine.execPowerSample die watts s
  | .moduleReset failed offered => Sys2Proof.Machine.execModuleReset failed offered s
  | .bootTimeout => Sys2Proof.Machine.execBootTimeout s
  | .spdmRequest index => Sys2Proof.Machine.execSpdmRequest index s
  | .burrowEntry => Sys2Proof.Machine.execBurrowEntry s
  | .burrowResume failed => Sys2Proof.Machine.execBurrowResume failed s
  | .capacityPowerLoss => Sys2Proof.Machine.execCapacityPowerLoss s
  | .registerWrite die offset bytes value => Sys2Proof.Machine.execRegisterWrite die offset bytes value s
  | .hostPostedWrite pa data => Sys2Proof.Machine.execHostPostedWrite pa data s
  | .managementPortMessage die m => Sys2Proof.Machine.execManagementPortMessage die m s
  | .scrubbing die array address => Sys2Proof.Machine.execScrubbing die array address s
  | .supplyDroop die => Sys2Proof.Machine.execSupplyDroop die s
  | .tempMinuteCount die celsius => Sys2Proof.Machine.execTempMinuteCount die celsius s

end Sys2Proof.Machine
end

