-- ==== Sys2Proof/Machine/Front.lean ====
section
/-! DEFINITION. What a step does next: the input tape, the flow that issues, and the instruction words of its clause (R17, R76; log 2, log 5). -/

namespace Sys2Proof.Machine

/-- What a step does: an instruction or event takes place in a state, or the state is the next one as it stands. -/
inductive Choice where
  | run (i : Instr) (s : State)
  | done (s : State)

/-- The clause address and the run of the illegal-instruction trap for words that decode to nothing (R83, R293). -/
def State.illegalWord (s : State) (c : Clause) : State :=
  match s.dstep with
  | some d => s.finishStep d (4 + 2 * 256)
  | none => s.takeTrap s.cur (Trap.illegal.regs c.addr c.pos c.run)

/-- An imprecise fault that is due: the event of a wave, or the fault of a steward flow. -/
def State.imprecise (s : State) (f : Flow) : Choice :=
  match f with
  | .wave c k => .run (.impreciseFault c k) s
  | .steward _ _ => .done (s.takeImprecise f)

/-- A flow's turn: an imprecise fault that is due, the halt that a gang halt asks for at the end of its clause, the next instruction of its clause, or a clause
start. A flow that may not issue does nothing. -/
def State.issueFlow (s : State) (f : Flow) : Choice :=
  let s := { s with cur := f }
  match s.flow? f with
  | none => .done s
  | some w =>
    if s.runs f && w.dueImprecise.isSome && (w.boundary).isSome then s.imprecise f
    else if !s.issuable f then .done s
    else
      match w.clause with
      | some c =>
        match c.next with
        | .ok i => .run i ((s.issued f).tagIssue f)
        | .error _ => .done ((s.issued f).illegalWord c)
      | none => if w.stopping then .done (s.stopAtBoundary f) else .run (.clauseStart f) (s.issued f)

/-- The work of a core's matrix engine that is next (R255, R259). -/
def Matrix.ownEvent (m : Matrix) (c : Nat) : Option Instr :=
  match m.queue.find? (fun o => o.running), m.fills with
  | some o, _ => some (.matrixOpComplete c o.acc)
  | none, _ :: _ => some (.mfillComplete c 0)
  | none, [] => if m.queue = [] then none else some (.matrixOpStart c 0)

/-- What happens of itself for a flow: the oldest of its data return (R393), its octet comes back (R40), or it wakes (R217). -/
def State.flowEvent (s : State) (f : Flow) : Option Instr :=
  match s.flow? f with
  | none => none
  | some w =>
    if !w.outstanding.isEmpty then some (.memoryResponse f 0)
    else match f, w.park with
      | .wave c k, some (.octet _ _) => some (.octetReturn c k)
      | .wave c k, some (.waking _) => some (.barrierWake c k)
      | _, _ => none

/-- What a flow's own core does of itself when the tape is empty: for the flow, for another wave of its core, or the work of its matrix engine
(R255, R259). -/
def State.ownEvent (s : State) (f : Flow) : Option Instr :=
  match f with
  | .steward _ _ => s.flowEvent f
  | .wave c _ =>
    ((f :: (s.core c).waves.map (fun e => Flow.wave c e.1)).findSome? s.flowEvent).or
      ((s.core c).engine.ownEvent c)

/-- What a core does of itself for a flow: the swap that it has been asked for (R169), an event of its own, or nothing. -/
def State.ownStep (s : State) (f : Flow) : Choice :=
  match f, s.ownEvent f with
  | .wave c _, e => if s.swapReady c then .done (s.swap c) else e.elim (.done s) (fun i => .run i s)
  | .steward _ _, some i => .run i s
  | .steward _ _, none => .done s

/-- The turn of a wave that `dstep` steps (R444): once its outstanding results have returned and its WAIT flags are clear, the one instruction, which goes on where it has held
the wave; a fault of the operation on which it was held, or its end once the instruction has completed. -/
def State.stepTarget (s : State) (d : DStep) : Choice :=
  match s.flow? d.target with
  | none => .done (s.finishStep d 1)
  | some w =>
    match (if d.issued then none else w.clause), w.faults.find? (fun r => r.2.precise) with
    | _, some (n, r) => .done ((s.modFlow d.target (fun w => { w with imprecise := w.imprecise.eraseIdx n })).finishStep d (4 + r.code * 256 + r.sub * 65536))
    | none, none => if s.stepDone d then .done (s.finishStep d 0) else s.ownStep d.target
    | some c, none =>
      if !goesOn w.park || w.outstanding ≠ [] || (d.word = 0 && !s.interlocked w c && !w.flagsClear (headerWait c.header)) then s.ownStep d.target
      else match c.next with
        | .ok i => .run i { s with cur := d.target }
        | .error _ => .done (State.illegalWord { s with cur := d.target } c)

/-- A scheduler's turn (R205): what precedes an issue, or the wave that it picks issues. -/
def State.schedule (s : State) (c sch : Nat) : Option Choice :=
  match s.chore c sch with
  | some t => some (.done t)
  | none => (s.pick c sch).map (fun k => s.issueFlow (.wave c k))

/-- A turn: of the flow that a `dstep` in progress steps, of a steward flow, or of the scheduler of a wave's slot. -/
def State.turn (s : State) (f : Flow) : Choice :=
  match s.dstep, f with
  | some d, _ => s.stepTarget d
  | none, .steward _ _ => s.issueFlow f
  | none, .wave c k => (s.schedule c (schedulerOf k)).getD (.done s)

/-- With an empty tape the scheduler of the current flow has its turn, or the current steward flow issues; where no wave can issue, or the steward flow waits or may not
issue, what happens of itself takes place. -/
def State.alone (s : State) : Choice :=
  match s.dstep, s.cur with
  | some d, _ => s.stepTarget d
  | none, .steward _ _ => if s.issuable s.cur && !((s.ownEvent s.cur).isSome && s.waits s.cur) then s.issueFlow s.cur else s.ownStep s.cur
  | none, .wave c k => (s.schedule c (schedulerOf k)).getD (s.ownStep s.cur)

/-- What a step does. An instruction word on the tape is no event, and is dropped: an instruction issues only from its clause. A clause starts at its scheduler's turn. -/
def State.choose (s : State) : Choice :=
  let s := s.noteReady
  match s.agenda with
  | .event (.clauseStart f) :: rest | .flow f :: rest => State.turn { s with agenda := rest } f
  | .event i :: rest => if i.spec.isSome then .done { s with agenda := rest } else .run i { s with agenda := rest }
  | [] => s.alone

/-! ### Placing an instruction -/

/-- A launch record of one group of one wave: every variable lane-home, nothing else given (R187). -/
def Record.plain : Record :=
  { replay := false, narrow := false, interlocked := false, gang := 0, tiles := 0, windows := [], stackSize := 0, entry := 0x1000, init := [],
    regions := [], stack := 0, writeSet := [], trigAddr := 0, trigVal := 0, levels := [(64, 0), (1, 2), (1, 3)], ranks := [] }

/-- A running launch of that record in context 1. -/
def Launch.plain : Launch :=
  { context := 1, queue := 0, packet := 0, sitePc := 0, record := Record.plain, state := .running, priority := 0, prio := 0, readySince := 0, count := 1, placed := 1,
    outer := 1, next := 1, exited := [], triggeredGroups := [], triggered := false, replays := 0, replayable := false, signal := none,
    protectedPieces := [], snapshots := [], fault := none, waitingSince := none, units := [], traced := false }

/-- A live context without tables. -/
def Context.plain : Context := { asid := some 1, state := .live, cause := 0, root := 0, die := 0, tvec := 0, areas := [] }

/-- A group with nothing in its scratchpad. -/
def Group.plain : Group :=
  { launch := 1, index := 0, serial := 0, state := .running, home := [], spad := [], poison := [], spadTags := [], regions := [], windows := [], barriers := [], captures := [],
    guard := none, budget := none, triggered := false }

/-- A wave of 64 threads at the record's entry. -/
def Wave.plain : Wave :=
  { Wave.reset with
    launch := 1
    live := BitVec.allOnes 64
    counter := (List.range 64).map (fun l => (l, 0x1000)) }

/-- One context, launch, group and wave on core 0, as the host, the scheduler firmware and the dispatcher would have placed them (log 5). -/
def State.scene (s : State) : State :=
  { s with
    contexts := s.contexts.set 1 Context.plain
    launches := s.launches.set 1 Launch.plain
    cores := s.cores.set 0 { s.core 0 with context := some 1, asid := 1, waves := [(0, Wave.plain)], groups := [(0, Group.plain)], active := [0], pending := [] }
    cur := .wave 0 0 }

/-- The state with a wave for the current flow: itself where one with threads stands, else with the scene. -/
def State.withWave (s : State) : State :=
  match s.flow? s.cur with
  | some _ => if isSteward s.cur || !s.runs s.cur then s.scene else s
  | none => s.scene

/-- The words of an instruction of `nbits` bits, those that the decoder takes, or three where it takes none. -/
def fetchWords (nbits w : Nat) : List Word :=
  let ws := wordsOfBytes (bytesOfNat 12 (w % 2 ^ nbits))
  match decodeWords ws with
  | .ok (_, rest) => ws.take (ws.length - rest.length)
  | .error _ => ws

/-- Put words as the whole of the clause in progress of the current flow: a mixed clause, every live lane its run. -/
def State.placeWords (s : State) (ws : List Word) : State :=
  let header : Word := BitVec.ofNat 32 (ws.length * 2 ^ 28 + 6 * 2 ^ 25)
  (s.issued s.cur).modFlow s.cur (fun w => { w with
    park := none
    imprecise := []
    clause := some { addr := w.counter.getD w.live.lowest 0, header, words := ws, pos := 1, run := w.live &&& ~~~w.halted } })

/-- The state whose very next step issues the instruction of `nbits` bits `w` for the current flow. -/
def State.placeInstr (s : State) (nbits w : Nat) : State :=
  let s : State := { s with agenda := [], dstep := none }
  s.withWave.placeWords (fetchWords nbits w)

end Sys2Proof.Machine
end

