-- ==== Sys2Proof/Safety.lean ====
section
/-! DEFINITION. What a safe run is, and what an undisturbed instruction writes and leaves alone, in the terms that claims use. -/

namespace Sys2Proof

open Sys2Proof.Machine

/-! ### Runs and the memory invariant -/

/-- A step answers a next state: it neither stops with a fault nor refuses. -/
def Goes (s : State) : Prop := ∃ t, step s = .next t

/-- The next step of a state is a flow's turn, taken in the state that follows, in which the packets that have become ready are noted (R186): the tape is empty and the flow is
the current one, or the tape names the flow or its clause start; no `dstep` is in progress. -/
def TurnOf (s t : State) (f : Flow) : Prop :=
  s.dstep = none ∧
    ((s.agenda = [] ∧ s.cur = f ∧ t = s.noteReady) ∨
      ∃ rest, (s.agenda = .flow f :: rest ∨ s.agenda = .event (.clauseStart f) :: rest) ∧ t = { s.noteReady with agenda := rest })

/-- The invariant of the machine's memory: its list of bytes is in canonical form (R109, log 1). -/
def MemOk (s : State) : Prop := Memory.wf s.mem = true

/-! ### An instruction that nothing disturbs -/

/-- An instruction issues and nothing of the flow's state stops it before its own checks: it is legal where it stands (R42, R54, R78 to R80, R414), no flag count
or interlock holds it (R96, R99), the octets it touches are in the file (R40), no watch, no armed injection and no uncorrectable word stands on its core (R447, R477), its wave
is not traced (R463), no `dstep` is in progress (R444), and its run is not empty. -/
structure Ready (s : State) (i : Instr) (e : Issuer) : Prop where
  issuer : s.issuer i = some e
  legal : s.firstTrap e = none
  free : s.held e = false
  resident : e.overflowTouch = none
  watches : ∀ c k, e.f = .wave c k → (s.core c).watches = []
  sound : ∀ c k, e.f = .wave c k → (s.core c).sound = true
  untraced : e.w.traced = false
  alone : s.dstep = none
  run : e.run ≠ 0

/-! ### What a flow's variables read -/

/-- What a variable reads as for a lane of a flow (R45); none where there is no such flow. -/
def varAt (s : State) (f : Flow) (x l : Nat) : Option Word := (s.flow? f).map (fun w => s.readVar f w x l)

/-- A variable is one of those that an instruction's result goes to. -/
def isDst (e : Issuer) (f : Flow) (x : Nat) : Prop := f = e.f ∧ e.p.dst.toNat ≤ x ∧ x < e.p.dst.toNat + roleCount e.p.dstRole

/-- A result stands in its destination (R41, R42): for a lane-class instruction each lane of the run reads its own words and every other live lane reads as
before; for one that executes once, each lane reads the one result, but for those that hold a lane copy, which read as before. Under NWB nothing is written (R55). -/
def Wrote (s t : State) (e : Issuer) (v : Nat → List Word) : Prop :=
  ∀ k < roleCount e.p.dstRole, ∀ l < 64,
    if e.p.nwb then varAt t e.f (e.p.dst.toNat + k) l = varAt s e.f (e.p.dst.toNat + k) l
    else if scalarClass e.p then
      varAt t e.f (e.p.dst.toNat + k) l =
        if (e.w.laneCopies.get (64 * (e.p.dst.toNat + k) + l)).isSome then varAt s e.f (e.p.dst.toNat + k) l else some (((v e.lead)[k]?).getD 0)
    else
      (e.run.getLsbD l = true → varAt t e.f (e.p.dst.toNat + k) l = some (((v l)[k]?).getD 0)) ∧
      (e.run.getLsbD l = false → e.w.live.getLsbD l = true → varAt t e.f (e.p.dst.toNat + k) l = varAt s e.f (e.p.dst.toNat + k) l)

/-- The newest latch of a flow holds an entry (R53). -/
def Latched (t : State) (e : Issuer) (k : Latch) : Prop := ∃ w, t.flow? e.f = some w ∧ w.latches.head? = some k

/-! ### What an instruction leaves alone -/

/-- A flow's record without its variables, their octets, its latches, its place in the program, its WSTAT and the watch exemptions it has used. -/
def Machine.Wave.still (w : Wave) : Wave :=
  { w with slots := [], copies := [], laneCopies := [], octets := [], overflowed := [], latches := [], clause := none, counter := [], word := [], hpc := 0,
           park := none, exempt := [], wstat := Wstat.reset }

/-- A group without the marks that its pending merges carry (R50). -/
def Machine.Group.still (g : Group) : Group := { g with captures := [] }

/-- A core without its flows, its groups and the count of evicted octets (R40). -/
def Machine.Core.still (q : Core) : Core := { q with waves := [], groups := [], splitOvf := 0, octetAge := [] }

/-- A die without its steward flows. -/
def Machine.Die.still (q : Die) : Die := { q with stewards := [] }

/-- An instruction of a flow has changed nothing but variables named by `dst`, the flow's latches, its place in the program and its WSTAT: no byte of memory, no
other variable of any flow, no register, accumulator, trap register, flag count, group or queue. (Octets of split copies may have been evicted: SPLIT_OVF.) -/
structure Untouched (s t : State) (e : Issuer) (dst : Flow → Nat → Prop) : Prop where
  rest : { t with cores := s.cores, dies := s.dies } = s
  vars : ∀ f x, ¬dst f x → ∀ l < 64, varAt t f x l = varAt s f x l
  flows : ∀ f, (t.flow? f).map Wave.still = (s.flow? f).map Wave.still
  wstat : ∀ f, f ≠ e.f → (t.flow? f).map (fun w => w.wstat) = (s.flow? f).map (fun w => w.wstat)
  cores : ∀ c, (t.core c).still = (s.core c).still
  dies : ∀ d, (t.die d).still = (s.die d).still
  groups : ∀ c g, (t.group? c g).map Group.still = (s.group? c g).map Group.still

/-- WSTAT of the issuing flow is as before but for the exceptions of a result (R67). -/
def Raised (t : State) (e : Issuer) (x : Exc) : Prop := ∃ w, t.flow? e.f = some w ∧ w.wstat = e.w.wstat.raise x

/-- The flow stands behind the instruction (R17, R18): at the next word of its clause, or, after its last word, each live and unhalted thread of the run at the
clause that follows, at word 0; a handler's own counter moves likewise (R297). -/
def Passed (t : State) (e : Issuer) : Prop :=
  ∃ w, t.flow? e.f = some w ∧
    (if e.last then w.clause = none ∧ (if e.w.handler then w.hpc = e.after
        else ∀ l, (e.w.movers e.c).getLsbD l = true → w.position l = (e.after, 0))
      else w.clause = some { e.c with pos := e.c.pos + e.len })

/-- An undisturbed instruction writes a result and nothing else: the words of each lane, their exceptions, the latch entry of the first 64 bits. -/
def Gives (i : Instr) (v : State → Issuer → Nat → List Word) (x : State → Issuer → Exc) : Prop :=
  ∀ s e, Ready s i e → ∃ t, Machine.exec i s = .next t ∧ Wrote s t e (v s e) ∧ Raised t e (x s e) ∧ Latched t e (e.latch e.run (v s e)) ∧ Passed t e ∧
    Untouched s t e (isDst e)

/-- As `Gives`, for states and operands that meet a further condition of the instruction's own. -/
def GivesIf (i : Instr) (p : State → Issuer → Prop) (v : State → Issuer → Nat → List Word) (x : State → Issuer → Exc) : Prop :=
  ∀ s e, Ready s i e → p s e → ∃ t, Machine.exec i s = .next t ∧ Wrote s t e (v s e) ∧ Raised t e (x s e) ∧ Latched t e (e.latch e.run (v s e)) ∧ Passed t e ∧
    Untouched s t e (isDst e)

/-- The flow stands where an instruction that ends its clause sends it (R18): each live and unhalted thread of the run at its own target, at word 0; a handler's counter
at its lowest lane's target (R298). -/
def Sent (t : State) (e : Issuer) (next : Nat → Nat) : Prop :=
  ∃ w, t.flow? e.f = some w ∧ w.clause = none ∧
    (if e.w.handler then w.hpc = next e.lead else ∀ l, (e.w.movers e.c).getLsbD l = true → w.position l = (next l, 0))

/-- As `Untouched`, but for the issuing flow's own record, which a statement describes by itself: no variable but those of `dst`, no other flow, no byte of memory, no
register of a core or die, no group and no queue has changed. -/
structure Calm (s t : State) (e : Issuer) (dst : Flow → Nat → Prop) : Prop where
  rest : { t with cores := s.cores, dies := s.dies } = s
  vars : ∀ f x, ¬dst f x → ∀ l < 64, varAt t f x l = varAt s f x l
  flows : ∀ f, f ≠ e.f → (t.flow? f).map (fun w => (w.still, w.wstat)) = (s.flow? f).map (fun w => (w.still, w.wstat))
  cores : ∀ c, (t.core c).still = (s.core c).still
  dies : ∀ d, (t.die d).still = (s.die d).still
  groups : ∀ c g, (t.group? c g).map Group.still = (s.group? c g).map Group.still

/-- A flow's record without what `still` leaves out and what an access in flight adds: flag counts, outstanding results, and the releases its reads have seen (R96, R140). -/
def Machine.Wave.atRest (w : Wave) : Wave := { w.still with flags := [], outstanding := [], seen := [] }

/-- What an access to memory leaves alone: every variable, every other flow, of its own flow everything but flags, outstanding results and releases seen (so its trap
registers, its counters' stacks, its privilege), the cores but for their L1 TLBs, and the groups. -/
structure MemCalm (s t : State) (e : Issuer) : Prop where
  vars : ∀ f x, ∀ l < 64, varAt t f x l = varAt s f x l
  flows : ∀ f, f ≠ e.f → (t.flow? f).map (fun w => (w.still, w.wstat)) = (s.flow? f).map (fun w => (w.still, w.wstat))
  own : (t.flow? e.f).map Wave.atRest = some e.w.atRest
  cores : ∀ c, { (t.core c).still with l1 := [] } = { (s.core c).still with l1 := [] }
  groups : ∀ c g, (t.group? c g).map Group.still = (s.group? c g).map Group.still

/-- A result is under way (R96): it waits for its response with the words it will write for each lane, and its flag counts it. -/
def UnderWay (t : State) (e : Issuer) (vals : Nat → List Word) : Prop :=
  ∃ w o, t.flow? e.f = some w ∧ w.outstanding = e.w.outstanding ++ [o] ∧ o.failure = none ∧ o.run = e.run ∧ o.flag = e.p.flag ∧
    o.dst = (if e.p.nwb || roleCount e.p.dstRole = 0 then none else some e.p.dst.toNat) ∧ o.vars = roleCount e.p.dstRole ∧
    (∀ l ∈ e.accessLanes, ∀ k < roleCount e.p.dstRole, ((o.vals.getD l [])[k]?).getD 0 = ((vals l)[k]?).getD 0) ∧
    ∀ k, e.p.flag = some k → w.flags.getD k.val 0 = e.w.flags.getD k.val 0 + 1

/-- An instruction that writes memory of another die has sent its request over the links and holds its wave until the die has it (R239, log 126): nothing but that has happened
since the state of its checks. -/
def Asked (s s' t : State) (e : Issuer) : Prop :=
  MemCalm s t e ∧ (∀ a, t.byte a = s'.byte a) ∧
    ∃ w o, t.flow? e.f = some w ∧ w.park = some .request ∧ w.clause = e.w.clause ∧ w.latches = e.w.latches ∧ w.outstanding = e.w.outstanding ++ [o] ∧
      o.request = true ∧ o.dst = none ∧ o.flag = none ∧ o.failure = none

/-- The result of an instruction that memory serves, by where its accesses lie. On its flow's own die it is under way, with the memory that serving leaves. On another die the
request is sent first; with the request at the die the result is written and memory is served; with the request lost nothing is (R239, R246, R291, log 126). -/
def Served (i : Instr) (s s' : State) (e : Issuer) (ps : Tab Nat) (vals : Nat → List Word) (served : State → Prop) : Prop :=
  ∃ t, Machine.exec i s = .next t ∧
    if e.w.park = some .arrived then Passed t e ∧ Wrote s t e vals ∧ served t ∧ ∀ f y l, l < 64 → ¬isDst e f y → varAt t f y l = varAt s f y l
    else if e.w.park = some .lost then Passed t e ∧ MemCalm s t e ∧ (∀ a, t.byte a = s'.byte a) ∧ t.reservations = s'.reservations
    else if ps.any (fun p => paDie p.2 != flowDie e.f) = true then Asked s s' t e
    else Passed t e ∧ MemCalm s t e ∧ served t ∧ UnderWay t e vals

/-- A byte of memory of a state is that of another, or has gained accessed and dirty bits, bits 6 and 7 (R224). -/
def Gained (s t : State) (a : Nat) : Prop := t.byte a = s.byte a ∨ ∃ m : Byte, (m = 0x40 ∨ m = 0x80 ∨ m = 0xC0) ∧ t.byte a = s.byte a ||| m

/-- Memory is as before but for the low bytes of leaf entries at which walks for some addresses end, in the state or in one in which bytes have gained accessed and dirty bits:
these bytes have gained such bits (R224). -/
def MarkedLeaves (s t : State) (f : Flow) (vas : List Nat) : Prop :=
  ∀ a, t.byte a = s.byte a ∨
    (Gained s t a ∧ ∃ va ∈ vas, ∃ (u : State) (base size pa pte : Nat), u.walk (flowDie f) (s.asidOf f) va = .leaf a base size pa pte ∧ (∀ b, Gained s u b) ∧
      ∀ d, (u.die d).walkRoot = (s.die d).walkRoot)

/-- Atomics served one after another on plain memory: each lane's old value, and the bytes at the end. `op` gives the new value for a lane and an old value, or
none where nothing is written. -/
def serveAtomics (n : Nat) (op : Nat → Nat → Option Nat) : List (Nat × Nat) → (Nat → Byte) → (Nat → Byte) × Tab Nat
  | [], m => (m, [])
  | (l, pa) :: rest, m =>
    let old := natOfBytes ((List.range n).map (fun k => m (pa + k)))
    let m' : Nat → Byte := match op l old with
      | some v => fun a => if pa ≤ a ∧ a < pa + n then (bytesOfNat n v).getD (a - pa) 0 else m a
      | none => m
    let (m'', olds) := serveAtomics n op rest m'
    (m'', (l, old) :: olds)

/-- An undisturbed instruction that gives each thread its next counter, has no result and changes nothing else. -/
def Jumps (i : Instr) (p : State → Issuer → Prop) (next : State → Issuer → Nat → Nat) : Prop :=
  ∀ s e, Ready s i e → p s e → ∃ t, Machine.exec i s = .next t ∧ Sent t e (next s e) ∧ Raised t e {} ∧ Latched t e .invalid ∧
    Untouched s t e (fun _ _ => False)

/-- An undisturbed integer instruction gives each lane a value of 64 bits, low half first, of which a 32-bit destination takes the low half, and raises nothing (R312,
R315). -/
def GivesInt (i : Instr) (g : Ops → DWord) : Prop := Gives i (fun s e l => wordsOf (g (s.ops e l))) (fun _ _ => {})

/-- An undisturbed floating-point instruction gives each lane a pattern of 32 bits, and WSTAT the exceptions of the lanes that execute (R341). -/
def GivesFp (i : Instr) (g : Ops → Word × Exc) : Prop :=
  Gives i (fun s e l => [(g (s.ops e l)).1]) (fun s e => (e.lanes e.run).foldl (fun a l => a.or (g (s.ops e l)).2) {})

/-! ### Integers of operands (R311) -/

/-- N(v): an operand of 32 or 64 bits read as signed or unsigned (R311). -/
def intOf (sgn w64 : Bool) (v : DWord) : Int :=
  if w64 then (if sgn then v.toInt else v.toNat) else (if sgn then (lo32 v).toInt else (lo32 v).toNat)

/-- An operand of 32 or 64 bits extended to 64 by its sign, or by zeros. -/
def extOf (sgn w64 : Bool) (v : DWord) : DWord := if w64 then v else if sgn then (lo32 v).signExtend 64 else (lo32 v).setWidth 64

/-- Clamp(v): the value of the range of 32 or 64 bits, signed or unsigned, that is nearest to v (R311). -/
def clampTo (sgn w64 : Bool) (v : Int) : Int :=
  let n : Nat := if w64 then 64 else 32
  if sgn then max (-(2 ^ (n - 1) : Int)) (min (2 ^ (n - 1) - 1 : Int) v) else max 0 (min (2 ^ n - 1 : Int) v)

end Sys2Proof
end

