-- ==== Sys2Proof/Certificates/Slice0/Obligations.lean ====
section
/-! DEFINITION. The statements for the provers. Each names what it states; OBLIGATIONS.json gives its tier, its basis and its rules. -/

section

open Sys2Proof Sys2Proof.Machine

/-! ### Words and instructions -/

/-- Every well-formed instruction is what its own words decode to, with nothing taken of the words that follow (R76, R81 to R93). -/
def Obligations.EncodeThenDecode : Prop :=
  ∀ (i : Instr) (rest : List Word), i.wf = true → decodeWords (encode i ++ rest) = .ok (i, rest)

/-- Words that decode are the words of the well-formed instruction they decode to, so no bit of them is dropped and none means two things (R81 to R93, R100). -/
def Obligations.DecodeThenEncode : Prop :=
  ∀ (ws rest : List Word) (i : Instr), decodeWords ws = .ok (i, rest) → i.wf = true ∧ encode i ++ rest = ws

/-- Words that the spec writes out decode to the instructions they stand for (tables of R321, R415 and R415's neighbours). -/
def Obligations.WrittenWords : Prop :=
  decodeWords [0x0503C98E] = .ok (.shl { dist := 0, s := false, nwb := false, dst := 3, sa := .special (.lvl 1), sb := .const 6, lit := none }, []) ∧
  decodeWords [0x2B2C2CFF, 0x00F08000, 0x00000100] =
    .ok (.iaddX { dist := 0, s := true, nwb := false, dst := 44, sa := .var 44, sb := .lit, sc := .var 0, flag := none, imm := 0x8000, lit := some 0x100 }, []) ∧
  decodeWords [0x4B050506, 0x00304800] =
    .ok (.iaddX { dist := 1, s := false, nwb := false, dst := 5, sa := .var 5, sb := .var 6, sc := .var 0, flag := some 3, imm := 0x4800, lit := none }, []) ∧
  decodeWords [0x3E00FF00, 0x00F50000, 0x0000003F] =
    .ok (.csrc { dist := 0, s := true, nwb := false, dst := 0, sa := .lit, sb := .var 0, sc := .var 0, flag := none, imm := 0, lit := some 0x3F }, []) ∧
  decodeWords [0x1E383E3D, 0x00F30005] =
    .ok (.dread { dist := 0, s := false, nwb := false, dst := 56, sa := .var 62, sb := .var 61, sc := .var 0, flag := none, imm := 5, lit := none }, [])

/-! ### Steps -/

/-- The step of the machine is `exec` of the instruction that the next words of a clause decode to, at the state in which its flow has issued; the machine adds nothing around
`exec` but the note of the packets that have become ready (R186, log 25) and the tag of a sampled instruction (R460, log 121): the words are counted, and the flow moves, in `exec`
itself (R17, R76). The clauses: a scheduler that has nothing to do first issues for the wave it picks (R205); a
steward flow that may issue and does not wait issues; words that decode to nothing take the illegal-instruction trap at that word, with no other effect (R83, R90, R293); a flow
with no clause starts one; an event on the input tape is executed in the state behind it, and an instruction word there is dropped; with an empty tape and nothing that issues,
what the core does of itself takes place, a swap that is due before all else (R169; log 2: the tape and this choice are the model's own). -/
def Obligations.StepRunsDecoded : Prop :=
  (∀ (s s' : State) (c j k : Nat) (w : Wave) (x : Clause) (i : Instr) (rest : List Word),
    TurnOf s s' (.wave c j) → s'.chore c (schedulerOf j) = none → s'.pick c (schedulerOf j) = some k → s'.flow? (.wave c k) = some w → w.dueImprecise = none →
    w.clause = some x → decodeWords (x.words.drop (x.pos - 1)) = .ok (i, rest) →
    step s = Machine.exec i ((State.issued { s' with cur := .wave c k } (.wave c k)).tagIssue (.wave c k))) ∧
  (∀ (s s' : State) (d k : Nat) (w : Wave) (x : Clause) (i : Instr) (rest : List Word),
    TurnOf s s' (.steward d k) → s'.issuable (.steward d k) = true → s'.waits (.steward d k) = false → s'.flow? (.steward d k) = some w → w.dueImprecise = none →
    w.clause = some x → decodeWords (x.words.drop (x.pos - 1)) = .ok (i, rest) →
    step s = Machine.exec i { s' with cur := .steward d k }) ∧
  (∀ (s s' : State) (c j k : Nat) (w : Wave) (x : Clause) (d : DecodeError),
    TurnOf s s' (.wave c j) → s'.chore c (schedulerOf j) = none → s'.pick c (schedulerOf j) = some k → s'.flow? (.wave c k) = some w → w.dueImprecise = none →
    w.clause = some x → decodeWords (x.words.drop (x.pos - 1)) = .error d →
    step s = .next ((State.issued { s' with cur := .wave c k } (.wave c k)).takeTrap (.wave c k) (Trap.illegal.regs x.addr x.pos x.run))) ∧
  (∀ (s s' : State) (c j k : Nat) (w : Wave),
    TurnOf s s' (.wave c j) → s'.chore c (schedulerOf j) = none → s'.pick c (schedulerOf j) = some k → s'.flow? (.wave c k) = some w → w.dueImprecise = none →
    w.clause = none → w.stopping = false →
    step s = Machine.exec (.clauseStart (.wave c k)) (State.issued { s' with cur := .wave c k } (.wave c k))) ∧
  (∀ (s : State) (i : Instr) (rest : List Act), s.agenda = .event i :: rest → (∀ f, i ≠ .clauseStart f) →
    step s = if i.spec.isSome then .next { s.noteReady with agenda := rest } else Machine.exec i { s.noteReady with agenda := rest }) ∧
  (∀ (s s' : State) (c j : Nat), s' = s.noteReady → s.agenda = [] → s.dstep = none → s.cur = .wave c j → s'.chore c (schedulerOf j) = none →
    s'.pick c (schedulerOf j) = none →
    (s'.swapReady c = true → step s = .next (s'.swap c)) ∧
    ∀ i, s'.swapReady c = false → s'.ownEvent s.cur = some i → step s = Machine.exec i s') ∧
  (∀ (s s' : State) (d k : Nat) (i : Instr), s' = s.noteReady → s.agenda = [] → s.dstep = none → s.cur = .steward d k → s'.ownEvent s.cur = some i →
    (s'.issuable s.cur = false ∨ s'.waits s.cur = true) → step s = Machine.exec i s')

/-- Where fetched words meet `step`: a word placed as the next fetch is run as the instruction that the decoder reads from it, on a live wave (log 5). -/
def Obligations.FetchedWordRuns : Prop :=
  ∀ (nbits w : Nat) (i : Instr), decodeTableWord nbits w = some i →
    step (State.reset.withFetchWord nbits w) = Machine.exec i (State.reset.withFetchWord nbits w)

/-! ### Reset and the memory's form -/

/-- After module reset the registers of every die and core hold the values that their tables give (R203, R220, R232, R262, R431, R447, R477, R498), nothing is resident,
queued, launched or reserved, and memory lists nothing. -/
def Obligations.ResetState : Prop :=
  (∀ d < 4, State.reset.readReg (.die d 0x200) 0 none = 4000 ∧ State.reset.readReg (.die d 0x201) 0 none = 0 ∧
    State.reset.readReg (.die d 0x202) 0 none = 16 * 2 ^ 26 + 2 * 2 ^ 20 + 1000 ∧ State.reset.readReg (.die d 0x203) 0 none = 0 ∧
    State.reset.readReg (.dev d 0x08) 0 none = 2000 * 2 ^ 20 + 2400) ∧
  (∀ c, (State.reset.core c).waves = [] ∧ (State.reset.core c).context = none ∧ (State.reset.core c).shadow = none ∧
    (∀ n, 0x100 ≤ n ∧ n ≤ 0x104 → State.reset.readReg (.core c n) 0 none = 0) ∧
    (∀ n, 0x110 ≤ n ∧ n ≤ 0x114 → State.reset.readReg (.core c n) 0 none = 14 * 2 ^ 32 + 0x00800000) ∧
    (∀ n, 0x115 ≤ n ∧ n ≤ 0x141 → State.reset.readReg (.core c n) 0 none = 0) ∧
    ∀ n, 0x180 ≤ n ∧ n ≤ 0x1FF → State.reset.readReg (.core c n) 0 none = 0) ∧
  State.reset.launches = [] ∧ State.reset.contexts = [] ∧ State.reset.queues = [] ∧ State.reset.chains = [] ∧ State.reset.reservations = [] ∧
  State.reset.mem = [] ∧ State.reset.poison = []

/-- Memory after reset is in canonical form. -/
def Obligations.ResetMemory : Prop := MemOk State.reset

/-- Every step keeps memory in canonical form, so equal memories stay equal data. -/
def Obligations.StepKeepsMemory : Prop := ∀ s t : State, MemOk s → step s = .next t → MemOk t

/-! ### Integer and bit instructions (R322 to R336) -/

/-- `iadd` and `isub` (R322): the exact sum or difference, wrapped, or under `.sat` clamped to the range of the signedness written.
`exec` answers a next state for `iadd`, `isub`, `iaddX` and `isubX`. -/
def Obligations.AddSubtract : Prop :=
  (∀ o, GivesInt (.iadd o) (fun v => v.a + v.b)) ∧
  (∀ o, GivesInt (.isub o) (fun v => v.a - v.b)) ∧
  (∀ x, GivesInt (.iaddX x) (fun v =>
    if x.sat then BitVec.ofInt 64 (clampTo x.sgn x.w64 (intOf x.sgn x.w64 v.a + intOf x.sgn x.w64 v.b)) else v.a + v.b)) ∧
  (∀ x, GivesInt (.isubX x) (fun v =>
    if x.sat then BitVec.ofInt 64 (clampTo x.sgn x.w64 (intOf x.sgn x.w64 v.a - intOf x.sgn x.w64 v.b)) else v.a - v.b))

/-- `imul`, `imad` and `imulh` (R323, R324): the low half of the product, the whole 64-bit product under `.wide`, and the high half.
`exec` answers a next state for `imul`, `imad` and `imulh`. -/
def Obligations.Multiply : Prop :=
  (∀ x, GivesInt (.imul x) (fun v => if wide x then extOf x.sgn false v.a * extOf x.sgn false v.b else v.a * v.b)) ∧
  (∀ x, GivesInt (.imad x) (fun v => (if wide x then extOf x.sgn false v.a * extOf x.sgn false v.b else v.a * v.b) + v.c)) ∧
  (∀ x, GivesInt (.imulh x) (fun v =>
    BitVec.ofInt 64 (intOf x.sgn x.w64 v.a * intOf x.sgn x.w64 v.b / (if x.w64 then 2 ^ 64 else 2 ^ 32))))

/-- `imin`, `imax`, `iabs` and `ineg` (R325, R326): of equal operands the value itself; |S(A)| and −S(A) wrap, or under `.sat` stop at the greatest value.
`exec` answers a next state for `imin`, `imax`, `iabs`, `ineg`, `iabsX` and `inegX`. -/
def Obligations.MinMaxAbs : Prop :=
  (∀ x, GivesInt (.imin x) (fun v => if intOf x.sgn x.w64 v.a ≤ intOf x.sgn x.w64 v.b then v.a else v.b)) ∧
  (∀ x, GivesInt (.imax x) (fun v => if intOf x.sgn x.w64 v.b ≤ intOf x.sgn x.w64 v.a then v.a else v.b)) ∧
  (∀ o, GivesInt (.iabs o) (fun v => if intOf true false v.a < 0 then -v.a else v.a)) ∧
  (∀ o, GivesInt (.ineg o) (fun v => -v.a)) ∧
  (∀ x, GivesInt (.iabsX x) (fun v =>
    let m : Int := (intOf true x.w64 v.a).natAbs
    BitVec.ofInt 64 (if x.sat then min m (if x.w64 then 2 ^ 63 - 1 else 2 ^ 31 - 1) else m))) ∧
  (∀ x, GivesInt (.inegX x) (fun v =>
    let m : Int := -intOf true x.w64 v.a
    BitVec.ofInt 64 (if x.sat then min m (if x.w64 then 2 ^ 63 - 1 else 2 ^ 31 - 1) else m)))

/-- `icmp`, `isel`, `bsel`, `lea` and `mov` (R327 to R330).
`exec` answers a next state for `icmp`, `isel`, `bsel`, `lea`, `mov` and `movX`. -/
def Obligations.CompareSelectMove : Prop :=
  (∀ x, x.immBits 2 0 ≤ 5 → GivesInt (.icmp x) (fun v =>
    let a := intOf x.sgn x.w64 v.a
    let b := intOf x.sgn x.w64 v.b
    if [decide (a = b), decide (a ≠ b), decide (a < b), decide (a ≤ b), decide (b < a), decide (b ≤ a)].getD (x.immBits 2 0) false then 1 else 0)) ∧
  (∀ x, GivesInt (.isel x) (fun v => if lo32 v.c = 0 then v.b else v.a)) ∧
  (∀ x, GivesInt (.bsel x) (fun v => (v.a &&& v.c) ||| (v.b &&& ~~~v.c))) ∧
  (∀ x, GivesInt (.lea x) (fun v => v.a + extOf (x.sgn && x.w64) false v.b <<< x.immBits 5 0)) ∧
  (∀ o, GivesInt (.mov o) (fun v => v.a)) ∧
  (∀ x, GivesInt (.movX x) (fun v => v.a))

/-- The bitwise operations act on every bit of their operands (R331); `popc`, `clz`, `ctz` and `brev` are of 32 bits in the B-form and of 32 or 64 in the X-form (R336).
`exec` answers a next state for `clz`, `ctz`, `popc`, `popcX`, `clzX`, `ctzX`, `brev`, `brevX`, `and`, `or`, `xor`, `not`, `andX`, `orX`, `xorX`, `andn` and `notX`. -/
def Obligations.BitwiseLogic : Prop :=
  let ones (w64 : Bool) (v : Ops) : DWord := (List.range (if w64 then 64 else 32)).foldl (fun n k => if v.a.getLsbD k then n + 1 else n) 0
  let above (w64 : Bool) (v : Ops) : DWord := if w64 then v.a.clz else ((lo32 v.a).clz).setWidth 64
  let below (w64 : Bool) (v : Ops) : DWord := if w64 then v.a.ctz else ((lo32 v.a).ctz).setWidth 64
  let back (w64 : Bool) (v : Ops) : DWord := if w64 then v.a.reverse else ((lo32 v.a).reverse).setWidth 64
  (∀ o, GivesInt (.popc o) (ones false)) ∧ (∀ x, GivesInt (.popcX x) (ones x.w64)) ∧
  (∀ o, GivesInt (.clz o) (above false)) ∧ (∀ x, GivesInt (.clzX x) (above x.w64)) ∧
  (∀ o, GivesInt (.ctz o) (below false)) ∧ (∀ x, GivesInt (.ctzX x) (below x.w64)) ∧
  (∀ o, GivesInt (.brev o) (back false)) ∧ (∀ x, GivesInt (.brevX x) (back x.w64)) ∧
  (∀ o, GivesInt (.and o) (fun v => v.a &&& v.b)) ∧ (∀ o, GivesInt (.or o) (fun v => v.a ||| v.b)) ∧ (∀ o, GivesInt (.xor o) (fun v => v.a ^^^ v.b)) ∧
  (∀ o, GivesInt (.not o) (fun v => ~~~v.a)) ∧ (∀ x, GivesInt (.andX x) (fun v => v.a &&& v.b)) ∧ (∀ x, GivesInt (.orX x) (fun v => v.a ||| v.b)) ∧
  (∀ x, GivesInt (.xorX x) (fun v => v.a ^^^ v.b)) ∧ (∀ x, GivesInt (.andn x) (fun v => v.a &&& ~~~v.b)) ∧ (∀ x, GivesInt (.notX x) (fun v => ~~~v.a))

/-- The shifts (R332), funnel shifts (R333) and bit fields (R334, R335): a shift's count is not reduced, so that W and more give 0 or the sign; a funnel shift's is taken modulo W;
for a LEN that they take, bit k of the field extracted is bit B + k of A, and a bit of the field inserted replaces a bit of A.
`exec` answers a next state for `shl`, `shr`, `shlX`, `shrX`, `sar`, `fshl`, `fshr`, `bfx` and `bfi`. -/
def Obligations.Shifts : Prop :=
  (∀ o, GivesInt (.shl o) (fun v => v.a <<< (lo32 v.b).toNat)) ∧
  (∀ o, GivesInt (.shr o) (fun v => extOf false false v.a >>> (lo32 v.b).toNat)) ∧
  (∀ x, GivesInt (.shlX x) (fun v => v.a <<< (lo32 v.b).toNat)) ∧
  (∀ x, GivesInt (.shrX x) (fun v => extOf false x.w64 v.a >>> (lo32 v.b).toNat)) ∧
  (∀ x, GivesInt (.sar x) (fun v => (extOf true x.w64 v.a).sshiftRight (lo32 v.b).toNat)) ∧
  (∀ x, GivesInt (.fshl x) (fun v =>
    if x.w64 then ((v.a ++ v.b) <<< ((lo32 v.c).toNat % 64)).extractLsb' 64 64
    else (((lo32 v.a ++ lo32 v.b) <<< ((lo32 v.c).toNat % 32)).extractLsb' 32 32).setWidth 64)) ∧
  (∀ x, GivesInt (.fshr x) (fun v =>
    if x.w64 then ((v.a ++ v.b) >>> ((lo32 v.c).toNat % 64)).extractLsb' 0 64
    else (((lo32 v.a ++ lo32 v.b) >>> ((lo32 v.c).toNat % 32)).extractLsb' 0 32).setWidth 64)) ∧
  (∀ x, lenOk x = true → GivesInt (.bfx x) (fun v =>
    let n := x.immBits 6 0
    let f : DWord := (extOf false x.w64 v.a >>> (lo32 v.b).toNat) &&& (BitVec.allOnes 64 >>> (64 - n))
    if x.sgn && f.getLsbD (n - 1) then f ||| (BitVec.allOnes 64 <<< n) else f)) ∧
  (∀ x, lenOk x = true → GivesInt (.bfi x) (fun v =>
    let p := (lo32 v.c).toNat
    let m : DWord := (BitVec.allOnes 64 >>> (64 - x.immBits 6 0)) <<< p
    (v.a &&& ~~~m) ||| ((v.b <<< p) &&& m)))


/-! ### Floating point (R338 to R361) -/

/-- `fadd`, `fsub`, `fmul` and `ffma` form the exact result and round it once, by the mode and `.sat` written (R347); the B-forms round to nearest even.
`exec` answers a next state for `fadd`, `fsub`, `fmul`, `faddX`, `fsubX`, `fmulX` and `ffma`. -/
def Obligations.FloatArithmetic : Prop :=
  let add (m : RMode) (sat : Bool) (v : Ops) := roundFp32 m sat (sumExact m [f32 (lo32 v.a), f32 (lo32 v.b)])
  let sub (m : RMode) (sat : Bool) (v : Ops) := roundFp32 m sat (sumExact m [f32 (lo32 v.a), (f32 (lo32 v.b)).negate])
  let mul (m : RMode) (sat : Bool) (v : Ops) := roundFp32 m sat ((f32 (lo32 v.a)).mul (f32 (lo32 v.b)))
  (∀ o, GivesFp (.fadd o) (add .rne false)) ∧ (∀ o, GivesFp (.fsub o) (sub .rne false)) ∧ (∀ o, GivesFp (.fmul o) (mul .rne false)) ∧
  (∀ x, GivesFp (.faddX x) (add (rmode x.rm) x.sat)) ∧ (∀ x, GivesFp (.fsubX x) (sub (rmode x.rm) x.sat)) ∧
  (∀ x, GivesFp (.fmulX x) (mul (rmode x.rm) x.sat)) ∧
  (∀ x, GivesFp (.ffma x) (fun v =>
    roundFp32 (rmode x.rm) x.sat (sumExact (rmode x.rm) [(f32 (lo32 v.a)).mul (f32 (lo32 v.b)), f32 (lo32 v.c)])))

/-- Rounding takes a magnitude to a neighbouring multiple, the one that the mode names (R63): of m in units of 2^−k, downwards under RZ, away from zero on the side that
RUP and RDN name, to the nearest under RNE, and to an even one of two that are equally near; it is inexact exactly when it moves. -/
def Obligations.RoundingNeighbours : Prop :=
  ∀ (mode : RMode) (neg : Bool) (m k : Nat) (e : Int), 0 < k →
    let r := (roundMag mode neg m e (e + k)).1
    let u := 2 ^ k
    ((roundMag mode neg m e (e + k)).2 = true ↔ r * u ≠ m) ∧ r * u < m + u ∧ m < (r + 1) * u ∧
    (match mode with
      | .rz => r * u ≤ m
      | .rup => if neg then r * u ≤ m else m ≤ r * u
      | .rdn => if neg then m ≤ r * u else r * u ≤ m
      | .rne => 2 * (r * u) ≤ 2 * m + u ∧ 2 * m ≤ 2 * (r * u) + u ∧ ((2 * (r * u) = 2 * m + u ∨ 2 * m = 2 * (r * u) + u) → r % 2 = 0))

/-- A value that FP32 holds is rounded to itself in every mode, with no exception (R59, R64). An undefined result is the default NaN with INV (R65), whatever the mode; opposite
infinities, 0 × ∞ and every NaN operand give one. -/
def Obligations.ExactAndUndefinedResults : Prop :=
  (∀ (w : Word) (mode : RMode) (sat : Bool), f32 w ≠ .nan → roundFp32 mode sat (f32 w) = (w, {})) ∧
  (∀ mode sat, roundFp32 mode sat .nan = (0x7FC00000, { inv := true })) ∧
  (∀ mode s, sumExact mode [.inf s, .inf (!s)] = .nan) ∧ (∀ s t, (Exact.inf s).mul (.zero t) = .nan ∧ (Exact.zero t).mul (.inf s) = .nan) ∧
  (∀ v, (Exact.nan).mul v = .nan ∧ v.mul .nan = .nan) ∧ (∀ mode v, sumExact mode [.nan, v] = .nan ∧ sumExact mode [v, .nan] = .nan)

/-- `fmin`, `fmax`, `fminnum`, `fmaxnum` and `fcmp` (R348, R349).
`exec` answers a next state for `fmin`, `fmax`, `fminnum`, `fmaxnum` and `fcmp`. -/
def Obligations.FloatMinMaxCompare : Prop :=
  (∀ x, GivesFp (.fmin x) (fun v => as32 (minIeee false (lo32 v.a).toNat (lo32 v.b).toNat))) ∧
  (∀ x, GivesFp (.fmax x) (fun v => as32 (minIeee true (lo32 v.a).toNat (lo32 v.b).toNat))) ∧
  (∀ x, GivesFp (.fminnum x) (fun v => as32 (minNum fp32 false (lo32 v.a).toNat (lo32 v.b).toNat))) ∧
  (∀ x, GivesFp (.fmaxnum x) (fun v => as32 (minNum fp32 true (lo32 v.a).toNat (lo32 v.b).toNat))) ∧
  (∀ x, GivesFp (.fcmp x) (fun v =>
    let a := f32 (lo32 v.a)
    let b := f32 (lo32 v.b)
    let un := a == .nan || b == .nan
    let snan := fp32.signalling (lo32 v.a).toNat || fp32.signalling (lo32 v.b).toNat
    let lt := a.lt b
    let gt := b.lt a
    let c := x.immBits 2 0
    let holds := [!un && !lt && !gt, un || lt || gt, !un && lt, !un && !gt, !un && gt, !un && !lt, un, !un].getD c false
    (if holds then 1 else 0, { inv := if 2 ≤ c ∧ c ≤ 5 then un else snan })))

/-- The one-operand functions with one correct result, `fscale` and `fround` (R350 to R354): both forms of each.
`exec` answers a next state for `fabs`, `fabsX`, `fneg`, `fnegX`, `frcp`, `frcpX`, `fsqrt`, `fsqrtX`, `ffrac`, `ffracX`, `fclass`, `fclassX`, `fscale` and `fround`. -/
def Obligations.FloatUnary : Prop :=
  let completes (i : Instr) : Prop := ∀ s e, Ready s i e → ∃ t, Machine.exec i s = .next t
  (∀ o, completes (.fabs o)) ∧ (∀ x, completes (.fabsX x)) ∧ (∀ o, completes (.fneg o)) ∧ (∀ x, completes (.fnegX x)) ∧ (∀ o, completes (.frcp o)) ∧ (∀ x, completes (.frcpX x)) ∧
  (∀ o, completes (.fsqrt o)) ∧ (∀ x, completes (.fsqrtX x)) ∧ (∀ o, completes (.ffrac o)) ∧ (∀ x, completes (.ffracX x)) ∧ (∀ o, completes (.fclass o)) ∧
  (∀ x, completes (.fclassX x)) ∧ (∀ x, completes (.fscale x)) ∧ (∀ x, completes (.fround x)) ∧
  (∀ o, GivesFp (.fabs o) (fun v => (lo32 v.a &&& 0x7FFFFFFF, {}))) ∧ (∀ x, GivesFp (.fabsX x) (fun v => (lo32 v.a &&& 0x7FFFFFFF, {}))) ∧
  (∀ o, GivesFp (.fneg o) (fun v => (lo32 v.a ^^^ 0x80000000, {}))) ∧ (∀ x, GivesFp (.fnegX x) (fun v => (lo32 v.a ^^^ 0x80000000, {}))) ∧
  (∀ o, GivesFp (.frcp o) (fun v => fpRcp .rne false v.a)) ∧ (∀ x, GivesFp (.frcpX x) (fun v => fpRcp (rmode x.rm) x.sat v.a)) ∧
  (∀ o, GivesFp (.fsqrt o) (fun v => fpSqrt .rne v.a)) ∧ (∀ x, GivesFp (.fsqrtX x) (fun v => fpSqrt (rmode x.rm) v.a)) ∧
  (∀ o, GivesFp (.ffrac o) (fun v => fpFrac .rne v.a)) ∧ (∀ x, GivesFp (.ffracX x) (fun v => fpFrac (rmode x.rm) v.a)) ∧
  (∀ o, GivesFp (.fclass o) (fun v => (fpClass (lo32 v.a), {}))) ∧ (∀ x, GivesFp (.fclassX x) (fun v => (fpClass (lo32 v.a), {}))) ∧
  (∀ x, GivesFp (.fscale x) (fun v => fpScale (rmode x.rm) x.sat v.a v.b)) ∧ (∀ x, GivesFp (.fround x) (fun v => fpRoundInt (rmode x.rm) v.a))

/-- The approximated functions complete with their special values, and elsewhere with a free value that is kept within its bound (R343, R352, log 8): this holds for
every value of the free functions.
`exec` answers a next state for `frsq`, `frsqX`, `fexp2`, `fexp2X`, `flog2`, `flog2X`, `fsin`, `fsinX`, `fcos`, `fcosX`, `ftanh`, `ftanhX`, `fsig` and `fsigX`. -/
def Obligations.FloatApproximated : Prop :=
  let completes (i : Instr) : Prop := ∀ s e, Ready s i e → ∃ t, Machine.exec i s = .next t
  (∀ o, completes (.frsq o)) ∧ (∀ x, completes (.frsqX x)) ∧ (∀ o, completes (.fexp2 o)) ∧ (∀ x, completes (.fexp2X x)) ∧ (∀ o, completes (.flog2 o)) ∧
  (∀ x, completes (.flog2X x)) ∧ (∀ o, completes (.fsin o)) ∧ (∀ x, completes (.fsinX x)) ∧ (∀ o, completes (.fcos o)) ∧ (∀ x, completes (.fcosX x)) ∧
  (∀ o, completes (.ftanh o)) ∧ (∀ x, completes (.ftanhX x)) ∧ (∀ o, completes (.fsig o)) ∧ (∀ x, completes (.fsigX x)) ∧
  (∀ o, GivesFp (.frsq o) (fun v => fpRsq v.a)) ∧ (∀ x, GivesFp (.frsqX x) (fun v => fpRsq v.a)) ∧
  (∀ o, GivesFp (.fexp2 o) (fun v => fpExp2 false v.a)) ∧ (∀ x, GivesFp (.fexp2X x) (fun v => fpExp2 x.sat v.a)) ∧
  (∀ o, GivesFp (.flog2 o) (fun v => fpLog2 v.a)) ∧ (∀ x, GivesFp (.flog2X x) (fun v => fpLog2 v.a)) ∧
  (∀ o, GivesFp (.fsin o) (fun v => fpSin v.a)) ∧ (∀ x, GivesFp (.fsinX x) (fun v => fpSin v.a)) ∧
  (∀ o, GivesFp (.fcos o) (fun v => fpCos v.a)) ∧ (∀ x, GivesFp (.fcosX x) (fun v => fpCos v.a)) ∧
  (∀ o, GivesFp (.ftanh o) (fun v => fpTanh v.a)) ∧ (∀ x, GivesFp (.ftanhX x) (fun v => fpTanh v.a)) ∧
  (∀ o, GivesFp (.fsig o) (fun v => fpSig v.a)) ∧ (∀ x, GivesFp (.fsigX x) (fun v => fpSig v.a)) ∧
  (fpRsq 0x80000000 = (0xFF800000, { dz := true }) ∧ fpRsq 0x40800000 = (0x3F000000, {})) ∧
  (fpExp2 false 0x40400000 = (0x41000000, {}) ∧ fpExp2 false 0x43000000 = (0x7F800000, { ovf := true, inx := true })) ∧
  (fpLog2 0 = (0xFF800000, { dz := true }) ∧ fpLog2 0x41000000 = (0x40400000, {})) ∧
  (fpSin 0x80000000 = (0x80000000, {}) ∧ fpCos 0 = (0x3F800000, {}) ∧ fpTanh 0xFF800000 = (0xBF800000, {}) ∧ fpSig 0 = (0x3F000000, {}))

/-- Packed arithmetic computes each half on its own in the format of FMTB, and ORs the exceptions of both (R355).
`exec` answers a next state for `hadd2`, `hsub2`, `hmul2`, `hfma2`, `hmin2` and `hmax2`. -/
def Obligations.PackedHalves : Prop :=
  let two (g : Nat → Nat → Nat → Nat × Exc) (v : Ops) : Word × Exc :=
    let lo := g ((lo32 v.a).toNat % 65536) ((lo32 v.b).toNat % 65536) ((lo32 v.c).toNat % 65536)
    let hi := g ((lo32 v.a).toNat / 65536) ((lo32 v.b).toNat / 65536) ((lo32 v.c).toNat / 65536)
    (BitVec.ofNat 32 (lo.1 + 65536 * hi.1), lo.2.or hi.2)
  let f (x : XArgs) : Fmt := if x.imm.getLsbD 0 then bf16 else fp16
  let m (x : XArgs) : RMode := rmode x.rm
  (∀ x, GivesFp (.hadd2 x) (two fun a b _ => (f x).round (m x) x.sat (sumExact (m x) [(f x).value a, (f x).value b]))) ∧
  (∀ x, GivesFp (.hsub2 x) (two fun a b _ => (f x).round (m x) x.sat (sumExact (m x) [(f x).value a, ((f x).value b).negate]))) ∧
  (∀ x, GivesFp (.hmul2 x) (two fun a b _ => (f x).round (m x) x.sat (((f x).value a).mul ((f x).value b)))) ∧
  (∀ x, GivesFp (.hfma2 x) (two fun a b c => (f x).round (m x) x.sat (sumExact (m x) [((f x).value a).mul ((f x).value b), (f x).value c]))) ∧
  (∀ x, GivesFp (.hmin2 x) (two fun a b _ => minNum (f x) false a b)) ∧
  (∀ x, GivesFp (.hmax2 x) (two fun a b _ => minNum (f x) true a b))

/-- The conversions (R356 to R358): to FP32 and to integers, and from FP32 to each narrow format at the position that POS names, with every other bit of C kept.
`exec` answers a next state for `cvtF32I32`, `cvtI32F32`, `cvtF32F16`, `cvtF32B16`, `cvtPkF16F32`, `cvtPkB16F32`, `cvtPkE4m3F32`, `cvtPkE5m2F32`, `cvtPkE2m1F32`,
`cvtUpB16E4m3`, `cvtUpB16E5m2`, `cvtUpB16E2m1`, `cvtB16E8m0`, `cvtPkI8F32` and `cvtPkI4F32`. -/
def Obligations.Conversions : Prop :=
  (∀ x, GivesFp (.cvtF32I32 x) (fun v => roundFp32 (rmode x.rm) false (.ofInt (if x.sgn then (lo32 v.a).toInt else (lo32 v.a).toNat)))) ∧
  (∀ x, GivesFp (.cvtI32F32 x) (fun v => toInt32 (rmode x.rm) x.sgn (f32 (lo32 v.a)))) ∧
  (∀ x, GivesFp (.cvtF32F16 x) (fun v => widenOne fp16 (posOf x) v.a)) ∧ (∀ x, GivesFp (.cvtF32B16 x) (fun v => widenOne bf16 (posOf x) v.a)) ∧
  (∀ x, GivesFp (.cvtPkF16F32 x) (packHalves fp16 x)) ∧ (∀ x, GivesFp (.cvtPkB16F32 x) (packHalves bf16 x)) ∧
  (∀ x, GivesFp (.cvtPkE4m3F32 x) (packTwo 8 (posOf x) (e4m3.convert (rmode x.rm) x.sat))) ∧
  (∀ x, GivesFp (.cvtPkE5m2F32 x) (packTwo 8 (posOf x) (e5m2.convert (rmode x.rm) x.sat))) ∧
  (∀ x, GivesFp (.cvtPkE2m1F32 x) (packTwo 4 (posOf x) (e2m1.convert (rmode x.rm) x.sat))) ∧
  (∀ x, GivesFp (.cvtUpB16E4m3 x) (fun v => widenTwo e4m3 8 (posOf x) v.a)) ∧ (∀ x, GivesFp (.cvtUpB16E5m2 x) (fun v => widenTwo e5m2 8 (posOf x) v.a)) ∧
  (∀ x, GivesFp (.cvtUpB16E2m1 x) (fun v => widenTwo e2m1 4 (posOf x) v.a)) ∧
  (∀ x, GivesFp (.cvtB16E8m0 x) (fun v =>
    let lo := importE8m0 (element 8 (2 * posOf x) v.a)
    let hi := importE8m0 (element 8 (2 * posOf x + 1) v.a)
    (BitVec.ofNat 32 (lo.1 + 65536 * hi.1), lo.2.or hi.2))) ∧
  (∀ x, GivesFp (.cvtPkI8F32 x) (packTwo 8 (posOf x) (toNarrowInt 8 (rmode x.rm) x.sat))) ∧
  (∀ x, GivesFp (.cvtPkI4F32 x) (packTwo 4 (posOf x) (toNarrowInt 4 (rmode x.rm) x.sat)))

/-- The narrow dot products (R70 to R72, R359, R360): one rounding of the exact sum of products and C, wrapping integer sums, and scaled blocks over the lanes of the run.
`exec` answers a next state for `dot4E4m3`, `dot4E5m2`, `dot8E2m1`, `dot2B16`, `dot4I8`, `dot4N8`, `dot8I4`, `dots4E4m3`, `dots4E5m2` and `dots8E2m1`. -/
def Obligations.DotProducts : Prop :=
  (∀ x, GivesFp (.dot4E4m3 x) (dotFp e4m3 8 x)) ∧ (∀ x, GivesFp (.dot4E5m2 x) (dotFp e5m2 8 x)) ∧ (∀ x, GivesFp (.dot8E2m1 x) (dotFp e2m1 4 x)) ∧
  (∀ x, GivesFp (.dot2B16 x) (dotFp bf16 16 x)) ∧ (∀ x, GivesInt (.dot4I8 x) (dotInt true 8)) ∧ (∀ x, GivesInt (.dot4N8 x) (dotInt false 8)) ∧
  (∀ x, GivesInt (.dot8I4 x) (dotInt true 4)) ∧
  (let scaled (i : XArgs → Instr) (f : Fmt) (w : Nat) : Prop :=
    ∀ x, GivesIf (i x) (fun _ _ => ∀ k, scaleSrc x ≠ .latch k) (fun s e l => [(dotScaled f w x s e e.run l).1])
      (fun s e => (e.lanes e.run).foldl (fun a l => a.or (dotScaled f w x s e e.run l).2) {})
   scaled .dots4E4m3 e4m3 8 ∧ scaled .dots4E5m2 e5m2 8 ∧ scaled .dots8E2m1 e2m1 4)

/-! ### Lanes, ranks and control (R47 to R52, R367 to R384) -/

/-- Shuffles, votes and ballot (R367, R368): each lane of the run takes its segment's source lane's value where that lane is in the run, and its own elsewhere; a vote or
ballot gives every lane of the run one value of the run's operands.
`exec` answers a next state for `shflIdx`, `shflUp`, `shflDown`, `shflXor`, `voteAny`, `voteAll`, `voteEq` and `ballot`. -/
def Obligations.ShufflesAndVotes : Prop :=
  let from_ (place : Nat → Nat → Option Nat) (x : XArgs) (s : State) (e : Issuer) (l : Nat) : List Word :=
    let g := s.segment e.w (x.immBits 2 0)
    let src := match place (l % g) (s.srcB e l).toNat with
      | some q => if q < g ∧ e.run.getLsbD (l - l % g + q) then l - l % g + q else l
      | none => l
    wordsOf (s.srcA e src)
  let lanes (e : Issuer) : List Nat := (List.range 64).filter (fun l => e.run.getLsbD l)
  let truth (b : Bool) : List Word := [if b then 1 else 0, 0]
  (∀ x, Gives (.shflIdx x) (from_ (fun _ n => some n) x) (fun _ _ => {})) ∧
  (∀ x, Gives (.shflUp x) (from_ (fun p n => if n ≤ p then some (p - n) else none) x) (fun _ _ => {})) ∧
  (∀ x, Gives (.shflDown x) (from_ (fun p n => some (p + n)) x) (fun _ _ => {})) ∧
  (∀ x, Gives (.shflXor x) (from_ (fun p n => some (p ^^^ n)) x) (fun _ _ => {})) ∧
  (∀ x, Gives (.voteAny x) (fun s e _ => truth ((lanes e).any (fun l => s.srcA e l != 0))) (fun _ _ => {})) ∧
  (∀ x, Gives (.voteAll x) (fun s e _ => truth ((lanes e).all (fun l => s.srcA e l != 0))) (fun _ _ => {})) ∧
  (∀ x, Gives (.voteEq x) (fun s e _ => truth ((lanes e).all (fun l => (lanes e).all (fun m => s.srcA e l == s.srcA e m)))) (fun _ _ => {})) ∧
  (∀ x, Gives (.ballot x) (fun s e _ => wordsOf ((lanes e).foldl (fun m l => if s.srcA e l = 0 then m else m ||| (1 <<< l)) 0)) (fun _ _ => {}))

/-- `rkq`, `rkhome`, `lread` and `lwrite` (R47, R369, R374): the split mask, the home copy, and one lane of a variable read or written from the wave's handler; a lane that
is not live reads 0 and takes no write. The handler parks where the octet of the lane is not in the file, or a write needs one and none is free (R40).
`exec` answers a next state for `rkq`, `rkhome`, `lread` and `lwrite`. -/
def Obligations.RanksAndLanes : Prop :=
  (∀ x, Gives (.rkq x) (fun s e _ => wordsOf (s.splitMask e (varOf x.sa))) (fun _ _ => {})) ∧
  (∀ x, Gives (.rkhome x) (fun s e l => [s.homeCopy e (varOf x.sa) l]) (fun _ _ => {})) ∧
  (∀ x, GivesIf (.lread x) (fun s e => s.reachedOctet e (x.immBits 6 0) x.w64 = none)
    (fun s e _ =>
      let n := x.immBits 6 0
      let l := (s.srcA e e.lead).toNat % 64
      if e.w.live.getLsbD l then [s.readVar e.f e.w n l, if x.w64 then s.readVar e.f e.w (n + 1) l else 0] else [0, 0]) (fun _ _ => {})) ∧
  (∀ x s e, Ready s (.lwrite x) e → s.reachedOctet e (x.immBits 6 0) x.w64 = none → s.octetNeeded e (x.immBits 6 0) x.w64 = none →
    let n := x.immBits 6 0
    let l := (s.srcA e e.lead).toNat % 64
    let named (f : Flow) (y : Nat) : Prop := f = e.f ∧ (y = n ∨ (x.w64 = true ∧ y = n + 1))
    ∃ t, Machine.exec (.lwrite x) s = .next t ∧ Passed t e ∧ Raised t e {} ∧ Latched t e .invalid ∧ Untouched s t e named ∧
      (e.w.live.getLsbD l = true → varAt t e.f n l = some (lo32 (s.srcB e e.lead)) ∧
        (x.w64 = true → varAt t e.f (n + 1) l = some (hi32 (s.srcB e e.lead)))) ∧
      ∀ y m, m < 64 → (m ≠ l ∨ e.w.live.getLsbD l = false) → e.w.live.getLsbD m = true → varAt t e.f y m = varAt s e.f y m) ∧
  (∀ x s e v k, Ready s (.lwrite x) e → (s.reachedOctet e (x.immBits 6 0) x.w64).or (s.octetNeeded e (x.immBits 6 0) x.w64) = some (v, k) →
    Machine.exec (.lwrite x) s = .next (s.parkAt e (.octet v k))) ∧
  (∀ x s e v k, Ready s (.lread x) e → s.reachedOctet e (x.immBits 6 0) x.w64 = some (v, k) → Machine.exec (.lread x) s = .next (s.parkAt e (.octet v k)))

/-- The merges (R48 to R50, R55, R370 to R372). Where every live thread reads one value, `merge.chk` discards the variable's lane copies and its home copy takes that value; for a
group-home variable the wave's own copy takes it, and is dropped where it is the group's. The result is 1 where no split is left, and 0 otherwise; threads that disagree change nothing.
`merge.lane` discards the lane copies, and the wave's copy takes lane L's value, where L is live. `merge.g` records the capture of its barrier, in place of an earlier one of the same
wave, variable and barrier, and changes no variable. Under NWB none of them creates or discards a copy; what `merge.chk` then answers, whether the variable has no split as it stands,
and the invalid latch entries of `merge.lane` and `merge.g` are the model's choices (log 91).
`exec` answers a next state for `mergeChk`, `mergeLane` and `mergeG`. -/
def Obligations.Merges : Prop :=
  let completes (i : Instr) (more : State → Issuer → Prop) : Prop := ∀ s e, Ready s i e → more s e → ∃ t, Machine.exec i s = .next t
  (∀ x, completes (.mergeChk x) (fun s e => s.rank e.f e.w (varOf x.sa) ≠ .lane)) ∧
  (∀ x, completes (.mergeLane x) (fun s e => s.rank e.f e.w x.dst.toNat ≠ .lane)) ∧
  (∀ x, completes (.mergeG x) (fun s e => s.rank e.f e.w x.dst.toNat = .group)) ∧
  (∀ x s e, Ready s (.mergeChk x) e → s.rank e.f e.w (varOf x.sa) ≠ .lane → (∃ l, e.w.live.getLsbD l = true) → e.p.nwb = false →
    let n := varOf x.sa
    let rank := s.rank e.f e.w n
    let agree (v : Word) : Prop := ∀ l, e.w.live.getLsbD l = true → varAt s e.f n l = some v
    let left : Prop := ∃ v, agree v ∧ (rank = .group → v = s.groupHome e.f n)
    ∃ t w, Machine.exec (.mergeChk x) s = .next t ∧ Passed t e ∧ Raised t e {} ∧ Untouched s t e (fun f y => isDst e f y ∨ (f = e.f ∧ y = n)) ∧ t.flow? e.f = some w ∧
      (∀ r : Word, (left → r = 1) → (¬left → r = 0) →
        Latched t e (e.latch e.run (fun _ => [r])) ∧ ∀ l, e.run.getLsbD l = true → varAt t e.f e.p.dst.toNat l = some r) ∧
      (¬isDst e e.f n →
        (∀ l, e.w.live.getLsbD l = true → varAt t e.f n l = varAt s e.f n l) ∧
        (∀ v, agree v → (∀ l < 64, w.laneCopies.get (64 * n + l) = none) ∧
          w.copies.get n = if rank = .group ∧ v = s.groupHome e.f n then none else some v) ∧
        (left → rank = .wave → t.splitMask { e with w } n = 0) ∧
        ((∀ v, ¬agree v) → (∀ l < 64, w.laneCopies.get (64 * n + l) = e.w.laneCopies.get (64 * n + l)) ∧ w.copies.get n = e.w.copies.get n))) ∧
  (∀ x s e, Ready s (.mergeChk x) e → s.rank e.f e.w (varOf x.sa) ≠ .lane → e.p.nwb = true →
    let n := varOf x.sa
    let split : Prop := (∃ l < 64, (e.w.laneCopies.get (64 * n + l)).isSome = true) ∨ (s.rank e.f e.w n = .group ∧ (e.w.copies.get n).isSome = true)
    ∃ t w, Machine.exec (.mergeChk x) s = .next t ∧ Passed t e ∧ Raised t e {} ∧ Untouched s t e (fun _ _ => False) ∧ t.flow? e.f = some w ∧
      w.laneCopies = e.w.laneCopies ∧ w.copies = e.w.copies ∧ (split → Latched t e (e.latch e.run (fun _ => [0]))) ∧ (¬split → Latched t e (e.latch e.run (fun _ => [1])))) ∧
  (∀ x s e, Ready s (.mergeLane x) e → s.rank e.f e.w x.dst.toNat ≠ .lane → (∀ k, x.sa = .var k → s.rank e.f e.w k.toNat ≠ .lane) →
    let n := x.dst.toNat
    let k := (s.srcA e e.lead).toNat % 64
    ∃ t w, Machine.exec (.mergeLane x) s = .next t ∧ Passed t e ∧ Raised t e {} ∧ Latched t e .invalid ∧ Untouched s t e (fun f y => f = e.f ∧ y = n) ∧ t.flow? e.f = some w ∧
      (∀ l, e.w.live.getLsbD l = true → varAt t e.f n l = if e.w.live.getLsbD k ∧ e.p.nwb = false then varAt s e.f n k else varAt s e.f n l) ∧
      (e.w.live.getLsbD k = true → e.p.nwb = false → (∀ l < 64, w.laneCopies.get (64 * n + l) = none) ∧ w.copies.get n = varAt s e.f n k) ∧
      (e.w.live.getLsbD k = false ∨ e.p.nwb = true → w.laneCopies = e.w.laneCopies ∧ w.copies = e.w.copies)) ∧
  (∀ x s e c g q, Ready s (.mergeG x) e → s.rank e.f e.w x.dst.toNat = .group → s.groupOf e.f = some (c, g, q) →
    let off := (s.srcA e e.lead).toNat % 2 ^ 24
    off % 16 = 0 → (∃ b, q.barriers.get off = some b ∧ b.scope = 1) →
    ∃ t q', Machine.exec (.mergeG x) s = .next t ∧ Passed t e ∧ Raised t e {} ∧ Latched t e .invalid ∧ Untouched s t e (fun _ _ => False) ∧
      t.group? c g = some q' ∧
      q'.captures = if e.p.nwb then q.captures else q.captures.filter (fun k => !(k.wave == e.w.number && k.var == x.dst.toNat && k.barrier == off)) ++
        [{ wave := e.w.number, var := x.dst.toNat, barrier := off, value := s.readVar e.f e.w x.dst.toNat e.lead, written := false }])

/-- Branches (R375, R376): `bra` sends every thread of the run to its target, `bz` and `bnz` those whose operand is 0 or not, and `brx` each thread to its own address.
`exec` answers a next state for `bra`, `bz`, `bnz` and `brx`. -/
def Obligations.Branches : Prop :=
  let target (x : XArgs) (e : Issuer) : Nat := (((e.base : Int) + 4 * x.imm.toInt) % 2 ^ 48).toNat
  (∀ x, Jumps (.bra x) (fun _ _ => True) (fun _ e _ => target x e)) ∧
  (∀ x, Jumps (.bz x) (fun _ _ => True) (fun s e l => if lo32 (s.srcA e l) = 0 then target x e else e.after)) ∧
  (∀ x, Jumps (.bnz x) (fun _ _ => True) (fun s e l => if lo32 (s.srcA e l) = 0 then e.after else target x e)) ∧
  (∀ x, Jumps (.brx x) (fun s e => ∀ l ∈ e.controlLanes, (s.srcA e l).toNat < 2 ^ 48 ∧ (s.srcA e l).toNat % 4 = 0) (fun s e l => (s.srcA e l).toNat))

/-- `trap` raises SOFTWARE with its number and `brk` raises BREAKPOINT, for the issuing run, at their own word (R426). `brx` to an address of 2^48 or more, or to one that is not a
multiple of 4, takes the address trap for the lowest such lane before any effect (R108, R376); a return from an empty stack raises STACK with SUB 1 for the lowest such lane
(R304, R378).
`exec` answers a next state for `trap` and `brk`. -/
def Obligations.SoftwareAndControlTraps : Prop :=
  (∀ x s e, Ready s (.trap x) e →
    Machine.exec (.trap x) s = .next (s.takeTrap e.f (Trap.regs { code := 0x13, sub := x.immBits 7 0 } e.c.addr e.c.pos e.run))) ∧
  (∀ x s e, Ready s (.brk x) e → Machine.exec (.brk x) s = .next (s.takeTrap e.f (Trap.regs { code := 0x14 } e.c.addr e.c.pos e.run))) ∧
  (∀ x s e, Ready s (.brx x) e → (∃ l ∈ e.controlLanes, 2 ^ 48 ≤ (s.srcA e l).toNat ∨ (s.srcA e l).toNat % 4 ≠ 0) →
    ∃ l ∈ e.controlLanes, (2 ^ 48 ≤ (s.srcA e l).toNat ∨ (s.srcA e l).toNat % 4 ≠ 0) ∧
      (∀ m ∈ e.controlLanes, m < l → ¬(2 ^ 48 ≤ (s.srcA e m).toNat ∨ (s.srcA e m).toNat % 4 ≠ 0)) ∧
      Machine.exec (.brx x) s =
        .next (s.takeTrap e.f (Trap.regs { code := 0x05, addr := (s.srcA e l).toNat, lane := l } e.c.addr e.c.pos e.run))) ∧
  (∀ o s e, Ready s (.ret o) e → (∃ l, e.run.getLsbD l = true ∧ e.w.depth.getD l 0 = 0) → (∀ l, e.run.getLsbD l = true → e.w.depth.getD l 0 < 5) →
    ∃ l a, e.run.getLsbD l = true ∧ e.w.depth.getD l 0 = 0 ∧ (∀ m < l, e.run.getLsbD m = true → e.w.depth.getD m 0 ≠ 0) ∧
      Machine.exec (.ret o) s = .next (s.takeTrap e.f (Trap.regs { code := 0x0F, sub := 1, addr := a, lane := l } e.c.addr e.c.pos e.run)))

/-- Calls and returns within the entries on chip, four of a wave's thread and all of a steward's (R304, R377, R378): a call pushes the following header for each thread of the run and goes to the target; a return pops
the newest entry of each thread and goes there. Nothing else of the machine changes.
`exec` answers a next state for `call`, `calli` and `ret`. -/
def Obligations.CallsAndReturns : Prop :=
  let others (w v : Wave) : Prop := { w.still with returns := [], depth := [], spills := 0, maxDepth := 0 } = { v.still with returns := [], depth := [], spills := 0, maxDepth := 0 }
  let called (i : Instr) (s : State) (e : Issuer) (next : Nat → Nat) : Prop :=
    ∃ t w, Machine.exec i s = .next t ∧ t.flow? e.f = some w ∧ Sent t e next ∧ Latched t e .invalid ∧ Raised t e {} ∧ Calm s t e (fun _ _ => False) ∧ others w e.w ∧
      (∀ l, e.run.getLsbD l = true → w.depth.getD l 0 = e.w.depth.getD l 0 + 1 ∧ (w.returns.getD l []).head? = some e.after) ∧
      ∀ l, e.run.getLsbD l = false → w.depth.getD l 0 = e.w.depth.getD l 0 ∧ w.returns.getD l [] = e.w.returns.getD l []
  let shallow (s : State) (e : Issuer) : Prop := ∀ l, e.run.getLsbD l = true → (isSteward e.f = true ∨ e.w.depth.getD l 0 < 4) ∧ e.w.depth.getD l 0 < s.stackLimit e
  (∀ x s e, Ready s (.call x) e → shallow s e → called (.call x) s e (fun _ => (((e.base : Int) + 4 * x.imm.toInt) % 2 ^ 48).toNat)) ∧
  (∀ x s e, Ready s (.calli x) e → shallow s e → (∀ l, e.run.getLsbD l = true → (s.srcA e l).toNat < 2 ^ 48 ∧ (s.srcA e l).toNat % 4 = 0) →
    called (.calli x) s e (fun l => (s.srcA e l).toNat)) ∧
  (∀ o s e, Ready s (.ret o) e →
    (∀ l, e.run.getLsbD l = true → 0 < e.w.depth.getD l 0 ∧ (isSteward e.f = true ∨ e.w.depth.getD l 0 ≤ 4)) →
    ∃ t w, Machine.exec (.ret o) s = .next t ∧ t.flow? e.f = some w ∧ Sent t e (fun l => ((e.w.returns.getD l []).head?).getD 0) ∧ Latched t e .invalid ∧ Raised t e {} ∧
      Calm s t e (fun _ _ => False) ∧ others w e.w ∧
      (∀ l, e.run.getLsbD l = true → w.depth.getD l 0 = e.w.depth.getD l 0 - 1 ∧ w.returns.getD l [] = (e.w.returns.getD l []).tail) ∧
      ∀ l, e.run.getLsbD l = false → w.depth.getD l 0 = e.w.depth.getD l 0 ∧ w.returns.getD l [] = e.w.returns.getD l [])
/-- `exit`, `trigger`, `yield` and `grow` (R30 to R33, R379 to R382). Threads of the run stop being live and keep no lane copy, no counter and no reservation, while the other
threads go on; the last thread of a wave with no flag counting and no matrix operation takes the wave away. The first `trigger` of a group marks it. `yield` makes its wave a swap candidate.
`grow` serves the requests of a run in ascending lane order and puts the status of each thread's request: 3 where its context is being torn down; else 2 once the launch has
triggered; else 1 where the outermost level is bound to the group domain or narrower, or the count would pass 2^32 − 1; else 0. On 1, 2 and 3 nothing changes; on 0 the outermost extent
rises by the units asked for, and the count by their product with the extents of the other levels bound to the cohort domain or wider.
`exec` answers a next state for `exit`, `trigger`, `yield` and `grow`. -/
def Obligations.ExitTriggerYieldGrow : Prop :=
  let completes (i : Instr) : Prop := ∀ s e, Ready s i e → ∃ t, Machine.exec i s = .next t
  (∀ o, completes (.exit o)) ∧ (∀ o, completes (.trigger o)) ∧ (∀ o, completes (.yield o)) ∧ (∀ x, completes (.grow x)) ∧
  (∀ o s e, Ready s (.exit o) e → e.w.live &&& ~~~e.run ≠ 0 →
    ∃ t w, Machine.exec (.exit o) s = .next t ∧ t.flow? e.f = some w ∧ w.live = e.w.live &&& ~~~e.run ∧ w.clause = none ∧
      (∀ l, e.run.getLsbD l = true → w.counter.get l = none ∧ ∀ r ∈ t.reservations, ¬(r.flow = e.f ∧ r.lane = l)) ∧
      (∀ f x l, l < 64 → (f = e.f → e.run.getLsbD l = false) → varAt t f x l = varAt s f x l) ∧ ∀ a, t.byte a = s.byte a) ∧
  (∀ o s e c k v, Ready s (.exit o) e → e.f = .wave c k → e.w.live &&& ~~~e.run = 0 → e.w.flagsClear 0xFFF = true →
    (s.core c).matrixBusy k = false → v ≠ k → ((s.core c).waves.get v).any (fun w => w.group == e.w.group) = true →
    ∃ t, Machine.exec (.exit o) s = .next t ∧ t.flow? e.f = none ∧ (t.group? c e.w.group).isSome = (s.group? c e.w.group).isSome ∧
      (∀ f x l, f ≠ e.f → l < 64 → varAt t f x l = varAt s f x l) ∧ ∀ a, t.byte a = s.byte a) ∧
  (∀ o s e c g q, Ready s (.trigger o) e → s.groupOf e.f = some (c, g, q) → q.triggered = true →
    ∃ t, Machine.exec (.trigger o) s = .next t ∧ Passed t e ∧ Raised t e {} ∧ Latched t e .invalid ∧ Untouched s t e (fun _ _ => False)) ∧
  (∀ o s e c g q r, Ready s (.trigger o) e → s.groupOf e.f = some (c, g, q) → q.triggered = false → s.launches.get q.launch = some r →
    r.triggered = false → r.triggeredGroups.contains q.index = false → r.triggeredGroups.length + 1 < r.count →
    ∃ t q', Machine.exec (.trigger o) s = .next t ∧ Passed t e ∧ Raised t e {} ∧ Latched t e .invalid ∧ t.group? c g = some q' ∧ q'.triggered = true ∧
      t.launches.get q.launch = some { r with triggeredGroups := r.triggeredGroups ++ [q.index] } ∧
      (∀ f x l, l < 64 → varAt t f x l = varAt s f x l) ∧ ∀ a, t.byte a = s.byte a) ∧
  (∀ o s e, Ready s (.yield o) e →
    ∃ t w, Machine.exec (.yield o) s = .next t ∧ Sent t e (fun _ => e.after) ∧ Raised t e {} ∧ Calm s t e (fun _ _ => False) ∧ t.flow? e.f = some w ∧
      w.candidate = true ∧ { w.still with candidate := false } = { e.w.still with candidate := false }) ∧
  (∀ x s e, Ready s (.grow x) e →
    let asks (l : Nat) : Nat := (lo32 (s.srcA e l)).toNat
    let asked := s.growLanes e e.run asks
    ∃ t, Machine.exec (.grow x) s = .next t ∧ Wrote s t e (fun l => asked.2.getD l []) ∧ Passed t e ∧ Raised t e {} ∧ t.launches = asked.1.launches ∧
      Untouched s { t with launches := s.launches } e (isDst e) ∧
      ∀ l, e.run.getLsbD l = true →
        asked.2.getD l [] = [BitVec.ofNat 32 ((s.growLanes e (e.run &&& LaneMask.ofList (List.range l)) asks).1.growBy e.w.launch (asks l)).2]) ∧
  (∀ (s : State) (n add : Nat) (l : Launch), s.launches.get n = some l →
    let alive := (s.contexts.get l.context).any (fun c => c.state != .dead)
    let wide (e : Nat × Nat) : Bool := decide (3 ≤ e.2)
    let grown := l.count + add * ((l.record.levels.dropLast.filter wide).map Prod.fst).foldl (· * ·) 1
    (alive = false → s.growBy n add = (s, 3)) ∧
    (alive = true → l.triggered = true → s.growBy n add = (s, 2)) ∧
    (alive = true → l.triggered = false → (l.record.levels.getLast?.any wide = false ∨ 2 ^ 32 - 1 < grown) → s.growBy n add = (s, 1)) ∧
    (alive = true → l.triggered = false → l.record.levels.getLast?.any wide = true → grown ≤ 2 ^ 32 - 1 →
      ∃ t, s.growBy n add = (t, 0) ∧ { t with launches := s.launches } = s ∧ t.launches.get n = some { l with outer := l.outer + add, count := grown } ∧
        ∀ k, k ≠ n → t.launches.get k = s.launches.get k))

/-- `fwait` (R383) goes on once every flag of its mask is clear and until then does not issue; `nop` and hint space (R93, R384, R446) change nothing and place no latch entry.
`exec` answers a next state for `fwait`, `nop` and `hint`. -/
def Obligations.FlagWaitNopHint : Prop :=
  (∀ x s e, Ready s (.fwait x) e → e.w.flagsClear (x.immBits 11 0) = true →
    ∃ t, Machine.exec (.fwait x) s = .next t ∧ Passed t e ∧ Raised t e {} ∧ Latched t e .invalid ∧ Untouched s t e (fun _ _ => False)) ∧
  (∀ x s e, Ready s (.fwait x) e → e.w.flagsClear (x.immBits 11 0) = false → e.last = false → Machine.exec (.fwait x) s = .next s) ∧
  (∀ o s e, Ready s (.nop o) e → ∃ t w, Machine.exec (.nop o) s = .next t ∧ Passed t e ∧ Raised t e {} ∧ Untouched s t e (fun _ _ => False) ∧
    t.flow? e.f = some w ∧ w.latches = e.w.latches) ∧
  (∀ o s e, Ready s (.hint o) e → ∃ t w, Machine.exec (.hint o) s = .next t ∧ Passed t e ∧ Raised t e {} ∧ Untouched s t e (fun _ _ => False) ∧
    t.flow? e.f = some w ∧ w.latches = e.w.latches)

/-! ### Memory (R385 to R405) -/

/-- The checks of an instruction's accesses change nothing that a program reads but accessed and dirty bits (R224, R392). The check of one access leaves memory as it was, or sets bit 6, and
for a write bit 7, of the leaf entry at which the walk for its address ends, and of no other byte; those of an instruction's lanes change the leaf entries of their walks alone. -/
def Obligations.ChecksSetAccessedDirty : Prop :=
  (∀ (s s' : State) (f : Flow) (va n : Nat) (use : Use) (k : AccessKind) (l : Nat) (r : Except Trap Nat), s.checkGlobal f va n use k l = (s', r) →
    (∀ a, s'.byte a = s.byte a) ∨
      ∃ entry base size pa pte, s.walk (flowDie f) (s.asidOf f) va = .leaf entry base size pa pte ∧ leafRefuses pte use (isSteward f) = none ∧
        (∀ a, a ≠ entry → s'.byte a = s.byte a) ∧ s'.byte entry = s.byte entry ||| (if use = .write then 0xC0 else 0x40)) ∧
  ∀ (s s' : State) (e : Issuer) (n : Nat) (use : Use) (k : AccessKind) (va : Nat → Nat) (r : Except Trap (Tab Nat)),
    s.resolve e n use k va = (s', r) →
    MarkedLeaves s s' e.f (e.accessLanes.map va) ∧ (use ≠ .write → ∀ a, s'.byte a = s.byte a ∨ s'.byte a = s.byte a ||| 0x40) ∧
    (∀ f x l, varAt s' f x l = varAt s f x l) ∧ ∀ f, s'.flow? f = s.flow? f

/-- `ld` (R393, R394): once every lane's access has passed its checks, each lane's bytes, extended where they are narrow, are under way to its destination, and no byte of memory
changes.
`exec` answers a next state for `ld`. -/
def Obligations.Loads : Prop :=
  ∀ w x s e s' ps, Ready s (.ld w x) e → s.dstep = none →
    s.resolve e w.bytes .read .load (s.loadAddr e) = (s', .ok ps) → (∀ p ∈ ps, paSpace p.2 ≠ 2) → s'.poisonOf e ps (s.loadAddr e) = none →
    ∃ t, Machine.exec (.ld w x) s = .next t ∧ Passed t e ∧ MemCalm s t e ∧
      UnderWay t e (fun l => match ps.get l with
        | some pa => loadWords x.sgn (s'.bytes pa w.bytes)
        | none => []) ∧
      ∀ a, t.byte a = s'.byte a

/-- `st` (R391, R394): the low bytes of each lane's value stand at its address, the value of the highest lane where several lanes store to a byte, and no other byte of memory
changes.
`exec` answers a next state for `st`. -/
def Obligations.Stores : Prop :=
  ∀ w x s e s' ps, Ready s (.st w x) e → (Instr.st w x).wf = true →
    s.resolve e w.bytes .write .store (s.loadAddr e) = (s', .ok ps) → (∀ p ∈ ps, paSpace p.2 ≠ 2 ∧ s'.ownedBytes p.2 w.bytes = false) →
    ∃ t, Machine.exec (.st w x) s = .next t ∧ Passed t e ∧ Raised t e {} ∧ Latched t e .invalid ∧ MemCalm s t e ∧
      (∀ a, (∀ p ∈ ps, a < p.2 ∨ p.2 + w.bytes ≤ a) → t.byte a = s'.byte a) ∧
      ∀ l pa a, ps.get l = some pa → pa ≤ a → a < pa + w.bytes → (∀ p ∈ ps, l < p.1 → a < p.2 ∨ p.2 + w.bytes ≤ a) →
        t.byte a = (s.storeBytes e w.bytes l).getD (a - pa) 0

/-- `lds` and `sts` (R111, R114, R396) on the allocation outside guard lines and compressed windows: once no access faults or waits, a load's bytes of the group's scratchpad are
under way, a store's stand there, and, but for what the touches of windows do, no other scratchpad byte and no byte of memory changes.
`exec` answers a next state for `lds` and `sts`. -/
def Obligations.ScratchpadAccess : Prop :=
  (∀ w x s e c g q ts, Ready s (.lds w x) e → s.spadResolve e w.bytes false [] (s.spadOffset e) = .ok (c, g, ts) →
    (s.touchRun e e.run c g ts).group? c g = some q → (∀ p ∈ ts, p.guard = false) →
    ∃ t, Machine.exec (.lds w x) s = .next t ∧ Passed t e ∧ (∀ a, t.byte a = (s.touchRun e e.run c g ts).byte a) ∧ t.group? c g = some q ∧
      (∀ f y l, l < 64 → varAt t f y l = varAt s f y l) ∧
      UnderWay t e (fun l => loadWords x.sgn (Memory.read q.spad (s.spadOffset e l) w.bytes))) ∧
  (∀ w x s e c g q ts, Ready s (.sts w x) e → (Instr.sts w x).wf = true →
    s.spadResolve e w.bytes true (s.budgetTrap e w.bytes (s.spadOffset e) (s.storeBytes e w.bytes)).toList (s.spadOffset e) = .ok (c, g, ts) →
    (s.touchRun e e.run c g ts).group? c g = some q → (∀ p ∈ ts, p.guard = false ∧ (s.recordOf q).windowAt p.off = none) →
    ∃ t q', Machine.exec (.sts w x) s = .next t ∧ Passed t e ∧ Raised t e {} ∧ (∀ a, t.byte a = (s.touchRun e e.run c g ts).byte a) ∧ t.group? c g = some q' ∧
      (∀ f y l, l < 64 → varAt t f y l = varAt s f y l) ∧
      (∀ a, (∀ p ∈ ts, a < p.off ∨ p.off + w.bytes ≤ a) → q'.spad.get a = q.spad.get a) ∧
      ∀ p ∈ ts, ∀ a, p.off ≤ a → a < p.off + w.bytes → (∀ p' ∈ ts, p.lane < p'.lane → a < p'.off ∨ p'.off + w.bytes ≤ a) →
        Memory.read q'.spad a 1 = [(s.storeBytes e w.bytes p.lane).getD (a - p.off) 0])

/-- The atomics (R75, R397 to R399): the home slice serves the lanes in ascending order, each lane's old value is under way to its destination, and memory holds what the
operations make of it; no other byte changes. Those of another die send a request first, and are served there (R239, log 126).
`exec` answers a next state for `aadd`, `amin`, `amax`, `aand`, `aor`, `axor`, `axchg`, `acas`, `afadd`, `afmin` and `afmax`. -/
def Obligations.Atomics : Prop :=
  let served (i : XArgs → Instr) (host : Bool) (op : XArgs → (w : Nat) → Nat → Nat → Nat → Option Nat) : Prop :=
    ∀ x s e s' ps, Ready s (i x) e → s.dstep = none →
      let w := if x.w64 then 64 else 32
      let va (l : Nat) : Nat := (s.srcA e l).toNat
      s.resolve e (w / 8) .write (.atomic host) va = (s', .ok ps) → (∀ p ∈ ps, paSpace p.2 ≠ 2 ∧ s'.ownedBytes p.2 (w / 8) = false) → s'.poisonOf e ps va = none →
      let m := serveAtomics (w / 8) (fun l old => op x w old ((s.srcB e l).toNat % 2 ^ w) ((s.srcC e l).toNat % 2 ^ w)) ps s'.byte
      Served (i x) s s' e ps (fun l => wordsOfNat 2 (m.2.getD l 0)) (fun t => ∀ a, t.byte a = m.1 a)
  let signed_ (x : XArgs) (w : Nat) (v : Nat) : Int := if x.sgn ∧ 2 ^ (w - 1) ≤ v then (v : Int) - 2 ^ w else v
  served .aadd true (fun _ w a b _ => some ((a + b) % 2 ^ w)) ∧
  served .amin false (fun x w a b _ => some (if signed_ x w b < signed_ x w a then b else a)) ∧
  served .amax false (fun x w a b _ => some (if signed_ x w a < signed_ x w b then b else a)) ∧
  served .aand false (fun _ _ a b _ => some (a &&& b)) ∧ served .aor false (fun _ _ a b _ => some (a ||| b)) ∧
  served .axor false (fun _ _ a b _ => some (a ^^^ b)) ∧ served .axchg true (fun _ _ _ b _ => some b) ∧
  served .acas true (fun _ _ a b c => if a = b then some c else none) ∧
  served .afadd false (fun _ w a b _ => some ((atomicFmt w).round .rne false (sumExact .rne [(atomicFmt w).value a, (atomicFmt w).value b])).1) ∧
  served .afmin false (fun _ w a b _ => (atomicFminMax false w a b 0).new) ∧ served .afmax false (fun _ w a b _ => (atomicFminMax true w a b 0).new)

/-- `lr` and `sc` (R401 to R403). A load-reserve sends its bytes and leaves its thread the reservation of its address. A store-conditional whose thread's reservation stands with
the same address and width writes and answers 0; without it it writes nothing and answers 1; in both cases its thread's reservation is gone. One that writes sets D of its page, as
a write does (R224). A store-conditional to another die sends a request first, and is served there (R239, log 126).
`exec` answers a next state for `lr` and `sc`. -/
def Obligations.ReservedAccess : Prop :=
  (∀ x s e s' l pa, Ready s (.lr x) e → s.dstep = none →
    let n := if x.w64 then 8 else 4
    let va (l : Nat) : Nat := (s.srcA e l).toNat
    s.resolve e n .read .reserve va = (s', .ok [(l, pa)]) → paSpace pa ≠ 2 → s'.poisonOf e [(l, pa)] va = none → e.commits e.run l = true →
    ∃ t, Machine.exec (.lr x) s = .next t ∧ Passed t e ∧ (∀ a, t.byte a = s'.byte a) ∧ UnderWay t e (fun _ => wordsOfNat (n / 4) (natOfBytes (s'.bytes pa n))) ∧
      (∃ v, t.reservations.getLast? = some { flow := e.f, lane := l, pa, bytes := n, via := v }) ∧
      ∀ r ∈ t.reservations, r.flow = e.f → r.lane = l → r.pa = pa ∧ r.bytes = n) ∧
  (∀ x s e s' l pa, Ready s (.sc x) e → s.dstep = none →
    let n := if x.w64 then 8 else 4
    let va (l : Nat) : Nat := (s.srcA e l).toNat
    let held : Prop := ∃ r ∈ s'.reservations, r.flow = e.f ∧ r.lane = l ∧ r.pa = pa ∧ r.bytes = n
    let marked := (s'.translate e.f (s'.asidOf e.f) (va l) .write).1
    s.resolve e n .maybe .reserve va = (s', .ok [(l, pa)]) → paSpace pa ≠ 2 → s'.ownedBytes pa n = false → e.commits e.run l = true →
    let gone (t : State) : Prop := ∀ r ∈ t.reservations, ¬(r.flow = e.f ∧ r.lane = l)
    (held → Served (.sc x) s s' e [(l, pa)] (fun _ => [0]) (fun t => gone t ∧ t.bytes pa n = bytesOfNat n ((s.srcB e l).toNat % 2 ^ (8 * n)) ∧
      ∀ a, a < pa ∨ pa + n ≤ a → t.byte a = marked.byte a)) ∧
    (¬held → Served (.sc x) s s' e [(l, pa)] (fun _ => [1]) (fun t => gone t ∧ ∀ a, t.byte a = s'.byte a)))

/-- `fence` (R140, R405) makes no access: no byte of memory and no variable changes, and under a release every thread of its run carries at least that scope from then on. An
acquire fence waits while earlier reads of its run have not returned.
`exec` answers a next state for `fence`. -/
def Obligations.Fences : Prop :=
  (∀ x s e, Ready s (.fence x) e → (ordAcquire x = none ∨ e.w.readsOut e.run = false) →
    ∃ t w, Machine.exec (.fence x) s = .next t ∧ Passed t e ∧ Latched t e .invalid ∧ Calm s t e (fun _ _ => False) ∧ t.flow? e.f = some w ∧
      { w.still with fences := [] } = { e.w.still with fences := [] } ∧
      (∀ k, ordRelease x = some k → ∀ l, e.run.getLsbD l = true → k ≤ w.fences.getD l 0) ∧ (ordRelease x = none → w.fences = e.w.fences)) ∧
  (∀ x s e k, Ready s (.fence x) e → ordAcquire x = some k → e.w.readsOut e.run = true → Machine.exec (.fence x) s = .next s)

/-- An access that is not aligned raises ALIGNMENT for the lowest such lane before any lane performs (R108, R289, R292, R392): no variable is written, and no byte of memory changes but
for the accessed and dirty bits that the checks of the other lanes set (R224). Where a lane names a device register of a higher privilege, PRIVILEGE has the lower code; those states
are not covered. -/
def Obligations.AlignmentTraps : Prop :=
  let lowest (s : State) (e : Issuer) (n m : Nat) : Prop :=
    m ∈ e.accessLanes ∧ s.loadAddr e m % n ≠ 0 ∧ ∀ k ∈ e.accessLanes, k < m → s.loadAddr e k % n = 0
  let checked (s : State) (e : Issuer) (n : Nat) (use : Use) (k : AccessKind) := s.checkLanes e.f n use k (e.accessLanes.map (fun l => (l, s.loadAddr e l)))
  let traps (i : Instr) (n : Nat) (use : Use) (k : AccessKind) : Prop :=
    ∀ s e l, Ready s i e → l ∈ e.accessLanes → s.loadAddr e l % n ≠ 0 → (∀ p ∈ (checked s e n use k).2.2, paSpace p.2 ≠ 2) →
      ∃ m t, lowest s e n m ∧ Machine.exec i s = .next t ∧
        t = (checked s e n use k).1.takeTrap e.f (Trap.regs { code := 0x04, addr := s.loadAddr e m, lane := m } e.c.addr e.c.pos e.run) ∧
        MarkedLeaves s t e.f (e.accessLanes.map (s.loadAddr e)) ∧ ∀ f y l, varAt t f y l = varAt s f y l
  (∀ w x, traps (.ld w x) w.bytes .read .load) ∧ ∀ w x, traps (.st w x) w.bytes .write .store

/-- Data that return are written (R393, R291): the words of an outstanding result stand in its destination for the live lanes of its run, its flag counts one less, and no other
variable changes; a failure writes nothing and becomes an imprecise fault of its wave.
`exec` answers a next state for `memoryResponse`. -/
def Obligations.Responses : Prop :=
  ∀ s f k w o, s.flow? f = some w → w.outstanding[k]? = some o → (isSteward f = true ∨ w.live ≠ 0) → o.scalar = false →
    (∀ c j, f = .wave c j → (s.core c).sound = true) →
    ∃ t w', Machine.exec (.memoryResponse f k) s = .next t ∧ t.flow? f = some w' ∧ w'.outstanding = w.outstanding.eraseIdx k ∧
      (∀ j, o.flag = some j → w'.flags.getD j.val 0 = w.flags.getD j.val 0 - 1) ∧
      (∀ g y l, l < 64 → (∀ d, o.failure = none → o.dst = some d → ¬(g = f ∧ d ≤ y ∧ y < d + o.vars)) → varAt t g y l = varAt s g y l) ∧
      (∀ d j l, o.failure = none → o.dst = some d → j < o.vars → o.run.getLsbD l = true → w.live.getLsbD l = true → varAt t f (d + j) l = some (((o.vals.getD l [])[j]?).getD 0)) ∧
      (∀ x, o.failure = some x → w'.imprecise = w.imprecise ++ [x])

/-! ### Traps and registers (R293 to R303, R426 to R433) -/

/-- Taking a trap at an enabled handler (R293, R296, R297): the trap registers hold the cause, the pc, the run, the address and the site; every latch is invalid; the privilege is
handler and its counter is at TVEC.ADDR; the wave's reservations are lost; no variable, no byte of memory and no other flow changes. -/
def Obligations.TrapEntry : Prop :=
  ∀ s c k w (r : TrapRegs), s.flow? (.wave c k) = some w → w.handler = false → w.traced = false → r.stewardCause = false → (s.tvecOf (.wave c k)).getLsbD 63 = true →
    r.code ≠ 0x0E →
    let t := s.takeTrap (.wave c k) r
    (∃ w', t.flow? (.wave c k) = some w' ∧ w'.trap = r ∧ w'.latches = [] ∧ w'.clause = none ∧ w'.handler = true ∧
      w'.hpc = (s.tvecOf (.wave c k)).toNat / 4 % 2 ^ 46 * 4 ∧ w'.counter = w.counter ∧ w'.live = w.live ∧ w'.scratch = w.scratch) ∧
    (∀ x ∈ t.reservations, x.flow ≠ .wave c k) ∧ (∀ f x l, varAt t f x l = varAt s f x l) ∧ (∀ a, t.byte a = s.byte a) ∧
    (∀ f, f ≠ .wave c k → t.flow? f = s.flow? f) ∧ ∀ d, t.die d = s.die d

/-- A trap that its wave's handler cannot take goes to the steward (R226, R293, R302): of a handler, of a steward's cause, or with TVEC.EN 0; the wave waits, the fault stands
among the requests of its die, and event bit 1 is pending on its four steward cores (R439). -/
def Obligations.TrapToSteward : Prop :=
  ∀ s c k w (r : TrapRegs), s.flow? (.wave c k) = some w → r.code ≠ 0x0E →
    (w.handler = true ∨ r.stewardCause = true ∨ (s.tvecOf (.wave c k)).getLsbD 63 = false) →
    let t := s.takeTrap (.wave c k) r
    (∃ w', t.flow? (.wave c k) = some w' ∧ w'.park = some .steward ∧ w'.trap = w.trap ∧ w'.clause = w.clause ∧ w'.handler = w.handler) ∧
    (∃ n, (t.die (dieOf c)).requests.get n = some (.fault (.wave c k) (s.contextOf (.wave c k)) r w.handler)) ∧
    (∀ d < 4, ((t.die (dieOf c)).events.getD d 0).testBit 1 = true) ∧
    (∀ f x l, varAt t f x l = varAt s f x l) ∧ (∀ a, t.byte a = s.byte a)

/-- `tret` and `tret.skip` of a wave (R299, R427): the live and unhalted lanes of TMASK take TPC and form the run that issues next, the privilege is user again, and every latch is
invalid. `tret.skip` of a precise trap at an instruction passes that instruction: the run stands at the next one of the fetched clause, or at the clause that follows. Nothing else
changes but WSTAT.SCOPE and the releases that later writes carry (R151): the trap registers, the flags, the return stacks, the live mask, TSCRATCH, the other flows, the groups, the
registers of cores and dies, and memory are as before.
`exec` answers a next state for `tret` and `tretSkip`. -/
def Obligations.TrapReturn : Prop :=
  let completes (i : Instr) : Prop := ∀ s e, Ready s i e → ∃ t, Machine.exec i s = .next t
  let own (w v : Wave) : Prop := { w.still with handler := v.handler, resume := v.resume, fences := v.fences } = v.still ∧ { w.wstat with scope := v.wstat.scope } = v.wstat
  let run (e : Issuer) : LaneMask := e.w.trap.mask &&& e.w.live &&& ~~~e.w.halted
  let addr (e : Issuer) : Nat := e.w.trap.pc.toNat / 4 % 2 ^ 46 * 4
  let word (e : Issuer) : Nat := e.w.trap.pc.toNat / 2 ^ 48 % 16
  let back (i : Instr) (only : Issuer → Prop) : Prop :=
    ∀ s e c k, Ready s i e → e.f = .wave c k → e.w.live ≠ 0 → only e →
      ∃ t w, Machine.exec i s = .next t ∧ t.flow? e.f = some w ∧ w.handler = false ∧ w.clause = none ∧ w.latches = [] ∧
        (∀ l, (run e).getLsbD l = true → w.position l = (addr e, word e)) ∧ (∀ l, (run e).getLsbD l = false → w.position l = e.w.position l) ∧
        w.resume = (if run e = 0 then none else some (run e, 1)) ∧ own w e.w ∧ Calm s t e (fun _ _ => False)
  (∀ x, completes (.tret x)) ∧ (∀ x, completes (.tretSkip x)) ∧
  (∀ x, back (.tret x) (fun _ => True)) ∧ (∀ x, back (.tretSkip x) (fun e => word e = 0 ∨ e.w.trap.imprecise = true ∨ run e = 0)) ∧
  ∀ x s e c k s1 h ws, Ready s (.tretSkip x) e → e.f = .wave c k → e.w.live ≠ 0 → word e ≠ 0 → e.w.trap.imprecise = false → run e ≠ 0 →
    (s.returnFromTrap e.f).fetchClause e.f (addr e) = (s1, .ok (h, ws)) → word e ≤ ws.length →
    let pos := word e + skipLength (ws.drop (word e - 1))
    ∃ t w, Machine.exec (.tretSkip x) s = .next t ∧ t.flow? e.f = some w ∧ w.handler = false ∧ w.clause = none ∧ w.latches = [] ∧
      (∀ l, (run e).getLsbD l = true → w.position l = if ws.length < pos then ((addr e + 4 * (ws.length + 1)) % 2 ^ 48, 0) else (addr e, pos)) ∧
      (∀ l, (run e).getLsbD l = false → w.position l = e.w.position l) ∧ w.resume = some (run e, 1) ∧ own w e.w ∧
      (∀ f x l, l < 64 → varAt t f x l = varAt s f x l) ∧ (∀ f, f ≠ e.f → (t.flow? f).map Wave.still = (s.flow? f).map Wave.still) ∧
      (∀ c g, (t.group? c g).map Group.still = (s.group? c g).map Group.still) ∧ t.launches = s.launches ∧
      MarkedLeaves s t e.f ((List.range 16).map (fun n => (addr e + 4 * n) % 2 ^ 48 / 64 * 64))

/-- Privileged instructions below their privilege raise PRIVILEGE with no other effect (R90, R374, R414): the debug and steward instructions of a wave, and `tret`, `lread` and
`lwrite` of a wave at user privilege. A register instruction of a number that is not in the table raises ILLEGAL, as does one of a wave with a core named in SB, or of a steward with a core
number above 63; a read or a write below the privilege that the table gives raises PRIVILEGE with the number, and so does a die register named on a compute core: all before any
effect (R430, R431). -/
def Obligations.PrivilegeTraps : Prop :=
  (∀ s i e c k, i.wf = true → s.issuer i = some e → e.f = .wave c k → s.dstep = none → e.w.park.any Park.second = false →
    (stewardOnly i = true ∨ (∃ x, i = .dhalt x ∨ i = .dresume x ∨ i = .dstep x ∨ i = .dread x ∨ i = .dwrite x) ∨
      (e.w.handler = false ∧ ∃ x, i = .tret x ∨ i = .tretSkip x ∨ i = .lread x ∨ i = .lwrite x)) →
    Machine.exec i s = .next (s.takeTrap e.f (Trap.regs { code := 0x03 } e.c.addr e.c.pos e.run))) ∧
  (let refused (i : XArgs → Instr) (below : RegSpec → Nat → Prop) : Prop :=
    ∀ x s e, Ready s (i x) e →
      let n := x.immBits 11 0
      let illegal : Prop := Machine.exec (i x) s = .next (s.takeTrap e.f (Trap.regs { code := 0x02 } e.c.addr e.c.pos e.run))
      let privilege : Prop := Machine.exec (i x) s = .next (s.takeTrap e.f (Trap.regs { code := 0x03, addr := n } e.c.addr e.c.pos e.run))
      (isSteward e.f = false → (e.p.sb ≠ .var 0 ∨ 0x300 ≤ n) → illegal) ∧ (isSteward e.f = false → e.p.sb = .var 0 → 0x200 ≤ n → n < 0x300 → privilege) ∧
      (isSteward e.f = true → 0x100 ≤ n → n < 0x200 → 63 < (lo32 (s.srcB e e.lead)).toNat → illegal) ∧
      ∀ r, s.namedReg e n = .ok r → (s.regSpec r = none → illegal) ∧ ∀ p, s.regSpec r = some p → below p (e.w.privilege e.f) → privilege
   refused .csrr (fun p v => v < p.read) ∧ refused .csrw (fun p v => p.write < 4 ∧ v < p.write) ∧ refused .csrs (fun p v => p.write < 4 ∧ v < p.write) ∧
   refused .csrc (fun p v => p.write < 4 ∧ v < p.write))

/-- `csrr`, `csrw`, `csrs` and `csrc` (R429 to R433), for every register that the flow may access: a read gives the register's value; a write of a register
that no privilege writes changes nothing, and writes of TSCRATCH and WSTAT follow R432's table.
`exec` answers a next state for `csrr`, `csrw`, `csrs` and `csrc`. -/
def Obligations.RegisterInstructions : Prop :=
  (∀ x s e r p, Ready s (.csrr x) e → s.regAccess e (x.immBits 11 0) false = .ok (r, p) →
    ∃ t, Machine.exec (.csrr x) s = .next t ∧ Wrote s t e (fun _ => wordsOf (BitVec.ofNat 64 (s.readReg r e.lead e.regGroup))) ∧ Passed t e ∧ Raised t e {} ∧
      Untouched s t e (isDst e)) ∧
  (let wrote (i : XArgs → Instr) (op : RegOp) : Prop :=
    ∀ x s e, Ready s (i x) e → ∀ v, v = (s.srcA e e.lead).toNat →
      (∀ r p, s.regAccess e (x.immBits 11 0) true = .ok (r, p) → p.write = 4 →
        ∃ t, Machine.exec (i x) s = .next t ∧ Passed t e ∧ Untouched s t e (fun _ _ => False)) ∧
      (x.immBits 11 0 = 0x047 → e.w.handler = true → (e.p.sb = .var 0 ∨ isSteward e.f = true) →
        ∃ t w, Machine.exec (i x) s = .next t ∧ Passed t e ∧ Calm s t e (fun _ _ => False) ∧ t.flow? e.f = some w ∧ w.wstat = e.w.wstat ∧
          { w.still with scratch := 0 } = { e.w.still with scratch := 0 } ∧
          w.scratch = (match op with
            | .write => s.srcA e e.lead
            | .set => e.w.scratch ||| s.srcA e e.lead
            | .clear => e.w.scratch &&& ~~~(s.srcA e e.lead))) ∧
      (x.immBits 11 0 = 0x000 → (e.p.sb = .var 0 ∨ isSteward e.f = true) →
        ∃ t w, Machine.exec (i x) s = .next t ∧ Passed t e ∧ Calm s t e (fun _ _ => False) ∧ t.flow? e.f = some w ∧ w.still = e.w.still ∧
          ∀ b < 6, w.wstat.value.testBit b = (match op with
            | .write => v.testBit b
            | .set => e.w.wstat.value.testBit b || v.testBit b
            | .clear => e.w.wstat.value.testBit b && !v.testBit b))
   wrote .csrw .write ∧ wrote .csrs .set ∧ wrote .csrc .clear)


/-! ### System instructions, calls and debugging (R434 to R445) -/

/-- `isync`, `iflush`, `wfi` and `tlbinv` (R434, R435, R439, R440). `isync` changes nothing that this machine holds. After `iflush` no core of a reached die holds a line of the
range in the issuing ASID, and a length of 0 has no effect. `wfi` returns the set of pending events and empties it, and waits while it is empty. `tlbinv` drops, on the dies
that its mask names and that are reached, the translations that it names and no other.
`exec` answers a next state for `isync`, `iflush`, `wfi`, `tlbinvAll`, `tlbinvAsid` and `tlbinvRange`. -/
def Obligations.SystemInstructions : Prop :=
  (∀ x s e, Ready s (.isync x) e →
    ∃ t, Machine.exec (.isync x) s = .next t ∧ Passed t e ∧ Raised t e {} ∧ Latched t e .invalid ∧ Untouched s t e (fun _ _ => False)) ∧
  (∀ x s e, Ready s (.iflush x) e →
    let start := (s.srcA e e.lead).toNat
    let len := (lo32 (s.srcB e e.lead)).toNat
    start < 2 ^ 48 → start + len ≤ 2 ^ 48 →
    ∃ t, Machine.exec (.iflush x) s = .next t ∧ Passed t e ∧ Raised t e {} ∧ Latched t e .invalid ∧
      (∀ f y l, l < 64 → varAt t f y l = varAt s f y l) ∧ (∀ a, t.byte a = s.byte a) ∧
      (∀ c, { (t.core c).still with icache := [] } = { (s.core c).still with icache := [] }) ∧
      (∀ c key bs, (t.core c).icache.get key = some bs → (s.core c).icache.get key = some bs) ∧
      (len = 0 → ∀ c, (t.core c).icache = (s.core c).icache) ∧
      ∀ c key, s.skipsDie (flowDie e.f) (dieOf c) = false → key % 1024 = s.asidOf e.f →
        (s.physOf (flowDie e.f) (s.asidOf e.f) (key / 1024 * 64 / 4096 * 4096)).isSome = true → 0 < len →
        key / 1024 * 64 < start + len → start < key / 1024 * 64 + 64 → (t.core c).icache.get key = none) ∧
  (∀ x s e d k, Ready s (.wfi x) e → e.f = .steward d k →
    ((s.die d).events.getD k 0 = 0 → Machine.exec (.wfi x) s = .next s) ∧
    ((s.die d).events.getD k 0 ≠ 0 →
      ∃ t, Machine.exec (.wfi x) s = .next t ∧ Wrote s t e (fun _ => [BitVec.ofNat 32 ((s.die d).events.getD k 0)]) ∧ Passed t e ∧ Raised t e {} ∧
        (t.die d).events.getD k 0 = 0 ∧ (∀ j, j ≠ k → (t.die d).events.getD j 0 = (s.die d).events.getD j 0) ∧ t.cores = s.cores ∧
        (∀ g, { (t.die g).still with events := [] } = { (s.die g).still with events := [] }) ∧
        (∀ f y l, l < 64 → ¬isDst e f y → varAt t f y l = varAt s f y l) ∧ ∀ a, t.byte a = s.byte a)) ∧
  (let drops (i : XArgs → Instr) (names : XArgs → State → Issuer → Translation → Bool) : Prop :=
    ∀ x s e, Ready s (i x) e → (x.immBits 1 0 = 0 ∨ x.immBits 11 2 ≠ 0) →
      let reached (d : Nat) : Prop := d < 4 ∧ (s.srcB e e.lead).toNat.testBit d = true ∧ s.skipsDie (flowDie e.f) d = false
      ∃ t, Machine.exec (i x) s = .next t ∧ Passed t e ∧ Raised t e {} ∧ Latched t e .invalid ∧
        (∀ f y l, l < 64 → varAt t f y l = varAt s f y l) ∧ (∀ a, t.byte a = s.byte a) ∧
        (∀ d, (reached d → (t.die d).tlb = (s.die d).tlb.filter (fun a => !names x s e a)) ∧ (¬reached d → (t.die d).tlb = (s.die d).tlb)) ∧
        ∀ c, { t.core c with l1 := [] } = { s.core c with l1 := [] } ∧
          (reached (dieOf c) → (t.core c).l1 = (s.core c).l1.filter (fun a => !names x s e a)) ∧ (¬reached (dieOf c) → (t.core c).l1 = (s.core c).l1)
   drops .tlbinvAll (fun _ _ _ _ => true) ∧ drops .tlbinvAsid (fun x _ _ a => a.asid == x.immBits 11 2) ∧
   drops .tlbinvRange (fun x s e a => a.asid == x.immBits 11 2 && lo32 (s.srcC e e.lead) != 0 && decide (a.va < (s.srcA e e.lead).toNat + 4096 * (lo32 (s.srcC e e.lead)).toNat) &&
     decide ((s.srcA e e.lead).toNat < a.va + a.size)))

/-- `ecall` with every service (R436): it passes its request, with the site of the call, to the steward of its die and holds the wave at its place; once the steward has answered, the wave writes the
answer and goes on.
`exec` answers a next state for `ecall`, `queueQuiesce`, `queueResume`, `queueReset`, `traceBind`, `traceClose` and `codeLoad`. -/
def Obligations.StewardCalls : Prop :=
  let calls (i : XArgs → Instr) : Prop :=
    (∀ x s e, Ready s (i x) e → (∀ v, e.w.park ≠ some (.answered v)) →
      ∃ t w, Machine.exec (i x) s = .next t ∧ t.flow? e.f = some w ∧ w.park = some .ecall ∧ w.clause = e.w.clause ∧ w.latches = e.w.latches ∧
        (∃ n, (t.die (flowDie e.f)).requests.get n =
          some (.ecall e.f (s.contextOf e.f) (x.immBits 7 0) (s.srcA e e.lead) (s.srcB e e.lead) e.c.addr)) ∧
        (∀ f y l, l < 64 → varAt t f y l = varAt s f y l) ∧ ∀ a, t.byte a = s.byte a) ∧
    ∀ x, GivesIf (i x) (fun _ e => ∃ v, e.w.park = some (.answered v))
      (fun _ e _ => match e.w.park with
        | some (.answered v) => wordsOf v
        | _ => []) (fun _ _ => {})
  calls .ecall ∧ calls .queueQuiesce ∧ calls .queueResume ∧ calls .queueReset ∧ calls .traceBind ∧ calls .traceClose ∧ calls .codeLoad

/-- `moncall` (R437): each service's result, and what it leaves in the monitor and in flash; no queue and no launch changes, and, but for a switch that succeeds, no compute core
and no byte of memory. A switch places the slot's image for the stewards of its die and starts the other three flows there (log 16); of the cores it drops translations and
instruction lines of ASID 0 alone. The verdict on a signature (log 13) and a flash error (log 15) are free values of the model.
`exec` answers a next state for `monitorVersion`, `fuseSvn`, `moncallUnknown`, `imageVerify`, `imageMeasure`, `isleWrite`, `isleSwitch` and `heartbeat`. -/
def Obligations.MonitorCalls : Prop :=
  let result (i : Instr) (s t : State) (e : Issuer) (v : Nat) : Prop :=
    Machine.exec i s = .next t ∧ Wrote s t e (fun _ => wordsOf (BitVec.ofNat 64 v)) ∧ Passed t e ∧ Raised t e {} ∧ t.queues = s.queues ∧ t.launches = s.launches
  let answers (i : Instr) (s t : State) (e : Issuer) (v : Nat) : Prop :=
    result i s t e v ∧ t.cores = s.cores ∧ t.mem = s.mem
  (∀ x, Gives (.monitorVersion x) (fun _ _ _ => wordsOf 0x10000) (fun _ _ => {})) ∧
  (∀ x, Gives (.fuseSvn x) (fun s e _ => wordsOf (BitVec.ofNat 64 (s.fuse (flowDie e.f)))) (fun _ _ => {})) ∧
  (∀ x, Gives (.moncallUnknown x) (fun _ _ _ => wordsOf 0xFFFFFFFFFFFFFFFF) (fun _ _ => {})) ∧
  (∀ x s e, Ready s (.imageVerify x) e →
    let d := flowDie e.f
    let a := (s.srcA e e.lead).toNat
    let n := (s.srcB e e.lead).toNat
    let bs := s.bytes a n
    let v := if s.readable a n = false ∨ signedBy (Config.fusedKey d) bs = false then 1 else if (containerOf bs).svn < s.fuse d then 2
      else if imageEntry bs = none then 3 else if inDie d a n = false then 4 else 0
    ∃ t, answers (.imageVerify x) s t e v ∧ (t.die d).monitor.measured = none ∧ (t.die d).monitor.candidate = if v = 0 then some bs else none) ∧
  (∀ x s e, Ready s (.imageMeasure x) e →
    let d := flowDie e.f
    let a := (s.srcA e e.lead).toNat
    let m := (s.die d).monitor
    ∃ t v, answers (.imageMeasure x) s t e v ∧ (t.die d).monitor.candidate = m.candidate ∧
      (match m.candidate with
        | none => v = 2
        | some bs => v = if inDie d a 64 = false ∨ s.readable a 64 = false then 3 else if s.bytes a 64 = shake256 bs then 0 else 1) ∧
      (t.die d).monitor.measured = if v = 0 then some (s.bytes a 64) else m.measured) ∧
  (∀ x s e, Ready s (.isleWrite x) e →
    let d := flowDie e.f
    let k := (s.srcA e e.lead).toNat
    let m := (s.die d).monitor
    ∃ t v, answers (.isleWrite x) s t e v ∧ (1 < k → v = 2 ^ 64 - 1) ∧ (k ≤ 1 → k = m.running → v = 3) ∧ (k ≤ 1 → k ≠ m.running → m.ready = none → v = 1) ∧
      (v ≠ 0 → t.isles = s.isles) ∧
      (k ≤ 1 → k ≠ m.running → ∀ bs, m.ready = some bs → v = (if Config.flashFails s.fresh then 2 else 0) ∧ (v = 0 → t.isles.get k = some bs))) ∧
  (∀ x s e st, Ready s (.isleSwitch x) e → e.f = .steward (flowDie e.f) st →
    let d := flowDie e.f
    let k := (s.srcA e e.lead).toNat
    let us := (s.srcB e e.lead).toNat
    let m := (s.die d).monitor
    m.running ≤ 1 →
    let v := if 1 < k ∨ us < 1 ∨ 1000000 < us then 0x8000000000000001 else if k = m.running then 0x8000000000000002
      else if (s.isles.get k).any (fun bs => s.imageStatus d bs == 0) = false then 0x8000000000000003 else if m.heartbeat ≠ none then 0x8000000000000004 else m.running
    (2 ^ 63 ≤ v → ∃ t, answers (.isleSwitch x) s t e v ∧ (t.die d).monitor = m) ∧
    (v < 2 ^ 63 → ∃ t bs, result (.isleSwitch x) s t e v ∧ s.isles.get k = some bs ∧
      (t.die d).monitor = { m with running := k, previous := m.running, heartbeat := some (s.now + us), switcher := st, image := some bs } ∧
      (∀ a, t.byte a = (s.placeImage d k bs).byte a) ∧ (∀ j < 4, j ≠ st → t.flow? (.steward d j) = some (Wave.flowAt (isleStart d k bs))) ∧
      (∀ c, { (t.core c).still with icache := [], l1 := [] } = { (s.core c).still with icache := [], l1 := [] }) ∧
      (∀ c key v, (t.core c).icache.get key = some v → (s.core c).icache.get key = some v) ∧ (∀ c, (t.core c).l1 = (s.core c).l1.filter (fun y => !(dieOf c == d && y.asid == 0))) ∧
      ∀ c j, t.flow? (.wave c j) = s.flow? (.wave c j))) ∧
  (∀ x s e, Ready s (.heartbeat x) e →
    let d := flowDie e.f
    let m := (s.die d).monitor
    (m.heartbeat = none → ∃ t, answers (.heartbeat x) s t e 1 ∧ (t.die d).monitor = m ∧ t.bootSlot = s.bootSlot) ∧
    ∀ h, m.heartbeat = some h → s.now < h → ∃ t, answers (.heartbeat x) s t e 0 ∧ (t.die d).monitor.heartbeat = none ∧ t.bootSlot = m.running)

/-- The debug instructions (R441 to R445), of a steward flow on a wave that its identifier names: `dhalt` halts every live lane where it stands, `dresume` releases the halted
lanes of its mask, `dstep` puts the lanes at their place for one instruction, `dread` returns a variable of a halted lane and `dwrite` writes one; a refusal is a status and
changes nothing else.
`exec` answers a next state for `dhalt`, `dresume`, `dstep`, `dread` and `dwrite`. -/
def Obligations.DebugInstructions : Prop :=
  let target (s : State) (e : Issuer) (x : XArgs) (c k : Nat) (w : Wave) : Prop := s.debugTarget e (s.srcA e e.lead).toNat (x.immBits 9 0) = .ok (c, k, w)
  let acted (i : Instr) (s t : State) (e : Issuer) (c k : Nat) : Prop :=
    Machine.exec i s = .next t ∧ Wrote s t e (fun _ => [0]) ∧ Passed t e ∧ Raised t e {} ∧ (∀ a, t.byte a = s.byte a) ∧
      ∀ f, f ≠ e.f → f ≠ .wave c k → (t.flow? f).map (fun w => { w with overflowed := [] }) = (s.flow? f).map (fun w => { w with overflowed := [] })
  let refused (i : XArgs → Instr) : Prop :=
    ∀ x st, GivesIf (i x) (fun s e => s.debugTarget e (s.srcA e e.lead).toNat (x.immBits 9 0) = .error st) (fun _ _ _ => [BitVec.ofNat 32 st, 0, 0, 0]) (fun _ _ => {})
  refused .dhalt ∧ refused .dresume ∧ refused .dstep ∧ refused .dread ∧ refused .dwrite ∧
  (∀ x s e c k w, Ready s (.dhalt x) e → target s e x c k w → x.immBits 11 10 = 0 → w.traced = false →
    ∃ t w', acted (.dhalt x) s t e c k ∧ t.flow? (.wave c k) = some w' ∧ w.live &&& ~~~w'.halted = 0 ∧ w'.live = w.live ∧
      (∀ f y l, l < 64 → ¬isDst e f y → varAt t f y l = varAt s f y l) ∧
      ∀ cl l, w.handler = false → w.clause = some cl → cl.run.getLsbD l = true → w.live.getLsbD l = true → w.halted.getLsbD l = false →
        w'.position l = (cl.addr, cl.pos)) ∧
  (∀ x s e c k w, Ready s (.dresume x) e → target s e x c k w → w.traced = false →
    ∃ t w', acted (.dresume x) s t e c k ∧ t.flow? (.wave c k) = some w' ∧ w'.halted = w.halted &&& ~~~(s.srcB e e.lead &&& w.live) ∧ w'.live = w.live ∧
      w'.counter = w.counter ∧ w'.word = w.word ∧ ∀ f y l, l < 64 → ¬isDst e f y → varAt t f y l = varAt s f y l) ∧
  (∀ x s e c k w s' h ws, Ready s (.dstep x) e → target s e x c k w →
    let lanes : LaneMask := s.srcB e e.lead
    let at_ := w.position (LaneMask.lowest lanes)
    lanes ≠ 0 → lanes &&& w.live &&& w.halted = lanes → (∀ l, lanes.getLsbD l = true → w.position l = at_) → s.fetchClause (.wave c k) at_.1 = (s', .ok (h, ws)) →
    at_.2 ≤ ws.length →
    ∃ t w' v d, Machine.exec (.dstep x) s = .next t ∧ t.dstep = some d ∧ d.steward = e.f ∧ d.target = .wave c k ∧ d.lanes = lanes ∧
      t.flow? e.f = some v ∧ v.park = some .dstep ∧ t.flow? (.wave c k) = some w' ∧ w'.halted = w.halted &&& ~~~lanes ∧
      w'.clause = some { addr := at_.1, header := h, words := ws, pos := max 1 at_.2, run := lanes } ∧ ∀ f y l, l < 64 → varAt t f y l = varAt s f y l) ∧
  (∀ (s : State) (d : DStep) (st : Nat) (w v : Wave) (c k j : Nat), s.flow? d.target = some w → s.flow? d.steward = some v → d.target = .wave c k → d.steward = .steward (dieOf c) j → v.laneCopies = [] →
    let t := s.finishStep d st
    t.dstep = none ∧ t.cur = d.steward ∧ (∃ w', t.flow? d.target = some w' ∧ d.lanes &&& w.live &&& ~~~w'.halted = 0 ∧ w'.clause = d.clause ∧ w'.latches = d.latches) ∧
      (d.nwb = false → varAt t d.steward d.dst 0 = some (BitVec.ofNat 32 st))) ∧
  (∀ x, GivesIf (.dread x) (fun s e => ∃ c k w, target s e x c k w ∧ (lo32 (s.srcB e e.lead)).toNat < 2 ^ 13 ∧
      w.halted.getLsbD ((lo32 (s.srcB e e.lead)).toNat / 128) = false ∧ w.live.getLsbD ((lo32 (s.srcB e e.lead)).toNat / 128) = true)
    (fun _ _ _ => [2, 0, 0, 0]) (fun _ _ => {})) ∧
  (∀ x c k w, GivesIf (.dread x) (fun s e => target s e x c k w ∧ (lo32 (s.srcB e e.lead)).toNat < 2 ^ 13 ∧
      (w.live.getLsbD ((lo32 (s.srcB e e.lead)).toNat / 128) = true → w.halted.getLsbD ((lo32 (s.srcB e e.lead)).toNat / 128) = true))
    (fun s e _ =>
      let n := (lo32 (s.srcB e e.lead)).toNat
      [0, 0, if w.live.getLsbD (n / 128) then s.readVar (.wave c k) w (n % 128) (n / 128) else 0, 0]) (fun _ _ => {})) ∧
  (∀ x s e c k w, Ready s (.dwrite x) e → target s e x c k w →
    let n := (lo32 (s.srcB e e.lead)).toNat
    n < 2 ^ 13 → w.live.getLsbD (n / 128) = true → w.halted.getLsbD (n / 128) = true →
    ∃ t, Machine.exec (.dwrite x) s = .next t ∧ Wrote s t e (fun _ => [0]) ∧ Passed t e ∧ Raised t e {} ∧
      varAt t (.wave c k) (n % 128) (n / 128) = some (lo32 (s.srcC e e.lead)) ∧
      (∀ f y l, l < 64 → ¬isDst e f y → ¬(f = .wave c k ∧ y = n % 128 ∧ l = n / 128) → w.overflowed.contains (8 * (n % 128) + n / 128 / 8) = false →
        varAt t f y l = varAt s f y l) ∧
      (w.overflowed.contains (8 * (n % 128) + n / 128 / 8) = false → acted (.dwrite x) s t e c k))


/-! ### Barriers, windows, chains and the matrix engine (R118, R210 to R217, R253 to R267, R280 to R285, R406 to R425) -/

/-- The barrier instructions (R213) on a barrier of either kind, once their operand has passed its checks, for which a `bar.wait` or `bar.test` needs the rights of a read alone
(log 55): their statuses in the order of the rule, what `bar.init` arms, what an arrival and an expected count leave, the completion of a phase, the wait, the test and the drop. A
status of `bar.init` other than 0 leaves every barrier and byte as it is. Only the barrier's own 16 bytes of memory or scratchpad change where no phase completes; an arrival that
completes one answers the phase that it met. A wait that returns for a phase, and a test that reports one, meet the releases of that phase's arrivals (R150): WSTAT.SCOPE (R142, log 95).
`exec` answers a next state for `barInit`, `barArrive`, `barExpect`, `barWait`, `barTest` and `barDrop`. -/
def Obligations.Barriers : Prop :=
  let completes (i : Instr) : Prop := ∀ s e, Ready s i e → ∃ t, Machine.exec i s = .next t
  let done (i : Instr) (s t : State) (e : Issuer) (v : Nat) : Prop :=
    Machine.exec i s = .next t ∧ Wrote s t e (fun _ => [BitVec.ofNat 32 v]) ∧ Passed t e ∧ Raised t e {} ∧ Latched t e (e.latch e.run (fun _ => [BitVec.ofNat 32 v]))
  let acquired (i : Instr) (s t : State) (e : Issuer) (v : Nat) (fails : Bool) : Prop :=
    Machine.exec i s = .next t ∧ Wrote s t e (fun _ => [BitVec.ofNat 32 v]) ∧ Passed t e ∧ Latched t e (e.latch e.run (fun _ => [BitVec.ofNat 32 v])) ∧
      ∃ w, t.flow? e.f = some w ∧ w.wstat = { e.w.wstat with scope := e.w.wstat.scope || fails }
  let fails (s : State) (e : Issuer) (b : Barrier) : Bool := (b.met.getD (s.barN e % 2 ^ 24) []).any (s.drops e.f b.scope)
  let like (b b' : Barrier) : Prop := { b' with arrivers := [] } = { b with arrivers := [] }
  let kept (s t : State) : Prop := (∀ a, t.byte a = s.byte a) ∧ (∀ id, t.bar? id = s.bar? id) ∧ ∀ c g, (t.group? c g).map Group.still = (s.group? c g).map Group.still
  let rest (q : Group) : Group := { q.still with spad := [], spadTags := [], poison := [], barriers := [] }
  let apart (s t : State) (id : BarId) : Prop := (∀ i, i ≠ id → t.bar? i = s.bar? i) ∧ match id with
    | .spad c g off => (∀ a, t.byte a = s.byte a) ∧ (∀ k h, (k ≠ c ∨ h ≠ g) → (t.group? k h).map Group.still = (s.group? k h).map Group.still) ∧
        ∀ q, s.group? c g = some q → ∃ q', t.group? c g = some q' ∧ rest q' = rest q ∧ ∀ a, (a < off ∨ off + 16 ≤ a) → q'.spad.get a = q.spad.get a
    | .global pa => (∀ a, (a < pa ∨ pa + 16 ≤ a) → t.byte a = s.byte a) ∧ ∀ c g, (t.group? c g).map Group.still = (s.group? c g).map Group.still
  let quiet (s : State) (id : BarId) : Prop :=
    let none_ (q : Group) : Prop := q.guard = none ∧ q.budget = none
    match id with
    | .spad c g _ => ∀ q, s.group? c g = some q → none_ q
    | .global _ => (∀ x ∈ s.cores, (∀ g ∈ x.2.groups, none_ g.2) ∧ ∀ i, x.2.shadow = some i → ∀ g ∈ i.groups, none_ g.2) ∧ ∀ x ∈ s.saves, ∀ g ∈ x.2.groups, none_ g.2
  (∀ x, completes (.barInit x)) ∧ (∀ x, completes (.barArrive x)) ∧ (∀ x, completes (.barExpect x)) ∧ (∀ x, completes (.barWait x)) ∧ (∀ x, completes (.barTest x)) ∧
  (∀ x, completes (.barDrop x)) ∧
  (∀ x s e s' id, Ready s (.barInit x) e → s.barOperand e x.scope.toNat true = (s', .ok id) →
    let n := s'.barN e
    let tx := x.imm.getLsbD 8
    (¬(1 ≤ n ∧ n ≤ 65535) → ∃ t, done (.barInit x) s t e 4 ∧ kept s' t ∧ ∀ c, (t.core c).still = (s'.core c).still) ∧
    (1 ≤ n → n ≤ 65535 → ∀ b, s'.bar? id = some b →
      ∃ t, done (.barInit x) s t e (if b.tx = tx ∧ b.scope = x.scope.toNat ∧ b.initArr = n then 1 else 2) ∧ kept s' t ∧ ∀ c, (t.core c).still = (s'.core c).still) ∧
    (1 ≤ n → n ≤ 65535 → s'.bar? id = none → s'.serverFull id = true → ∃ t, done (.barInit x) s t e 3 ∧ kept s' t ∧
      ∀ c, (t.core c).still = if flowCore e.f = some c then { (s'.core c).still with fulls := min 255 ((s'.core c).fulls + 1) } else (s'.core c).still) ∧
    (1 ≤ n → n ≤ 65535 → s'.bar? id = none → s'.serverFull id = false →
      ∃ t, done (.barInit x) s t e 0 ∧ apart s' t id ∧
        t.bar? id = some { scope := x.scope.toNat, tx, ovf := false, phase := 0, pendSec := 0, initArr := n, pendArr := n })) ∧
  (∀ x s e s' id b, Ready s (.barArrive x) e → s.barOperand e x.scope.toNat true = (s', .ok id) → s'.bar? id = some b → b.scope = x.scope.toNat → s'.barN e ≤ b.pendArr →
    ((b.pendArr ≠ s'.barN e ∨ b.pendSec ≠ 0 ∨ b.ovf = true) →
      ∃ t b', done (.barArrive x) s t e b.phase ∧ apart s' t id ∧ t.bar? id = some b' ∧ like { b with pendArr := b.pendArr - s'.barN e } b') ∧
    (b.pendArr = s'.barN e → b.pendSec = 0 → b.ovf = false → quiet s' id →
      ∃ t b', Machine.exec (.barArrive x) s = .next t ∧ Passed t e ∧ Raised t e {} ∧ Latched t e (e.latch e.run (fun _ => [BitVec.ofNat 32 b.phase])) ∧
        (e.p.nwb = false → ∀ l < 64, e.run.getLsbD l = true → (scalarClass e.p = true → e.w.laneCopies.get (64 * e.p.dst.toNat + l) = none) →
          varAt t e.f e.p.dst.toNat l = some (BitVec.ofNat 32 b.phase)) ∧
        t.bar? id = some b' ∧ b'.phase = (b.phase + 1) % 2 ^ 24 ∧ b'.pendArr = b.initArr ∧ b'.initArr = b.initArr ∧ b'.scope = b.scope ∧ b'.tx = b.tx ∧
        ∀ i, i ≠ id → t.bar? i = s'.bar? i)) ∧
  (∀ x s e s' id b, Ready s (.barExpect x) e → s.barOperand e x.scope.toNat true = (s', .ok id) → s'.bar? id = some b → b.scope = x.scope.toNat → b.tx = true →
    s'.barN e < 2 ^ 31 → b.pendSec + s'.barN e < 2 ^ 31 → -(2 ^ 31) ≤ b.pendSec → b.pendArr ≠ 0 →
    ∃ t, Machine.exec (.barExpect x) s = .next t ∧ Passed t e ∧ Raised t e {} ∧ Latched t e .invalid ∧ apart s' t id ∧
      t.bar? id = some { b with pendSec := b.pendSec + s'.barN e } ∧ ∀ f y l, l < 64 → varAt t f y l = varAt s f y l) ∧
  (∀ x s e s' id, Ready s (.barWait x) e → (∀ v, e.w.park ≠ some (.woken v)) → s.barOperand e x.scope.toNat false = (s', .ok id) →
    (s'.bar? id = none → ∃ t, done (.barWait x) s t e 2 ∧ kept s' t) ∧
    (∀ b, s'.bar? id = some b → b.scope = x.scope.toNat → b.phase ≠ s'.barN e % 2 ^ 24 →
      ∃ t, acquired (.barWait x) s t e 0 (fails s' e b) ∧ kept s' t) ∧
    (∀ b, s'.bar? id = some b → b.scope = x.scope.toNat → b.phase = s'.barN e % 2 ^ 24 → isSteward e.f = false →
      ∃ t w, Machine.exec (.barWait x) s = .next t ∧ t.flow? e.f = some w ∧ w.park = some (s'.waitPark e id b.phase) ∧ w.still = e.w.still ∧ w.clause = e.w.clause ∧
        w.latches = e.w.latches ∧ w.wstat = e.w.wstat ∧ kept s' t ∧ ∀ f y l, l < 64 → varAt t f y l = varAt s f y l) ∧
    (∀ b, s'.bar? id = some b → b.scope = x.scope.toNat → b.phase = s'.barN e % 2 ^ 24 → isSteward e.f = true → Machine.exec (.barWait x) s = .next s')) ∧
  (∀ x v, v ≠ 0 → GivesIf (.barWait x) (fun _ e => e.w.park = some (.woken v)) (fun _ _ _ => [BitVec.ofNat 32 v]) (fun _ _ => {})) ∧
  (∀ x s e, Ready s (.barWait x) e → e.w.park = some (.woken 0) →
    let met : Bool := match (s.barOperand e x.scope.toNat false).2 with
      | .ok id => (s.bar? id).any (fails s e)
      | .error _ => false
    ∃ t, acquired (.barWait x) s t e 0 met ∧ kept s t) ∧
  (∀ x s e s' id, Ready s (.barTest x) e → s.barOperand e x.scope.toNat false = (s', .ok id) →
    (s'.bar? id = none → ∃ t, done (.barTest x) s t e 2 ∧ kept s' t) ∧
    ∀ b, s'.bar? id = some b → b.scope = x.scope.toNat →
      (b.phase = s'.barN e % 2 ^ 24 → ∃ t, done (.barTest x) s t e 0 ∧ kept s' t) ∧
      (b.phase ≠ s'.barN e % 2 ^ 24 → ∃ t, acquired (.barTest x) s t e 1 (fails s' e b) ∧ kept s' t)) ∧
  (∀ x s e s' id, Ready s (.barDrop x) e → s.barOperand e x.scope.toNat true = (s', .ok id) → (∀ b, s'.bar? id = some b → b.scope = x.scope.toNat) →
    ∃ t, done (.barDrop x) s t e (if (s'.bar? id).isSome then 0 else 2) ∧ t.bar? id = none ∧ apart s' t id)

/-- Windows and chains. `wbind` binds a free window with its head at stage 0 and its depth at DMIN, with every line absent, and otherwise answers why not (R118, R410); `wunbind`
frees a window whose stages have all ended (R411); `wstat` reads it (R412). `enq` to a chain that takes entries gives the next sequence number, fills the entry and makes it the tail, and
head too of a chain that has none, which becomes active; another chain answers 0 (R284). `eseq` returns DONE (R285). A chain on another die is served there (R239, log 126).
`exec` answers a next state for `wbind`, `wunbind`, `wstat`, `enq` and `eseq`. -/
def Obligations.WindowsAndChains : Prop :=
  (∀ x s e c g q pl w, Ready s (.wbind x) e → s.windowOf e (x.immBits 3 0) = .ok (c, g, q, pl, w) →
    let entry := x.immBits 8 4
    let base := (s.srcA e e.lead).toNat
    let bytes := Memory.read q.regions (64 * entry) 64
    let r := regionOf bytes
    let st := s.bindStatus c pl w entry base r (s.allocation e.f)
    (st.1 ≠ 0 → ∃ t, Machine.exec (.wbind x) s = .next t ∧ Wrote s t e (fun _ => [BitVec.ofNat 32 st.1]) ∧ Passed t e ∧ Raised t e {} ∧ Untouched s t e (isDst e)) ∧
    (st.1 = 0 → r.bar = .none →
      ∃ t q' w', Machine.exec (.wbind x) s = .next t ∧ Wrote s t e (fun _ => [0]) ∧ Passed t e ∧ Raised t e {} ∧ t.group? c g = some q' ∧
        q'.windows.get (x.immBits 3 0) = some w' ∧ (pl.compressed = false → q'.spad = q.spad) ∧
        w'.bound = some { entry, base, head := 0, depth := r.dmin, dmin := r.dmin, dmax := r.dmax, unused := 0, p0 := 0, barrierPa := none, stages := [],
                          broken := false, closing := false, region := bytes, size := st.2 } ∧
        (∀ k < pl.raw * 32, w'.absent.contains k = true) ∧ ∀ a, t.byte a = s.byte a)) ∧
  (∀ x s e c g q pl w, Ready s (.wunbind x) e → s.windowOf e (x.immBits 3 0) = .ok (c, g, q, pl, w) → (∀ v, e.w.park ≠ some (.woken v)) →
    (w.bound = none → ∃ t, Machine.exec (.wunbind x) s = .next t ∧ Passed t e ∧ Raised t e {} ∧ Latched t e .invalid ∧ Untouched s t e (fun _ _ => False)) ∧
    (∀ b, w.bound = some b → b.settled = true →
      ∃ t q', Machine.exec (.wunbind x) s = .next t ∧ Passed t e ∧ Raised t e {} ∧ t.group? c g = some q' ∧
        ((q'.windows.get (x.immBits 3 0)).map (fun w => (w.bound, w.absent))) = some (none, []) ∧ (b.stages = [] → q'.spad = q.spad) ∧
        (∀ f y l, l < 64 → varAt t f y l = varAt s f y l) ∧ ∀ a, t.byte a = s.byte a)) ∧
  (∀ x s e a v, Ready s (.wunbind x) e → s.windowOf e (x.immBits 3 0) = .ok a → e.w.park = some (.woken v) →
    ∃ t, Machine.exec (.wunbind x) s = .next t ∧ Passed t e ∧ Raised t e {} ∧ Latched t e .invalid ∧ Untouched s t e (fun _ _ => False)) ∧
  (∀ x c g q pl w, GivesIf (.wstat x) (fun s e => s.windowOf e (x.immBits 3 0) = .ok (c, g, q, pl, w))
    (fun _ _ _ => [BitVec.ofNat 32 (q.pdepth (x.immBits 3 0)), BitVec.ofNat 32 ((w.bound.map (fun b => b.head)).getD 0)]) (fun _ _ => {})) ∧
  (∀ x s e s2 pa pe next, Ready s (.enq x) e →
    let xc := (s.srcA e e.lead).toNat
    let xe := (s.srcB e e.lead).toNat
    s.enqCheck e (s.chainAsid e.f xc) xc xe = (s2, .ok (pa, pe, next)) → paSpace pe ≠ 2 → s2.ownedBytes pe 64 = false →
    let n := (s2.chainWord pa 16 + 1) % 2 ^ 64
    let takes : Prop := (s2.chains.get pa).isSome = true ∧ s2.chainState pa ≠ 2
    (takes → (∀ p, next = some p → (p + 8 ≤ pa ∨ pa + 64 ≤ p) ∧ (p + 8 ≤ pe ∨ pe + 64 ≤ p)) →
      Served (.enq x) s s2 e [(e.lead, pa)] (fun _ => wordsOf (BitVec.ofNat 64 n)) (fun t =>
        t.chainWord pa 8 = xe ∧ t.chainWord pa 16 = n ∧ t.chainWord pa 24 = s2.chainWord pa 24 ∧
        t.chainWord pe 56 = n ∧ t.chainWord pe 8 = 0 ∧ t.bytes (pe + 4) 4 = [0xFF, 0xFF, 0xFF, 0xFF] ∧
        (next = none → t.chainWord pa 0 = xe ∧ t.chainState pa = 1) ∧
        (∀ p, next = some p → t.chainWord pa 0 = s2.chainWord pa 0 ∧ t.chainState pa = s2.chainState pa ∧ t.bytes p 8 = bytesOfNat 8 xe) ∧
        ∀ a, (a < pa ∨ pa + 64 ≤ a) → (a < pe ∨ pe + 64 ≤ a) → (∀ p, next = some p → a < p ∨ p + 8 ≤ a) → t.byte a = s2.byte a)) ∧
    (¬takes → Served (.enq x) s s2 e [(e.lead, pa)] (fun _ => wordsOf 0) (fun t =>
      t.chainWord pe 8 = 0 ∧ t.bytes (pe + 4) 4 = [0xFF, 0xFF, 0xFF, 0xFF] ∧ ∀ a, (a < pe + 4 ∨ pe + 16 ≤ a) → t.byte a = s2.byte a))) ∧
  (∀ x s e s' pa, Ready s (.eseq x) e → s.dstep = none →
    let xc := (s.srcA e e.lead).toNat
    s.seqAddress e xc = (s', .ok pa) → s'.poisonOf e [(e.lead, pa)] (fun _ => xc) = none →
    ∃ t, Machine.exec (.eseq x) s = .next t ∧ Passed t e ∧ MemCalm s t e ∧ (∀ a, t.byte a = s'.byte a) ∧
      UnderWay t e (fun _ => wordsOf (BitVec.ofNat 64 (if (s'.chains.get pa).isSome then s'.chainWord pa 24 else 0))))

/-- The matrix instructions (R253 to R267, R416 to R424) of a wave whose image owns the engine: `mclaim` and `mrel` move the ownership of slots and accumulators; `mfill`, `mzero`,
`mload` and `mma` are accepted with the next sequence number; `mverify` and `mdrain` are accepted, hold their wave, and complete when their operation has ended; `mver`, `mstat`
and `mloc` read an accumulator that the group holds, and 0 for another; `mfix` and `mretry` repair one, and an `mretry` that cannot read a source again traps.
`exec` answers a next state for `mclaim`, `mrel`, `mfill`, `mzero`, `mload`, `mma`, `mverify`, `mdrain`, `mver`, `mstat`, `mloc`, `mfix` and `mretry`. -/
def Obligations.MatrixInstructions : Prop :=
  let on (i : Instr) (s : State) (e : Issuer) (c : Nat) : Prop := Ready s i e ∧ (∃ k, e.f = .wave c k) ∧ (s.core c).shadow = none
  let frame (s t : State) (e : Issuer) : Prop := (∀ f y l, l < 64 → ¬isDst e f y → varAt t f y l = varAt s f y l)
  let status (i : Instr) (s t : State) (e : Issuer) (v : Nat) : Prop :=
    Machine.exec i s = .next t ∧ Wrote s t e (fun _ => [BitVec.ofNat 32 v]) ∧ Passed t e ∧ Raised t e {} ∧ frame s t e ∧ ∀ a, t.byte a = s.byte a
  let accepted (s' t : State) (e : Issuer) (c : Nat) (kind : MatKind) (acc v : Nat) : Prop :=
    let m := (s'.core c).matrix
    let n := (m.seq + 1) % 2 ^ 64
    (∃ o, (t.core c).matrix.queue = m.queue ++ [o] ∧ o.kind = kind ∧ o.acc = acc ∧ o.version = v ∧ o.seq = n ∧ o.running = false ∧ o.flag = e.p.flag) ∧
      (t.core c).matrix.seq = n ∧ (t.core c).matrix.accs = m.accs ∧ (t.core c).matrix.slots = m.slots ∧
      ∃ w, t.flow? e.f = some w ∧ ∀ k, e.p.flag = some k → w.flags.getD k.val 0 = e.w.flags.getD k.val 0 + 1
  let open_ (s : State) (c acc v : Nat) : Prop :=
    staleVersion v ((s.core c).matrix.acc acc).version = false ∧ (s.core c).matrix.queue.length < 8
  let held (s : State) (e : Issuer) (c acc : Nat) : Prop := (s.core c).matrix.holds e.w.group (16 + acc) = true
  (∀ x s e c, on (.mclaim x) s e c →
    let m := (s.core c).matrix
    let mask := (lo32 (s.srcA e e.lead)).toNat
    ((mask = 0 ∨ 2 ^ 20 ≤ mask) → ∃ t, status (.mclaim x) s t e 2 ∧ (t.core c).matrix = m) ∧
    (0 < mask → mask < 2 ^ 20 → m.releases = [] → (∃ b < 20, mask.testBit b = true ∧ m.ownerOf b ≠ none ∧ m.ownerOf b ≠ some e.w.group) →
      ∃ t, status (.mclaim x) s t e 1 ∧ (t.core c).matrix = m) ∧
    (0 < mask → mask < 2 ^ 20 → m.releases = [] → (∀ b < 20, mask.testBit b = true → m.ownerOf b = none ∨ m.ownerOf b = some e.w.group) →
      ∃ t, status (.mclaim x) s t e 0 ∧
        ∀ b < 20, (t.core c).matrix.ownerOf b = (if mask.testBit b then some e.w.group else m.ownerOf b) ∧
          (16 ≤ b → mask.testBit b = true → m.ownerOf b = none → ((t.core c).matrix.acc (b - 16)).version = 0))) ∧
  (∀ x s e c, on (.mrel x) s e c → (s.core c).matrix.queue = [] → (s.core c).matrix.fills = [] → (s.core c).matrix.releases = [] →
    ∃ t, Machine.exec (.mrel x) s = .next t ∧ Passed t e ∧ Raised t e {} ∧ Latched t e .invalid ∧ frame s t e ∧ (∀ a, t.byte a = s.byte a) ∧
      ∀ b < 20, (t.core c).matrix.ownerOf b =
        if (lo32 (s.srcA e e.lead)).toNat.testBit b && (s.core c).matrix.holds e.w.group b then none else (s.core c).matrix.ownerOf b) ∧
  (∀ x s e c ok, on (.mfill x) s e c →
    let addr := s.tileAddr e (x.imm.getLsbD 0)
    let n := x.immBits 8 7 + 1
    addr % 128 = 0 → (s.core c).matrix.holds e.w.group (x.immBits 4 1) = true → x.immBits 6 5 + n ≤ 4 →
    s.tileLines e (x.imm.getLsbD 0) false false [] (runLines addr n) = .ok ok →
    ∃ t f, Machine.exec (.mfill x) s = .next t ∧ Passed t e ∧ Latched t e .invalid ∧ (t.core c).matrix.fills = (ok.s.core c).matrix.fills ++ [f] ∧ f.slot = x.immBits 4 1 ∧
      f.quarter = x.immBits 6 5 ∧ f.count = n ∧ f.address = addr ∧ f.bytes = ((ok.s.touchTile e ok).readLines e (x.imm.getLsbD 0) (runLines addr n) ok).2 ∧
      (t.core c).matrix.queue = (ok.s.core c).matrix.queue ∧ (∀ f y l, l < 64 → varAt t f y l = varAt ok.s f y l) ∧ ∀ a, t.byte a = (ok.s.touchTile e ok).byte a) ∧
  (∀ x s e c, on (.mzero x) s e c → held s e c (accOf x) → open_ s c (accOf x) (s.expected e) →
    ∃ t, Machine.exec (.mzero x) s = .next t ∧ Passed t e ∧ Raised t e {} ∧ Latched t e .invalid ∧ accepted s t e c .zero (accOf x) (s.expected e) ∧ frame s t e ∧
      ∀ a, t.byte a = s.byte a) ∧
  (∀ x s e c ok, on (.mload x) s e c → held s e c (accOf x) →
    let addr := s.tileAddr e (x.imm.getLsbD 0)
    let pitch := s.pitchOf e
    addr % 128 = 0 → pitch % 128 = 0 → 512 ≤ pitch → pitch ≤ 2 ^ 24 →
    s.tileLines e (x.imm.getLsbD 0) false false [] (pitchLines addr pitch) = .ok ok → open_ ok.s c (accOf x) (s.expected e) →
    ∃ t, Machine.exec (.mload x) s = .next t ∧ Passed t e ∧ Latched t e .invalid ∧
      accepted ok.s t e c (.load (x.imm.getLsbD 0) addr pitch (x.imm.getLsbD 15)) (accOf x) (s.expected e) ∧ ∀ a, t.byte a = (ok.s.touchTile e ok).byte a) ∧
  (∀ x s e c s' bs ok read, on (.mma x) s e c → s.readBlock e (x.imm.getLsbD 0) (s.tileAddr e (x.imm.getLsbD 0)) = .ok (s', bs, ok, read) →
    s'.blockBad e c (blockOf bs) (s.expected e) = false → open_ s' c (blockOf bs).acc (s.expected e) →
    ∃ t, Machine.exec (.mma x) s = .next t ∧ Wrote s t e (fun _ => [BitVec.ofNat 32 (((s.core c).matrix.seq + 1) % 2 ^ 32)]) ∧ Passed t e ∧
      Latched t e (e.latch e.run (fun _ => [BitVec.ofNat 32 (((s.core c).matrix.seq + 1) % 2 ^ 32)])) ∧
      accepted s' t e c (.mma (x.imm.getLsbD 0) (s.tileAddr e (x.imm.getLsbD 0)) bs) (blockOf bs).acc (s.expected e) ∧ ∀ a, t.byte a = (read (s'.touchTile e ok)).byte a) ∧
  (∀ x s e c, on (.mverify x) s e c →
    (e.w.park = some .matrixDone →
      ∃ t, Machine.exec (.mverify x) s = .next t ∧ Passed t e ∧ Raised t e {} ∧ Latched t e .invalid ∧ Untouched s t e (fun _ _ => False)) ∧
    (e.w.park ≠ some .matrixDone → held s e c (accOf x) → ((s.core c).matrix.acc (accOf x)).mismatch = false → open_ s c (accOf x) (s.expected e) →
      ∃ t w, Machine.exec (.mverify x) s = .next t ∧ accepted s t e c .verify (accOf x) (s.expected e) ∧ t.flow? e.f = some w ∧
        w.park = some (.matrix (((s.core c).matrix.seq + 1) % 2 ^ 64)) ∧ w.clause = e.w.clause ∧ ∀ a, t.byte a = s.byte a)) ∧
  (∀ x s e c, on (.mdrain x) s e c →
    let addr := s.tileAddr e (x.imm.getLsbD 0)
    let pitch := s.pitchOf e
    let scope := x.immBits 14 12
    (e.w.park = some .matrixDone →
      ∃ t, Machine.exec (.mdrain x) s = .next t ∧ Passed t e ∧ Raised t e {} ∧ Latched t e .invalid ∧ Untouched s t e (fun _ _ => False)) ∧
    (∀ ok, e.w.park ≠ some .matrixDone → held s e c (accOf x) → ((ok.s.core c).matrix.acc (accOf x)).mismatch = false → addr % 128 = 0 → pitch % 128 = 0 → 512 ≤ pitch →
      pitch ≤ 2 ^ 24 → scope ≤ 4 → (x.imm.getLsbD 0 = true ∨ scope ≤ 1) →
      s.tileLines e (x.imm.getLsbD 0) true (x.imm.getLsbD 11) [] (pitchLines addr pitch) = .ok ok → open_ ok.s c (accOf x) (s.expected e) →
      ∃ t w, Machine.exec (.mdrain x) s = .next t ∧
        accepted ok.s t e c (.drain (x.imm.getLsbD 0) addr pitch (x.imm.getLsbD 11) scope) (accOf x) (s.expected e) ∧ t.flow? e.f = some w ∧
        w.park = some (.matrix (((ok.s.core c).matrix.seq + 1) % 2 ^ 64)) ∧ w.clause = e.w.clause ∧
        ((t.core c).matrix.queue.getLast?).map (fun o => o.release) = some (s.releaseOf e e.lead (some scope)) ∧ ∀ a, t.byte a = ok.s.byte a)) ∧
  (let reads (i : XArgs → Instr) (v : XArgs → Matrix → Nat → Nat) : Prop :=
    ∀ x c, GivesIf (i x) (fun s e => on (i x) s e c)
      (fun s e _ => wordsOf (BitVec.ofNat 64 (if (s.core c).matrix.holds e.w.group (16 + accOf x) then v x (s.core c).matrix (accOf x) else 0))) (fun _ _ => {})
   reads .mver (fun _ m k => (m.acc k).version % 2 ^ 32) ∧ reads .mstat (fun _ m k => m.mstat k) ∧
   reads .mloc (fun x m k => ((m.acc k).locMask (x.immBits 6 5)).toNat)) ∧
  (∀ x s e c, on (.mfix x) s e c → held s e c (accOf x) → (s.core c).matrix.runs (accOf x) = false →
    let a := (s.core c).matrix.acc (accOf x)
    let r := a.fix ((s.core c).tolerance a.fmtSeen)
    ∃ t, status (.mfix x) s t e r.2 ∧ (t.core c).matrix.acc (accOf x) = r.1 ∧ (t.core c).matrix.queue = (s.core c).matrix.queue) ∧
  (∀ x s e c, on (.mretry x) s e c → held s e c (accOf x) → (s.core c).matrix.runs (accOf x) = false →
    let a := (s.core c).matrix.acc (accOf x)
    (a.mismatch = false → ∃ t, status (.mretry x) s t e 3 ∧ (t.core c).matrix = (s.core c).matrix) ∧
    (∀ s' b, a.mismatch = true → s.rebuild c e.w.group a = (s', .ok b) → (b.verified ((s.core c).tolerance a.fmtSeen)).mismatch = false →
      ∃ t, Machine.exec (.mretry x) s = .next t ∧ Wrote s t e (fun _ => [0]) ∧ Passed t e ∧ Raised t e {} ∧ (∀ f, t.byte f = s'.byte f) ∧
        (t.core c).matrix.acc (accOf x) = { b.verified ((s.core c).tolerance a.fmtSeen) with retries := min 255 (a.retries + 1) }) ∧
    ∀ s' u, a.mismatch = true → s.rebuild c e.w.group a = (s', .error u) →
      Machine.exec (.mretry x) s = .next (s'.trapAt e { a.retryTrap (accOf x) u with lane := e.lead }))


/-! ### Events: waves and cores (R17, R40, R114, R168 to R173, R205 to R207, R214 to R217, R291, R454) -/

/-- What a core does for its waves on its own. A clause starts for the run that is chosen, with no latch valid, once its WAIT flags are clear (R17, R53, R97), and a clause that
cannot be fetched or fails its checks traps at its header (R77, R78); a swap exchanges a candidate with the oldest ready pending wave (R206), and a starved pending wave makes the
wave that issued least recently a candidate (R207); an imprecise fault is taken at its wave's boundary (R291); an octet returns (R40); a waiter wakes with its status (R216,
R217); a stopping wave halts (R454).
`exec` answers a next state for `clauseStart`, `waveSwap`, `pendingStarvationTimeout`, `impreciseFault`, `octetReturn`, `barrierWake`, `globalBarrierRetest` and `gangHalt`. -/
def Obligations.WaveEvents : Prop :=
  (∀ (s s' : State) f w k h ws, s.flow? f = some w → s.issuable f = true → w.clause = none → w.stopping = false → w.imprecise = [] → s.swapDue f = false → w.choose = some k → k.word = 0 →
    State.fetchClause { s with cur := f } f k.addr = (s', .ok (h, ws)) → w.flagsClear (headerWait h) = true →
    ∃ t w', Machine.exec (.clauseStart f) s = .next t ∧ t.cur = f ∧ t.flow? f = some w' ∧
      w'.clause = some { addr := k.addr, header := h, words := ws, pos := 1, run := k.run } ∧ w'.latches = [] ∧ w'.live = w.live ∧ w'.flags = w.flags ∧
      ∀ g x l, varAt t g x l = varAt s g x l) ∧
  (∀ (s s' : State) f w k u, s.flow? f = some w → s.issuable f = true → w.clause = none → w.stopping = false → w.imprecise = [] → s.swapDue f = false → w.choose = some k →
    State.fetchClause { s with cur := f } f k.addr = (s', .error u) →
    Machine.exec (.clauseStart f) s = .next ((s'.modFlow f (fun w => { w with resume := none })).takeTrap f (u.regs k.addr 0 k.run))) ∧
  (∀ (s : State) c n out in_ os is w v, s.candidates c n = out :: os → s.readyPending c n = in_ :: is → out ≠ in_ →
    s.flow? (.wave c out) = some w → s.flow? (.wave c in_) = some v →
    ∃ t, Machine.exec (.waveSwap c n) s = .next t ∧ (t.core c).active = in_ :: (s.core c).active.filter (· != out) ∧
      (t.core c).pending = (s.core c).pending.filter (· != in_) ++ [out] ∧ t.flow? (.wave c out) = some { w with candidate := false } ∧
      t.flow? (.wave c in_) = some { v with unissued := true } ∧
      (∀ f, f ≠ .wave c out → f ≠ .wave c in_ → t.flow? f = s.flow? f) ∧ { t with cores := s.cores } = s) ∧
  (∀ (s : State) c n k w, s.readyPending c n ≠ [] → s.leastRecent c ((s.core c).activeOf n) = some k → s.flow? (.wave c k) = some w →
    ∃ t, Machine.exec (.pendingStarvationTimeout c n) s = .next t ∧ t.flow? (.wave c k) = some { w with candidate := true } ∧
      (∀ f, f ≠ .wave c k → t.flow? f = s.flow? f) ∧ { t with cores := s.cores } = s) ∧
  (∀ (s : State) c k w n r a o run, s.flow? (.wave c k) = some w → s.runs (.wave c k) = true → w.dueImprecise = some (n, r) →
    w.boundary = some (a, o, run) →
    Machine.exec (.impreciseFault c k) s =
      .next ((s.setFlow (.wave c k) { w with imprecise := w.imprecise.eraseIdx n }).takeTrap (.wave c k) (r.regs a (r.wordOf w o) run))) ∧
  (∀ (s : State) c k w x o, s.flow? (.wave c k) = some w → w.park = some (.octet x o) →
    let n := 8 * x + o
    ∃ t w', Machine.exec (.octetReturn c k) s = .next t ∧ t.flow? (.wave c k) = some w' ∧ w'.park = none ∧ w'.clause = w.clause ∧ w'.latches = w.latches ∧
      (w.overflowed.contains n = true → w'.overflowed.contains n = false) ∧
      (s.splitOctets c < s.octetRoom c → (s.core c).sound = true → (∀ a, s.areaOf c = some a → s.bytes (overflowAt a k n) 32 = w.octetBytes n) →
        (∀ f y l, varAt t f y l = varAt s f y l) ∧ { t with cores := s.cores } = s)) ∧
  (∀ (s : State) c k w st, s.flow? (.wave c k) = some w → w.park = some (.waking st) →
    Machine.exec (.barrierWake c k) s = .next (s.setFlow (.wave c k) { w with park := some (.woken st) })) ∧
  (∀ (s : State) c k w pa n, s.flow? (.wave c k) = some w → w.park = some (.globalBarrier pa n false) →
    (s.bar? (.global pa) = none → Machine.exec (.globalBarrierRetest c k) s = .next (s.setFlow (.wave c k) { w with park := some (.woken 2) })) ∧
    (∀ b, s.bar? (.global pa) = some b → b.phase ≠ n →
      Machine.exec (.globalBarrierRetest c k) s = .next (s.setFlow (.wave c k) { w with park := some (.woken 0) })) ∧
    ∀ b, s.bar? (.global pa) = some b → b.phase = n → Machine.exec (.globalBarrierRetest c k) s = .next (s.setFlow (.wave c k) w)) ∧
  (∀ (s : State) c k w, s.flow? (.wave c k) = some w → w.stopping = true → w.clause = none → w.live ≠ 0 →
    ∃ t w', Machine.exec (.gangHalt c k) s = .next t ∧ t.flow? (.wave c k) = some w' ∧ w'.live &&& ~~~w'.halted = 0 ∧ w'.live = w.live ∧ w'.stopping = false ∧
      ∀ f x l, varAt t f x l = varAt s f x l)

/-- Images that leave their cores and return (R168, R169, R171, R172, R208). A swap that has been asked for moves the image to the shadow bank and frees the core; the spill
writes the save area and frees the shadow bank; the oldest image that waits for a free core is restored, and what is installed is the image.
`exec` answers a next state for `swap`, `swapEnd`, `spillComplete`, `restore` and `restoreComplete`. -/
def Obligations.ImageEvents : Prop :=
  (∀ (s : State) c x, let q := s.core c
    q.swapAsked = true → q.swapping = false → q.restoring = false → q.shadow = none → s.dstep = none → (s.die (dieOf c)).frozen = false → q.context = some x →
    (∀ k w, s.flow? (.wave c k) = some w → w.outstanding = []) →
    ∃ t i, Machine.exec (.swap c) s = .next t ∧ (t.core c).context = none ∧ (t.core c).waves = [] ∧ (t.core c).groups = [] ∧ (t.core c).swapping = true ∧
      (t.core c).swapAsked = false ∧ (t.core c).shadow = some i ∧ i.context = x ∧ i.order = q.swapOrder.getD s.swaps ∧ i.asid = q.asid ∧ i.matrix = q.matrix ∧ i.watches = q.watches ∧
      (t.core c).shadowTo = q.swapTo ∧ t.swaps = s.swaps + 1 ∧ ∀ g ∈ i.groups, g.2.state ≠ .running ∧ g.2.state ≠ .halted) ∧
  (∀ (s : State) c, Machine.exec (.swapEnd c) s = .next (s.setCore c { s.core c with swapping := false })) ∧
  (∀ (s : State) c i, (s.core c).shadow = some i → (s.core c).swapping = false → i.idle = true → (s.die (dieOf c)).frozen = false →
    let pa := (s.core c).shadowTo
    let old := ((s.contexts.get i.context).bind (fun x => x.areas.get c)).getD pa
    ∃ t, Machine.exec (.spillComplete c) s = .next t ∧ (t.core c).shadow = none ∧ t.mem = (s.writeArea c pa old i).mem ∧
      t.bytes (pa + 224) 32 = t.areaTag pa (s.keyOf i.context) ∧ t.saves.get pa = some { i with stored := t.areaBytes pa, away := true } ∧
      ∀ f, (t.flow? f).map (fun w => { w with park := none }) = (s.flow? f).map (fun w => { w with park := none })) ∧
  (∀ (s : State) c x, s.oldestAway c = some x → (∀ e ∈ s.cores, e.2.shadow = none) → (s.giveAsid x.2.2.context).holdsAsid x.2.2.context = true →
    (∀ y ∈ s.joinedAway [x] 256, s.canReturn y.1 = true ∧ ∃ z, s.oldestAway y.1 = some z ∧ z.2.1 = y.2.1) →
    ∃ t, Machine.exec (.restore c) s = .next t ∧ { t with cores := s.cores } = { s.giveAsid x.2.2.context with cores := s.cores } ∧
      ∀ y ∈ s.joinedAway [x] 256, (t.core y.1).restoring = true ∧ (t.core y.1).restorePa = y.2.1 ∧ (t.core y.1).restoreFrom = y.2.1) ∧
  (∀ (s : State) c x a i, (s.core c).restoring = true → (s.die (dieOf c)).frozen = false → s.headerGood c (s.core c).restoreFrom = some x →
    s.areaIntact (s.core c).restoreFrom x = true → s.imageOf (s.core c).restoreFrom = some (a, i) → (∀ k w, i.waves.get k = some w → w.live ≠ 0) →
    ∃ t, Machine.exec (.restoreComplete c) s = .next t ∧ (t.core c).context = some i.context ∧ (t.core c).restoring = false ∧ (t.core c).matrix = i.matrix ∧
      (t.core c).watches = i.watches ∧ (t.core c).active = i.active ∧ (t.core c).pending = i.pending ∧ (∀ j, s.saves.get a = some j → t.saves.get a = some { j with away := false }) ∧
      ∀ k w, i.waves.get k = some w → ∃ w', t.flow? (.wave c k) = some w' ∧ w'.live = w.live ∧ w'.counter = w.counter ∧ w'.slots = w.slots ∧ w'.copies = w.copies ∧
        w'.laneCopies = w.laneCopies ∧ w'.flags = w.flags ∧ w'.trap = w.trap ∧ w'.returns = w.returns) ∧
  (∀ (s : State) c, (s.core c).restoring = true → (s.die (dieOf c)).frozen = false →
    (s.headerGood c (s.core c).restoreFrom = none ∨ ∃ x, s.headerGood c (s.core c).restoreFrom = some x ∧ (s.areaIntact (s.core c).restoreFrom x = false ∨ s.imageOf (s.core c).restoreFrom = none)) →
    ∃ t, Machine.exec (.restoreComplete c) s = .next t ∧ (t.core c).restoring = false ∧ (t.core c).rfail = true)

/-! ### Events: engines, windows and the matrix (R119 to R123, R215, R255, R259 to R263, R268, R273 to R287) -/

/-- What copy engines do on their own: sectors land, of a window's stage and of a chain's entry (R119, R215, R282); a stage whose source cannot be read ends (R123, R278); an
entry starts, and completes with DONE and its descriptor's step (R281 to R283); a routine is called with its chunk, returns, or runs out of time (R275, R276); and a collective
whose participants have all started runs (R287).
`exec` answers a next state for `sectorLanding`, `stageSourceFailure`, `entryStart`, `entryComplete`, `routineCall`, `routineReturn`, `routineTimeout` and `collectiveMatch`. -/
def Obligations.EngineEvents : Prop :=
  (∀ (s s1 s2 : State) n k c bs p pa, s.chains.get n = some c →
    let e := entryOf c.entry
    c.running.isSome = true → c.ended = false → e.op = 1 → e.routine = 0 → e.aux = 0 → k < c.todo → c.landed.contains k = false → s.entryRuns c = true →
    s.engineRead c.die (s.chainAs c) (e.src + 32 * k) 32 = (s1, .ok (bs, p)) →
    s1.engineDest c.die (s1.chainAs c) (e.dst + 32 * k) 32 = (s2, .ok pa) → bs.length = 32 → s2.ownedBytes pa 32 = false →
    ∃ t, Machine.exec (.sectorLanding (.entry n k)) s = .next t ∧ t.bytes pa 32 = bs ∧ (∀ a, a < pa ∨ pa + 32 ≤ a → t.byte a = s2.byte a) ∧
      t.chains.get n = some { c with landed := c.landed ++ [k] } ∧ ∀ f x l, varAt t f x l = varAt s f x l) ∧
  (∀ (s s' : State) c g win st k q w b x bs p, s.group? c g = some q → q.windows.get win = some w → w.bound = some b → (regionOf b.region).routine = 0 →
    b.stages.get st = some x → x.failed = none → k < x.sectors → x.landed.contains k = false → s.engineRuns (dieOf c) = true →
    s.engineRead (dieOf c) (s.core c).asid ((regionOf b.region).sourceByte b.base st (32 * k)) 32 = (s', .ok (bs, p)) →
    Machine.exec (.sectorLanding (.window c g win st k)) s = .next (s'.landSector c g win st k bs p)) ∧
  (∀ (s : State) c g win st q w b t k, s.group? c g = some q → q.windows.get win = some w → w.bound = some b → b.stages.get st = some t → t.failed = none →
    (regionOf b.region).routine = 0 → s.engineRuns (dieOf c) = true →
    let addr (j : Nat) : Nat := (regionOf b.region).sourceByte b.base st (32 * j)
    let read (j : Nat) : Except Nat (List Byte × Bool) := (s.engineRead (dieOf c) (s.core c).asid (addr j) 32).2
    k < t.sectors → t.landed.contains k = false → read k = .error 0 → (∀ j < k, t.landed.contains j = false → ∃ x, read j = .ok x) →
    Machine.exec (.stageSourceFailure c g win st) s = .next (s.failStage c g win st (addr k))) ∧
  (∀ (s s1 : State) n c bs p, s.chains.get n = some c → s.chainState n = 1 → c.running = none → s.power = .running → s.engineRuns c.die = true →
    s.engineReads c.die (s.chainAs c) (s.chainWord n 0) 2 = (s1, .ok (bs, p)) → (entryOf bs).arg = 0 →
    ∃ t c', Machine.exec (.entryStart n) s = .next t ∧ t.chains.get n = some c' ∧
      (((entryOf bs).op ≠ 1 ∨ (entryOf bs).aux = 0) → c'.running = some (natOfBytes ((bs.drop 56).take 8)) ∧ c'.entry = bs ∧ c'.landed = [] ∧
        c'.status = (entryOf bs).startStatus (s1.entryRoutine c (entryOf bs))) ∧
      (c' = c ∨ (c'.running = some (natOfBytes ((bs.drop 56).take 8)) ∧ c'.entry = bs ∧ c'.landed = []))) ∧
  (∀ (s s1 : State) n c pa seq, s.chains.get n = some c → c.done = true → c.status = 0 → c.running = some seq → seq < 2 ^ 64 → c.mute = false → s.power ≠ .burrow →
    s.engineRuns c.die = true → s.engineDest c.die (s.chainAs c) (s.chainWord n 0 + 4) 4 = (s1, .ok pa) → (pa + 4 ≤ n ∨ n + 64 ≤ pa) →
    let next := natOfBytes (s1.bytes (pa + 4) 8)
    let u := (s1.chainPut (enginePlace c.die) pa [0, 0, 0, 0]).firstWrite n 64
    ∃ t c', Machine.exec (.entryComplete n) s = .next t ∧ t.chains.get n = some c' ∧ c'.running = none ∧ t.chainWord n 24 = seq ∧
      t.chainWord n 0 = next ∧ (next = 0 → t.chainWord n 8 = 0 ∧ t.chainState n = 0) ∧ (next ≠ 0 → t.chainWord n 8 = u.chainWord n 8 ∧ t.chainState n = u.chainState n) ∧
      (∀ a, (a < n ∨ n + 64 ≤ a) → t.byte a = u.byte a) ∧
      ((∀ l ∈ s.launches, l.2.protectedPieces = []) → t.bytes pa 4 = [0, 0, 0, 0] ∧ ∀ a, (a < n ∨ n + 64 ≤ a) → (a < pa ∨ pa + 4 ≤ a) → t.byte a = s1.byte a)) ∧
  (∀ (s s1 : State) d n job j input bad, s.jobOf job = some j → j.die = d → j.engine = n → s.jobRuns job = true → j.callable job = true →
    ((s.die d).engine n).hold = false → ((s.die d).engine n).call = none → s.power = .running →
    let num := bits j.reg 15 12
    let den := bits j.reg 11 8
    let grain := 2 ^ bits j.reg 3 0
    let pos := if num = 0 then 0 else landingSector job * 32 * den / num
    let chunk := chunkBytes num den grain (j.size - pos)
    chunk ≠ 0 → den ≠ 0 → (num = 0 ∨ (pos % chunkBytes num den grain j.size = 0 ∧ pos * num / den = landingSector job * 32)) →
    s.readSectors d j.asid ((List.range ((chunk + 31) / 32)).map (fun k => j.addr (pos + 32 * k))) = (s1, .ok (input, bad)) →
    ∃ t call, Machine.exec (.routineCall d n job) s = .next t ∧ ((t.die d).engine n).call = some call ∧ call.job = job ∧ call.position = pos ∧
      call.input = input.take chunk ∧ call.poisoned = bad ∧ call.segment < 8 ∧ call.args = callArgs call.segment chunk pos j.arg s1.fresh ∧
      ((t.die d).engine n).hold = false ∧ (∀ a, t.byte a = s1.byte a) ∧ t.chains = s1.chains) ∧
  (∀ (s : State) d n c j r a0 output map priv o m, ((s.die d).engine n).call = some c → s.engineRuns d = true → s.jobOf c.job = some j →
    ((8 < j.routine ∧ r = .returned a0 output map priv) ∨ (j.routine ≤ 8 ∧ shipped j.routine j.arg j.page c.input = some (output, map) ∧ a0 = output.length)) →
    let left : Tab Byte := if j.routine ≤ 8 then ((s.die d).engine n).data
      else (priv.zip (List.range 32768)).filterMap (fun x => if x.1 = 0 then none else some (x.2, x.1))
    let free (s : State) : State := s.modEngine d n (fun e => { e with call := none, data := left })
    (∀ core g win st k, c.job = .window core g win st k → callResult j.reg k c.input true (some (a0, output, map)) = some (o, m) →
      Machine.exec (.routineReturn d n r) s = .next ((free s).landCall c (bits j.reg 15 12) o m)) ∧
    ∀ chain k s', c.job = .entry chain k → callResult j.reg k c.input false (some (a0, output, map)) = some (o, m) → s.destFault chain (s.callDests chain m) = (s', none) →
      Machine.exec (.routineReturn d n r) s = .next ((free s').landCall c (bits j.reg 15 12) o m)) ∧
  (∀ (s : State) d n c j, ((s.die d).engine n).call = some c → s.engineRuns d = true → s.jobOf c.job = some j →
    ∃ t, Machine.exec (.routineTimeout d n) s = .next t ∧ ((t.die d).engine n).call = none ∧ ((t.die d).engine n).rfaults = min 65535 (((s.die d).engine n).rfaults + 1)) ∧
  (∀ (s s1 s2 s3 : State) n c peers l, s.chains.get n = some c → c.joins c = true → s.power ≠ .burrow → s.engineRuns c.die = true →
    let e := entryOf c.entry
    s.peersOf c e = (s1, .ok (some peers)) → peers.contains (some n) = true → (∀ p ∈ peers, ∃ a ∈ s.joiners c, p = some a) →
    let ps := peers.filterMap id
    let part (k : Nat) : Chain := s1.chains.getD k c
    (∀ k ∈ s.joiners c, let m := entryOf (part k).entry
      m.op = e.op ∧ m.fmt = e.fmt ∧ m.len = e.len ∧ m.arg % 64 = e.arg % 64 ∧ k ∈ ps) →
    (e.op = 0x13 → e.arg % 64 < ps.length) → (∀ k ∈ ps, s1.engineRuns (part k).die = true) →
    let sectors (r : Nat) : Nat := if e.op = 0x13 ∧ r ≠ e.arg % 64 then 0 else (e.sizes ps.length).1 / 32
    s1.sourcesOf (ps.zip (List.range ps.length) |>.map (fun k => (k.1, part k.1, sectors k.2))) = (s2, .ok l) →
    s2.destsFault (ps.map (fun k => (k, (List.range ((e.sizes ps.length).2 / 32)).map (fun i => (entryOf (part k).entry).dst + 32 * i)))) = (s3, none) →
    ∃ t, Machine.exec (.collectiveMatch n) s = .next t ∧
      ∀ k ∈ ps, ∃ c', t.chains.get k = some c' ∧ c'.matched = true ∧ c'.todo = 0 ∧ c'.landed = [] ∧ c'.running = (part k).running)

/-- What the matrix engine does on its own (R255, R259 to R263, R268, R418). A fill's bytes stand in its slot with its tag. The first accepted operation that may start runs.
The one that runs completes: its accumulator holds what it computes and VERSION is one more; a verification that mismatches leaves VERSION.
`exec` answers a next state for `mfillComplete`, `matrixOpStart` and `matrixOpComplete`. -/
def Obligations.MatrixEvents : Prop :=
  let works (s : State) (c : Nat) : Prop := (s.die (dieOf c)).frozen = false ∧ ∀ k w, s.flow? (.wave c k) = some w → w.live ≠ 0
  (∀ (s : State) c n f, let m := (s.core c).engine
    works s c → m.fills[n]? = some f → m.fillReady n f = true → f.failure = none → ((s.core c).errInj.getD 5 0).getLsbD 63 = false →
    ∃ t v, Machine.exec (.mfillComplete c n) s = .next t ∧ (t.core c).engine.slot f.slot = v ∧ v.valid = true ∧
      v.bytes = Memory.write (m.slot f.slot).bytes (4096 * f.quarter) f.bytes ∧ v.tag = crc32c (Memory.read v.bytes 0 16384)) ∧
  (∀ (s : State) c n o first, let m := (s.core c).engine
    works s c → m.queue[n]? = some o → m.ready.head? = some first → o.seq = first.seq →
    let started (s0 : State) (bs : List Byte) : Prop :=
      ∃ t, Machine.exec (.matrixOpStart c n) s = .next t ∧ (∀ a, t.byte a = s0.byte a) ∧ (t.core c).engine.accs = (s0.core c).engine.accs ∧
        (t.core c).engine.queue = (s0.core c).engine.queue.map (fun x => if x.seq = o.seq then { x with running := true, data := bs } else x)
    (o.kind = .zero → started s []) ∧ (o.kind = .verify → started s []) ∧ (∀ g a p x d, o.kind = .drain g a p x d → started s []) ∧
    (∀ g a b, o.kind = .mma g a b → (∀ k ∈ o.reads, (m.slot k).valid = true) → started s []) ∧
    (∀ g a p i s0 bs, o.kind = .load g a p i → s.loadRows c (((m.acc o.acc).owner).getD 0) g a p = (s0, .ok bs) → started s0 bs)) ∧
  (∀ (s : State) c k o, let m := (s.core c).engine
    works s c → m.queue.find? (fun o => o.acc == k && o.running) = some o → ((s.core c).errInj.getD 6 0).getLsbD 63 = false →
    let a := m.acc k
    let checked := a.verified ((s.core c).tolerance a.fmtSeen)
    let completes (a' : Acc) : Prop :=
      ∃ t v, Machine.exec (.matrixOpComplete c k) s = .next t ∧ (t.core c).engine.acc k = v ∧ v.version = (a.version + 1) % 2 ^ 32 ∧ v.elems = a'.elems ∧ v.base = a'.base ∧
        v.replay = a'.replay ∧ v.mismatch = a'.mismatch ∧ ∀ x ∈ (t.core c).engine.queue, x.seq ≠ o.seq
    (o.kind = .zero → completes (a.zeroed.newChain .zero none)) ∧
    (∀ g x p i, o.kind = .load g x p i → completes ((a.loaded i o.data).newChain (.load g x p (crc32c o.data)) (some i))) ∧
    (∀ g x b, o.kind = .mma g x b → (∀ n ∈ o.reads, (m.slot n).badParity = []) → completes (m.afterMma o g x b)) ∧
    (∀ s', o.kind = .verify → checked.mismatch = false →
      (s.heldGate c o = (s', true) → completes checked) ∧ (s.heldGate c o = (s', false) → Machine.exec (.matrixOpComplete c k) s = .next s')) ∧
    (o.kind = .verify → checked.mismatch = true →
      ∃ t v, Machine.exec (.matrixOpComplete c k) s = .next t ∧ (t.core c).engine.acc k = v ∧ v.version = a.version ∧ v.mismatch = true ∧ v.rows = checked.rows ∧ v.cols = checked.cols) ∧
    (∀ g x p b r, o.kind = .drain g x p b r → checked.mismatch = false → Machine.exec (.matrixOpComplete c k) s = .next (s.drain c o checked g x p b)))

/-! ### Events: queues, launches and contexts (R165 to R167, R177 to R202, R208, R224, R226, R232 to R236, R439) -/

/-- What the firmware does with queues and launches: doorbells and mailbox records raise event bit 0 (R178, R185), packets are taken in their order (R178, R179, R186, R190), WAITs
and MARKs store their signals (R179), a tick raises event bit 3 and visits the queues (R439), an `ecall` is answered (R436); a launch's head is placed, or drains cores or
pre-empts images for it (R201, R202, R208).
`exec` answers a next state for `qdoorbell`, `hostMailboxRequest`, `launchPacket`, `waitPacket`, `markPacket`, `waitSatisfied`, `markSignal`, `stewardTick`, `ecallAnswer`,
`groupPlace`, `compactionDrainStart` and `preempt`. -/
def Obligations.QueueEvents : Prop :=
  let pends (t : State) (d k : Nat) : Prop := ∀ st < 4, ((t.die d).events.getD st 0).testBit k = true
  (∀ (s : State) d v, (s.barOpen d = true → ∃ t, Machine.exec (.qdoorbell d v) s = .next t ∧ pends t d 0 ∧ { t with dies := s.dies } = s) ∧
    (s.barOpen d = false → Machine.exec (.qdoorbell d v) s = .next s)) ∧
  (∀ (s : State) d r sv a b, (s.barOpen d = false → Machine.exec (.hostMailboxRequest d r sv a b) s = .next s) ∧
    (s.barOpen d = true → ∃ t, Machine.exec (.hostMailboxRequest d r sv a b) s = .next t ∧ pends t d 0 ∧ { t with dies := s.dies } = s ∧
      let m := (t.die d).mailbox
      let o := 32 * (r % 8)
      Memory.read m o 8 = bytesOfNat 8 a.toNat ∧ Memory.read m (o + 8) 8 = bytesOfNat 8 b.toNat ∧ Memory.read m (o + 24) 2 = [sv, 1])) ∧
  (∀ (s : State) d n q p, let s0 := s.rejectBad n
    s0.ready n = some (q, p) → q.die = d → p.type = 1 → s0.chosen n q = true →
    let s1 := s0.take n q p
    let id := s1.launches.free 1 s1.launches.length
    (∃ t, Machine.exec (.launchPacket d n) s = .next t) ∧
    ∀ x asid r st, s1.contexts.get q.context = some x → x.asid = some asid → s1.copyRecord d q.context asid p.addr = (r, st) →
      ∃ t l, Machine.exec (.launchPacket d n) s = .next t ∧ t.launches.get id = some l ∧ l.context = q.context ∧ l.queue = n ∧ l.packet = p.number ∧ l.record = r ∧
        l.count = r.groups ∧ l.next = 0 ∧ l.triggered = false ∧ l.signal = p.signal ∧ l.state = if st = 0 then .running else .failed) ∧
  (∀ (s : State) n q p, (s.rejectBad n).ready n = some (q, p) →
    (p.type = 2 → ∃ t q', Machine.exec (.waitPacket n) s = .next t ∧ t.queues.get n = some q' ∧ q'.rdidx = (q.rdidx + 1) % 2 ^ 64 ∧
      q'.held = some { packet := p.number, address := p.addr, threshold := p.arg, signal := p.signal }) ∧
    (p.type = 3 → ∃ t q', Machine.exec (.markPacket n) s = .next t ∧ t.queues.get n = some q' ∧ q'.rdidx = (q.rdidx + 1) % 2 ^ 64 ∧
      (p.signal.isSome = true → q'.marks = q.marks ++ [{ packet := p.number, address := 0, threshold := 0, signal := p.signal }]))) ∧
  (∀ (s : State) n q h x asid bs, s.queues.get n = some q → q.held = some h → s.contexts.get q.context = some x → x.asid = some asid → q.state = 1 →
    s.stewardRead q.die asid h.address 8 = some bs → h.threshold ≤ natOfBytes bs →
    let s1 := (s.touchRead q.die asid h.address 8).modQueue n (fun q => { q with held := none })
    (h.signal = none → Machine.exec (.waitSatisfied n) s = .next s1) ∧ ∀ va v, h.signal = some (va, v) → Machine.exec (.waitSatisfied n) s = .next (s1.signal n va v)) ∧
  (∀ (s : State) n q m va v, s.queues.get n = some q → q.marks.head? = some m → m.signal = some (va, v) →
    (∀ e ∈ s.launches, e.2.queue = n → e.2.packet < m.packet → e.2.open = false) →
    Machine.exec (.markSignal n) s = .next ((s.modQueue n (fun q => { q with marks := q.marks.drop 1 })).signal n va v)) ∧
  (∀ (s : State) d, let s0 : State := if d = s.clockDie then { s with now := s.now + 50 } else s
    pends (s0.raiseEvent d 3) d 3 ∧
    (s.firmwareRuns d = false → Machine.exec (.stewardTick d) s = .next (s0.raiseEvent d 3)) ∧
    (s.firmwareRuns d = true →
      let mailbox (s : State) (p : Nat → Bool) : State := (List.range 8).foldl (fun s k => s.serveMailbox d k p) s
      let s1 := mailbox (s0.raiseEvent d 3) (· != 0x22)
      let s2 := (s1.queues.filter (fun e => e.2.die == d)).foldl (fun s e => s.visit e.1) s1
      Machine.exec (.stewardTick d) s = .next (mailbox s2 (· == 0x22)))) ∧
  (∀ (s s1 : State) d r v c k x n a b site u w, (s.die d).requests.get r = some (.ecall (.wave c k) (some x) n a b site) →
    (s.servedAt d n a.toNat = false → Machine.exec (.ecallAnswer d r v) s = .next s) ∧
    (s.servedAt d n a.toNat = true →
      let s0 := s.modDie d (fun q => { q with requests := q.requests.del r })
      s0.service d (some x) n a.toNat b.toNat v.toNat = (s1, u) →
      (s1.core c).context = some x → (s1.core c).swapping = false → s1.flow? (.wave c k) = some w → w.park = some .ecall →
      (s0.die d).requests.get r = none ∧ Machine.exec (.ecallAnswer d r v) s = .next (s1.setFlow (.wave c k) { w with park := some (.answered (BitVec.ofNat 64 u)) }))) ∧
  (∀ (s : State) n l, s.launches.get n = some l →
    (let s0 := s.giveAsid l.context
     s0.placeable l = true →
      (∀ a, s0.scanHead l (s0.roomNow n l.context) = some a →
        ∃ t l', Machine.exec (.groupPlace n) s = .next t ∧ t.launches.get n = some l' ∧ l'.next = l.next + a.placed.length ∧ l'.placed = l.placed + a.placed.length ∧
          l'.units = a.units ∧ l'.waitingSince = none ∧ l'.count = l.count ∧ ∀ e ∈ t.dies, ∀ x, e.2.drain = some x → x.1 ≠ n) ∧
      (s0.scanHead l (s0.roomNow n l.context) = none →
        Machine.exec (.groupPlace n) s = .next (s0.modLaunch n (fun l => { l with waitingSince := some (l.waitingSince.getD s0.now) })))) ∧
    (∀ t0 a, s.placeable l = true → l.waitingSince = some t0 →
      ((s.die (s.servingDie l)).placeBound = 0 ∨ (s.die (s.servingDie l)).placeBound < s.now - t0) → s.scanHead l (s.roomCleared n l.context) = some a →
      let cores := (a.placed.map Prod.snd).dedup
      (∀ c ∈ cores, (s.die (dieOf c)).drain = none) →
      ∃ t, Machine.exec (.compactionDrainStart n) s = .next t ∧ { t with dies := s.dies } = s ∧
        (∀ c ∈ cores, (t.die (dieOf c)).drain = some (n, cores.filter (fun x => dieOf x == dieOf c))) ∧
        ∀ d, (∀ c ∈ cores, dieOf c ≠ d) → t.die d = s.die d) ∧
    (∀ a, s.placeable l = true → s.scanHead l (s.roomNow n l.context) = none → s.scanHead l (s.roomPreempted n l.context (s.aged l.prio l.readySince)) = some a →
      let victims := s.joined (((a.placed.map Prod.snd).dedup).filter (fun c => (s.core c).context.any (fun x => x != l.context))) 256
      (∀ c ∈ victims, ∀ d ∈ s.dies, ∀ x, d.2.drain = some x → c ∉ x.2) →
      ∃ t, Machine.exec (.preempt n) s = .next t ∧ { t with cores := s.cores, swaps := s.swaps } = s ∧
        (∀ c ∈ victims, (s.core c).context ≠ none → (t.core c).swapAsked = true ∨ (t.core c).swapping = true) ∧ ∀ c, c ∉ victims → t.core c = s.core c))

/-- What the firmware and the memory of a die do for contexts and pages: contexts are made and torn down (R165, R167), snapshots are taken and put back (R193, R194), faults are
dispatched (R226, R302, R472), walks set accessed and dirty bits and fill the TLB (R224, R227), the tiers count and move granules (R232 to R235), and scrubbing marks what it
finds (R469, R476).
`exec` answers a next state for `contextCreate`, `contextTeardown`, `snapshotCopy`, `stewardFaultDispatch`, `replayRestoreDone`, `pageWalkComplete`, `tierEpoch`,
`granuleMoveStart`, `granuleMoveComplete` and `scrubbing`. -/
def Obligations.ContextEvents : Prop :=
  (∀ (s : State) (c : NewContext), s.handles.contains c.handle = false → c.handle < 2 ^ 64 → 0 < c.asid → c.asid < 1024 → c.die < 4 → s.power = .running →
    (s.die c.die).fenceSelf = false → (∀ x ∈ s.contexts, x.2.asid = some c.asid → s.sparesAsid x.1 = true) →
    ∃ t x, Machine.exec (.contextCreate c) s = .next t ∧ t.contexts.get c.handle = some x ∧ x.asid = some c.asid ∧ x.state = .created ∧ x.root = c.root ∧ x.die = c.die ∧
      x.tvec = BitVec.ofNat 64 (c.tvec.toNat &&& tvecMask) ∧ (t.die c.die).keys.get c.handle = some (Config.contextKey s.fresh) ∧ x.areas = [] ∧ t.handles = s.handles ++ [c.handle] ∧
      (∀ k y, k ≠ c.handle → t.contexts.get k = some y → y.asid ≠ some c.asid) ∧
      ((∀ y ∈ s.contexts, y.2.asid ≠ some c.asid) → t.cores = s.cores ∧ ∀ k, k ≠ c.handle → t.contexts.get k = s.contexts.get k)) ∧
  (∀ (s : State) n x, s.contexts.get n = some x → x.state ≠ .dead →
    ∃ t y, Machine.exec (.contextTeardown n) s = .next t ∧ t.contexts.get n = some y ∧ y.state = .dead ∧ y.asid = none ∧ y.areas = [] ∧
      (∀ k q, t.queues.get k = some q → q.context ≠ n) ∧ (∀ e ∈ t.codes, e.2.context ≠ n) ∧ (∀ d, (t.die d).keys.get n = none) ∧ ∀ e ∈ t.wrapped, e.2.get n = none) ∧
  (∀ (s : State) n p l x asid, s.launches.get n = some l → s.contexts.get l.context = some x → x.asid = some asid → l.protectedPieces.contains p = true →
    (∃ d ∈ s.dies, ∃ e ∈ d.2.requests, ∃ y, snapAt l.context e.2 = some y ∧ y.2 / 65536 = p) →
    Machine.exec (.snapshotCopy n p) s = .next (s.serveWriters x.die l.context asid (p * 65536))) ∧
  (∀ (s : State) d k f ctx r nested choice, (s.die d).requests.get k = some (.fault f ctx r nested) → (s.die d).frozen = false →
    let s1 := s.modDie d (fun q => { q with requests := q.requests.del k })
    Machine.exec (.stewardFaultDispatch d k choice) s = .next (s1.dispatchFault d f ctx r nested choice) ∧
    ∀ c j x w, f = .wave c j → ctx = some x → (s.core c).context = some x → (s.core c).swapping = false → s.flow? f = some w → w.park = some .steward →
      r.code = 0x06 → r.sub < 6 → choice = .serve →
      ∃ t, Machine.exec (.stewardFaultDispatch d k choice) s = .next t ∧ t.flow? f = some { w with park := none } ∧ (t.die d).requests.get k = none) ∧
  (∀ (s : State) d k job ctx asid va sub choice, (s.die d).requests.get k = some (.engine job ctx asid va sub) → (s.die d).frozen = false →
    Machine.exec (.stewardFaultDispatch d k choice) s =
      .next ((s.modDie d (fun q => { q with requests := q.requests.del k })).dispatchEngine d job ctx asid va sub choice)) ∧
  (∀ (s : State) n l x asid, s.launches.get n = some l → l.state = .replaying → s.contexts.get l.context = some x → x.asid = some asid →
    (∀ t0, (l.snapshots = [] ∨ Config.snapshotReadable s.fresh = true) → s.restoreSnapshots n l x.die asid = some t0 →
      Machine.exec (.replayRestoreDone n) s = .next (State.modLaunch { t0 with fresh := s.fresh + 1 } n (fun l => { l with state := .running }))) ∧
    (((l.snapshots ≠ [] ∧ Config.snapshotReadable s.fresh = false) ∨ s.restoreSnapshots n l x.die asid = none) →
      Machine.exec (.replayRestoreDone n) s = .next (State.failLaunch { s with fresh := s.fresh + 1 } n 0x21))) ∧
  (∀ (s : State) d asid va wr entry base size pa pte, va < 2 ^ 48 → s.walk d asid va = .leaf entry base size pa pte →
    leafRefuses pte (if wr then .write else .read) (asid == 0) = none →
    ∃ t tl, Machine.exec (.pageWalkComplete d asid va wr) s = .next t ∧ (t.die d).tlb.head? = some tl ∧ tl.asid = asid ∧ tl.va = base ∧ tl.size = size ∧ tl.pa = pa ∧
      tl.pte = (pte ||| 0x40 ||| if wr then 0x80 else 0) ∧ (∀ a, a < entry ∨ entry + 8 ≤ a → t.byte a = s.byte a) ∧ ∀ f x l, varAt t f x l = varAt s f x l) ∧
  (∀ (s : State) d, (s.die d).tierEpoch ≠ 0 →
    ∃ t, Machine.exec (.tierEpoch d) s = .next t ∧ { t with dies := s.dies } = s ∧
      (t.die d).tiers = (((s.die d).tiers.map (fun e => (e.1, { e.2 with count := e.2.count / 2 }))).filter (fun e => e.2 != Granule.reset))) ∧
  (∀ (s : State) d n, n < 8388608 →
    let g := (s.die d).granule n
    (wantsOut g = true → ∃ t, Machine.exec (.granuleMoveStart d n) s = .next t ∧ (t.die d).granule n = { g with mig := true } ∧ ∀ k, k ≠ n → (t.die d).granule k = (s.die d).granule k) ∧
    (∀ f, wantsOut g = false → (s.die d).wantsIn g = true → (s.die d).freeFrame = some f →
      ∃ t, Machine.exec (.granuleMoveStart d n) s = .next t ∧ (t.die d).granule n = { g with mig := true, frame := f } ∧ ∀ k, k ≠ n → (t.die d).granule k = (s.die d).granule k) ∧
    (∀ v, wantsOut g = false → (s.die d).wantsIn g = true → (s.die d).freeFrame = none → (s.die d).victim = some v →
      ∃ t, Machine.exec (.granuleMoveStart d n) s = .next t ∧ (t.die d).granule v = { (s.die d).granule v with mig := true })) ∧
  (∀ (s : State) d n, let g := (s.die d).granule n
    g.mig = true → (∃ t, Machine.exec (.granuleMoveComplete d n) s = .next t ∧ ∀ l ∈ s.granulePoison d n,
      ((t.die d).errLogs.getD 1 ErrLog.reset).stat.getLsbD 63 = true ∧ ((t.die d).errLogs.getD 1 ErrLog.reset).stat.getLsbD 62 = true ∧ t.poison.contains l = true) ∧
    (s.granulePoison d n = [] → ∃ t, Machine.exec (.granuleMoveComplete d n) s = .next t ∧ (∀ a, t.byte a = s.byte a) ∧
      (g.inHbm = true → (t.die d).granule n = { g with mig := false, inHbm := false, frame := 0, dirty := false } ∧ (t.die d).tierOut = ((s.die d).tierOut + 1) % 2 ^ 32) ∧
      (g.inHbm = false → (t.die d).granule n = { g with mig := false, inHbm := true, dirty := false } ∧ (t.die d).tierIn = ((s.die d).tierIn + 1) % 2 ^ 32))) ∧
  (∀ (s : State) d a addr, (a < 6 →
      ∃ t, Machine.exec (.scrubbing d a addr) s = .next t ∧ ((t.die d).errLogs.getD a ErrLog.reset).stat.getLsbD 63 = true ∧
        ((t.die d).errLogs.getD a ErrLog.reset).stat.getLsbD 62 = true ∧ (a ≤ 1 → paSpace addr = 0 → addr < 2 ^ 52 → t.poison.contains (lineOf addr) = true)) ∧
    (6 ≤ a → a < 16 → ∃ t, Machine.exec (.scrubbing d a addr) s = .next t ∧ (t.die d).fenceSelf = true) ∧
    ∀ c k i j, scrubbedAt d a addr = .core c k i j → k < 10 →
      ∃ t, Machine.exec (.scrubbing d a addr) s = .next t ∧ ((t.core c).errLogs.getD k ErrLog.reset).stat.getLsbD 63 = true ∧
        ((t.core c).errLogs.getD k ErrLog.reset).stat.getLsbD 62 = true ∧ ∀ x, t.byte x = s.byte x)

/-! ### Events: links, power and what is outside (R110, R152, R166, R238 to R248, R303, R432, R438, R439, R457 to R462, R478 to R482, R495 to R501) -/

/-- The links: flits are accepted in order and refused ones are resent (R244), a port trains, fails to train, is fenced and unfenced (R245), and a die that every other die fences
off stops (R478, R303).
`exec` answers a next state for `flitReceive`, `nakResend`, `linkRetrain`, `linkTrainingEnd`, `linkTrainingTimeout`, `linkFence`, `linkUnfence`, `dieFenceOff` and
`monitorRelease`. -/
def Obligations.LinkEvents : Prop :=
  (∀ (s : State) d k good, let p := (s.die d).port k
    k < 6 → p.passes = true → s.sends d k = true → s.replayFull d k = false →
    (good = false → 8 ≤ p.refusals + b2n (!p.nak) → ∃ t, Machine.exec (.flitReceive d k good) s = .next t ∧ { t with dies := s.dies, fresh := s.fresh } = s ∧
      ((t.die d).port k).state = 1 ∧ ((t.die d).port k).retrains = min 65535 (p.retrains + 1) ∧ ((t.die d).errLogs.getD 5 ErrLog.reset).stat.getLsbD 63 = true ∧
      ∀ e j, farEnd d k = some (e, j) → ((t.die e).port j).state = 1) ∧
    ((good = false → p.refusals + b2n (!p.nak) < 8) → ∃ t, Machine.exec (.flitReceive d k good) s = .next t ∧ { t with dies := s.dies, fresh := s.fresh } = s ∧
      { (t.die d).port k with saved := 0 } = { (if p.nak then (if good then p else { p with crcErr := min 65535 (p.crcErr + 1) })
        else if good then { p with expected := p.expected + 1, refusals := 0, epoch := (p.expected + 1) / 4096 }
        else { p with crcErr := min 65535 (p.crcErr + 1), nak := true, refusals := p.refusals + 1 }) with saved := 0 } ∧
      (good = false → ((t.die d).errLogs.getD 5 ErrLog.reset).stat.getLsbD 63 = true) ∧
      ∀ e j, farEnd d k = some (e, j) → (t.die d).port k = { (t.die d).port k with saved := p.saved } ∧ ((t.die e).port j).sent = ((s.die e).port j).sent + 1 ∧
        (good = true → p.nak = false → ((t.die e).port j).acked = max ((s.die e).port j).acked (p.expected + 1) ∧
          ((t.die e).port j).saved = ((s.die e).port j).saved + (if ((s.die e).port j).coding then Config.flitSaved s.fresh % 53 else 0)))) ∧
  (∀ (s : State) d k, (farEnd d k = none → ∃ t, Machine.exec (.nakResend d k) s = .next t ∧ (t.die d).port k = { (s.die d).port k with nak := false }) ∧
    ∀ e j, farEnd d k = some (e, j) → ((s.die e).port j).nak = true →
      ∃ t, Machine.exec (.nakResend d k) s = .next t ∧ (t.die e).port j = { (s.die e).port j with nak := false } ∧
        (t.die d).port k = { (s.die d).port k with sent := ((s.die d).port k).acked }) ∧
  (∀ (s : State) d k, let p := (s.die d).port k
    ((p.retrain = true ∧ (p.state = 0 ∨ p.passes = true)) ∨ (p.passes = true ∧ 8 ≤ p.refusals)) →
    ∃ t, Machine.exec (.linkRetrain d k) s = .next t ∧ (t.die d).port k = p.train ∧ { t with dies := s.dies } = s ∧
      ∀ e j, farEnd d k = some (e, j) → (t.die e).port j = if ((s.die e).port j).passes then ((s.die e).port j).train else (s.die e).port j) ∧
  (∀ (s : State) d k, ((s.die d).port k).state = 1 →
    ((∀ e j, farEnd d k = some (e, j) → ((s.die e).port j).state = 1) →
      (∃ t, Machine.exec (.linkTrainingEnd d k .full) s = .next t ∧ ((t.die d).port k).state = 2 ∧ ((t.die d).port k).lanes = 8 ∧
        ∀ e j, farEnd d k = some (e, j) → ((t.die e).port j).state = 2) ∧
      ∃ t, Machine.exec (.linkTrainingEnd d k .half) s = .next t ∧ ((t.die d).port k).state = 3 ∧ ((t.die d).port k).lanes = 4 ∧
        ∀ e j, farEnd d k = some (e, j) → ((t.die e).port j).state = 3) ∧
    let s1 := s.dropPort d k 0
    ∀ i, i = Instr.linkTrainingTimeout d k ∨ i = .linkTrainingEnd d k .fail →
      ((∀ e, joinedDie d k = some e → s1.apart d e = false) → ∃ t, Machine.exec i s = .next t ∧ ((t.die d).port k).state = 0 ∧ ((t.die d).port k).lanes = 0 ∧
        ∀ e j, farEnd d k = some (e, j) → ((t.die e).port j).state ≠ 1) ∧
      ∀ e, joinedDie d k = some e → s1.apart d e = true → ∃ t x, Machine.exec i s = .next t ∧ (x = d ∨ x = e) ∧ (t.die x).fenceSelf = true) ∧
  (∀ (s : State) d k, ((s.die d).port k).fence = true → ((s.die d).port k).state ≠ 4 →
    ∃ t, Machine.exec (.linkFence d k) s = .next t ∧ ((t.die d).port k).state = 4 ∧ ((t.die d).port k).lanes = 0 ∧
      ∀ e j, farEnd d k = some (e, j) → ((t.die e).port j).passes = false ∧ ((t.die e).port j).state ≠ 1) ∧
  (∀ (s : State) d k, let p := (s.die d).port k
    p.fence = false → p.state = 4 → s.heldFenced d k = false →
    ∃ t, Machine.exec (.linkUnfence d k) s = .next t ∧
      (t.die d).port k = { p with state := 0, lanes := 0, retrain := false, sent := 0, acked := 0, expected := 0, refusals := 0, nak := false, epoch := 0 } ∧
      ∀ e j, farEnd d k = some (e, j) →
        (t.die e).port j = { (s.die e).port j with sent := 0, acked := 0, expected := 0, refusals := 0, nak := false, epoch := 0 }) ∧
  (∀ (s : State) d e, d ≠ e → d < 4 → e < 4 → (s.die d).fenceSelf = false →
    ((s.fenceOff d e).fencedOff e = false →
      ∃ t, Machine.exec (.dieFenceOff d e) s = .next t ∧ bit (t.die d).fenceOff e = true ∧ ((t.die d).port (portTo d e)).state = 4) ∧
    ((s.fenceOff d e).fencedOff e = true → ∃ t, Machine.exec (.dieFenceOff d e) s = .next t ∧ (t.die e).fenceSelf = true)) ∧
  (∀ (s : State) d, d < 4 → (s.die d).frozen = true → (s.die d).fenceSelf = false →
    ∃ t, Machine.exec (.monitorRelease d) s = .next t ∧ (t.die d).fenceSelf = true)

/-- Power and what reaches the module from outside: the host's writes and atomics (R152), register writes (R432), the management port (R439), attestation (R497), the Fox port and
trail records (R457, R460), the power cap (R498), the lifetime record (R482), the heartbeat (R438), reset and boot (R495, R496), and Burrow (R499 to R501).
`exec` answers a next state for `hostAtomicop`, `hostPostedWrite`, `registerWrite`, `managementPortMessage`, `spdmRequest`, `foxRead`, `trailRecord`, `powerSample`,
`lifetimeFold`, `supplyDroop`, `tempMinuteCount`, `heartbeatTimeout`, `moduleReset`, `bootTimeout`, `burrowEntry`, `burrowResume` and `capacityPowerLoss`. -/
def Obligations.OutsideEvents : Prop :=
  let pends (t : State) (d k : Nat) : Prop := ∀ st < 4, ((t.die d).events.getD st 0).testBit k = true
  (∀ (s : State) op n pa b c, (n = 4 ∨ n = 8) → hostReach pa n = true → s.power = .running → (s.die (paDie pa)).fenceSelf = false → s.poison.contains (lineOf pa) = false →
    s.ownedBytes pa n = false →
    (∀ v, hostAtomicNew op (8 * n) (natOfBytes (s.bytes pa n)) b c = some v →
      ∃ t, Machine.exec (.hostAtomicop op n pa b c) s = .next t ∧ t.bytes pa n = bytesOfNat n v ∧ ∀ a, a < pa ∨ pa + n ≤ a → t.byte a = (s.firstWrite pa n).byte a) ∧
    (hostAtomicNew op (8 * n) (natOfBytes (s.bytes pa n)) b c = none → Machine.exec (.hostAtomicop op n pa b c) s = .next s)) ∧
  (∀ (s : State) pa bs, pa < 2 ^ 52 → paDie pa < 4 → bs ≠ [] → s.power = .running → (s.die (paDie pa)).fenceSelf = false →
    ((paSpace pa = 0 ∧ paOffset pa + bs.length ≤ 2 ^ 39 ∧ s.ownedBytes pa bs.length = false) ∨
      (paSpace pa = 1 ∧ paOffset pa + bs.length ≤ 2 ^ 44 ∧ paDie pa % 2 = 0)) →
    let s0 : State := if paSpace pa = 0 then s.firstWrite pa bs.length else s
    ∃ t, Machine.exec (.hostPostedWrite pa bs) s = .next t ∧ t.bytes pa bs.length = bs ∧ (∀ a, a < pa ∨ pa + bs.length ≤ a → t.byte a = s0.byte a) ∧
      ∀ f x l, varAt t f x l = varAt s f x l) ∧
  (∀ (s : State) pa bs, pa < 2 ^ 52 → ((paSpace pa < 2 ∧ (s.die (paDie pa)).fenceSelf = true) ∨ (paSpace pa = 2 ∧ s.barOpen (paDie pa) = false)) →
    Machine.exec (.hostPostedWrite pa bs) s = .next s) ∧
  (∀ (s : State) d off n v, (n = 4 ∨ n = 8) → off % n = 0 → d < 4 → off < 2 ^ 44 → (s.die d).fenceSelf = false →
    Machine.exec (.registerWrite d off n v) s = .next (s.devStore (d * 2 ^ 46 + 2 * 2 ^ 44 + off) (bytesOfNat n v.toNat))) ∧
  (∀ (s : State) d m, s.managed d = false → Machine.exec (.managementPortMessage d m) s = .next s) ∧
  (∀ (s : State) d, s.managed d = true →
    (∃ t, Machine.exec (.managementPortMessage d .other) s = .next t ∧ pends t d 2 ∧ { t with dies := s.dies, mgmtOut := s.mgmtOut } = s ∧
      (s.power = .running → t.mgmtOut = s.mgmtOut)) ∧
    (s.power = .safeTalkative → ∃ t, Machine.exec (.managementPortMessage d .other) s = .next t ∧
      ∀ x ∈ s.survivors, ∀ u ∈ s.selfTest, (x, 0x400, u.die) ∈ t.mgmtOut ∧ (x, 0x401, u.unit) ∈ t.mgmtOut ∧ (x, 0x402, u.index) ∈ t.mgmtOut ∧ (x, 0x403, u.code) ∈ t.mgmtOut) ∧
    (∀ k pk, k < 8 → ∃ t, Machine.exec (.managementPortMessage d (.key k pk)) s = .next t ∧ pends t d 2 ∧ t.signers.get k = some ((s.signers.get k).getD pk)) ∧
    (∀ v, ∃ t, Machine.exec (.managementPortMessage d (.raiseSvn v)) s = .next t ∧ ∀ e < 4, (t.die e).monitor.svn = some (max v (s.fuse e))) ∧
    (∀ bs, s.awaitsImage = false → ∃ t, Machine.exec (.managementPortMessage d (.offer bs)) s = .next t ∧ pends t d 2 ∧ t.offered = some bs) ∧
    (∀ e st a, e < 4 → st < 4 → (s.die e).fenceSelf = false → s.power = .running →
      ∃ t w, Machine.exec (.managementPortMessage d (.startFlow e st a)) s = .next t ∧ pends t d 2 ∧ t.flow? (.steward e st) = some w ∧ w.live = 1 ∧
        w.position 0 = (a % 2 ^ 48, 0) ∧ w.clause = none ∧ w.park = none)) ∧
  (∀ (s : State) n v, let d := if (s.die 0).fenceSelf then 1 else 0
    s.measurement d n = some v → ∃ t, Machine.exec (.spdmRequest n) s = .next t ∧ t.mgmtOut = s.mgmtOut ++ [(d, 0x200 + n, v)] ∧ { t with mgmtOut := s.mgmtOut } = s) ∧
  (∀ (s : State) d c k i, let r := s.foxValue (64 * d + c % 64) k i
    ∃ t, Machine.exec (.foxRead d c k i) s = .next t ∧ { t with mgmtOut := s.mgmtOut, fresh := s.fresh } = s ∧
      t.mgmtOut = s.mgmtOut ++ (if Config.sessionAdmitted s.fresh = true then [(d, 0x100 + r.1, r.2)] else [])) ∧
  (∀ (s : State) c n r g w, let q := s.core c
    q.trailTags.get n = some g → q.waves.get g.slot = some w →
    (g.back w = false → Machine.exec (.trailRecord c n r) s = .next s) ∧
    (g.back w = true → q.trailBuf.length < 31 →
      ∃ t, Machine.exec (.trailRecord c n r) s = .next t ∧ (t.core c).trailBuf = q.trailBuf ++ [trailBytes c q.asid q.trailSerial g r] ∧
        (t.core c).trailSerial = (q.trailSerial + 1) % 2 ^ 32 ∧ (t.core c).trailTags.get n = none ∧ { t with cores := s.cores } = s)) ∧
  (∀ (s : State) d w, (s.power = .running ∨ s.power = .entering ∨ s.power = .resuming) → let q := s.die d
    ∃ t, Machine.exec (.powerSample d w) s = .next t ∧ { t with dies := s.dies } = s ∧
      (q.capW < w → 1000 < q.clock → (t.die d).clock = max 1000 (q.clock - 50) ∧ (t.die d).lowered = min 65535 (q.lowered + 1)) ∧
      (w ≤ q.capW → w * 100 < 95 * q.capW → (t.die d).clock = min 2000 (q.clock + 50) ∧ (t.die d).lowered = q.lowered) ∧
      (w ≤ q.capW → 95 * q.capW ≤ w * 100 → t.die d = q)) ∧
  (∀ (s : State) d, s.dieOn d = false → Machine.exec (.lifetimeFold d) s = .next s ∧ Machine.exec (.supplyDroop d) s = .next s ∧
    (∀ c, Machine.exec (.tempMinuteCount d c) s = .next s) ∧ Machine.exec (.heartbeatTimeout d) s = .next s) ∧
  (∀ (s : State) d, s.dieOn d = true → ((s.die d).frozen = false → ∃ t, Machine.exec (.lifetimeFold d) s = .next t ∧ (t.die d).counters = LifeCounters.reset ∧
      (∀ m bs, newestCopy (((s.die d).lifetime ++ [[], []]).take 2) = some (m, bs) → (t.die d).lifetime.getD m [] = bs) ∧
      ∀ k < 6, ((t.die d).port k).retrains = 0 ∧ ((t.die d).port k).degrades = 0 ∧ ((t.die d).port k).state = ((s.die d).port k).state) ∧
    (∃ t, Machine.exec (.supplyDroop d) s = .next t ∧ (t.die d).counters = { (s.die d).counters with droop := (s.die d).counters.droop + 1 }) ∧
    ∀ c, ∃ t, Machine.exec (.tempMinuteCount d c) s = .next t ∧
      (t.die d).counters.temp.getD (min 15 (c / 8)) 0 = (s.die d).counters.temp.getD (min 15 (c / 8)) 0 + 1) ∧
  (∀ (s : State) d n, (s.die d).monitor.heartbeat = some n → s.dieOn d = true →
    ∃ t, Machine.exec (.heartbeatTimeout d) s = .next t ∧ (t.die d).monitor.running = (s.die d).monitor.previous ∧ (t.die d).monitor.heartbeat = none ∧ pends t d 4 ∧
      t.mgmtOut = s.mgmtOut ++ [(d, 2, (s.die d).monitor.previous)]) ∧
  (∀ (s : State), (∃ t, Machine.exec (.moduleReset [] none) s = .next t ∧ t.mem = [] ∧ t.contexts = [] ∧ t.cores = [] ∧ t.queues = [] ∧ t.launches = [] ∧ t.power = .running ∧
      t.isles = s.isles ∧ t.bootSlot = s.bootSlot) ∧
    (∀ bs, Machine.exec (.moduleReset [] (some bs)) s = .next (s.afterReset.boot (some bs))) ∧
    (∀ u v : UnitFailure, u.die < 4 → v.die < 4 → u.die ≠ v.die →
      ∃ t, Machine.exec (.moduleReset [u, v] none) s = .next t ∧ t.power = .safeTalkative ∧ t.selfTest = [u, v]) ∧
    (s.awaitsImage = true → s.isles = [] → ∃ t, Machine.exec .bootTimeout s = .next t ∧ t.power = .safeTalkative) ∧
    (s.awaitsImage = true → Machine.exec .bootTimeout s = .next (s.boot none)) ∧
    (∀ s0 : State, ((s.power = .running ∧ s0 = s.quietQueues) ∨ (s.power = .resuming ∧ s0 = s)) →
      (s0.leaveCores.quiet = true → ∃ t, Machine.exec .burrowEntry s = .next t ∧ t.power = .burrow ∧
        ∀ d < 4, (t.die d).keys = [] ∧ t.wrapped.get d = some (wrapKeys d (s0.die d).keys)) ∧
      (s0.leaveCores.quiet = false → ∃ t, Machine.exec .burrowEntry s = .next t ∧ t.power = .entering ∧
        ∀ k x, s0.contexts.get k = some x → (x.state = .created ∨ x.state = .live) → (t.contexts.get k).map (fun y => y.state) = some .burrowed)) ∧
    (s.power = .burrow → (∀ bad, ∃ t, Machine.exec (.burrowResume bad) s = .next t ∧ t.power = .resuming ∧ t.wrapped = [] ∧
        (bad = [] → ∀ d q, s.dies.get d = some q → q.fenceSelf = false → (t.die d).keys = wrapKeys d (s.wrapped.getD d []))) ∧
      ∃ t, Machine.exec .capacityPowerLoss s = .next t ∧ t.contexts = [] ∧ t.mem = [] ∧ (t.power = .running ∨ t.power = .safeTalkative)) ∧
    (s.power = .resuming → ∀ bad, ∃ t, Machine.exec (.burrowResume bad) s = .next t ∧ t.power = .running ∧
      ∀ n q, s.queues.get n = some q → q.saved = some 1 → (s.contexts.get q.context).any (fun x => x.state == .faulted) = false →
        ∃ q', t.queues.get n = some q' ∧ q'.state = 1 ∧ q'.saved = none))
end
end

