-- ==== Sys2Proof/Laws/Masks.lean ====
section
/-! SUPPORT. Laws of lane masks: the lanes of a mask, its lowest lane, and the mask of a list. -/

namespace Sys2Proof.LaneMask

@[simp] theorem mem_toList (m : LaneMask) (l : Nat) : l ∈ toList m ↔ m.getLsbD l = true := by
  simp only [toList, List.mem_filter, List.mem_range, and_iff_right_iff_imp]
  exact fun h => BitVec.lt_of_getLsbD h

theorem lt_of_mem (m : LaneMask) (l : Nat) (h : l ∈ toList m) : l < 64 := BitVec.lt_of_getLsbD ((mem_toList m l).1 h)

theorem nodup_toList (m : LaneMask) : (toList m).Nodup := List.nodup_range.filter _

theorem toList_ne_nil (m : LaneMask) (h : m ≠ 0) : toList m ≠ [] := by
  intro hn
  apply h
  apply BitVec.eq_of_getLsbD_eq
  intro i hi
  have : i ∉ toList m := by rw [hn]; simp
  rw [mem_toList] at this
  simpa using this

theorem lowest_mem (m : LaneMask) (h : m ≠ 0) : lowest m ∈ toList m := by
  unfold lowest lowest?
  cases ht : toList m with
  | nil => exact absurd ht (toList_ne_nil m h)
  | cons a t => simp

theorem getLsbD_lowest (m : LaneMask) (h : m ≠ 0) : m.getLsbD (lowest m) = true := (mem_toList m _).1 (lowest_mem m h)

theorem lowest_lt (m : LaneMask) : lowest m < 64 := by
  by_cases h : m = 0
  · subst h; decide
  · exact lt_of_mem m _ (lowest_mem m h)

theorem getLsbD_single (k l : Nat) (hk : k < 64) : (single k).getLsbD l = decide (k = l) := by
  unfold single
  rw [BitVec.getLsbD_ofNat]
  by_cases h : k = l
  · subst h; simp [hk, Nat.testBit_two_pow_self]
  · simp [h, Nat.testBit_two_pow_of_ne h]

theorem getLsbD_foldl_or (ls : List Nat) (m : LaneMask) (h : ∀ k ∈ ls, k < 64) (l : Nat) :
    (ls.foldl (fun m k => m ||| single k) m).getLsbD l = (m.getLsbD l || decide (l ∈ ls)) := by
  induction ls generalizing m with
  | nil => simp
  | cons a ls ih =>
    rw [List.foldl_cons, ih _ (fun k hk => h k (List.mem_cons_of_mem _ hk))]
    rw [BitVec.getLsbD_or, getLsbD_single a l (h a (by simp))]
    by_cases hal : a = l
    · subst hal; simp
    · have : l ≠ a := fun e => hal e.symm
      simp [hal, this]

/-- A lane is in the mask of a list of lanes exactly when it is in the list. -/
theorem getLsbD_ofList (ls : List Nat) (h : ∀ k ∈ ls, k < 64) (l : Nat) : (ofList ls).getLsbD l = decide (l ∈ ls) := by
  rw [ofList, getLsbD_foldl_or ls 0 h l]; simp

/-- A mask is the mask of its lanes. -/
@[simp] theorem ofList_toList (m : LaneMask) : ofList (toList m) = m := by
  apply BitVec.eq_of_getLsbD_eq
  intro i hi
  rw [getLsbD_ofList _ (fun k hk => lt_of_mem m k hk)]
  by_cases h : m.getLsbD i = true <;> simp [h]

end Sys2Proof.LaneMask
end

