-- ==== Sys2Proof/Laws/Tab.lean ====
section
/-! SUPPORT. Laws of tables by number: reading after a change, and the order of keys. No law needs the keys to rise. -/

namespace Sys2Proof.Machine

variable {α β : Type}

@[simp] theorem Tab.get_nil (k : Nat) : Tab.get ([] : Tab α) k = none := rfl

theorem Tab.get_cons (j k : Nat) (v : α) (t : Tab α) : Tab.get ((j, v) :: t) k = if j = k then some v else Tab.get t k := rfl

@[simp] theorem Tab.get_set_self (t : Tab α) (k : Nat) (v : α) : Tab.get (Tab.set t k v) k = some v := by
  induction t with
  | nil => simp [Tab.set, Tab.get]
  | cons e t ih =>
    obtain ⟨j, w⟩ := e
    simp only [Tab.set]
    split
    · simp [Tab.get]
    · split
      · simp [Tab.get]
      · rename_i h1 h2
        simp [Tab.get, h2, ih]

theorem Tab.get_set_ne (t : Tab α) {k k' : Nat} (v : α) (h : k ≠ k') : Tab.get (Tab.set t k v) k' = Tab.get t k' := by
  induction t with
  | nil => simp [Tab.set, Tab.get, h]
  | cons e t ih =>
    obtain ⟨j, w⟩ := e
    simp only [Tab.set]
    split
    · simp [Tab.get, h]
    · split
      · rename_i h1 h2
        subst h2
        simp [Tab.get, h]
      · simp only [Tab.get, ih]

theorem Tab.get_set (t : Tab α) (k k' : Nat) (v : α) : Tab.get (Tab.set t k v) k' = if k = k' then some v else Tab.get t k' := by
  by_cases h : k = k'
  · subst h; simp
  · simp [h, Tab.get_set_ne t v h]

@[simp] theorem Tab.getD_set_self (t : Tab α) (k : Nat) (v d : α) : Tab.getD (Tab.set t k v) k d = v := by simp [Tab.getD]

theorem Tab.getD_set_ne (t : Tab α) {k k' : Nat} (v d : α) (h : k ≠ k') : Tab.getD (Tab.set t k v) k' d = Tab.getD t k' d := by
  simp [Tab.getD, Tab.get_set_ne t v h]

theorem Tab.getD_set (t : Tab α) (k k' : Nat) (v d : α) : Tab.getD (Tab.set t k v) k' d = if k = k' then v else Tab.getD t k' d := by
  by_cases h : k = k'
  · subst h; simp
  · simp [h, Tab.getD_set_ne t v d h]

@[simp] theorem Tab.get_del_self (t : Tab α) (k : Nat) : Tab.get (Tab.del t k) k = none := by
  induction t with
  | nil => rfl
  | cons e t ih =>
    obtain ⟨j, w⟩ := e
    simp only [Tab.del]
    split
    · exact ih
    · rename_i h
      simp [Tab.get, h, ih]

theorem Tab.get_del_ne (t : Tab α) {k k' : Nat} (h : k ≠ k') : Tab.get (Tab.del t k) k' = Tab.get t k' := by
  induction t with
  | nil => rfl
  | cons e t ih =>
    obtain ⟨j, w⟩ := e
    simp only [Tab.del]
    split
    · rename_i h1
      subst h1
      simp [Tab.get, h, ih]
    · simp only [Tab.get, ih]

theorem Tab.getD_del (t : Tab α) (k k' : Nat) (d : α) : Tab.getD (Tab.del t k) k' d = if k = k' then d else Tab.getD t k' d := by
  by_cases h : k = k'
  · subst h; simp [Tab.getD]
  · simp [h, Tab.getD, Tab.get_del_ne t h]

@[simp] theorem Tab.get_upd_self (t : Tab α) (k : Nat) (f : α → α) : Tab.get (Tab.upd t k f) k = (Tab.get t k).map f := by
  unfold Tab.upd
  split
  · rename_i v h; simp [h]
  · rename_i h; simp [h]

theorem Tab.get_upd_ne (t : Tab α) {k k' : Nat} (f : α → α) (h : k ≠ k') : Tab.get (Tab.upd t k f) k' = Tab.get t k' := by
  unfold Tab.upd
  split
  · exact Tab.get_set_ne t _ h
  · rfl

/-- A value read is the value of an entry of the table. -/
theorem Tab.mem_of_get (t : Tab α) (k : Nat) (v : α) (h : Tab.get t k = some v) : (k, v) ∈ t := by
  induction t with
  | nil => cases h
  | cons e t ih =>
    obtain ⟨j, w⟩ := e
    simp only [Tab.get] at h
    split at h
    · rename_i hj
      subst hj
      cases h
      simp
    · exact List.mem_cons_of_mem _ (ih h)

theorem Tab.mem_set (t : Tab α) (k : Nat) (v : α) (e : Nat × α) (h : e ∈ Tab.set t k v) : e = (k, v) ∨ e ∈ t := by
  induction t with
  | nil => simpa [Tab.set] using h
  | cons a t ih =>
    obtain ⟨j, w⟩ := a
    simp only [Tab.set] at h
    split at h
    · simpa using h
    · split at h
      · rcases List.mem_cons.1 h with h | h
        · exact .inl h
        · exact .inr (List.mem_cons_of_mem _ h)
      · rcases List.mem_cons.1 h with h | h
        · exact .inr (by simp [h])
        · rcases ih h with h | h
          · exact .inl h
          · exact .inr (List.mem_cons_of_mem _ h)

theorem Tab.mem_del (t : Tab α) (k : Nat) (e : Nat × α) (h : e ∈ Tab.del t k) : e ∈ t := by
  induction t with
  | nil => exact h
  | cons a t ih =>
    obtain ⟨j, w⟩ := a
    simp only [Tab.del] at h
    split at h
    · exact List.mem_cons_of_mem _ (ih h)
    · rcases List.mem_cons.1 h with h | h
      · simp [h]
      · exact List.mem_cons_of_mem _ (ih h)

/-- Keys rise where each is below every later one. -/
theorem Tab.sorted_cons (j : Nat) (v : α) (t : Tab α) : Tab.sorted ((j, v) :: t) = true ↔ (∀ e ∈ t, j < e.1) ∧ Tab.sorted t = true := by
  induction t generalizing j v with
  | nil => simp [Tab.sorted]
  | cons a t ih =>
    obtain ⟨k, w⟩ := a
    simp only [Tab.sorted, Bool.and_eq_true, decide_eq_true_eq, List.mem_cons, forall_eq_or_imp]
    rw [ih k w]
    constructor
    · rintro ⟨h, h', hs⟩
      exact ⟨⟨h, fun e he => Nat.lt_trans h (h' e he)⟩, h', hs⟩
    · rintro ⟨⟨h, _⟩, h', hs⟩
      exact ⟨h, h', hs⟩

theorem Tab.sorted_set (t : Tab α) (k : Nat) (v : α) (h : Tab.sorted t = true) : Tab.sorted (Tab.set t k v) = true := by
  induction t with
  | nil => rfl
  | cons a t ih =>
    obtain ⟨j, w⟩ := a
    obtain ⟨hj, ht⟩ := (Tab.sorted_cons j w t).1 h
    simp only [Tab.set]
    split
    · rename_i hk
      refine (Tab.sorted_cons k v _).2 ⟨fun e he => ?_, h⟩
      rcases List.mem_cons.1 he with rfl | he
      · exact hk
      · exact Nat.lt_trans hk (hj e he)
    · split
      · rename_i hk
        subst hk
        exact (Tab.sorted_cons _ v t).2 ⟨hj, ht⟩
      · rename_i h1 h2
        refine (Tab.sorted_cons j w _).2 ⟨fun e he => ?_, ih ht⟩
        rcases Tab.mem_set t k v e he with rfl | he
        · simp only; omega
        · exact hj e he

theorem Tab.sorted_del (t : Tab α) (k : Nat) (h : Tab.sorted t = true) : Tab.sorted (Tab.del t k) = true := by
  induction t with
  | nil => rfl
  | cons a t ih =>
    obtain ⟨j, w⟩ := a
    obtain ⟨hj, ht⟩ := (Tab.sorted_cons j w t).1 h
    simp only [Tab.del]
    split
    · exact ih ht
    · exact (Tab.sorted_cons j w _).2 ⟨fun e he => hj e (Tab.mem_del t k e he), ih ht⟩

theorem Tab.get_keep (t : Tab α) (p : Nat → α → Bool) (hp : ∀ k v w, p k v = p k w) (k : Nat) (d : α) :
    Tab.get (Tab.keep t p) k = if p k d then Tab.get t k else none := by
  induction t with
  | nil => simp [Tab.keep]
  | cons a t ih =>
    obtain ⟨j, w⟩ := a
    simp only [Tab.keep, List.filter_cons] at ih ⊢
    by_cases hj : j = k
    · subst hj
      by_cases h : p j w
      · have : p j d = true := by rw [hp j d w]; exact h
        simp [h, Tab.get, this]
      · have : p j d = false := by rw [hp j d w]; simpa using h
        simp only [h, Bool.false_eq_true, if_false]
        rw [ih]
        simp [this]
    · by_cases h : p j w
      · simp only [h, if_true, Tab.get, hj, if_false]
        exact ih
      · simp only [h, Bool.false_eq_true, if_false, Tab.get, hj]
        exact ih

theorem Tab.get_mapVal (t : Tab α) (f : Nat → α → β) (k : Nat) : Tab.get (Tab.mapVal t f) k = (Tab.get t k).map (f k) := by
  induction t with
  | nil => rfl
  | cons a t ih =>
    obtain ⟨j, w⟩ := a
    simp only [Tab.mapVal, List.map_cons, Tab.get] at ih ⊢
    split
    · rename_i h; subst h; rfl
    · exact ih

end Sys2Proof.Machine
end

