-- ==== Sys2Proof/Laws/Memory.lean ====
section
/-! SUPPORT. Laws of memory: what a byte reads after a write, and its canonical form (log 1). -/

namespace Sys2Proof.Machine

theorem Memory.getD_setByte (m : Tab Byte) (a a' : Nat) (v : Byte) :
    Tab.getD (Memory.setByte m a v) a' 0 = if a = a' then v else Tab.getD m a' 0 := by
  unfold Memory.setByte
  split
  · rename_i hv; rw [Tab.getD_del, hv]
  · rw [Tab.getD_set]

@[simp] theorem State.byte_setByte_self (s : State) (a : Nat) (v : Byte) : (s.setByte a v).byte a = v := by
  show Tab.getD (Memory.setByte s.mem a v) a 0 = v
  rw [Memory.getD_setByte, if_pos rfl]

theorem State.byte_setByte_ne (s : State) {a a' : Nat} (v : Byte) (h : a ≠ a') : (s.setByte a v).byte a' = s.byte a' := by
  show Tab.getD (Memory.setByte s.mem a v) a' 0 = Tab.getD s.mem a' 0
  rw [Memory.getD_setByte, if_neg h]

/-- A byte after a write of bytes: inside the bytes written it is the byte that stands there, outside it is what it was. -/
theorem Memory.getD_write (m : Tab Byte) (a : Nat) (bs : List Byte) (a' : Nat) :
    Tab.getD (Memory.write m a bs) a' 0 = if a ≤ a' ∧ a' < a + bs.length then (bs[a' - a]?).getD 0 else Tab.getD m a' 0 := by
  induction bs generalizing m a with
  | nil =>
    have : ¬ (a ≤ a' ∧ a' < a + ([] : List Byte).length) := by simp
    rw [if_neg this]
    rfl
  | cons b bs ih =>
    simp only [Memory.write, List.length_cons]
    rw [ih]
    by_cases h : a + 1 ≤ a' ∧ a' < a + 1 + bs.length
    · have h' : a ≤ a' ∧ a' < a + (bs.length + 1) := by omega
      rw [if_pos h, if_pos h']
      obtain ⟨n, hn⟩ : ∃ n, a' - a = n + 1 := ⟨a' - a - 1, by omega⟩
      have : a' - (a + 1) = n := by omega
      simp [hn, this]
    · rw [if_neg h, Memory.getD_setByte]
      by_cases he : a = a'
      · subst he; simp
      · have h' : ¬ (a ≤ a' ∧ a' < a + (bs.length + 1)) := by omega
        rw [if_neg h', if_neg he]

/-- Outside the bytes written a byte reads as before. -/
theorem State.byte_setBytes_ne (s : State) (a : Nat) (bs : List Byte) (a' : Nat) (h : a' < a ∨ a + bs.length ≤ a') :
    (s.setBytes a bs).byte a' = s.byte a' := by
  have : ¬ (a ≤ a' ∧ a' < a + bs.length) := by omega
  show Tab.getD (Memory.write s.mem a bs) a' 0 = Tab.getD s.mem a' 0
  rw [Memory.getD_write, if_neg this]

/-- Bytes read where they were written are the bytes written. -/
theorem State.bytes_setBytes_self (s : State) (a : Nat) (bs : List Byte) : (s.setBytes a bs).bytes a bs.length = bs := by
  apply List.ext_getElem
  · simp [State.bytes, Memory.read]
  · intro n h1 h2
    simp only [State.bytes, Memory.read, List.getElem_map, List.getElem_range, State.setBytes, Memory.getD_write]
    have : a ≤ a + n ∧ a + n < a + bs.length := by omega
    rw [if_pos this]
    simp [h2]

@[simp] theorem State.length_bytes (s : State) (a n : Nat) : (s.bytes a n).length = n := by simp [State.bytes, Memory.read]

/-- Bytes read apart from the bytes written are what they were. -/
theorem State.bytes_setBytes_apart (s : State) (a : Nat) (bs : List Byte) (a' n : Nat) (h : a' + n ≤ a ∨ a + bs.length ≤ a') :
    (s.setBytes a bs).bytes a' n = s.bytes a' n := by
  apply List.ext_getElem
  · simp
  · intro k h1 h2
    simp only [State.length_bytes] at h1
    have := State.byte_setBytes_ne s a bs (a' + k) (by omega)
    simpa [State.bytes, Memory.read, State.byte] using this

/-- The canonical form says that keys rise and no byte listed is zero. -/
theorem Memory.wf_iff (m : Tab Byte) : Memory.wf m = true ↔ Tab.sorted m = true ∧ ∀ e ∈ m, e.2 ≠ 0 := by
  simp [Memory.wf]

theorem Memory.wf_setByte (m : Tab Byte) (a : Nat) (v : Byte) (h : Memory.wf m = true) : Memory.wf (Memory.setByte m a v) = true := by
  obtain ⟨hs, hz⟩ := (Memory.wf_iff m).1 h
  unfold Memory.setByte
  split
  · exact (Memory.wf_iff _).2 ⟨Tab.sorted_del m a hs, fun e he => hz e (Tab.mem_del m a e he)⟩
  · rename_i hv
    refine (Memory.wf_iff _).2 ⟨Tab.sorted_set m a v hs, fun e he => ?_⟩
    rcases Tab.mem_set m a v e he with rfl | he
    · exact hv
    · exact hz e he

theorem Memory.wf_write (m : Tab Byte) (a : Nat) (bs : List Byte) (h : Memory.wf m = true) : Memory.wf (Memory.write m a bs) = true := by
  induction bs generalizing m a with
  | nil => exact h
  | cons b bs ih => exact ih _ _ (Memory.wf_setByte m a b h)

/-- Two lists in the same canonical form that read alike are equal. -/
theorem Memory.eq_of_reads (m n : Tab Byte) (hm : Memory.wf m = true) (hn : Memory.wf n = true) (h : ∀ a, Tab.getD m a 0 = Tab.getD n a 0) : m = n := by
  induction m generalizing n with
  | nil =>
    cases n with
    | nil => rfl
    | cons e n =>
      obtain ⟨j, w⟩ := e
      have hw := ((Memory.wf_iff _).1 hn).2 (j, w) (by simp)
      have := h j
      simp [Tab.getD, Tab.get] at this
      exact absurd this.symm hw
  | cons e m ih =>
    obtain ⟨j, v⟩ := e
    obtain ⟨hms, hmz⟩ := (Memory.wf_iff _).1 hm
    obtain ⟨hj, hmt⟩ := (Tab.sorted_cons j v m).1 hms
    have hv : v ≠ 0 := hmz (j, v) (by simp)
    cases n with
    | nil =>
      have := h j
      simp [Tab.getD, Tab.get] at this
      exact absurd this hv
    | cons e n =>
      obtain ⟨k, w⟩ := e
      obtain ⟨hns, hnz⟩ := (Memory.wf_iff _).1 hn
      obtain ⟨hk, hnt⟩ := (Tab.sorted_cons k w n).1 hns
      have hw : w ≠ 0 := hnz (k, w) (by simp)
      have none_below : ∀ (t : Tab Byte) (b : Nat), (∀ e ∈ t, b < e.1) → Tab.get t b = none := by
        intro t b hb
        cases hg : Tab.get t b with
        | none => rfl
        | some x => exact absurd (hb _ (Tab.mem_of_get t b x hg)) (Nat.lt_irrefl b)
      have hjk : j = k := by
        rcases Nat.lt_trichotomy j k with hlt | heq | hgt
        · have := h j
          have hne : k ≠ j := by omega
          simp only [Tab.getD, Tab.get, if_true, hne, if_false, Option.getD_some] at this
          rw [none_below n j (fun e he => Nat.lt_trans hlt (hk e he))] at this
          exact absurd this hv
        · exact heq
        · have := h k
          have hne : j ≠ k := by omega
          simp only [Tab.getD, Tab.get, if_true, hne, if_false, Option.getD_some] at this
          rw [none_below m k (fun e he => Nat.lt_trans hgt (hj e he))] at this
          exact absurd this.symm hw
      subst hjk
      have hvw : v = w := by
        have := h j
        simpa [Tab.getD, Tab.get] using this
      subst hvw
      have : m = n := by
        refine ih n ((Memory.wf_iff m).2 ⟨hmt, fun e he => hmz e (List.mem_cons_of_mem _ he)⟩)
          ((Memory.wf_iff n).2 ⟨hnt, fun e he => hnz e (List.mem_cons_of_mem _ he)⟩) (fun a => ?_)
        have := h a
        by_cases ha : j = a
        · subst ha
          simp [Tab.getD, none_below m j hj, none_below n j hk]
        · simpa [Tab.getD, Tab.get, ha] using this
      rw [this]

@[simp] theorem State.wf_reset : Memory.wf State.reset.mem = true := rfl

end Sys2Proof.Machine
end

