-- ==== Sys2Proof/Laws/State.lean ====
section
/-! SUPPORT. Laws of the state: each field after each plain update, and the parts of the state after a change of one part. -/

namespace Sys2Proof.Machine

variable (s : State)

/-! ### One law for each field of each update -/

@[simp] theorem State.mem_setCore (c : Nat) (k : Core) : (s.setCore c k).mem = s.mem := rfl
@[simp] theorem State.poison_setCore (c : Nat) (k : Core) : (s.setCore c k).poison = s.poison := rfl
@[simp] theorem State.tags_setCore (c : Nat) (k : Core) : (s.setCore c k).tags = s.tags := rfl
@[simp] theorem State.cores_setCore (c : Nat) (k : Core) : (s.setCore c k).cores = s.cores.set c k := rfl
@[simp] theorem State.dies_setCore (c : Nat) (k : Core) : (s.setCore c k).dies = s.dies := rfl
@[simp] theorem State.launches_setCore (c : Nat) (k : Core) : (s.setCore c k).launches = s.launches := rfl
@[simp] theorem State.queues_setCore (c : Nat) (k : Core) : (s.setCore c k).queues = s.queues := rfl
@[simp] theorem State.contexts_setCore (c : Nat) (k : Core) : (s.setCore c k).contexts = s.contexts := rfl
@[simp] theorem State.globals_setCore (c : Nat) (k : Core) : (s.setCore c k).globals = s.globals := rfl
@[simp] theorem State.chains_setCore (c : Nat) (k : Core) : (s.setCore c k).chains = s.chains := rfl
@[simp] theorem State.reservations_setCore (c : Nat) (k : Core) : (s.setCore c k).reservations = s.reservations := rfl
@[simp] theorem State.saves_setCore (c : Nat) (k : Core) : (s.setCore c k).saves = s.saves := rfl
@[simp] theorem State.archive_setCore (c : Nat) (k : Core) : (s.setCore c k).archive = s.archive := rfl
@[simp] theorem State.codes_setCore (c : Nat) (k : Core) : (s.setCore c k).codes = s.codes := rfl
@[simp] theorem State.translations_setCore (c : Nat) (k : Core) : (s.setCore c k).translations = s.translations := rfl
@[simp] theorem State.signers_setCore (c : Nat) (k : Core) : (s.setCore c k).signers = s.signers := rfl
@[simp] theorem State.handles_setCore (c : Nat) (k : Core) : (s.setCore c k).handles = s.handles := rfl
@[simp] theorem State.wrapped_setCore (c : Nat) (k : Core) : (s.setCore c k).wrapped = s.wrapped := rfl
@[simp] theorem State.isles_setCore (c : Nat) (k : Core) : (s.setCore c k).isles = s.isles := rfl
@[simp] theorem State.bootSlot_setCore (c : Nat) (k : Core) : (s.setCore c k).bootSlot = s.bootSlot := rfl
@[simp] theorem State.power_setCore (c : Nat) (k : Core) : (s.setCore c k).power = s.power := rfl
@[simp] theorem State.selfTest_setCore (c : Nat) (k : Core) : (s.setCore c k).selfTest = s.selfTest := rfl
@[simp] theorem State.mgmtOut_setCore (c : Nat) (k : Core) : (s.setCore c k).mgmtOut = s.mgmtOut := rfl
@[simp] theorem State.offered_setCore (c : Nat) (k : Core) : (s.setCore c k).offered = s.offered := rfl
@[simp] theorem State.now_setCore (c : Nat) (k : Core) : (s.setCore c k).now = s.now := rfl
@[simp] theorem State.swaps_setCore (c : Nat) (k : Core) : (s.setCore c k).swaps = s.swaps := rfl
@[simp] theorem State.placings_setCore (c : Nat) (k : Core) : (s.setCore c k).placings = s.placings := rfl
@[simp] theorem State.passes_setCore (c : Nat) (k : Core) : (s.setCore c k).passes = s.passes := rfl
@[simp] theorem State.agenda_setCore (c : Nat) (k : Core) : (s.setCore c k).agenda = s.agenda := rfl
@[simp] theorem State.cur_setCore (c : Nat) (k : Core) : (s.setCore c k).cur = s.cur := rfl
@[simp] theorem State.fresh_setCore (c : Nat) (k : Core) : (s.setCore c k).fresh = s.fresh := rfl
@[simp] theorem State.dstep_setCore (c : Nat) (k : Core) : (s.setCore c k).dstep = s.dstep := rfl

@[simp] theorem State.mem_modCore (c : Nat) (g : Core → Core) : (s.modCore c g).mem = s.mem := rfl
@[simp] theorem State.poison_modCore (c : Nat) (g : Core → Core) : (s.modCore c g).poison = s.poison := rfl
@[simp] theorem State.tags_modCore (c : Nat) (g : Core → Core) : (s.modCore c g).tags = s.tags := rfl
@[simp] theorem State.cores_modCore (c : Nat) (g : Core → Core) : (s.modCore c g).cores = s.cores.set c (g (s.core c)) := rfl
@[simp] theorem State.dies_modCore (c : Nat) (g : Core → Core) : (s.modCore c g).dies = s.dies := rfl
@[simp] theorem State.launches_modCore (c : Nat) (g : Core → Core) : (s.modCore c g).launches = s.launches := rfl
@[simp] theorem State.queues_modCore (c : Nat) (g : Core → Core) : (s.modCore c g).queues = s.queues := rfl
@[simp] theorem State.contexts_modCore (c : Nat) (g : Core → Core) : (s.modCore c g).contexts = s.contexts := rfl
@[simp] theorem State.globals_modCore (c : Nat) (g : Core → Core) : (s.modCore c g).globals = s.globals := rfl
@[simp] theorem State.chains_modCore (c : Nat) (g : Core → Core) : (s.modCore c g).chains = s.chains := rfl
@[simp] theorem State.reservations_modCore (c : Nat) (g : Core → Core) : (s.modCore c g).reservations = s.reservations := rfl
@[simp] theorem State.saves_modCore (c : Nat) (g : Core → Core) : (s.modCore c g).saves = s.saves := rfl
@[simp] theorem State.archive_modCore (c : Nat) (g : Core → Core) : (s.modCore c g).archive = s.archive := rfl
@[simp] theorem State.codes_modCore (c : Nat) (g : Core → Core) : (s.modCore c g).codes = s.codes := rfl
@[simp] theorem State.translations_modCore (c : Nat) (g : Core → Core) : (s.modCore c g).translations = s.translations := rfl
@[simp] theorem State.signers_modCore (c : Nat) (g : Core → Core) : (s.modCore c g).signers = s.signers := rfl
@[simp] theorem State.handles_modCore (c : Nat) (g : Core → Core) : (s.modCore c g).handles = s.handles := rfl
@[simp] theorem State.wrapped_modCore (c : Nat) (g : Core → Core) : (s.modCore c g).wrapped = s.wrapped := rfl
@[simp] theorem State.isles_modCore (c : Nat) (g : Core → Core) : (s.modCore c g).isles = s.isles := rfl
@[simp] theorem State.bootSlot_modCore (c : Nat) (g : Core → Core) : (s.modCore c g).bootSlot = s.bootSlot := rfl
@[simp] theorem State.power_modCore (c : Nat) (g : Core → Core) : (s.modCore c g).power = s.power := rfl
@[simp] theorem State.selfTest_modCore (c : Nat) (g : Core → Core) : (s.modCore c g).selfTest = s.selfTest := rfl
@[simp] theorem State.mgmtOut_modCore (c : Nat) (g : Core → Core) : (s.modCore c g).mgmtOut = s.mgmtOut := rfl
@[simp] theorem State.offered_modCore (c : Nat) (g : Core → Core) : (s.modCore c g).offered = s.offered := rfl
@[simp] theorem State.now_modCore (c : Nat) (g : Core → Core) : (s.modCore c g).now = s.now := rfl
@[simp] theorem State.swaps_modCore (c : Nat) (g : Core → Core) : (s.modCore c g).swaps = s.swaps := rfl
@[simp] theorem State.placings_modCore (c : Nat) (g : Core → Core) : (s.modCore c g).placings = s.placings := rfl
@[simp] theorem State.passes_modCore (c : Nat) (g : Core → Core) : (s.modCore c g).passes = s.passes := rfl
@[simp] theorem State.agenda_modCore (c : Nat) (g : Core → Core) : (s.modCore c g).agenda = s.agenda := rfl
@[simp] theorem State.cur_modCore (c : Nat) (g : Core → Core) : (s.modCore c g).cur = s.cur := rfl
@[simp] theorem State.fresh_modCore (c : Nat) (g : Core → Core) : (s.modCore c g).fresh = s.fresh := rfl
@[simp] theorem State.dstep_modCore (c : Nat) (g : Core → Core) : (s.modCore c g).dstep = s.dstep := rfl

@[simp] theorem State.mem_setDie (d : Nat) (k : Die) : (s.setDie d k).mem = s.mem := rfl
@[simp] theorem State.poison_setDie (d : Nat) (k : Die) : (s.setDie d k).poison = s.poison := rfl
@[simp] theorem State.tags_setDie (d : Nat) (k : Die) : (s.setDie d k).tags = s.tags := rfl
@[simp] theorem State.cores_setDie (d : Nat) (k : Die) : (s.setDie d k).cores = s.cores := rfl
@[simp] theorem State.dies_setDie (d : Nat) (k : Die) : (s.setDie d k).dies = s.dies.set d k := rfl
@[simp] theorem State.launches_setDie (d : Nat) (k : Die) : (s.setDie d k).launches = s.launches := rfl
@[simp] theorem State.queues_setDie (d : Nat) (k : Die) : (s.setDie d k).queues = s.queues := rfl
@[simp] theorem State.contexts_setDie (d : Nat) (k : Die) : (s.setDie d k).contexts = s.contexts := rfl
@[simp] theorem State.globals_setDie (d : Nat) (k : Die) : (s.setDie d k).globals = s.globals := rfl
@[simp] theorem State.chains_setDie (d : Nat) (k : Die) : (s.setDie d k).chains = s.chains := rfl
@[simp] theorem State.reservations_setDie (d : Nat) (k : Die) : (s.setDie d k).reservations = s.reservations := rfl
@[simp] theorem State.saves_setDie (d : Nat) (k : Die) : (s.setDie d k).saves = s.saves := rfl
@[simp] theorem State.archive_setDie (d : Nat) (k : Die) : (s.setDie d k).archive = s.archive := rfl
@[simp] theorem State.codes_setDie (d : Nat) (k : Die) : (s.setDie d k).codes = s.codes := rfl
@[simp] theorem State.translations_setDie (d : Nat) (k : Die) : (s.setDie d k).translations = s.translations := rfl
@[simp] theorem State.signers_setDie (d : Nat) (k : Die) : (s.setDie d k).signers = s.signers := rfl
@[simp] theorem State.handles_setDie (d : Nat) (k : Die) : (s.setDie d k).handles = s.handles := rfl
@[simp] theorem State.wrapped_setDie (d : Nat) (k : Die) : (s.setDie d k).wrapped = s.wrapped := rfl
@[simp] theorem State.isles_setDie (d : Nat) (k : Die) : (s.setDie d k).isles = s.isles := rfl
@[simp] theorem State.bootSlot_setDie (d : Nat) (k : Die) : (s.setDie d k).bootSlot = s.bootSlot := rfl
@[simp] theorem State.power_setDie (d : Nat) (k : Die) : (s.setDie d k).power = s.power := rfl
@[simp] theorem State.selfTest_setDie (d : Nat) (k : Die) : (s.setDie d k).selfTest = s.selfTest := rfl
@[simp] theorem State.mgmtOut_setDie (d : Nat) (k : Die) : (s.setDie d k).mgmtOut = s.mgmtOut := rfl
@[simp] theorem State.offered_setDie (d : Nat) (k : Die) : (s.setDie d k).offered = s.offered := rfl
@[simp] theorem State.now_setDie (d : Nat) (k : Die) : (s.setDie d k).now = s.now := rfl
@[simp] theorem State.swaps_setDie (d : Nat) (k : Die) : (s.setDie d k).swaps = s.swaps := rfl
@[simp] theorem State.placings_setDie (d : Nat) (k : Die) : (s.setDie d k).placings = s.placings := rfl
@[simp] theorem State.passes_setDie (d : Nat) (k : Die) : (s.setDie d k).passes = s.passes := rfl
@[simp] theorem State.agenda_setDie (d : Nat) (k : Die) : (s.setDie d k).agenda = s.agenda := rfl
@[simp] theorem State.cur_setDie (d : Nat) (k : Die) : (s.setDie d k).cur = s.cur := rfl
@[simp] theorem State.fresh_setDie (d : Nat) (k : Die) : (s.setDie d k).fresh = s.fresh := rfl
@[simp] theorem State.dstep_setDie (d : Nat) (k : Die) : (s.setDie d k).dstep = s.dstep := rfl

@[simp] theorem State.mem_modDie (d : Nat) (g : Die → Die) : (s.modDie d g).mem = s.mem := rfl
@[simp] theorem State.poison_modDie (d : Nat) (g : Die → Die) : (s.modDie d g).poison = s.poison := rfl
@[simp] theorem State.tags_modDie (d : Nat) (g : Die → Die) : (s.modDie d g).tags = s.tags := rfl
@[simp] theorem State.cores_modDie (d : Nat) (g : Die → Die) : (s.modDie d g).cores = s.cores := rfl
@[simp] theorem State.dies_modDie (d : Nat) (g : Die → Die) : (s.modDie d g).dies = s.dies.set d (g (s.die d)) := rfl
@[simp] theorem State.launches_modDie (d : Nat) (g : Die → Die) : (s.modDie d g).launches = s.launches := rfl
@[simp] theorem State.queues_modDie (d : Nat) (g : Die → Die) : (s.modDie d g).queues = s.queues := rfl
@[simp] theorem State.contexts_modDie (d : Nat) (g : Die → Die) : (s.modDie d g).contexts = s.contexts := rfl
@[simp] theorem State.globals_modDie (d : Nat) (g : Die → Die) : (s.modDie d g).globals = s.globals := rfl
@[simp] theorem State.chains_modDie (d : Nat) (g : Die → Die) : (s.modDie d g).chains = s.chains := rfl
@[simp] theorem State.reservations_modDie (d : Nat) (g : Die → Die) : (s.modDie d g).reservations = s.reservations := rfl
@[simp] theorem State.saves_modDie (d : Nat) (g : Die → Die) : (s.modDie d g).saves = s.saves := rfl
@[simp] theorem State.archive_modDie (d : Nat) (g : Die → Die) : (s.modDie d g).archive = s.archive := rfl
@[simp] theorem State.codes_modDie (d : Nat) (g : Die → Die) : (s.modDie d g).codes = s.codes := rfl
@[simp] theorem State.translations_modDie (d : Nat) (g : Die → Die) : (s.modDie d g).translations = s.translations := rfl
@[simp] theorem State.signers_modDie (d : Nat) (g : Die → Die) : (s.modDie d g).signers = s.signers := rfl
@[simp] theorem State.handles_modDie (d : Nat) (g : Die → Die) : (s.modDie d g).handles = s.handles := rfl
@[simp] theorem State.wrapped_modDie (d : Nat) (g : Die → Die) : (s.modDie d g).wrapped = s.wrapped := rfl
@[simp] theorem State.isles_modDie (d : Nat) (g : Die → Die) : (s.modDie d g).isles = s.isles := rfl
@[simp] theorem State.bootSlot_modDie (d : Nat) (g : Die → Die) : (s.modDie d g).bootSlot = s.bootSlot := rfl
@[simp] theorem State.power_modDie (d : Nat) (g : Die → Die) : (s.modDie d g).power = s.power := rfl
@[simp] theorem State.selfTest_modDie (d : Nat) (g : Die → Die) : (s.modDie d g).selfTest = s.selfTest := rfl
@[simp] theorem State.mgmtOut_modDie (d : Nat) (g : Die → Die) : (s.modDie d g).mgmtOut = s.mgmtOut := rfl
@[simp] theorem State.offered_modDie (d : Nat) (g : Die → Die) : (s.modDie d g).offered = s.offered := rfl
@[simp] theorem State.now_modDie (d : Nat) (g : Die → Die) : (s.modDie d g).now = s.now := rfl
@[simp] theorem State.swaps_modDie (d : Nat) (g : Die → Die) : (s.modDie d g).swaps = s.swaps := rfl
@[simp] theorem State.placings_modDie (d : Nat) (g : Die → Die) : (s.modDie d g).placings = s.placings := rfl
@[simp] theorem State.passes_modDie (d : Nat) (g : Die → Die) : (s.modDie d g).passes = s.passes := rfl
@[simp] theorem State.agenda_modDie (d : Nat) (g : Die → Die) : (s.modDie d g).agenda = s.agenda := rfl
@[simp] theorem State.cur_modDie (d : Nat) (g : Die → Die) : (s.modDie d g).cur = s.cur := rfl
@[simp] theorem State.fresh_modDie (d : Nat) (g : Die → Die) : (s.modDie d g).fresh = s.fresh := rfl
@[simp] theorem State.dstep_modDie (d : Nat) (g : Die → Die) : (s.modDie d g).dstep = s.dstep := rfl

@[simp] theorem State.mem_setGroup (c g : Nat) (v : Group) : (s.setGroup c g v).mem = s.mem := rfl
@[simp] theorem State.poison_setGroup (c g : Nat) (v : Group) : (s.setGroup c g v).poison = s.poison := rfl
@[simp] theorem State.tags_setGroup (c g : Nat) (v : Group) : (s.setGroup c g v).tags = s.tags := rfl
@[simp] theorem State.dies_setGroup (c g : Nat) (v : Group) : (s.setGroup c g v).dies = s.dies := rfl
@[simp] theorem State.launches_setGroup (c g : Nat) (v : Group) : (s.setGroup c g v).launches = s.launches := rfl
@[simp] theorem State.queues_setGroup (c g : Nat) (v : Group) : (s.setGroup c g v).queues = s.queues := rfl
@[simp] theorem State.contexts_setGroup (c g : Nat) (v : Group) : (s.setGroup c g v).contexts = s.contexts := rfl
@[simp] theorem State.globals_setGroup (c g : Nat) (v : Group) : (s.setGroup c g v).globals = s.globals := rfl
@[simp] theorem State.chains_setGroup (c g : Nat) (v : Group) : (s.setGroup c g v).chains = s.chains := rfl
@[simp] theorem State.reservations_setGroup (c g : Nat) (v : Group) : (s.setGroup c g v).reservations = s.reservations := rfl
@[simp] theorem State.saves_setGroup (c g : Nat) (v : Group) : (s.setGroup c g v).saves = s.saves := rfl
@[simp] theorem State.archive_setGroup (c g : Nat) (v : Group) : (s.setGroup c g v).archive = s.archive := rfl
@[simp] theorem State.codes_setGroup (c g : Nat) (v : Group) : (s.setGroup c g v).codes = s.codes := rfl
@[simp] theorem State.translations_setGroup (c g : Nat) (v : Group) : (s.setGroup c g v).translations = s.translations := rfl
@[simp] theorem State.signers_setGroup (c g : Nat) (v : Group) : (s.setGroup c g v).signers = s.signers := rfl
@[simp] theorem State.handles_setGroup (c g : Nat) (v : Group) : (s.setGroup c g v).handles = s.handles := rfl
@[simp] theorem State.wrapped_setGroup (c g : Nat) (v : Group) : (s.setGroup c g v).wrapped = s.wrapped := rfl
@[simp] theorem State.isles_setGroup (c g : Nat) (v : Group) : (s.setGroup c g v).isles = s.isles := rfl
@[simp] theorem State.bootSlot_setGroup (c g : Nat) (v : Group) : (s.setGroup c g v).bootSlot = s.bootSlot := rfl
@[simp] theorem State.power_setGroup (c g : Nat) (v : Group) : (s.setGroup c g v).power = s.power := rfl
@[simp] theorem State.selfTest_setGroup (c g : Nat) (v : Group) : (s.setGroup c g v).selfTest = s.selfTest := rfl
@[simp] theorem State.mgmtOut_setGroup (c g : Nat) (v : Group) : (s.setGroup c g v).mgmtOut = s.mgmtOut := rfl
@[simp] theorem State.offered_setGroup (c g : Nat) (v : Group) : (s.setGroup c g v).offered = s.offered := rfl
@[simp] theorem State.now_setGroup (c g : Nat) (v : Group) : (s.setGroup c g v).now = s.now := rfl
@[simp] theorem State.swaps_setGroup (c g : Nat) (v : Group) : (s.setGroup c g v).swaps = s.swaps := rfl
@[simp] theorem State.placings_setGroup (c g : Nat) (v : Group) : (s.setGroup c g v).placings = s.placings := rfl
@[simp] theorem State.passes_setGroup (c g : Nat) (v : Group) : (s.setGroup c g v).passes = s.passes := rfl
@[simp] theorem State.agenda_setGroup (c g : Nat) (v : Group) : (s.setGroup c g v).agenda = s.agenda := rfl
@[simp] theorem State.cur_setGroup (c g : Nat) (v : Group) : (s.setGroup c g v).cur = s.cur := rfl
@[simp] theorem State.fresh_setGroup (c g : Nat) (v : Group) : (s.setGroup c g v).fresh = s.fresh := rfl
@[simp] theorem State.dstep_setGroup (c g : Nat) (v : Group) : (s.setGroup c g v).dstep = s.dstep := rfl

@[simp] theorem State.mem_modGroup (c g : Nat) (h : Group → Group) : (s.modGroup c g h).mem = s.mem := rfl
@[simp] theorem State.poison_modGroup (c g : Nat) (h : Group → Group) : (s.modGroup c g h).poison = s.poison := rfl
@[simp] theorem State.tags_modGroup (c g : Nat) (h : Group → Group) : (s.modGroup c g h).tags = s.tags := rfl
@[simp] theorem State.dies_modGroup (c g : Nat) (h : Group → Group) : (s.modGroup c g h).dies = s.dies := rfl
@[simp] theorem State.launches_modGroup (c g : Nat) (h : Group → Group) : (s.modGroup c g h).launches = s.launches := rfl
@[simp] theorem State.queues_modGroup (c g : Nat) (h : Group → Group) : (s.modGroup c g h).queues = s.queues := rfl
@[simp] theorem State.contexts_modGroup (c g : Nat) (h : Group → Group) : (s.modGroup c g h).contexts = s.contexts := rfl
@[simp] theorem State.globals_modGroup (c g : Nat) (h : Group → Group) : (s.modGroup c g h).globals = s.globals := rfl
@[simp] theorem State.chains_modGroup (c g : Nat) (h : Group → Group) : (s.modGroup c g h).chains = s.chains := rfl
@[simp] theorem State.reservations_modGroup (c g : Nat) (h : Group → Group) : (s.modGroup c g h).reservations = s.reservations := rfl
@[simp] theorem State.saves_modGroup (c g : Nat) (h : Group → Group) : (s.modGroup c g h).saves = s.saves := rfl
@[simp] theorem State.archive_modGroup (c g : Nat) (h : Group → Group) : (s.modGroup c g h).archive = s.archive := rfl
@[simp] theorem State.codes_modGroup (c g : Nat) (h : Group → Group) : (s.modGroup c g h).codes = s.codes := rfl
@[simp] theorem State.translations_modGroup (c g : Nat) (h : Group → Group) : (s.modGroup c g h).translations = s.translations := rfl
@[simp] theorem State.signers_modGroup (c g : Nat) (h : Group → Group) : (s.modGroup c g h).signers = s.signers := rfl
@[simp] theorem State.handles_modGroup (c g : Nat) (h : Group → Group) : (s.modGroup c g h).handles = s.handles := rfl
@[simp] theorem State.wrapped_modGroup (c g : Nat) (h : Group → Group) : (s.modGroup c g h).wrapped = s.wrapped := rfl
@[simp] theorem State.isles_modGroup (c g : Nat) (h : Group → Group) : (s.modGroup c g h).isles = s.isles := rfl
@[simp] theorem State.bootSlot_modGroup (c g : Nat) (h : Group → Group) : (s.modGroup c g h).bootSlot = s.bootSlot := rfl
@[simp] theorem State.power_modGroup (c g : Nat) (h : Group → Group) : (s.modGroup c g h).power = s.power := rfl
@[simp] theorem State.selfTest_modGroup (c g : Nat) (h : Group → Group) : (s.modGroup c g h).selfTest = s.selfTest := rfl
@[simp] theorem State.mgmtOut_modGroup (c g : Nat) (h : Group → Group) : (s.modGroup c g h).mgmtOut = s.mgmtOut := rfl
@[simp] theorem State.offered_modGroup (c g : Nat) (h : Group → Group) : (s.modGroup c g h).offered = s.offered := rfl
@[simp] theorem State.now_modGroup (c g : Nat) (h : Group → Group) : (s.modGroup c g h).now = s.now := rfl
@[simp] theorem State.swaps_modGroup (c g : Nat) (h : Group → Group) : (s.modGroup c g h).swaps = s.swaps := rfl
@[simp] theorem State.placings_modGroup (c g : Nat) (h : Group → Group) : (s.modGroup c g h).placings = s.placings := rfl
@[simp] theorem State.passes_modGroup (c g : Nat) (h : Group → Group) : (s.modGroup c g h).passes = s.passes := rfl
@[simp] theorem State.agenda_modGroup (c g : Nat) (h : Group → Group) : (s.modGroup c g h).agenda = s.agenda := rfl
@[simp] theorem State.cur_modGroup (c g : Nat) (h : Group → Group) : (s.modGroup c g h).cur = s.cur := rfl
@[simp] theorem State.fresh_modGroup (c g : Nat) (h : Group → Group) : (s.modGroup c g h).fresh = s.fresh := rfl
@[simp] theorem State.dstep_modGroup (c g : Nat) (h : Group → Group) : (s.modGroup c g h).dstep = s.dstep := rfl

@[simp] theorem State.mem_setByte (a : Nat) (v : Byte) : (s.setByte a v).mem = Memory.setByte s.mem a v := rfl
@[simp] theorem State.poison_setByte (a : Nat) (v : Byte) : (s.setByte a v).poison = s.poison := rfl
@[simp] theorem State.tags_setByte (a : Nat) (v : Byte) : (s.setByte a v).tags = s.tags := rfl
@[simp] theorem State.cores_setByte (a : Nat) (v : Byte) : (s.setByte a v).cores = s.cores := rfl
@[simp] theorem State.dies_setByte (a : Nat) (v : Byte) : (s.setByte a v).dies = s.dies := rfl
@[simp] theorem State.launches_setByte (a : Nat) (v : Byte) : (s.setByte a v).launches = s.launches := rfl
@[simp] theorem State.queues_setByte (a : Nat) (v : Byte) : (s.setByte a v).queues = s.queues := rfl
@[simp] theorem State.contexts_setByte (a : Nat) (v : Byte) : (s.setByte a v).contexts = s.contexts := rfl
@[simp] theorem State.globals_setByte (a : Nat) (v : Byte) : (s.setByte a v).globals = s.globals := rfl
@[simp] theorem State.chains_setByte (a : Nat) (v : Byte) : (s.setByte a v).chains = s.chains := rfl
@[simp] theorem State.reservations_setByte (a : Nat) (v : Byte) : (s.setByte a v).reservations = s.reservations := rfl
@[simp] theorem State.saves_setByte (a : Nat) (v : Byte) : (s.setByte a v).saves = s.saves := rfl
@[simp] theorem State.archive_setByte (a : Nat) (v : Byte) : (s.setByte a v).archive = s.archive := rfl
@[simp] theorem State.codes_setByte (a : Nat) (v : Byte) : (s.setByte a v).codes = s.codes := rfl
@[simp] theorem State.translations_setByte (a : Nat) (v : Byte) : (s.setByte a v).translations = s.translations := rfl
@[simp] theorem State.signers_setByte (a : Nat) (v : Byte) : (s.setByte a v).signers = s.signers := rfl
@[simp] theorem State.handles_setByte (a : Nat) (v : Byte) : (s.setByte a v).handles = s.handles := rfl
@[simp] theorem State.wrapped_setByte (a : Nat) (v : Byte) : (s.setByte a v).wrapped = s.wrapped := rfl
@[simp] theorem State.isles_setByte (a : Nat) (v : Byte) : (s.setByte a v).isles = s.isles := rfl
@[simp] theorem State.bootSlot_setByte (a : Nat) (v : Byte) : (s.setByte a v).bootSlot = s.bootSlot := rfl
@[simp] theorem State.power_setByte (a : Nat) (v : Byte) : (s.setByte a v).power = s.power := rfl
@[simp] theorem State.selfTest_setByte (a : Nat) (v : Byte) : (s.setByte a v).selfTest = s.selfTest := rfl
@[simp] theorem State.mgmtOut_setByte (a : Nat) (v : Byte) : (s.setByte a v).mgmtOut = s.mgmtOut := rfl
@[simp] theorem State.offered_setByte (a : Nat) (v : Byte) : (s.setByte a v).offered = s.offered := rfl
@[simp] theorem State.now_setByte (a : Nat) (v : Byte) : (s.setByte a v).now = s.now := rfl
@[simp] theorem State.swaps_setByte (a : Nat) (v : Byte) : (s.setByte a v).swaps = s.swaps := rfl
@[simp] theorem State.placings_setByte (a : Nat) (v : Byte) : (s.setByte a v).placings = s.placings := rfl
@[simp] theorem State.passes_setByte (a : Nat) (v : Byte) : (s.setByte a v).passes = s.passes := rfl
@[simp] theorem State.agenda_setByte (a : Nat) (v : Byte) : (s.setByte a v).agenda = s.agenda := rfl
@[simp] theorem State.cur_setByte (a : Nat) (v : Byte) : (s.setByte a v).cur = s.cur := rfl
@[simp] theorem State.fresh_setByte (a : Nat) (v : Byte) : (s.setByte a v).fresh = s.fresh := rfl
@[simp] theorem State.dstep_setByte (a : Nat) (v : Byte) : (s.setByte a v).dstep = s.dstep := rfl

@[simp] theorem State.mem_setBytes (a : Nat) (bs : List Byte) : (s.setBytes a bs).mem = Memory.write s.mem a bs := rfl
@[simp] theorem State.poison_setBytes (a : Nat) (bs : List Byte) : (s.setBytes a bs).poison = s.poison := rfl
@[simp] theorem State.tags_setBytes (a : Nat) (bs : List Byte) : (s.setBytes a bs).tags = s.tags := rfl
@[simp] theorem State.cores_setBytes (a : Nat) (bs : List Byte) : (s.setBytes a bs).cores = s.cores := rfl
@[simp] theorem State.dies_setBytes (a : Nat) (bs : List Byte) : (s.setBytes a bs).dies = s.dies := rfl
@[simp] theorem State.launches_setBytes (a : Nat) (bs : List Byte) : (s.setBytes a bs).launches = s.launches := rfl
@[simp] theorem State.queues_setBytes (a : Nat) (bs : List Byte) : (s.setBytes a bs).queues = s.queues := rfl
@[simp] theorem State.contexts_setBytes (a : Nat) (bs : List Byte) : (s.setBytes a bs).contexts = s.contexts := rfl
@[simp] theorem State.globals_setBytes (a : Nat) (bs : List Byte) : (s.setBytes a bs).globals = s.globals := rfl
@[simp] theorem State.chains_setBytes (a : Nat) (bs : List Byte) : (s.setBytes a bs).chains = s.chains := rfl
@[simp] theorem State.reservations_setBytes (a : Nat) (bs : List Byte) : (s.setBytes a bs).reservations = s.reservations := rfl
@[simp] theorem State.saves_setBytes (a : Nat) (bs : List Byte) : (s.setBytes a bs).saves = s.saves := rfl
@[simp] theorem State.archive_setBytes (a : Nat) (bs : List Byte) : (s.setBytes a bs).archive = s.archive := rfl
@[simp] theorem State.codes_setBytes (a : Nat) (bs : List Byte) : (s.setBytes a bs).codes = s.codes := rfl
@[simp] theorem State.translations_setBytes (a : Nat) (bs : List Byte) : (s.setBytes a bs).translations = s.translations := rfl
@[simp] theorem State.signers_setBytes (a : Nat) (bs : List Byte) : (s.setBytes a bs).signers = s.signers := rfl
@[simp] theorem State.handles_setBytes (a : Nat) (bs : List Byte) : (s.setBytes a bs).handles = s.handles := rfl
@[simp] theorem State.wrapped_setBytes (a : Nat) (bs : List Byte) : (s.setBytes a bs).wrapped = s.wrapped := rfl
@[simp] theorem State.isles_setBytes (a : Nat) (bs : List Byte) : (s.setBytes a bs).isles = s.isles := rfl
@[simp] theorem State.bootSlot_setBytes (a : Nat) (bs : List Byte) : (s.setBytes a bs).bootSlot = s.bootSlot := rfl
@[simp] theorem State.power_setBytes (a : Nat) (bs : List Byte) : (s.setBytes a bs).power = s.power := rfl
@[simp] theorem State.selfTest_setBytes (a : Nat) (bs : List Byte) : (s.setBytes a bs).selfTest = s.selfTest := rfl
@[simp] theorem State.mgmtOut_setBytes (a : Nat) (bs : List Byte) : (s.setBytes a bs).mgmtOut = s.mgmtOut := rfl
@[simp] theorem State.offered_setBytes (a : Nat) (bs : List Byte) : (s.setBytes a bs).offered = s.offered := rfl
@[simp] theorem State.now_setBytes (a : Nat) (bs : List Byte) : (s.setBytes a bs).now = s.now := rfl
@[simp] theorem State.swaps_setBytes (a : Nat) (bs : List Byte) : (s.setBytes a bs).swaps = s.swaps := rfl
@[simp] theorem State.placings_setBytes (a : Nat) (bs : List Byte) : (s.setBytes a bs).placings = s.placings := rfl
@[simp] theorem State.passes_setBytes (a : Nat) (bs : List Byte) : (s.setBytes a bs).passes = s.passes := rfl
@[simp] theorem State.agenda_setBytes (a : Nat) (bs : List Byte) : (s.setBytes a bs).agenda = s.agenda := rfl
@[simp] theorem State.cur_setBytes (a : Nat) (bs : List Byte) : (s.setBytes a bs).cur = s.cur := rfl
@[simp] theorem State.fresh_setBytes (a : Nat) (bs : List Byte) : (s.setBytes a bs).fresh = s.fresh := rfl
@[simp] theorem State.dstep_setBytes (a : Nat) (bs : List Byte) : (s.setBytes a bs).dstep = s.dstep := rfl

@[simp] theorem State.mem_report (d what value : Nat) : (s.report d what value).mem = s.mem := rfl
@[simp] theorem State.poison_report (d what value : Nat) : (s.report d what value).poison = s.poison := rfl
@[simp] theorem State.tags_report (d what value : Nat) : (s.report d what value).tags = s.tags := rfl
@[simp] theorem State.cores_report (d what value : Nat) : (s.report d what value).cores = s.cores := rfl
@[simp] theorem State.dies_report (d what value : Nat) : (s.report d what value).dies = s.dies := rfl
@[simp] theorem State.launches_report (d what value : Nat) : (s.report d what value).launches = s.launches := rfl
@[simp] theorem State.queues_report (d what value : Nat) : (s.report d what value).queues = s.queues := rfl
@[simp] theorem State.contexts_report (d what value : Nat) : (s.report d what value).contexts = s.contexts := rfl
@[simp] theorem State.globals_report (d what value : Nat) : (s.report d what value).globals = s.globals := rfl
@[simp] theorem State.chains_report (d what value : Nat) : (s.report d what value).chains = s.chains := rfl
@[simp] theorem State.reservations_report (d what value : Nat) : (s.report d what value).reservations = s.reservations := rfl
@[simp] theorem State.saves_report (d what value : Nat) : (s.report d what value).saves = s.saves := rfl
@[simp] theorem State.archive_report (d what value : Nat) : (s.report d what value).archive = s.archive := rfl
@[simp] theorem State.codes_report (d what value : Nat) : (s.report d what value).codes = s.codes := rfl
@[simp] theorem State.translations_report (d what value : Nat) : (s.report d what value).translations = s.translations := rfl
@[simp] theorem State.signers_report (d what value : Nat) : (s.report d what value).signers = s.signers := rfl
@[simp] theorem State.handles_report (d what value : Nat) : (s.report d what value).handles = s.handles := rfl
@[simp] theorem State.wrapped_report (d what value : Nat) : (s.report d what value).wrapped = s.wrapped := rfl
@[simp] theorem State.isles_report (d what value : Nat) : (s.report d what value).isles = s.isles := rfl
@[simp] theorem State.bootSlot_report (d what value : Nat) : (s.report d what value).bootSlot = s.bootSlot := rfl
@[simp] theorem State.power_report (d what value : Nat) : (s.report d what value).power = s.power := rfl
@[simp] theorem State.selfTest_report (d what value : Nat) : (s.report d what value).selfTest = s.selfTest := rfl
@[simp] theorem State.mgmtOut_report (d what value : Nat) : (s.report d what value).mgmtOut = s.mgmtOut ++ [(d, what, value)] := rfl
@[simp] theorem State.offered_report (d what value : Nat) : (s.report d what value).offered = s.offered := rfl
@[simp] theorem State.now_report (d what value : Nat) : (s.report d what value).now = s.now := rfl
@[simp] theorem State.swaps_report (d what value : Nat) : (s.report d what value).swaps = s.swaps := rfl
@[simp] theorem State.placings_report (d what value : Nat) : (s.report d what value).placings = s.placings := rfl
@[simp] theorem State.passes_report (d what value : Nat) : (s.report d what value).passes = s.passes := rfl
@[simp] theorem State.agenda_report (d what value : Nat) : (s.report d what value).agenda = s.agenda := rfl
@[simp] theorem State.cur_report (d what value : Nat) : (s.report d what value).cur = s.cur := rfl
@[simp] theorem State.fresh_report (d what value : Nat) : (s.report d what value).fresh = s.fresh := rfl
@[simp] theorem State.dstep_report (d what value : Nat) : (s.report d what value).dstep = s.dstep := rfl

@[simp] theorem State.mem_raiseEvent (d k : Nat) : (s.raiseEvent d k).mem = s.mem := rfl
@[simp] theorem State.poison_raiseEvent (d k : Nat) : (s.raiseEvent d k).poison = s.poison := rfl
@[simp] theorem State.tags_raiseEvent (d k : Nat) : (s.raiseEvent d k).tags = s.tags := rfl
@[simp] theorem State.cores_raiseEvent (d k : Nat) : (s.raiseEvent d k).cores = s.cores := rfl
@[simp] theorem State.launches_raiseEvent (d k : Nat) : (s.raiseEvent d k).launches = s.launches := rfl
@[simp] theorem State.queues_raiseEvent (d k : Nat) : (s.raiseEvent d k).queues = s.queues := rfl
@[simp] theorem State.contexts_raiseEvent (d k : Nat) : (s.raiseEvent d k).contexts = s.contexts := rfl
@[simp] theorem State.globals_raiseEvent (d k : Nat) : (s.raiseEvent d k).globals = s.globals := rfl
@[simp] theorem State.chains_raiseEvent (d k : Nat) : (s.raiseEvent d k).chains = s.chains := rfl
@[simp] theorem State.reservations_raiseEvent (d k : Nat) : (s.raiseEvent d k).reservations = s.reservations := rfl
@[simp] theorem State.saves_raiseEvent (d k : Nat) : (s.raiseEvent d k).saves = s.saves := rfl
@[simp] theorem State.archive_raiseEvent (d k : Nat) : (s.raiseEvent d k).archive = s.archive := rfl
@[simp] theorem State.codes_raiseEvent (d k : Nat) : (s.raiseEvent d k).codes = s.codes := rfl
@[simp] theorem State.translations_raiseEvent (d k : Nat) : (s.raiseEvent d k).translations = s.translations := rfl
@[simp] theorem State.signers_raiseEvent (d k : Nat) : (s.raiseEvent d k).signers = s.signers := rfl
@[simp] theorem State.handles_raiseEvent (d k : Nat) : (s.raiseEvent d k).handles = s.handles := rfl
@[simp] theorem State.wrapped_raiseEvent (d k : Nat) : (s.raiseEvent d k).wrapped = s.wrapped := rfl
@[simp] theorem State.isles_raiseEvent (d k : Nat) : (s.raiseEvent d k).isles = s.isles := rfl
@[simp] theorem State.bootSlot_raiseEvent (d k : Nat) : (s.raiseEvent d k).bootSlot = s.bootSlot := rfl
@[simp] theorem State.power_raiseEvent (d k : Nat) : (s.raiseEvent d k).power = s.power := rfl
@[simp] theorem State.selfTest_raiseEvent (d k : Nat) : (s.raiseEvent d k).selfTest = s.selfTest := rfl
@[simp] theorem State.mgmtOut_raiseEvent (d k : Nat) : (s.raiseEvent d k).mgmtOut = s.mgmtOut := rfl
@[simp] theorem State.offered_raiseEvent (d k : Nat) : (s.raiseEvent d k).offered = s.offered := rfl
@[simp] theorem State.now_raiseEvent (d k : Nat) : (s.raiseEvent d k).now = s.now := rfl
@[simp] theorem State.swaps_raiseEvent (d k : Nat) : (s.raiseEvent d k).swaps = s.swaps := rfl
@[simp] theorem State.placings_raiseEvent (d k : Nat) : (s.raiseEvent d k).placings = s.placings := rfl
@[simp] theorem State.passes_raiseEvent (d k : Nat) : (s.raiseEvent d k).passes = s.passes := rfl
@[simp] theorem State.agenda_raiseEvent (d k : Nat) : (s.raiseEvent d k).agenda = s.agenda := rfl
@[simp] theorem State.cur_raiseEvent (d k : Nat) : (s.raiseEvent d k).cur = s.cur := rfl
@[simp] theorem State.fresh_raiseEvent (d k : Nat) : (s.raiseEvent d k).fresh = s.fresh := rfl
@[simp] theorem State.dstep_raiseEvent (d k : Nat) : (s.raiseEvent d k).dstep = s.dstep := rfl

@[simp] theorem State.mem_dropReservations (f : Flow) : (s.dropReservations f).mem = s.mem := rfl
@[simp] theorem State.poison_dropReservations (f : Flow) : (s.dropReservations f).poison = s.poison := rfl
@[simp] theorem State.tags_dropReservations (f : Flow) : (s.dropReservations f).tags = s.tags := rfl
@[simp] theorem State.cores_dropReservations (f : Flow) : (s.dropReservations f).cores = s.cores := rfl
@[simp] theorem State.dies_dropReservations (f : Flow) : (s.dropReservations f).dies = s.dies := rfl
@[simp] theorem State.launches_dropReservations (f : Flow) : (s.dropReservations f).launches = s.launches := rfl
@[simp] theorem State.queues_dropReservations (f : Flow) : (s.dropReservations f).queues = s.queues := rfl
@[simp] theorem State.contexts_dropReservations (f : Flow) : (s.dropReservations f).contexts = s.contexts := rfl
@[simp] theorem State.globals_dropReservations (f : Flow) : (s.dropReservations f).globals = s.globals := rfl
@[simp] theorem State.chains_dropReservations (f : Flow) : (s.dropReservations f).chains = s.chains := rfl
@[simp] theorem State.reservations_dropReservations (f : Flow) : (s.dropReservations f).reservations = s.reservations.filter (fun r => r.flow != f) := rfl
@[simp] theorem State.saves_dropReservations (f : Flow) : (s.dropReservations f).saves = s.saves := rfl
@[simp] theorem State.archive_dropReservations (f : Flow) : (s.dropReservations f).archive = s.archive := rfl
@[simp] theorem State.codes_dropReservations (f : Flow) : (s.dropReservations f).codes = s.codes := rfl
@[simp] theorem State.translations_dropReservations (f : Flow) : (s.dropReservations f).translations = s.translations := rfl
@[simp] theorem State.signers_dropReservations (f : Flow) : (s.dropReservations f).signers = s.signers := rfl
@[simp] theorem State.handles_dropReservations (f : Flow) : (s.dropReservations f).handles = s.handles := rfl
@[simp] theorem State.wrapped_dropReservations (f : Flow) : (s.dropReservations f).wrapped = s.wrapped := rfl
@[simp] theorem State.isles_dropReservations (f : Flow) : (s.dropReservations f).isles = s.isles := rfl
@[simp] theorem State.bootSlot_dropReservations (f : Flow) : (s.dropReservations f).bootSlot = s.bootSlot := rfl
@[simp] theorem State.power_dropReservations (f : Flow) : (s.dropReservations f).power = s.power := rfl
@[simp] theorem State.selfTest_dropReservations (f : Flow) : (s.dropReservations f).selfTest = s.selfTest := rfl
@[simp] theorem State.mgmtOut_dropReservations (f : Flow) : (s.dropReservations f).mgmtOut = s.mgmtOut := rfl
@[simp] theorem State.offered_dropReservations (f : Flow) : (s.dropReservations f).offered = s.offered := rfl
@[simp] theorem State.now_dropReservations (f : Flow) : (s.dropReservations f).now = s.now := rfl
@[simp] theorem State.swaps_dropReservations (f : Flow) : (s.dropReservations f).swaps = s.swaps := rfl
@[simp] theorem State.placings_dropReservations (f : Flow) : (s.dropReservations f).placings = s.placings := rfl
@[simp] theorem State.passes_dropReservations (f : Flow) : (s.dropReservations f).passes = s.passes := rfl
@[simp] theorem State.agenda_dropReservations (f : Flow) : (s.dropReservations f).agenda = s.agenda := rfl
@[simp] theorem State.cur_dropReservations (f : Flow) : (s.dropReservations f).cur = s.cur := rfl
@[simp] theorem State.fresh_dropReservations (f : Flow) : (s.dropReservations f).fresh = s.fresh := rfl
@[simp] theorem State.dstep_dropReservations (f : Flow) : (s.dropReservations f).dstep = s.dstep := rfl

/-! ### Cores and dies -/

@[simp] theorem State.core_setCore_self (c : Nat) (k : Core) : (s.setCore c k).core c = k := by simp [State.core]
theorem State.core_setCore_ne {c c' : Nat} (k : Core) (h : c ≠ c') : (s.setCore c k).core c' = s.core c' := by
  simp [State.core, Tab.getD_set_ne _ _ _ h]
@[simp] theorem State.core_modCore_self (c : Nat) (g : Core → Core) : (s.modCore c g).core c = g (s.core c) := s.core_setCore_self c _
theorem State.core_modCore_ne {c c' : Nat} (g : Core → Core) (h : c ≠ c') : (s.modCore c g).core c' = s.core c' := s.core_setCore_ne _ h
theorem State.core_modCore (c c' : Nat) (g : Core → Core) : (s.modCore c g).core c' = if c = c' then g (s.core c') else s.core c' := by
  by_cases h : c = c'
  · subst h; simp
  · simp [h, s.core_modCore_ne g h]
@[simp] theorem State.die_setDie_self (d : Nat) (k : Die) : (s.setDie d k).die d = k := by simp [State.die]
theorem State.die_setDie_ne {d d' : Nat} (k : Die) (h : d ≠ d') : (s.setDie d k).die d' = s.die d' := by
  simp [State.die, Tab.getD_set_ne _ _ _ h]
@[simp] theorem State.die_modDie_self (d : Nat) (g : Die → Die) : (s.modDie d g).die d = g (s.die d) := s.die_setDie_self d _
theorem State.die_modDie_ne {d d' : Nat} (g : Die → Die) (h : d ≠ d') : (s.modDie d g).die d' = s.die d' := s.die_setDie_ne _ h
theorem State.die_modDie (d d' : Nat) (g : Die → Die) : (s.modDie d g).die d' = if d = d' then g (s.die d') else s.die d' := by
  by_cases h : d = d'
  · subst h; simp
  · simp [h, s.die_modDie_ne g h]
@[simp] theorem State.core_setDie (c d : Nat) (k : Die) : (s.setDie d k).core c = s.core c := rfl
@[simp] theorem State.core_modDie (c d : Nat) (g : Die → Die) : (s.modDie d g).core c = s.core c := rfl
@[simp] theorem State.die_setCore (c d : Nat) (k : Core) : (s.setCore c k).die d = s.die d := rfl
@[simp] theorem State.die_modCore (c d : Nat) (g : Core → Core) : (s.modCore c g).die d = s.die d := rfl

/-! ### Flows -/

@[simp] theorem State.flow?_setFlow_self (f : Flow) (w : Wave) : (s.setFlow f w).flow? f = some w := by
  cases f <;> simp [State.setFlow, State.flow?]

theorem State.flow?_setFlow_ne {f f' : Flow} (w : Wave) (h : f ≠ f') : (s.setFlow f w).flow? f' = s.flow? f' := by
  cases f with
  | wave c k =>
    cases f' with
    | wave c' k' =>
      by_cases hc : c = c'
      · subst hc
        have hk : k ≠ k' := fun e => h (by rw [e])
        simp [State.setFlow, State.flow?, Tab.get_set_ne _ _ hk]
      · simp [State.setFlow, State.flow?, s.core_modCore_ne _ hc]
    | steward d' t' => simp [State.setFlow, State.flow?]
  | steward d t =>
    cases f' with
    | wave c' k' => simp [State.setFlow, State.flow?]
    | steward d' t' =>
      by_cases hd : d = d'
      · subst hd
        have ht : t ≠ t' := fun e => h (by rw [e])
        simp [State.setFlow, State.flow?, Tab.getD_set_ne _ _ _ ht]
      · simp [State.setFlow, State.flow?, s.die_modDie_ne _ hd]

@[simp] theorem State.flow?_modFlow_self (f : Flow) (g : Wave → Wave) : (s.modFlow f g).flow? f = (s.flow? f).map g := by
  unfold State.modFlow
  split
  · rename_i w h; simp [h]
  · rename_i h; simp [h]

theorem State.flow?_modFlow_ne {f f' : Flow} (g : Wave → Wave) (h : f ≠ f') : (s.modFlow f g).flow? f' = s.flow? f' := by
  unfold State.modFlow
  split
  · exact s.flow?_setFlow_ne _ h
  · rfl

theorem State.flow?_modFlow (f f' : Flow) (g : Wave → Wave) : (s.modFlow f g).flow? f' = if f = f' then (s.flow? f').map g else s.flow? f' := by
  by_cases h : f = f'
  · subst h; simp
  · simp [h, s.flow?_modFlow_ne g h]

/-- Changes of a core that keep its waves keep every flow. -/
theorem State.flow?_modCore (c : Nat) (g : Core → Core) (h : (g (s.core c)).waves = (s.core c).waves) (f : Flow) : (s.modCore c g).flow? f = s.flow? f := by
  cases f with
  | wave c' k =>
    by_cases hc : c = c'
    · subst hc; simp [State.flow?, h]
    · simp [State.flow?, s.core_modCore_ne g hc]
  | steward d t => simp [State.flow?]

/-- Changes of a die that keep its steward flows keep every flow. -/
theorem State.flow?_modDie (d : Nat) (g : Die → Die) (h : (g (s.die d)).stewards = (s.die d).stewards) (f : Flow) : (s.modDie d g).flow? f = s.flow? f := by
  cases f with
  | wave c k => simp [State.flow?]
  | steward d' t =>
    by_cases hd : d = d'
    · subst hd; simp [State.flow?, h]
    · simp [State.flow?, s.die_modDie_ne g hd]

@[simp] theorem State.flow?_modGroup (c g : Nat) (h : Group → Group) (f : Flow) : (s.modGroup c g h).flow? f = s.flow? f := s.flow?_modCore c _ rfl f
@[simp] theorem State.flow?_setGroup (c g : Nat) (v : Group) (f : Flow) : (s.setGroup c g v).flow? f = s.flow? f := s.flow?_modCore c _ rfl f
@[simp] theorem State.flow?_raiseEvent (d k : Nat) (f : Flow) : (s.raiseEvent d k).flow? f = s.flow? f := s.flow?_modDie d _ rfl f
@[simp] theorem State.flow?_report (d w v : Nat) (f : Flow) : (s.report d w v).flow? f = s.flow? f := rfl
@[simp] theorem State.flow?_dropReservations (g f : Flow) : (s.dropReservations g).flow? f = s.flow? f := rfl

/-! ### Fields after a change of a flow -/

@[simp] theorem State.mem_setFlow (f : Flow) (w : Wave) : (s.setFlow f w).mem = s.mem := by cases f <;> rfl
@[simp] theorem State.poison_setFlow (f : Flow) (w : Wave) : (s.setFlow f w).poison = s.poison := by cases f <;> rfl
@[simp] theorem State.tags_setFlow (f : Flow) (w : Wave) : (s.setFlow f w).tags = s.tags := by cases f <;> rfl
@[simp] theorem State.launches_setFlow (f : Flow) (w : Wave) : (s.setFlow f w).launches = s.launches := by cases f <;> rfl
@[simp] theorem State.queues_setFlow (f : Flow) (w : Wave) : (s.setFlow f w).queues = s.queues := by cases f <;> rfl
@[simp] theorem State.contexts_setFlow (f : Flow) (w : Wave) : (s.setFlow f w).contexts = s.contexts := by cases f <;> rfl
@[simp] theorem State.globals_setFlow (f : Flow) (w : Wave) : (s.setFlow f w).globals = s.globals := by cases f <;> rfl
@[simp] theorem State.chains_setFlow (f : Flow) (w : Wave) : (s.setFlow f w).chains = s.chains := by cases f <;> rfl
@[simp] theorem State.reservations_setFlow (f : Flow) (w : Wave) : (s.setFlow f w).reservations = s.reservations := by cases f <;> rfl
@[simp] theorem State.saves_setFlow (f : Flow) (w : Wave) : (s.setFlow f w).saves = s.saves := by cases f <;> rfl
@[simp] theorem State.codes_setFlow (f : Flow) (w : Wave) : (s.setFlow f w).codes = s.codes := by cases f <;> rfl
@[simp] theorem State.translations_setFlow (f : Flow) (w : Wave) : (s.setFlow f w).translations = s.translations := by cases f <;> rfl
@[simp] theorem State.signers_setFlow (f : Flow) (w : Wave) : (s.setFlow f w).signers = s.signers := by cases f <;> rfl
@[simp] theorem State.wrapped_setFlow (f : Flow) (w : Wave) : (s.setFlow f w).wrapped = s.wrapped := by cases f <;> rfl
@[simp] theorem State.isles_setFlow (f : Flow) (w : Wave) : (s.setFlow f w).isles = s.isles := by cases f <;> rfl
@[simp] theorem State.bootSlot_setFlow (f : Flow) (w : Wave) : (s.setFlow f w).bootSlot = s.bootSlot := by cases f <;> rfl
@[simp] theorem State.power_setFlow (f : Flow) (w : Wave) : (s.setFlow f w).power = s.power := by cases f <;> rfl
@[simp] theorem State.mgmtOut_setFlow (f : Flow) (w : Wave) : (s.setFlow f w).mgmtOut = s.mgmtOut := by cases f <;> rfl
@[simp] theorem State.offered_setFlow (f : Flow) (w : Wave) : (s.setFlow f w).offered = s.offered := by cases f <;> rfl
@[simp] theorem State.now_setFlow (f : Flow) (w : Wave) : (s.setFlow f w).now = s.now := by cases f <;> rfl
@[simp] theorem State.swaps_setFlow (f : Flow) (w : Wave) : (s.setFlow f w).swaps = s.swaps := by cases f <;> rfl
@[simp] theorem State.agenda_setFlow (f : Flow) (w : Wave) : (s.setFlow f w).agenda = s.agenda := by cases f <;> rfl
@[simp] theorem State.cur_setFlow (f : Flow) (w : Wave) : (s.setFlow f w).cur = s.cur := by cases f <;> rfl
@[simp] theorem State.fresh_setFlow (f : Flow) (w : Wave) : (s.setFlow f w).fresh = s.fresh := by cases f <;> rfl
@[simp] theorem State.dstep_setFlow (f : Flow) (w : Wave) : (s.setFlow f w).dstep = s.dstep := by cases f <;> rfl
@[simp] theorem State.mem_modFlow (f : Flow) (g : Wave → Wave) : (s.modFlow f g).mem = s.mem := by unfold State.modFlow; split <;> simp
@[simp] theorem State.poison_modFlow (f : Flow) (g : Wave → Wave) : (s.modFlow f g).poison = s.poison := by unfold State.modFlow; split <;> simp
@[simp] theorem State.tags_modFlow (f : Flow) (g : Wave → Wave) : (s.modFlow f g).tags = s.tags := by unfold State.modFlow; split <;> simp
@[simp] theorem State.launches_modFlow (f : Flow) (g : Wave → Wave) : (s.modFlow f g).launches = s.launches := by unfold State.modFlow; split <;> simp
@[simp] theorem State.queues_modFlow (f : Flow) (g : Wave → Wave) : (s.modFlow f g).queues = s.queues := by unfold State.modFlow; split <;> simp
@[simp] theorem State.contexts_modFlow (f : Flow) (g : Wave → Wave) : (s.modFlow f g).contexts = s.contexts := by unfold State.modFlow; split <;> simp
@[simp] theorem State.globals_modFlow (f : Flow) (g : Wave → Wave) : (s.modFlow f g).globals = s.globals := by unfold State.modFlow; split <;> simp
@[simp] theorem State.chains_modFlow (f : Flow) (g : Wave → Wave) : (s.modFlow f g).chains = s.chains := by unfold State.modFlow; split <;> simp
@[simp] theorem State.reservations_modFlow (f : Flow) (g : Wave → Wave) : (s.modFlow f g).reservations = s.reservations := by unfold State.modFlow; split <;> simp
@[simp] theorem State.saves_modFlow (f : Flow) (g : Wave → Wave) : (s.modFlow f g).saves = s.saves := by unfold State.modFlow; split <;> simp
@[simp] theorem State.codes_modFlow (f : Flow) (g : Wave → Wave) : (s.modFlow f g).codes = s.codes := by unfold State.modFlow; split <;> simp
@[simp] theorem State.translations_modFlow (f : Flow) (g : Wave → Wave) : (s.modFlow f g).translations = s.translations := by unfold State.modFlow; split <;> simp
@[simp] theorem State.signers_modFlow (f : Flow) (g : Wave → Wave) : (s.modFlow f g).signers = s.signers := by unfold State.modFlow; split <;> simp
@[simp] theorem State.wrapped_modFlow (f : Flow) (g : Wave → Wave) : (s.modFlow f g).wrapped = s.wrapped := by unfold State.modFlow; split <;> simp
@[simp] theorem State.isles_modFlow (f : Flow) (g : Wave → Wave) : (s.modFlow f g).isles = s.isles := by unfold State.modFlow; split <;> simp
@[simp] theorem State.bootSlot_modFlow (f : Flow) (g : Wave → Wave) : (s.modFlow f g).bootSlot = s.bootSlot := by unfold State.modFlow; split <;> simp
@[simp] theorem State.power_modFlow (f : Flow) (g : Wave → Wave) : (s.modFlow f g).power = s.power := by unfold State.modFlow; split <;> simp
@[simp] theorem State.mgmtOut_modFlow (f : Flow) (g : Wave → Wave) : (s.modFlow f g).mgmtOut = s.mgmtOut := by unfold State.modFlow; split <;> simp
@[simp] theorem State.offered_modFlow (f : Flow) (g : Wave → Wave) : (s.modFlow f g).offered = s.offered := by unfold State.modFlow; split <;> simp
@[simp] theorem State.now_modFlow (f : Flow) (g : Wave → Wave) : (s.modFlow f g).now = s.now := by unfold State.modFlow; split <;> simp
@[simp] theorem State.swaps_modFlow (f : Flow) (g : Wave → Wave) : (s.modFlow f g).swaps = s.swaps := by unfold State.modFlow; split <;> simp
@[simp] theorem State.agenda_modFlow (f : Flow) (g : Wave → Wave) : (s.modFlow f g).agenda = s.agenda := by unfold State.modFlow; split <;> simp
@[simp] theorem State.cur_modFlow (f : Flow) (g : Wave → Wave) : (s.modFlow f g).cur = s.cur := by unfold State.modFlow; split <;> simp
@[simp] theorem State.fresh_modFlow (f : Flow) (g : Wave → Wave) : (s.modFlow f g).fresh = s.fresh := by unfold State.modFlow; split <;> simp
@[simp] theorem State.dstep_modFlow (f : Flow) (g : Wave → Wave) : (s.modFlow f g).dstep = s.dstep := by unfold State.modFlow; split <;> simp

/-- A change of one flow's record keeps what the cores and dies hold beside their flows. -/
theorem State.core_setFlow_rest (f : Flow) (w : Wave) (c : Nat) : { (s.setFlow f w).core c with waves := [] } = { s.core c with waves := [] } := by
  cases f with
  | wave c' k =>
    by_cases h : c' = c
    · subst h; simp [State.setFlow]
    · simp [State.setFlow, s.core_modCore_ne _ h]
  | steward d t => simp [State.setFlow]

theorem State.die_setFlow_rest (f : Flow) (w : Wave) (d : Nat) : { (s.setFlow f w).die d with stewards := [] } = { s.die d with stewards := [] } := by
  cases f with
  | wave c k => simp [State.setFlow]
  | steward d' t =>
    by_cases h : d' = d
    · subst h; simp [State.setFlow]
    · simp [State.setFlow, s.die_modDie_ne _ h]

end Sys2Proof.Machine
end

