-- ==== Sys2Proof/Laws/Operands.lean ====
section
/-! SUPPORT. Laws of the variables: what each lane reads after each kind of write (R41 to R45), and what a write leaves alone. -/

namespace Sys2Proof.Machine

/-! ### Tables filled lane by lane -/

theorem Tab.get_foldl_set {α : Type} (ls : List Nat) (key : Nat → Nat) (v : Nat → α) (t : Tab α) (k : Nat) (h : ∀ l ∈ ls, key l ≠ k) :
    Tab.get (ls.foldl (fun t l => t.set (key l) (v l)) t) k = Tab.get t k := by
  induction ls generalizing t with
  | nil => rfl
  | cons a ls ih =>
    rw [List.foldl_cons, ih _ (fun l hl => h l (List.mem_cons_of_mem _ hl)), Tab.get_set_ne _ _ (h a (by simp))]

theorem Tab.get_foldl_set_mem {α : Type} (ls : List Nat) (key : Nat → Nat) (v : Nat → α) (t : Tab α) (l : Nat) (hl : l ∈ ls)
    (inj : ∀ a ∈ ls, ∀ b ∈ ls, key a = key b → a = b) : Tab.get (ls.foldl (fun t l => t.set (key l) (v l)) t) (key l) = some (v l) := by
  induction ls generalizing t with
  | nil => cases hl
  | cons a ls ih =>
    rw [List.foldl_cons]
    by_cases hin : l ∈ ls
    · exact ih _ hin (fun x hx y hy => inj x (List.mem_cons_of_mem _ hx) y (List.mem_cons_of_mem _ hy))
    · have hla : l = a := by
        rcases List.mem_cons.1 hl with h | h
        · exact h
        · exact absurd h hin
      subst hla
      rw [Tab.get_foldl_set]
      · simp
      · intro b hb he
        have := inj b (List.mem_cons_of_mem _ hb) l (by simp) he
        exact hin (this ▸ hb)

theorem slotKey_inj {x y l m : Nat} (hl : l < 64) (hm : m < 64) (h : 64 * x + l = 64 * y + m) : x = y ∧ l = m := by omega

/-! ### Records of a wave -/

/-- Two records give a variable the same value for a lane in every state. -/
def Wave.sameVar (w v : Wave) (x l : Nat) : Prop :=
  w.launch = v.launch ∧ w.slots.get (64 * x + l) = v.slots.get (64 * x + l) ∧ w.laneCopies.get (64 * x + l) = v.laneCopies.get (64 * x + l) ∧
    w.copies.get x = v.copies.get x

theorem State.rank_eq (s : State) (f : Flow) (w v : Wave) (x : Nat) (h : w.launch = v.launch) : s.rank f w x = s.rank f v x := by
  simp [State.rank, State.launchOf, h]

theorem State.readVar_of_same (s : State) (f : Flow) (w v : Wave) (x l : Nat) (h : w.sameVar v x l) : s.readVar f w x l = s.readVar f v x l := by
  obtain ⟨hl, hs, hc, hw⟩ := h
  simp [State.readVar, s.rank_eq f w v x hl, Tab.getD, hs, hc, hw]

/-- A read of a variable depends on the state only through the launches and the group's home copy. -/
theorem State.readVar_of_state (s t : State) (f : Flow) (w : Wave) (x l : Nat) (h : t.launches = s.launches) (hg : t.groupHome f x = s.groupHome f x) :
    t.readVar f w x l = s.readVar f w x l := by
  simp [State.readVar, State.rank, State.launchOf, h, hg]

theorem State.rank_of_state (s t : State) (f : Flow) (w : Wave) (x : Nat) (h : t.launches = s.launches) : t.rank f w x = s.rank f w x := by
  simp [State.rank, State.launchOf, h]

theorem State.groupHome_setFlow (s : State) (f : Flow) (w w' : Wave) (hf : s.flow? f = some w) (hg : w'.group = w.group) (f' : Flow) (x : Nat) :
    (s.setFlow f w').groupHome f' x = s.groupHome f' x := by
  cases f' with
  | steward d t => rfl
  | wave c k =>
    cases f with
    | steward d t => simp [State.groupHome, State.groupOf, State.setFlow, State.group?]
    | wave c' k' =>
      by_cases hc : c' = c
      · subst hc
        have hw : (s.core c').waves.get k' = some w := hf
        by_cases hk : k' = k
        · subst hk
          simp [State.groupHome, State.groupOf, State.setFlow, State.group?, hw, hg]
        · simp [State.groupHome, State.groupOf, State.setFlow, State.group?, Tab.get_set_ne _ _ hk]
      · simp [State.groupHome, State.groupOf, State.setFlow, State.group?, s.core_modCore_ne _ hc]

/-- Putting back a record with the same group changes only what that flow's own record says. -/
theorem varAt_setFlow_ne (s : State) (f : Flow) (w w' : Wave) (hf : s.flow? f = some w) (hg : w'.group = w.group) (f' : Flow) (h : f ≠ f') (x l : Nat) :
    varAt (s.setFlow f w') f' x l = varAt s f' x l := by
  unfold varAt
  rw [s.flow?_setFlow_ne w' h]
  congr 1
  funext v
  exact State.readVar_of_state s _ f' v x l (by simp) (s.groupHome_setFlow f w w' hf hg f' x)

theorem varAt_setFlow_self (s : State) (f : Flow) (w w' : Wave) (hf : s.flow? f = some w) (hg : w'.group = w.group) (x l : Nat) :
    varAt (s.setFlow f w') f x l = some (s.readVar f w' x l) := by
  unfold varAt
  rw [s.flow?_setFlow_self f w']
  simp only [Option.map_some]
  congr 1
  exact State.readVar_of_state s _ f w' x l (by simp) (s.groupHome_setFlow f w w' hf hg f x)

/-- A record that reads alike changes no variable of any flow. -/
theorem varAt_setFlow_same (s : State) (f : Flow) (w w' : Wave) (hf : s.flow? f = some w) (hg : w'.group = w.group) (f' : Flow) (x l : Nat)
    (h : w'.sameVar w x l) : varAt (s.setFlow f w') f' x l = varAt s f' x l := by
  by_cases hff : f = f'
  · subst hff
    rw [varAt_setFlow_self s f w w' hf hg, varAt, hf]
    simp only [Option.map_some]
    rw [s.readVar_of_same f w' w x l h]
  · exact varAt_setFlow_ne s f w w' hf hg f' hff x l

theorem varAt_modFlow_same (s : State) (f : Flow) (g : Wave → Wave) (f' : Flow) (x l : Nat) (hg : ∀ w, (g w).group = w.group)
    (h : ∀ w, (g w).sameVar w x l) : varAt (s.modFlow f g) f' x l = varAt s f' x l := by
  unfold State.modFlow
  split
  · rename_i w hw
    exact varAt_setFlow_same s f w (g w) hw (hg w) f' x l (h w)
  · rfl

/-! ### The three kinds of write on a record -/

@[simp] theorem Wave.fixOctets_slots (w : Wave) : w.fixOctets.slots = w.slots := rfl
@[simp] theorem Wave.fixOctets_copies (w : Wave) : w.fixOctets.copies = w.copies := rfl
@[simp] theorem Wave.fixOctets_laneCopies (w : Wave) : w.fixOctets.laneCopies = w.laneCopies := rfl
@[simp] theorem Wave.fixOctets_launch (w : Wave) : w.fixOctets.launch = w.launch := rfl
@[simp] theorem Wave.fixOctets_group (w : Wave) : w.fixOctets.group = w.group := rfl
@[simp] theorem Wave.fixOctets_still (w : Wave) : w.fixOctets.still = w.still := rfl
@[simp] theorem Wave.fixOctets_wstat (w : Wave) : w.fixOctets.wstat = w.wstat := rfl

theorem Wave.ensureCopy_eq (w : Wave) (x : Nat) (home : Word) : w.ensureCopy x home = { w with copies := (w.ensureCopy x home).copies } := by
  unfold Wave.ensureCopy; split <;> rfl

theorem Wave.get_ensureCopy (w : Wave) (x : Nat) (home : Word) (y : Nat) :
    (w.ensureCopy x home).copies.get y = if x = y then some ((w.copies.get x).getD home) else w.copies.get y := by
  unfold Wave.ensureCopy
  split
  · rename_i v h
    by_cases hxy : x = y
    · subst hxy; simp [h]
    · simp [hxy]
  · rename_i h
    by_cases hxy : x = y
    · subst hxy; simp [h]
    · simp [hxy, Tab.get_set_ne _ _ hxy]

theorem Wave.foldl_setLane (ls : List Nat) (x : Nat) (v : Nat → Word) (w : Wave) :
    ls.foldl (fun w l => w.setLane x l (v l)) w = { w with laneCopies := ls.foldl (fun t l => t.set (64 * x + l) (v l)) w.laneCopies } := by
  induction ls generalizing w with
  | nil => rfl
  | cons a ls ih => rw [List.foldl_cons, ih]; rfl

/-- A lane-class write is a change of slots, copies, lane copies and octets. -/
theorem Wave.writeRun_eq (w : Wave) (r : Rank) (home : Word) (x : Nat) (run : LaneMask) (v : Nat → Word) :
    w.writeRun r home x run v = { w with
      slots := (w.writeRun r home x run v).slots, copies := (w.writeRun r home x run v).copies,
      laneCopies := (w.writeRun r home x run v).laneCopies, octets := (w.writeRun r home x run v).octets,
      overflowed := (w.writeRun r home x run v).overflowed } := by
  unfold Wave.writeRun
  have key : ∀ (q : Wave), (∃ a b c d e, q = { w with slots := a, copies := b, laneCopies := c, octets := d, overflowed := e }) →
      q = { w with slots := q.slots, copies := q.copies, laneCopies := q.laneCopies, octets := q.octets, overflowed := q.overflowed } := by
    rintro q ⟨a, b, c, d, e, rfl⟩; rfl
  apply key
  cases r with
  | lane => exact ⟨_, _, _, _, _, rfl⟩
  | wave =>
    simp only [reduceCtorEq, if_false]
    split
    · exact ⟨_, _, _, _, _, rfl⟩
    · rw [Wave.foldl_setLane]; exact ⟨_, _, _, _, _, rfl⟩
  | group =>
    simp only [if_true]
    rw [Wave.ensureCopy_eq]
    split
    · exact ⟨_, _, _, _, _, rfl⟩
    · rw [Wave.foldl_setLane]; exact ⟨_, _, _, _, _, rfl⟩

@[simp] theorem Wave.writeRun_launch (w : Wave) (r : Rank) (home : Word) (x : Nat) (run : LaneMask) (v : Nat → Word) :
    (w.writeRun r home x run v).launch = w.launch := by rw [Wave.writeRun_eq]
@[simp] theorem Wave.writeRun_group (w : Wave) (r : Rank) (home : Word) (x : Nat) (run : LaneMask) (v : Nat → Word) :
    (w.writeRun r home x run v).group = w.group := by rw [Wave.writeRun_eq]
@[simp] theorem Wave.writeRun_wstat (w : Wave) (r : Rank) (home : Word) (x : Nat) (run : LaneMask) (v : Nat → Word) :
    (w.writeRun r home x run v).wstat = w.wstat := by rw [Wave.writeRun_eq]
@[simp] theorem Wave.writeRun_still (w : Wave) (r : Rank) (home : Word) (x : Nat) (run : LaneMask) (v : Nat → Word) :
    (w.writeRun r home x run v).still = w.still := by rw [Wave.writeRun_eq]; rfl

theorem Tab.get_keep_var {α : Type} (t : Tab α) (d : α) (x y l : Nat) (hl : l < 64) :
    (Tab.keep t (fun k _ => k / 64 != x)).get (64 * y + l) = if x = y then none else t.get (64 * y + l) := by
  rw [Tab.get_keep _ _ (fun _ _ _ => rfl) _ d]
  have : (64 * y + l) / 64 = y := by omega
  rw [this]
  by_cases h : x = y
  · subst h; simp
  · have : y ≠ x := fun e => h e.symm
    simp [h, this]

/-- Other variables of the record read as before. -/
theorem Wave.writeRun_other (w : Wave) (r : Rank) (home : Word) (x : Nat) (run : LaneMask) (v : Nat → Word) (y l : Nat) (hl : l < 64) (h : x ≠ y) :
    (w.writeRun r home x run v).sameVar w y l := by
  have ne : ∀ m ∈ LaneMask.toList run, 64 * x + m ≠ 64 * y + l := by
    intro m hm he
    exact h (slotKey_inj (LaneMask.lt_of_mem run m hm) hl he).1
  refine ⟨by simp, ?_, ?_, ?_⟩ <;> unfold Wave.writeRun <;> cases r with
  | lane => first | exact Tab.get_foldl_set _ _ _ _ _ ne | rfl
  | wave =>
    simp only [reduceCtorEq, if_false]
    split
    · simp [Tab.get_keep_var _ (0 : Word) x y l hl, h, Tab.get_set_ne, Wave.dropLanes]
    · simp [Wave.foldl_setLane, Tab.get_foldl_set _ _ _ _ _ ne]
  | group =>
    simp only [if_true]
    rw [Wave.ensureCopy_eq]
    split
    · simp [Tab.get_keep_var _ (0 : Word) x y l hl, h, Tab.get_set_ne, Wave.dropLanes, Wave.get_ensureCopy]
    · simp [Wave.foldl_setLane, Tab.get_foldl_set _ _ _ _ _ ne, Wave.get_ensureCopy, h]

/-- What the tables hold for a lane of the run after a lane-class write of a variable that is not lane-home. -/
theorem Wave.writeRun_mem (w : Wave) (r : Rank) (home : Word) (x l : Nat) (run : LaneMask) (v : Nat → Word) (hr : r ≠ .lane) (hl : run.getLsbD l = true) :
    (w.writeRun r home x run v).laneCopies.get (64 * x + l) = some (v l) ∨
      ((w.writeRun r home x run v).laneCopies.get (64 * x + l) = none ∧ (w.writeRun r home x run v).copies.get x = some (v l)) := by
  have hmem : l ∈ LaneMask.toList run := (LaneMask.mem_toList run l).2 hl
  have hlt : l < 64 := LaneMask.lt_of_mem run l hmem
  have inj : ∀ a ∈ LaneMask.toList run, ∀ b ∈ LaneMask.toList run, 64 * x + a = 64 * x + b → a = b := fun a _ b _ h => by omega
  have hv : (LaneMask.toList run).all (fun l => v l == v run.lowest) = true → v l = v run.lowest := by
    intro h
    simpa using List.all_eq_true.1 h l hmem
  unfold Wave.writeRun
  cases r with
  | lane => exact absurd rfl hr
  | wave =>
    simp only [reduceCtorEq, if_false]
    split
    · rename_i h
      right
      rw [hv h.2]
      simp [Wave.dropLanes, Tab.get_keep_var _ (0 : Word) x x l hlt]
    · left
      simp only [Wave.foldl_setLane, Wave.fixOctets_laneCopies]
      exact Tab.get_foldl_set_mem _ (fun l => 64 * x + l) v _ l hmem inj
  | group =>
    simp only [if_true]
    rw [Wave.ensureCopy_eq]
    split
    · rename_i h
      right
      rw [hv h.2]
      simp [Wave.dropLanes, Tab.get_keep_var _ (0 : Word) x x l hlt]
    · left
      simp only [Wave.foldl_setLane, Wave.fixOctets_laneCopies]
      exact Tab.get_foldl_set_mem _ (fun l => 64 * x + l) v _ l hmem inj

/-- The lanes of the run read their own values. -/
theorem State.readVar_writeRun_mem (s : State) (f : Flow) (w : Wave) (x l : Nat) (run : LaneMask) (v : Nat → Word) (hl : run.getLsbD l = true) :
    s.readVar f (w.writeRun (s.rank f w x) (s.groupHome f x) x run v) x l = v l := by
  have hmem : l ∈ LaneMask.toList run := (LaneMask.mem_toList run l).2 hl
  unfold State.readVar
  rw [s.rank_eq f (w.writeRun _ _ x run v) w x (by simp)]
  cases hr : s.rank f w x with
  | lane =>
    simp only [Tab.getD, Wave.writeRun]
    rw [Tab.get_foldl_set_mem _ (fun l => 64 * x + l) v _ l hmem (fun a _ b _ h => by omega)]
    rfl
  | wave =>
    rcases w.writeRun_mem .wave (s.groupHome f x) x l run v (by simp) hl with h | ⟨h, h'⟩
    · simp [h]
    · simp [h, h', Tab.getD]
  | group =>
    rcases w.writeRun_mem .group (s.groupHome f x) x l run v (by simp) hl with h | ⟨h, h'⟩
    · simp [h]
    · simp [h, h']

/-- The other live lanes read as before. -/
theorem State.readVar_writeRun_not_mem (s : State) (f : Flow) (w : Wave) (x l : Nat) (run : LaneMask) (v : Nat → Word) (hl : run.getLsbD l = false)
    (hlive : w.live.getLsbD l = true) : s.readVar f (w.writeRun (s.rank f w x) (s.groupHome f x) x run v) x l = s.readVar f w x l := by
  have hlt : l < 64 := BitVec.lt_of_getLsbD hlive
  have ne : ∀ m ∈ LaneMask.toList run, 64 * x + m ≠ 64 * x + l := by
    intro m hm he
    have : m = l := by omega
    subst this
    rw [(LaneMask.mem_toList run m).1 hm] at hl
    cases hl
  have hne : ∀ (q : Prop), ¬ (run = w.live ∧ q) := by
    rintro q ⟨h, _⟩
    rw [h, hlive] at hl
    cases hl
  unfold State.readVar
  rw [s.rank_eq f (w.writeRun _ _ x run v) w x (by simp)]
  unfold Wave.writeRun
  cases hr : s.rank f w x with
  | lane =>
    simp only [Tab.getD]
    rw [Tab.get_foldl_set _ _ _ _ _ ne]
  | wave =>
    simp only [reduceCtorEq, if_false, hne]
    simp only [Wave.foldl_setLane, Wave.fixOctets_laneCopies, Wave.fixOctets_copies]
    rw [Tab.get_foldl_set _ _ _ _ _ ne]
  | group =>
    simp only [if_true]
    rw [Wave.ensureCopy_eq]
    simp only [hne, if_false]
    simp only [Wave.foldl_setLane, Wave.fixOctets_laneCopies, Wave.fixOctets_copies, Wave.get_ensureCopy, if_true]
    rw [Tab.get_foldl_set _ _ _ _ _ ne]
    cases h1 : w.laneCopies.get (64 * x + l) <;> cases h2 : w.copies.get x <;> rfl

/-- A wave-class write of a variable whose rank is not lane: what each lane reads (R42). -/
theorem State.readVar_writeScalar (s : State) (f : Flow) (w : Wave) (x l : Nat) (v : Word) (h : s.rank f w x ≠ .lane) :
    s.readVar f (w.writeScalar x v) x l = if (w.laneCopies.get (64 * x + l)).isSome then s.readVar f w x l else v := by
  have hr' : s.rank f (w.writeScalar x v) x = s.rank f w x := s.rank_eq f (w.writeScalar x v) w x rfl
  unfold State.readVar
  rw [hr']
  cases hr : s.rank f w x with
  | lane => exact absurd hr h
  | wave =>
    simp only [Wave.writeScalar]
    cases hc : w.laneCopies.get (64 * x + l) <;> simp [Tab.getD]
  | group =>
    simp only [Wave.writeScalar]
    cases hc : w.laneCopies.get (64 * x + l) <;> simp

theorem Wave.writeScalar_other (w : Wave) (x : Nat) (v : Word) (y l : Nat) (h : x ≠ y) : (w.writeScalar x v).sameVar w y l :=
  ⟨rfl, rfl, rfl, Tab.get_set_ne _ _ h⟩

@[simp] theorem Wave.writeScalar_still (w : Wave) (x : Nat) (v : Word) : (w.writeScalar x v).still = w.still := rfl
@[simp] theorem Wave.writeScalar_wstat (w : Wave) (x : Nat) (v : Word) : (w.writeScalar x v).wstat = w.wstat := rfl
@[simp] theorem Wave.writeScalar_laneCopies (w : Wave) (x : Nat) (v : Word) : (w.writeScalar x v).laneCopies = w.laneCopies := rfl

end Sys2Proof.Machine
end

