-- ==== Sys2Proof/Laws/Frame.lean ====
section
/-! SUPPORT. Laws of what an instruction leaves alone: the frame of each shared operation on variables, octets, latches and positions. -/

namespace Sys2Proof.Machine

/-- Two states differ only in variables, octets, latches, places in the program, WSTAT bits, exemptions used, capture marks and SPLIT_OVF. -/
structure OnlyVars (s t : State) : Prop where
  rest : { t with cores := s.cores, dies := s.dies } = s
  flows : ∀ f, (t.flow? f).map Wave.still = (s.flow? f).map Wave.still
  cores : ∀ c, (t.core c).still = (s.core c).still
  dies : ∀ d, (t.die d).still = (s.die d).still
  groups : ∀ c g, (t.group? c g).map Group.still = (s.group? c g).map Group.still

theorem OnlyVars.refl (s : State) : OnlyVars s s := ⟨rfl, fun _ => rfl, fun _ => rfl, fun _ => rfl, fun _ _ => rfl⟩

theorem OnlyVars.trans {s t u : State} (h : OnlyVars s t) (k : OnlyVars t u) : OnlyVars s u where
  rest := by
    have := congrArg (fun x : State => { x with cores := s.cores, dies := s.dies }) k.rest
    exact this.trans h.rest
  flows f := (k.flows f).trans (h.flows f)
  cores c := (k.cores c).trans (h.cores c)
  dies d := (k.dies d).trans (h.dies d)
  groups c g := (k.groups c g).trans (h.groups c g)

theorem State.group?_setFlow (s : State) (f : Flow) (w : Wave) (c g : Nat) : (s.setFlow f w).group? c g = s.group? c g := by
  cases f with
  | wave c' k =>
    by_cases h : c' = c
    · subst h; simp [State.group?, State.setFlow]
    · simp [State.group?, State.setFlow, s.core_modCore_ne _ h]
  | steward d t => simp [State.group?, State.setFlow]

theorem OnlyVars.setFlow (s : State) (f : Flow) (w w' : Wave) (hf : s.flow? f = some w) (h : w'.still = w.still) : OnlyVars s (s.setFlow f w') where
  rest := by cases f <;> rfl
  flows f' := by
    by_cases hff : f = f'
    · subst hff; simp [hf, h]
    · rw [s.flow?_setFlow_ne w' hff]
  cores c := congrArg (fun q : Core => { q with groups := [], splitOvf := 0, octetAge := [] }) (s.core_setFlow_rest f w' c)
  dies d := s.die_setFlow_rest f w' d
  groups c g := by rw [s.group?_setFlow]

theorem OnlyVars.modFlow (s : State) (f : Flow) (g : Wave → Wave) (h : ∀ w, (g w).still = w.still) : OnlyVars s (s.modFlow f g) := by
  unfold State.modFlow
  split
  · rename_i w hw
    exact OnlyVars.setFlow s f w (g w) hw (h w)
  · exact OnlyVars.refl s

/-- A change of a core that keeps its flows and groups, and all else but SPLIT_OVF. -/
theorem OnlyVars.modCore (s : State) (c : Nat) (g : Core → Core) (h : ∀ q, (g q).still = q.still) (hw : ∀ q, (g q).waves = q.waves)
    (hg : ∀ q, (g q).groups = q.groups) : OnlyVars s (s.modCore c g) where
  rest := rfl
  flows f := by rw [s.flow?_modCore c g (hw _)]
  cores c' := by
    by_cases hc : c = c'
    · subst hc; simp [h]
    · rw [s.core_modCore_ne g hc]
  dies d := rfl
  groups c' g' := by
    by_cases hc : c = c'
    · subst hc; simp [State.group?, hg]
    · simp [State.group?, s.core_modCore_ne g hc]

theorem OnlyVars.modGroup (s : State) (c g : Nat) (h : Group → Group) (hs : ∀ q, (h q).still = q.still) : OnlyVars s (s.modGroup c g h) where
  rest := rfl
  flows f := by simp
  cores c' := by
    unfold State.modGroup
    by_cases hc : c = c'
    · subst hc; simp [Core.still]
    · rw [s.core_modCore_ne _ hc]
  dies d := rfl
  groups c' g' := by
    unfold State.modGroup State.group?
    by_cases hc : c = c'
    · subst hc
      by_cases hg : g = g'
      · subst hg
        cases hq : (s.core c).groups.get g <;> simp [hq, hs]
      · simp [Tab.get_upd_ne _ _ hg]
    · rw [s.core_modCore_ne _ hc]

/-! ### Variables under the same operations -/

theorem State.groupHome_modCore (s : State) (c : Nat) (g : Core → Core) (hw : ∀ q, (g q).waves = q.waves) (hg : ∀ q, (g q).groups = q.groups) (f : Flow)
    (x : Nat) : (s.modCore c g).groupHome f x = s.groupHome f x := by
  cases f with
  | steward d t => rfl
  | wave c' k =>
    by_cases hc : c = c'
    · subst hc; simp [State.groupHome, State.groupOf, State.group?, hw, hg]
    · simp [State.groupHome, State.groupOf, State.group?, s.core_modCore_ne g hc]

theorem varAt_modCore (s : State) (c : Nat) (g : Core → Core) (hw : ∀ q, (g q).waves = q.waves) (hg : ∀ q, (g q).groups = q.groups) (f : Flow)
    (x l : Nat) : varAt (s.modCore c g) f x l = varAt s f x l := by
  unfold varAt
  rw [s.flow?_modCore c g (hw _)]
  congr 1
  funext w
  exact State.readVar_of_state s _ f w x l rfl (s.groupHome_modCore c g hw hg f x)

theorem State.groupHome_modGroup (s : State) (c g : Nat) (h : Group → Group) (hh : ∀ q, (h q).home = q.home) (f : Flow) (x : Nat) :
    (s.modGroup c g h).groupHome f x = s.groupHome f x := by
  cases f with
  | steward d t => rfl
  | wave c' k =>
    by_cases hc : c = c'
    · subst hc
      unfold State.groupHome State.groupOf State.modGroup
      simp only [s.core_modCore_self]
      cases hw : (s.core c).waves.get k with
      | none => simp
      | some w =>
        simp only [State.group?, s.core_modCore_self]
        by_cases hg : g = w.group
        · subst hg
          cases hq : (s.core c).groups.get w.group <;> simp [hq, hh]
        · simp [Tab.get_upd_ne _ _ hg]
    · simp [State.groupHome, State.groupOf, State.group?, State.modGroup, s.core_modCore_ne _ hc]

theorem varAt_modGroup (s : State) (c g : Nat) (h : Group → Group) (hh : ∀ q, (h q).home = q.home) (f : Flow) (x l : Nat) :
    varAt (s.modGroup c g h) f x l = varAt s f x l := by
  unfold varAt
  rw [s.flow?_modGroup]
  congr 1
  funext w
  exact State.readVar_of_state s _ f w x l rfl (s.groupHome_modGroup c g h hh f x)

/-! ### Writes of variables -/

theorem State.noteWrite_cases (s : State) (f : Flow) (x : Nat) :
    s.noteWrite f x = s ∨ ∃ c g h, s.noteWrite f x = s.modGroup c g h ∧ (∀ q : Group, (h q).still = q.still) ∧ ∀ q : Group, (h q).home = q.home := by
  unfold State.noteWrite
  split
  · exact .inr ⟨_, _, _, rfl, fun _ => rfl, fun _ => rfl⟩
  · exact .inl rfl

@[simp] theorem State.flow?_noteWrite (s : State) (f : Flow) (x : Nat) (f' : Flow) : (s.noteWrite f x).flow? f' = s.flow? f' := by
  rcases s.noteWrite_cases f x with h | ⟨c, g, h, he, _, _⟩
  · rw [h]
  · rw [he, s.flow?_modGroup]

theorem varAt_noteWrite (s : State) (f : Flow) (x : Nat) (f' : Flow) (y l : Nat) : varAt (s.noteWrite f x) f' y l = varAt s f' y l := by
  rcases s.noteWrite_cases f x with h | ⟨c, g, h, he, _, hh⟩
  · rw [h]
  · rw [he, varAt_modGroup s c g h hh]

theorem OnlyVars.noteWrite (s : State) (f : Flow) (x : Nat) : OnlyVars s (s.noteWrite f x) := by
  rcases s.noteWrite_cases f x with h | ⟨c, g, h, he, hs, _⟩
  · rw [h]; exact OnlyVars.refl s
  · rw [he]; exact OnlyVars.modGroup s c g h hs

/-- The record that a write of one variable puts back. -/
def State.written (s : State) (f : Flow) (w : Wave) (scalar : Bool) (x : Nat) (run : LaneMask) (v : Nat → Word) : Wave :=
  if scalar then w.writeScalar x (v (LaneMask.lowest run)) else w.writeRun (s.rank f w x) (s.groupHome f x) x run v

@[simp] theorem State.written_still (s : State) (f : Flow) (w : Wave) (scalar : Bool) (x : Nat) (run : LaneMask) (v : Nat → Word) :
    (s.written f w scalar x run v).still = w.still := by unfold State.written; split <;> simp
@[simp] theorem State.written_wstat (s : State) (f : Flow) (w : Wave) (scalar : Bool) (x : Nat) (run : LaneMask) (v : Nat → Word) :
    (s.written f w scalar x run v).wstat = w.wstat := by unfold State.written; split <;> simp

theorem Wave.of_still {w v : Wave} (h : w.still = v.still) : w.launch = v.launch ∧ w.group = v.group ∧ w.live = v.live ∧ w.traced = v.traced ∧
    w.handler = v.handler ∧ w.halted = v.halted ∧ w.number = v.number := by
  have : ∀ {α : Type} (p : Wave → α), (∀ u : Wave, p u.still = p u) → p w = p v := fun p hp => by rw [← hp w, ← hp v, h]
  exact ⟨this _ fun _ => rfl, this _ fun _ => rfl, this _ fun _ => rfl, this _ fun _ => rfl, this _ fun _ => rfl, this _ fun _ => rfl, this _ fun _ => rfl⟩

theorem State.writeVar_eq (s : State) (f : Flow) (w : Wave) (hf : s.flow? f = some w) (scalar : Bool) (x : Nat) (run : LaneMask) (v : Nat → Word) :
    s.writeVar f scalar x run v = (s.setFlow f (s.written f w scalar x run v)) ∨
      s.writeVar f scalar x run v = (s.setFlow f (s.written f w scalar x run v)).noteWrite f x := by
  unfold State.writeVar State.written
  simp only [hf]
  split
  · exact .inr rfl
  · exact .inl rfl

theorem State.flow?_writeVar (s : State) (f : Flow) (w : Wave) (hf : s.flow? f = some w) (scalar : Bool) (x : Nat) (run : LaneMask) (v : Nat → Word) :
    (s.writeVar f scalar x run v).flow? f = some (s.written f w scalar x run v) := by
  rcases s.writeVar_eq f w hf scalar x run v with h | h <;> rw [h] <;> simp

theorem State.flow?_writeVar_ne (s : State) (f f' : Flow) (hff : f ≠ f') (scalar : Bool) (x : Nat) (run : LaneMask) (v : Nat → Word) :
    (s.writeVar f scalar x run v).flow? f' = s.flow? f' := by
  cases hf : s.flow? f with
  | none => unfold State.writeVar; simp [hf]
  | some w =>
    rcases s.writeVar_eq f w hf scalar x run v with h | h <;> rw [h] <;> simp [s.flow?_setFlow_ne _ hff]

theorem OnlyVars.writeVar (s : State) (f : Flow) (scalar : Bool) (x : Nat) (run : LaneMask) (v : Nat → Word) : OnlyVars s (s.writeVar f scalar x run v) := by
  cases hf : s.flow? f with
  | none => unfold State.writeVar; simp only [hf]; exact OnlyVars.refl s
  | some w =>
    have h1 := OnlyVars.setFlow s f w (s.written f w scalar x run v) hf (by simp)
    rcases s.writeVar_eq f w hf scalar x run v with h | h <;> rw [h]
    · exact h1
    · exact h1.trans (OnlyVars.noteWrite _ f x)

/-- A write of a variable changes no other variable, and no variable of another flow. -/
theorem varAt_writeVar_other (s : State) (f : Flow) (scalar : Bool) (x : Nat) (run : LaneMask) (v : Nat → Word) (f' : Flow) (y l : Nat) (hl : l < 64)
    (h : ¬(f' = f ∧ y = x)) : varAt (s.writeVar f scalar x run v) f' y l = varAt s f' y l := by
  cases hf : s.flow? f with
  | none => unfold State.writeVar; simp only [hf]
  | some w =>
    have hg : (s.written f w scalar x run v).group = w.group := (Wave.of_still (s.written_still f w scalar x run v)).2.1
    have h1 : varAt (s.setFlow f (s.written f w scalar x run v)) f' y l = varAt s f' y l := by
      by_cases hff : f = f'
      · subst hff
        have hxy : x ≠ y := fun e => h ⟨rfl, e.symm⟩
        refine varAt_setFlow_same s f w _ hf hg f y l ?_
        unfold State.written
        split
        · exact w.writeScalar_other x _ y l hxy
        · exact w.writeRun_other _ _ x run v y l hl hxy
      · exact varAt_setFlow_ne s f w _ hf hg f' hff y l
    rcases s.writeVar_eq f w hf scalar x run v with he | he <;> rw [he]
    · exact h1
    · rw [varAt_noteWrite, h1]

theorem varAt_writeVar_self (s : State) (f : Flow) (w : Wave) (hf : s.flow? f = some w) (scalar : Bool) (x : Nat) (run : LaneMask) (v : Nat → Word) (l : Nat) :
    varAt (s.writeVar f scalar x run v) f x l = some (s.readVar f (s.written f w scalar x run v) x l) := by
  have hg : (s.written f w scalar x run v).group = w.group := (Wave.of_still (s.written_still f w scalar x run v)).2.1
  have h1 := varAt_setFlow_self s f w _ hf hg x l
  rcases s.writeVar_eq f w hf scalar x run v with he | he <;> rw [he]
  · exact h1
  · rw [varAt_noteWrite, h1]

/-- After a lane-class write each lane of the run reads its own value. -/
theorem varAt_writeVar_run (s : State) (f : Flow) (w : Wave) (hf : s.flow? f = some w) (x : Nat) (run : LaneMask) (v : Nat → Word) (l : Nat)
    (hl : run.getLsbD l = true) : varAt (s.writeVar f false x run v) f x l = some (v l) := by
  rw [varAt_writeVar_self s f w hf]
  exact congrArg some (s.readVar_writeRun_mem f w x l run v hl)

/-- After a lane-class write each other live lane reads as before. -/
theorem varAt_writeVar_off (s : State) (f : Flow) (w : Wave) (hf : s.flow? f = some w) (x : Nat) (run : LaneMask) (v : Nat → Word) (l : Nat)
    (hl : run.getLsbD l = false) (hlive : w.live.getLsbD l = true) : varAt (s.writeVar f false x run v) f x l = varAt s f x l := by
  rw [varAt_writeVar_self s f w hf]
  unfold varAt
  rw [hf]
  exact congrArg some (s.readVar_writeRun_not_mem f w x l run v hl hlive)

/-- After a wave-class write each lane reads the value, but for a lane that holds a copy. -/
theorem varAt_writeVar_scalar (s : State) (f : Flow) (w : Wave) (hf : s.flow? f = some w) (x : Nat) (run : LaneMask) (v : Nat → Word) (l : Nat)
    (hr : s.rank f w x ≠ .lane) : varAt (s.writeVar f true x run v) f x l =
      if (w.laneCopies.get (64 * x + l)).isSome then varAt s f x l else some (v (LaneMask.lowest run)) := by
  rw [varAt_writeVar_self s f w hf]
  show some (s.readVar f (w.writeScalar x (v (LaneMask.lowest run))) x l) = _
  rw [s.readVar_writeScalar f w x l _ hr]
  unfold varAt
  rw [hf]
  split <;> rfl

end Sys2Proof.Machine
end

