-- ==== Sys2Proof/Laws/Issue.lean ====
section
/-! SUPPORT. Laws of how an instruction issues: what a result writes, what the eviction of octets and the leaving of a clause keep, and the one law of an
undisturbed instruction (R17, R18, R40 to R45, R53, R289, R290). -/

namespace Sys2Proof.Machine

/-! ### Results of several words -/

theorem State.writeVars_succ (s : State) (f : Flow) (scalar : Bool) (x n : Nat) (run : LaneMask) (v : Nat → List Word) :
    s.writeVars f scalar x (n + 1) run v = (s.writeVars f scalar x n run v).writeVar f scalar (x + n) run (fun l => ((v l)[n]?).getD 0) := by
  unfold State.writeVars
  rw [List.range_succ, List.foldl_append]
  rfl

theorem OnlyVars.writeVars (s : State) (f : Flow) (scalar : Bool) (x n : Nat) (run : LaneMask) (v : Nat → List Word) :
    OnlyVars s (s.writeVars f scalar x n run v) := by
  induction n with
  | zero => exact OnlyVars.refl s
  | succ n ih => rw [State.writeVars_succ]; exact ih.trans (OnlyVars.writeVar _ f scalar _ run _)

/-- The record after a result's words, with what a later write of the same result still needs of it. -/
theorem State.flow?_writeVars (s : State) (f : Flow) (w : Wave) (hf : s.flow? f = some w) (scalar : Bool) (x n : Nat) (run : LaneMask) (v : Nat → List Word) :
    ∃ w', (s.writeVars f scalar x n run v).flow? f = some w' ∧ w'.still = w.still ∧ w'.wstat = w.wstat ∧ w'.latches = w.latches ∧ w'.clause = w.clause ∧
      w'.counter = w.counter ∧ w'.word = w.word ∧ w'.hpc = w.hpc ∧ (scalar = true → w'.laneCopies = w.laneCopies) := by
  induction n with
  | zero => exact ⟨w, hf, rfl, rfl, rfl, rfl, rfl, rfl, rfl, fun _ => rfl⟩
  | succ n ih =>
    obtain ⟨w', h0, h1, h2, h3, h4, h5, h6, h7, h8⟩ := ih
    rw [State.writeVars_succ]
    refine ⟨_, State.flow?_writeVar _ f w' h0 scalar _ run _, by rw [State.written_still, h1], by rw [State.written_wstat, h2], ?_⟩
    unfold State.written
    cases scalar with
    | true => exact ⟨h3, h4, h5, h6, h7, h8⟩
    | false =>
      rw [if_neg Bool.false_ne_true, Wave.writeRun_eq]
      exact ⟨h3, h4, h5, h6, h7, fun h => absurd h Bool.false_ne_true⟩

theorem State.flow?_writeVars_ne (s : State) (f f' : Flow) (h : f ≠ f') (scalar : Bool) (x n : Nat) (run : LaneMask) (v : Nat → List Word) :
    (s.writeVars f scalar x n run v).flow? f' = s.flow? f' := by
  induction n with
  | zero => rfl
  | succ n ih => rw [State.writeVars_succ, State.flow?_writeVar_ne _ f f' h, ih]

theorem varAt_writeVars_other (s : State) (f : Flow) (scalar : Bool) (x n : Nat) (run : LaneMask) (v : Nat → List Word) (f' : Flow) (y l : Nat)
    (hl : l < 64) (h : ¬(f' = f ∧ x ≤ y ∧ y < x + n)) : varAt (s.writeVars f scalar x n run v) f' y l = varAt s f' y l := by
  induction n with
  | zero => rfl
  | succ n ih =>
    rw [State.writeVars_succ, varAt_writeVar_other _ f scalar _ run _ f' y l hl, ih]
    · rintro ⟨h1, h2, h3⟩; exact h ⟨h1, h2, by omega⟩
    · rintro ⟨h1, h2⟩; exact h ⟨h1, by omega, by omega⟩

theorem varAt_writeVars_run (s : State) (f : Flow) (w : Wave) (hf : s.flow? f = some w) (x n : Nat) (run : LaneMask) (v : Nat → List Word) (k l : Nat)
    (hk : k < n) (hl : run.getLsbD l = true) : varAt (s.writeVars f false x n run v) f (x + k) l = some (((v l)[k]?).getD 0) := by
  have hlt : l < 64 := BitVec.lt_of_getLsbD hl
  induction n with
  | zero => omega
  | succ n ih =>
    rw [State.writeVars_succ]
    obtain ⟨w', h0, _⟩ := s.flow?_writeVars f w hf false x n run v
    by_cases hkn : k = n
    · subst hkn
      exact varAt_writeVar_run _ f w' h0 _ run _ l hl
    · rw [varAt_writeVar_other _ f false _ run _ f _ l hlt (by omega)]
      exact ih (by omega)

theorem varAt_writeVars_off (s : State) (f : Flow) (w : Wave) (hf : s.flow? f = some w) (x n : Nat) (run : LaneMask) (v : Nat → List Word) (y l : Nat)
    (hl : run.getLsbD l = false) (hlive : w.live.getLsbD l = true) : varAt (s.writeVars f false x n run v) f y l = varAt s f y l := by
  have hlt : l < 64 := BitVec.lt_of_getLsbD hlive
  induction n with
  | zero => rfl
  | succ n ih =>
    rw [State.writeVars_succ]
    obtain ⟨w', h0, h1, _⟩ := s.flow?_writeVars f w hf false x n run v
    by_cases hy : y = x + n
    · subst hy
      rw [varAt_writeVar_off _ f w' h0 _ run _ l hl, ih]
      rw [(Wave.of_still h1).2.2.1]; exact hlive
    · rw [varAt_writeVar_other _ f false _ run _ f _ l hlt (by omega), ih]

theorem varAt_writeVars_scalar (s : State) (f : Flow) (w : Wave) (hf : s.flow? f = some w) (x n : Nat) (run : LaneMask) (v : Nat → List Word) (k l : Nat)
    (hk : k < n) (hlt : l < 64) (hr : ∀ j < n, s.rank f w (x + j) ≠ .lane) : varAt (s.writeVars f true x n run v) f (x + k) l =
      if (w.laneCopies.get (64 * (x + k) + l)).isSome then varAt s f (x + k) l else some (((v (LaneMask.lowest run))[k]?).getD 0) := by
  induction n with
  | zero => omega
  | succ n ih =>
    rw [State.writeVars_succ]
    obtain ⟨w', h0, h1, _, _, _, _, _, _, h8⟩ := s.flow?_writeVars f w hf true x n run v
    by_cases hkn : k = n
    · subst hkn
      have hrank : (s.writeVars f true x k run v).rank f w' (x + k) ≠ .lane := by
        have hl : (s.writeVars f true x k run v).launches = s.launches := by
          have := congrArg State.launches (OnlyVars.writeVars s f true x k run v).rest
          exact this
        rw [State.rank_of_state s _ f w' (x + k) hl, s.rank_eq f w' w (x + k) (Wave.of_still h1).1]
        exact hr k (by omega)
      rw [varAt_writeVar_scalar _ f w' h0 _ run _ l hrank, h8 rfl]
      rw [varAt_writeVars_other s f true x k run v f (x + k) l hlt (by omega)]
    · rw [varAt_writeVar_other _ f true _ run _ f _ l hlt (by omega)]
      exact ih (by omega) (fun j hj => hr j (by omega))

/-! ### The ages of octets, and the arrays of a core (R40, R477) -/

theorem OnlyVars.settle (s : State) (f : Flow) : OnlyVars s (s.settle f) := by
  unfold State.settle
  split
  · rename_i c _
    exact OnlyVars.modCore s c (fun q => { q with octetAge := q.agedOctets }) (fun _ => rfl) (fun _ => rfl) (fun _ => rfl)
  · exact OnlyVars.refl s

theorem varAt_settle (s : State) (g f : Flow) (x l : Nat) : varAt (s.settle g) f x l = varAt s f x l := by
  unfold State.settle
  split
  · rename_i c _
    exact varAt_modCore s c (fun q => { q with octetAge := q.agedOctets }) (fun _ => rfl) (fun _ => rfl) f x l
  · rfl

@[simp] theorem State.flow?_settle (s : State) (g f : Flow) : (s.settle g).flow? f = s.flow? f := by
  unfold State.settle
  split
  · rename_i c _
    exact State.flow?_modCore s c (fun q => { q with octetAge := q.agedOctets }) (by rfl) f
  · rfl

/-- What the arrays hold of injections is no part of what an instruction's variables change. -/
theorem OnlyVars.sound {s t : State} (h : OnlyVars s t) (c : Nat) : (t.core c).sound = (s.core c).sound :=
  show (t.core c).still.sound = (s.core c).still.sound from congrArg Core.sound (h.cores c)

/-- An instruction on a core that no injection touches does nothing to its arrays. -/
theorem State.arraysWritten_sound (s : State) (e : Issuer) (run : LaneMask) (later : Bool) (h : ∀ c k, e.f = .wave c k → (s.core c).sound = true) :
    s.arraysWritten e run later = s := by
  unfold State.arraysWritten
  split
  · rfl
  · rename_i c k hf
    rw [if_pos (h c k hf)]

/-! ### Leaving an instruction -/

theorem Wave.pushLatch_still (w : Wave) (i : Instr) (k : Option Latch) : (w.pushLatch i k).still = w.still := by
  unfold Wave.pushLatch; cases k <;> rfl

theorem Wave.pushLatch_eq (w : Wave) (i : Instr) (k : Option Latch) : w.pushLatch i k = { w with latches := (w.pushLatch i k).latches } := by
  unfold Wave.pushLatch; cases k <;> rfl

/-- A thread's place after its entries have been moved: its own next counter, at word 0. -/
theorem Tab.get_foldl_del_mem {α : Type} (ls : List Nat) (t : Tab α) (l : Nat) (h : l ∈ ls ∨ Tab.get t l = none) :
    Tab.get (ls.foldl (fun t l => t.del l) t) l = none := by
  induction ls generalizing t with
  | nil => exact h.resolve_left (by simp)
  | cons a ls ih =>
    rw [List.foldl_cons]
    refine ih _ ?_
    by_cases ha : a = l
    · subst ha; exact .inr (Tab.get_del_self t a)
    · rcases h with h | h
      · rcases List.mem_cons.1 h with h | h
        · exact absurd h.symm ha
        · exact .inl h
      · exact .inr (by rw [Tab.get_del_ne _ ha]; exact h)

/-- Two records with the same variables, octets and what else a read of a variable looks at. -/
structure Wave.Alike (w v : Wave) : Prop where
  launch : w.launch = v.launch
  still : w.still = v.still
  group : w.group = v.group
  vars : w.slots = v.slots ∧ w.copies = v.copies ∧ w.laneCopies = v.laneCopies ∧ w.octets = v.octets
  wstat : w.wstat = v.wstat
  latches : w.latches = v.latches

/-- The end of a clause puts back one record, in which only the places of the threads have moved. -/
theorem State.endClause_spec (s : State) (e : Issuer) (target : Option (Nat → Nat)) (w : Wave) (hf : s.flow? e.f = some w) (ht : w.traced = false) :
    ∃ w', s.endClause e e.c target = s.setFlow e.f w' ∧ w'.Alike w ∧ w'.clause = none ∧
      (if w.handler then w'.hpc = (match target with | some t => t e.lead | none => e.after)
        else ∀ l, (w.movers e.c).getLsbD l = true → w'.position l = ((match target with | some t => t l | none => e.after), 0)) := by
  unfold State.endClause
  have hn : ¬w.traced = true := by rw [ht]; exact Bool.false_ne_true
  simp only [hf, if_neg hn, State.modFlow]
  by_cases hh : w.handler = true
  · rw [if_pos hh]
    refine ⟨_, rfl, ⟨rfl, rfl, rfl, ⟨rfl, rfl, rfl, rfl⟩, rfl, rfl⟩, rfl, ?_⟩
    exact Eq.mpr (if_pos hh) (by cases target <;> rfl)
  · rw [if_neg hh]
    refine ⟨_, rfl, ⟨rfl, rfl, rfl, ⟨rfl, rfl, rfl, rfl⟩, rfl, rfl⟩, rfl, ?_⟩
    rw [if_neg hh]
    intro l hl
    have hmem : l ∈ LaneMask.toList (w.movers e.c) := (LaneMask.mem_toList _ l).2 hl
    unfold Wave.position Tab.getD
    refine Prod.ext ?_ ?_
    · exact congrArg (fun o : Option Nat => o.getD 0) (Tab.get_foldl_set_mem (LaneMask.toList (w.movers e.c)) (fun l => l)
        (fun l => match target with | some t => t l | none => e.after) w.counter l hmem (fun _ _ _ _ h => h))
    · show ((List.foldl _ w.word (LaneMask.toList (w.movers e.c))).get l).getD 0 = _
      rw [Tab.get_foldl_del_mem _ _ _ (.inl hmem)]
      rfl

theorem Wave.Alike.sameVar {w v : Wave} (h : v.Alike w) (x l : Nat) : v.sameVar w x l := by
  obtain ⟨h0, _, _, ⟨a, b, c, _⟩, _, _⟩ := h
  exact ⟨h0, by rw [a], by rw [c], by rw [b]⟩

/-- A record put back that is alike changes no variable, and nothing but places and latches. -/
theorem Wave.Alike.setFlow {w v : Wave} (h : v.Alike w) (s : State) (f : Flow) (hf : s.flow? f = some w) :
    OnlyVars s (s.setFlow f v) ∧ (∀ g x l, varAt (s.setFlow f v) g x l = varAt s g x l) ∧ ∀ g, g ≠ f → (s.setFlow f v).flow? g = s.flow? g :=
  ⟨OnlyVars.setFlow s f w v hf h.still, fun g x l => varAt_setFlow_same s f w v hf h.group g x l (h.sameVar x l), fun _ hne => s.flow?_setFlow_ne _ (fun e => hne e.symm)⟩

/-- Where the flow stands behind an instruction, given where its threads go at a clause's end. -/
theorem State.retire_spec (s : State) (e : Issuer) (k : Option Latch) (target : Option (Nat → Nat)) (w : Wave) (hf : s.flow? e.f = some w)
    (hc : w.clause = some e.c) (ht : w.traced = false) :
    OnlyVars s (s.retire e k target) ∧ (∀ f x l, varAt (s.retire e k target) f x l = varAt s f x l) ∧
    (∀ f, f ≠ e.f → (s.retire e k target).flow? f = s.flow? f) ∧
    ∃ w', (s.retire e k target).flow? e.f = some w' ∧ w'.wstat = w.wstat ∧ w'.latches = (w.pushLatch e.i k).latches ∧
      (if e.last then w'.clause = none ∧ (if w.handler then w'.hpc = (match target with | some t => t e.lead | none => e.after)
          else ∀ l, (w.movers e.c).getLsbD l = true → w'.position l = ((match target with | some t => t l | none => e.after), 0))
        else w'.clause = some { e.c with pos := e.c.pos + e.len }) := by
  have h1 : (s.modFlow e.f (fun w => { w.pushLatch e.i k with park := none })).flow? e.f = some { w.pushLatch e.i k with park := none } := by simp [hf]
  have hO : OnlyVars s (s.modFlow e.f (fun w => { w.pushLatch e.i k with park := none })) :=
    OnlyVars.modFlow s e.f _ (fun w => by rw [Wave.pushLatch_eq]; rfl)
  have hV : ∀ f x l, varAt (s.modFlow e.f (fun w => { w.pushLatch e.i k with park := none })) f x l = varAt s f x l := fun f x l =>
    varAt_modFlow_same s e.f _ f x l (fun w => by rw [Wave.pushLatch_eq]) (fun w => by rw [Wave.pushLatch_eq]; exact ⟨rfl, rfl, rfl, rfl⟩)
  have hN : ∀ f, f ≠ e.f → (s.modFlow e.f (fun w => { w.pushLatch e.i k with park := none })).flow? f = s.flow? f := fun f hne =>
    s.flow?_modFlow_ne _ (fun h => hne h.symm)
  unfold State.retire
  generalize hs1 : s.modFlow e.f (fun w => { w.pushLatch e.i k with park := none }) = s1 at h1 hO hV hN ⊢
  have hw1 : ({ w.pushLatch e.i k with park := none } : Wave).still = w.still ∧ ({ w.pushLatch e.i k with park := none } : Wave).wstat = w.wstat ∧
      ({ w.pushLatch e.i k with park := none } : Wave).latches = (w.pushLatch e.i k).latches ∧
      ({ w.pushLatch e.i k with park := none } : Wave).clause = some e.c := by
    rw [Wave.pushLatch_eq]; exact ⟨rfl, rfl, rfl, hc⟩
  generalize ({ w.pushLatch e.i k with park := none } : Wave) = w1 at h1 hw1
  obtain ⟨hw1s, hw1w, hw1l, hcl⟩ := hw1
  simp only [h1, Option.bind_some, hcl]
  by_cases hlast : e.c.words.length < e.c.pos + e.len
  · have hL : e.last = true := by simp [Issuer.last, hlast]
    have hh : w1.handler = w.handler := (Wave.of_still hw1s).2.2.2.2.1
    have hmov : w1.movers e.c = w.movers e.c := by simp [Wave.movers, (Wave.of_still hw1s).2.2.1, (Wave.of_still hw1s).2.2.2.2.2.1]
    obtain ⟨w2, he, ha, hn, hp⟩ := s1.endClause_spec e target w1 h1 (by rw [(Wave.of_still hw1s).2.2.2.1]; exact ht)
    obtain ⟨a1, a2, a3⟩ := ha.setFlow s1 e.f h1
    rw [if_pos hlast, he]
    rw [hh, hmov] at hp
    refine ⟨hO.trans a1, fun f x l => (a2 f x l).trans (hV f x l), fun f hne => (a3 f hne).trans (hN f hne), w2, s1.flow?_setFlow_self e.f _,
      ha.wstat.trans hw1w, ha.latches.trans hw1l, ?_⟩
    rw [hL, if_pos rfl]
    exact ⟨hn, hp⟩
  · have hL : ¬e.last = true := by simp [Issuer.last, hlast]
    rw [if_neg hlast, State.modFlow, h1]
    have ha : ({ w1 with clause := some { e.c with pos := e.c.pos + e.len } } : Wave).Alike w1 := ⟨rfl, rfl, rfl, ⟨rfl, rfl, rfl, rfl⟩, rfl, rfl⟩
    obtain ⟨a1, a2, a3⟩ := ha.setFlow s1 e.f h1
    refine ⟨hO.trans a1, fun f x l => (a2 f x l).trans (hV f x l), fun f hne => (a3 f hne).trans (hN f hne), _, s1.flow?_setFlow_self e.f _,
      ha.wstat.trans hw1w, ha.latches.trans hw1l, ?_⟩
    rw [if_neg hL]

end Sys2Proof.Machine
end

