-- ==== Sys2Proof/Laws/PerInstr.lean ====
section
/-! SUPPORT. Laws of every instruction, one lemma per constructor: the encoder gives an instruction as many words as its length says (R82). -/

namespace Sys2Proof.Laws.Words

/-- The encoder gives an instruction exactly the words that its length counts: base, extension in the X-form, and a literal where one is read (R82); an event none. -/
def Statement (i : Instr) : Prop := (encode i).length = i.length

/-- The words of fields are as many as their length. -/
theorem words_length (p : OpSpec) : p.words.length = p.length := by
  unfold OpSpec.words OpSpec.length
  cases p.form <;> cases p.lit <;> rfl

/-- An instruction with fields, encoded by them, has their length. -/
theorem of_spec (i : Instr) (p : OpSpec) (h : i.spec = some p) (he : encode i = (i.spec.map OpSpec.words).getD []) : Statement i := by
  unfold Statement Instr.length
  rw [he, h]
  exact words_length p

/-- An event has no words. -/
theorem of_none (i : Instr) (h : i.spec = none) (he : encode i = (i.spec.map OpSpec.words).getD []) : Statement i := by
  unfold Statement Instr.length
  rw [he, h]
  rfl

theorem iadd (o : BArgs) : Statement (.iadd o) := of_spec _ _ rfl rfl
theorem isub (o : BArgs) : Statement (.isub o) := of_spec _ _ rfl rfl
theorem and (o : BArgs) : Statement (.and o) := of_spec _ _ rfl rfl
theorem or (o : BArgs) : Statement (.or o) := of_spec _ _ rfl rfl
theorem xor (o : BArgs) : Statement (.xor o) := of_spec _ _ rfl rfl
theorem shl (o : BArgs) : Statement (.shl o) := of_spec _ _ rfl rfl
theorem shr (o : BArgs) : Statement (.shr o) := of_spec _ _ rfl rfl
theorem fadd (o : BArgs) : Statement (.fadd o) := of_spec _ _ rfl rfl
theorem fmul (o : BArgs) : Statement (.fmul o) := of_spec _ _ rfl rfl
theorem fsub (o : BArgs) : Statement (.fsub o) := of_spec _ _ rfl rfl
theorem mov (o : UArgs) : Statement (.mov o) := of_spec _ _ rfl rfl
theorem not (o : UArgs) : Statement (.not o) := of_spec _ _ rfl rfl
theorem ineg (o : UArgs) : Statement (.ineg o) := of_spec _ _ rfl rfl
theorem iabs (o : UArgs) : Statement (.iabs o) := of_spec _ _ rfl rfl
theorem popc (o : UArgs) : Statement (.popc o) := of_spec _ _ rfl rfl
theorem clz (o : UArgs) : Statement (.clz o) := of_spec _ _ rfl rfl
theorem ctz (o : UArgs) : Statement (.ctz o) := of_spec _ _ rfl rfl
theorem brev (o : UArgs) : Statement (.brev o) := of_spec _ _ rfl rfl
theorem fabs (o : UArgs) : Statement (.fabs o) := of_spec _ _ rfl rfl
theorem fneg (o : UArgs) : Statement (.fneg o) := of_spec _ _ rfl rfl
theorem frcp (o : UArgs) : Statement (.frcp o) := of_spec _ _ rfl rfl
theorem frsq (o : UArgs) : Statement (.frsq o) := of_spec _ _ rfl rfl
theorem fsqrt (o : UArgs) : Statement (.fsqrt o) := of_spec _ _ rfl rfl
theorem fexp2 (o : UArgs) : Statement (.fexp2 o) := of_spec _ _ rfl rfl
theorem flog2 (o : UArgs) : Statement (.flog2 o) := of_spec _ _ rfl rfl
theorem fsin (o : UArgs) : Statement (.fsin o) := of_spec _ _ rfl rfl
theorem fcos (o : UArgs) : Statement (.fcos o) := of_spec _ _ rfl rfl
theorem ftanh (o : UArgs) : Statement (.ftanh o) := of_spec _ _ rfl rfl
theorem fsig (o : UArgs) : Statement (.fsig o) := of_spec _ _ rfl rfl
theorem ffrac (o : UArgs) : Statement (.ffrac o) := of_spec _ _ rfl rfl
theorem fclass (o : UArgs) : Statement (.fclass o) := of_spec _ _ rfl rfl
theorem iaddX (x : XArgs) : Statement (.iaddX x) := of_spec _ _ rfl rfl
theorem isubX (x : XArgs) : Statement (.isubX x) := of_spec _ _ rfl rfl
theorem imul (x : XArgs) : Statement (.imul x) := of_spec _ _ rfl rfl
theorem imulh (x : XArgs) : Statement (.imulh x) := of_spec _ _ rfl rfl
theorem imad (x : XArgs) : Statement (.imad x) := of_spec _ _ rfl rfl
theorem imin (x : XArgs) : Statement (.imin x) := of_spec _ _ rfl rfl
theorem imax (x : XArgs) : Statement (.imax x) := of_spec _ _ rfl rfl
theorem iabsX (x : XArgs) : Statement (.iabsX x) := of_spec _ _ rfl rfl
theorem inegX (x : XArgs) : Statement (.inegX x) := of_spec _ _ rfl rfl
theorem icmp (x : XArgs) : Statement (.icmp x) := of_spec _ _ rfl rfl
theorem isel (x : XArgs) : Statement (.isel x) := of_spec _ _ rfl rfl
theorem bsel (x : XArgs) : Statement (.bsel x) := of_spec _ _ rfl rfl
theorem lea (x : XArgs) : Statement (.lea x) := of_spec _ _ rfl rfl
theorem movX (x : XArgs) : Statement (.movX x) := of_spec _ _ rfl rfl
theorem andX (x : XArgs) : Statement (.andX x) := of_spec _ _ rfl rfl
theorem orX (x : XArgs) : Statement (.orX x) := of_spec _ _ rfl rfl
theorem xorX (x : XArgs) : Statement (.xorX x) := of_spec _ _ rfl rfl
theorem andn (x : XArgs) : Statement (.andn x) := of_spec _ _ rfl rfl
theorem notX (x : XArgs) : Statement (.notX x) := of_spec _ _ rfl rfl
theorem shlX (x : XArgs) : Statement (.shlX x) := of_spec _ _ rfl rfl
theorem shrX (x : XArgs) : Statement (.shrX x) := of_spec _ _ rfl rfl
theorem sar (x : XArgs) : Statement (.sar x) := of_spec _ _ rfl rfl
theorem fshl (x : XArgs) : Statement (.fshl x) := of_spec _ _ rfl rfl
theorem fshr (x : XArgs) : Statement (.fshr x) := of_spec _ _ rfl rfl
theorem bfx (x : XArgs) : Statement (.bfx x) := of_spec _ _ rfl rfl
theorem bfi (x : XArgs) : Statement (.bfi x) := of_spec _ _ rfl rfl
theorem popcX (x : XArgs) : Statement (.popcX x) := of_spec _ _ rfl rfl
theorem clzX (x : XArgs) : Statement (.clzX x) := of_spec _ _ rfl rfl
theorem ctzX (x : XArgs) : Statement (.ctzX x) := of_spec _ _ rfl rfl
theorem brevX (x : XArgs) : Statement (.brevX x) := of_spec _ _ rfl rfl
theorem faddX (x : XArgs) : Statement (.faddX x) := of_spec _ _ rfl rfl
theorem fsubX (x : XArgs) : Statement (.fsubX x) := of_spec _ _ rfl rfl
theorem fmulX (x : XArgs) : Statement (.fmulX x) := of_spec _ _ rfl rfl
theorem ffma (x : XArgs) : Statement (.ffma x) := of_spec _ _ rfl rfl
theorem fmin (x : XArgs) : Statement (.fmin x) := of_spec _ _ rfl rfl
theorem fmax (x : XArgs) : Statement (.fmax x) := of_spec _ _ rfl rfl
theorem fminnum (x : XArgs) : Statement (.fminnum x) := of_spec _ _ rfl rfl
theorem fmaxnum (x : XArgs) : Statement (.fmaxnum x) := of_spec _ _ rfl rfl
theorem fcmp (x : XArgs) : Statement (.fcmp x) := of_spec _ _ rfl rfl
theorem fscale (x : XArgs) : Statement (.fscale x) := of_spec _ _ rfl rfl
theorem fround (x : XArgs) : Statement (.fround x) := of_spec _ _ rfl rfl
theorem fabsX (x : XArgs) : Statement (.fabsX x) := of_spec _ _ rfl rfl
theorem fnegX (x : XArgs) : Statement (.fnegX x) := of_spec _ _ rfl rfl
theorem frcpX (x : XArgs) : Statement (.frcpX x) := of_spec _ _ rfl rfl
theorem frsqX (x : XArgs) : Statement (.frsqX x) := of_spec _ _ rfl rfl
theorem fsqrtX (x : XArgs) : Statement (.fsqrtX x) := of_spec _ _ rfl rfl
theorem fexp2X (x : XArgs) : Statement (.fexp2X x) := of_spec _ _ rfl rfl
theorem flog2X (x : XArgs) : Statement (.flog2X x) := of_spec _ _ rfl rfl
theorem fsinX (x : XArgs) : Statement (.fsinX x) := of_spec _ _ rfl rfl
theorem fcosX (x : XArgs) : Statement (.fcosX x) := of_spec _ _ rfl rfl
theorem ftanhX (x : XArgs) : Statement (.ftanhX x) := of_spec _ _ rfl rfl
theorem fsigX (x : XArgs) : Statement (.fsigX x) := of_spec _ _ rfl rfl
theorem ffracX (x : XArgs) : Statement (.ffracX x) := of_spec _ _ rfl rfl
theorem fclassX (x : XArgs) : Statement (.fclassX x) := of_spec _ _ rfl rfl
theorem shflIdx (x : XArgs) : Statement (.shflIdx x) := of_spec _ _ rfl rfl
theorem shflUp (x : XArgs) : Statement (.shflUp x) := of_spec _ _ rfl rfl
theorem shflDown (x : XArgs) : Statement (.shflDown x) := of_spec _ _ rfl rfl
theorem shflXor (x : XArgs) : Statement (.shflXor x) := of_spec _ _ rfl rfl
theorem bra (x : XArgs) : Statement (.bra x) := of_spec _ _ rfl rfl
theorem bz (x : XArgs) : Statement (.bz x) := of_spec _ _ rfl rfl
theorem bnz (x : XArgs) : Statement (.bnz x) := of_spec _ _ rfl rfl
theorem brx (x : XArgs) : Statement (.brx x) := of_spec _ _ rfl rfl
theorem call (x : XArgs) : Statement (.call x) := of_spec _ _ rfl rfl
theorem calli (x : XArgs) : Statement (.calli x) := of_spec _ _ rfl rfl
theorem grow (x : XArgs) : Statement (.grow x) := of_spec _ _ rfl rfl
theorem fwait (x : XArgs) : Statement (.fwait x) := of_spec _ _ rfl rfl
theorem voteAny (x : XArgs) : Statement (.voteAny x) := of_spec _ _ rfl rfl
theorem voteAll (x : XArgs) : Statement (.voteAll x) := of_spec _ _ rfl rfl
theorem voteEq (x : XArgs) : Statement (.voteEq x) := of_spec _ _ rfl rfl
theorem ballot (x : XArgs) : Statement (.ballot x) := of_spec _ _ rfl rfl
theorem ret (o : CArgs) : Statement (.ret o) := of_spec _ _ rfl rfl
theorem exit (o : CArgs) : Statement (.exit o) := of_spec _ _ rfl rfl
theorem trigger (o : CArgs) : Statement (.trigger o) := of_spec _ _ rfl rfl
theorem yield (o : CArgs) : Statement (.yield o) := of_spec _ _ rfl rfl
theorem nop (o : CArgs) : Statement (.nop o) := of_spec _ _ rfl rfl
theorem hint (o : HintArgs) : Statement (.hint o) := rfl
theorem mergeChk (x : XArgs) : Statement (.mergeChk x) := of_spec _ _ rfl rfl
theorem mergeLane (x : XArgs) : Statement (.mergeLane x) := of_spec _ _ rfl rfl
theorem mergeG (x : XArgs) : Statement (.mergeG x) := of_spec _ _ rfl rfl
theorem rkq (x : XArgs) : Statement (.rkq x) := of_spec _ _ rfl rfl
theorem rkhome (x : XArgs) : Statement (.rkhome x) := of_spec _ _ rfl rfl
theorem dot4E4m3 (x : XArgs) : Statement (.dot4E4m3 x) := of_spec _ _ rfl rfl
theorem dot4E5m2 (x : XArgs) : Statement (.dot4E5m2 x) := of_spec _ _ rfl rfl
theorem dot8E2m1 (x : XArgs) : Statement (.dot8E2m1 x) := of_spec _ _ rfl rfl
theorem dot2B16 (x : XArgs) : Statement (.dot2B16 x) := of_spec _ _ rfl rfl
theorem dot4I8 (x : XArgs) : Statement (.dot4I8 x) := of_spec _ _ rfl rfl
theorem dot4N8 (x : XArgs) : Statement (.dot4N8 x) := of_spec _ _ rfl rfl
theorem dot8I4 (x : XArgs) : Statement (.dot8I4 x) := of_spec _ _ rfl rfl
theorem dots4E4m3 (x : XArgs) : Statement (.dots4E4m3 x) := of_spec _ _ rfl rfl
theorem dots4E5m2 (x : XArgs) : Statement (.dots4E5m2 x) := of_spec _ _ rfl rfl
theorem dots8E2m1 (x : XArgs) : Statement (.dots8E2m1 x) := of_spec _ _ rfl rfl
theorem hadd2 (x : XArgs) : Statement (.hadd2 x) := of_spec _ _ rfl rfl
theorem hsub2 (x : XArgs) : Statement (.hsub2 x) := of_spec _ _ rfl rfl
theorem hmul2 (x : XArgs) : Statement (.hmul2 x) := of_spec _ _ rfl rfl
theorem hfma2 (x : XArgs) : Statement (.hfma2 x) := of_spec _ _ rfl rfl
theorem hmin2 (x : XArgs) : Statement (.hmin2 x) := of_spec _ _ rfl rfl
theorem hmax2 (x : XArgs) : Statement (.hmax2 x) := of_spec _ _ rfl rfl
theorem cvtF32I32 (x : XArgs) : Statement (.cvtF32I32 x) := of_spec _ _ rfl rfl
theorem cvtI32F32 (x : XArgs) : Statement (.cvtI32F32 x) := of_spec _ _ rfl rfl
theorem cvtF32F16 (x : XArgs) : Statement (.cvtF32F16 x) := of_spec _ _ rfl rfl
theorem cvtF32B16 (x : XArgs) : Statement (.cvtF32B16 x) := of_spec _ _ rfl rfl
theorem cvtPkF16F32 (x : XArgs) : Statement (.cvtPkF16F32 x) := of_spec _ _ rfl rfl
theorem cvtPkB16F32 (x : XArgs) : Statement (.cvtPkB16F32 x) := of_spec _ _ rfl rfl
theorem cvtPkE4m3F32 (x : XArgs) : Statement (.cvtPkE4m3F32 x) := of_spec _ _ rfl rfl
theorem cvtPkE5m2F32 (x : XArgs) : Statement (.cvtPkE5m2F32 x) := of_spec _ _ rfl rfl
theorem cvtPkE2m1F32 (x : XArgs) : Statement (.cvtPkE2m1F32 x) := of_spec _ _ rfl rfl
theorem cvtUpB16E4m3 (x : XArgs) : Statement (.cvtUpB16E4m3 x) := of_spec _ _ rfl rfl
theorem cvtUpB16E5m2 (x : XArgs) : Statement (.cvtUpB16E5m2 x) := of_spec _ _ rfl rfl
theorem cvtUpB16E2m1 (x : XArgs) : Statement (.cvtUpB16E2m1 x) := of_spec _ _ rfl rfl
theorem cvtB16E8m0 (x : XArgs) : Statement (.cvtB16E8m0 x) := of_spec _ _ rfl rfl
theorem cvtPkI8F32 (x : XArgs) : Statement (.cvtPkI8F32 x) := of_spec _ _ rfl rfl
theorem cvtPkI4F32 (x : XArgs) : Statement (.cvtPkI4F32 x) := of_spec _ _ rfl rfl
theorem lread (x : XArgs) : Statement (.lread x) := of_spec _ _ rfl rfl
theorem lwrite (x : XArgs) : Statement (.lwrite x) := of_spec _ _ rfl rfl
theorem ld (w : MemWidth) (x : XArgs) : Statement (.ld w x) := of_spec _ _ rfl rfl
theorem lds (w : MemWidth) (x : XArgs) : Statement (.lds w x) := of_spec _ _ rfl rfl
theorem st (w : MemWidth) (x : XArgs) : Statement (.st w x) := of_spec _ _ rfl rfl
theorem sts (w : MemWidth) (x : XArgs) : Statement (.sts w x) := of_spec _ _ rfl rfl
theorem aadd (x : XArgs) : Statement (.aadd x) := of_spec _ _ rfl rfl
theorem amin (x : XArgs) : Statement (.amin x) := of_spec _ _ rfl rfl
theorem amax (x : XArgs) : Statement (.amax x) := of_spec _ _ rfl rfl
theorem aand (x : XArgs) : Statement (.aand x) := of_spec _ _ rfl rfl
theorem aor (x : XArgs) : Statement (.aor x) := of_spec _ _ rfl rfl
theorem axor (x : XArgs) : Statement (.axor x) := of_spec _ _ rfl rfl
theorem axchg (x : XArgs) : Statement (.axchg x) := of_spec _ _ rfl rfl
theorem acas (x : XArgs) : Statement (.acas x) := of_spec _ _ rfl rfl
theorem afadd (x : XArgs) : Statement (.afadd x) := of_spec _ _ rfl rfl
theorem afmin (x : XArgs) : Statement (.afmin x) := of_spec _ _ rfl rfl
theorem afmax (x : XArgs) : Statement (.afmax x) := of_spec _ _ rfl rfl
theorem lr (x : XArgs) : Statement (.lr x) := of_spec _ _ rfl rfl
theorem sc (x : XArgs) : Statement (.sc x) := of_spec _ _ rfl rfl
theorem fence (x : XArgs) : Statement (.fence x) := of_spec _ _ rfl rfl
theorem mclaim (x : XArgs) : Statement (.mclaim x) := of_spec _ _ rfl rfl
theorem mrel (x : XArgs) : Statement (.mrel x) := of_spec _ _ rfl rfl
theorem mfill (x : XArgs) : Statement (.mfill x) := of_spec _ _ rfl rfl
theorem mzero (x : XArgs) : Statement (.mzero x) := of_spec _ _ rfl rfl
theorem mload (x : XArgs) : Statement (.mload x) := of_spec _ _ rfl rfl
theorem mma (x : XArgs) : Statement (.mma x) := of_spec _ _ rfl rfl
theorem mver (x : XArgs) : Statement (.mver x) := of_spec _ _ rfl rfl
theorem mdrain (x : XArgs) : Statement (.mdrain x) := of_spec _ _ rfl rfl
theorem mverify (x : XArgs) : Statement (.mverify x) := of_spec _ _ rfl rfl
theorem mloc (x : XArgs) : Statement (.mloc x) := of_spec _ _ rfl rfl
theorem mfix (x : XArgs) : Statement (.mfix x) := of_spec _ _ rfl rfl
theorem mretry (x : XArgs) : Statement (.mretry x) := of_spec _ _ rfl rfl
theorem mstat (x : XArgs) : Statement (.mstat x) := of_spec _ _ rfl rfl
theorem barInit (x : XArgs) : Statement (.barInit x) := of_spec _ _ rfl rfl
theorem barArrive (x : XArgs) : Statement (.barArrive x) := of_spec _ _ rfl rfl
theorem barExpect (x : XArgs) : Statement (.barExpect x) := of_spec _ _ rfl rfl
theorem barWait (x : XArgs) : Statement (.barWait x) := of_spec _ _ rfl rfl
theorem barTest (x : XArgs) : Statement (.barTest x) := of_spec _ _ rfl rfl
theorem barDrop (x : XArgs) : Statement (.barDrop x) := of_spec _ _ rfl rfl
theorem wbind (x : XArgs) : Statement (.wbind x) := of_spec _ _ rfl rfl
theorem wunbind (x : XArgs) : Statement (.wunbind x) := of_spec _ _ rfl rfl
theorem wstat (x : XArgs) : Statement (.wstat x) := of_spec _ _ rfl rfl
theorem enq (x : XArgs) : Statement (.enq x) := of_spec _ _ rfl rfl
theorem eseq (x : XArgs) : Statement (.eseq x) := of_spec _ _ rfl rfl
theorem trap (x : XArgs) : Statement (.trap x) := of_spec _ _ rfl rfl
theorem brk (x : XArgs) : Statement (.brk x) := of_spec _ _ rfl rfl
theorem tret (x : XArgs) : Statement (.tret x) := of_spec _ _ rfl rfl
theorem tretSkip (x : XArgs) : Statement (.tretSkip x) := of_spec _ _ rfl rfl
theorem csrr (x : XArgs) : Statement (.csrr x) := of_spec _ _ rfl rfl
theorem csrw (x : XArgs) : Statement (.csrw x) := of_spec _ _ rfl rfl
theorem csrs (x : XArgs) : Statement (.csrs x) := of_spec _ _ rfl rfl
theorem csrc (x : XArgs) : Statement (.csrc x) := of_spec _ _ rfl rfl
theorem isync (x : XArgs) : Statement (.isync x) := of_spec _ _ rfl rfl
theorem iflush (x : XArgs) : Statement (.iflush x) := of_spec _ _ rfl rfl
theorem ecall (x : XArgs) : Statement (.ecall x) := of_spec _ _ rfl rfl
theorem ecallAnswer (die request : Nat) (answer : DWord) : Statement (.ecallAnswer die request answer) := of_none _ rfl rfl
theorem queueQuiesce (x : XArgs) : Statement (.queueQuiesce x) := of_spec _ _ rfl rfl
theorem queueResume (x : XArgs) : Statement (.queueResume x) := of_spec _ _ rfl rfl
theorem queueReset (x : XArgs) : Statement (.queueReset x) := of_spec _ _ rfl rfl
theorem traceBind (x : XArgs) : Statement (.traceBind x) := of_spec _ _ rfl rfl
theorem traceClose (x : XArgs) : Statement (.traceClose x) := of_spec _ _ rfl rfl
theorem codeLoad (x : XArgs) : Statement (.codeLoad x) := of_spec _ _ rfl rfl
theorem hostMailboxRequest (die record : Nat) (service : Byte) (a b : DWord) : Statement (.hostMailboxRequest die record service a b) := of_none _ rfl rfl
theorem monitorVersion (x : XArgs) : Statement (.monitorVersion x) := of_spec _ _ rfl rfl
theorem imageVerify (x : XArgs) : Statement (.imageVerify x) := of_spec _ _ rfl rfl
theorem imageMeasure (x : XArgs) : Statement (.imageMeasure x) := of_spec _ _ rfl rfl
theorem isleWrite (x : XArgs) : Statement (.isleWrite x) := of_spec _ _ rfl rfl
theorem isleSwitch (x : XArgs) : Statement (.isleSwitch x) := of_spec _ _ rfl rfl
theorem heartbeat (x : XArgs) : Statement (.heartbeat x) := of_spec _ _ rfl rfl
theorem fuseSvn (x : XArgs) : Statement (.fuseSvn x) := of_spec _ _ rfl rfl
theorem moncallUnknown (x : XArgs) : Statement (.moncallUnknown x) := of_spec _ _ rfl rfl
theorem heartbeatTimeout (die : Nat) : Statement (.heartbeatTimeout die) := of_none _ rfl rfl
theorem wfi (x : XArgs) : Statement (.wfi x) := of_spec _ _ rfl rfl
theorem tlbinvAll (x : XArgs) : Statement (.tlbinvAll x) := of_spec _ _ rfl rfl
theorem tlbinvAsid (x : XArgs) : Statement (.tlbinvAsid x) := of_spec _ _ rfl rfl
theorem tlbinvRange (x : XArgs) : Statement (.tlbinvRange x) := of_spec _ _ rfl rfl
theorem dhalt (x : XArgs) : Statement (.dhalt x) := of_spec _ _ rfl rfl
theorem dresume (x : XArgs) : Statement (.dresume x) := of_spec _ _ rfl rfl
theorem dstep (x : XArgs) : Statement (.dstep x) := of_spec _ _ rfl rfl
theorem dread (x : XArgs) : Statement (.dread x) := of_spec _ _ rfl rfl
theorem dwrite (x : XArgs) : Statement (.dwrite x) := of_spec _ _ rfl rfl
theorem clauseStart (f : Flow) : Statement (.clauseStart f) := of_none _ rfl rfl
theorem waveSwap (core scheduler : Nat) : Statement (.waveSwap core scheduler) := of_none _ rfl rfl
theorem pendingStarvationTimeout (core scheduler : Nat) : Statement (.pendingStarvationTimeout core scheduler) := of_none _ rfl rfl
theorem memoryResponse (f : Flow) (index : Nat) : Statement (.memoryResponse f index) := of_none _ rfl rfl
theorem impreciseFault (core slot : Nat) : Statement (.impreciseFault core slot) := of_none _ rfl rfl
theorem octetReturn (core slot : Nat) : Statement (.octetReturn core slot) := of_none _ rfl rfl
theorem sectorLanding (target : Landing) : Statement (.sectorLanding target) := of_none _ rfl rfl
theorem stageSourceFailure (core group window stage : Nat) : Statement (.stageSourceFailure core group window stage) := of_none _ rfl rfl
theorem barrierWake (core slot : Nat) : Statement (.barrierWake core slot) := of_none _ rfl rfl
theorem globalBarrierRetest (core slot : Nat) : Statement (.globalBarrierRetest core slot) := of_none _ rfl rfl
theorem mfillComplete (core index : Nat) : Statement (.mfillComplete core index) := of_none _ rfl rfl
theorem matrixOpStart (core index : Nat) : Statement (.matrixOpStart core index) := of_none _ rfl rfl
theorem matrixOpComplete (core acc : Nat) : Statement (.matrixOpComplete core acc) := of_none _ rfl rfl
theorem qdoorbell (die : Nat) (value : Word) : Statement (.qdoorbell die value) := of_none _ rfl rfl
theorem launchPacket (die queue : Nat) : Statement (.launchPacket die queue) := of_none _ rfl rfl
theorem waitPacket (queue : Nat) : Statement (.waitPacket queue) := of_none _ rfl rfl
theorem waitSatisfied (queue : Nat) : Statement (.waitSatisfied queue) := of_none _ rfl rfl
theorem markPacket (queue : Nat) : Statement (.markPacket queue) := of_none _ rfl rfl
theorem markSignal (queue : Nat) : Statement (.markSignal queue) := of_none _ rfl rfl
theorem stewardTick (die : Nat) : Statement (.stewardTick die) := of_none _ rfl rfl
theorem groupPlace (launch : Nat) : Statement (.groupPlace launch) := of_none _ rfl rfl
theorem compactionDrainStart (launch : Nat) : Statement (.compactionDrainStart launch) := of_none _ rfl rfl
theorem preempt (launch : Nat) : Statement (.preempt launch) := of_none _ rfl rfl
theorem snapshotCopy (launch piece : Nat) : Statement (.snapshotCopy launch piece) := of_none _ rfl rfl
theorem stewardFaultDispatch (die index : Nat) (choice : FaultChoice) : Statement (.stewardFaultDispatch die index choice) := of_none _ rfl rfl
theorem replayRestoreDone (launch : Nat) : Statement (.replayRestoreDone launch) := of_none _ rfl rfl
theorem contextCreate (c : NewContext) : Statement (.contextCreate c) := of_none _ rfl rfl
theorem contextTeardown (handle : Nat) : Statement (.contextTeardown handle) := of_none _ rfl rfl
theorem swap (core : Nat) : Statement (.swap core) := of_none _ rfl rfl
theorem swapEnd (core : Nat) : Statement (.swapEnd core) := of_none _ rfl rfl
theorem spillComplete (core : Nat) : Statement (.spillComplete core) := of_none _ rfl rfl
theorem restore (core : Nat) : Statement (.restore core) := of_none _ rfl rfl
theorem restoreComplete (core : Nat) : Statement (.restoreComplete core) := of_none _ rfl rfl
theorem pageWalkComplete (die asid va : Nat) (write : Bool) : Statement (.pageWalkComplete die asid va write) := of_none _ rfl rfl
theorem tierEpoch (die : Nat) : Statement (.tierEpoch die) := of_none _ rfl rfl
theorem granuleMoveStart (die granule : Nat) : Statement (.granuleMoveStart die granule) := of_none _ rfl rfl
theorem granuleMoveComplete (die granule : Nat) : Statement (.granuleMoveComplete die granule) := of_none _ rfl rfl
theorem flitReceive (die port : Nat) (goodCrc : Bool) : Statement (.flitReceive die port goodCrc) := of_none _ rfl rfl
theorem nakResend (die port : Nat) : Statement (.nakResend die port) := of_none _ rfl rfl
theorem linkRetrain (die port : Nat) : Statement (.linkRetrain die port) := of_none _ rfl rfl
theorem linkTrainingEnd (die port : Nat) (outcome : Training) : Statement (.linkTrainingEnd die port outcome) := of_none _ rfl rfl
theorem linkTrainingTimeout (die port : Nat) : Statement (.linkTrainingTimeout die port) := of_none _ rfl rfl
theorem linkFence (die port : Nat) : Statement (.linkFence die port) := of_none _ rfl rfl
theorem linkUnfence (die port : Nat) : Statement (.linkUnfence die port) := of_none _ rfl rfl
theorem entryStart (chain : Nat) : Statement (.entryStart chain) := of_none _ rfl rfl
theorem collectiveMatch (chain : Nat) : Statement (.collectiveMatch chain) := of_none _ rfl rfl
theorem routineCall (die engine : Nat) (job : Landing) : Statement (.routineCall die engine job) := of_none _ rfl rfl
theorem routineReturn (die engine : Nat) (r : RoutineResult) : Statement (.routineReturn die engine r) := of_none _ rfl rfl
theorem routineTimeout (die engine : Nat) : Statement (.routineTimeout die engine) := of_none _ rfl rfl
theorem entryComplete (chain : Nat) : Statement (.entryComplete chain) := of_none _ rfl rfl
theorem hostAtomicop (op : HostAtomic) (bytes pa b c : Nat) : Statement (.hostAtomicop op bytes pa b c) := of_none _ rfl rfl
theorem foxRead (die core slot : Nat) (item : FoxItem) : Statement (.foxRead die core slot item) := of_none _ rfl rfl
theorem trailRecord (core scheduler : Nat) (r : TrailData) : Statement (.trailRecord core scheduler r) := of_none _ rfl rfl
theorem gangHalt (core slot : Nat) : Statement (.gangHalt core slot) := of_none _ rfl rfl
theorem dieFenceOff (die off : Nat) : Statement (.dieFenceOff die off) := of_none _ rfl rfl
theorem monitorRelease (die : Nat) : Statement (.monitorRelease die) := of_none _ rfl rfl
theorem lifetimeFold (die : Nat) : Statement (.lifetimeFold die) := of_none _ rfl rfl
theorem powerSample (die watts : Nat) : Statement (.powerSample die watts) := of_none _ rfl rfl
theorem moduleReset (failed : List UnitFailure) (offered : Option (List Byte)) : Statement (.moduleReset failed offered) := of_none _ rfl rfl
theorem bootTimeout : Statement (.bootTimeout) := of_none _ rfl rfl
theorem spdmRequest (index : Nat) : Statement (.spdmRequest index) := of_none _ rfl rfl
theorem burrowEntry : Statement (.burrowEntry) := of_none _ rfl rfl
theorem burrowResume (failed : List Nat) : Statement (.burrowResume failed) := of_none _ rfl rfl
theorem capacityPowerLoss : Statement (.capacityPowerLoss) := of_none _ rfl rfl
theorem registerWrite (die offset bytes : Nat) (value : DWord) : Statement (.registerWrite die offset bytes value) := of_none _ rfl rfl
theorem hostPostedWrite (pa : Nat) (data : List Byte) : Statement (.hostPostedWrite pa data) := of_none _ rfl rfl
theorem managementPortMessage (die : Nat) (m : Management) : Statement (.managementPortMessage die m) := of_none _ rfl rfl
theorem scrubbing (die array address : Nat) : Statement (.scrubbing die array address) := of_none _ rfl rfl
theorem supplyDroop (die : Nat) : Statement (.supplyDroop die) := of_none _ rfl rfl
theorem tempMinuteCount (die celsius : Nat) : Statement (.tempMinuteCount die celsius) := of_none _ rfl rfl

end Sys2Proof.Laws.Words
end

