-- ==== Sys2Proof/Laws/Result.lean ====
section
/-! SUPPORT. The one law of an instruction that nothing disturbs: what it passes before its effect (R289, R290), and what a result leaves (R41 to R45, R53, R67,
R310, R311, R315). -/

namespace Sys2Proof

open Sys2Proof.Machine

/-! ### What stands before the effect -/

/-- The issuer is what the state's issuing flow holds. -/
theorem Machine.State.of_issuer {s : State} {i : Instr} {e : Issuer} (h : s.issuer i = some e) :
    s.cur = e.f ∧ s.flow? e.f = some e.w ∧ e.w.clause = some e.c ∧ e.i = i := by
  unfold State.issuer at h
  split at h
  · rename_i w p hw hp
    cases hc : w.clause with
    | none => rw [hc] at h; cases h
    | some c =>
      rw [hc] at h
      simp only [Option.map_some, Option.some.injEq] at h
      subst h
      exact ⟨rfl, hw, hc, rfl⟩
  · cases h

/-- No injection is armed on a core that is sound. -/
theorem Machine.Core.sound_unarmed {q : Core} (h : q.sound = true) (k : Nat) : (q.errInj.getD k 0).getLsbD 63 = false := by
  unfold Core.sound at h
  simp only [Bool.and_eq_true, Bool.not_eq_true', List.any_eq_false] at h
  unfold Tab.getD
  cases hg : q.errInj.get k with
  | none => simp
  | some v =>
    have := h.2 (k, v) (Tab.mem_of_get _ _ _ hg)
    simpa using this

/-- No checker strikes where none is armed. -/
theorem Ready.checker_none {s : State} {i : Instr} {e : Issuer} (h : Ready s i e) (unit : Option Nat) : s.checker e unit = (s, none) := by
  unfold State.checker
  split
  · rename_i u core k hf
    have h63 := Core.sound_unarmed (h.sound core k hf) 10
    simp only [h63, Bool.false_and, Bool.false_eq_true, if_false]
  · rfl

/-- No watch holds an instruction where none stands: the gate lets the whole run commit, and only the exemptions of R456 are used up. -/
theorem Ready.gate_go {s : State} {i : Instr} {e : Issuer} (h : Ready s i e) (pr : Probe) :
    ∃ s', s.gate e pr = .go e.run s' ∧ (s' = s ∨ s' = s.modFlow e.f (fun w => w.useExempt e.c e.run)) := by
  unfold State.gate State.gateWith
  split
  · exact ⟨s, rfl, .inl rfl⟩
  · rename_i core k hf
    simp only [hf, h.watches core k hf, beq_self_eq_true, if_true]
    split
    · exact ⟨s, rfl, .inl rfl⟩
    · unfold State.useExempt
      split
      · exact ⟨s, rfl, .inl rfl⟩
      · exact ⟨_, rfl, .inr (by rw [hf])⟩

/-- An undisturbed instruction takes its effect: `perform` is `finish` of its plan, for the whole run. -/
theorem Ready.perform_ok {s : State} {i : Instr} {e : Issuer} (h : Ready s i e) (plan : State → Issuer → Except Hold Plan) (pl : Plan) (hp : plan s e = .ok pl)
    (hpass : pl.pass = false) (hst : pl.st = none) :
    ∃ s', perform i plan s = .next (s'.finish e pl e.run) ∧ (s' = s ∨ s' = s.modFlow e.f (fun w => w.useExempt e.c e.run)) := by
  obtain ⟨s', hg, hs⟩ := h.gate_go pl.probe
  refine ⟨s', ?_, hs⟩
  unfold perform
  simp only [h.issuer, h.legal, h.free, Bool.false_eq_true, if_false, ite_self, Bool.and_false, h.resident, hp, hpass, hst, Option.getD_none, h.checker_none, hg]

/-- A trap that is no MEMORY_ERROR enters nothing in a log. -/
theorem Machine.State.logMemory_other (s : State) (e : Issuer) (t : Trap) (h : t.code ≠ 0x15) : s.logMemory e t = s := by
  unfold State.logMemory
  split
  · rw [if_neg h]
  · rfl

/-- An undisturbed instruction whose own checks find a trap takes it. -/
theorem Ready.perform_trap {s : State} {i : Instr} {e : Issuer} (h : Ready s i e) (plan : State → Issuer → Except Hold Plan) (t : Trap)
    (hp : plan s e = .error (.trap t)) (hm : t.code ≠ 0x15) : perform i plan s = .next (s.takeTrap e.f (t.regs e.c.addr e.c.pos e.run)) := by
  unfold perform
  simp only [h.issuer, h.legal, h.free, Bool.false_eq_true, if_false, ite_self, Bool.and_false, h.resident, hp, State.trapAt, h.alone, s.logMemory_other e t hm]

/-! ### What a result leaves -/

/-- No byte of memory has changed. -/
theorem Untouched.bytes {s t : State} {e : Issuer} {dst : Flow → Nat → Prop} (h : Untouched s t e dst) (a : Nat) : t.byte a = s.byte a := by
  have := congrArg State.mem h.rest
  simp only at this
  simp [State.byte, this]


theorem Machine.Wave.useExempt_eq (w : Wave) (c : Clause) (run : LaneMask) : w.useExempt c run = { w with exempt := (w.useExempt c run).exempt } := rfl

theorem Machine.Exc.or_none (x : Exc) : x.or {} = x := by cases x; simp [Exc.or]
theorem Machine.Exc.none_or (x : Exc) : ({} : Exc).or x = x := by cases x; simp [Exc.or]

theorem Machine.Wstat.raise_none (w : Wstat) : w.raise {} = w := by
  cases w; simp [Wstat.raise]

/-- Nothing but variables, latches, places and WSTAT has changed, and what the variables of a result's destination read as is told apart. -/
theorem Untouched.of_onlyVars {s t : State} {e : Issuer} {dst : Flow → Nat → Prop} (h : OnlyVars s t)
    (hv : ∀ f x, ¬dst f x → ∀ l < 64, varAt t f x l = varAt s f x l)
    (hw : ∀ f, f ≠ e.f → (t.flow? f).map (fun w => w.wstat) = (s.flow? f).map (fun w => w.wstat)) : Untouched s t e dst :=
  ⟨h.rest, hv, h.flows, hw, h.cores, h.dies, h.groups⟩

theorem Machine.OnlyVars.dstep {s t : State} (h : OnlyVars s t) : t.dstep = s.dstep := by
  have := congrArg State.dstep h.rest
  exact this

theorem Machine.OnlyVars.launches {s t : State} (h : OnlyVars s t) : t.launches = s.launches := by
  have := congrArg State.launches h.rest
  exact this

/-- The variables that a role covers. -/
theorem Machine.mem_roleVars (r : Role) (n k : Nat) (hk : k < roleCount r) : n + k ∈ roleVars r n := by
  unfold roleCount at hk
  cases r <;> simp_all [roleVars] <;> omega

/-- A wave-class instruction that passes its checks has no destination of lane home (R42). -/
theorem Machine.State.rank_ne_lane {s : State} {e : Issuer} (h : s.firstTrap e = none) (hs : waveClass e.p = true) (k : Nat) (hk : k < roleCount e.p.dstRole) :
    s.rank e.f e.w (e.p.dst.toNat + k) ≠ .lane := by
  have ho : s.operandTrap e = none := by
    unfold State.firstTrap at h
    split at h
    · cases h
    · split at h
      · cases h
      · split at h
        · cases h
        · assumption
  have hb : s.rankBad e = false := by
    unfold State.operandTrap at ho
    by_contra hne
    simp only [Bool.not_eq_false] at hne
    rw [hne] at ho
    simp at ho
  intro hr
  have : s.rankBad e = true := by
    unfold State.rankBad
    rw [hs, Bool.true_and, List.any_eq_true]
    refine ⟨e.p.dst.toNat + k, ?_, by rw [hr]; rfl⟩
    simp only [List.append_assoc, List.mem_append]
    exact .inl (mem_roleVars _ _ _ hk)
  rw [hb] at this
  cases this

/-- What stands after the watches and checkers of an undisturbed instruction differs from what stood before in the exemptions of R456 alone. -/
theorem Ready.gated {s : State} {i : Instr} {e : Issuer} (h : Ready s i e) (s' : State) (hs : s' = s ∨ s' = s.modFlow e.f (fun w => w.useExempt e.c e.run)) :
    ∃ w : Wave, w.Alike e.w ∧ w.clause = e.w.clause ∧ s'.flow? e.f = some w ∧ OnlyVars s s' ∧ (∀ g y l, varAt s' g y l = varAt s g y l) ∧
      ∀ g, g ≠ e.f → s'.flow? g = s.flow? g := by
  obtain ⟨-, hf, -, -⟩ := s.of_issuer h.issuer
  rcases hs with rfl | rfl
  · exact ⟨e.w, ⟨rfl, rfl, rfl, ⟨rfl, rfl, rfl, rfl⟩, rfl, rfl⟩, rfl, hf, OnlyVars.refl _, fun _ _ _ => rfl, fun _ _ => rfl⟩
  · have ha : (e.w.useExempt e.c e.run).Alike e.w := ⟨rfl, rfl, rfl, ⟨rfl, rfl, rfl, rfl⟩, rfl, rfl⟩
    obtain ⟨a1, a2, a3⟩ := ha.setFlow s e.f hf
    have he : s.modFlow e.f (fun w => w.useExempt e.c e.run) = s.setFlow e.f (e.w.useExempt e.c e.run) := by unfold State.modFlow; rw [hf]
    rw [he]
    exact ⟨_, ha, rfl, s.flow?_setFlow_self e.f _, a1, a2, a3⟩

/-- An exception recorded changes one flow's WSTAT and nothing else. -/
theorem Machine.State.raiseExc_spec (s : State) (f : Flow) (x : Exc) (w : Wave) (hf : s.flow? f = some w) :
    OnlyVars s (s.raiseExc f x) ∧ (∀ g y l, varAt (s.raiseExc f x) g y l = varAt s g y l) ∧ (∀ g, g ≠ f → (s.raiseExc f x).flow? g = s.flow? g) ∧
      (s.raiseExc f x).flow? f = some { w with wstat := w.wstat.raise x } := by
  refine ⟨OnlyVars.modFlow s f _ (fun _ => rfl), fun g y l => varAt_modFlow_same s f _ g y l (fun _ => rfl) (fun _ => ⟨rfl, rfl, rfl, rfl⟩),
    fun g hne => s.flow?_modFlow_ne _ (fun h => hne h.symm), ?_⟩
  unfold State.raiseExc
  rw [s.flow?_modFlow_self, hf]
  rfl

/-- The state in which a result's words have been written and the instruction has left: the facts of `Gives`. -/
theorem Ready.finish_result {s : State} {i : Instr} {e : Issuer} (h : Ready s i e) (s' : State) (hs : s' = s ∨ s' = s.modFlow e.f (fun w => w.useExempt e.c e.run))
    (hr : scalarClass e.p = true → e.p.nwb = false → ∀ k < roleCount e.p.dstRole, s.rank e.f e.w (e.p.dst.toNat + k) ≠ .lane)
    (unit : Option Nat) (fp : Bool) (v : LaneMask → Nat → List Word) (x : LaneMask → Nat → Exc) :
    let t := s'.finish e (resultPlan e unit fp v x) e.run
    let r := if fp then (e.lanes e.run).foldl (fun a l => a.or (x e.run l)) {} else {}
    Wrote s t e (v e.run) ∧ Raised t e r ∧ Latched t e (e.latch e.run (v e.run)) ∧ Passed t e ∧ Untouched s t e (isDst e) := by
  obtain ⟨-, hf, hc, -⟩ := s.of_issuer h.issuer
  intro t r
  obtain ⟨w0, ha0, hc0, hf0, hO0, hV0, hN0⟩ := h.gated s' hs
  -- the exceptions
  obtain ⟨s1, hs1, w1, ha1s, ha1l, ha1v, ha1c, ha1w, ha1la, hf1, hO1, hV1, hN1⟩ : ∃ s1, (if fp then s'.raiseExc e.f r else s') = s1 ∧ ∃ w1 : Wave, w1.still = e.w.still ∧
      w1.launch = e.w.launch ∧ w1.laneCopies = e.w.laneCopies ∧ w1.clause = some e.c ∧ w1.wstat = e.w.wstat.raise r ∧ w1.latches = e.w.latches ∧ s1.flow? e.f = some w1 ∧ OnlyVars s s1 ∧
      (∀ g y l, varAt s1 g y l = varAt s g y l) ∧ ∀ g, g ≠ e.f → s1.flow? g = s.flow? g := by
    refine ⟨_, rfl, ?_⟩
    cases fp with
    | false =>
      refine ⟨w0, ha0.still, ha0.launch, ha0.vars.2.2.1, hc0.trans hc, ?_, ha0.latches, hf0, hO0, hV0, hN0⟩
      rw [ha0.wstat]
      exact (Wstat.raise_none _).symm
    | true =>
      obtain ⟨b1, b2, b3, b4⟩ := s'.raiseExc_spec e.f r w0 hf0
      refine ⟨{ w0 with wstat := w0.wstat.raise r }, ha0.still, ha0.launch, ha0.vars.2.2.1, hc0.trans hc, ?_, ha0.latches, b4, hO0.trans b1, fun g y l => (b2 g y l).trans (hV0 g y l),
        fun g hne => (b3 g hne).trans (hN0 g hne)⟩
      show w0.wstat.raise r = _
      rw [ha0.wstat]
  -- the words
  obtain ⟨s2, hs2⟩ : ∃ s2, s1.putWords e e.run (v e.run) = s2 := ⟨_, rfl⟩
  obtain ⟨w2, hf2, hw2s, hw2w, hw2l, hw2c, hO2, hN2⟩ : ∃ w2, s2.flow? e.f = some w2 ∧ w2.still = e.w.still ∧ w2.wstat = e.w.wstat.raise r ∧ w2.latches = e.w.latches ∧
      w2.clause = some e.c ∧ OnlyVars s s2 ∧ ∀ g, g ≠ e.f → s2.flow? g = s.flow? g := by
    rw [← hs2]
    unfold State.putWords
    split
    · exact ⟨w1, hf1, ha1s, ha1w, ha1la, ha1c, hO1, hN1⟩
    · obtain ⟨w2, a, b, c, d, g, _⟩ := s1.flow?_writeVars e.f w1 hf1 (scalarClass e.p) e.p.dst.toNat (roleCount e.p.dstRole) e.run (v e.run)
      exact ⟨w2, a, b.trans ha1s, c.trans ha1w, d.trans ha1la, g.trans ha1c, hO1.trans (OnlyVars.writeVars s1 _ _ _ _ _ _),
        fun g hne => (s1.flow?_writeVars_ne e.f g (fun h => hne h.symm) _ _ _ _ _).trans (hN1 g hne)⟩
  -- the octets
  have hf3 : (s2.settle e.f).flow? e.f = some w2 := (s2.flow?_settle e.f e.f).trans hf2
  have hO3 : OnlyVars s (s2.settle e.f) := hO2.trans (OnlyVars.settle s2 e.f)
  have hA : (s2.settle e.f).arraysWritten e e.run false = s2.settle e.f :=
    State.arraysWritten_sound _ e e.run false (fun c k hfw => (hO3.sound c).trans (h.sound c k hfw))
  -- the leaving
  obtain ⟨hO4, hV4, hN4, w4, hf4, hw4w, hw4l, hw4p⟩ := (s2.settle e.f).retire_spec e (some (e.latch e.run (v e.run))) none _ hf3 hw2c
    (by have := (Wave.of_still hw2s).2.2.2.1; have hu := h.untraced; simp only [this, hu])
  have hO5 := hO3.trans hO4
  have hd : ((s2.settle e.f).retire e (some (e.latch e.run (v e.run))) none).dstep = none := hO5.dstep.trans h.alone
  have ht : t = (s2.settle e.f).retire e (some (e.latch e.run (v e.run))) none := by
    show s'.finish e (resultPlan e unit fp v x) e.run = _
    unfold State.finish resultPlan
    simp only [Bool.false_eq_true, if_false, id, Option.map_some]
    have : (if fp = true then s'.raiseExc e.f ((e.lanes e.run).foldl (fun a l => a.or (x e.run l)) {}) else s') = s1 := by
      rw [← hs1]
      cases fp <;> rfl
    rw [this, hs2, hA]
    unfold State.afterStep
    rw [hd]
  rw [ht]
  have hV5 : ∀ g y l, varAt ((s2.settle e.f).retire e (some (e.latch e.run (v e.run))) none) g y l = varAt s2 g y l := fun g y l =>
    (hV4 g y l).trans (varAt_settle s2 e.f g y l)
  refine ⟨?_, ?_, ?_, ?_, ?_⟩
  · intro k hk l hl
    rw [hV5, ← hs2]
    unfold State.putWords
    by_cases hn : e.p.nwb = true
    · rw [if_pos hn, if_pos hn, hV1]
    · rw [if_neg hn, if_neg hn]
      by_cases hsc : scalarClass e.p = true
      · rw [if_pos hsc, hsc]
        rw [varAt_writeVars_scalar s1 e.f w1 hf1 _ _ e.run _ k l hk hl (fun j hj => by
          rw [State.rank_of_state s s1 e.f w1 _ hO1.launches, s.rank_eq e.f w1 e.w _ ha1l]
          exact hr hsc (by simpa using hn) j hj)]
        rw [ha1v, hV1]
        rfl
      · rw [if_neg hsc]
        have hsf : scalarClass e.p = false := by simpa using hsc
        rw [hsf]
        refine ⟨fun hlr => ?_, fun hlr hlv => ?_⟩
        · exact varAt_writeVars_run s1 e.f w1 hf1 _ _ e.run _ k l hk hlr
        · rw [varAt_writeVars_off s1 e.f w1 hf1 _ _ e.run _ _ l hlr (by rw [(Wave.of_still ha1s).2.2.1]; exact hlv), hV1]
  · exact ⟨w4, hf4, hw4w.trans hw2w⟩
  · refine ⟨w4, hf4, ?_⟩
    rw [hw4l]
    unfold Wave.pushLatch
    cases mayFault e.i <;> rfl
  · refine ⟨w4, hf4, ?_⟩
    have hm : w2.movers e.c = e.w.movers e.c := by
      show (e.c.run &&& w2.live &&& ~~~w2.halted) = (e.c.run &&& e.w.live &&& ~~~e.w.halted)
      rw [(Wave.of_still hw2s).2.2.1, (Wave.of_still hw2s).2.2.2.2.2.1]
    have hh : w2.handler = e.w.handler := (Wave.of_still hw2s).2.2.2.2.1
    rw [hm, hh] at hw4p
    exact hw4p
  · refine Untouched.of_onlyVars hO5 (fun g y hne l hl => ?_) (fun g hne => ?_)
    · rw [hV5, ← hs2]
      unfold State.putWords
      split
      · exact hV1 g y l
      · rw [varAt_writeVars_other s1 e.f _ _ _ e.run _ g y l hl hne, hV1]
    · rw [hN4 g hne]
      rw [s2.flow?_settle e.f g, hN2 g hne]

/-- The one law of a result: an instruction whose plan is to write words, and which nothing disturbs, gives them (R310, R311, R315). -/
theorem gives_of_plan (i : Instr) (plan : State → Issuer → Except Hold Plan) (unit : State → Issuer → Option Nat) (fp : Bool)
    (v : State → Issuer → LaneMask → Nat → List Word) (x : State → Issuer → LaneMask → Nat → Exc)
    (hr : ∀ s e, Ready s i e → scalarClass e.p = true → e.p.nwb = false → ∀ k < roleCount e.p.dstRole, s.rank e.f e.w (e.p.dst.toNat + k) ≠ .lane)
    (hx : ∀ s, Machine.exec i s = perform i plan s) (hp : ∀ s e, plan s e = .ok (resultPlan e (unit s e) fp (v s e) (x s e))) :
    Gives i (fun s e => v s e e.run) (fun s e => if fp then (e.lanes e.run).foldl (fun a l => a.or (x s e e.run l)) {} else {}) := by
  intro s e h
  obtain ⟨s', he, hs⟩ := h.perform_ok plan _ (hp s e) rfl rfl
  exact ⟨_, (hx s).trans he, h.finish_result s' hs (hr s e h) (unit s e) fp (v s e) (x s e)⟩

/-- A wave-class or lane-class instruction meets the premise of `gives_of_plan` by its checks (R42). -/
theorem Ready.rank_ok {s : State} {i : Instr} {e : Issuer} (h : Ready s i e) (hm : e.p.major ≠ 0x1E) (hs : scalarClass e.p = true) :
    ∀ k < roleCount e.p.dstRole, s.rank e.f e.w (e.p.dst.toNat + k) ≠ .lane := by
  intro k hk
  refine State.rank_ne_lane h.legal ?_ k hk
  unfold scalarClass at hs
  simp only [Bool.or_eq_true, beq_iff_eq] at hs
  exact hs.resolve_right hm

end Sys2Proof
end

