-- ==== Sys2Proof/Tests/Slice0.lean ====
section
/-! SUPPORT. Small tests: ill-formed terms that WellFormed refuses, words written out from the spec's encodings, states that meet the
hypotheses of the statements, and single steps. Expected results come from the spec's rules and tables, not from the model. -/

namespace Sys2Proof.Tests

set_option Elab.async false

open Sys2Proof.Machine

/-! ### Operands, and states that meet a statement's hypotheses -/

/-- A B-form on v12 and v16 with its result in v8. -/
def bin : BArgs := { dist := 0, s := false, nwb := false, dst := 8, sa := .var 12, sb := .var 16, lit := none }

/-- A B-form on v12 with its result in v8. -/
def una : UArgs := { dist := 0, s := false, nwb := false, dst := 8, sa := .var 12, lit := none }

/-- An X-form on variables; a field that an instruction does not use is 0. -/
def xform (dst a b c : BitVec 7) (imm : BitVec 16) : XArgs :=
  { dist := 0, s := false, nwb := false, dst, sa := .var a, sb := .var b, sc := .var c, flag := none, imm, lit := none }

/-- An X-form whose S bit is set. -/
def sform (dst a b c : BitVec 7) (imm : BitVec 16) : XArgs := { xform dst a b c imm with s := true }

/-- A wave of 64 threads whose clause in progress is one instruction: a state that the loader of log 5 leaves, with that instruction's words. -/
def placed (i : Instr) : State := State.reset.scene.placeWords (encode i)

/-- `Ready`, in a form that evaluates, with a further condition. -/
def meets (i : Instr) (s : State) (p : Issuer → Bool) : Bool :=
  match s.issuer i with
  | none => false
  | some e =>
    i.wf && (s.firstTrap e).isNone && !s.held e && e.overflowTouch.isNone && !e.w.traced && s.dstep.isNone && e.run != 0 && p e &&
      (match e.f with
        | .wave c _ => (s.core c).watches.isEmpty && (s.core c).sound
        | .steward _ _ => true)

/-- What `meets` finds are the hypotheses of the statements about an undisturbed instruction. -/
theorem meets_sound {i : Instr} {s : State} {p : Issuer → Bool} (h : meets i s p = true) : ∃ e, Ready s i e ∧ p e = true ∧ i.wf = true := by
  unfold meets at h
  split at h
  · cases h
  · rename_i e he
    simp only [Bool.and_eq_true, Option.isNone_iff_eq_none, Bool.not_eq_true', bne_iff_ne, ne_eq] at h
    obtain ⟨⟨⟨⟨⟨⟨⟨⟨hw, h1⟩, h2⟩, h3⟩, h4⟩, h5⟩, h6⟩, h7⟩, h8⟩ := h
    refine ⟨e, ⟨he, h1, h2, h3, ?_, ?_, h4, h5, h6⟩, h7, hw⟩
    · intro c k hf
      rw [hf] at h8
      simpa using (by simpa using h8 : _ ∧ _).1
    · intro c k hf
      rw [hf] at h8
      simpa using (by simpa using h8 : _ ∧ _).2

/-- An instruction on a placed wave meets the hypotheses. -/
def ready (i : Instr) : Bool := meets i (placed i) (fun _ => true)

/-- The same with v8 to v23 wave-home, as instructions that execute once need it (R54). -/
def placedOnce (i : Instr) : State :=
  let s := State.reset.scene
  { s with launches := [(1, { Launch.plain with record := { Record.plain with ranks := (List.range 16).map (fun k => (8 + k, .wave)) } })] }.placeWords (encode i)

/-- An instruction that executes once meets the hypotheses. -/
def readyOnce (i : Instr) : Bool := meets i (placedOnce i) (fun _ => true)

/-- A steward flow of die 0 that runs, and its clause in progress is one instruction. -/
def placedSteward (i : Instr) : State :=
  { State.reset with cur := .steward 0 0, dies := [(0, { State.reset.die 0 with stewards := [(0, Wave.flowAt 0x1000)] })] }.placeWords (encode i)

/-- An instruction of a steward flow meets the hypotheses. -/
def readySteward (i : Instr) : Bool := meets i (placedSteward i) (fun _ => true)

/-- The placed wave with its record changed. -/
def placedWith (i : Instr) (p : Wave → Wave) : State := (placed i).modFlow (.wave 0 0) p

/-- A clause's run changed to some of the wave's lanes. -/
def onlyRun (run : LaneMask) (w : Wave) : Wave := { w with clause := w.clause.map (fun c => { c with run }) }

/-- Die 0 translates the first 2 MiB of ASID 1 to physical addresses of the same number, with every right. -/
def mapped (s : State) : State :=
  s.modDie 0 (fun q => { q with tlb := [{ asid := 1, va := 0, size := 0x200000, pa := 0, pte := 0xDB }] })

/-- An operand A that every lane reads as one value. -/
def atLit (v : Word) (x : XArgs) : XArgs := { x with sa := .lit, lit := some v }

/-- The lanes of an access are those of the run: lane and address. -/
def resolves (i : Instr) (s : State) (e : Issuer) (n : Nat) (use : Use) (k : AccessKind) (va : Nat → Nat) (p : State → Tab Nat → Bool) : Bool :=
  match s.resolve e n use k va with
  | (s', .ok ps) => i.wf && p s' ps
  | (_, .error _) => false

/-- The wave of the scene with its record changed, and nothing placed. -/
def scene (p : Wave → Wave) : State := State.reset.scene.modFlow (.wave 0 0) p

/-- The scene whose core holds the clause at 0x1000 in its instruction cache: one `nop` (R77, R162). -/
def coded (p : Wave → Wave) : State :=
  (scene p).modCore 0 (fun q => { q with icache := [(1024 * 0x40 + 1, bytesOfNat 4 0x1C00006B ++ bytesOfNat 4 0x31000004 ++ List.replicate 56 0)] })

/-- An image of the scene's wave. -/
def image : Image :=
  { context := 1, order := 0, matrixOut := false, stored := [], away := false, bad := [], asid := 1, priority := 0, waves := [(0, Wave.plain)], groups := [(0, Group.plain)], matrix := Matrix.reset, watches := [], active := [0],
    pending := [] }

/-- The bytes of that image's header as a spill from core 0 leaves them (R171), but for its tag. -/
def imageHeader : List Byte :=
  bytesOfNat 4 0x5A584354 ++ bytesOfNat 2 1 ++ bytesOfNat 2 1 ++ bytesOfNat 8 1 ++ bytesOfNat 2 0 ++ bytesOfNat 2 1 ++ bytesOfNat 2 1 ++ bytesOfNat 2 0 ++ bytesOfNat 8 0 ++
    bytesOfNat 8 0x563000 ++ bytesOfNat 2 0

/-- Tables of ASID 1 from root array 0, which map its first GiB to host memory (R220 to R223). -/
def tables : Tab Byte :=
  Memory.write (Memory.write (Memory.write [] 8 (bytesOfNat 8 0x100001)) 0x100000 (bytesOfNat 8 0x101001)) 0x101000 (bytesOfNat 8 (2 ^ 44 + 0xDB))

/-- The scene with those tables, with bytes at virtual addresses, and with the translation in die 0's TLB. -/
def hosted (bs : List (Nat × List Byte)) : State :=
  { State.reset.scene.modDie 0 (fun q => { q with tlb := [{ asid := 1, va := 0, size := 0x40000000, pa := 2 ^ 44, pte := 0xDB }] }) with
    mem := bs.foldl (fun m b => Memory.write m (2 ^ 44 + b.1) b.2) tables }

/-- The bytes of a chain's entry (R281). -/
def entryBytes (op routine src dst len aux seq : Nat) : List Byte :=
  bytesOfNat 1 op ++ bytesOfNat 1 routine ++ bytesOfNat 14 0 ++ bytesOfNat 8 src ++ bytesOfNat 8 dst ++ bytesOfNat 8 len ++ bytesOfNat 8 0 ++ bytesOfNat 8 aux ++ bytesOfNat 8 seq

/-- A chain of context 1 on engine 0 of die 0 with a running entry. -/
def chain (entry : List Byte) (todo : Nat) (landed : List Nat) (matched : Bool) : Chain :=
  { context := 1, die := 0, engine := 0, launch := none, running := some 5, entry, todo, landed, status := 0, matched, page := [], counted := false, mute := false, sites := [] }

/-! ### Words (R81 to R93) -/

/-- The decoder reads exactly this instruction from these words. -/
def reads (p : List Word × Instr) : Bool :=
  match decodeWords p.1 with
  | .ok (i, []) => i == p.2
  | _ => false

theorem test_rows_Encoding :
  [([0x000202FF, 0x00000200], Instr.iadd ⟨0, false, false, 2, .var 2, .lit, some 0x200⟩),
   ([0x0926B200], Instr.mov ⟨0, false, false, 38, .const 42, none⟩),
   ([0x0D001417, 0x00F30000], Instr.ffma ⟨0, false, false, 0, .var 20, .var 23, .var 0, none, 0x0000, none⟩),
   ([0x210A0A89], Instr.isub ⟨0, true, false, 10, .var 10, .const 1, none⟩)].all reads = true := by
  decide +kernel

theorem test_rows_Integer :
  [([0x0B02CA20, 0x00F20000], Instr.imul ⟨0, false, false, 2, .special (.lvl 2), .var 32, .var 0, none, 0x0000, none⟩),
   ([0x0503C98E], Instr.shl ⟨0, false, false, 3, .special (.lvl 1), .const 6, none⟩),
   ([0x290B8C00], Instr.mov ⟨0, true, false, 11, .const 4, none⟩),
   ([0x09090C04], Instr.popc ⟨0, false, false, 9, .var 12, none⟩),
   ([0x0B2A182C, 0x00F08000], Instr.iaddX ⟨0, false, false, 42, .var 24, .var 44, .var 0, none, 0x8000, none⟩),
   ([0x2B2C2CFF, 0x00F08000, 0x00000100], Instr.iaddX ⟨0, true, false, 44, .var 44, .lit, .var 0, none, 0x8000, some 0x100⟩),
   ([0x4B050506, 0x00304800], Instr.iaddX ⟨1, false, false, 5, .var 5, .var 6, .var 0, some 3, 0x4800, none⟩),
   ([0x0B090324, 0x00F94002], Instr.icmp ⟨0, false, false, 9, .var 3, .var 36, .var 0, none, 0x4002, none⟩),
   ([0x0B1415C0, 0x09FA0000], Instr.isel ⟨0, false, false, 20, .var 21, .special .zero, .var 9, none, 0x0000, none⟩),
   ([0x0B0C1803, 0x00FC8008], Instr.lea ⟨0, false, false, 12, .var 24, .var 3, .var 0, none, 0x8008, none⟩),
   ([0x0C0C0C8B, 0x00F78000], Instr.sar ⟨0, false, false, 12, .var 12, .const 3, .var 0, none, 0x8000, none⟩),
   ([0x0C090D0C, 0x08F90000], Instr.fshr ⟨0, false, false, 9, .var 13, .var 12, .var 8, none, 0x0000, none⟩),
   ([0x0C090C08, 0x00FA000C], Instr.bfx ⟨0, false, false, 9, .var 12, .var 8, .var 0, none, 0x000c, none⟩)].all reads = true := by
  decide +kernel

theorem test_rows_Float :
  [([0x070000C0], Instr.fadd ⟨0, false, false, 0, .var 0, .special .zero, none⟩),
   ([0x08171516], Instr.fmul ⟨0, false, false, 23, .var 21, .var 22, none⟩),
   ([0x272C2CB2], Instr.fadd ⟨0, true, false, 44, .var 44, .const 42, none⟩),
   ([0x0A090904], Instr.fsqrt ⟨0, false, false, 9, .var 9, none⟩),
   ([0x0D090904, 0x00FB1000], Instr.fsqrtX ⟨0, false, false, 9, .var 9, .var 0, .var 0, none, 0x1000, none⟩),
   ([0x0A09000A], Instr.fsig ⟨0, false, false, 9, .var 0, none⟩),
   ([0x0D090014, 0x00F40000], Instr.fmin ⟨0, false, false, 9, .var 0, .var 20, .var 0, none, 0x0000, none⟩),
   ([0x0D090014, 0x00F80002], Instr.fcmp ⟨0, false, false, 9, .var 0, .var 20, .var 0, none, 0x0002, none⟩),
   ([0x0D090000, 0x00FA3000], Instr.fround ⟨0, false, false, 9, .var 0, .var 0, .var 0, none, 0x3000, none⟩),
   ([0x13140C10, 0xC0F20000], Instr.dot8E2m1 ⟨0, false, false, 20, .var 12, .var 16, .special .zero, none, 0x0000, none⟩),
   ([0x14000C10, 0x00F20215], Instr.dots8E2m1 ⟨0, false, false, 0, .var 12, .var 16, .var 0, none, 0x0215, none⟩),
   ([0x15040506, 0x07F30001], Instr.hfma2 ⟨0, false, false, 4, .var 5, .var 6, .var 7, none, 0x0001, none⟩),
   ([0x16090000, 0x00F15000], Instr.cvtI32F32 ⟨0, false, false, 9, .var 0, .var 0, .var 0, none, 0x5000, none⟩),
   ([0x16090001, 0x09F60801], Instr.cvtPkE4m3F32 ⟨0, false, false, 9, .var 0, .var 1, .var 9, none, 0x0801, none⟩),
   ([0x16151500, 0x00FC0000], Instr.cvtB16E8m0 ⟨0, false, false, 21, .var 21, .var 0, .var 0, none, 0x0000, none⟩)].all reads = true := by
  decide +kernel

theorem test_rows_Control :
  [([0x10090089, 0x00F30000], Instr.shflXor ⟨0, false, false, 9, .var 0, .const 1, .var 0, none, 0x0000, none⟩),
   ([0x1009008A, 0x00F30002], Instr.shflXor ⟨0, false, false, 9, .var 0, .const 2, .var 0, none, 0x0002, none⟩),
   ([0x113D0900, 0x00F10000], Instr.voteAll ⟨0, false, false, 61, .var 9, .var 0, .var 0, none, 0x0000, none⟩),
   ([0x113C0900, 0x00F30000], Instr.ballot ⟨0, false, false, 60, .var 9, .var 0, .var 0, none, 0x0000, none⟩),
   ([0x12292800, 0x00F00000], Instr.mergeChk ⟨0, false, false, 41, .var 40, .var 0, .var 0, none, 0x0000, none⟩),
   ([0x1228FF00, 0x00F20000, 0x00005000], Instr.mergeG ⟨0, false, false, 40, .lit, .var 0, .var 0, none, 0x0000, some 0x5000⟩),
   ([0x123C2600, 0x00F30000], Instr.rkq ⟨0, false, false, 60, .var 38, .var 0, .var 0, none, 0x0000, none⟩),
   ([0x30000A00, 0x00F2FFFD], Instr.bnz ⟨0, true, false, 0, .var 10, .var 0, .var 0, none, 0xfffd, none⟩),
   ([0x30000E00, 0x00F50000], Instr.calli ⟨0, true, false, 0, .var 14, .var 0, .var 0, none, 0x0000, none⟩),
   ([0x303C8900, 0x00160000], Instr.grow ⟨0, true, false, 60, .const 1, .var 0, .var 0, some 1, 0x0000, none⟩),
   ([0x30000000, 0x00F70004], Instr.fwait ⟨0, true, false, 0, .var 0, .var 0, .var 0, none, 0x0004, none⟩),
   ([0x373C3E00, 0x00F00026], Instr.lread ⟨0, true, false, 60, .var 62, .var 0, .var 0, none, 0x0026, none⟩),
   ([0x37003E3F, 0x00F10000], Instr.lwrite ⟨0, true, false, 0, .var 62, .var 63, .var 0, none, 0x0000, none⟩)].all reads = true := by
  decide +kernel

theorem test_rows_Memory :
  [([0x180C1802, 0x00F40000], Instr.ld .b128 ⟨0, false, false, 12, .var 24, .var 2, .var 0, none, 0x0000, none⟩),
   ([0x180C1802, 0x00220000], Instr.ld .b32 ⟨0, false, false, 12, .var 24, .var 2, .var 0, some 2, 0x0000, none⟩),
   ([0x18151C05, 0x00F14000], Instr.ld .b16 ⟨0, false, false, 21, .var 28, .var 5, .var 0, none, 0x4000, none⟩),
   ([0x18091802, 0x00F21800], Instr.ld .b32 ⟨0, false, false, 9, .var 24, .var 2, .var 0, none, 0x1800, none⟩),
   ([0x382C3CC0, 0x00F30000], Instr.ld .b64 ⟨0, true, false, 44, .var 60, .special .zero, .var 0, none, 0x0000, none⟩),
   ([0x181004FF, 0x00FA0000, 0x00001000], Instr.lds .b32 ⟨0, false, false, 16, .var 4, .lit, .var 0, none, 0x0000, some 0x1000⟩),
   ([0x19002807, 0x00F20000], Instr.st .b32 ⟨0, false, false, 0, .var 40, .var 7, .var 0, none, 0x0000, none⟩),
   ([0x19001802, 0x09F02600], Instr.st .b8 ⟨0, false, false, 0, .var 24, .var 2, .var 9, none, 0x2600, none⟩),
   ([0x1A383C89, 0x00F08000], Instr.aadd ⟨0, false, false, 56, .var 60, .const 1, .var 0, none, 0x8000, none⟩),
   ([0x1A093CC0, 0x89F71400], Instr.acas ⟨0, false, false, 9, .var 60, .special .zero, .const 1, none, 0x1400, none⟩),
   ([0x1A093C00, 0x00F90000], Instr.afmin ⟨0, false, false, 9, .var 60, .var 0, .var 0, none, 0x0000, none⟩),
   ([0x1B093C00, 0x00F00000], Instr.lr ⟨0, false, false, 9, .var 60, .var 0, .var 0, none, 0x0000, none⟩),
   ([0x1B0A3C0B, 0x00F12400], Instr.sc ⟨0, false, false, 10, .var 60, .var 11, .var 0, none, 0x2400, none⟩),
   ([0x1B000000, 0x00F23800], Instr.fence ⟨0, false, false, 0, .var 0, .var 0, .var 0, none, 0x3800, none⟩),
   ([0x3D30FF90, 0x00F00300, 0x00005000], Instr.barInit ⟨0, true, false, 48, .lit, .const 8, .var 0, none, 0x0300, some 0x5000⟩),
   ([0x3D31FF89, 0x00F10200, 0x00005000], Instr.barArrive ⟨0, true, false, 49, .lit, .const 1, .var 0, none, 0x0200, some 0x5000⟩),
   ([0x3D30FF31, 0x00F30200, 0x00005000], Instr.barWait ⟨0, true, false, 48, .lit, .var 49, .var 0, none, 0x0200, some 0x5000⟩),
   ([0x3D00FF32, 0x00F20200, 0x00005000], Instr.barExpect ⟨0, true, false, 0, .lit, .var 50, .var 0, none, 0x0200, some 0x5000⟩),
   ([0x3D303C00, 0x00F50400], Instr.barDrop ⟨0, true, false, 48, .var 60, .var 0, .var 0, none, 0x0400, none⟩),
   ([0x3D2F2A00, 0x00F60000], Instr.wbind ⟨0, true, false, 47, .var 42, .var 0, .var 0, none, 0x0000, none⟩),
   ([0x3D2F1A00, 0x00F60011], Instr.wbind ⟨0, true, false, 47, .var 26, .var 0, .var 0, none, 0x0011, none⟩),
   ([0x3D000000, 0x00F70001], Instr.wunbind ⟨0, true, false, 0, .var 0, .var 0, .var 0, none, 0x0001, none⟩),
   ([0x3D3C0000, 0x00F80001], Instr.wstat ⟨0, true, false, 60, .var 0, .var 0, .var 0, none, 0x0001, none⟩)].all reads = true := by
  decide +kernel

theorem test_rows_EnginesAndSystem :
  [([0x3E000000, 0x00F00007], Instr.trap ⟨0, true, false, 0, .var 0, .var 0, .var 0, none, 0x0007, none⟩),
   ([0x3E000000, 0x00F10001], Instr.tretSkip ⟨0, true, false, 0, .var 0, .var 0, .var 0, none, 0x0001, none⟩),
   ([0x3E3C0000, 0x00F20040], Instr.csrr ⟨0, true, false, 60, .var 0, .var 0, .var 0, none, 0x0040, none⟩),
   ([0x3E00FF00, 0x00F50000, 0x0000003F], Instr.csrc ⟨0, true, false, 0, .lit, .var 0, .var 0, none, 0x0000, some 0x3f⟩),
   ([0x3E000000, 0x00F60000], Instr.isync ⟨0, true, false, 0, .var 0, .var 0, .var 0, none, 0x0000, none⟩),
   ([0x3E003C3E, 0x00F70000], Instr.iflush ⟨0, true, false, 0, .var 60, .var 62, .var 0, none, 0x0000, none⟩),
   ([0x3E3C3EC0, 0x00F80003], Instr.ecall ⟨0, true, false, 60, .var 62, .special .zero, .var 0, none, 0x0003, none⟩),
   ([0x3E3C3E38, 0x00F90001], Instr.imageVerify ⟨0, true, false, 60, .var 62, .var 56, .var 0, none, 0x0001, none⟩),
   ([0x3E3C0000, 0x00FA0000], Instr.wfi ⟨0, true, false, 60, .var 0, .var 0, .var 0, none, 0x0000, none⟩),
   ([0x3E003E3C, 0x89FB0016], Instr.tlbinvRange ⟨0, true, false, 0, .var 62, .var 60, .const 1, none, 0x0016, none⟩),
   ([0x3E000000, 0x00FC0000], Instr.brk ⟨0, true, false, 0, .var 0, .var 0, .var 0, none, 0x0000, none⟩),
   ([0x1E3C3E00, 0x00F00005], Instr.dhalt ⟨0, false, false, 60, .var 62, .var 0, .var 0, none, 0x0005, none⟩),
   ([0x1E3C3E38, 0x00F20005], Instr.dstep ⟨0, false, false, 60, .var 62, .var 56, .var 0, none, 0x0005, none⟩),
   ([0x1E383E3D, 0x00F30005], Instr.dread ⟨0, false, false, 56, .var 62, .var 61, .var 0, none, 0x0005, none⟩),
   ([0x3C2CFF00, 0x00F00000, 0x0001001F], Instr.mclaim ⟨0, true, false, 44, .lit, .var 0, .var 0, none, 0x0000, some 0x1001f⟩),
   ([0x3C001C00, 0x00F20009], Instr.mfill ⟨0, true, false, 0, .var 28, .var 0, .var 0, none, 0x0009, none⟩),
   ([0x3C00FF00, 0x00F20182, 0x00004000], Instr.mfill ⟨0, true, false, 0, .lit, .var 0, .var 0, none, 0x0182, some 0x4000⟩),
   ([0x3C000088, 0x00F30000], Instr.mzero ⟨0, true, false, 0, .var 0, .const 0, .var 0, none, 0x0000, none⟩),
   ([0x3C003C88, 0xFFF48401, 0x00000200], Instr.mload ⟨0, true, false, 0, .var 60, .const 0, .lit, none, 0x8401, some 0x200⟩),
   ([0x3C363289, 0x00F50001], Instr.mma ⟨0, true, false, 54, .var 50, .const 1, .var 0, none, 0x0001, none⟩),
   ([0x3C00008C, 0x00F80200], Instr.mverify ⟨0, true, false, 0, .var 0, .const 4, .var 0, none, 0x0200, none⟩),
   ([0x3C00288B, 0xFFF74001, 0x00000200], Instr.mdrain ⟨0, true, false, 0, .var 40, .const 3, .lit, none, 0x4001, some 0x200⟩),
   ([0x3C3C0000, 0x00F90040], Instr.mloc ⟨0, true, false, 60, .var 0, .var 0, .var 0, none, 0x0040, none⟩),
   ([0x3C3D0000, 0x00FB0000], Instr.mretry ⟨0, true, false, 61, .var 0, .var 0, .var 0, none, 0x0000, none⟩)].all reads = true := by
  decide +kernel

theorem test_rows_Programs :
  [([0x0C080D0C, 0x02F90000], Instr.fshr ⟨0, false, false, 8, .var 13, .var 12, .var 2, none, 0x0000, none⟩),
   ([0x0C0908C0, 0x00FA0003], Instr.bfx ⟨0, false, false, 9, .var 8, .special .zero, .var 0, none, 0x0003, none⟩),
   ([0x0C04040A, 0x0EFB0002], Instr.bfi ⟨0, false, false, 4, .var 4, .var 10, .var 14, none, 0x0002, none⟩),
   ([0x0B0E0203, 0x00F90002], Instr.icmp ⟨0, false, false, 14, .var 2, .var 3, .var 0, none, 0x0002, none⟩),
   ([0x19000FFF, 0x02FA0000, 0x00000020], Instr.sts .b32 ⟨0, false, false, 0, .var 15, .lit, .var 2, none, 0x0000, some 0x20⟩),
   ([0x18070FA4, 0x00FA0000], Instr.lds .b32 ⟨0, false, false, 7, .var 15, .const 28, .var 0, none, 0x0000, none⟩),
   ([0x39003292, 0x36F00000], Instr.st .b8 ⟨0, true, false, 0, .var 50, .const 10, .var 54, none, 0x0000, none⟩),
   ([0x3B000000, 0x00F22400], Instr.fence ⟨0, true, false, 0, .var 0, .var 0, .var 0, none, 0x2400, none⟩),
   ([0x3E403C3E, 0x00F90001], Instr.imageVerify ⟨0, true, false, 64, .var 60, .var 62, .var 0, none, 0x0001, none⟩),
   ([0x3E403CC0, 0x00F90002], Instr.imageMeasure ⟨0, true, false, 64, .var 60, .special .zero, .var 0, none, 0x0002, none⟩),
   ([0x3E40893E, 0x00F90004], Instr.isleSwitch ⟨0, true, false, 64, .const 1, .var 62, .var 0, none, 0x0004, none⟩),
   ([0x3E420000, 0x00FA0000], Instr.wfi ⟨0, true, false, 66, .var 0, .var 0, .var 0, none, 0x0000, none⟩),
   ([0x3D2D1800, 0x00F60000], Instr.wbind ⟨0, true, false, 45, .var 24, .var 0, .var 0, none, 0x0000, none⟩),
   ([0x3D2E1A00, 0x00F60011], Instr.wbind ⟨0, true, false, 46, .var 26, .var 0, .var 0, none, 0x0011, none⟩),
   ([0x3C001E00, 0x00F20029], Instr.mfill ⟨0, true, false, 0, .var 30, .var 0, .var 0, none, 0x0029, none⟩),
   ([0x3C008800, 0x00F20180], Instr.mfill ⟨0, true, false, 0, .const 0, .var 0, .var 0, none, 0x0180, none⟩),
   ([0x3C00FF00, 0x00F20184, 0x00008000], Instr.mfill ⟨0, true, false, 0, .lit, .var 0, .var 0, none, 0x0184, some 0x8000⟩),
   ([0x3C00FF00, 0x00F20186, 0x0000C000], Instr.mfill ⟨0, true, false, 0, .lit, .var 0, .var 0, none, 0x0186, some 0xc000⟩),
   ([0x3C37348A, 0x00F50001], Instr.mma ⟨0, true, false, 55, .var 52, .const 2, .var 0, none, 0x0001, none⟩),
   ([0x3C3A0000, 0x000C0000], Instr.mstat ⟨0, true, false, 58, .var 0, .var 0, .var 0, some 0, 0x0000, none⟩),
   ([0x390028FF, 0x3AF30000, 0x00010000], Instr.st .b64 ⟨0, true, false, 0, .var 40, .lit, .var 58, none, 0x0000, some 0x10000⟩),
   ([0x3C00FF00, 0x00F10000, 0x0001001F], Instr.mrel ⟨0, true, false, 0, .lit, .var 0, .var 0, none, 0x0000, some 0x1001f⟩),
   ([0x3E3C0000, 0x00020040], Instr.csrr ⟨0, true, false, 60, .var 0, .var 0, .var 0, some 0, 0x0040, none⟩),
   ([0x223D3CFF, 0x000000FF], Instr.and ⟨0, true, false, 61, .var 60, .lit, some 0xff⟩),
   ([0x213D3D96], Instr.isub ⟨0, true, false, 61, .var 61, .const 14, none⟩),
   ([0x30003D00, 0x00F20012], Instr.bnz ⟨0, true, false, 0, .var 61, .var 0, .var 0, none, 0x0012, none⟩),
   ([0x3C380000, 0x00F90060], Instr.mloc ⟨0, true, false, 56, .var 0, .var 0, .var 0, none, 0x0060, none⟩),
   ([0x3C3D0000, 0x001A0000], Instr.mfix ⟨0, true, false, 61, .var 0, .var 0, .var 0, some 1, 0x0000, none⟩),
   ([0x30003D00, 0x00F10005], Instr.bz ⟨0, true, false, 0, .var 61, .var 0, .var 0, none, 0x0005, none⟩),
   ([0x3E000000, 0x00F10000], Instr.tret ⟨0, true, false, 0, .var 0, .var 0, .var 0, none, 0x0000, none⟩),
   ([0x3E000000, 0x00F00000], Instr.trap ⟨0, true, false, 0, .var 0, .var 0, .var 0, none, 0x0000, none⟩)].all reads = true := by
  decide +kernel

theorem test_words_Short :
  [([0x00080C10], Instr.iadd bin), ([0x01080C10], Instr.isub bin), ([0x02080C10], Instr.and bin), ([0x03080C10], Instr.or bin),
    ([0x04080C10], Instr.xor bin), ([0x05080C10], Instr.shl bin), ([0x06080C10], Instr.shr bin), ([0x07080C10], Instr.fadd bin),
    ([0x08080C10], Instr.fmul bin), ([0x0E080C10], Instr.fsub bin), ([0x09080C00], Instr.mov una), ([0x09080C01], Instr.not una),
    ([0x09080C02], Instr.ineg una), ([0x09080C03], Instr.iabs una), ([0x09080C04], Instr.popc una), ([0x09080C05], Instr.clz una),
    ([0x09080C06], Instr.ctz una), ([0x09080C07], Instr.brev una), ([0x0A080C00], Instr.fabs una), ([0x0A080C01], Instr.fneg una),
    ([0x0A080C02], Instr.frcp una), ([0x0A080C03], Instr.frsq una), ([0x0A080C04], Instr.fsqrt una), ([0x0A080C05], Instr.fexp2 una),
    ([0x0A080C06], Instr.flog2 una), ([0x0A080C07], Instr.fsin una), ([0x0A080C08], Instr.fcos una), ([0x0A080C09], Instr.ftanh una),
    ([0x0A080C0A], Instr.fsig una), ([0x0A080C0B], Instr.ffrac una), ([0x0A080C0C], Instr.fclass una)].all reads = true := by
  decide +kernel

theorem test_words_Integer :
  [([0x0B080C10, 0x00F00000], Instr.iaddX (xform 8 12 16 0 0)), ([0x0B080C10, 0x00F10000], Instr.isubX (xform 8 12 16 0 0)),
    ([0x0B080C10, 0x00F20000], Instr.imul (xform 8 12 16 0 0)), ([0x0B080C10, 0x00F30000], Instr.imulh (xform 8 12 16 0 0)),
    ([0x0B080C10, 0x14F40000], Instr.imad (xform 8 12 16 20 0)), ([0x0B080C10, 0x00F50000], Instr.imin (xform 8 12 16 0 0)),
    ([0x0B080C10, 0x00F60000], Instr.imax (xform 8 12 16 0 0)), ([0x0B080C00, 0x00F70000], Instr.iabsX (xform 8 12 0 0 0)),
    ([0x0B080C00, 0x00F80000], Instr.inegX (xform 8 12 0 0 0)), ([0x0B080C10, 0x00F90000], Instr.icmp (xform 8 12 16 0 0)),
    ([0x0B080C10, 0x14FA0000], Instr.isel (xform 8 12 16 20 0)), ([0x0B080C10, 0x14FB0000], Instr.bsel (xform 8 12 16 20 0)),
    ([0x0B080C10, 0x00FC0000], Instr.lea (xform 8 12 16 0 0)), ([0x0B080C00, 0x00FD0000], Instr.movX (xform 8 12 0 0 0)),
    ([0x0C080C10, 0x00F00000], Instr.andX (xform 8 12 16 0 0)), ([0x0C080C10, 0x00F10000], Instr.orX (xform 8 12 16 0 0)),
    ([0x0C080C10, 0x00F20000], Instr.xorX (xform 8 12 16 0 0)), ([0x0C080C10, 0x00F30000], Instr.andn (xform 8 12 16 0 0)),
    ([0x0C080C00, 0x00F40000], Instr.notX (xform 8 12 0 0 0)), ([0x0C080C10, 0x00F50000], Instr.shlX (xform 8 12 16 0 0)),
    ([0x0C080C10, 0x00F60000], Instr.shrX (xform 8 12 16 0 0)), ([0x0C080C10, 0x00F70000], Instr.sar (xform 8 12 16 0 0)),
    ([0x0C080C10, 0x14F80000], Instr.fshl (xform 8 12 16 20 0)), ([0x0C080C10, 0x14F90000], Instr.fshr (xform 8 12 16 20 0)),
    ([0x0C080C10, 0x00FA0008], Instr.bfx (xform 8 12 16 0 8)), ([0x0C080C10, 0x14FB0008], Instr.bfi (xform 8 12 16 20 8)),
    ([0x0C080C00, 0x00FC0000], Instr.popcX (xform 8 12 0 0 0)), ([0x0C080C00, 0x00FD0000], Instr.clzX (xform 8 12 0 0 0)),
    ([0x0C080C00, 0x00FE0000], Instr.ctzX (xform 8 12 0 0 0)), ([0x0C080C00, 0x00FF0000], Instr.brevX (xform 8 12 0 0 0))].all reads = true := by
  decide +kernel

theorem test_words_Float :
  [([0x0D080C10, 0x00F00000], Instr.faddX (xform 8 12 16 0 0)), ([0x0D080C10, 0x00F10000], Instr.fsubX (xform 8 12 16 0 0)),
    ([0x0D080C10, 0x00F20000], Instr.fmulX (xform 8 12 16 0 0)), ([0x0D080C10, 0x14F30000], Instr.ffma (xform 8 12 16 20 0)),
    ([0x0D080C10, 0x00F40000], Instr.fmin (xform 8 12 16 0 0)), ([0x0D080C10, 0x00F50000], Instr.fmax (xform 8 12 16 0 0)),
    ([0x0D080C10, 0x00F60000], Instr.fminnum (xform 8 12 16 0 0)), ([0x0D080C10, 0x00F70000], Instr.fmaxnum (xform 8 12 16 0 0)),
    ([0x0D080C10, 0x00F80000], Instr.fcmp (xform 8 12 16 0 0)), ([0x0D080C10, 0x00F90000], Instr.fscale (xform 8 12 16 0 0)),
    ([0x0D080C00, 0x00FA0000], Instr.fround (xform 8 12 0 0 0)), ([0x0D080C00, 0x00FB0000], Instr.fabsX (xform 8 12 0 0 0)),
    ([0x0D080C01, 0x00FB0000], Instr.fnegX (xform 8 12 0 0 0)), ([0x0D080C02, 0x00FB0000], Instr.frcpX (xform 8 12 0 0 0)),
    ([0x0D080C03, 0x00FB0000], Instr.frsqX (xform 8 12 0 0 0)), ([0x0D080C04, 0x00FB0000], Instr.fsqrtX (xform 8 12 0 0 0)),
    ([0x0D080C05, 0x00FB0000], Instr.fexp2X (xform 8 12 0 0 0)), ([0x0D080C06, 0x00FB0000], Instr.flog2X (xform 8 12 0 0 0)),
    ([0x0D080C07, 0x00FB0000], Instr.fsinX (xform 8 12 0 0 0)), ([0x0D080C08, 0x00FB0000], Instr.fcosX (xform 8 12 0 0 0)),
    ([0x0D080C09, 0x00FB0000], Instr.ftanhX (xform 8 12 0 0 0)), ([0x0D080C0A, 0x00FB0000], Instr.fsigX (xform 8 12 0 0 0)),
    ([0x0D080C0B, 0x00FB0000], Instr.ffracX (xform 8 12 0 0 0)), ([0x0D080C0C, 0x00FB0000], Instr.fclassX (xform 8 12 0 0 0))].all reads = true := by
  decide +kernel

theorem test_words_LanesAndControl :
  [([0x10080C10, 0x00F00000], Instr.shflIdx (xform 8 12 16 0 0)), ([0x10080C10, 0x00F10000], Instr.shflUp (xform 8 12 16 0 0)),
    ([0x10080C10, 0x00F20000], Instr.shflDown (xform 8 12 16 0 0)), ([0x10080C10, 0x00F30000], Instr.shflXor (xform 8 12 16 0 0)),
    ([0x30000000, 0x00F00000], Instr.bra (sform 0 0 0 0 0)), ([0x30000C00, 0x00F10000], Instr.bz (sform 0 12 0 0 0)),
    ([0x30000C00, 0x00F20000], Instr.bnz (sform 0 12 0 0 0)), ([0x30000C00, 0x00F30000], Instr.brx (sform 0 12 0 0 0)),
    ([0x30000000, 0x00F40000], Instr.call (sform 0 0 0 0 0)), ([0x30000C00, 0x00F50000], Instr.calli (sform 0 12 0 0 0)),
    ([0x30080C00, 0x00F60000], Instr.grow (sform 8 12 0 0 0)), ([0x30000000, 0x00F70000], Instr.fwait (sform 0 0 0 0 0)),
    ([0x11080C00, 0x00F00000], Instr.voteAny (xform 8 12 0 0 0)), ([0x11080C00, 0x00F10000], Instr.voteAll (xform 8 12 0 0 0)),
    ([0x11080C00, 0x00F20000], Instr.voteEq (xform 8 12 0 0 0)), ([0x11080C00, 0x00F30000], Instr.ballot (xform 8 12 0 0 0)), ([0x31000000], Instr.ret ⟨0⟩),
    ([0x31000001], Instr.exit ⟨0⟩), ([0x31000002], Instr.trigger ⟨0⟩), ([0x31000003], Instr.yield ⟨0⟩), ([0x31000004], Instr.nop ⟨0⟩),
    ([0x1F000000], Instr.hint ⟨0, 0⟩), ([0x12080C00, 0x00F00000], Instr.mergeChk (xform 8 12 0 0 0)),
    ([0x12080C00, 0x00F10000], Instr.mergeLane (xform 8 12 0 0 0)), ([0x12080C00, 0x00F20000], Instr.mergeG (xform 8 12 0 0 0)),
    ([0x12080C00, 0x00F30000], Instr.rkq (xform 8 12 0 0 0)), ([0x12080C00, 0x00F40000], Instr.rkhome (xform 8 12 0 0 0))].all reads = true := by
  decide +kernel

theorem test_words_NarrowAndConversions :
  [([0x13080C10, 0x14F00000], Instr.dot4E4m3 (xform 8 12 16 20 0)), ([0x13080C10, 0x14F10000], Instr.dot4E5m2 (xform 8 12 16 20 0)),
    ([0x13080C10, 0x14F20000], Instr.dot8E2m1 (xform 8 12 16 20 0)), ([0x13080C10, 0x14F30000], Instr.dot2B16 (xform 8 12 16 20 0)),
    ([0x13080C10, 0x14F40000], Instr.dot4I8 (xform 8 12 16 20 0)), ([0x13080C10, 0x14F50000], Instr.dot4N8 (xform 8 12 16 20 0)),
    ([0x13080C10, 0x14F60000], Instr.dot8I4 (xform 8 12 16 20 0)), ([0x14080C10, 0x14F00000], Instr.dots4E4m3 (xform 8 12 16 20 0)),
    ([0x14080C10, 0x14F10000], Instr.dots4E5m2 (xform 8 12 16 20 0)), ([0x14080C10, 0x14F20000], Instr.dots8E2m1 (xform 8 12 16 20 0)),
    ([0x15080C10, 0x00F00000], Instr.hadd2 (xform 8 12 16 0 0)), ([0x15080C10, 0x00F10000], Instr.hsub2 (xform 8 12 16 0 0)),
    ([0x15080C10, 0x00F20000], Instr.hmul2 (xform 8 12 16 0 0)), ([0x15080C10, 0x14F30000], Instr.hfma2 (xform 8 12 16 20 0)),
    ([0x15080C10, 0x00F40000], Instr.hmin2 (xform 8 12 16 0 0)), ([0x15080C10, 0x00F50000], Instr.hmax2 (xform 8 12 16 0 0)),
    ([0x16080C00, 0x00F00000], Instr.cvtF32I32 (xform 8 12 0 0 0)), ([0x16080C00, 0x00F10000], Instr.cvtI32F32 (xform 8 12 0 0 0)),
    ([0x16080C00, 0x00F20000], Instr.cvtF32F16 (xform 8 12 0 0 0)), ([0x16080C00, 0x00F30000], Instr.cvtF32B16 (xform 8 12 0 0 0)),
    ([0x16080C10, 0x00F40000], Instr.cvtPkF16F32 (xform 8 12 16 0 0)), ([0x16080C10, 0x00F50000], Instr.cvtPkB16F32 (xform 8 12 16 0 0)),
    ([0x16080C10, 0x14F60000], Instr.cvtPkE4m3F32 (xform 8 12 16 20 0)), ([0x16080C10, 0x14F70000], Instr.cvtPkE5m2F32 (xform 8 12 16 20 0)),
    ([0x16080C10, 0x14F80000], Instr.cvtPkE2m1F32 (xform 8 12 16 20 0)), ([0x16080C00, 0x00F90000], Instr.cvtUpB16E4m3 (xform 8 12 0 0 0)),
    ([0x16080C00, 0x00FA0000], Instr.cvtUpB16E5m2 (xform 8 12 0 0 0)), ([0x16080C00, 0x00FB0000], Instr.cvtUpB16E2m1 (xform 8 12 0 0 0)),
    ([0x16080C00, 0x00FC0000], Instr.cvtB16E8m0 (xform 8 12 0 0 0)), ([0x16080C10, 0x14FD0000], Instr.cvtPkI8F32 (xform 8 12 16 20 0)),
    ([0x16080C10, 0x14FE0000], Instr.cvtPkI4F32 (xform 8 12 16 20 0))].all reads = true := by
  decide +kernel

theorem test_words_RanksAndMemory :
  [([0x37080C00, 0x00F00000], Instr.lread (sform 8 12 0 0 0)), ([0x37000C10, 0x00F10000], Instr.lwrite (sform 0 12 16 0 0)),
    ([0x18080C10, 0x00F20000], Instr.ld .b32 (xform 8 12 16 0 0)), ([0x18080C10, 0x00FA0000], Instr.lds .b32 (xform 8 12 16 0 0)),
    ([0x19000C10, 0x14F20000], Instr.st .b32 (xform 0 12 16 20 0)), ([0x19000C10, 0x14FA0000], Instr.sts .b32 (xform 0 12 16 20 0)),
    ([0x1A080C10, 0x00F00000], Instr.aadd (xform 8 12 16 0 0)), ([0x1A080C10, 0x00F10000], Instr.amin (xform 8 12 16 0 0)),
    ([0x1A080C10, 0x00F20000], Instr.amax (xform 8 12 16 0 0)), ([0x1A080C10, 0x00F30000], Instr.aand (xform 8 12 16 0 0)),
    ([0x1A080C10, 0x00F40000], Instr.aor (xform 8 12 16 0 0)), ([0x1A080C10, 0x00F50000], Instr.axor (xform 8 12 16 0 0)),
    ([0x1A080C10, 0x00F60000], Instr.axchg (xform 8 12 16 0 0)), ([0x1A080C10, 0x14F70000], Instr.acas (xform 8 12 16 20 0)),
    ([0x1A080C10, 0x00F80000], Instr.afadd (xform 8 12 16 0 0)), ([0x1A080C10, 0x00F90000], Instr.afmin (xform 8 12 16 0 0)),
    ([0x1A080C10, 0x00FA0000], Instr.afmax (xform 8 12 16 0 0)), ([0x1B080C00, 0x00F00000], Instr.lr (xform 8 12 0 0 0)),
    ([0x1B080C10, 0x00F10000], Instr.sc (xform 8 12 16 0 0)), ([0x1B000000, 0x00F22400], Instr.fence (xform 0 0 0 0 0x2400))].all reads = true := by
  decide +kernel

theorem test_words_Matrix :
  [([0x3C080C00, 0x00F00000], Instr.mclaim (sform 8 12 0 0 0)), ([0x3C000C00, 0x00F10000], Instr.mrel (sform 0 12 0 0 0)),
    ([0x3C000C00, 0x00F20000], Instr.mfill (sform 0 12 0 0 0)), ([0x3C000010, 0x00F30000], Instr.mzero (sform 0 0 16 0 0)),
    ([0x3C000C10, 0x14F40000], Instr.mload (sform 0 12 16 20 0)), ([0x3C080C10, 0x00F50000], Instr.mma (sform 8 12 16 0 0)),
    ([0x3C080000, 0x00F60000], Instr.mver (sform 8 0 0 0 0)), ([0x3C000C10, 0x14F70000], Instr.mdrain (sform 0 12 16 20 0)),
    ([0x3C000010, 0x00F80000], Instr.mverify (sform 0 0 16 0 0)), ([0x3C080000, 0x00F90000], Instr.mloc (sform 8 0 0 0 0)),
    ([0x3C080000, 0x00FA0000], Instr.mfix (sform 8 0 0 0 0)), ([0x3C080000, 0x00FB0000], Instr.mretry (sform 8 0 0 0 0)),
    ([0x3C080000, 0x00FC0000], Instr.mstat (sform 8 0 0 0 0))].all reads = true := by
  decide +kernel

theorem test_words_BarriersAndWindows :
  [([0x3D080C10, 0x00F00200], Instr.barInit (sform 8 12 16 0 0x200)), ([0x3D080C10, 0x00F10200], Instr.barArrive (sform 8 12 16 0 0x200)),
    ([0x3D000C10, 0x00F20200], Instr.barExpect (sform 0 12 16 0 0x200)), ([0x3D080C10, 0x00F30200], Instr.barWait (sform 8 12 16 0 0x200)),
    ([0x3D080C10, 0x00F40200], Instr.barTest (sform 8 12 16 0 0x200)), ([0x3D080C00, 0x00F50200], Instr.barDrop (sform 8 12 0 0 0x200)),
    ([0x3D080C00, 0x00F60000], Instr.wbind (sform 8 12 0 0 0)), ([0x3D000000, 0x00F70000], Instr.wunbind (sform 0 0 0 0 0)),
    ([0x3D080000, 0x00F80000], Instr.wstat (sform 8 0 0 0 0)), ([0x3D080C10, 0x00F90000], Instr.enq (sform 8 12 16 0 0)),
    ([0x3D080C00, 0x00FA0000], Instr.eseq (sform 8 12 0 0 0))].all reads = true := by
  decide +kernel

theorem test_words_System :
  [([0x3E000000, 0x00F00000], Instr.trap (sform 0 0 0 0 0)), ([0x3E000000, 0x00FC0000], Instr.brk (sform 0 0 0 0 0)),
    ([0x3E000000, 0x00F10000], Instr.tret (sform 0 0 0 0 0)), ([0x3E000000, 0x00F10001], Instr.tretSkip (sform 0 0 0 0 1)),
    ([0x3E080010, 0x00F20000], Instr.csrr (sform 8 0 16 0 0)), ([0x3E000C10, 0x00F30000], Instr.csrw (sform 0 12 16 0 0)),
    ([0x3E000C10, 0x00F40000], Instr.csrs (sform 0 12 16 0 0)), ([0x3E000C10, 0x00F50000], Instr.csrc (sform 0 12 16 0 0)),
    ([0x3E000000, 0x00F60000], Instr.isync (sform 0 0 0 0 0)), ([0x3E000C10, 0x00F70000], Instr.iflush (sform 0 12 16 0 0)),
    ([0x3E080C10, 0x00F80000], Instr.ecall (sform 8 12 16 0 0)), ([0x3E080C10, 0x00F80020], Instr.queueQuiesce (sform 8 12 16 0 0x20)),
    ([0x3E080C10, 0x00F80021], Instr.queueResume (sform 8 12 16 0 0x21)), ([0x3E080C10, 0x00F80022], Instr.queueReset (sform 8 12 16 0 0x22)),
    ([0x3E080C10, 0x00F80023], Instr.traceBind (sform 8 12 16 0 0x23)), ([0x3E080C10, 0x00F80024], Instr.traceClose (sform 8 12 16 0 0x24)),
    ([0x3E080C10, 0x00F80010], Instr.codeLoad (sform 8 12 16 0 0x10))].all reads = true := by
  decide +kernel

theorem test_words_MonitorAndDebug :
  [([0x3E080C10, 0x00F90000], Instr.monitorVersion (sform 8 12 16 0 0)), ([0x3E080C10, 0x00F90001], Instr.imageVerify (sform 8 12 16 0 1)),
    ([0x3E080C10, 0x00F90002], Instr.imageMeasure (sform 8 12 16 0 2)), ([0x3E080C10, 0x00F90003], Instr.isleWrite (sform 8 12 16 0 3)),
    ([0x3E080C10, 0x00F90004], Instr.isleSwitch (sform 8 12 16 0 4)), ([0x3E080C10, 0x00F90005], Instr.heartbeat (sform 8 12 16 0 5)),
    ([0x3E080C10, 0x00F90006], Instr.fuseSvn (sform 8 12 16 0 6)), ([0x3E080C10, 0x00F90007], Instr.moncallUnknown (sform 8 12 16 0 7)),
    ([0x3E080000, 0x00FA0000], Instr.wfi (sform 8 0 0 0 0)), ([0x3E000010, 0x00FB0000], Instr.tlbinvAll (sform 0 0 16 0 0)),
    ([0x3E000010, 0x00FB0005], Instr.tlbinvAsid (sform 0 0 16 0 5)), ([0x3E000C10, 0x14FB0006], Instr.tlbinvRange (sform 0 12 16 20 6)),
    ([0x1E080C00, 0x00F00000], Instr.dhalt (xform 8 12 0 0 0)), ([0x1E080C10, 0x00F10000], Instr.dresume (xform 8 12 16 0 0)),
    ([0x1E080C10, 0x00F20000], Instr.dstep (xform 8 12 16 0 0)), ([0x1E080C10, 0x00F30000], Instr.dread (xform 8 12 16 0 0)),
    ([0x1E080C10, 0x14F40000], Instr.dwrite (xform 8 12 16 20 0))].all reads = true := by
  decide +kernel

/-! ### Well-formedness: each check refuses a term that fails it alone (R83, R84, R90, R312, R385) -/

theorem test_wf_accepts :
  [Instr.iadd bin, .mov una, .nop ⟨0⟩, .hint ⟨0, 0xABCDEF⟩, .iaddX (xform 8 12 16 0 0x8000), .ld .b128 (xform 8 12 16 0 0), .mma (sform 8 12 16 0 1)].all Instr.wf = true := by
  decide

/-- A class that the major does not have, a pair or a quad at a wrong number, a field that is not used, a modifier that is not taken, a FLAG where none may stand, NWB without
a destination, a literal that nothing reads and one that is read but missing, and an event. -/
theorem test_wf_refuses :
  [Instr.mclaim (xform 8 12 0 0 0), .shflIdx (sform 8 12 16 0 0), .iaddX (xform 9 12 16 0 0x8000), .iaddX (xform 8 13 16 0 0x8000), .iaddX (xform 8 12 17 0 0x8000),
   .bsel (xform 8 12 16 21 0x8000), .ld .b128 (xform 10 12 16 0 0), .movX (xform 8 12 1 0 0), .imul (xform 8 12 16 1 0), .fence (xform 1 0 0 0 0x2400), .iaddX (xform 8 12 16 0 1),
   .imul (xform 8 12 16 0 0x8001), .bfx (xform 8 12 16 0 0), .icmp (xform 8 12 16 0 6), .ld .b32 (xform 8 12 16 0 0x2400), .trap { sform 0 0 0 0 7 with flag := some 0 },
   .st .b32 { xform 0 12 16 20 0 with nwb := true }, .iadd { bin with lit := some 5 }, .iadd { bin with sb := .lit }, .clauseStart (.wave 0 0)].all (fun i => !i.wf) = true := by
  decide

/-- Words that are no instruction: a missing extension, a reserved major, one reserved at its S, a code beyond a list, a reserved source, a reserved FLAG, and a field that must
be zero (R78, R82 to R84, R88 to R90). -/
theorem test_words_refused :
  (let bad (ws : List Word) : Option DecodeError := match decodeWords ws with | .ok _ => none | .error e => some e
   [bad [0x0B080C10], bad [0x0F000000], bad [0x32000000, 0x00F00000], bad [0x09080C08], bad [0x0B080C10, 0x00FE0000], bad [0x00080CE0], bad [0x0B080C10, 0x00C00000],
    bad [0x0B080C10, 0x01F00000]]) =
  [some .truncated, some .reservedMajor, some .reservedMajor, some .reservedCode, some .reservedCode, some .reservedSource, some .reservedFlag, some .illegalFields] := by
  decide +kernel

/-! ### One step on lane 0 alone, with results from the spec's tables of examples and rules -/

/-- What one step leaves in x8 of lane 0, in x9 of lane 0, and in WSTAT, with v12, v16 and v20 given (lane-home, slots of lane 0). -/
def after (i : Instr) (a b c : Word) : Option (Nat × Nat × Nat) :=
  let s := placedWith i (fun w => onlyRun 1 { w with slots := ((w.slots.set 768 a).set 1024 b).set 1280 c })
  match exec i s with
  | .next t => (t.flow? (.wave 0 0)).map (fun w => ((t.readVar (.wave 0 0) w 8 0).toNat, (t.readVar (.wave 0 0) w 9 0).toNat, w.wstat.value))
  | _ => none

/-- Wrap and saturation of addition, the corner of `iabs` and the counts of shifts (R322, R326, R332). -/
theorem test_integer_results :
  [after (.iadd bin) 0xFFFFFFFF 2 0, after (.isub bin) 1 2 0, after (.iaddX (xform 8 12 16 0 0x4800)) 0x7FFFFFFF 1 0, after (.iaddX (xform 8 12 16 0 0x0800)) 0xFFFFFFFF 1 0,
    after (.iabs una) 0x80000000 0 0, after (.shl bin) 1 32 0, after (.sar (xform 8 12 16 0 0)) 0x80000000 40 0, after (.imul (xform 8 12 16 0 0x4001)) 0xFFFFFFFF 2 0,
    after (.fshr (xform 8 12 16 20 0)) 0x12345678 0x9ABCDEF0 40, after (.clz una) 0 0 0] =
  [some (1, 0, 0), some (0xFFFFFFFF, 0, 0), some (0x7FFFFFFF, 0, 0), some (0xFFFFFFFF, 0, 0), some (0x80000000, 0, 0), some (0, 0, 0), some (0xFFFFFFFF, 0, 0),
    some (0xFFFFFFFE, 0xFFFFFFFF, 0), some (0x789ABCDE, 0, 0), some (32, 0, 0)] := by
  decide +kernel

/-- The examples of `fmin`, `fminnum` and `fmaxnum`, of the narrow dots and of the packing conversions (R348, R356, R361), with WSTAT: INV 1, DZ 2, OVF 4, UNF 8, INX 16. -/
theorem test_float_results :
  [after (.fmin (xform 8 12 16 0 0)) 0 0x80000000 0, after (.fmin (xform 8 12 16 0 0)) 0x7FC00001 0x40400000 0, after (.fminnum (xform 8 12 16 0 0)) 0x7FC00001 0x40400000 0,
    after (.fmaxnum (xform 8 12 16 0 0)) 0x7FA00000 0xBF800000 0, after (.dot4E4m3 (xform 8 12 16 20 0)) 0x38383838 0x40404040 0x3F000000,
    after (.dot4I8 (xform 8 12 16 20 0)) 0x80FF7F01 0x02020202 10, after (.dot4N8 (xform 8 12 16 20 0)) 0x80FF7F01 0x02020202 10,
    after (.cvtPkE4m3F32 (xform 8 12 16 20 1)) 0x43960000 0xBA83126F 0xAABBCCDD, after (.cvtPkE2m1F32 (xform 8 12 16 20 3)) 0x40266666 0x40E00000 0,
    after (.cvtUpB16E2m1 (xform 8 12 0 0 3)) 0x75000000 0 0, after (.frcp una) 0 0 0] =
  [some (0x80000000, 0, 0), some (0x7FC00000, 0, 1), some (0x40400000, 0, 0), some (0xBF800000, 0, 1), some (0x41080000, 0, 0), some (8, 0, 0), some (1032, 0, 0),
    some (0x8179CCDD, 0, 24), some (0x75000000, 0, 20), some (0x40C04040, 0, 0), some (0x7F800000, 0, 2)] := by
  decide +kernel

/-- An add of a `.64` source: an integer constant and the literal are sign-extended (R86). -/
theorem test_wide_sources :
  [after (.iaddX { xform 8 0 0 0 0x8000 with sa := .const 32, sb := .const 0 }) 0 0 0, after (.iaddX { xform 8 0 0 0 0x8000 with sa := .lit, sb := .const 1, lit := some 0x80000000 }) 0 0 0,
    after (.movX { xform 8 0 0 0 0x8000 with sa := .const 41 }) 0 0 0] =
  [some (0xFFFFFFFF, 0xFFFFFFFF, 0), some (0x80000001, 0xFFFFFFFF, 0), some (0xBF000000, 0, 0)] := by
  decide +kernel


/-- The table of R361: a block whose four lanes run together, two of its lanes alone, and two of its lanes after the lead lane has exited. -/
theorem test_scaled_dot_runs :
  (let i : Instr := .dots8E2m1 { xform 8 12 16 24 0x14 with sc := .const 0 }
   let y (run live : LaneMask) (l : Nat) : Option Nat :=
     let s := placedWith i (fun w =>
       let slots := ([0, 1, 2, 3].foldl (fun t k => (t.set (768 + k) 0x22222222).set (1024 + k) 0x22222222) w.slots).set 1280 0x3F803F80
       onlyRun run { w with slots, live })
     match exec i s with
     | .next t => (t.flow? (.wave 0 0)).map (fun w => (t.readVar (.wave 0 0) w 8 l).toNat)
     | _ => none
   let all : LaneMask := BitVec.allOnes 64
   [y 0xF all 0, y 0xF all 3, y 3 all 1, y 3 all 2, y 12 all 2, y 12 (all &&& ~~~1) 3]) =
  [some 0x42000000, some 0x42000000, some 0x41800000, some 0, some 0x41800000, some 0] := by
  decide +kernel

/-- The shuffles of four lanes that hold 1.0 to 4.0 (R367): each lane reads its neighbour's value. -/
theorem test_shuffle_xor :
  (let i : Instr := .shflXor { xform 8 12 0 0 2 with sb := .const 1 }
   let s := placedWith i (fun w => { w with slots := [(768, 1), (769, 2), (770, 3), (771, 4)] })
   match exec i s with
   | .next t => (t.flow? (.wave 0 0)).map (fun w => [0, 1, 2, 3].map (fun l => (t.readVar (.wave 0 0) w 8 l).toNat))
   | _ => none) = some [2, 1, 4, 3] := by
  decide +kernel

/-! ### States that meet the hypotheses of the statements -/

theorem test_ready_AddSubtract :
  [Instr.iadd bin, .isub bin, .iaddX (xform 8 12 16 0 0), .isubX (xform 8 12 16 0 0)].all ready = true := by
  decide +kernel

theorem test_ready_Multiply :
  [Instr.imul (xform 8 12 16 0 0), .imad (xform 8 12 16 20 0), .imulh (xform 8 12 16 0 0)].all ready = true := by
  decide +kernel

theorem test_ready_MinMaxAbs :
  [Instr.imin (xform 8 12 16 0 0), .imax (xform 8 12 16 0 0), .iabs una, .ineg una, .iabsX (xform 8 12 0 0 0), .inegX (xform 8 12 0 0 0)].all ready = true := by
  decide +kernel

theorem test_ready_CompareSelectMove :
  [Instr.icmp (xform 8 12 16 0 0), .isel (xform 8 12 16 20 0), .bsel (xform 8 12 16 20 0), .lea (xform 8 12 16 0 0), .mov una, .movX (xform 8 12 0 0 0)].all ready = true := by
  decide +kernel

theorem test_ready_BitwiseLogic :
  [Instr.clz una, .ctz una, .popc una, .popcX (xform 8 12 0 0 0), .clzX (xform 8 12 0 0 0), .ctzX (xform 8 12 0 0 0), .brev una, .brevX (xform 8 12 0 0 0),
   .and bin, .or bin, .xor bin, .not una, .andX (xform 8 12 16 0 0), .orX (xform 8 12 16 0 0), .xorX (xform 8 12 16 0 0), .andn (xform 8 12 16 0 0),
   .notX (xform 8 12 0 0 0)].all ready = true := by
  decide +kernel

theorem test_ready_Shifts :
  [Instr.shl bin, .shr bin, .shlX (xform 8 12 16 0 0), .shrX (xform 8 12 16 0 0), .sar (xform 8 12 16 0 0), .fshl (xform 8 12 16 20 0),
   .fshr (xform 8 12 16 20 0), .bfx (xform 8 12 16 0 8), .bfi (xform 8 12 16 20 8)].all ready = true := by
  decide +kernel

theorem test_ready_FloatArithmetic :
  [Instr.fadd bin, .fsub bin, .fmul bin, .faddX (xform 8 12 16 0 0), .fsubX (xform 8 12 16 0 0), .fmulX (xform 8 12 16 0 0), .ffma (xform 8 12 16 20 0)].all ready = true := by
  decide +kernel

theorem test_ready_FloatMinMaxCompare :
  [Instr.fmin (xform 8 12 16 0 0), .fmax (xform 8 12 16 0 0), .fminnum (xform 8 12 16 0 0), .fmaxnum (xform 8 12 16 0 0), .fcmp (xform 8 12 16 0 0)].all ready = true := by
  decide +kernel

theorem test_ready_FloatUnary :
  [Instr.fabs una, .fabsX (xform 8 12 0 0 0), .fneg una, .fnegX (xform 8 12 0 0 0), .frcp una, .frcpX (xform 8 12 0 0 0), .fsqrt una,
   .fsqrtX (xform 8 12 0 0 0), .ffrac una, .ffracX (xform 8 12 0 0 0), .fclass una, .fclassX (xform 8 12 0 0 0), .fscale (xform 8 12 16 0 0),
   .fround (xform 8 12 0 0 0)].all ready = true := by
  decide +kernel

theorem test_ready_FloatApproximated :
  [Instr.frsq una, .frsqX (xform 8 12 0 0 0), .fexp2 una, .fexp2X (xform 8 12 0 0 0), .flog2 una, .flog2X (xform 8 12 0 0 0), .fsin una,
   .fsinX (xform 8 12 0 0 0), .fcos una, .fcosX (xform 8 12 0 0 0), .ftanh una, .ftanhX (xform 8 12 0 0 0), .fsig una, .fsigX (xform 8 12 0 0 0)].all ready = true := by
  decide +kernel

theorem test_ready_PackedHalves :
  [Instr.hadd2 (xform 8 12 16 0 0), .hsub2 (xform 8 12 16 0 0), .hmul2 (xform 8 12 16 0 0), .hfma2 (xform 8 12 16 20 0), .hmin2 (xform 8 12 16 0 0),
   .hmax2 (xform 8 12 16 0 0)].all ready = true := by
  decide +kernel

theorem test_ready_Conversions :
  [Instr.cvtF32I32 (xform 8 12 0 0 0), .cvtI32F32 (xform 8 12 0 0 0), .cvtF32F16 (xform 8 12 0 0 0), .cvtF32B16 (xform 8 12 0 0 0),
   .cvtPkF16F32 (xform 8 12 16 0 0), .cvtPkB16F32 (xform 8 12 16 0 0), .cvtPkE4m3F32 (xform 8 12 16 20 0), .cvtPkE5m2F32 (xform 8 12 16 20 0),
   .cvtPkE2m1F32 (xform 8 12 16 20 0), .cvtUpB16E4m3 (xform 8 12 0 0 0), .cvtUpB16E5m2 (xform 8 12 0 0 0), .cvtUpB16E2m1 (xform 8 12 0 0 0),
   .cvtB16E8m0 (xform 8 12 0 0 0), .cvtPkI8F32 (xform 8 12 16 20 0), .cvtPkI4F32 (xform 8 12 16 20 0)].all ready = true := by
  decide +kernel

theorem test_ready_DotProducts :
  [Instr.dot4E4m3 (xform 8 12 16 20 0), .dot4E5m2 (xform 8 12 16 20 0), .dot8E2m1 (xform 8 12 16 20 0), .dot2B16 (xform 8 12 16 20 0),
   .dot4I8 (xform 8 12 16 20 0), .dot4N8 (xform 8 12 16 20 0), .dot8I4 (xform 8 12 16 20 0), .dots4E4m3 (xform 8 12 16 20 0),
   .dots4E5m2 (xform 8 12 16 20 0), .dots8E2m1 (xform 8 12 16 20 0)].all ready = true := by
  decide +kernel

theorem test_ready_ShufflesAndVotes :
  [Instr.shflIdx (xform 8 12 16 0 0), .shflUp (xform 8 12 16 0 0), .shflDown (xform 8 12 16 0 0), .shflXor (xform 8 12 16 0 0), .voteAny (xform 8 12 0 0 0),
   .voteAll (xform 8 12 0 0 0), .voteEq (xform 8 12 0 0 0), .ballot (xform 8 12 0 0 0)].all ready = true := by
  decide +kernel

theorem test_ready_RanksAndLanes :
  [Instr.rkq (xform 8 12 0 0 0), .rkhome (xform 8 12 0 0 0)].all ready = true := by
  decide +kernel

theorem test_ready_Merges :
  [Instr.mergeChk (xform 8 12 0 0 0), .mergeLane (xform 8 12 0 0 0), .mergeG (xform 8 12 0 0 0)].all ready = true := by
  decide +kernel

theorem test_ready_Branches :
  [Instr.bra (sform 0 0 0 0 0), .bz (sform 0 12 0 0 0), .bnz (sform 0 12 0 0 0), .brx (sform 0 12 0 0 0)].all ready = true := by
  decide +kernel

theorem test_ready_SoftwareAndControlTraps :
  [Instr.trap (sform 0 0 0 0 0), .brk (sform 0 0 0 0 0), .brx (sform 0 12 0 0 0), .ret ⟨0⟩].all ready = true := by
  decide +kernel

theorem test_ready_CallsAndReturns :
  [Instr.call (sform 0 0 0 0 0), .calli (sform 0 12 0 0 0), .ret ⟨0⟩].all ready = true := by
  decide +kernel

theorem test_ready_ExitTriggerYieldGrow :
  [Instr.exit ⟨0⟩, .trigger ⟨0⟩, .yield ⟨0⟩, .grow (sform 8 12 0 0 0)].all ready = true := by
  decide +kernel

theorem test_ready_FlagWaitNopHint :
  [Instr.fwait (sform 0 0 0 0 0), .nop ⟨0⟩, .hint ⟨0, 0⟩].all ready = true := by
  decide +kernel

theorem test_ready_Loads :
  [Instr.ld .b32 (xform 8 12 16 0 0)].all ready = true := by
  decide +kernel

theorem test_ready_Stores :
  [Instr.st .b32 (xform 0 12 16 20 0)].all ready = true := by
  decide +kernel

theorem test_ready_ScratchpadAccess :
  [Instr.lds .b32 (xform 8 12 16 0 0), .sts .b32 (xform 0 12 16 20 0)].all ready = true := by
  decide +kernel

theorem test_ready_Atomics :
  [Instr.aadd (xform 8 12 16 0 0), .amin (xform 8 12 16 0 0), .amax (xform 8 12 16 0 0), .aand (xform 8 12 16 0 0), .aor (xform 8 12 16 0 0),
   .axor (xform 8 12 16 0 0), .axchg (xform 8 12 16 0 0), .acas (xform 8 12 16 20 0), .afadd (xform 8 12 16 0 0), .afmin (xform 8 12 16 0 0),
   .afmax (xform 8 12 16 0 0)].all ready = true := by
  decide +kernel

theorem test_ready_ReservedAccess :
  [Instr.lr (xform 8 12 0 0 0), .sc (xform 8 12 16 0 0)].all ready = true := by
  decide +kernel

theorem test_ready_Fences :
  [Instr.fence (xform 0 0 0 0 0x2400)].all ready = true := by
  decide +kernel

/-- Clauses with further conditions: `exit` of some lanes and of the last ones, `trigger` of a marked and of an unmarked group, `fwait` on clear and set flags. -/
theorem test_meets_control :
  (let some_ := placedWith (.exit ⟨0⟩) (onlyRun 1)
   let two (i : Instr) : State := (placed i).modCore 0 (fun q => { q with waves := q.waves.set 1 { Wave.plain with number := 1 } })
   let group (i : Instr) (b : Bool) (n : Nat) : State :=
     { (placed i).modGroup 0 0 (fun q => { q with triggered := b }) with launches := [(1, { Launch.plain with count := n })] }
   let fl := { (placed (.fwait (sform 0 0 0 0 1))).modFlow (.wave 0 0) (fun w => { w with flags := [(0, 1)] }) with cur := .wave 0 0 }
   [meets (.exit ⟨0⟩) some_ (fun e => e.w.live &&& ~~~e.run != 0),
    meets (.exit ⟨0⟩) (two (.exit ⟨0⟩)) (fun e => e.w.live &&& ~~~e.run == 0 && e.w.outstanding == [] && e.w.flagsClear 0xFFF && !((two (.exit ⟨0⟩)).core 0).matrixBusy 0 &&
      (((two (.exit ⟨0⟩)).core 0).waves.get 1).any (fun w => w.group == e.w.group)),
    meets (.trigger ⟨0⟩) (group (.trigger ⟨0⟩) true 1) (fun e => ((group (.trigger ⟨0⟩) true 1).groupOf e.f).any (fun g => g.2.2.triggered)),
    meets (.trigger ⟨0⟩) (group (.trigger ⟨0⟩) false 2) (fun e =>
      let s := group (.trigger ⟨0⟩) false 2
      (s.groupOf e.f).any (fun g => !g.2.2.triggered && (s.launches.get g.2.2.launch).any (fun r => !r.triggered && r.triggeredGroups == [] && r.count == 2))),
    meets (.fwait (sform 0 0 0 0 1)) (placed (.fwait (sform 0 0 0 0 1))) (fun e => e.w.flagsClear 1),
    meets (.fwait (sform 0 0 0 0 1)) (fl.placeWords (encode (.fwait (sform 0 0 0 0 1)) ++ encode (.nop ⟨0⟩))) (fun e => !e.w.flagsClear 1 && !e.last)].all id) = true := by
  decide +kernel

/-- Branches, calls and returns: addresses that a thread may go to and those it may not, stacks with an entry and without. -/
theorem test_meets_targets :
  (let at_ (i : XArgs → Instr) (v : Word) : Instr := i (atLit v (sform 0 12 0 0 0))
   let aims (i : Instr) (p : Nat → Bool) : Bool := meets i (placed i) (fun e => e.controlLanes.all (fun l => p ((placed i).srcA e l).toNat))
   let ret (d : Nat) (a : List Nat) : State := placedWith (.ret ⟨0⟩) (fun w => { w with depth := (List.range 64).map (fun l => (l, d)), returns := (List.range 64).map (fun l => (l, a)) })
   [aims (at_ .brx 0x2000) (fun a => a < 2 ^ 48 && a % 4 == 0), aims (at_ .brx 0x7FFFFFFC) (fun a => a < 2 ^ 48 && a % 4 == 0),
    aims (at_ .brx 0x80000000) (fun a => 2 ^ 48 ≤ a), aims (at_ .brx 2) (fun a => a % 4 != 0),
    aims (at_ .calli 0x2000) (fun a => a < 2 ^ 48 && a % 4 == 0), 
    meets (.ret ⟨0⟩) (ret 1 [0x3000]) (fun e => e.w.depth.getD 0 0 == 1), meets (.ret ⟨0⟩) (ret 4 [4, 8, 12, 16]) (fun e => e.w.depth.getD 63 0 == 4),
    meets (.ret ⟨0⟩) (ret 0 []) (fun e => e.w.depth.getD 0 0 == 0),
    meets (.call (sform 0 0 0 0 4)) (placed (.call (sform 0 0 0 0 4))) (fun e =>
      (List.range 64).all (fun l => e.w.depth.getD l 0 < 4 && e.w.depth.getD l 0 < (placed (.call (sform 0 0 0 0 4))).stackLimit e))].all id) = true := by
  decide +kernel

/-- `merge.chk`, `merge.lane` and `merge.g` on a wave-home and a group-home variable and a barrier of the group; `lread` and `lwrite` in the wave's handler. -/
theorem test_meets_ranks :
  (let g (i : Instr) : State :=
     { (placed i).modGroup 0 0 (fun q => { q with barriers := [(0, { scope := 1, tx := false, ovf := false, phase := 0, pendSec := 0, initArr := 1, pendArr := 1 })] }) with
       launches := [(1, { Launch.plain with record := { Record.plain with ranks := [(8, .group), (12, .wave)] } })] }
   let h (i : Instr) : State := { (placedOnce i).modFlow (.wave 0 0) (fun w => { w with handler := true }) with cur := .wave 0 0 }
   let chk : Instr := .mergeChk (xform 20 12 0 0 0)
   let lane : Instr := .mergeLane (xform 8 12 0 0 0)
   let grp : Instr := .mergeG (atLit 0 (xform 8 0 0 0 0))
   let wr : Instr := .lwrite (sform 0 12 16 0 0x10)
   let far : Instr := .lwrite (sform 0 12 16 0 0x14)
   let full (i : Instr) : State :=
     { (h i).modCore 0 (fun q => { q with waves := (List.range 10).foldl (fun t k => t.set (k + 1) { Wave.plain with number := k + 1, octets := if k = 0 then List.range 128 else [] }) q.waves }) with
       cur := .wave 0 0 }
   let gone (i : Instr) : State := { (h i).modFlow (.wave 0 0) (fun w => { w with overflowed := [8 * 0x14] }) with cur := .wave 0 0 }
   [meets chk (g chk) (fun e => (g chk).rank e.f e.w 12 != .lane && e.w.live.getLsbD 0),
    meets lane (g lane) (fun e => (g lane).rank e.f e.w 8 != .lane && (g lane).rank e.f e.w 12 != .lane),
    meets grp (g grp) (fun e => (g grp).rank e.f e.w 8 == .group && ((g grp).groupOf e.f).any (fun x => (x.2.2.barriers.get 0).any (fun b => b.scope == 1))),
    meets (.lread (sform 8 12 0 0 0x10)) (h (.lread (sform 8 12 0 0 0x10))) (fun e => (h (.lread (sform 8 12 0 0 0x10))).reachedOctet e 0x10 false == none),
    meets wr (h wr) (fun e => (h wr).reachedOctet e 0x10 false == none && (h wr).octetNeeded e 0x10 false == none),
    meets wr (full wr) (fun e => (full wr).reachedOctet e 0x10 false == none && (full wr).octetNeeded e 0x10 false == some (0x10, 0)),
    meets far (gone far) (fun e => (gone far).reachedOctet e 0x14 false == some (0x14, 0)),
    meets (.lread (sform 8 12 0 0 0x14)) (gone (.lread (sform 8 12 0 0 0x14))) (fun e => (gone (.lread (sform 8 12 0 0 0x14))).reachedOctet e 0x14 false == some (0x14, 0))].all id) = true := by
  decide +kernel

/-- `merge.chk` and `merge.lane` of a variable whose threads agree, of one with a lane copy, of one that the wave holds apart from its group, and under NWB; a lane that is live and one
that is not. -/
theorem test_meets_merges :
  (let s (i : Instr) (rank : Rank) (p : Wave → Wave) : State :=
     { placedWith i p with launches := [(1, { Launch.plain with record := { Record.plain with ranks := [(8, rank), (12, .wave)] } })] }
   let copy (w : Wave) : Wave := { w with laneCopies := [(64 * 8 + 3, 7)], octets := [64] }
   let own (w : Wave) : Wave := { w with copies := [(8, 5)] }
   let chk (b : Bool) : Instr := .mergeChk { xform 20 8 0 0 0 with nwb := b }
   let lane (k : Fin 56) : Instr := .mergeLane { xform 8 0 0 0 0 with sa := .const k }
   let one (b : Bool) (r : Rank) (p : Wave → Wave) (c : Issuer → Bool) : Bool :=
     meets (chk b) (s (chk b) r p) (fun e => (s (chk b) r p).rank e.f e.w 8 == r && e.w.live.getLsbD 0 && e.p.nwb == b && c e)
   let value (r : Rank) (p : Wave → Wave) (e : Issuer) (l : Nat) : Word := (s (chk false) r p).readVar e.f e.w 8 l
   [one false .wave id (fun e => value .wave id e 0 == value .wave id e 63), one false .wave copy (fun e => value .wave copy e 3 != value .wave copy e 0),
    one false .group own (fun e => value .group own e 0 == 5 && (s (chk false) .group own).groupHome e.f 8 == 0), one false .group id (fun e => value .group id e 0 == 0),
    one true .wave copy (fun e => (e.w.laneCopies.get (64 * 8 + 3)).isSome), one true .wave id (fun e => e.w.laneCopies.isEmpty), one true .group own (fun e => (e.w.copies.get 8).isSome),
    [0, 5].all (fun k => meets (lane k) (s (lane k) .wave copy) (fun e => (s (lane k) .wave copy).rank e.f e.w 8 != .lane && e.w.live.getLsbD 5)),
    meets (lane 5) (s (lane 5) .wave (fun w => { w with live := 1, clause := w.clause.map (fun c => { c with run := 1 }) })) (fun e => !e.w.live.getLsbD 5)].all id) = true := by
  decide +kernel

/-- `grow`: a context that is dead, a launch that has triggered, an outermost level within a group, counts at the limit and past it. -/
theorem test_meets_grow :
  (let s (l : Launch) (st : CtxState) : State := { State.reset with launches := [(1, l)], contexts := [(1, { Context.plain with state := st })] }
   let alive (s : State) : Bool := (s.contexts.get 1).any (fun c => c.state != .dead)
   let wide (l : Launch) : Bool := l.record.levels.getLast?.any (fun e => decide (3 ≤ e.2))
   let of_ (ls : List (Nat × Nat)) (n : Nat) : Launch := { Launch.plain with record := { Record.plain with levels := ls }, count := n }
   let inner (l : Launch) : Nat := ((l.record.levels.dropLast.filter (fun e => decide (3 ≤ e.2))).map Prod.fst).foldl (· * ·) 1
   let two : Launch := of_ [(64, 0), (2, 3), (1, 4)] (2 ^ 32 - 3)
   [!alive (s Launch.plain .dead), alive (s Launch.plain .live), ({ Launch.plain with triggered := true } : Launch).triggered, !Launch.plain.triggered,
    !wide (of_ [(64, 0), (1, 2)] 1), wide two, inner two == 2, two.count + 1 * inner two ≤ 2 ^ 32 - 1, 2 ^ 32 - 1 < two.count + 2 * inner two].all id) = true := by
  decide +kernel

/-- Atomics, `sc` and `enq` of a wave whose request has arrived, and of one whose request is lost; an atomic on memory of another die, which the routes reach (log 126). -/
theorem test_meets_served :
  (let add : Instr := .aadd (atLit 0x2000 (xform 8 0 16 0 0))
   let sc : Instr := .sc { atLit 0x2000 (xform 8 0 16 0 0) with s := true }
   let back (s : State) (p : Park) : State := { s.modFlow (.wave 0 0) (fun w => { w with park := some p }) with cur := .wave 0 0 }
   let far : State := (placed add).modDie 0 (fun q => { q with
     routes := [(1, (false, 0))], tlb := [{ asid := 1, va := 0, size := 0x200000, pa := 2 ^ 46, pte := 0xDB }] })
   let reaches (i : Instr) (s : State) (n : Nat) (use : Use) (k : AccessKind) (p : Issuer → Bool) (die : Nat) : Bool :=
     meets i s (fun e => p e && resolves i s e n use k (fun l => (s.srcA e l).toNat) (fun s' ps =>
       ps.all (fun x => paDie x.2 == die && !s'.ownedBytes x.2 n) && ps != [] && (s'.poisonOf e ps (fun l => (s.srcA e l).toNat)).isNone))
   [[Park.arrived, .lost].all (fun p => reaches add (back (mapped (placed add)) p) 4 .write (.atomic true) (fun e => e.w.park == some p) 0 &&
      reaches sc (back (mapped (placedOnce sc)) p) 4 .maybe .reserve (fun e => e.w.park == some p) 0),
    reaches add far 4 .write (.atomic true) (fun e => e.w.park.isNone && flowDie e.f == 0) 1].all id) = true := by
  decide +kernel

/-- Loads, stores and atomics on mapped bytes, and unaligned ones: each lane's access passes its checks. -/
theorem test_meets_memory :
  (let ld : Instr := .ld .b32 (atLit 0x2000 (xform 8 0 16 0 0))
   let ldOff : Instr := .ld .b32 (atLit 0x2001 (xform 8 0 16 0 0))
   let st : Instr := .st .b16 (atLit 0x2000 (xform 0 0 16 20 0))
   let stOff : Instr := .st .b16 (atLit 0x2001 (xform 0 0 16 20 0))
   let sent (s : State) (e : Issuer) (va : Nat → Nat) (s' : State) (ps : Tab Nat) : Bool :=
     ps.length == 64 && ps.all (fun p => p.2 == 0x2000) && (s'.poisonOf e ps va).isNone && !s'.ownedBytes 0x2000 8 && s.dstep.isNone
   let at_ (i : Instr) (n : Nat) (use : Use) (k : AccessKind) : Bool :=
     let s := mapped (placed i)
     meets i s (fun e => resolves i s e n use k (s.loadAddr e) (sent s e (s.loadAddr e)))
   let off (i : Instr) (n : Nat) (use : Use) (k : AccessKind) : Bool := meets i (mapped (placed i)) (fun e => (mapped (placed i)).loadAddr e 0 % n != 0 && e.accessLanes.contains 0 &&
     ((mapped (placed i)).checkLanes e.f n use k (e.accessLanes.map (fun l => (l, (mapped (placed i)).loadAddr e l)))).2.2.all (fun p => paSpace p.2 != 2))
   let atomic (i : XArgs → Instr) (host : Bool) : Bool :=
     let j := i (atLit 0x2000 (xform 8 0 16 0 0))
     let s := mapped (placed j)
     meets j s (fun e => resolves j s e 4 .write (.atomic host) (fun l => (s.srcA e l).toNat) (sent s e (fun l => (s.srcA e l).toNat)))
   let acas : Instr := .acas (atLit 0x2000 (xform 8 0 16 20 0x8000))
   [at_ ld 4 .read .load, at_ st 2 .write .store, off ldOff 4 .read .load, off stOff 2 .write .store, atomic .aadd true, atomic .amin false, atomic .amax false, atomic .aand false, atomic .aor false,
    atomic .axor false, atomic .axchg true, atomic .afadd false, atomic .afmin false, atomic .afmax false,
    meets acas (mapped (placed acas)) (fun e => resolves acas (mapped (placed acas)) e 8 .write (.atomic true) (fun _ => 0x2000) (fun _ ps => ps.length == 64))].all id) = true := by
  decide +kernel

/-- `lr` and `sc` of one thread, the reservation held and not. -/
theorem test_meets_reserved :
  (let lr : Instr := .lr { atLit 0x2000 (xform 8 0 0 0 0) with s := true }
   let sc : Instr := .sc { atLit 0x2000 (xform 8 0 16 0 0) with s := true }
   let r : Reservation := { flow := .wave 0 0, lane := 0, pa := 0x2000, bytes := 4, via := { asid := 1, va := 0, size := 0x200000, pa := 0, pte := 0xDB } }
   let s (i : Instr) (rs : List Reservation) : State := { mapped (placedOnce i) with reservations := rs }
   let va (t : State) (e : Issuer) (l : Nat) : Nat := (t.srcA e l).toNat
   let one (i : Instr) (use : Use) (rs : List Reservation) (p : State → Bool) : Bool :=
     meets i (s i rs) (fun e => resolves i (s i rs) e 4 use .reserve (va (s i rs) e) (fun s' ps =>
       ps == [(0, 0x2000)] && e.commits e.run 0 && !s'.ownedBytes 0x2000 4 && (s'.poisonOf e ps (va (s i rs) e)).isNone && p s'))
   [one lr .read [] (fun _ => true), one sc .maybe [r] (fun s' => s'.reservations.contains r), one sc .maybe [] (fun s' => !s'.reservations.contains r),
    one sc .maybe [{ r with pa := 0x2004 }] (fun s' => !s'.reservations.contains r)].all id) = true := by
  decide +kernel

/-- `lds` and `sts` within an allocation of one tile, at its first and its last word. -/
theorem test_meets_scratchpad :
  (let s (i : Instr) : State := { placed i with launches := [(1, { Launch.plain with record := { Record.plain with tiles := 1 } })] }
   let fits (i : Instr) (n : Nat) (store : Bool) : Bool :=
     meets i (s i) (fun e =>
       let late := if store then (s i).budgetTrap e n ((s i).spadOffset e) ((s i).storeBytes e n) else none
       match (s i).spadResolve e n store late.toList ((s i).spadOffset e) with
       | .ok (c, g, ts) => ts.all (fun p => !p.guard) && (((s i).touchRun e e.run c g ts).group? c g).any (fun q => ts.all (fun p => (((s i).recordOf q).windowAt p.off).isNone))
       | .error _ => false)
   let ld (a : Word) : Instr := .lds .b32 (atLit a (xform 8 0 16 0 0))
   let st (a : Word) : Instr := .sts .b32 (atLit a (xform 0 0 16 20 0))
   [fits (ld 0) 4 false, fits (ld 2044) 4 false, fits (st 0) 4 true, fits (st 2044) 4 true].all id) = true := by
  decide +kernel

/-- A wave with a result that waits, good and failed. -/
theorem test_meets_responses :
  (let o : Outstanding := { dst := some 8, vars := 1, scalar := false, run := 1, vals := [(0, [7])], flag := some 3, failure := none, reads := [], site := 0x1000, major := 0x18 }
   let x : Imprecise := { code := 6, sub := 6, lane := 0, addr := 0, bank := 0, count := 0, sitePc := 0, siteSeq := 0 }
   let s (o : Outstanding) : State := State.reset.scene.modFlow (.wave 0 0) (fun w => { w with outstanding := [o], flags := [(3, 1)] })
   [o, { o with failure := some x }].all (fun o => ((s o).flow? (.wave 0 0)).any (fun w => w.outstanding[0]? == some o && w.live != 0 && !o.scalar) && ((s o).core 0).sound)) = true := by
  decide +kernel

/-- A wave whose context enables its handler, and one whose context does not; a wave in its handler; `tret`. -/
theorem test_meets_traps :
  (let s (v : DWord) : State := { State.reset.scene with contexts := [(1, { Context.plain with tvec := v })] }
   let r : TrapRegs := Trap.regs { code := 0x13, sub := 7 } 0x1000 1 1
   let page : TrapRegs := Trap.regs { code := 0x06 } 0x1000 1 1
   let w (v : DWord) (p : Wave → Bool) : Bool := ((s v).flow? (.wave 0 0)).any p
   let skip : Instr := .tretSkip (sform 0 0 0 0 1)
   let t (i : Instr) (r : TrapRegs) : State := placedWith i (fun w => { w with handler := true, trap := r })
   let line : List Byte := bytesOfNat 4 0x2C000098 ++ bytesOfNat 4 0x31000004 ++ bytesOfNat 4 0x31000004 ++ List.replicate 52 0
   let fetched (s : State) : State := mapped (s.modCore 0 (fun q => { q with icache := [(1024 * 0x40 + 1, line)] }))
   [w 0x8000000000000000 (fun w => !w.handler && !w.traced) && !r.stewardCause && ((s 0x8000000000000000).tvecOf (.wave 0 0)).getLsbD 63 && r.code != 0x0E,
    w 0 (fun _ => true) && !((s 0).tvecOf (.wave 0 0)).getLsbD 63, page.stewardCause && page.code != 0x0E,
    meets (.tret (sform 0 0 0 0 0)) (t (.tret (sform 0 0 0 0 0)) r) (fun e => e.w.live != 0),
    meets skip (t skip { r with pc := 0x1000 }) (fun e => e.w.live != 0 && bits e.w.trap.pc.toNat 51 48 == 0),
    meets skip (t skip { r with cause := r.cause ||| 0x4000000000000000 }) (fun e => e.w.live != 0 && e.w.trap.imprecise),
    meets skip (t skip { r with mask := 0 }) (fun e => e.w.live != 0 && e.w.trap.mask == 0),
    [1, 2].all (fun n =>
      let s := fetched (t skip (Trap.regs { code := 0x13, sub := 7 } 0x1000 n 1))
      meets skip s (fun e => e.w.live != 0 && bits e.w.trap.pc.toNat 51 48 == n && !e.w.trap.imprecise && e.w.trap.mask &&& e.w.live &&& ~~~e.w.halted == 1 &&
        (match (s.returnFromTrap e.f).fetchClause e.f 0x1000 with
          | (_, .ok (_, ws)) => n ≤ ws.length
          | _ => false)))].all id) = true := by
  decide +kernel

/-- Instructions above their flow's privilege, and register numbers that the table lacks or gives to a higher privilege. -/
theorem test_meets_privilege :
  (let low (i : Instr) : Bool := i.wf && ((placedOnce i).issuer i).any (fun e => e.placeTrap.isNone && ((placedOnce i).operandTrap e).isNone && !e.w.handler)
   let reg (n : BitVec 16) (t : Trap) : Bool :=
     let i : Instr := .csrr (sform 8 0 0 0 n)
     meets i (placedOnce i) (fun e => match (placedOnce i).regAccess e n.toNat false with
       | .error u => u.code == t.code
       | .ok _ => false)
   [low (.wfi (sform 8 0 0 0 0)), low (.heartbeat (sform 8 12 16 0 5)), low (.tlbinvAll (sform 0 0 16 0 0)), low (.dhalt (xform 8 12 0 0 0)), low (.dwrite (xform 8 12 16 20 0)),
    low (.tret (sform 0 0 0 0 0)), low (.tretSkip (sform 0 0 0 0 1)), low (.lread (sform 8 12 0 0 0x10)), low (.lwrite (sform 0 12 16 0 0x10)),
    reg 0x0FF .illegal, reg 0x047 (.privilege 0x047), reg 0x200 (.privilege 0x200), reg 0x2FF (.privilege 0x2FF), reg 0x300 .illegal,
    (let i : Instr := .csrr (sform 8 0 4 0 0); meets i (placedOnce i) (fun e => e.p.sb != .var 0 && !isSteward e.f)),
    [0x100, 0x1FF].all (fun n => let i : Instr := .csrr { sform 8 0 0 0 n with sb := .lit, lit := some 64 }
      meets i (placedSteward i) (fun e => isSteward e.f && 63 < (lo32 ((placedSteward i).srcB e e.lead)).toNat)),
    (let i : Instr := .csrr (sform 8 0 0 0 0x0FF)
     meets i (placedOnce i) (fun e => (match (placedOnce i).namedReg e 0x0FF with | .ok r => ((placedOnce i).regSpec r).isNone | .error _ => false))),
    (let i : Instr := .csrw (sform 0 12 0 0 0x100)
     meets i (placedOnce i) (fun e => match (placedOnce i).namedReg e 0x100 with
       | .ok r => ((placedOnce i).regSpec r).any (fun p => p.write < 4 && e.w.privilege e.f < p.write)
       | .error _ => false))].all id) = true := by
  decide +kernel

/-- Register instructions on registers that the flow may access: WSTAT, a read-only register, and TSCRATCH in the handler. -/
theorem test_meets_registers :
  (let h (i : Instr) : State := { (placedOnce i).modFlow (.wave 0 0) (fun w => { w with handler := true }) with cur := .wave 0 0 }
   let ok (i : Instr) (s : State) (n : Nat) (write : Bool) (p : RegSpec → Bool) : Bool :=
     meets i s (fun e => (match s.regAccess e n write with
       | .ok (_, q) => p q
       | .error _ => false) && e.p.sb == .var 0)
   let r : Instr := .csrr (sform 8 0 0 0 0)
   let w (f : XArgs → Instr) (n : BitVec 16) : Instr := f (sform 0 12 0 0 n)
   [ok r (placedOnce r) 0 false (fun _ => true),
    ok (w .csrw 0) (placedOnce (w .csrw 0)) 0 true (fun _ => true), ok (w .csrs 0) (placedOnce (w .csrs 0)) 0 true (fun _ => true),
    ok (w .csrc 0) (placedOnce (w .csrc 0)) 0 true (fun _ => true), ok (w .csrw 1) (placedOnce (w .csrw 1)) 1 true (fun p => p.write == 4),
    ok (w .csrs 0x47) (h (w .csrs 0x47)) 0x47 true (fun _ => true)].all id) = true := by
  decide +kernel

/-- `iflush` of nothing, of a line and of the last line of the address space; `wfi` with and without events; `tlbinv` in its three ways. -/
theorem test_meets_system :
  (let fl (a : Word) (n : Fin 56) : Bool :=
     let i : Instr := .iflush { atLit a (sform 0 0 0 0 0) with sb := .const n }
     meets i (placedOnce i) (fun e => ((placedOnce i).srcA e e.lead).toNat + (lo32 ((placedOnce i).srcB e e.lead)).toNat ≤ 2 ^ 48)
   let w : Instr := .wfi (sform 8 0 0 0 0)
   let ev (v : Nat) : Bool := meets w ((placedSteward w).modDie 0 (fun q => { q with events := [(0, v)] })) (fun e => e.f == .steward 0 0)
   [fl 0x1000 0, fl 0x1000 4, ev 0, ev 2,
    readySteward (.tlbinvAll (sform 0 0 16 0 0)), readySteward (.tlbinvAsid (sform 0 0 16 0 5)), readySteward (.tlbinvRange (sform 0 12 16 20 6))].all id) = true := by
  decide +kernel

/-- `ecall` with every service, before its answer and after it. -/
theorem test_meets_steward_calls :
  ([Instr.ecall (sform 8 12 16 0 0), .queueQuiesce (sform 8 12 16 0 32), .queueResume (sform 8 12 16 0 33), .queueReset (sform 8 12 16 0 34),
    .traceBind (sform 8 12 16 0 35), .traceClose (sform 8 12 16 0 36), .codeLoad (sform 8 12 16 0 16)].all (fun i =>
      meets i (placedOnce i) (fun e => e.w.park.isNone) &&
      meets i { (placedOnce i).modFlow (.wave 0 0) (fun w => { w with park := some (.answered 5) }) with cur := .wave 0 0 } (fun e => e.w.park == some (.answered 5)))) = true := by
  decide +kernel

/-- `moncall` with every service; `isle_write` and `isle_switch` of each slot and of none; the heartbeat armed and not. -/
theorem test_meets_monitor_calls :
  (let slot (f : XArgs → Instr) (k : Fin 56) (imm : BitVec 16) (p : State → State) : Bool :=
     let i : Instr := f { sform 8 0 16 0 imm with sa := .const k }
     meets i (p (placedSteward i)) (fun e => ((p (placedSteward i)).srcA e e.lead).toNat == k.val && ((p (placedSteward i)).die 0).monitor.running ≤ 1)
   let ready_ (s : State) : State := s.modMonitor 0 (fun m => { m with candidate := some [1], measured := some (shake256 [1]) })
   let armed (s : State) : State := s.modMonitor 0 (fun m => { m with heartbeat := some 9 })
   let hb : Instr := .heartbeat (sform 8 12 16 0 5)
   [Instr.monitorVersion (sform 8 12 16 0 0), .fuseSvn (sform 8 12 16 0 6), .moncallUnknown (sform 8 12 16 0 7), .imageVerify (sform 8 12 16 0 1),
    .imageMeasure (sform 8 12 16 0 2)].all readySteward &&
   [slot .isleWrite 0 3 id, slot .isleWrite 1 3 id, slot .isleWrite 1 3 ready_, slot .isleWrite 2 3 id, slot .isleSwitch 0 4 id, slot .isleSwitch 1 4 id, slot .isleSwitch 2 4 id,
    slot .isleSwitch 1 4 armed, meets hb (placedSteward hb) (fun _ => ((placedSteward hb).die 0).monitor.heartbeat == none),
    meets hb (armed (placedSteward hb)) (fun _ => ((armed (placedSteward hb)).die 0).monitor.heartbeat == some 9 && (armed (placedSteward hb)).now < 9)].all id) = true := by
  decide +kernel

/-- `isle_switch` to slot 1 within 1,000,000 microseconds, from slot 0 with no heartbeat armed. -/
def switches (s : State) : Bool :=
  meets (.isleSwitch { sform 8 0 0 0 4 with sa := .const 1, sb := .lit, lit := some 1000000 }) s (fun e => e.f == .steward 0 0 && (s.srcA e e.lead).toNat == 1 &&
    (s.srcB e e.lead).toNat == 1000000 && (s.die 0).monitor.running == 0 && (s.die 0).monitor.heartbeat.isNone)

/-- What flash holds is no matter for that. -/
theorem switches_isles (s : State) (t : Tab (List Byte)) : switches { s with isles := t } = switches s := rfl

/-- The premises of a switch that succeeds are met with any image that passes the checks of `image_verify`, whose verdict is a free value of the model (log 13). -/
theorem test_meets_isle_switch (bs : List Byte) (h : State.reset.imageStatus 0 bs = 0) :
    (let s : State := { placedSteward (.isleSwitch { sform 8 0 0 0 4 with sa := .const 1, sb := .lit, lit := some 1000000 }) with isles := [(1, bs)] }
     (s.isles.get 1).any (fun x => s.imageStatus 0 x == 0) = true ∧ switches s = true) :=
  ⟨beq_iff_eq.mpr h, (switches_isles _ _).trans (by decide +kernel)⟩

/-- Debug instructions on a wave of die 0 whose lanes stand, or run; a selector of a halted lane and of one that runs. -/
theorem test_meets_debug :
  (let s (i : Instr) (halted : LaneMask) : State :=
     let t := State.reset.scene.modFlow (.wave 0 0) (fun w => { w with halted, clause := none })
     { t with cur := .steward 0 0, dies := [(0, { State.reset.die 0 with stewards := [(0, Wave.flowAt 0x1000)] })] }.placeWords (encode i)
   let aims (i : Instr) (h : LaneMask) (p : State → Issuer → Wave → Bool) : Bool :=
     meets i (s i h) (fun e => match (s i h).debugTarget e ((s i h).srcA e e.lead).toNat 1 with
       | .ok (c, k, w) => c == 0 && k == 0 && !w.traced && p (s i h) e w
       | .error _ => false)
   let sel (t : State) (e : Issuer) : Nat := (lo32 (t.srcB e e.lead)).toNat
   let one (x : XArgs) : XArgs := { x with sb := .const 1 }
   let d (f : XArgs → Instr) (c : BitVec 7) : Instr := f (one (xform 8 12 0 c 1))
   let lost : Instr := .dhalt (xform 8 12 0 0 2)
   let all_ : LaneMask := BitVec.allOnes 64
   [meets lost (s lost 0) (fun e => match (s lost 0).debugTarget e ((s lost 0).srcA e e.lead).toNat 2 with
      | .error st => st == 6
      | .ok _ => false),
    aims (.dhalt (xform 8 12 0 0 1)) 0 (fun _ _ _ => true), aims (.dresume (xform 8 12 16 0 1)) all_ (fun _ _ w => w.halted == all_),
    aims (d .dread 0) 0 (fun t e w => sel t e < 2 ^ 13 && !w.halted.getLsbD (sel t e / 128) && w.live.getLsbD (sel t e / 128)),
    aims (d .dread 0) all_ (fun t e w => sel t e < 2 ^ 13 && w.halted.getLsbD (sel t e / 128)),
    aims (d .dwrite 20) all_ (fun t e w => sel t e < 2 ^ 13 && w.live.getLsbD (sel t e / 128) && w.halted.getLsbD (sel t e / 128))].all id) = true := by
  decide +kernel

/-- `dstep` of lane 0, which stands halted at a clause that the core has in its instruction cache; and a step that ends. -/
theorem test_meets_step :
  (let i : Instr := .dstep { xform 8 12 16 0 1 with sb := .const 1 }
   let line : List Byte := (bytesOfNat 4 0x1C00006B ++ bytesOfNat 4 0x31000004) ++ List.replicate 56 0
   let t := mapped (State.reset.scene.modCore 0 (fun q => { q with icache := [(1024 * 0x40 + 1, line)] }))
   let t := t.modFlow (.wave 0 0) (fun w => { w with halted := BitVec.allOnes 64 })
   let s : State := { t.modDie 0 (fun q => { q with stewards := [(0, Wave.flowAt 0x1000)] }) with cur := .steward 0 0 }.placeWords (encode i)
   let d : DStep := { steward := .steward 0 0, dst := 8, nwb := false, target := .wave 0 0, lanes := 1, clause := none, latches := [], handler := false, word := 0 }
   [meets i s (fun e => s.srcB e e.lead == 1 && (match s.debugTarget e (s.srcA e e.lead).toNat 1 with
      | .ok (_, _, w) => 1 &&& w.live &&& w.halted == (1 : LaneMask) && w.position 0 == (0x1000, 0) && (match s.fetchClause (.wave 0 0) 0x1000 with
          | (_, .ok (_, ws)) => 0 < ws.length
          | _ => false)
      | .error _ => false)),
    (s.flow? d.target).isSome && (s.flow? d.steward).any (fun v => v.laneCopies == [])].all id) = true := by
  decide +kernel

/-- Barrier instructions on a barrier of the group's scratchpad and on one of global memory: each status, each phase relation, and the ends of the count. -/
theorem test_meets_barriers :
  (let b : Barrier := { scope := 1, tx := false, ovf := false, phase := 3, pendSec := 0, initArr := 2, pendArr := 2 }
   let one : Launch := { Launch.plain with record := { Record.plain with tiles := 1, ranks := (List.range 16).map (fun k => (8 + k, .wave)) } }
   let s (i : Instr) (bs : Tab Barrier) : State := { (placedOnce i).modGroup 0 0 (fun q => { q with barriers := bs }) with cur := .wave 0 0, launches := [(1, one)] }
   let at_ (f : XArgs → Instr) (dst : BitVec 7) (n : Word) : Instr := f { sform dst 0 0 0 0x200 with sa := .const 0, sb := .lit, lit := some n }
   let meet (f : XArgs → Instr) (dst : BitVec 7) (n : Word) (bs : Tab Barrier) (write : Bool) (p : State → Issuer → BarId → Bool) : Bool :=
     meets (at_ f dst n) (s (at_ f dst n) bs) (fun e => match (s (at_ f dst n) bs).barOperand e 1 write with
       | (s', .ok id) => s'.barN e == n.toNat && p s' e id
       | _ => false)
   let free (s' : State) (_ : Issuer) (id : BarId) : Bool := (s'.bar? id).isNone && !s'.serverFull id
   let full : Tab Barrier := (List.range 64).map (fun k => (16 + 16 * k, b))
   [meet .barInit 8 0 [] true free, meet .barInit 8 1 [] true free, meet .barInit 8 65535 [] true free, meet .barInit 8 65536 [] true free,
    meet .barInit 8 2 [(0, b)] true (fun s' _ id => s'.bar? id == some b), meet .barInit 8 1 full true (fun s' _ id => (s'.bar? id).isNone && s'.serverFull id),
    meet .barArrive 8 0 [(0, b)] true (fun s' _ id => s'.bar? id == some b), meet .barArrive 8 1 [(0, b)] true (fun s' _ id => s'.bar? id == some b),
    meet .barArrive 8 2 [(0, b)] true (fun s' _ id => s'.bar? id == some b && (s'.group? 0 0).any (fun q => q.guard.isNone && q.budget.isNone)),
    meet .barExpect 0 5 [(0, { b with tx := true })] true (fun s' _ id => (s'.bar? id).any (fun b => b.tx && b.pendSec == 0 && b.pendArr != 0)),
    meet .barExpect 0 0x7FFFFFFF [(0, { b with tx := true })] true (fun s' _ id => (s'.bar? id).any (fun b => b.tx)),
    meet .barWait 8 3 [] false (fun s' e id => (s'.bar? id).isNone && e.w.park.isNone), meet .barWait 8 2 [(0, b)] false (fun s' _ id => (s'.bar? id).any (fun b => b.phase != 2)),
    meet .barWait 8 3 [(0, b)] false (fun s' e id => (s'.bar? id).any (fun b => b.phase == 3) && !isSteward e.f),
    meet .barTest 8 3 [(0, b)] false (fun s' _ id => (s'.bar? id).isSome), meet .barTest 8 2 [(0, b)] false (fun s' _ id => (s'.bar? id).any (fun b => b.phase != 2)), meet .barTest 8 3 [] false (fun s' _ id => (s'.bar? id).isNone),
    (let i : Instr := .barDrop { sform 8 0 0 0 0x200 with sa := .const 0 }
     meets i (s i [(0, b)]) (fun e => match (s i [(0, b)]).barOperand e 1 true with
       | (s', .ok id) => (s'.bar? id).isSome
       | _ => false)),
    (let i : Instr := .barInit { sform 8 0 16 0 0x400 with sa := .lit, sb := .const 1, lit := some 0x2000 }
     meets i (mapped (placedOnce i)) (fun e => match (mapped (placedOnce i)).barOperand e 2 true with
       | (s', .ok id) => id == .global 0x2000 && !s'.serverFull id
       | _ => false)),
    (let i : Instr := .barWait (sform 8 12 16 0 0x200)
     [0, 2].all (fun v => meets i { (placedOnce i).modFlow (.wave 0 0) (fun w => { w with park := some (.woken v) }) with cur := .wave 0 0 } (fun e => e.w.park == some (.woken v)))),
    (let i : Instr := .barWait { sform 8 0 16 0 0x400 with sa := .lit, sb := .const 3, lit := some 0x2000 }
     let t := { (mapped (placedSteward i)).modDie 0 (fun q => { q with tlb := q.tlb.map (fun a => { a with asid := 0 }) }) with globals := [(0x2000, { context := 1, barrier := { b with scope := 2 } })] }
     meets i t (fun e => match t.barOperand e 2 false with
       | (s', .ok id) => isSteward e.f && (s'.bar? id).any (fun b => b.phase == 3 && b.scope == 2)
       | _ => false))].all id) = true := by
  decide +kernel

/-- Window and chain instructions: a free window with a legal region entry and with an empty one, a bound window, an idle chain. -/
theorem test_meets_windows_and_chains :
  (let rec_ : Record := { Record.plain with tiles := 2, windows := [(2, 2)], ranks := (List.range 16).map (fun k => (8 + k, .wave)) }
   let entry : Tab Byte := Memory.write [] 0 (bytesOfNat 8 0x2000 ++ bytesOfNat 4 32 ++ bytesOfNat 4 32 ++ bytesOfNat 4 4 ++ bytesOfNat 4 1 ++ bytesOfNat 4 1 ++ List.replicate 28 0 ++ bytesOfNat 1 0x11)
   let bound : Binding := { entry := 0, base := 0, head := 0, depth := 1, dmin := 1, dmax := 1, unused := 0, p0 := 0, barrierPa := none, stages := [], broken := false, closing := false,
                            region := Memory.read entry 0 64, size := 128 }
   let s (i : Instr) (w : Tab Window) : State :=
     { (placedOnce i).modGroup 0 0 (fun q => { q with windows := w, regions := entry }) with cur := .wave 0 0, launches := [(1, { Launch.plain with record := rec_ })] }
   let meet (i : Instr) (w : Tab Window) (p : State → Issuer → Nat × Nat × Group × WinPlace × Window → Bool) : Bool :=
     meets i (s i w) (fun e => match (s i w).windowOf e 0 with
       | .ok x => p (s i w) e x
       | .error _ => false)
   let status (entry : Nat) (st : Nat) (s : State) (e : Issuer) (x : Nat × Nat × Group × WinPlace × Window) : Bool :=
     let r := regionOf (Memory.read x.2.2.1.regions (64 * entry) 64)
     (s.bindStatus x.1 x.2.2.2.1 x.2.2.2.2 entry (s.srcA e e.lead).toNat r (s.allocation e.f)).1 == st && r.bar == .none
   let b (n : BitVec 16) : Instr := .wbind (sform 8 12 0 0 n)
   let un : Instr := .wunbind (sform 0 0 0 0 0)
   [meet (b 0) [] (status 0 0), meet (b 0x10) [] (status 1 3), meet (b 0) [(0, { bound := some bound, absent := [], tiles := [] })] (status 0 1),
    meet un [] (fun _ _ x => x.2.2.2.2.bound == none), meet un [(0, { bound := some bound, absent := [], tiles := [] })] (fun _ e x => x.2.2.2.2.bound.any (fun b => b.settled) && e.w.park.isNone),
    (let t := { (s un []).modFlow (.wave 0 0) (fun w => { w with park := some (.woken 0) }) with cur := .wave 0 0 }
     meets un t (fun e => e.w.park == some (.woken 0) && (match t.windowOf e 0 with | .ok _ => true | .error _ => false))),
    meet (.wstat (sform 8 0 0 0 0)) [(0, { bound := some bound, absent := [], tiles := [] })] (fun _ _ _ => true),
    (let i : Instr := .enq { sform 8 0 0 0 0 with sa := .lit, sb := .special .zero, lit := some 0x2000 }
     let c : Chain := { context := 1, die := 0, engine := 0, launch := none, running := none, entry := [], todo := 0, landed := [], status := 0, matched := false, page := [], counted := false,
                        mute := false, sites := [] }
     let t : State := { mapped (placedOnce i) with chains := [(0x2000, c)] }
     let goes (t : State) (p : State → Nat → Nat → Option Nat → Bool) : Bool :=
       meets i t (fun e => match t.enqCheck e (t.chainAsid e.f 0x2000) 0x2000 0 with
         | (s2, .ok (pa, pe, next)) => pa == 0x2000 && paSpace pe == 0 && !s2.ownedBytes pe 64 && p s2 pa pe next
         | _ => false)
     let busy : State := { t with mem := Memory.write [] 0x2000 (bytesOfNat 8 0x3000 ++ bytesOfNat 8 0x3000 ++ bytesOfNat 8 1 ++ bytesOfNat 8 0 ++ [0, 1]) }
     goes t (fun s2 pa _ next => (s2.chains.get pa).isSome && s2.chainState pa == 0 && next == none) &&
       goes busy (fun s2 pa pe next => (s2.chains.get pa).isSome && s2.chainState pa == 1 && next == some 0x3008 && pe + 64 ≤ 0x3008) &&
       goes { t with chains := [] } (fun s2 pa _ _ => (s2.chains.get pa).isNone) && [Park.arrived, .lost].all (fun p =>
         goes { t.modFlow (.wave 0 0) (fun w => { w with park := some p }) with cur := .wave 0 0 } (fun s2 pa _ _ => (s2.chains.get pa).isSome))),
    (let i : Instr := .eseq { sform 8 0 0 0 0 with sa := .lit, lit := some 0x2000 }
     meets i (mapped (placedOnce i)) (fun e => match (mapped (placedOnce i)).seqAddress e 0x2000 with
       | (s', .ok pa) => (s'.poisonOf e [(e.lead, pa)] (fun _ => 0x2000)).isNone
       | _ => false))].all id) = true := by
  decide +kernel

/-- Matrix instructions of a group that holds slots 0 and 1 and accumulator 0, with the engine idle: claims of nothing, of free and of held resources, the ends of a tile, and a
repair that rebuilds. -/
theorem test_meets_matrix :
  (let m : Matrix := { Matrix.reset with slots := [(0, { Slot.reset with owner := some 0, valid := true }), (1, { Slot.reset with owner := some 0, valid := true }),
                                                     (2, { Slot.reset with owner := some 1 })],
                                         accs := [(0, { Acc.reset with owner := some 0 })] }
   let rec_ : Record := { Record.plain with tiles := 16, ranks := (List.range 16).map (fun k => (8 + k, .wave)) }
   let s (i : Instr) (p : Matrix → Matrix) : State :=
     { ((placedOnce i).modGroup 0 0 (fun q => { q with spad := [(2, 0x10)] })).modCore 0 (fun q => { q with matrix := p m }) with
       cur := .wave 0 0, launches := [(1, { Launch.plain with record := rec_ })] }
   let on (i : Instr) (p : State → Issuer → Bool) : Bool := meets i (s i id) (fun e => e.f == .wave 0 0 && ((s i id).core 0).shadow.isNone && p (s i id) e)
   let at_ (f : XArgs → Instr) (x : XArgs) (n : Nat) : Instr := f { x with sa := .lit, lit := some (BitVec.ofNat 32 n) }
   let open_ (s : State) : Bool := !staleVersion 0 ((s.core 0).matrix.acc 0).version && (s.core 0).matrix.queue.length < 8 && (s.core 0).matrix.holds 0 16
   let x1 := sform 8 0 0 0 0
   let x0 := sform 0 0 0 0 0
   let pitched (imm : BitVec 16) : XArgs := { sform 0 0 16 0 imm with sc := .lit, lit := some 512, sa := .const 0 }
   let lines (f : XArgs → Instr) (imm : BitVec 16) (write : Bool) : Bool :=
     on (f (pitched imm)) (fun t e => t.pitchOf e == 512 && t.expected e == 0 && (match t.tileLines e false write false [] (pitchLines (t.tileAddr e false) 512) with
       | .ok ok => open_ ok.s && !((ok.s.core 0).matrix.acc 0).mismatch
       | .error _ => false))
   let mask (s : State) (e : Issuer) : Nat := (lo32 (s.srcA e e.lead)).toNat
   let free (s : State) (b : Nat) : Bool := (s.core 0).matrix.ownerOf b == none || (s.core 0).matrix.ownerOf b == some 0
   let done (i : Instr) : Bool :=
     let t : State := { (s i id).modFlow (.wave 0 0) (fun w => { w with park := some .matrixDone }) with cur := .wave 0 0 }
     meets i t (fun e => e.w.park == some .matrixDone)
   [on (at_ .mclaim x1 0) (fun t e => mask t e == 0), on (at_ .mclaim x1 (2 ^ 20)) (fun t e => mask t e == 2 ^ 20),
    on (at_ .mclaim x1 4) (fun t e => mask t e == 4 && !free t 2), on (at_ .mclaim x1 0xE0000) (fun t e => mask t e == 0xE0000 && free t 17 && free t 18 && free t 19),
    on (at_ .mrel x0 0x10003) (fun t _ => (t.core 0).matrix.queue.isEmpty && (t.core 0).matrix.fills.isEmpty && (t.core 0).matrix.releases.isEmpty),
    on (at_ .mfill { x0 with imm := 0x180 } 0) (fun t e => (match t.tileLines e false false false [] (runLines (t.tileAddr e false) 4) with
       | .ok ok => (ok.s.core 0).matrix.holds e.w.group 0
       | .error _ => false)),
    on (.mzero (sform 0 0 16 0 0)) (fun t _ => open_ t), on (.mverify (sform 0 0 16 0 0)) (fun t e => open_ t && e.w.park.isNone && !((t.core 0).matrix.acc 0).mismatch),
    lines .mload 0 false, lines .mdrain 0 true, done (.mverify (sform 0 0 16 0 0)), done (.mdrain (sform 0 12 16 20 0)),
    on (at_ .mma { x1 with sb := .var 16 } 0) (fun t e => (match t.readBlock e false 0 with
       | .ok (s', bs, _, _) => !s'.blockBad e 0 (blockOf bs) 0 && t.expected e == 0 && open_ s'
       | .error _ => false)),
    on (.mver x1) (fun _ _ => true), on (.mstat x1) (fun _ _ => true), on (.mloc x1) (fun _ _ => true), on (.mfix x1) (fun t _ => open_ t && !(t.core 0).matrix.runs 0),
    on (.mretry x1) (fun t _ => open_ t && !((t.core 0).matrix.acc 0).mismatch)].all id) = true := by
  decide +kernel

/-- `mretry` of an accumulator of integers whose chain starts at zero and has no block: what it rebuilds verifies. -/
theorem test_meets_mretry :
  (let a : Acc := { Acc.reset with owner := some 0, mismatch := true, rows := [3], cls := some true }
   match State.reset.rebuild 0 0 a with
   | (_, .ok b) => !(b.verified ((State.reset.core 0).tolerance a.fmtSeen)).mismatch
   | (_, .error _) => false) = true ∧
  (match State.reset.rebuild 0 0 { Acc.reset with mismatch := true, noReplay := true } with
   | (_, .ok _) => false
   | (_, .error _) => true) = true := by
  decide +kernel

/-- What a core does for its waves: a clause that starts and one that cannot, a swap, a starved wave, a fault that is due, a returning octet, wakes, and a gang halt. -/
theorem test_meets_wave_events :
  (let f : Flow := .wave 0 0
   let at_ (s : State) (p : Wave → Bool) : Bool := (s.flow? f).any p
   let starts (s : State) : Bool := s.issuable f && !s.swapDue f && at_ s (fun w => w.clause.isNone && !w.stopping && w.imprecise.isEmpty && w.choose.any (fun k => k.word == 0 && k.addr == 0x1000))
   let two (p : Wave → Wave) : State := (coded id).modCore 0 (fun q => { q with waves := [(0, p Wave.plain), (1, { Wave.plain with number := 1 })], pending := [1] })
   let x : Imprecise := { code := 6, sub := 6, lane := 0, addr := 0, bank := 0, count := 0, sitePc := 0, siteSeq := 0 }
   let b : Barrier := { scope := 2, tx := false, ovf := false, phase := 3, pendSec := 0, initArr := 1, pendArr := 1 }
   let parked (p : Park) : State := scene (fun w => { w with park := some p })
   let glob (n : Nat) : State := { parked (.globalBarrier 0x2000 n false) with globals := [(0x2000, { context := 1, barrier := b })] }
   [starts (coded id) && (match State.fetchClause { coded id with cur := f } f 0x1000 with
      | (_, .ok (h, _)) => at_ (coded id) (fun w => w.flagsClear (headerWait h))
      | _ => false),
    starts (scene id) && (match State.fetchClause { scene id with cur := f } f 0x1000 with
      | (_, .error u) => u.code == 6
      | _ => false),
    (two (fun w => { w with candidate := true })).candidates 0 0 == [0] && (two (fun w => { w with candidate := true })).readyPending 0 0 == [1],
    (two id).readyPending 0 0 == [1] && (two id).leastRecent 0 (((two id).core 0).activeOf 0) == some 0,
    (let s := scene (fun w => { w with imprecise := [x] }); s.runs f && (s.flow? f).any (fun w => w.dueImprecise == some (0, x) && (w.boundary).isSome)),
    at_ (parked (.octet 8 0)) (fun w => w.park == some (.octet 8 0)) && (parked (.octet 8 0)).splitOctets 0 < (parked (.octet 8 0)).octetRoom 0 && ((parked (.octet 8 0)).core 0).sound &&
      ((parked (.octet 8 0)).areaOf 0).isNone, at_ (parked (.waking 2)) (fun w => w.park == some (.waking 2)),
    ((glob 3).bar? (.global 0x2000)).any (fun b => b.phase == 3), ((glob 2).bar? (.global 0x2000)).any (fun b => b.phase != 2),
    ((parked (.globalBarrier 0x2000 3 false)).bar? (.global 0x2000)).isNone,
    at_ (scene (fun w => { w with stopping := true })) (fun w => w.stopping && w.clause.isNone && w.live != 0)].all id) = true := by
  decide +kernel

/-- Images that leave core 0 and return to it, with a good header and with none. -/
theorem test_meets_image_events :
  (let s : State := (scene id).modCore 0 (fun q => { q with swapAsked := true, swapTo := 0x10000 })
   let sh : State := State.reset.modCore 0 (fun q => { q with shadow := some image, shadowTo := 0x10000 })
   let away (h : List Byte) : State :=
     { (State.reset.modDie 0 (fun d => { d with keys := [(1, 5)] })).modCore 0 (fun q => { q with restoring := true, restoreFrom := 0x10000 }) with
       contexts := [(1, { Context.plain with areas := [(0, 0x10000)] })], mem := Memory.write [] 0x10000 h, saves := [(0x10000, { image with away := true })] }
   let idle : State := { away imageHeader with cores := [] }
   [(s.core 0).swapAsked && !(s.core 0).swapping && !(s.core 0).restoring && (s.core 0).shadow.isNone && s.dstep.isNone && (s.core 0).context == some 1 &&
      !(s.die 0).frozen && (s.core 0).waves.all (fun e => e.2.outstanding.isEmpty),
    (sh.core 0).shadow == some image && !(sh.core 0).swapping && image.idle,
    (match idle.oldestAway 0 with
      | some x => idle.cores.all (fun e => e.2.shadow.isNone) && (idle.giveAsid x.2.2.context).holdsAsid x.2.2.context &&
          (idle.joinedAway [x] 256).all (fun y => idle.canReturn y.1 && (idle.oldestAway y.1).any (fun z => z.2.1 == y.2.1))
      | none => false),
    ((away []).core 0).restoring && (away []).headerGood 0 0x10000 == none].all id) = true := by
  decide +kernel

/-- A core that restores from an area which holds the image's header. -/
def restoring : State :=
  { (State.reset.modDie 0 (fun d => { d with keys := [(1, 5)] })).modCore 0 (fun q => { q with restoring := true, restoreFrom := 0x10000 }) with
    contexts := [(1, { Context.plain with areas := [(0, 0x10000)] })], mem := Memory.write [] 0x10000 imageHeader }

theorem areaTag_length (s : State) (pa : Nat) (k : BitVec 256) : (s.areaTag pa k).length = 32 := by
  unfold State.areaTag kmac256
  generalize padBlocks _ ++ padBlocks _ ++ _ ++ _ = m
  simp only [sponge]
  generalize spongeTake _ _ _ = a
  rfl

/-- A field of bytes read from memory is read at its own place. -/
theorem field_bytes (s : State) (pa n a k : Nat) (u : List Byte) (h : a + k ≤ n) : field (s.bytes pa n ++ u) a k = natOfBytes (s.bytes (pa + a) k) := by
  unfold field
  congr 1
  rw [List.drop_append_of_le_length (by rw [State.length_bytes]; omega), List.take_append_of_le_length (by rw [List.length_drop, State.length_bytes]; omega)]
  apply List.ext_getElem
  · rw [List.length_take, List.length_drop, State.length_bytes, State.length_bytes]; omega
  · intro i h1 h2
    simp [State.bytes, Memory.read, Nat.add_assoc]

theorem restoring_header (u : List Byte) :
    let h := restoring.bytes 0x10000 224 ++ u
    field h 8 8 = 1 ∧ field h 0 4 = 0x5A584354 ∧ field h 4 2 = 1 ∧ field h 32 8 = areaSize ∧ field h 16 2 = 0 := by
  intro h
  simp only [h]
  rw [field_bytes _ _ _ _ _ _ (by decide), field_bytes _ _ _ _ _ _ (by decide), field_bytes _ _ _ _ _ _ (by decide), field_bytes _ _ _ _ _ _ (by decide),
    field_bytes _ _ _ _ _ _ (by decide)]
  decide

/-- The same with a tag, and the image that its bytes then show. -/
def restoringTagged (t : List Byte) (b : Tab Byte) : State := { restoring.setBytes (0x10000 + 224) t with saves := [(0x10000, { image with stored := b, away := true })] }

theorem restoringTagged_bytes (t : List Byte) (b : Tab Byte) (a n : Nat) : (restoringTagged t b).bytes a n = (restoring.setBytes (0x10000 + 224) t).bytes a n := rfl

/-- An area whose header names a context that the die holds, and whose tag is that context's: the image that it holds can be restored. -/
theorem test_meets_restore : ∃ (s : State) (a : Nat) (i : Image), (s.core 0).restoring = true ∧ (s.die 0).frozen = false ∧ s.headerGood 0 (s.core 0).restoreFrom = some 1 ∧
    s.areaIntact (s.core 0).restoreFrom 1 = true ∧ s.imageOf (s.core 0).restoreFrom = some (a, i) ∧ s.saves.get a = some i ∧ ∀ k w, i.waves.get k = some w → w.live ≠ 0 := by
  obtain ⟨t, ht⟩ : ∃ t, t = restoring.areaTag 0x10000 (restoring.keyOf 1) := ⟨_, rfl⟩
  have hl : t.length = 32 := ht ▸ areaTag_length _ _ _
  obtain ⟨b, hb⟩ : ∃ b, b = (restoring.setBytes (0x10000 + 224) t).areaBytes 0x10000 := ⟨_, rfl⟩
  have h0 : (restoringTagged t b).bytes 0x10000 224 = restoring.bytes 0x10000 224 := State.bytes_setBytes_apart restoring _ t _ _ (.inl (by norm_num))
  have h2 : (restoringTagged t b).bytes (0x10000 + 256) (areaSize - 256) = restoring.bytes (0x10000 + 256) (areaSize - 256) :=
    State.bytes_setBytes_apart restoring _ t _ _ (.inr (by rw [hl]))
  have h1 : (restoringTagged t b).bytes (0x10000 + 224) 32 = t := hl ▸ State.bytes_setBytes_self restoring (0x10000 + 224) t
  have hh : (restoringTagged t b).bytes 0x10000 256 = restoring.bytes 0x10000 224 ++ t := by
    have c : (restoringTagged t b).bytes 0x10000 256 = (restoringTagged t b).bytes 0x10000 224 ++ (restoringTagged t b).bytes (0x10000 + 224) 32 := by
      simp only [State.bytes, Memory.read, show (256 : Nat) = 224 + 32 from rfl, List.range_add, List.map_append, List.map_map, Function.comp_def, Nat.add_assoc]
    rw [c, h0, h1]
  refine ⟨restoringTagged t b, 0x10000, { image with stored := b, away := true }, ?_, ?_, ?_, ?_, ?_, ?_, ?_⟩
  · exact (by decide : (restoring.core 0).restoring = true)
  · exact (by decide : (restoring.die 0).frozen = false)
  · obtain ⟨f1, f2, f3, f4, f5⟩ := restoring_header t
    have e : ((restoringTagged t b).core 0).restoreFrom = 0x10000 := (by decide : (restoring.core 0).restoreFrom = 0x10000)
    rw [e]
    have hk : ((restoringTagged t b).contexts.get 1).any (fun x => x.asid.isSome && x.state == .live) = true := (by decide : (restoring.contexts.get 1).any (fun x => x.asid.isSome && x.state == .live) = true)
    have hd : (((restoringTagged t b).die (dieOf 0)).keys.get 1).isSome = true := (by decide : ((restoring.die (dieOf 0)).keys.get 1).isSome = true)
    have hp : (restoringTagged t b).poisonIn 0x10000 4096 = false := (by decide : restoring.poisonIn 0x10000 4096 = false)
    simp only [State.headerGood, hh, f1, f2, f3, f4, f5, hk, hd, hp]
    rfl
  · have e : ((restoringTagged t b).core 0).restoreFrom = 0x10000 := (by decide : (restoring.core 0).restoreFrom = 0x10000)
    rw [e]
    have hk : (restoringTagged t b).bytes (0x10000 + 224) 32 = (restoringTagged t b).areaTag 0x10000 ((restoringTagged t b).keyOf 1) := by
      refine h1.trans (ht.trans ?_)
      unfold State.areaTag
      rw [h0, h2]
      rfl
    have hp : (restoringTagged t b).poisonIn (0x10000 + 4096) (areaSize - 4096) = false := (by decide : restoring.poisonIn _ _ = false)
    simp only [State.areaIntact, hp, hk, beq_self_eq_true, Bool.not_false, Bool.and_self]
  · have e : ((restoringTagged t b).core 0).restoreFrom = 0x10000 := (by decide : (restoring.core 0).restoreFrom = 0x10000)
    have hg : (restoringTagged t b).saves.get 0x10000 = some { image with stored := b, away := true } := rfl
    have hs : b = (restoringTagged t b).areaBytes 0x10000 := hb
    rw [e]
    unfold State.imageOf
    simp only [hg, Option.bind_some, ← hs, if_true, Option.some_or]
  · rfl
  · intro k w h
    simp only [image, Tab.get] at h
    split at h
    · cases h; decide
    · cases h

/-- What engines do: a sector of an entry and of a stage, a source that fails at its second sector, an entry that starts and one that completes, calls and returns of a loaded and of a
shipped routine, and a collective of two participants. -/
theorem test_meets_engine_events :
  (let n : Nat := 2 ^ 44 + 0x4000
   let head : List Byte := bytesOfNat 8 0x5000 ++ bytesOfNat 8 0x5000 ++ bytesOfNat 17 0 ++ [1]
   let copy := entryBytes 1 0 0x1000 0x3000 64 0 5
   let s : State := { hosted [(0x4000, head), (0x5000, copy)] with chains := [(n, chain copy 2 [] true)] }
   let start : State := { s with chains := [(n, { chain [] 0 [] false with running := none })] }
   let done : State := { s with chains := [(n, chain copy 2 [0, 1] true)] }
   let entry : List Byte := bytesOfNat 8 0 ++ bytesOfNat 4 32 ++ bytesOfNat 4 32 ++ bytesOfNat 4 2 ++ bytesOfNat 4 1 ++ bytesOfNat 4 1 ++ List.replicate 28 0 ++ bytesOfNat 1 0x11
   let stage : Stage := { sectors := 2, landed := [], touched := true, ahead := false, parked := false, failed := none, sitePc := 0x1000, waveNo := 0, refused := [], slot := 0 }
   let bound : Binding := { entry := 0, base := 0x3FFFFFE0, head := 0, depth := 1, dmin := 1, dmax := 1, unused := 0, p0 := 0, barrierPa := none, stages := [(0, stage)], broken := false,
                            closing := false, region := entry ++ List.replicate 7 0, size := 64 }
   let hole : Translation := { asid := 1, va := 0x40000000, size := 0x40000000, pa := 2 ^ 39, pte := 0xDB }
   let win : State := ((hosted []).modDie 0 (fun q => { q with tlb := q.tlb ++ [hole] })).modGroup 0 0 (fun q => { q with windows := [(0, { bound := some bound, absent := [], tiles := [] })] })
   let read (k : Nat) : Option Nat := match (win.engineRead 0 1 ((regionOf bound.region).sourceByte bound.base 0 (32 * k)) 32).2 with | .ok _ => none | .error n => some n
   let loaded : State := (({ s with chains := [(n, chain (entryBytes 1 9 0x1000 0x3000 64 0 5) 2 [] true)] } : State).modEngine 0 0 (fun e => { e with routines := [(9, 0x8000000000001105)] }))
   let call (r : Nat) (t : State) : State := t.modEngine 0 0 (fun e => { e with call := some { job := .entry n 0, position := 0, input := List.replicate r 0, poisoned := false, segment := 0, args := [] } })
   let ship : State := { s with chains := [(n, chain (entryBytes 1 1 0x1000 0x3000 32 0 5) 2 [] true)] }
   let m : Nat := 2 ^ 44 + 0x4040
   let part (d : Nat) : Chain := chain (entryBytes 0x11 0 0x1000 d 32 0x6000 5) 0 [] false
   let coll : State := { hosted [(0x6000, bytesOfNat 8 2 ++ bytesOfNat 8 0x4000 ++ bytesOfNat 8 0x4040)] with chains := [(n, part 0x3000), (m, part 0x3400)] }
   [(match s.engineRead 0 1 0x1000 32 with
      | (s1, .ok (bs, _)) => (match s1.engineDest 0 1 0x3000 32 with
         | (s2, .ok pa) => bs.length == 32 && s.entryRuns (chain copy 2 [] true) && pa == 2 ^ 44 + 0x3000 && !s2.ownedBytes pa 32
         | _ => false)
      | _ => false) && s.chainAs (chain copy 2 [] true) == 1 && (entryOf copy).op == 1 && (entryOf copy).src == 0x1000 && (entryOf copy).dst == 0x3000 && (entryOf copy).aux == 0,
    (regionOf bound.region).routine == 0 && read 0 == none && read 1 == some 0 && win.engineRuns 0 && ((win.group? 0 0).bind (fun q => q.windows.get 0)).any (fun w => w.bound == some bound),
    start.chainState n == 1 && start.power == .running && (match start.engineReads 0 1 (start.chainWord n 0) 2 with
      | (_, .ok (bs, _)) => start.engineRuns 0 && (entryOf bs).arg == 0 && bs == copy
      | _ => false),
    (chain copy 2 [0, 1] true).done && !(chain copy 2 [0, 1] true).mute && done.engineRuns 0 && (match done.engineDest 0 1 (done.chainWord n 0 + 4) 4 with
      | (_, .ok pa) => pa == 2 ^ 44 + 0x5004
      | _ => false),
    (loaded.jobOf (.entry n 0)).any (fun j => j.die == 0 && j.engine == 0 && bit j.reg 63 && bits j.reg 11 8 == 1 && chunkBytes (bits j.reg 15 12) (bits j.reg 11 8) (2 ^ bits j.reg 3 0) j.size == 64 && loaded.jobRuns (.entry n 0) && j.callable (.entry n 0) &&
      (match loaded.readSectors 0 j.asid [j.addr 0, j.addr 32] with
        | (_, .ok (input, _)) => input.length == 64
        | _ => false)),
    (loaded.jobOf (.entry n 0)).any (fun j => 8 < j.routine && (callResult j.reg 0 (List.replicate 64 0) false (some (64, List.replicate 64 7, [1, 0]))).isSome) && (((call 64 loaded).die 0).engine 0).call.isSome,
    (ship.jobOf (.entry n 0)).any (fun j => j.routine == 1 && (match shipped j.routine j.arg j.page (List.replicate 32 0x38) with
        | some (o, mp) => o.length == 64 && (callResult j.reg 0 (List.replicate 32 0x38) false (some (o.length, o, mp))).isSome
        | none => false)) && (((call 32 ship).die 0).engine 0).call.isSome,
    (part 0x3000).joins (part 0x3000) && coll.engineRuns 0 && coll.joiners (part 0x3000) == [n, m] && (match coll.peersOf (part 0x3000) (entryOf (part 0x3000).entry) with
      | (s1, .ok (some peers)) => peers == [some n, some m] && (match s1.sourcesOf [(n, part 0x3000, 1), (m, part 0x3400, 1)] with
         | (s2, .ok l) => l.length == 2 && (s2.destsFault [(n, [0x3000, 0x3020]), (m, [0x3400, 0x3420])]).2.isNone
         | _ => false)
      | _ => false)].all id) = true := by
  decide +kernel

/-- What the matrix engine does: a fill that lands, an operation that starts and one of each kind that completes. -/
theorem test_meets_matrix_events :
  (let f : Fill := { slot := 0, quarter := 0, count := 1, global := false, address := 0, pas := [], bytes := [1], wave := 0, pc := 0, lane := 0, flag := none, after := [], failure := none, seq := 1 }
   let o (k : MatKind) (r : Bool) : MatOp := { kind := k, acc := 0, version := 0, pc := 0x1000, seq := 1, wave := 0, lane := 0, flag := none, running := r, data := [], release := none }
   let s (m : Matrix) : Matrix := ((State.reset.scene.modCore 0 (fun q => { q with matrix := m })).core 0).engine
   let ops (r : Bool) : List MatOp := [o .zero r, o (.load true 0x1000 512 true) r, o (.mma true 0x1000 []) r, o .verify r, o (.drain true 0x1000 512 false 1) r]
   [(s { Matrix.reset with fills := [f] }).fills[0]? == some f && (s { Matrix.reset with fills := [f] }).fillReady 0 f, (State.reset.core 0).errInj.isEmpty,
    [o .zero false, o .verify false].all (fun x => (s { Matrix.reset with queue := [x] }).ready.head? == some x),
    (ops true).all (fun x => (s { Matrix.reset with queue := [x] }).queue.find? (fun o => o.acc == 0 && o.running) == some x)].all id) = true := by
  decide +kernel

/-- A queue of context 1 on die 0, its ring at 0x8000. -/
def queue : Queue :=
  { context := 1, die := 0, base := 0x8000, size := 4, prio := 0, rdidx := 0, resetAt := 0, asked := none, desc := 0x7000, descPa := 2 ^ 44 + 0x7000, state := 1, cause := 0, trace := 0,
    held := none, marks := [], saved := none, readySince := none }

/-- What the firmware does with queues: a packet of each type at the head, a WAIT that is held, a MARK that may store, an `ecall`, and a tick with and without power. -/
theorem test_meets_queue_events :
  (let ring (type : Nat) (q : Queue) : State := { hosted [(0x8000, bytesOfNat 1 type ++ bytesOfNat 7 0 ++ bytesOfNat 8 (if type = 3 then 0 else 0x9000))] with queues := [(3, q)] }
   let head (type : Nat) : Bool := match ((ring type queue).rejectBad 3).ready 3 with
     | some (q, p) => q.die == 0 && p.type == type
     | none => false
   let held : Queue := { queue with held := some { packet := 0, address := 0x9000, threshold := 0, signal := none } }
   let mark : Queue := { queue with marks := [{ packet := 0, address := 0, threshold := 0, signal := some (0x9000, 1) }] }
   let s1 := (ring 1 queue).rejectBad 3
   let call : State := (scene (fun w => { w with park := some .ecall })).modDie 0 (fun q => { q with requests := [(4, .ecall (.wave 0 0) (some 1) 0x30 0 0 0x1000)] })
   [(match s1.ready 3 with
      | some (q, p) => q.die == 0 && p.type == 1 && s1.chosen 3 q && (((s1.take 3 q p).contexts.get q.context).bind (fun x => x.asid)).isSome
      | none => false), head 2, head 3,
    ((ring 2 held).stewardRead 0 1 0x9000 8).any (fun bs => 0 ≤ natOfBytes bs) && (ring 2 held).queues.get 3 == some held && held.state == 1,
    (ring 3 mark).launches.all (fun e => e.2.queue != 3) && mark.marks.head?.any (fun m => m.signal.isSome),
    call.servedAt 0 0x30 0, !(call.modDie 0 (fun q => { q with frozen := true })).servedAt 0 0x30 0,
    State.reset.barOpen 0, !(State.reset.modDie 0 (fun q => { q with fenceSelf := true })).barOpen 0,
    (call.service 0 (some 1) 0x30 0 0 0).2 == 2 ^ 64 - 1 && (call.core 0).context == some 1 && !(call.core 0).swapping && (call.flow? (.wave 0 0)).any (fun w => w.park == some .ecall),
    State.reset.firmwareRuns 0, !({ State.reset with power := .burrow } : State).firmwareRuns 0].all id) = true := by
  decide +kernel

/-- What the dispatchers do: a head group that finds room, one that finds none, one that waits for a drain, and one that pre-empts the images of a lower priority. -/
theorem test_meets_placement :
  (let l : Launch := { Launch.plain with count := 2, placed := 1, next := 1, record := { Record.plain with tiles := 1 } }
   let s (l : Launch) : State := { scene id with launches := [(1, l)] }
   let big : Launch := { l with record := { l.record with tiles := 200 } }
   let old : Launch := { l with waitingSince := some 0 }
   let d0 : State := (s old).modDie 0 (fun q => { q with placeBound := 0 })
   let dear : Launch := { l with prio := 7, readySince := 0 }
   let full : State :=
     { s dear with cores := (List.range 64).map (fun c => (c, { Core.reset with context := some 2, asid := 2 })), dies := [1, 2, 3].map (fun d => (d, { State.reset.die d with fenceSelf := true })) }
   [(s l).placeable l && ((s l).scanHead l ((s l).roomNow 1 1)).isSome,
    (s big).placeable big && ((s big).scanHead big ((s big).roomNow 1 1)).isNone,
    d0.placeable old && (d0.die 0).drain.isNone && (d0.die (d0.servingDie old)).placeBound == 0 && (d0.scanHead old (d0.roomCleared 1 1)).isSome,
    full.placeable dear && (full.scanHead dear (full.roomNow 1 1)).isNone && (full.scanHead dear (full.roomPreempted 1 1 (full.aged dear.prio dear.readySince))).isSome].all id) = true := by
  decide +kernel

/-- Contexts and pages: a context to create, one to tear down, a snapshot that writers wait for, a fault that is served in place, a replay whose pieces are back and one whose are
not, a walk, granules that move either way, and lines that scrubbing finds. -/
theorem test_meets_context_events :
  (let new : NewContext := { handle := 7, asid := 9, root := 0x100000, die := 0, tvec := 0 }
   let snap : TrapRegs := { TrapRegs.reset with cause := 0x0706, addr := 0x20040 }
   let page : TrapRegs := { TrapRegs.reset with cause := 0x0106 }
   let parked : State := (scene (fun w => { w with park := some .steward })).modDie 0 (fun q => { q with requests := [(2, .fault (.wave 0 0) (some 1) page false)] })
   let wait : State := { (hosted []).modDie 0 (fun q => { q with requests := [(2, .fault (.wave 0 0) (some 1) snap false)] }) with
     launches := [(1, { Launch.plain with protectedPieces := [2] })] }
   let stalled : State := (hosted []).modDie 0 (fun q => { q with requests := [(2, .engine (.entry 0x5000 0 true) (some 1) 1 0x20040 7)] })
   let replay (va : Nat) : Launch := { Launch.plain with state := .replaying, snapshots := [(va / 65536, [(va / 4096 % 16, [1])])] }
   let back (va : Nat) : State := { hosted [] with launches := [(1, replay va)] }
   let words : List (Nat × Nat) := [(8, 0x100001), (0x100000, 0x101001), (0x101000, 0x102001), (0x102000, 0x103001), (0x103000, 2 ^ 44 + 0xDB)]
   let paged : State := { back 0 with mem := words.foldl (fun m e => Memory.write m e.1 (bytesOfNat 8 e.2)) [] }
   let d (g : Granule) : Die := { State.reset.die 0 with tiers := [(5, g)] }
   let inward : Granule := { Granule.reset with pinH := true }
   let outward : Granule := { Granule.reset with inHbm := true, pinC := true }
   [State.reset.contexts.isEmpty && State.reset.power == .running && !(State.reset.die 0).fenceSelf && 0 < new.asid && new.asid < 1024,
    (scene id).contexts.any (fun x => x.2.state != .dead),
    (wait.launches.get 1).any (fun l => l.protectedPieces.contains 2) && (wait.die 0).requests.any (fun e => (snapAt 1 e.2).any (fun y => y.2 / 65536 == 2)),
    (parked.die 0).requests.any (fun e => e.1 == 2) && (parked.flow? (.wave 0 0)).any (fun w => w.park == some .steward) && page.code == 0x06 && page.sub < 6 && !(parked.die 0).frozen,
    (stalled.die 0).requests.get 2 == some (.engine (.entry 0x5000 0 true) (some 1) 1 0x20040 7) && !(stalled.die 0).frozen,
    (match (hosted []).walk 0 1 0x1000 with
      | .leaf entry base size pa pte => entry == 0x101000 && base == 0 && size == 0x40000000 && pa == 2 ^ 44 && (leafRefuses pte .write false).isNone
      | .fault _ => false),
    (let l := { replay 0 with snapshots := [] }; (({ back 0 with launches := [(1, l)] } : State).restoreSnapshots 1 l 0 1).isSome),
    (replay 0).state == .replaying && (paged.restoreSnapshots 1 (replay 0) 0 1).isSome, ((back 0x40000000).restoreSnapshots 1 (replay 0x40000000) 0 1).isNone,
    (State.reset.die 0).tierEpoch != 0, wantsOut ((d outward).granule 5), !wantsOut ((d inward).granule 5) && (d inward).wantsIn ((d inward).granule 5) && (d inward).freeFrame == some 0,
    ((d { outward with mig := true }).granule 5).mig && ((d { inward with mig := true }).granule 5).mig && (State.reset.granulePoison 0 5).isEmpty,
    ({ State.reset with poison := [512 * 5] } : State).granulePoison 0 5 == [512 * 5],
    paSpace 0x4000 == 0 && (0x4000 : Nat) < 2 ^ 52, scrubbedAt 0 16 0 == .core 0 0 0 0, scrubbedAt 3 25 (4096 * 7 + 64 * 2 + 63) == .core 255 9 7 2].all id) = true := by
  decide +kernel

/-- Links: a port that is up, refused, asked to train, training with its far end, fenced and unfenced; a die that others fence off; a die that the monitor has stopped. -/
theorem test_meets_link_events :
  (let with_ (p : Port) : State := { State.reset with dies := [0, 1, 2, 3].map (fun d => (d, { State.reset.die d with ports := (List.range 6).map (fun k => (k, p)) })) }
   let at_ (p : Port) (k : Nat) : Port := ((with_ p).die 0).port k
   let up : Port := { Port.reset with state := 2, lanes := 8 }
   let off (ds : List Nat) : State := { State.reset with dies := ds.map (fun d => (d, { State.reset.die d with fenceOff := 2 })) }
   [(at_ up 0).passes && (with_ up).sends 0 0 && !(with_ up).replayFull 0 0,
    (at_ { up with nak := true } 5).passes && (with_ { up with nak := true }).sends 0 5 && !(with_ { up with nak := true }).replayFull 0 5,
    farEnd 0 5 == none, (farEnd 0 0).any (fun e => (((with_ { up with nak := true }).die e.1).port e.2).nak),
    (at_ { up with refusals := 8 } 0).refusals == 8, 8 ≤ (at_ { up with refusals := 7 } 0).refusals + b2n (!(at_ { up with refusals := 7 } 0).nak),
    (at_ { up with refusals := 6 } 5).refusals + b2n (!(at_ { up with refusals := 6 } 5).nak) < 8,
    !((with_ { Port.reset with state := 1 }).dropPort 0 0 0).apart 0 1, joinedDie 0 0 == some 1 && joinedDie 0 5 == none,
    (((with_ { Port.reset with state := 0 }).modPort 0 0 (fun p => { p with state := 1 })).dropPort 0 0 0).apart 0 1, (at_ { Port.reset with retrain := true } 0).retrain,
    (at_ { Port.reset with state := 1 } 0).state == 1 && (farEnd 0 0).any (fun e => (((with_ { Port.reset with state := 1 }).die e.1).port e.2).state == 1),
    (at_ { up with fence := true } 0).fence, (at_ { Port.reset with state := 4 } 0).state == 4 && !(with_ { Port.reset with state := 4 }).heldFenced 0 0,
    !((off []).fenceOff 0 1).fencedOff 1, ((off [2, 3]).fenceOff 0 1).fencedOff 1,
    ((State.reset.modDie 0 (fun q => { q with frozen := true })).die 0).frozen].all id) = true := by
  decide +kernel

/-- What reaches the module from outside: host atomics at both widths and a compare that fails, writes to both memories, a register at the ends of its range, management messages, the
power cap's sides, the heartbeat, boot, and Burrow from running and from Burrow. -/
theorem test_meets_outside_events :
  (let ok (pa n : Nat) : Bool := hostReach pa n && !State.reset.ownedBytes pa n && !State.reset.poison.contains (lineOf pa) && !(State.reset.die (paDie pa)).fenceSelf
   let tag : TrailTag := { slot := 0, addr := 0x1000, pos := 1, pc := 0x1004, lanes := 64 }
   let late : Outstanding := { dst := some 8, vars := 1, scalar := false, run := 1, vals := [], flag := some 2, failure := none, reads := [], site := 0x1000, major := 0x18 }
   let trail : State := State.reset.scene.modCore 0 (fun q => { q with trailTags := [(0, tag)] })
   let boot : State := State.reset
   let cap (w : Nat) : Bool × Bool := (2400 < w, w ≤ 2400 && w * 100 < 95 * 2400)
   [ok 0 4, ok (2 ^ 39 - 8) 8, (hostAtomicNew .cas 32 0 1 2).isNone, (hostAtomicNew .cas 32 1 1 2).isSome,
    paSpace 0x1000 == 0 && paDie 0x1000 == 0, paSpace (2 ^ 44) == 1 && paOffset (2 ^ 44) == 0 && paDie (2 ^ 44) % 2 == 0,
    (2 ^ 44 - 8) % 8 == 0 && (2 ^ 44 - 8 : Nat) < 2 ^ 44, (State.reset.die 1).fenceSelf == false, boot.awaitsImage && boot.isles.isEmpty,
    !({ boot with dies := [(0, { State.reset.die 0 with monitor := { Monitor.reset with image := some [1] } })] } : State).awaitsImage,
    (State.reset.modMonitor 0 (fun m => { m with measured := some [1] })).measurement 0 3 == some 1,
    State.reset.managed 1, !State.reset.managed 2, (State.reset.modMonitor 0 (fun m => { m with image := some [1] })).managed 0,
    (trail.core 0).trailTags.get 0 == some tag && (trail.core 0).trailBuf.length < 31 && ((trail.core 0).waves.get 0).any (fun w => tag.back w),
    ((trail.core 0).waves.get 0).any (fun w => !tag.back { w with outstanding := [late] }),
    !(State.reset.modDie 0 (fun q => { q with fenceSelf := true })).barOpen (paDie (2 ^ 45)) && paSpace (2 ^ 45) == 2,
    ({ State.reset with power := .safeTalkative, selfTest := [{ die := 3, unit := 1, index := 2, code := 4 }] } : State).survivors == [0, 1, 2],
    (cap 2401).1 && (cap 2279).2 && !(cap 2280).2 && !(cap 2400).1, (State.reset.die 0).capW == 2400,
    ((State.reset.modMonitor 0 (fun m => { m with heartbeat := some 9 })).die 0).monitor.heartbeat == some 9,
    State.reset.dieOn 0, !({ State.reset with power := .burrow } : State).dieOn 1, ({ State.reset with power := .burrow } : State).dieOn 0,
    State.reset.quietQueues.leaveCores.quiet, !State.reset.scene.quietQueues.leaveCores.quiet, ({ State.reset with power := .resuming } : State).leaveCores.quiet,
    !({ State.reset.scene with power := .resuming } : State).leaveCores.quiet, ({ State.reset with power := .burrow } : State).power == .burrow,
    ({ State.reset with power := .resuming } : State).power == .resuming].all id) = true := by
  decide +kernel

/-! ### The step itself -/

/-- A wave whose clause decodes, one whose clause decodes to nothing and one with no clause, each the one that its scheduler picks; a steward flow; an event and a word on the
tape; a wave and a steward flow that wait for a load's flag, and a core whose swap is due: the premises of the clauses of `StepRunsDecoded`. -/
theorem test_meets_step_runs :
  (let idle (s : State) (k : Option Nat) : Bool := s.agenda == [] && s.dstep.isNone && s.cur == .wave 0 0 && (s.chore 0 0).isNone && s.pick 0 0 == k
   let fits (s : State) (p : Wave → Bool) : Bool := idle s (some 0) && (s.flow? (.wave 0 0)).any (fun w => w.dueImprecise.isNone && p w)
   let word (p : Except DecodeError (Instr × List Word) → Bool) (w : Wave) : Bool := w.clause.any (fun c => p (decodeWords (c.words.drop (c.pos - 1))))
   let adds (r : Except DecodeError (Instr × List Word)) : Bool := match r with | .ok (i, _) => i == .iadd bin | .error _ => false
   let st : State := placedSteward (.iadd bin)
   let o : Outstanding := { dst := some 8, vars := 1, scalar := false, run := 1, vals := [(0, [7])], flag := some 2, failure := none, reads := [], site := 0x1000, major := 0x18 }
   let late (w : Wave) : Wave := { w with outstanding := [o], flags := [(2, 1)] }
   let s := (placed (.fwait (sform 0 0 0 0 4))).modFlow (.wave 0 0) late
   let t := (placedSteward (.fwait (sform 0 0 0 0 4))).modFlow (.steward 0 0) late
   [fits (placed (.iadd bin)) (word adds), fits (State.reset.scene.placeWords [0x0F000000]) (word (fun r => match r with | .ok _ => false | .error d => d == .reservedMajor)),
    fits (coded id) (fun w => w.clause.isNone && !w.stopping),
    st.agenda == [] && st.dstep.isNone && st.cur == .steward 0 0 && st.issuable st.cur && !st.waits st.cur && (st.flow? st.cur).any (fun w => w.dueImprecise.isNone && word adds w),
    !(Instr.stewardTick 0).spec.isSome && (Instr.iadd bin).spec.isSome,
    idle s none && !s.swapReady 0 && s.ownEvent s.cur == some (.memoryResponse (.wave 0 0) 0),
    (let u := s.modCore 0 (fun q => { q with swapAsked := true }); idle u none && u.swapReady 0),
    t.cur == .steward 0 0 && t.dstep.isNone && t.ownEvent t.cur == some (.memoryResponse (.steward 0 0) 0) && t.waits t.cur].all id) = true := by
  decide +kernel

/-- Words of the opcode table that decode and that the step after reset reaches (the premise of `FetchedWordRuns`), and the instruction's own effect there: v0 of every lane is
v0 + v0, the clause of one instruction has ended, and the counter stands behind it. -/
theorem test_fetched_word :
  decodeTableWord 32 0 = some (.iadd ⟨0, false, false, 0, .var 0, .var 0, none⟩) ∧
  (match step (State.reset.withFetchWord 32 0x00010889) with
    | .next t => (t.flow? t.cur).any (fun w => (List.range 64).all (fun l => t.readVar t.cur w 1 l == 1) && w.clause.isNone && w.counter.getD 63 0 == 0x1008)
    | _ => false) = true := by
  decide +kernel

/-- The premises of the statement about memory and of the two about rounding. -/
theorem test_meets_invariant :
  (match step State.reset with
    | .next _ => true
    | _ => false) = true ∧ MemOk State.reset ∧ (0 < 1) ∧ f32 0x3F800000 ≠ .nan := by
  unfold MemOk
  decide +kernel

end Sys2Proof.Tests
end

