-- ==== Sys2Proof/Proofs/SameFlows.lean ====
section
/-! Lemmas: what fetches, tracing, error logs and the arrays of a core leave of the flows: their records, but for the frame of a record's last trace (R463), and so their
variables. -/

namespace Sys2Proof.Machine

/-- A record without the frame in which it last wrote a trace record (R463). -/
def Wave.untraced (w : Wave) : Wave := { w with traceFrame := none }

/-- Two states have the same flows, but for the frames of their traces, and the same home copies: every variable reads alike in both. -/
structure SameFlows (s t : State) : Prop where
  flows : ∀ f, (t.flow? f).map Wave.untraced = (s.flow? f).map Wave.untraced
  homes : ∀ c g, (t.group? c g).map Group.home = (s.group? c g).map Group.home
  launches : t.launches = s.launches
  cur : t.cur = s.cur

/-- The home copy of a group's variable, by the flow's record and its group. -/
theorem State.groupHome_wave (s : State) (c k x : Nat) :
    s.groupHome (.wave c k) x = (((s.flow? (.wave c k)).bind (fun w => (s.group? c w.group).map Group.home)).map (fun h => h.getD x 0)).getD 0 := by
  simp only [State.groupHome, State.groupOf, State.flow?]
  cases hk : (s.core c).waves.get k with
  | none => simp
  | some w => cases hg : s.group? c w.group <;> simp [hg]

namespace SameFlows

theorem refl (s : State) : SameFlows s s := ⟨fun _ => rfl, fun _ _ => rfl, rfl, rfl⟩

theorem trans {s t u : State} (h : SameFlows s t) (k : SameFlows t u) : SameFlows s u :=
  ⟨fun f => (k.flows f).trans (h.flows f), fun c g => (k.homes c g).trans (h.homes c g), k.launches.trans h.launches, k.cur.trans h.cur⟩

/-- The record of a flow after such a change. -/
theorem flow {s t : State} (h : SameFlows s t) {f : Flow} {w : Wave} (hf : s.flow? f = some w) : ∃ x, t.flow? f = some { w with traceFrame := x } := by
  have := h.flows f
  rw [hf] at this
  cases hv : t.flow? f with
  | none => rw [hv] at this; cases this
  | some v =>
    rw [hv] at this
    simp only [Option.map_some, Option.some.injEq] at this
    refine ⟨v.traceFrame, congrArg some ?_⟩
    have := congrArg (fun u : Wave => { u with traceFrame := v.traceFrame }) this
    exact this

theorem flow_none {s t : State} (h : SameFlows s t) {f : Flow} (hf : s.flow? f = none) : t.flow? f = none := by
  have := h.flows f
  rw [hf] at this
  cases hv : t.flow? f with
  | none => rfl
  | some v => rw [hv] at this; cases this

theorem groupHome {s t : State} (h : SameFlows s t) (f : Flow) (x : Nat) : t.groupHome f x = s.groupHome f x := by
  cases f with
  | steward d k => rfl
  | wave c k =>
    rw [s.groupHome_wave, t.groupHome_wave]
    cases hf : s.flow? (.wave c k) with
    | none => rw [h.flow_none hf]; rfl
    | some w =>
      obtain ⟨y, hy⟩ := h.flow hf
      rw [hy]
      simp only [Option.bind_some, h.homes]

/-- Every variable of every flow reads as before. -/
theorem varAt {s t : State} (h : SameFlows s t) (f : Flow) (x l : Nat) : varAt t f x l = varAt s f x l := by
  unfold Sys2Proof.varAt
  cases hf : s.flow? f with
  | none => rw [h.flow_none hf]; rfl
  | some w =>
    obtain ⟨y, hy⟩ := h.flow hf
    rw [hy]
    simp only [Option.map_some]
    rw [State.readVar_of_state s t f _ x l h.launches (h.groupHome f x), s.readVar_of_same f { w with traceFrame := y } w x l ⟨rfl, rfl, rfl, rfl⟩]

/-! ### Changes that keep the flows -/

/-- Cores, dies, launches and the current flow stand. -/
theorem of_parts {s t : State} (hc : t.cores = s.cores) (hd : t.dies = s.dies) (hl : t.launches = s.launches) (hcur : t.cur = s.cur) : SameFlows s t := by
  have core : ∀ c, t.core c = s.core c := fun c => by rw [State.core, hc]; rfl
  have die : ∀ d, t.die d = s.die d := fun d => by rw [State.die, hd]; rfl
  refine ⟨fun f => ?_, fun c g => by rw [State.group?, State.group?, core], hl, hcur⟩
  cases f <;> simp only [State.flow?, core, die]

theorem fresh (s : State) (n : Nat) : SameFlows s { s with fresh := n } := of_parts rfl rfl rfl rfl

theorem modCore (s : State) (c : Nat) (g : Core → Core) (hw : (g (s.core c)).waves = (s.core c).waves := by rfl)
    (hg : (g (s.core c)).groups = (s.core c).groups := by rfl) : SameFlows s (s.modCore c g) := by
  refine ⟨fun f => by rw [s.flow?_modCore c g hw], fun c' k => ?_, rfl, rfl⟩
  unfold State.group?
  by_cases h : c = c'
  · subst h; rw [s.core_modCore_self, hg]
  · rw [s.core_modCore_ne g h]

theorem modDie (s : State) (d : Nat) (g : Die → Die) (h : (g (s.die d)).stewards = (s.die d).stewards := by rfl) : SameFlows s (s.modDie d g) :=
  ⟨fun f => by rw [s.flow?_modDie d g h], fun _ _ => rfl, rfl, rfl⟩

theorem setFlow (s : State) (f : Flow) (w v : Wave) (hf : s.flow? f = some w) (h : v.untraced = w.untraced) : SameFlows s (s.setFlow f v) := by
  refine ⟨fun g => ?_, fun c g => by rw [s.group?_setFlow], by simp, by simp⟩
  by_cases hg : f = g
  · subst hg; simp [hf, h]
  · rw [s.flow?_setFlow_ne v hg]

theorem modFlow (s : State) (f : Flow) (g : Wave → Wave) (h : ∀ w, (g w).untraced = w.untraced) : SameFlows s (s.modFlow f g) := by
  unfold State.modFlow
  split
  · next w hf => exact setFlow s f w _ hf (h w)
  · exact refl s

theorem modGroup (s : State) (c g : Nat) (h : Group → Group) (hh : ∀ q, (h q).home = q.home) : SameFlows s (s.modGroup c g h) := by
  refine ⟨fun f => by simp, fun c' g' => ?_, rfl, rfl⟩
  unfold State.modGroup State.group?
  by_cases hc : c = c'
  · subst hc
    by_cases hg : g = g'
    · subst hg
      cases hq : (s.core c).groups.get g <;> simp [hq, hh]
    · simp [Tab.get_upd_ne _ _ hg]
  · rw [s.core_modCore_ne _ hc]

/-- A fold of changes that keep the flows. -/
theorem foldl {α : Type} (g : State → α → State) (h : ∀ s a, SameFlows s (g s a)) (l : List α) (s : State) : SameFlows s (l.foldl g s) := by
  induction l generalizing s with
  | nil => exact refl s
  | cons a l ih => exact (h s a).trans (ih (g s a))

/-! ### Memory and its counts -/

theorem countGranule (s : State) (pa n : Nat) (write : Bool) : SameFlows s (s.countGranule pa n write) := by
  unfold State.countGranule
  split
  · exact refl s
  · refine (fresh s (s.fresh + 1)).trans ?_
    exact modDie _ _ _

theorem poke (s : State) (pa : Nat) (bs : List Byte) (atomic : Bool) (tag : Option SyncTag) : SameFlows s (s.poke pa bs atomic tag) := by
  unfold State.poke
  refine SameFlows.trans (t := State.tagWrite { s.setBytes pa bs with reservations := _ } pa bs.length atomic tag) (of_parts ?_ ?_ ?_ ?_) (countGranule _ pa bs.length true) <;> rfl

/-! ### The trace stream (R463 to R466) -/

theorem traceBytes (s : State) (c : Nat) (bs : List Byte) : SameFlows s (s.traceBytes c bs) := by
  unfold State.traceBytes
  refine SameFlows.trans ?_ (modCore _ c _)
  split
  · exact poke ..
  · exact (poke ..).trans (poke ..)

theorem traceRec (s : State) (c k : Nat) (rec : List Byte) (place : Option (Option Nat)) (fuel : Nat) : SameFlows s (s.traceRec c k rec place fuel) := by
  induction fuel generalizing s with
  | zero => exact refl s
  | succ fuel ih =>
    have frame (s : State) (n : Nat) : SameFlows s (s.modFlow (.wave c k) (fun w => { w with traceFrame := some n })) := modFlow s _ _ (fun _ => rfl)
    unfold State.traceRec
    dsimp only
    split
    · split
      · split
        · exact traceBytes ..
        · split
          · exact (traceBytes ..).trans (ih _)
          · split
            · exact (traceBytes ..).trans (frame _ _)
            · exact ((traceBytes ..).trans (frame _ _)).trans (ih _)
      · exact refl s
    · exact refl s

theorem traceEvent (s : State) (f : Flow) (kind code : Nat) (lanes : LaneMask) : SameFlows s (s.traceEvent f kind code lanes) := by
  cases f with
  | wave c k => exact traceRec ..
  | steward d k => exact refl s

theorem traceClause (s : State) (f : Flow) (x : Clause) (mid : Bool) : SameFlows s (s.traceClause f x mid) := by
  cases f with
  | steward d k => exact refl s
  | wave c k =>
    unfold State.traceClause
    dsimp only
    split
    · exact (modFlow s _ (fun w => { w with traceFrame := none }) (fun _ => rfl)).trans (traceRec ..)
    · exact traceRec ..

theorem dropTag (s : State) (f : Flow) : SameFlows s (s.dropTag f) := by
  cases f with
  | steward d k => exact refl s
  | wave c k =>
    unfold State.dropTag
    dsimp only
    split
    · exact refl s
    · exact modCore s c (fun q => { q with trailTags := q.trailTags.keep (fun _ t => t.slot != k || (q.waves.get k).any t.back) })

theorem refreshGroup (s : State) (c g : Nat) : SameFlows s (s.refreshGroup c g) := by
  refine modGroup s c g _ (fun q => ?_)
  cases hq : q.state <;> dsimp only <;> split <;> rfl

/-! ### Error logs and the arrays of a core (R468, R476, R477) -/

theorem logCore (s : State) (c array : Nat) (ue : Bool) (asid addr pc seq : Nat) : SameFlows s (s.logCore c array ue asid addr pc seq) := by
  unfold State.logCore
  dsimp only
  split
  · exact modCore s c _
  · exact (modCore s c _).trans (modDie _ _ _)

theorem spoil (s : State) (c : Nat) (b : BadWord) : SameFlows s (s.spoil c b) := modCore s c _

theorem strike (s : State) (c k index asid : Nat) (site : Site) (mark : State → State) (h : ∀ s, SameFlows s (mark s)) :
    SameFlows s (s.strike c k index asid site mark) := by
  unfold State.strike
  dsimp only
  split
  · exact refl s
  · split
    · exact (modCore s c _).trans (h _)
    · exact (modCore s c _).trans (logCore ..)

theorem fileWritten (s : State) (c k : Nat) (vars : List Nat) (scalar : Bool) (run : LaneMask) (site : Site) :
    SameFlows s (s.fileWritten c k vars scalar run site) := by
  unfold State.fileWritten
  split
  · exact refl s
  · exact (modCore s c _).trans (foldl _ (fun s x => strike s c 0 _ _ site _ (fun s => spoil s c _)) vars _)

theorem cacheWritten (s : State) (c k index : Nat) (site : Site) : SameFlows s (s.cacheWritten c k index site) := by
  unfold State.cacheWritten
  split
  · exact (modCore s c _).trans (logCore ..)
  · exact refl s

/-! ### Walks and fetches (R76 to R78, R162, R224, R227) -/

theorem pinLeaf (s : State) (pa size pte : Nat) : SameFlows s (s.pinLeaf pa size pte) := by
  unfold State.pinLeaf
  dsimp only
  split
  · exact modDie s _ _
  · exact refl s

theorem touchLeaf (s : State) (entry pte : Nat) (write : Bool) : SameFlows s (s.touchLeaf entry pte write).1 := by
  unfold State.touchLeaf
  generalize (pte ||| 0x40 ||| if write then 0x80 else 0) = v
  dsimp only
  split
  · exact refl s
  · exact poke ..

theorem walkFill (s : State) (die asid va : Nat) (use : Use) (steward : Bool) : SameFlows s (s.walkFill die asid va use steward).1 := by
  have hcount : SameFlows s ((s.walkEntries die asid va).foldl (fun s a => s.countGranule a 8 false) s) := foldl _ (fun s a => countGranule s a 8 false) _ s
  unfold State.walkFill
  dsimp only
  split
  · exact hcount
  · next entry base size pa pte _ =>
    split
    · exact hcount.trans (pinLeaf ..)
    · refine ((hcount.trans (pinLeaf _ pa size pte)).trans (touchLeaf _ entry pte (use == .write))).trans ?_
      dsimp only
      exact modDie _ die _

theorem translateDie (s : State) (die asid va : Nat) (use : Use) (steward : Bool) : SameFlows s (s.translateDie die asid va use steward).1 := by
  unfold State.translateDie
  split
  · exact refl s
  · exact walkFill ..

theorem l1Written (s : State) (f : Flow) (c : Nat) (t : Translation) : SameFlows s (s.l1Written f c t) := by
  unfold State.l1Written
  dsimp only
  split
  · exact (modCore s c _).trans (cacheWritten ..)
  · exact refl s

theorem translate (s : State) (f : Flow) (asid va : Nat) (use : Use) : SameFlows s (s.translate f asid va use).1 := by
  unfold State.translate
  cases f with
  | steward d k =>
    dsimp only
    have h := translateDie s d asid va use (isSteward (.steward d k))
    split <;> next heq => rw [heq] at h; exact h
  | wave c k =>
    dsimp only
    split
    · exact refl s
    · have h := translateDie s (dieOf c) asid va use (isSteward (.wave c k))
      split
      · next t u heq =>
        rw [heq] at h
        exact (h.trans (modCore t c (fun q => { q with l1 := enterTlb 128 u q.l1 }))).trans (l1Written ..)
      · next heq => rw [heq] at h; exact h

theorem fetchLine (s : State) (f : Flow) (line clause : Nat) : SameFlows s (s.fetchLine f line clause).1 := by
  have h := translate s f (s.asidOf f) (64 * line) .fetch
  unfold State.fetchLine
  dsimp only
  split
  · exact refl s
  · split
    · next heq => rw [heq] at h; exact h
    · next t pa heq =>
      rw [heq] at h
      split
      · exact h
      · split
        · exact h
        · have hc : SameFlows s (t.countGranule pa 64 false) := h.trans (countGranule ..)
          split
          · exact (hc.trans (fresh _ _)).trans
              ((modCore _ _ _).trans (cacheWritten ..))
          · exact hc

theorem fetchWord (s : State) (f : Flow) (va clause : Nat) : SameFlows s (s.fetchWord f va clause).1 := by
  have h := fetchLine s f (va / 64) clause
  unfold State.fetchWord
  split <;> next heq => rw [heq] at h; exact h

theorem fetchRun (s : State) (f : Flow) (clause va n : Nat) : SameFlows s (s.fetchRun f clause va n).1 := by
  induction n generalizing s va with
  | zero => exact refl s
  | succ n ih =>
    have h := fetchWord s f (va % 2 ^ 48) clause
    unfold State.fetchRun
    split
    · next heq => rw [heq] at h; exact h
    · next t w heq =>
      rw [heq] at h
      have h' := ih t (va + 4)
      split <;> next heq' => rw [heq'] at h'; exact h.trans h'

theorem fetchClause (s : State) (f : Flow) (addr : Nat) : SameFlows s (s.fetchClause f addr).1 := by
  have h := fetchWord s f addr addr
  unfold State.fetchClause
  split
  · next heq => rw [heq] at h; exact h
  · next t w heq =>
    rw [heq] at h
    have h' := fetchRun t f addr (addr + 4) (headerCount w)
    split
    · next heq' => rw [heq'] at h'; exact h.trans h'
    · next heq' =>
      rw [heq'] at h'
      split
      · exact h.trans h'
      · split <;> exact h.trans h'

end SameFlows

end Sys2Proof.Machine
end

