-- ==== Sys2Proof/Proofs/WaveEvents.lean ====
section
/-! Lemmas and proof: what a core does for its waves on its own (R17, R40, R53, R77, R97, R206, R207, R216, R217, R291, R454). -/

namespace Sys2Proof.Machine

/-! ### Changes of a wave's record -/

theorem State.modFlow_of_flow {s : State} {f : Flow} {w : Wave} (hf : s.flow? f = some w) (g : Wave → Wave) : s.modFlow f g = s.setFlow f (g w) := by
  unfold State.modFlow; rw [hf]

/-- A change of a wave's record is a change of the cores alone. -/
theorem State.modFlow_wave_cores (s : State) (c k : Nat) (g : Wave → Wave) (x : Tab Core) :
    { s.modFlow (.wave c k) g with cores := x } = { s with cores := x } := by
  unfold State.modFlow
  split <;> rfl

/-- A change of a flow's record keeps what its core holds beside its flows. -/
theorem State.core_modFlow_rest (s : State) (f : Flow) (g : Wave → Wave) (c : Nat) :
    { (s.modFlow f g).core c with waves := [] } = { s.core c with waves := [] } := by
  unfold State.modFlow
  split
  · exact s.core_setFlow_rest f _ c
  · rfl

/-- What does not look at a core's flows reads alike after a change of a flow's record. -/
theorem State.proj_modFlow {α : Type} (p : Core → α) (hp : ∀ q : Core, p { q with waves := [] } = p q) (s : State) (f : Flow) (g : Wave → Wave) (c : Nat) :
    p ((s.modFlow f g).core c) = p (s.core c) := by
  rw [← hp, s.core_modFlow_rest f g c, hp]

@[simp] theorem State.active_modFlow (s : State) (f : Flow) (g : Wave → Wave) (c : Nat) : ((s.modFlow f g).core c).active = (s.core c).active :=
  State.proj_modFlow Core.active (fun _ => rfl) s f g c

@[simp] theorem State.pending_modFlow (s : State) (f : Flow) (g : Wave → Wave) (c : Nat) : ((s.modFlow f g).core c).pending = (s.core c).pending :=
  State.proj_modFlow Core.pending (fun _ => rfl) s f g c

@[simp] theorem State.sound_modFlow (s : State) (f : Flow) (g : Wave → Wave) (c : Nat) : ((s.modFlow f g).core c).sound = (s.core c).sound :=
  State.proj_modFlow Core.sound (fun _ => rfl) s f g c

/-! ### Swaps of the sets (R206) -/

theorem State.enter_core (s : State) (c k : Nat) :
    ((s.enter c k).core c).active = k :: (s.core c).active ∧ ((s.enter c k).core c).pending = (s.core c).pending.filter (· != k) := by
  simp [State.enter]

theorem State.flow?_enter (s : State) (c k : Nat) (f : Flow) :
    (s.enter c k).flow? f = if .wave c k = f then (s.flow? f).map (fun w => { w with unissued := true }) else s.flow? f := by
  unfold State.enter
  rw [State.flow?_modFlow, State.flow?_modCore _ _ _ rfl]

/-- The candidate leaves the active set for the end of the pending set, and the pending wave takes its place (R206). -/
theorem State.exchange_core (s : State) (c out in_ : Nat) :
    ((s.exchange c out in_).core c).active = in_ :: (s.core c).active.filter (· != out) ∧
      ((s.exchange c out in_).core c).pending = (s.core c).pending.filter (· != in_) ++ [out] := by
  simp [State.exchange, State.enter_core]

theorem State.flow?_exchange (s : State) (c out in_ : Nat) (f : Flow) :
    (s.exchange c out in_).flow? f =
      (if .wave c in_ = f then (s.flow? f).map (fun w => { w with unissued := true }) else s.flow? f).map
        (fun w => if .wave c out = f then { w with candidate := false } else w) := by
  unfold State.exchange
  rw [State.flow?_modFlow, State.flow?_modCore _ _ _ rfl, State.flow?_enter, State.flow?_modCore _ _ _ rfl]
  by_cases h : Flow.wave c out = f <;> simp [h]

theorem State.exchange_cores (s : State) (c out in_ : Nat) : { s.exchange c out in_ with cores := s.cores } = s := by
  unfold State.exchange State.enter
  dsimp only
  rw [State.modFlow_wave_cores]
  exact State.modFlow_wave_cores _ c in_ _ s.cores

/-! ### Octets of the variable file (R40) -/

/-- An eviction marks an octet of one wave as overflowed. -/
theorem State.flow?_evict (s : State) (c k n : Nat) (f : Flow) (w : Wave) (hf : s.flow? f = some w) :
    ∃ o x, (s.evict c k n).flow? f = some { w with overflowed := o, traceFrame := x } := by
  have marked (t : State) (h : SameFlows s t) (g : Core → Core) (hg : ∀ q, (g q).waves = q.waves) :
      ∃ o x, ((t.modFlow (.wave c k) (fun w => { w with overflowed := w.overflowed ++ [n] })).modCore c g).flow? f = some { w with overflowed := o, traceFrame := x } := by
    obtain ⟨x, hx⟩ := h.flow hf
    rw [State.flow?_modCore _ _ _ (hg _), State.flow?_modFlow, hx]
    split
    · exact ⟨_, x, rfl⟩
    · exact ⟨w.overflowed, x, rfl⟩
  unfold State.evict
  split
  · exact ⟨w.overflowed, w.traceFrame, hf⟩
  · dsimp only
    split
    · exact marked _ (SameFlows.poke ..) _ (fun _ => rfl)
    · exact marked s (SameFlows.refl s) _ (fun _ => rfl)

theorem State.flow?_makeRoom (s : State) (c : Nat) (f : Flow) (w : Wave) (hf : s.flow? f = some w) :
    ∃ o x, (s.makeRoom c).flow? f = some { w with overflowed := o, traceFrame := x } := by
  unfold State.makeRoom
  split
  · exact ⟨w.overflowed, w.traceFrame, hf⟩
  · split
    · exact s.flow?_evict c _ _ f w hf
    · exact ⟨w.overflowed, w.traceFrame, hf⟩

/-- The bytes of an octet in its core's overflow area; none where the core has no save area. -/
def State.octetBytes (s : State) (c k n : Nat) : List Byte :=
  match s.areaOf c with
  | some a => s.bytes (overflowAt a k n) 32
  | none => []

/-- The record of a wave whose octet has been read back from bytes. -/
def Wave.filled (w : Wave) (n : Nat) (bs : List Byte) : Wave :=
  { w with
    laneCopies := if bs = [] then w.laneCopies else w.laneCopies.mapVal (fun i v => if i / 8 = n then BitVec.ofNat 32 (natOfBytes ((bs.drop (4 * (i % 8))).take 4)) else v)
    overflowed := w.overflowed.filter (· != n) }

theorem State.fillOctet_eq (s : State) (c k n : Nat) :
    s.fillOctet c k n =
      ((s.modFlow (.wave c k) (fun w => w.filled n (s.octetBytes c k n))).modCore c (fun q => { q with octetAge := q.octetAge ++ [(k, n)] })).fileWritten c k
        [n / 8] false (LaneMask.ofList ((List.range 8).map (8 * (n % 8) + ·))) (0, 0) := rfl

theorem State.flow?_fillOctet (s : State) (c k n : Nat) (w : Wave) (hf : s.flow? (.wave c k) = some w) :
    ∃ bs x, (s.fillOctet c k n).flow? (.wave c k) = some { w.filled n bs with traceFrame := x } := by
  rw [s.fillOctet_eq]
  have h : ((s.modFlow (.wave c k) (fun w => w.filled n (s.octetBytes c k n))).modCore c (fun q => { q with octetAge := q.octetAge ++ [(k, n)] })).flow?
      (.wave c k) = some (w.filled n (s.octetBytes c k n)) := by
    rw [State.flow?_modCore _ _ _ rfl, State.flow?_modFlow_self, hf]; rfl
  obtain ⟨x, hx⟩ := (SameFlows.fileWritten _ c k [n / 8] false (LaneMask.ofList ((List.range 8).map (8 * (n % 8) + ·))) (0, 0)).flow h
  exact ⟨_, x, hx⟩

/-- On a core that no injection touches, a write of its file does nothing to its arrays. -/
theorem State.fileWritten_sound (s : State) (c k : Nat) (vars : List Nat) (scalar : Bool) (run : LaneMask) (site : Site) (h : (s.core c).sound = true) :
    s.fileWritten c k vars scalar run site = s := by
  unfold State.fileWritten; rw [if_pos h]

/-! The bytes of an octet hold its lanes' copies. -/

theorem natOfBytes_bytesOfNat (n v : Nat) : natOfBytes (bytesOfNat n v) = v % 256 ^ n := by
  induction n generalizing v with
  | zero => simp [bytesOfNat, natOfBytes, Nat.mod_one]
  | succ n ih =>
    rw [bytesOfNat, natOfBytes, ih, BitVec.toNat_ofNat, Nat.pow_succ' (m := 256)]
    exact (Nat.mod_mul ..).symm

theorem length_bytesOfNat (n v : Nat) : (bytesOfNat n v).length = n := by
  induction n generalizing v with
  | zero => rfl
  | succ n ih => rw [bytesOfNat, List.length_cons, ih]

/-- The words of a list of words written one after another are read back each at its place. -/
theorem slice_flatMap_bytes (v : Nat → Nat) (m j : Nat) (h : j < m) :
    (((List.range m).flatMap (fun i => bytesOfNat 4 (v i))).drop (4 * j)).take 4 = bytesOfNat 4 (v j) := by
  have hlen (n : Nat) : ((List.range n).flatMap (fun i => bytesOfNat 4 (v i))).length = 4 * n := by
    simp [List.length_flatMap, length_bytesOfNat, Nat.mul_comm]
  obtain ⟨r, rfl⟩ : ∃ r, m = j + (r + 1) := ⟨m - j - 1, by omega⟩
  rw [List.range_add, List.flatMap_append, List.drop_append_of_le_length (by rw [hlen]), ← hlen j, List.drop_length, List.nil_append,
    List.range_succ_eq_map, List.map_cons, List.flatMap_cons, List.take_append_of_le_length (by rw [length_bytesOfNat])]
  rw [Nat.add_zero]
  exact List.take_of_length_le (by rw [length_bytesOfNat])

theorem Wave.octetBytes_word (w : Wave) (n i : Nat) (v : Word) (hi : i / 8 = n) (hv : w.laneCopies.get i = some v) :
    BitVec.ofNat 32 (natOfBytes (((w.octetBytes n).drop (4 * (i % 8))).take 4)) = v := by
  have hin : 8 * n + i % 8 = i := by omega
  unfold Wave.octetBytes
  rw [slice_flatMap_bytes (fun j => (w.laneCopies.getD (8 * n + j) 0).toNat) 8 (i % 8) (Nat.mod_lt _ (by omega)), natOfBytes_bytesOfNat, hin, Tab.getD, hv]
  apply BitVec.eq_of_toNat_eq
  rw [BitVec.toNat_ofNat, Option.getD_some]
  have := v.isLt
  omega

/-- An octet read back from its own bytes, or from no area, leaves every copy as it was. -/
theorem Wave.filled_laneCopies (w : Wave) (n : Nat) (bs : List Byte) (h : bs = [] ∨ bs = w.octetBytes n) (i : Nat) :
    (w.filled n bs).laneCopies.get i = w.laneCopies.get i := by
  unfold Wave.filled
  by_cases hb : bs = []
  · simp [hb]
  · simp only [if_neg hb]
    rw [Tab.get_mapVal]
    cases hv : w.laneCopies.get i with
    | none => rfl
    | some v =>
      rw [Option.map_some]
      split
      · next hi => rw [h.resolve_left hb, w.octetBytes_word n i v hi hv]
      · rfl

/-- On a sound core, an octet whose bytes stand in the overflow area as they left the file comes back and changes no variable. -/
theorem State.fillOctet_sound (s : State) (c k n : Nat) (w : Wave) (hf : s.flow? (.wave c k) = some w) (hs : (s.core c).sound = true)
    (hb : ∀ a, s.areaOf c = some a → s.bytes (overflowAt a k n) 32 = w.octetBytes n) :
    ((s.fillOctet c k n).core c).sound = true ∧ (∀ f y l, varAt (s.fillOctet c k n) f y l = varAt s f y l) ∧
      { s.fillOctet c k n with cores := s.cores } = s := by
  have hbs : s.octetBytes c k n = [] ∨ s.octetBytes c k n = w.octetBytes n := by
    unfold State.octetBytes
    split
    · next a ha => exact .inr (hb a ha)
    · exact .inl rfl
  have hsound : (((s.modFlow (.wave c k) (fun w => w.filled n (s.octetBytes c k n))).modCore c
      (fun q => { q with octetAge := q.octetAge ++ [(k, n)] })).core c).sound = true := by
    rw [State.core_modCore_self]
    exact (s.sound_modFlow (.wave c k) (fun w => w.filled n (s.octetBytes c k n)) c).trans hs
  rw [s.fillOctet_eq, State.fileWritten_sound _ _ _ _ _ _ _ hsound]
  refine ⟨hsound, fun f y l => ?_, State.modFlow_wave_cores s c k _ s.cores⟩
  refine (varAt_modCore _ c (fun q => { q with octetAge := q.octetAge ++ [(k, n)] }) (fun _ => rfl) (fun _ => rfl) f y l).trans ?_
  rw [State.modFlow_of_flow hf]
  exact varAt_setFlow_same s (.wave c k) w (w.filled n (s.octetBytes c k n)) hf rfl f y l ⟨rfl, rfl, w.filled_laneCopies n _ hbs _, rfl⟩

/-- OCTET_RETURN for a wave that waits for an octet (R40). -/
theorem State.returnOctet_eq (s : State) (c k x o : Nat) (w : Wave) (hf : s.flow? (.wave c k) = some w) (hp : w.park = some (.octet x o)) :
    s.returnOctet c k = (if w.overflowed.contains (8 * x + o) then (s.makeRoom c).fillOctet c k (8 * x + o) else s.makeRoom c).modFlow (.wave c k)
      (fun w => { w with park := none }) := by
  unfold State.returnOctet
  rw [show (s.core c).waves.get k = some w from hf]
  simp only [hp]

/-! ### Halts (R442, R454) -/

/-- Halting lanes changes which are halted, the run that resumes, and what the halted lanes keep of their clause. -/
theorem Wave.haltLanes_cases (w : Wave) (lanes : LaneMask) :
    ∃ b c d e f, w.haltLanes lanes = { w with halted := w.halted ||| (lanes &&& w.live), resume := b, counter := c, word := d, kept := e, clause := f } := by
  unfold Wave.haltLanes
  dsimp only
  split
  · exact ⟨_, _, _, _, _, rfl⟩
  · split <;> exact ⟨_, _, _, _, _, rfl⟩

theorem Wave.haltLanes_marks (w : Wave) (lanes : LaneMask) :
    (w.haltLanes lanes).halted = w.halted ||| (lanes &&& w.live) ∧ (w.haltLanes lanes).live = w.live ∧ (w.haltLanes lanes).stopping = w.stopping := by
  obtain ⟨b, c, d, e, f, h⟩ := w.haltLanes_cases lanes
  rw [h]
  exact ⟨rfl, rfl, rfl⟩

theorem Wave.haltLanes_sameVar (w : Wave) (lanes : LaneMask) (x l : Nat) :
    (w.haltLanes lanes).group = w.group ∧ (w.haltLanes lanes).sameVar w x l := by
  obtain ⟨b, c, d, e, f, h⟩ := w.haltLanes_cases lanes
  rw [h]
  exact ⟨rfl, rfl, rfl, rfl, rfl⟩

/-- Halting is a change of the wave's record, beside what changes no flow. -/
theorem State.haltLanes_spec (s : State) (f : Flow) (lanes : LaneMask) (w : Wave) (hf : s.flow? f = some w) :
    ∃ t, SameFlows s t ∧ SameFlows (t.modFlow f (fun w => w.haltLanes lanes)) (s.haltLanes f lanes) := by
  refine ⟨s.dropTag f, SameFlows.dropTag s f, ?_⟩
  unfold State.haltLanes
  dsimp only
  split
  · exact SameFlows.refreshGroup ..
  · exact SameFlows.refl _

/-! ### Clause starts (R17, R53, R76 to R78, R97) -/

/-- A start at word 0 whose WAIT flags are clear begins its clause at its first word. -/
theorem State.startClause_ok {s s' : State} {f : Flow} {k : Chosen} {h : Word} {ws : List Word} {w : Wave} (hfetch : s.fetchClause f k.addr = (s', .ok (h, ws)))
    (hk : k.word = 0) (hf : s'.flow? f = some w) (hwait : w.flagsClear (headerWait h) = true) : s.startClause f k = s'.beginClause f k h ws 1 := by
  unfold State.startClause
  simp only [hfetch, hk, hf, Nat.not_lt_zero, if_false, hwait, Bool.not_true, Bool.and_false, Bool.false_eq_true]
  rfl

theorem State.startClause_error {s s' : State} {f : Flow} {k : Chosen} {u : Trap} (hfetch : s.fetchClause f k.addr = (s', .error u)) :
    s.startClause f k = (s'.modFlow f (fun w => { w with resume := none })).takeTrap f (u.regs k.addr 0 k.run) := by
  unfold State.startClause
  simp only [hfetch]
  rfl

/-- The record with which a clause begins at its first word, for the run chosen (R17, R53). -/
def Wave.begun (w : Wave) (k : Chosen) (h : Word) (ws : List Word) : Wave :=
  { w with
    clause := some { addr := k.addr, header := h, words := ws, pos := 1, run := k.run }
    latches := []
    kept := w.kept.keep (fun l _ => !k.run.getLsbD l)
    resume := none
    hword := 0
    headIssues := k.headIssues
    sweep := k.sweep
    candidate := k.forced }

/-- A clause's beginning is the change of its flow's record and a trace record. -/
theorem State.beginClause_spec (s : State) (f : Flow) (k : Chosen) (h : Word) (ws : List Word) (hk : k.word = 0) :
    SameFlows (s.modFlow f (fun w => w.begun k h ws)) (s.beginClause f k h ws 1) := by
  unfold State.beginClause
  simp only [hk]
  exact SameFlows.traceClause ..

/-- CLAUSE_START for an issuable flow between clauses that nothing holds (R206). -/
theorem execClauseStart_eq {s : State} {f : Flow} {w : Wave} {k : Chosen} (hf : s.flow? f = some w) (hi : s.issuable f = true) (hc : w.clause = none)
    (hs : w.stopping = false) (him : w.imprecise = []) (hd : s.swapDue f = false) (hk : w.choose = some k) :
    execClauseStart f s = .next (({ s with cur := f }).startClause f k) := by
  unfold execClauseStart
  simp only [hf, hi, hc, hs, him, hd, hk, Option.isNone_none, List.isEmpty_nil, Bool.not_false, Bool.and_self, if_true]

end Sys2Proof.Machine

namespace Sys2Proof

open Sys2Proof.Machine

/-! ### The events of a wave -/

/-- A clause starts for the run that is chosen, with no latch valid (R17, R53, R97). -/
theorem clauseStart_begins {s s' : State} {f : Flow} {w : Wave} {k : Chosen} {h : Word} {ws : List Word} (hf : s.flow? f = some w) (hi : s.issuable f = true)
    (hc : w.clause = none) (hs : w.stopping = false) (him : w.imprecise = []) (hd : s.swapDue f = false) (hk : w.choose = some k) (h0 : k.word = 0)
    (hfetch : State.fetchClause { s with cur := f } f k.addr = (s', .ok (h, ws))) (hwait : w.flagsClear (headerWait h) = true) :
    ∃ t w', Machine.exec (.clauseStart f) s = .next t ∧ t.cur = f ∧ t.flow? f = some w' ∧
      w'.clause = some { addr := k.addr, header := h, words := ws, pos := 1, run := k.run } ∧ w'.latches = [] ∧ w'.live = w.live ∧ w'.flags = w.flags ∧
      ∀ g x l, varAt t g x l = varAt s g x l := by
  have hsame : SameFlows { s with cur := f } s' := by
    have := SameFlows.fetchClause { s with cur := f } f k.addr
    rwa [hfetch] at this
  obtain ⟨x, hx⟩ := hsame.flow (show ({ s with cur := f } : State).flow? f = some w from hf)
  have hbegin := s'.beginClause_spec f k h ws h0
  obtain ⟨y, hy⟩ := hbegin.flow (w := ({ w with traceFrame := x } : Wave).begun k h ws) (by rw [State.flow?_modFlow_self, hx]; rfl)
  refine ⟨s'.beginClause f k h ws 1, _, ?_, ?_, hy, rfl, rfl, rfl, rfl, fun g y l => ?_⟩
  · exact (execClauseStart_eq hf hi hc hs him hd hk).trans (congrArg _ (State.startClause_ok hfetch h0 hx hwait))
  · rw [hbegin.cur, State.cur_modFlow, hsame.cur]
  · rw [hbegin.varAt, varAt_modFlow_same s' f (fun w => w.begun k h ws) g y l (fun _ => rfl) (fun _ => ⟨rfl, rfl, rfl, rfl⟩), hsame.varAt]
    rfl

/-- An octet that a wave waits for returns (R40). -/
theorem octetReturn_returns {s : State} {c k x o : Nat} {w : Wave} (hf : s.flow? (.wave c k) = some w) (hp : w.park = some (.octet x o)) :
    let n := 8 * x + o
    ∃ t w', Machine.exec (.octetReturn c k) s = .next t ∧ t.flow? (.wave c k) = some w' ∧ w'.park = none ∧ w'.clause = w.clause ∧ w'.latches = w.latches ∧
      (w.overflowed.contains n = true → w'.overflowed.contains n = false) ∧
      (s.splitOctets c < s.octetRoom c → (s.core c).sound = true → (∀ a, s.areaOf c = some a → s.bytes (overflowAt a k n) 32 = w.octetBytes n) →
        (∀ f y l, varAt t f y l = varAt s f y l) ∧ { t with cores := s.cores } = s) := by
  intro n
  have hexec : Machine.exec (.octetReturn c k) s = .next _ := congrArg Host.Outcome.next (s.returnOctet_eq c k x o w hf hp)
  obtain ⟨v, y, hroom⟩ := s.flow?_makeRoom c _ w hf
  have unpark (u : State) : (∀ f y l, varAt (u.modFlow (.wave c k) (fun w => { w with park := none })) f y l = varAt u f y l) ∧
      { u.modFlow (.wave c k) (fun w => { w with park := none }) with cores := s.cores } = { u with cores := s.cores } :=
    ⟨fun f y l => varAt_modFlow_same u _ (fun w => { w with park := none }) f y l (fun _ => rfl) (fun _ => ⟨rfl, rfl, rfl, rfl⟩), u.modFlow_wave_cores c k _ s.cores⟩
  have hstay (hr : s.splitOctets c < s.octetRoom c) : s.makeRoom c = s := if_pos hr
  by_cases hn : w.overflowed.contains n = true
  · rw [if_pos hn] at hexec
    obtain ⟨bs, z, hfill⟩ := (s.makeRoom c).flow?_fillOctet c k n _ hroom
    have hend := State.flow?_modFlow_self ((s.makeRoom c).fillOctet c k n) (.wave c k) (fun w => { w with park := none })
    rw [hfill, Option.map_some] at hend
    refine ⟨_, _, hexec, hend, rfl, rfl, rfl, fun _ => by simp [Wave.filled], fun hr hsound hb => ?_⟩
    rw [hstay hr]
    obtain ⟨-, hv, hrest⟩ := s.fillOctet_sound c k n w hf hsound hb
    exact ⟨fun f y l => ((unpark _).1 f y l).trans (hv f y l), (unpark _).2.trans hrest⟩
  · rw [if_neg hn] at hexec
    have hend := State.flow?_modFlow_self (s.makeRoom c) (.wave c k) (fun w => { w with park := none })
    rw [hroom, Option.map_some] at hend
    refine ⟨_, _, hexec, hend, rfl, rfl, rfl, fun h => absurd h hn, fun hr _ _ => ?_⟩
    rw [hstay hr]
    exact unpark s

/-- A wave that a gang halt stops halts between its clauses (R454). -/
theorem gangHalt_halts {s : State} {c k : Nat} {w : Wave} (hf : s.flow? (.wave c k) = some w) (hs : w.stopping = true) (hc : w.clause = none) :
    ∃ t w', Machine.exec (.gangHalt c k) s = .next t ∧ t.flow? (.wave c k) = some w' ∧ w'.live &&& ~~~w'.halted = 0 ∧ w'.live = w.live ∧ w'.stopping = false ∧
      ∀ f x l, varAt t f x l = varAt s f x l := by
  have hexec : Machine.exec (.gangHalt c k) s = .next
      (((s.modFlow (.wave c k) (fun w => { w with stopping := false })).haltLanes (.wave c k) w.live).traceEvent (.wave c k) 4 0xFF (w.live &&& ~~~w.halted)) := by
    show Host.Outcome.next (s.stopAtBoundary (.wave c k)) = _
    unfold State.stopAtBoundary
    simp only [hf, hs, hc, Option.isNone_none, Bool.and_self, if_true]
  have hf1 : (s.modFlow (.wave c k) (fun w => { w with stopping := false })).flow? (.wave c k) = some { w with stopping := false } := by
    rw [State.flow?_modFlow_self, hf]; rfl
  obtain ⟨u, hu, hhalt⟩ := State.haltLanes_spec _ _ w.live _ hf1
  obtain ⟨x, hx⟩ := hu.flow hf1
  have hend := hhalt.trans (SameFlows.traceEvent _ (.wave c k) 4 0xFF (w.live &&& ~~~w.halted))
  obtain ⟨y, hy⟩ := hend.flow (by rw [State.flow?_modFlow_self, hx]; rfl)
  obtain ⟨hhalted, hlive, hstop⟩ := Wave.haltLanes_marks { { w with stopping := false } with traceFrame := x } w.live
  refine ⟨_, _, hexec, hy, ?_, hlive, hstop, fun f x l => ?_⟩
  · show Wave.live (Wave.haltLanes _ _) &&& ~~~(Wave.halted (Wave.haltLanes _ _)) = 0
    rw [hhalted, hlive]
    apply BitVec.eq_of_getLsbD_eq
    intro i hi
    simp +contextual
  · rw [hend.varAt, varAt_modFlow_same u (.wave c k) (fun v => v.haltLanes w.live) f x l (fun v => (v.haltLanes_sameVar _ x l).1) (fun v => (v.haltLanes_sameVar _ x l).2),
      hu.varAt, varAt_modFlow_same s (.wave c k) (fun w => { w with stopping := false }) f x l (fun _ => rfl) (fun _ => ⟨rfl, rfl, rfl, rfl⟩)]

/-- A candidate is exchanged with the oldest ready pending wave (R206). -/
theorem waveSwap_exchanges {s : State} {c n out in_ : Nat} {os is : List Nat} {w v : Wave} (ho : s.candidates c n = out :: os) (hi : s.readyPending c n = in_ :: is)
    (hne : out ≠ in_) (hw : s.flow? (.wave c out) = some w) (hv : s.flow? (.wave c in_) = some v) :
    ∃ t, Machine.exec (.waveSwap c n) s = .next t ∧ (t.core c).active = in_ :: (s.core c).active.filter (· != out) ∧
      (t.core c).pending = (s.core c).pending.filter (· != in_) ++ [out] ∧ t.flow? (.wave c out) = some { w with candidate := false } ∧
      t.flow? (.wave c in_) = some { v with unissued := true } ∧
      (∀ f, f ≠ .wave c out → f ≠ .wave c in_ → t.flow? f = s.flow? f) ∧ { t with cores := s.cores } = s := by
  have hexec : Machine.exec (.waveSwap c n) s = .next (s.exchange c out in_) := by
    show execWaveSwap c n s = _
    unfold execWaveSwap
    rw [ho, hi]
  have hne' : Flow.wave c in_ ≠ Flow.wave c out := fun h => hne (Flow.wave.inj h).2.symm
  refine ⟨_, hexec, (s.exchange_core c out in_).1, (s.exchange_core c out in_).2, ?_, ?_, fun f h1 h2 => ?_, s.exchange_cores c out in_⟩
  · rw [s.flow?_exchange, if_neg hne', hw]
    simp
  · rw [s.flow?_exchange, if_pos rfl, hv]
    simp [hne'.symm]
  · rw [s.flow?_exchange, if_neg (Ne.symm h2)]
    simp [Ne.symm h1]

/-- A starved pending wave makes the wave that issued least recently a candidate (R207). -/
theorem pendingStarvationTimeout_marks {s : State} {c n k : Nat} {w : Wave} (hp : s.readyPending c n ≠ [])
    (hk : s.leastRecent c ((s.core c).activeOf n) = some k) (hf : s.flow? (.wave c k) = some w) :
    ∃ t, Machine.exec (.pendingStarvationTimeout c n) s = .next t ∧ t.flow? (.wave c k) = some { w with candidate := true } ∧
      (∀ f, f ≠ .wave c k → t.flow? f = s.flow? f) ∧ { t with cores := s.cores } = s := by
  have hexec : Machine.exec (.pendingStarvationTimeout c n) s = .next (s.modFlow (.wave c k) (fun w => { w with candidate := true })) := by
    show execPendingStarvationTimeout c n s = _
    unfold execPendingStarvationTimeout
    rw [if_neg hp, hk]
  exact ⟨_, hexec, by rw [State.flow?_modFlow_self, hf]; rfl, fun f h => s.flow?_modFlow_ne _ (Ne.symm h), s.modFlow_wave_cores c k _ s.cores⟩

/-- An imprecise fault that is due is taken at its wave's boundary (R291). -/
theorem impreciseFault_taken {s : State} {c k : Nat} {w : Wave} {n a o : Nat} {r : Imprecise} {run : LaneMask} (hf : s.flow? (.wave c k) = some w)
    (hr : s.runs (.wave c k) = true) (hd : w.dueImprecise = some (n, r)) (hb : w.boundary = some (a, o, run)) :
    Machine.exec (.impreciseFault c k) s =
      .next ((s.setFlow (.wave c k) { w with imprecise := w.imprecise.eraseIdx n }).takeTrap (.wave c k) (r.regs a (r.wordOf w o) run)) := by
  show execImpreciseFault c k s = _
  unfold execImpreciseFault State.takeImprecise State.takeDue
  simp only [hr, if_true, hf, hd, hb, State.modFlow_of_flow hf]

/-- A wave that tests its global barrier again wakes where the barrier is gone or its phase has passed, and else waits on (R216, R217). -/
theorem globalBarrierRetest_sets {s : State} {c k : Nat} {w : Wave} (hf : s.flow? (.wave c k) = some w) :
    Machine.exec (.globalBarrierRetest c k) s = .next (s.setFlow (.wave c k) (s.retest w)) :=
  congrArg Host.Outcome.next (State.modFlow_of_flow hf s.retest)

/-- Settles O53: each event is one change of its wave's record beside what changes no flow (`SameFlows`). -/
theorem waveEvents : Obligations.WaveEvents := by
  unfold Obligations.WaveEvents
  refine ⟨?_, ?_, ?_, ?_, ?_, ?_, ?_, ?_, ?_⟩
  · intro s s' f w k h ws hf hi hc hs him hd hk h0 hfetch hwait
    exact clauseStart_begins hf hi hc hs him hd hk h0 hfetch hwait
  · intro s s' f w k u hf hi hc hs him hd hk hfetch
    exact (execClauseStart_eq hf hi hc hs him hd hk).trans (congrArg Host.Outcome.next (State.startClause_error hfetch))
  · intro s c n out in_ os is w v ho hi hne hw hv
    exact waveSwap_exchanges ho hi hne hw hv
  · intro s c n k w hp hk hf
    exact pendingStarvationTimeout_marks hp hk hf
  · intro s c k w n r a o run hf hr hd hb
    exact impreciseFault_taken hf hr hd hb
  · intro s c k w x o hf hp
    exact octetReturn_returns hf hp
  · intro s c k w st hf hp
    refine congrArg Host.Outcome.next ((State.modFlow_of_flow hf Wave.wake).trans ?_)
    simp only [Wave.wake, hp]
  · intro s c k w pa n hf hp
    refine ⟨fun hb => ?_, fun b hb hn => ?_, fun b hb hn => ?_⟩ <;> rw [globalBarrierRetest_sets hf] <;> simp only [State.retest, hp, hb]
    · rw [if_neg hn]
    · rw [if_pos hn]
  · intro s c k w hf hs hc _
    exact gangHalt_halts hf hs hc

end Sys2Proof
end

