-- ==== Sys2Proof/Proofs/Leaving.lean ====
section
/-! Lemmas: how an undisturbed instruction with no result leaves its clause (R17, R18, R53), and what the removal of a wave keeps (R46, R379). -/

namespace Sys2Proof

open Sys2Proof.Machine

/-! ### Variables, by what a read looks at -/

/-- A flow's variables read alike where its record, the home copies and the launches stand. -/
theorem varAt_of_flow {s t : State} {f : Flow} (hf : t.flow? f = s.flow? f) (hg : ∀ c g, (t.group? c g).map Group.home = (s.group? c g).map Group.home)
    (hl : t.launches = s.launches) (x l : Nat) : varAt t f x l = varAt s f x l := by
  have hhome : t.groupHome f x = s.groupHome f x := by
    cases f with
    | steward d k => rfl
    | wave c k => rw [s.groupHome_wave, t.groupHome_wave, hf]; simp only [hg]
  unfold varAt
  rw [hf]
  congr 1
  funext w
  exact State.readVar_of_state s t f w x l hl hhome

theorem Machine.State.group?_modFlow (s : State) (f : Flow) (g : Wave → Wave) (c k : Nat) : (s.modFlow f g).group? c k = s.group? c k := by
  unfold State.modFlow
  split
  · exact s.group?_setFlow f _ c k
  · rfl

theorem Machine.State.modFlow_rest (s : State) (f : Flow) (g : Wave → Wave) (x : Tab Core) (y : Tab Die) :
    { s.modFlow f g with cores := x, dies := y } = { s with cores := x, dies := y } := by
  unfold State.modFlow
  split
  · cases f <;> rfl
  · rfl

theorem Machine.State.die_modFlow_still (s : State) (f : Flow) (g : Wave → Wave) (d : Nat) : ((s.modFlow f g).die d).still = (s.die d).still := by
  unfold State.modFlow
  split
  · exact s.die_setFlow_rest f _ d
  · rfl

/-- What watches and checkers leave of an undisturbed instruction's state keeps every group. -/
theorem Machine.group?_gated {s s' : State} {e : Issuer} (hs : s' = s ∨ s' = s.modFlow e.f (fun w => w.useExempt e.c e.run)) (c g : Nat) :
    s'.group? c g = s.group? c g := by
  rcases hs with rfl | rfl
  · rfl
  · exact s.group?_modFlow e.f _ c g

theorem Machine.OnlyVars.mem {s t : State} (h : OnlyVars s t) : t.mem = s.mem := (congrArg State.mem h.rest :)

theorem Machine.OnlyVars.reservations {s t : State} (h : OnlyVars s t) : t.reservations = s.reservations := (congrArg State.reservations h.rest :)

/-! ### Where an instruction stands -/

/-- An instruction that must be the last of its clause is (R80). -/
theorem Ready.last {s : State} {i : Instr} {e : Issuer} (h : Ready s i e) (hm : mustBeLast i = true) : e.last = true := by
  obtain ⟨-, -, -, hi⟩ := s.of_issuer h.issuer
  have hp : e.placeTrap = none := by
    have := h.legal
    unfold State.firstTrap at this
    split at this
    · cases this
    · split at this
      · cases this
      · assumption
  unfold Issuer.placeTrap at hp
  rw [hi, hm] at hp
  by_contra hlast
  simp [hlast] at hp

/-- The threads that leave a clause without moving keep their counters (R18). -/
theorem Machine.State.counter_retire (s : State) (e : Issuer) (k : Option Latch) (target : Option (Nat → Nat)) (w : Wave) (hf : s.flow? e.f = some w)
    (hc : w.clause = some e.c) (ht : w.traced = false) (l : Nat) (hl : (w.movers e.c).getLsbD l = false) :
    ((s.retire e k target).flow? e.f).map (fun v => v.counter.get l) = some (w.counter.get l) := by
  have hne : ∀ m ∈ LaneMask.toList (w.movers e.c), m ≠ l := by
    rintro m hm rfl
    rw [(LaneMask.mem_toList _ m).1 hm] at hl
    cases hl
  unfold State.retire
  obtain ⟨x, hx⟩ : ∃ x, w.pushLatch e.i k = { w with latches := x } := ⟨_, w.pushLatch_eq e.i k⟩
  have h1 : (s.modFlow e.f (fun w => { w.pushLatch e.i k with park := none })).flow? e.f = some { w with latches := x, park := none } := by
    rw [State.flow?_modFlow_self, hf, Option.map_some, hx]
  simp only [h1, Option.bind_some, hc]
  split
  · unfold State.endClause
    simp only [h1, ht, Bool.false_eq_true, if_false]
    split
    · rw [State.flow?_modFlow_self, h1]; rfl
    · rw [State.flow?_modFlow_self, h1]
      exact congrArg some (Tab.get_foldl_set (LaneMask.toList (w.movers e.c)) (fun l => l) _ w.counter l hne)
  · rw [State.flow?_modFlow_self, h1]; rfl

/-- An undisturbed instruction whose effect leaves its flow in its clause, and its core's arrays alone, then leaves its clause (R17, R18, R53). -/
theorem finish_leaves {s' u : State} {e : Issuer} {pl : Plan} {w : Wave} (hu : pl.commit e.run s' = u) (hstay : pl.stay = false) (hlater : pl.later = false)
    (hf : u.flow? e.f = some w) (hc : w.clause = some e.c) (ht : w.traced = false) (hsound : ∀ c k, e.f = .wave c k → (u.core c).sound = true)
    (hd : u.dstep = none) :
    ∃ t, s'.finish e pl e.run = pl.after t ∧ OnlyVars u t ∧ (∀ f x l, varAt t f x l = varAt u f x l) ∧ (∀ f, f ≠ e.f → t.flow? f = u.flow? f) ∧
      ∃ w', t.flow? e.f = some w' ∧ w'.wstat = w.wstat ∧ w'.latches = (w.pushLatch e.i (pl.latch.map (fun k => k e.run))).latches ∧
        (∀ l, (w.movers e.c).getLsbD l = false → w'.counter.get l = w.counter.get l) ∧
        (if e.last then w'.clause = none ∧ (if w.handler then w'.hpc = (match pl.target with | some t => t e.lead | none => e.after)
            else ∀ l, (w.movers e.c).getLsbD l = true → w'.position l = ((match pl.target with | some t => t l | none => e.after), 0))
          else w'.clause = some { e.c with pos := e.c.pos + e.len }) := by
  have hO := OnlyVars.settle u e.f
  have hfs : (u.settle e.f).flow? e.f = some w := (u.flow?_settle e.f e.f).trans hf
  have harr : (u.settle e.f).arraysWritten e e.run false = u.settle e.f :=
    State.arraysWritten_sound _ e e.run false (fun c k hw => (hO.sound c).trans (hsound c k hw))
  obtain ⟨hO', hV, hN, w', hf', hw, hl, hp⟩ := (u.settle e.f).retire_spec e (pl.latch.map (fun k => k e.run)) pl.target w hfs hc ht
  refine ⟨_, ?_, hO.trans hO', fun f x l => (hV f x l).trans (varAt_settle u e.f f x l), fun f hne => (hN f hne).trans (u.flow?_settle e.f f), w', hf', hw, hl, ?_, hp⟩
  · unfold State.finish
    simp only [hu, hlater, hstay, harr, Bool.false_eq_true, if_false]
    unfold State.afterStep
    rw [(hO.trans hO').dstep, hd]
  · intro l hm
    have := (u.settle e.f).counter_retire e (pl.latch.map (fun k => k e.run)) pl.target w hfs hc ht l hm
    rw [hf'] at this
    simpa using this

/-- The newest latch after an instruction that places an entry is that entry (R53). -/
theorem Machine.Wave.head_pushLatch (w : Wave) (i : Instr) (k : Latch) : (w.pushLatch i (some k)).latches.head? = some k := by
  unfold Wave.pushLatch
  cases mayFault i <;> rfl

/-! ### Ends of waves (R46, R379) -/

/-- The record of a trace event is written for a traced wave alone (R463). -/
theorem Machine.State.traceEvent_untraced {s : State} {f : Flow} {w : Wave} (hf : s.flow? f = some w) (ht : w.traced = false) (kind code : Nat) (lanes : LaneMask) :
    s.traceEvent f kind code lanes = s := by
  cases f with
  | steward d k => rfl
  | wave c k =>
    have hw : (s.core c).waves.get k = some w := hf
    unfold State.traceEvent
    dsimp only
    unfold State.traceRec
    simp only [hw, ht, Bool.false_and, Bool.false_eq_true, if_false]

/-- A wave with a live thread does not end. -/
theorem Machine.State.tryEnd_live {s : State} {f : Flow} {w : Wave} (hf : s.flow? f = some w) (hl : w.live ≠ 0) : s.tryEnd f = s := by
  cases f with
  | steward d k => rfl
  | wave c k =>
    unfold State.tryEnd
    have hw : (s.core c).waves.get k = some w := hf
    simp only [hw, hl, decide_false, Bool.false_and, Bool.false_eq_true, if_false]

/-- The state without a wave: its core holds it no more, and nothing is kept for it. -/
def Machine.State.withoutWave (s : State) (c k : Nat) : State :=
  (s.modCore c (fun q => { q with waves := q.waves.del k, active := q.active.filter (· != k), pending := q.pending.filter (· != k) })).forgetFlow (.wave c k)

/-- A wave without threads, flags and operations ends; while another wave of its group is left, nothing but the wave goes (R379). -/
theorem Machine.State.tryEnd_last {s : State} {c k v : Nat} {w : Wave} (hf : s.flow? (.wave c k) = some w) (hl : w.live = 0) (hfl : w.flagsClear 0xFFF = true)
    (hm : (s.core c).matrixBusy k = false) (hv : v ≠ k) (hg : ((s.core c).waves.get v).any (fun u => u.group == w.group) = true) :
    s.tryEnd (.wave c k) = s.withoutWave c k := by
  have hw : (s.core c).waves.get k = some w := hf
  have hleft : ((s.withoutWave c k).core c).waves.any (fun e => e.2.group == w.group) = true := by
    have hwaves : ((s.withoutWave c k).core c).waves = (s.core c).waves.del k :=
      congrArg Core.waves (s.core_modCore_self c (fun q => { q with waves := q.waves.del k, active := q.active.filter (· != k), pending := q.pending.filter (· != k) }))
    rw [hwaves, List.any_eq_true]
    cases hu : (s.core c).waves.get v with
    | none => rw [hu] at hg; cases hg
    | some u =>
      rw [hu] at hg
      exact ⟨(v, u), Tab.mem_of_get _ v u (by rw [Tab.get_del_ne _ (Ne.symm hv), hu]), hg⟩
  unfold State.tryEnd
  simp only [hw, hl, hfl, hm, decide_true, Bool.and_self, Bool.not_false, if_true]
  exact if_pos hleft

theorem Machine.State.flow?_withoutWave_self (s : State) (c k : Nat) : (s.withoutWave c k).flow? (.wave c k) = none := by
  unfold State.withoutWave State.forgetFlow State.dropRequests
  rw [State.flow?_modDie _ _ _ rfl, State.flow?_dropReservations]
  simp [State.flow?]

theorem Machine.State.flow?_withoutWave_ne (s : State) (c k : Nat) {f : Flow} (h : f ≠ .wave c k) : (s.withoutWave c k).flow? f = s.flow? f := by
  unfold State.withoutWave State.forgetFlow State.dropRequests
  rw [State.flow?_modDie _ _ _ rfl, State.flow?_dropReservations]
  cases f with
  | steward d j => rfl
  | wave c' j =>
    by_cases hc : c = c'
    · subst hc
      have hj : k ≠ j := fun hkj => h (by rw [hkj])
      simp [State.flow?, Tab.get_del_ne _ hj]
    · simp [State.flow?, s.core_modCore_ne _ hc]

theorem Machine.State.group?_withoutWave (s : State) (c k c' g : Nat) : (s.withoutWave c k).group? c' g = s.group? c' g := by
  show (s.modCore c (fun q => { q with waves := q.waves.del k, active := q.active.filter (· != k), pending := q.pending.filter (· != k) })).group? c' g = _
  by_cases hc : c = c'
  · subst hc; simp [State.group?]
  · simp [State.group?, s.core_modCore_ne _ hc]

/-- Other flows read their variables as before. -/
theorem varAt_withoutWave (s : State) (c k : Nat) {f : Flow} (h : f ≠ .wave c k) (x l : Nat) : varAt (s.withoutWave c k) f x l = varAt s f x l :=
  varAt_of_flow (s.flow?_withoutWave_ne c k h) (fun c' g => by rw [s.group?_withoutWave]) rfl x l

/-! ### `exit` (R379) -/

/-- What `exit` does to its flow: the threads of the run stop being live, and their reservations go (R379, R402). -/
def Machine.State.exited (s : State) (f : Flow) (run : LaneMask) : State :=
  ({ s with reservations := s.reservations.filter (fun r => !(r.flow == f && run.getLsbD r.lane)) } : State).modFlow f (fun w => w.exitLanes run)

theorem Machine.State.core_exited (s : State) (f : Flow) (run : LaneMask) (c : Nat) : ((s.exited f run).core c).still = (s.core c).still :=
  State.proj_modFlow Core.still (fun _ => rfl) _ f _ c

theorem Machine.Wave.exitLanes_counter (w : Wave) (run : LaneMask) (l : Nat) (hl : run.getLsbD l = true) : (w.exitLanes run).counter.get l = none := by
  show Tab.get (w.counter.keep (fun l _ => !run.getLsbD l)) l = none
  rw [Tab.get_keep _ _ (fun _ _ _ => rfl) l 0, hl]
  rfl

theorem Machine.Wave.exitLanes_sameVar (w : Wave) (run : LaneMask) (x l : Nat) (hlt : l < 64) (hl : run.getLsbD l = false) : (w.exitLanes run).sameVar w x l := by
  refine ⟨rfl, rfl, ?_, rfl⟩
  show Tab.get (w.laneCopies.keep (fun k _ => !run.getLsbD (k % 64))) (64 * x + l) = _
  rw [Tab.get_keep _ _ (fun _ _ _ => rfl) _ 0]
  have : (64 * x + l) % 64 = l := by omega
  rw [this, hl]
  rfl

/-- The threads that have exited are none of those that move at the clause's end. -/
theorem Machine.Wave.movers_exitLanes (w : Wave) (run : LaneMask) (c : Clause) (l : Nat) (hl : run.getLsbD l = true) : ((w.exitLanes run).movers c).getLsbD l = false := by
  show (c.run &&& (w.live &&& ~~~run) &&& ~~~w.halted).getLsbD l = false
  simp [hl]

theorem varAt_exited {s : State} {f : Flow} {w : Wave} (hf : s.flow? f = some w) (run : LaneMask) (g : Flow) (x l : Nat) (hlt : l < 64)
    (h : g = f → run.getLsbD l = false) : varAt (s.exited f run) g x l = varAt s g x l := by
  obtain ⟨r, hr⟩ : ∃ r, { s with reservations := s.reservations.filter (fun r => !(r.flow == f && run.getLsbD r.lane)) } = r := ⟨_, rfl⟩
  have hfr : r.flow? f = some w := by rw [← hr]; exact hf
  have he : s.exited f run = r.setFlow f (w.exitLanes run) := by unfold State.exited State.modFlow; rw [hr, hfr]
  have hv : varAt r g x l = varAt s g x l := by rw [← hr]; rfl
  rw [he, ← hv]
  by_cases hg : g = f
  · exact varAt_setFlow_same r f w (w.exitLanes run) hfr rfl g x l (w.exitLanes_sameVar run x l hlt (h hg))
  · exact varAt_setFlow_ne r f w (w.exitLanes run) hfr rfl g (Ne.symm hg) x l

/-- The plan of `exit`. -/
def exitPlan (e : Issuer) : Plan where
  commit := fun run s => (s.traceEvent e.f 1 0 run).exited e.f run
  after := fun s => s.tryEnd e.f

theorem exec_exit (o : CArgs) (s : State) : Machine.exec (.exit o) s = perform (.exit o) (fun _ e => .ok (exitPlan e)) s := rfl

/-- An undisturbed `exit`: its threads have gone and its flow has left the clause, before it is judged whether the wave ends. -/
theorem exit_leaves {s : State} {o : CArgs} {e : Issuer} (h : Ready s (.exit o) e) :
    ∃ t w, Machine.exec (.exit o) s = .next (t.tryEnd e.f) ∧ t.flow? e.f = some w ∧ w.still = ({ e.w with live := e.w.live &&& ~~~e.run } : Wave).still ∧
      w.clause = none ∧ (∀ l, e.run.getLsbD l = true → w.counter.get l = none ∧ ∀ r ∈ t.reservations, ¬(r.flow = e.f ∧ r.lane = l)) ∧
      (∀ f x l, l < 64 → (f = e.f → e.run.getLsbD l = false) → varAt t f x l = varAt s f x l) ∧ (∀ a, t.byte a = s.byte a) ∧
      (∀ f, f ≠ e.f → t.flow? f = s.flow? f) ∧ (∀ c, (t.core c).still = (s.core c).still) ∧
      ∀ c g, (t.group? c g).isSome = (s.group? c g).isSome := by
  obtain ⟨-, hf, hc, -⟩ := s.of_issuer h.issuer
  obtain ⟨s', hexec, hs⟩ := h.perform_ok (fun _ e => .ok (exitPlan e)) (exitPlan e) rfl rfl rfl
  obtain ⟨w0, ha, hc0, hf0, hO, hV, hN⟩ := h.gated s' hs
  have ht0 : w0.traced = false := (Wave.of_still ha.still).2.2.2.1.trans h.untraced
  have hcommit : (exitPlan e).commit e.run s' = s'.exited e.f e.run := by
    show (s'.traceEvent e.f 1 0 e.run).exited e.f e.run = _
    rw [State.traceEvent_untraced hf0 ht0]
  have hf1 : (s'.exited e.f e.run).flow? e.f = some (w0.exitLanes e.run) := by
    unfold State.exited
    rw [State.flow?_modFlow_self]
    exact congrArg (Option.map _) hf0
  have hcore : ∀ c, ((s'.exited e.f e.run).core c).still = (s.core c).still := fun c =>
    (State.core_exited s' e.f e.run c).trans (hO.cores c)
  obtain ⟨t, hfin, hOt, hVt, hNt, w, hft, -, -, hcount, hplace⟩ := finish_leaves hcommit rfl rfl hf1 (hc0.trans hc) ht0
    (fun c k hw => (congrArg Core.sound (hcore c)).trans (h.sound c k hw)) ((by simp [State.exited] : _ = s'.dstep).trans (hO.dstep.trans h.alone))
  rw [h.last rfl, if_pos rfl] at hplace
  have hmem : t.mem = s.mem := hOt.mem.trans ((by simp [State.exited] : _ = s'.mem).trans hO.mem)
  refine ⟨t, w, (exec_exit o s).trans (hexec.trans (congrArg _ hfin)), hft, ?_, hplace.1, fun l hl => ⟨?_, fun r hr => ?_⟩, fun f x l hlt hl => ?_, fun a => ?_,
    fun f hne => ?_, fun c => (hOt.cores c).trans (hcore c), fun c g => ?_⟩
  · have hw := hOt.flows e.f
    rw [hft, hf1, Option.map_some, Option.map_some, Option.some.injEq] at hw
    exact hw.trans (congrArg (fun v : Wave => { v with live := v.live &&& ~~~e.run }) ha.still)
  · rw [hcount l (w0.movers_exitLanes e.run e.c l hl), w0.exitLanes_counter e.run l hl]
  · rw [hOt.reservations] at hr
    simp only [State.exited, State.reservations_modFlow, List.mem_filter] at hr
    rintro ⟨hrf, rfl⟩
    simp [hrf, hl] at hr
  · rw [hVt, varAt_exited hf0 e.run f x l hlt hl, hV]
  · rw [State.byte, hmem]; rfl
  · rw [hNt f hne, State.exited, State.flow?_modFlow_ne _ _ (Ne.symm hne)]
    exact hN f hne
  · have hg : ((s'.exited e.f e.run).group? c g).map Group.still = (s.group? c g).map Group.still := by
      rw [State.exited, State.group?_modFlow]
      exact hO.groups c g
    have := congrArg Option.isSome ((hOt.groups c g).trans hg)
    simpa using this

/-- The last thread of a wave that nothing keeps takes the wave away, and only it (R379). -/
theorem exit_ends_wave {s : State} {o : CArgs} {e : Issuer} {c k v : Nat} (h : Ready s (.exit o) e) (hw : e.f = .wave c k) (hlive : e.w.live &&& ~~~e.run = 0)
    (hflags : e.w.flagsClear 0xFFF = true) (hbusy : (s.core c).matrixBusy k = false) (hv : v ≠ k)
    (hleft : ((s.core c).waves.get v).any (fun w => w.group == e.w.group) = true) :
    ∃ t, Machine.exec (.exit o) s = .next t ∧ t.flow? e.f = none ∧ (t.group? c e.w.group).isSome = (s.group? c e.w.group).isSome ∧
      (∀ f x l, f ≠ e.f → l < 64 → varAt t f x l = varAt s f x l) ∧ ∀ a, t.byte a = s.byte a := by
  obtain ⟨t, w, hexec, hft, hstill, -, -, hV, hB, hN, hC, hG⟩ := exit_leaves h
  have hl : w.live = 0 := (Wave.of_still hstill).2.2.1.trans hlive
  have hgroup : w.group = e.w.group := (Wave.of_still hstill).2.1
  have hfl : w.flags = e.w.flags := (congrArg Wave.flags hstill :)
  have hm : (t.core c).matrix = (s.core c).matrix := (congrArg Core.matrix (hC c) :)
  have hother : (t.core c).waves.get v = (s.core c).waves.get v := hN (.wave c v) (by rw [hw]; exact fun hvk => hv (Flow.wave.inj hvk).2)
  rw [hw] at hexec hft hV ⊢
  have hend : t.tryEnd (.wave c k) = t.withoutWave c k :=
    State.tryEnd_last hft hl (by rw [Wave.flagsClear, hfl]; exact hflags) (by rw [Core.matrixBusy, hm]; exact hbusy) hv (by rw [hother, hgroup]; exact hleft)
  rw [hend] at hexec
  refine ⟨_, hexec, t.flow?_withoutWave_self c k, ?_, fun f x l hne hlt => ?_, hB⟩
  · rw [t.group?_withoutWave, hG]
  · rw [varAt_withoutWave t c k hne, hV f x l hlt (fun hf => absurd hf hne)]

/-! ### Instructions that only pass (R17, R18, R53) -/

/-- An instruction whose effect leaves its flow's threads and WSTAT as they are, and that places no latch value, passes (R17, R18, R53). -/
theorem finish_passes {s' u : State} {e : Issuer} {pl : Plan} {w : Wave} (hu : pl.commit e.run s' = u) (hstay : pl.stay = false) (hlater : pl.later = false)
    (hlatch : pl.latch = some (fun _ => .invalid)) (htarget : pl.target = none) (hf : u.flow? e.f = some w) (hc : w.clause = some e.c)
    (hws : w.wstat = e.w.wstat) (hst : ({ w.still with candidate := false } : Wave) = { e.w.still with candidate := false }) (ht : e.w.traced = false)
    (hsound : ∀ c k, e.f = .wave c k → (u.core c).sound = true) (hd : u.dstep = none) :
    ∃ t, s'.finish e pl e.run = pl.after t ∧ OnlyVars u t ∧ (∀ f x l, varAt t f x l = varAt u f x l) ∧ (∀ f, f ≠ e.f → t.flow? f = u.flow? f) ∧
      Passed t e ∧ Raised t e {} ∧ Latched t e .invalid := by
  have hhandler : w.handler = e.w.handler := (congrArg Wave.handler hst :)
  have hmovers : w.movers e.c = e.w.movers e.c := (congrArg (fun v : Wave => v.movers e.c) hst :)
  have htraced : w.traced = e.w.traced := (congrArg Wave.traced hst :)
  obtain ⟨t, hfin, hO, hV, hN, w', hft, hw, hl, -, hplace⟩ := finish_leaves hu hstay hlater hf hc (htraced.trans ht) hsound hd
  rw [hhandler, hmovers, htarget] at hplace
  refine ⟨t, hfin, hO, hV, hN, ⟨w', hft, hplace⟩, ⟨w', hft, ?_⟩, w', hft, ?_⟩
  · rw [hw, hws, Wstat.raise_none]
  · rw [hl, hlatch]
    exact w.head_pushLatch e.i .invalid

/-- Behind the last word of its clause an instruction without a target has sent its flow to the next clause (R18). -/
theorem Passed.sent {t : State} {e : Issuer} (h : Passed t e) (hl : e.last = true) : Sent t e (fun _ => e.after) := by
  obtain ⟨w, hf, hp⟩ := h
  rw [if_pos hl] at hp
  exact ⟨w, hf, hp⟩

/-! ### `trigger` (R31, R380) -/

theorem exec_trigger (o : CArgs) (s : State) :
    Machine.exec (.trigger o) s = perform (.trigger o) (fun _ e => .ok { commit := fun _ s => s.triggerOf e.f }) s := rfl

theorem Machine.State.groupOf_gated {s : State} {i : Instr} {e : Issuer} (h : Ready s i e) {s' : State}
    (hs : s' = s ∨ s' = s.modFlow e.f (fun w => w.useExempt e.c e.run)) : s'.groupOf e.f = s.groupOf e.f := by
  obtain ⟨-, hf, -, -⟩ := s.of_issuer h.issuer
  obtain ⟨w, ha, -, hf', -⟩ := h.gated s' hs
  cases he : e.f with
  | steward d k => rfl
  | wave c k =>
    rw [he] at hf hf'
    have h1 : (s.core c).waves.get k = some e.w := hf
    have h2 : (s'.core c).waves.get k = some w := hf'
    unfold State.groupOf
    simp only [h1, h2, ha.group, group?_gated hs]

/-- A later `trigger` of a group does nothing (R31). -/
theorem trigger_again {s : State} {o : CArgs} {e : Issuer} {c g : Nat} {q : Group} (h : Ready s (.trigger o) e) (hg : s.groupOf e.f = some (c, g, q))
    (hq : q.triggered = true) :
    ∃ t, Machine.exec (.trigger o) s = .next t ∧ Passed t e ∧ Raised t e {} ∧ Latched t e .invalid ∧ Untouched s t e (fun _ _ => False) := by
  obtain ⟨-, hf, hc, -⟩ := s.of_issuer h.issuer
  obtain ⟨s', hexec, hs⟩ := h.perform_ok (fun _ e => .ok { commit := fun _ s => s.triggerOf e.f }) _ rfl rfl rfl
  obtain ⟨w0, ha, hc0, hf0, hO, hV, hN⟩ := h.gated s' hs
  have hcommit : s'.triggerOf e.f = s' := by
    unfold State.triggerOf
    rw [State.groupOf_gated h hs, hg]
    exact if_pos hq
  obtain ⟨t, hfin, hOt, hVt, hNt, hpass, hraise, hlatch⟩ := finish_passes (pl := { commit := fun _ s => s.triggerOf e.f }) hcommit rfl rfl rfl rfl
    hf0 (hc0.trans hc) ha.wstat (by rw [ha.still]) h.untraced (fun c k hw => (hO.sound c).trans (h.sound c k hw)) (hO.dstep.trans h.alone)
  refine ⟨t, (exec_trigger o s).trans (hexec.trans (congrArg _ hfin)), hpass, hraise, hlatch, Untouched.of_onlyVars (hO.trans hOt) ?_ ?_⟩
  · exact fun f x _ l _ => (hVt f x l).trans (hV f x l)
  · exact fun f hne => by rw [hNt f hne, hN f hne]

/-- The first `trigger` of a group whose launch waits for further groups counts the group (R31). -/
theorem Machine.State.triggerOf_first {s : State} {f : Flow} {c g : Nat} {q : Group} {r : Launch} (hg : s.groupOf f = some (c, g, q)) (hq : q.triggered = false)
    (hr : s.launches.get q.launch = some r) (ht : r.triggered = false) (hn : r.triggeredGroups.contains q.index = false)
    (hlt : r.triggeredGroups.length + 1 < r.count) :
    s.triggerOf f = { s.setGroup c g { q with triggered := true } with
      launches := s.launches.set q.launch { r with triggeredGroups := r.triggeredGroups ++ [q.index] } } := by
  unfold State.triggerOf
  simp only [hg, hq, Bool.false_eq_true, if_false]
  unfold State.trigger State.testTrigger State.modLaunch
  have hset : (s.setGroup c g { q with triggered := true }).launches.upd q.launch
      (fun l => if l.triggered || l.triggeredGroups.contains q.index then l else { l with triggeredGroups := l.triggeredGroups ++ [q.index] }) =
        s.launches.set q.launch { r with triggeredGroups := r.triggeredGroups ++ [q.index] } := by
    show s.launches.upd _ _ = _
    unfold Tab.upd
    simp only [hr, ht, hn, Bool.or_self, Bool.false_eq_true, if_false]
  have hwait : decide (r.count ≤ (r.triggeredGroups ++ [q.index]).length) = false := by
    rw [List.length_append, List.length_singleton]; exact decide_eq_false (by omega)
  simp only [hset, Tab.get_set_self, ht, hwait, Bool.and_false, Bool.false_eq_true, if_false]

/-! Launches that differ in no record read every variable alike. -/

/-- Two tables of launches hold the same launch records. -/
def SameRecords (a b : Tab Launch) : Prop := ∀ n, (a.get n).map Launch.record = (b.get n).map Launch.record

theorem SameRecords.launchOf {a : Tab Launch} {s : State} (h : SameRecords a s.launches) (w : Wave) :
    (({ s with launches := a } : State).launchOf w).map Launch.record = (s.launchOf w).map Launch.record := h w.launch

theorem SameRecords.rank {a : Tab Launch} {s : State} (h : SameRecords a s.launches) (f : Flow) (w : Wave) (x : Nat) :
    ({ s with launches := a } : State).rank f w x = s.rank f w x := by
  have hl := h.launchOf w
  unfold State.rank
  cases h1 : ({ s with launches := a } : State).launchOf w <;> cases h2 : s.launchOf w <;> rw [h1, h2] at hl <;> simp_all

theorem SameRecords.varAt {a : Tab Launch} {s : State} (h : SameRecords a s.launches) : varAt { s with launches := a } = varAt s := by
  funext f x l
  unfold Sys2Proof.varAt
  show (s.flow? f).map _ = (s.flow? f).map _
  congr 1
  funext w
  unfold State.readVar
  rw [h.rank]
  rfl

theorem SameRecords.interlocked {a : Tab Launch} {s : State} (h : SameRecords a s.launches) (w : Wave) (c : Clause) :
    ({ s with launches := a } : State).interlocked w c = s.interlocked w c := by
  have hl := h.launchOf w
  unfold State.interlocked
  cases h1 : ({ s with launches := a } : State).launchOf w <;> cases h2 : s.launchOf w <;> rw [h1, h2] at hl <;> simp_all

theorem SameRecords.refl (a : Tab Launch) : SameRecords a a := fun _ => rfl

theorem SameRecords.symm {a b : Tab Launch} (h : SameRecords a b) : SameRecords b a := fun n => (h n).symm

theorem SameRecords.trans {a b d : Tab Launch} (h : SameRecords a b) (k : SameRecords b d) : SameRecords a d := fun n => (h n).trans (k n)

theorem SameRecords.set {a : Tab Launch} {n : Nat} {l m : Launch} (h : a.get n = some l) (hr : m.record = l.record) : SameRecords (a.set n m) a := by
  intro k
  rw [Tab.get_set]
  split
  · next hk => subst hk; rw [h]; exact congrArg some hr
  · rfl

theorem Machine.State.group?_of_groupOf {s : State} {f : Flow} {c g : Nat} {q : Group} (h : s.groupOf f = some (c, g, q)) : s.group? c g = some q := by
  cases f with
  | steward d k => cases h
  | wave c' k =>
    unfold State.groupOf at h
    cases hw : (s.core c').waves.get k with
    | none => simp [hw] at h
    | some w =>
      simp only [hw, Option.map_eq_some_iff, Prod.mk.injEq] at h
      obtain ⟨q', hq, rfl, rfl, rfl⟩ := h
      exact hq

theorem Machine.State.group?_setGroup (s : State) (c g : Nat) (q : Group) (c' g' : Nat) :
    (s.setGroup c g q).group? c' g' = if c = c' ∧ g = g' then some q else s.group? c' g' := by
  unfold State.setGroup State.group?
  by_cases hc : c = c'
  · subst hc; simp [Tab.get_set]
  · simp [hc, s.core_modCore_ne _ hc]

theorem Machine.State.core_setGroup_still (s : State) (c g : Nat) (q : Group) (c' : Nat) : ((s.setGroup c g q).core c').still = (s.core c').still := by
  unfold State.setGroup
  by_cases hc : c = c'
  · subst hc; rw [s.core_modCore_self]; rfl
  · rw [s.core_modCore_ne _ hc]

/-- A group put back with the same home copies changes no variable. -/
theorem varAt_setGroup {s : State} {c g : Nat} {q p : Group} (hq : s.group? c g = some q) (hp : p.home = q.home) : varAt (s.setGroup c g p) = varAt s := by
  funext f x l
  refine varAt_of_flow (s.flow?_setGroup c g p f) (fun c' g' => ?_) rfl x l
  rw [s.group?_setGroup]
  split
  · next h => obtain ⟨rfl, rfl⟩ := h; rw [hq]; exact congrArg some hp
  · rfl

/-- The first `trigger` of a group marks it (R31, R380). -/
theorem trigger_first {s : State} {o : CArgs} {e : Issuer} {c g : Nat} {q : Group} {r : Launch} (h : Ready s (.trigger o) e)
    (hg : s.groupOf e.f = some (c, g, q)) (hq : q.triggered = false) (hr : s.launches.get q.launch = some r) (ht : r.triggered = false)
    (hn : r.triggeredGroups.contains q.index = false) (hlt : r.triggeredGroups.length + 1 < r.count) :
    ∃ t q', Machine.exec (.trigger o) s = .next t ∧ Passed t e ∧ Raised t e {} ∧ Latched t e .invalid ∧ t.group? c g = some q' ∧ q'.triggered = true ∧
      t.launches.get q.launch = some { r with triggeredGroups := r.triggeredGroups ++ [q.index] } ∧
      (∀ f x l, l < 64 → varAt t f x l = varAt s f x l) ∧ ∀ a, t.byte a = s.byte a := by
  obtain ⟨-, hf, hc, -⟩ := s.of_issuer h.issuer
  obtain ⟨s', hexec, hs⟩ := h.perform_ok (fun _ e => .ok { commit := fun _ s => s.triggerOf e.f }) _ rfl rfl rfl
  obtain ⟨w0, ha, hc0, hf0, hO, hV, hN⟩ := h.gated s' hs
  have hg' : s'.groupOf e.f = some (c, g, q) := (State.groupOf_gated h hs).trans hg
  have hr' : s'.launches.get q.launch = some r := by rw [hO.launches]; exact hr
  have hcommit := State.triggerOf_first hg' hq hr' ht hn hlt
  obtain ⟨u, hu⟩ : ∃ u, s'.setGroup c g { q with triggered := true } = u := ⟨_, rfl⟩
  obtain ⟨a, hra⟩ : ∃ a, s'.launches.set q.launch { r with triggeredGroups := r.triggeredGroups ++ [q.index] } = a := ⟨_, rfl⟩
  rw [hu, hra] at hcommit
  have hcore : ∀ c, (u.core c).still = (s.core c).still := fun c' => by rw [← hu, State.core_setGroup_still]; exact hO.cores c'
  have hfu : u.flow? e.f = some w0 := by rw [← hu, State.flow?_setGroup]; exact hf0
  have hdu : u.dstep = none := by rw [← hu]; exact hO.dstep.trans h.alone
  have hsame : SameRecords a u.launches := by rw [← hra, ← hu]; exact SameRecords.set hr' rfl
  have hvu : varAt u = varAt s' := by rw [← hu]; exact varAt_setGroup (State.group?_of_groupOf hg') rfl
  obtain ⟨t, hfin, hOt, hVt, hNt, hpass, hraise, hlatch⟩ := finish_passes (pl := { commit := fun _ s => s.triggerOf e.f }) hcommit rfl rfl rfl rfl
    hfu (hc0.trans hc) ha.wstat (by rw [ha.still]) h.untraced (fun c k hw => (congrArg Core.sound (hcore c)).trans (h.sound c k hw)) hdu
  have hgu : (t.group? c g).map Group.still = some ({ q with triggered := true } : Group).still := by
    refine (hOt.groups c g).trans ?_
    show (u.group? c g).map Group.still = _
    rw [← hu, State.group?_setGroup, if_pos ⟨rfl, rfl⟩]
    rfl
  obtain ⟨q', hq', hstill⟩ := Option.map_eq_some_iff.1 hgu
  refine ⟨t, q', (exec_trigger o s).trans (hexec.trans (congrArg _ hfin)), hpass, hraise, hlatch, hq', (congrArg Group.triggered hstill :), ?_, fun f x l _ => ?_, fun b => ?_⟩
  · rw [hOt.launches, ← hra]
    exact Tab.get_set_self ..
  · rw [hVt, hsame.varAt, hvu, hV]
  · rw [State.byte, hOt.mem, ← hu]
    exact congrArg (fun m => Tab.getD m b 0) hO.mem

/-! ### `yield` (R382) -/

theorem exec_yield (o : CArgs) (s : State) : Machine.exec (.yield o) s =
    perform (.yield o) (fun _ e => .ok { commit := fun _ s => s.modFlow e.f (fun w => { w with candidate := true }) }) s := rfl

/-- `yield` ends its clause and makes its wave a swap candidate (R382). -/
theorem yield_marks {s : State} {o : CArgs} {e : Issuer} (h : Ready s (.yield o) e) :
    ∃ t w, Machine.exec (.yield o) s = .next t ∧ Sent t e (fun _ => e.after) ∧ Raised t e {} ∧ Calm s t e (fun _ _ => False) ∧ t.flow? e.f = some w ∧
      w.candidate = true ∧ ({ w.still with candidate := false } : Wave) = { e.w.still with candidate := false } := by
  obtain ⟨-, hf, hc, -⟩ := s.of_issuer h.issuer
  obtain ⟨s', hexec, hs⟩ := h.perform_ok (fun _ e => .ok { commit := fun _ s => s.modFlow e.f (fun w => { w with candidate := true }) }) _ rfl rfl rfl
  obtain ⟨w0, ha, hc0, hf0, hO, hV, hN⟩ := h.gated s' hs
  obtain ⟨u, hu⟩ : ∃ u, s'.modFlow e.f (fun w => { w with candidate := true }) = u := ⟨_, rfl⟩
  have hfu : u.flow? e.f = some { w0 with candidate := true } := by rw [← hu, State.flow?_modFlow_self, hf0]; rfl
  have hcore : ∀ c, (u.core c).still = (s.core c).still := fun c => by
    rw [← hu]; exact (State.proj_modFlow Core.still (fun _ => rfl) s' e.f _ c).trans (hO.cores c)
  have hcandidate := congrArg (fun v : Wave => { v with candidate := false }) ha.still
  obtain ⟨t, hfin, hOt, hVt, hNt, hpass, hraise, -⟩ := finish_passes (pl := { commit := fun _ s => s.modFlow e.f (fun w => { w with candidate := true }) })
    hu rfl rfl rfl rfl hfu (hc0.trans hc) ha.wstat hcandidate h.untraced (fun c k hw => (congrArg Core.sound (hcore c)).trans (h.sound c k hw))
    (by rw [← hu, State.dstep_modFlow]; exact hO.dstep.trans h.alone)
  have hw := hOt.flows e.f
  rw [hfu] at hw
  obtain ⟨w, hft, hstill⟩ := Option.map_eq_some_iff.1 hw
  refine ⟨t, w, (exec_yield o s).trans (hexec.trans (congrArg _ hfin)), hpass.sent (h.last rfl), hraise, ?_, hft, (congrArg Wave.candidate hstill :),
    (congrArg (fun v : Wave => { v with candidate := false }) hstill).trans hcandidate⟩
  have hrest : { u with cores := s.cores, dies := s.dies } = s := by rw [← hu, State.modFlow_rest]; exact hO.rest
  refine ⟨(congrArg (fun v : State => { v with cores := s.cores, dies := s.dies }) hOt.rest).trans hrest, fun f x _ l _ => ?_, fun f hne => ?_, fun c => (hOt.cores c).trans (hcore c),
    fun d => (hOt.dies d).trans ?_, fun c g => (hOt.groups c g).trans ?_⟩
  · rw [hVt, ← hu, varAt_modFlow_same s' e.f (fun w => { w with candidate := true }) f x l (fun _ => rfl) (fun _ => ⟨rfl, rfl, rfl, rfl⟩), hV]
  · rw [hNt f hne, ← hu, State.flow?_modFlow_ne _ _ (Ne.symm hne), hN f hne]
  · rw [← hu, State.die_modFlow_still]; exact hO.dies d
  · rw [← hu, State.group?_modFlow]; exact hO.groups c g

end Sys2Proof
end

