-- ==== Sys2Proof/Proofs/Grow.lean ====
section
/-! Lemmas and proof: `grow` (R30, R33, R381), and the statement of `exit`, `trigger`, `yield` and `grow`. -/

namespace Sys2Proof

open Sys2Proof.Machine

/-! ### One request (R381) -/

/-- A launch's context is not being torn down. -/
def Machine.State.alive (s : State) (l : Launch) : Bool := (s.contexts.get l.context).any (fun c => c.state != .dead)

/-- A launch's outermost level is bound to the cohort domain or wider. -/
def Machine.Launch.wide (l : Launch) : Bool := l.record.levels.getLast?.any (fun e => decide (3 ≤ e.2))

/-- A launch's count of groups after a request. -/
def Machine.Launch.grown (l : Launch) (add : Nat) : Nat :=
  l.count + add * ((l.record.levels.dropLast.filter (fun e => decide (3 ≤ e.2))).map Prod.fst).foldl (· * ·) 1

/-- `grow` answers by the first of its conditions that holds, and changes the launch's extent and count on 0 alone (R30, R33, R381). -/
theorem Machine.State.growBy_answers {s : State} {n : Nat} {l : Launch} (add : Nat) (hl : s.launches.get n = some l) :
    s.growBy n add =
      if s.alive l = false then (s, 3) else if l.triggered then (s, 2) else if l.wide = false ∨ 2 ^ 32 - 1 < l.grown add then (s, 1)
      else ({ s with launches := s.launches.set n { l with outer := l.outer + add, count := l.grown add } }, 0) := by
  have hwide : (fun e : Nat × Nat => levelClass e.2 == 2) = fun e => decide (3 ≤ e.2) := by
    funext e
    unfold levelClass
    split
    · simp; omega
    · split <;> simp <;> omega
  unfold State.growBy State.modLaunch Tab.upd State.alive Launch.wide Launch.grown
  simp only [hl, hwide, Bool.not_eq_true', Bool.or_eq_true, decide_eq_true_eq]

/-- A request changes the launches alone, and no record of them; what it does depends on launches and contexts alone. -/
theorem Machine.State.growBy_spec (s : State) (n add : Nat) :
    ∃ a st, SameRecords a s.launches ∧ ∀ t : State, t.launches = s.launches → t.contexts = s.contexts → t.growBy n add = ({ t with launches := a }, st) := by
  cases hl : s.launches.get n with
  | none =>
    refine ⟨s.launches, 3, SameRecords.refl _, fun t ht _ => ?_⟩
    unfold State.growBy
    rw [← ht] at hl ⊢
    rw [hl]
  | some l =>
    have answers (t : State) (ht : t.launches = s.launches) := State.growBy_answers add (show t.launches.get n = some l by rw [ht, hl])
    have alive (t : State) (hc : t.contexts = s.contexts) : t.alive l = s.alive l := by unfold State.alive; rw [hc]
    by_cases h3 : s.alive l = false
    · exact ⟨s.launches, 3, SameRecords.refl _, fun t ht hc => by rw [answers t ht, alive t hc, if_pos h3, ← ht]⟩
    · by_cases h2 : l.triggered = true
      · exact ⟨s.launches, 2, SameRecords.refl _, fun t ht hc => by rw [answers t ht, alive t hc, if_neg h3, if_pos h2, ← ht]⟩
      · by_cases h1 : l.wide = false ∨ 2 ^ 32 - 1 < l.grown add
        · exact ⟨s.launches, 1, SameRecords.refl _, fun t ht hc => by rw [answers t ht, alive t hc, if_neg h3, if_neg h2, if_pos h1, ← ht]⟩
        · exact ⟨s.launches.set n { l with outer := l.outer + add, count := l.grown add }, 0, SameRecords.set hl rfl,
            fun t ht hc => by rw [answers t ht, alive t hc, if_neg h3, if_neg h2, if_neg h1, ht]⟩

/-! ### The requests of a run -/

/-- One lane's request, after those of the lanes below it. -/
def growStep (n : Nat) (asks : Nat → Nat) (a : State × Tab (List Word)) (l : Nat) : State × Tab (List Word) :=
  ((a.1.growBy n (asks l)).1, a.2.set l [BitVec.ofNat 32 (a.1.growBy n (asks l)).2])

theorem Machine.State.growLanes_eq (s : State) (e : Issuer) (run : LaneMask) (asks : Nat → Nat) :
    s.growLanes e run asks = (LaneMask.toList run).foldl (growStep e.w.launch asks) (s, []) := rfl

theorem get_foldl_growStep (n : Nat) (asks : Nat → Nat) (ls : List Nat) (a : State × Tab (List Word)) (l : Nat) (h : l ∉ ls) :
    (ls.foldl (growStep n asks) a).2.get l = a.2.get l := by
  induction ls generalizing a with
  | nil => rfl
  | cons k ls ih =>
    rw [List.foldl_cons, ih _ (fun hm => h (List.mem_cons_of_mem _ hm))]
    exact Tab.get_set_ne _ _ (fun hk => h (by simp [hk]))

theorem foldl_growStep_spec (n : Nat) (asks : Nat → Nat) (ls : List Nat) (s : State) (v : Tab (List Word)) :
    ∃ a v', SameRecords a s.launches ∧
      ∀ t : State, t.launches = s.launches → t.contexts = s.contexts → ls.foldl (growStep n asks) (t, v) = ({ t with launches := a }, v') := by
  induction ls generalizing s v with
  | nil => exact ⟨s.launches, v, SameRecords.refl _, fun t ht _ => by rw [← ht]; rfl⟩
  | cons k ls ih =>
    obtain ⟨a, st, ha, hgrow⟩ := s.growBy_spec n (asks k)
    obtain ⟨a', v', ha', hrest⟩ := ih { s with launches := a } (v.set k [BitVec.ofNat 32 st])
    refine ⟨a', v', SameRecords.trans ha' ha, fun t ht hc => ?_⟩
    rw [List.foldl_cons, growStep, hgrow t ht hc]
    exact hrest { t with launches := a } rfl hc

/-- The requests of a run change the launches alone, and no record of them; what they do depends on launches and contexts alone. -/
theorem Machine.State.growLanes_spec (s : State) (e : Issuer) (run : LaneMask) (asks : Nat → Nat) :
    SameRecords (s.growLanes e run asks).1.launches s.launches ∧
      ∀ t : State, t.launches = s.launches → t.contexts = s.contexts →
        t.growLanes e run asks = ({ t with launches := (s.growLanes e run asks).1.launches }, (s.growLanes e run asks).2) := by
  obtain ⟨a, v, ha, h⟩ := foldl_growStep_spec e.w.launch asks (LaneMask.toList run) s []
  have hs : s.growLanes e run asks = ({ s with launches := a }, v) := h s rfl rfl
  rw [hs]
  exact ⟨ha, h⟩

/-- The lanes of a run: those below a lane of it, the lane, and those above. -/
theorem LaneMask.toList_split (run : LaneMask) (l : Nat) (hl : run.getLsbD l = true) :
    ∃ rest, LaneMask.toList run = LaneMask.toList (run &&& LaneMask.ofList (List.range l)) ++ l :: rest ∧ l ∉ rest := by
  have hlt : l < 64 := BitVec.lt_of_getLsbD hl
  have hbelow (k : Nat) : (run &&& LaneMask.ofList (List.range l)).getLsbD k = (run.getLsbD k && decide (k < l)) := by
    rw [BitVec.getLsbD_and, LaneMask.getLsbD_ofList _ (fun j hj => by have := List.mem_range.1 hj; omega)]
    simp
  have hrange : List.range 64 = List.range l ++ l :: (List.range (63 - l)).map (fun k => l + 1 + k) := by
    rw [show (64 : Nat) = (l + 1) + (63 - l) by omega, List.range_add, List.range_succ, List.append_assoc]
    simp
  refine ⟨((List.range (63 - l)).map (fun k => l + 1 + k)).filter (fun k => run.getLsbD k), ?_, ?_⟩
  · unfold LaneMask.toList
    rw [hrange, List.filter_append, List.filter_append, List.filter_cons_of_pos hl, List.filter_cons_of_neg (by simp [hbelow])]
    have hlow : (List.range l).filter (fun k => (run &&& LaneMask.ofList (List.range l)).getLsbD k) = (List.range l).filter (fun k => run.getLsbD k) :=
      List.filter_congr (fun k hk => by rw [hbelow, decide_eq_true (List.mem_range.1 hk), Bool.and_true])
    have hhigh : ((List.range (63 - l)).map (fun k => l + 1 + k)).filter (fun k => (run &&& LaneMask.ofList (List.range l)).getLsbD k) = [] := by
      rw [List.filter_eq_nil_iff]
      intro k hk
      obtain ⟨j, -, rfl⟩ := List.mem_map.1 hk
      rw [hbelow, decide_eq_false (by omega), Bool.and_false]
      exact Bool.false_ne_true
    rw [hlow, hhigh, List.append_nil]
  · intro hm
    obtain ⟨j, -, hj⟩ := List.mem_map.1 (List.mem_filter.1 hm).1
    omega

/-- Each lane's status is that of its request after the lanes below it (R381). -/
theorem Machine.State.growLanes_status (s : State) (e : Issuer) (run : LaneMask) (asks : Nat → Nat) (l : Nat) (hl : run.getLsbD l = true) :
    (s.growLanes e run asks).2.getD l [] =
      [BitVec.ofNat 32 ((s.growLanes e (run &&& LaneMask.ofList (List.range l)) asks).1.growBy e.w.launch (asks l)).2] := by
  obtain ⟨rest, hsplit, hrest⟩ := LaneMask.toList_split run l hl
  rw [s.growLanes_eq, hsplit, List.foldl_append, List.foldl_cons, Tab.getD, get_foldl_growStep _ _ _ _ _ hrest]
  show Option.getD (Tab.get (Tab.set _ l _) l) [] = _
  rw [Tab.get_set_self]
  rfl

/-! ### The instruction -/

theorem Machine.State.modFlow_launches (s : State) (f : Flow) (g : Wave → Wave) (a : Tab Launch) :
    { s.modFlow f g with launches := a } = ({ s with launches := a } : State).modFlow f g := by
  unfold State.modFlow
  rw [show ({ s with launches := a } : State).flow? f = s.flow? f from rfl]
  split
  · cases f <;> rfl
  · rfl

/-- On a core that no injection touches no word is bad (R470). -/
theorem Machine.State.badRead_sound {s : State} {e : Issuer} (h : ∀ c k, e.f = .wave c k → (s.core c).sound = true) : s.badRead e = none := by
  unfold State.badRead
  split
  · rfl
  · next c k hf =>
    have hsound := h c k hf
    unfold Core.sound at hsound
    rw [Bool.and_eq_true] at hsound
    exact if_pos hsound.1

/-- An instruction that nothing disturbs is undisturbed where only extents, counts and marks of launches differ. -/
theorem Ready.withLaunches {s : State} {i : Instr} {e : Issuer} (h : Ready s i e) {a : Tab Launch} (ha : SameRecords a s.launches) :
    Ready { s with launches := a } i e := by
  have hrank : ({ s with launches := a } : State).operandTrap e = s.operandTrap e := by
    unfold State.operandTrap State.rankBad
    simp only [ha.rank]
  refine ⟨h.issuer, ?_, ?_, h.resident, h.watches, h.sound, h.untraced, h.alone, h.run⟩
  · have hlegal := h.legal
    have hbad : ({ s with launches := a } : State).badRead e = none := State.badRead_sound h.sound
    unfold State.firstTrap at hlegal ⊢
    rw [hrank, hbad]
    rwa [State.badRead_sound h.sound] at hlegal
  · have hheld := h.free
    unfold State.held at hheld ⊢
    rwa [ha.interlocked]

/-- The fields of an issuing instruction are those of its specification, but for what a register instruction leaves out on a core. -/
theorem Machine.State.parts_of_issuer {s : State} {i : Instr} {e : Issuer} (h : s.issuer i = some e) : ∃ p, i.spec = some p ∧ e.p = partsFor s.cur i p := by
  unfold State.issuer at h
  split at h
  · next w p hw hp =>
    obtain ⟨c, -, rfl⟩ := Option.map_eq_some_iff.1 h
    exact ⟨p, hp, rfl⟩
  · cases h

/-- What a plan leaves depends on the state that its commit answers, and on the parts that follow the commit. -/
theorem Machine.State.finish_congr {s t : State} {e : Issuer} {p q : Plan} {run : LaneMask} (hcommit : p.commit run s = q.commit run t) (hlater : p.later = q.later)
    (hstay : p.stay = q.stay) (hlatch : p.latch.map (fun k => k run) = q.latch.map (fun k => k run)) (htarget : p.target = q.target) (hafter : p.after = q.after) :
    s.finish e p run = t.finish e q run := by
  unfold State.finish
  rw [hcommit, hlater, hstay, hlatch, htarget, hafter]

/-- The plan of `grow`, whose statuses are those that the issuing state gives. -/
def growPlan (s : State) (e : Issuer) (asks : Nat → Nat) : Plan where
  commit := fun run t => (t.growLanes e run asks).1.putWords e run (fun l => (t.growLanes e run asks).2.getD l [])
  latch := some (fun run => e.latch run (fun l => (s.growLanes e run asks).2.getD l []))

theorem finish_growPlan {s s' : State} {e : Issuer} {asks : Nat → Nat} {a : Tab Launch} {v : Tab (List Word)}
    (h : s'.growLanes e e.run asks = ({ s' with launches := a }, v)) (hv : (s.growLanes e e.run asks).2 = v) :
    s'.finish e (growPlan s e asks) e.run =
      ({ s' with launches := a } : State).finish e (resultPlan e none false (fun _ l => v.getD l []) (fun _ _ => {})) e.run := by
  refine State.finish_congr ?_ rfl rfl ?_ rfl rfl
  · show (s'.growLanes e e.run asks).1.putWords e e.run (fun l => (s'.growLanes e e.run asks).2.getD l []) = _
    rw [h]
    rfl
  · show some (e.latch e.run (fun l => (s.growLanes e e.run asks).2.getD l [])) = _
    rw [hv]
    rfl

theorem exec_grow (x : XArgs) (s : State) :
    Machine.exec (.grow x) s = perform (.grow x) (fun s e => .ok (growPlan s e (fun l => (lo32 (s.srcA e l)).toNat))) s := rfl

/-- An undisturbed `grow` serves its requests and writes their statuses, and nothing else (R381). -/
theorem grow_serves {s : State} {x : XArgs} {e : Issuer} (h : Ready s (.grow x) e) :
    let asks (l : Nat) : Nat := (lo32 (s.srcA e l)).toNat
    let asked := s.growLanes e e.run asks
    ∃ t, Machine.exec (.grow x) s = .next t ∧ Wrote s t e (fun l => asked.2.getD l []) ∧ Passed t e ∧ Raised t e {} ∧ t.launches = asked.1.launches ∧
      Untouched s { t with launches := s.launches } e (isDst e) := by
  intro asks asked
  obtain ⟨s', hexec, hs⟩ := h.perform_ok (fun s e => .ok (growPlan s e (fun l => (lo32 (s.srcA e l)).toNat))) _ rfl rfl rfl
  obtain ⟨hrec, hgrow⟩ := s.growLanes_spec e e.run asks
  obtain ⟨-, -, -, -, hO, -, -⟩ := h.gated s' hs
  have h0 := h.withLaunches hrec
  have hmajor : e.p.major ≠ 0x1E := by
    obtain ⟨p, hp, hep⟩ := State.parts_of_issuer h.issuer
    cases hp
    rw [hep]
    cases s.cur <;> exact (by decide : (0x10 : Nat) ≠ 0x1E)
  have hs0 : ({ s' with launches := asked.1.launches } : State) = { s with launches := asked.1.launches } ∨
      ({ s' with launches := asked.1.launches } : State) = ({ s with launches := asked.1.launches } : State).modFlow e.f (fun w => w.useExempt e.c e.run) := by
    rcases hs with rfl | rfl
    · exact .inl rfl
    · exact .inr (State.modFlow_launches s e.f _ _)
  have hfinish := finish_growPlan (hgrow s' hO.launches (congrArg State.contexts hO.rest :)) rfl
  obtain ⟨hwrote, hraised, -, hpassed, huntouched⟩ := h0.finish_result _ hs0 (fun hsc _ => h0.rank_ok hmajor hsc) none false (fun _ l => asked.2.getD l []) (fun _ _ => {})
  rw [← hfinish] at hwrote hraised hpassed huntouched
  have hlaunches : (s'.finish e (growPlan s e asks) e.run).launches = asked.1.launches := (congrArg State.launches huntouched.rest :)
  have hvar := hrec.varAt
  refine ⟨_, (exec_grow x s).trans hexec, ?_, hpassed, hraised, hlaunches, ?_⟩
  · unfold Wrote at hwrote ⊢
    rwa [hvar] at hwrote
  · have hback : SameRecords s.launches (s'.finish e (growPlan s e asks) e.run).launches := by rw [hlaunches]; exact hrec.symm
    refine ⟨(congrArg (fun u : State => { u with launches := s.launches }) huntouched.rest :), fun f y hy l hl => ?_, huntouched.flows, huntouched.wstat, huntouched.cores,
      huntouched.dies, huntouched.groups⟩
    rw [hback.varAt, huntouched.vars f y hy l hl, hvar]

/-! ### The statement -/

/-- An undisturbed instruction with a plan answers a next state. -/
theorem Ready.completes {s : State} {i : Instr} {e : Issuer} (h : Ready s i e) {plan : State → Issuer → Except Hold Plan} {pl : Plan} (hx : Machine.exec i s = perform i plan s)
    (hp : plan s e = .ok pl) (hpass : pl.pass = false) (hst : pl.st = none) : ∃ t, Machine.exec i s = .next t := by
  obtain ⟨s', hexec, -⟩ := h.perform_ok plan pl hp hpass hst
  exact ⟨_, hx.trans hexec⟩

/-- Settles O30: each of the four is its effect, and the one way in which an instruction leaves its clause (`finish_leaves`). -/
theorem exitTriggerYieldGrow : Obligations.ExitTriggerYieldGrow := by
  unfold Obligations.ExitTriggerYieldGrow
  refine ⟨?_, ?_, ?_, ?_, ?_, ?_, ?_, ?_, ?_, ?_, ?_⟩
  · exact fun o s e h => h.completes (exec_exit o s) rfl rfl rfl
  · exact fun o s e h => h.completes (exec_trigger o s) rfl rfl rfl
  · exact fun o s e h => h.completes (exec_yield o s) rfl rfl rfl
  · exact fun x s e h => h.completes (exec_grow x s) rfl rfl rfl
  · intro o s e h hlive
    obtain ⟨t, w, hexec, hft, hstill, hc, hgone, hV, hB, -⟩ := exit_leaves h
    have hl : w.live = e.w.live &&& ~~~e.run := (Wave.of_still hstill).2.2.1
    rw [State.tryEnd_live hft (by rw [hl]; exact hlive)] at hexec
    exact ⟨t, w, hexec, hft, hl, hc, hgone, hV, hB⟩
  · intro o s e c k v h hw hlive hflags hbusy hv hleft
    exact exit_ends_wave h hw hlive hflags hbusy hv hleft
  · intro o s e c g q h hg hq
    exact trigger_again h hg hq
  · intro o s e c g q r h hg hq hr ht hn hlt
    exact trigger_first h hg hq hr ht hn hlt
  · intro o s e h
    exact yield_marks h
  · intro x s e h
    obtain ⟨t, hexec, hwrote, hpassed, hraised, hlaunches, huntouched⟩ := grow_serves h
    exact ⟨t, hexec, hwrote, hpassed, hraised, hlaunches, huntouched, fun l hl => s.growLanes_status e e.run _ l hl⟩
  · intro s n add l hl alive wide grown
    have answers := State.growBy_answers add hl
    refine ⟨fun h3 => ?_, fun h3 h2 => ?_, fun h3 h2 h1 => ?_, fun h3 h2 hw hn => ?_⟩
    · rw [answers, if_pos (show s.alive l = false from h3)]
    · rw [answers, if_neg (ne_false_of_eq_true (show s.alive l = true from h3)), if_pos h2]
    · rw [answers, if_neg (ne_false_of_eq_true (show s.alive l = true from h3)), if_neg (ne_true_of_eq_false h2), if_pos (show l.wide = false ∨ 2 ^ 32 - 1 < l.grown add from h1)]
    · refine ⟨{ s with launches := s.launches.set n { l with outer := l.outer + add, count := l.grown add } }, ?_, rfl, Tab.get_set_self .., fun k hk => Tab.get_set_ne _ _ (Ne.symm hk)⟩
      rw [answers, if_neg (ne_false_of_eq_true (show s.alive l = true from h3)), if_neg (ne_true_of_eq_false h2), if_neg]
      rintro (h | h)
      · exact ne_true_of_eq_false h hw
      · exact absurd hn (Nat.not_le.2 h)

end Sys2Proof
end

