-- ==== Sys2Proof/Proofs/FetchedWord.lean ====
section
/-! Lemmas and proof: a word placed as the next fetch (R17, R76): the decoder reads a prefix of its words, and the next step issues what it reads. -/

namespace Sys2Proof

open Sys2Proof.Machine

/-! ### The decoder reads a prefix -/

/-- A reader of words takes a prefix, whatever words follow it. -/
def ReadsPrefix {α : Type} (f : List Word → Except DecodeError (α × List Word)) : Prop :=
  ∀ ws a rest, f ws = .ok (a, rest) → ∃ taken, ws = taken ++ rest ∧ ∀ after, f (taken ++ after) = .ok (a, after)

theorem ReadsPrefix.error {α : Type} (d : DecodeError) : ReadsPrefix (fun _ => (.error d : Except DecodeError (α × List Word))) :=
  fun _ _ _ h => nomatch h

/-- A reader that reads after another. -/
theorem ReadsPrefix.bind {α β : Type} {f : List Word → Except DecodeError (α × List Word)} {g : α × List Word → Except DecodeError (β × List Word)}
    (hf : ReadsPrefix f) (hg : ∀ a, ReadsPrefix (fun ws => g (a, ws))) : ReadsPrefix (fun ws => f ws >>= g) := by
  intro ws b rest h
  cases hfw : f ws with
  | error d =>
    have hbind : (.error d : Except DecodeError (α × List Word)) >>= g = .ok (b, rest) := hfw ▸ h
    cases hbind
  | ok p =>
    obtain ⟨a, mid⟩ := p
    obtain ⟨taken, rfl, hfirst⟩ := hf ws a mid hfw
    have hbind : (.ok (a, mid) : Except DecodeError (α × List Word)) >>= g = .ok (b, rest) := hfw ▸ h
    obtain ⟨taken', rfl, hsecond⟩ := hg a mid b rest hbind
    refine ⟨taken ++ taken', (List.append_assoc ..).symm, fun after => ?_⟩
    show f (taken ++ taken' ++ after) >>= g = .ok (b, after)
    rw [List.append_assoc, hfirst]
    exact hsecond after

/-- A reader that follows a value found without reading. -/
theorem ReadsPrefix.after {α β : Type} (v : Except DecodeError α) {g : α → List Word → Except DecodeError (β × List Word)} (hg : ∀ a, ReadsPrefix (g a)) :
    ReadsPrefix (fun ws => v >>= fun a => g a ws) := by
  cases v with
  | error d => exact ReadsPrefix.error d
  | ok a => exact hg a

/-- A reader that takes one word, and reads on by what it is. -/
theorem ReadsPrefix.word {α : Type} {f : List Word → Except DecodeError (α × List Word)} {g : Word → List Word → Except DecodeError (α × List Word)} {d : DecodeError}
    (hnil : f [] = .error d) (hcons : ∀ w ws, f (w :: ws) = g w ws) (hg : ∀ w, ReadsPrefix (g w)) : ReadsPrefix f := by
  intro ws a rest h
  cases ws with
  | nil =>
    rw [hnil] at h
    cases h
  | cons w ws =>
    obtain ⟨taken, rfl, hrest⟩ := hg w ws a rest (hcons w ws ▸ h)
    exact ⟨w :: taken, rfl, fun after => (hcons w _).trans (hrest after)⟩

theorem takeLit_readsPrefix (uses : Bool) : ReadsPrefix (takeLit uses) := by
  intro ws a rest h
  unfold takeLit at h ⊢
  cases uses with
  | false =>
    cases h
    exact ⟨[], rfl, fun _ => rfl⟩
  | true =>
    cases ws with
    | nil => cases h
    | cons l ws =>
      cases h
      exact ⟨[l], rfl, fun _ => rfl⟩

theorem settle_readsPrefix (i : Option Instr) : ReadsPrefix (settle i) := by
  intro ws a rest h
  unfold settle at h ⊢
  cases i with
  | none => cases h
  | some i =>
    dsimp only at h ⊢
    by_cases hwf : i.wf = true
    · rw [if_pos hwf] at h
      cases h
      exact ⟨[], rfl, fun _ => if_pos hwf⟩
    · rw [if_neg hwf] at h
      cases h

theorem decodeB_readsPrefix (w : Word) : ReadsPrefix (decodeB w) :=
  .after _ fun _ => .after _ fun _ => .bind (takeLit_readsPrefix _) fun _ => settle_readsPrefix _

theorem decodeU_readsPrefix (w : Word) : ReadsPrefix (decodeU w) :=
  .after _ fun _ => .bind (takeLit_readsPrefix _) fun _ => settle_readsPrefix _

theorem decodeCtl_readsPrefix (w : Word) : ReadsPrefix (decodeCtl w) := by
  unfold decodeCtl
  split
  · exact settle_readsPrefix _
  · exact ReadsPrefix.error _

theorem decodeX_readsPrefix (w e : Word) : ReadsPrefix (decodeX w e) := by
  unfold decodeX
  refine .after _ fun sa => ?_
  cases ((wMajor w).toNat == 0x0D && (eFn e).toNat == 0xB)
  · refine .after _ fun sb => .after _ fun sc => ?_
    cases flagOf (eFlag e)
    · exact .error _
    · exact .bind (takeLit_readsPrefix _) fun _ => settle_readsPrefix _
  · refine .after (.ok _) fun sb => .after _ fun sc => ?_
    cases flagOf (eFlag e)
    · exact .error _
    · exact .bind (takeLit_readsPrefix _) fun _ => settle_readsPrefix _

theorem decodeWords_cons_readsPrefix (w : Word) : ReadsPrefix (fun ws => decodeWords (w :: ws)) := by
  unfold decodeWords
  dsimp only
  cases formOf (wMajor w).toNat (wS w) with
  | none => exact .error _
  | some form =>
    cases form with
    | b => exact decodeB_readsPrefix w
    | u => exact decodeU_readsPrefix w
    | ctl => exact decodeCtl_readsPrefix w
    | hint => exact settle_readsPrefix _
    | x => exact .word rfl (fun _ _ => rfl) (decodeX_readsPrefix w)
    | xfn _ => exact .word rfl (fun _ _ => rfl) (decodeX_readsPrefix w)

/-- What the decoder reads are the words that it takes, and it reads the same from them whatever follows. -/
theorem decodeWords_readsPrefix : ReadsPrefix decodeWords :=
  .word rfl (fun _ _ => rfl) decodeWords_cons_readsPrefix

/-- The words placed for an instruction decode to it. -/
theorem decodeWords_fetchWords {nbits w : Nat} {i : Instr} (h : decodeTableWord nbits w = some i) : decodeWords (fetchWords nbits w) = .ok (i, []) := by
  unfold decodeTableWord decode at h
  unfold fetchWords
  dsimp only at h ⊢
  cases hd : decodeWords (wordsOfBytes (bytesOfNat 12 (w % 2 ^ nbits))) with
  | error d =>
    rw [hd] at h
    cases h
  | ok p =>
    obtain ⟨j, rest⟩ := p
    rw [hd] at h
    cases h
    obtain ⟨taken, hws, hread⟩ := decodeWords_readsPrefix _ _ _ hd
    dsimp only
    rw [hws, List.length_append, Nat.add_sub_cancel, List.take_left]
    exact List.append_nil taken ▸ hread []

/-! ### The placed wave issues -/

/-- A flow that may issue, and with no fault due, issues the next instruction of its clause. -/
theorem Machine.State.issueFlow_next {s : State} {f : Flow} {w : Wave} {c : Clause} {i : Instr} (hw : s.flow? f = some w) (hcur : s.cur = f) (hdue : w.dueImprecise = none)
    (hgo : s.issuable f = true) (hc : w.clause = some c) (hi : c.next = .ok i) : s.issueFlow f = .run i ((s.issued f).tagIssue f) := by
  unfold State.issueFlow
  subst hcur
  simp [hw, hdue, hgo, hc, hi]

/-- The clause of placed words: a mixed one, all of its wave its run. -/
def placedClause (ws : List Word) : Clause :=
  { addr := 0x1000, header := BitVec.ofNat 32 (ws.length * 2 ^ 28 + 6 * 2 ^ 25), words := ws, pos := 1, run := BitVec.allOnes 64 }

/-- The wave of placed words. -/
def placedWave (ws : List Word) : Wave := { Wave.plain with unissued := false, clause := some (placedClause ws) }

/-- The core of placed words. -/
def placedCore (ws : List Word) : Core :=
  { Core.reset with context := some 1, asid := 1, waves := [(0, placedWave ws)], groups := [(0, Group.plain)], active := [0], pending := [] }

/-- The state of placed words. -/
def placedState (ws : List Word) : State :=
  { State.reset with contexts := [(1, Context.plain)], launches := [(1, Launch.plain)], cores := [(0, placedCore ws)], cur := .wave 0 0 }

theorem withFetchWord_eq (nbits w : Nat) : State.reset.withFetchWord nbits w = placedState (fetchWords nbits w) := by
  unfold State.withFetchWord State.placeInstr
  dsimp only
  generalize fetchWords nbits w = ws
  rfl

section Placed

variable {ws : List Word} {i : Instr}

theorem placed_wave : (placedState ws).flow? (.wave 0 0) = some (placedWave ws) := rfl

theorem placedWave_clause : (placedWave ws).clause = some (placedClause ws) := rfl

theorem placed_standing : ((placedWave ws).standingLanes != 0) = true := by
  show (Wave.plain.standingLanes != 0) = true
  decide

/-- The placed wave's module is powered, no stop, swap or fence holds its core, and it stands in the active set with its group and launch running. -/
theorem placed_runs : (placedState ws).runs (.wave 0 0) = true := by
  show (true && !false && (true && !false && !false && !false && true && (placedWave ws).standingLanes != 0)) = true
  rw [placed_standing]
  rfl

theorem placed_issuable : (placedState ws).issuable (.wave 0 0) = true := by
  unfold State.issuable
  rw [placed_runs, placed_wave]
  rfl

/-- The placed wave is already the one that issued last. -/
theorem placed_issued : (placedState ws).issued (.wave 0 0) = placedState ws := rfl

/-- No instruction is tagged, since the sampling is off (R460). -/
theorem placed_trail : (placedState ws).tagIssue (.wave 0 0) = placedState ws := by
  unfold State.tagIssue
  rw [placed_wave]
  have hoff : (placedCore ws).trailCtl.getLsbD 63 = false := (by decide : Core.reset.trailCtl.getLsbD 63 = false)
  refine if_pos ?_
  show (!(placedCore ws).trailCtl.getLsbD 63 || _ || _) = true
  rw [hoff]
  rfl

/-- The scheduler has nothing to do before it issues: the file has room, the matrix state is no shadow's, and no wave is pending. -/
theorem placed_chore : (placedState ws).chore 0 0 = none := by
  unfold State.chore
  have hoct : ¬ (placedState ws).octetRoom 0 < (placedState ws).splitOctets 0 := by
    show ¬ max 128 _ < 0
    omega
  have hspill : ((placedState ws).core 0).spillMatrix = none := rfl
  have hpending : (placedState ws).readyPending 0 0 = [] := rfl
  simp only [if_neg hoct, hspill, hpending, List.head?_nil, ite_self]
  cases List.find? ((placedState ws).mustSwap 0) (((placedState ws).core 0).activeOf 0) <;> rfl

theorem placedClause_next (h : decodeWords ws = .ok (i, [])) : (placedClause ws).next = .ok i := by
  show (decodeWords ws).map Prod.fst = _
  rw [h]
  rfl

theorem placed_issuer {e : Issuer} (h : (placedState ws).issuer i = some e) : e.w = placedWave ws := by
  obtain ⟨hcur, hflow, -, -⟩ := State.of_issuer h
  rw [← hcur] at hflow
  exact (Option.some.inj hflow).symm

/-- Nothing holds a placed instruction: no flag is counted and no result is out. -/
theorem placed_held {e : Issuer} (h : (placedState ws).issuer i = some e) : (placedState ws).held e = false := by
  have hflags (k : Nat) : Tab.getD e.w.flags k 0 = 0 := by rw [placed_issuer h]; rfl
  have hout : e.w.outstanding = [] := by rw [placed_issuer h]; rfl
  unfold State.held
  rw [hout]
  simp [hflags]

/-- The matrix engine of the placed wave's core is idle, and no instruction waits for it. -/
theorem placed_mayHold : (placedCore ws).matrix.mayHold i = false := by
  unfold Matrix.mayHold
  split <;> rfl

theorem flagsClear_placedWave (mask : Nat) : (placedWave ws).flagsClear mask = true := by
  unfold Wave.flagsClear
  have hflags (k : Nat) : (placedWave ws).flags.getD k 0 = 0 := rfl
  simp [hflags]

/-- A placed instruction does not wait (R97, R205, R383, R405). -/
theorem placed_waits (h : decodeWords ws = .ok (i, [])) : (placedState ws).waits (.wave 0 0) = false := by
  unfold State.waits
  rw [placed_wave]
  dsimp only
  rw [placedWave_clause]
  dsimp only
  rw [placedClause_next h]
  dsimp only
  rw [Bool.and_eq_false_iff, Option.any_eq_false]
  refine .inr fun e he => ?_
  rw [placed_held he, Bool.false_or]
  split
  · rw [flagsClear_placedWave]
    rfl
  · exact Bool.and_false _
  · next hf =>
    cases hf
    exact placed_mayHold
  · rfl

theorem placed_waveReady (h : decodeWords ws = .ok (i, [])) : (placedState ws).waveReady 0 0 = true := by
  unfold State.waveReady
  show (true && (placedWave ws).standingLanes != 0 && (_ || (true && (true || _) && !(placedState ws).waits (.wave 0 0)))) = true
  rw [placed_standing, placed_waits h]
  simp

theorem placed_activeOf : ((placedState ws).core 0).activeOf 0 = [0] := rfl

theorem placed_canIssue (h : decodeWords ws = .ok (i, [])) : (placedState ws).canIssue 0 0 = true := by
  unfold State.canIssue
  rw [placed_runs, placed_waveReady h, Bool.and_self]

/-- DIST of a clause's first instruction does not hold it (R94). -/
theorem placed_keeps : (placedState ws).keeps 0 0 = true := by
  have hdist : (placedState ws).distHolds (placedWave ws) (placedClause ws) = false := by
    unfold State.distHolds
    rw [show ((placedClause ws).pos != 1) = false from rfl, Bool.and_false, Bool.false_and]
  have hget : ((placedState ws).core 0).waves.get 0 = some (placedWave ws) := rfl
  unfold State.keeps
  rw [hget, Option.any_some, placedWave_clause, Option.any_some, hdist, Bool.not_false]

theorem placed_pick (h : decodeWords ws = .ok (i, [])) : (placedState ws).pick 0 0 = some 0 := by
  unfold State.pick
  rw [placed_activeOf]
  dsimp only [List.getLast?_singleton]
  rw [placed_keeps, placed_canIssue h, Bool.and_self, if_pos rfl]

theorem placed_issueFlow (h : decodeWords ws = .ok (i, [])) : (placedState ws).issueFlow (.wave 0 0) = .run i (placedState ws) := by
  rw [State.issueFlow_next placed_wave rfl rfl placed_issuable placedWave_clause (placedClause_next h), placed_issued, placed_trail]

theorem placed_choose (h : decodeWords ws = .ok (i, [])) : (placedState ws).choose = .run i (placedState ws) := by
  have hnote : (placedState ws).noteReady = placedState ws := rfl
  unfold State.choose
  dsimp only
  rw [hnote]
  show ((placedState ws).schedule 0 0).getD _ = _
  unfold State.schedule
  rw [placed_chore, placed_pick h]
  exact placed_issueFlow h

end Placed

/-- Settles O5: the decoder reads from the placed words what it read from the table's word, and the placed wave is the one that issues. -/
theorem fetchedWordRuns : Obligations.FetchedWordRuns := by
  unfold Obligations.FetchedWordRuns
  intro nbits w i h
  rw [withFetchWord_eq]
  unfold Machine.step
  rw [placed_choose (decodeWords_fetchWords h)]

end Sys2Proof
end

