-- ==== Sys2Proof/Proofs/Effect.lean ====
section
/-! Lemmas: an undisturbed instruction that changes its own flow's variables, with what it leaves of the record and of the groups (R17, R18, R53, R289, R290). -/

namespace Sys2Proof

open Sys2Proof.Machine

/-- What does not look at the marks of captures reads alike in every group. -/
theorem Machine.OnlyVars.group_proj {s t : State} (h : OnlyVars s t) {α : Type} (p : Group → α) (hp : ∀ q, p q.still = p q) (c g : Nat) :
    (t.group? c g).map p = (s.group? c g).map p := by
  have := congrArg (Option.map p) (h.groups c g)
  rwa [Option.map_map, Option.map_map, show p ∘ Group.still = p from funext hp] at this

/-! ### Effects on the issuing flow's variables -/

/-- An instruction's effect on its own flow: from `s` to `u` nothing has changed but what `OnlyVars` names, no other flow's record has, and the issuing flow, with the
record `w`, still stands in its clause with its WSTAT. -/
structure Effect (s u : State) (e : Issuer) (w : Wave) : Prop where
  only : OnlyVars s u
  flow : u.flow? e.f = some w
  clause : w.clause = some e.c
  wstat : w.wstat = e.w.wstat
  still : w.still = e.w.still
  others : ∀ f, f ≠ e.f → u.flow? f = s.flow? f

/-- Watches and checkers leave an effect that changes no variable (R456). -/
theorem Ready.effect_gated {s : State} {i : Instr} {e : Issuer} (h : Ready s i e) {s' : State} (hs : s' = s ∨ s' = s.modFlow e.f (fun w => w.useExempt e.c e.run)) :
    ∃ w : Wave, Effect s s' e w ∧ w.Alike e.w := by
  obtain ⟨-, -, hc, -⟩ := s.of_issuer h.issuer
  obtain ⟨w, ha, hcl, hf, hO, -, hN⟩ := h.gated s' hs
  exact ⟨w, ⟨hO, hf, hcl.trans hc, ha.wstat, ha.still, hN⟩, ha⟩

namespace Effect

variable {s u : State} {e : Issuer} {w v : Wave}

/-- A record put back with the same clause and WSTAT, and alike in all that `still` keeps. -/
theorem setFlow (h : Effect s u e w) (hc : v.clause = w.clause) (hw : v.wstat = w.wstat) (hs : v.still = w.still) : Effect s (u.setFlow e.f v) e v :=
  ⟨h.only.trans (OnlyVars.setFlow u e.f w v h.flow hs), u.flow?_setFlow_self e.f v, hc.trans h.clause, hw.trans h.wstat, hs.trans h.still,
    fun f hne => (u.flow?_setFlow_ne v (Ne.symm hne)).trans (h.others f hne)⟩

/-- The marks of pending captures. -/
theorem noteWrite (h : Effect s u e w) (x : Nat) : Effect s (u.noteWrite e.f x) e w :=
  ⟨h.only.trans (OnlyVars.noteWrite u e.f x), (u.flow?_noteWrite e.f x e.f).trans h.flow, h.clause, h.wstat, h.still,
    fun f hne => (u.flow?_noteWrite e.f x f).trans (h.others f hne)⟩

/-- A change of a group's captures. -/
theorem modGroup (h : Effect s u e w) (c g : Nat) (p : Group → Group) (hp : ∀ q, (p q).still = q.still) : Effect s (u.modGroup c g p) e w :=
  ⟨h.only.trans (OnlyVars.modGroup u c g p hp), (u.flow?_modGroup c g p e.f).trans h.flow, h.clause, h.wstat, h.still,
    fun f hne => (u.flow?_modGroup c g p f).trans (h.others f hne)⟩

/-! What the issuing flow reads after an effect depends on its record alone. -/

theorem groupOf {α : Type} (h : Effect s u e w) (p : Group → α) (hp : ∀ q, p q.still = p q) :
    (u.groupOf e.f).map (fun x => p x.2.2) = (s.groupOf e.f).map (fun x => p x.2.2) := by
  have hflow := h.only.flows e.f
  rw [h.flow] at hflow
  obtain ⟨v, hv, hstill⟩ := Option.map_eq_some_iff.1 hflow.symm
  have hgroup : v.group = w.group := (Wave.of_still hstill).2.1
  have hw := h.flow
  cases hf : e.f with
  | steward d k => rfl
  | wave c k =>
    rw [hf] at hv hw
    have hs : (s.core c).waves.get k = some v := hv
    have hu : (u.core c).waves.get k = some w := hw
    unfold State.groupOf
    simp only [hs, hu, hgroup, Option.map_map]
    exact h.only.group_proj p hp c w.group

theorem groupHome (h : Effect s u e w) (x : Nat) : u.groupHome e.f x = s.groupHome e.f x :=
  congrArg (fun o => o.getD 0) (h.groupOf (fun q => q.home.getD x 0) (fun _ => rfl))

theorem rank (h : Effect s u e w) (v : Wave) (x : Nat) : u.rank e.f v x = s.rank e.f v x := State.rank_of_state s u e.f v x h.only.launches

theorem readVar (h : Effect s u e w) (v : Wave) (x l : Nat) : u.readVar e.f v x l = s.readVar e.f v x l :=
  State.readVar_of_state s u e.f v x l h.only.launches (h.groupHome x)

theorem varAt (h : Effect s u e w) (x l : Nat) : varAt u e.f x l = some (s.readVar e.f w x l) := by
  unfold Sys2Proof.varAt
  rw [h.flow, Option.map_some, h.readVar]

theorem varAt_ne (h : Effect s u e w) {f : Flow} (hf : f ≠ e.f) (x l : Nat) : Sys2Proof.varAt u f x l = Sys2Proof.varAt s f x l :=
  varAt_of_flow (h.others f hf) (h.only.group_proj Group.home (fun _ => rfl)) h.only.launches x l

theorem special (h : Effect s u e w) (v : Wave) (y : Special) (l : Nat) : u.special e.f v y l = s.special e.f v y l := by
  have hindex := congrArg (fun o => o.getD 0) (h.groupOf Group.index (fun _ => rfl))
  have hlaunch : u.launchOf v = s.launchOf v := by unfold State.launchOf; rw [h.only.launches]
  have hseq (c : Nat) : (u.core c).matrix.seq = (s.core c).matrix.seq := (congrArg (fun q : Core => q.matrix.seq) (h.only.cores c) :)
  unfold State.special
  simp only [hindex, hlaunch, hseq]

/-- The sources of the instruction read the same after an effect: the issuer's record is the one with which it issued. -/
theorem src (h : Effect s u e w) (r : Role) (x : Src) (l : Nat) : u.src e r x l = s.src e r x l := by
  unfold State.src State.readPair
  simp only [h.readVar, h.special]

/-! The writes of variables. -/

/-- A lane-class write of one variable. -/
theorem writeVar (h : Effect s u e w) (x : Nat) (run : LaneMask) (val : Nat → Word) :
    Effect s (u.writeVar e.f false x run val) e (w.writeRun (s.rank e.f w x) (s.groupHome e.f x) x run val) := by
  have hwritten : u.written e.f w false x run val = w.writeRun (s.rank e.f w x) (s.groupHome e.f x) x run val := by
    rw [← h.rank w x, ← h.groupHome x]; rfl
  refine ⟨h.only.trans (OnlyVars.writeVar u e.f false x run val), ?_, ?_, ?_, ?_,
    fun f hne => (u.flow?_writeVar_ne e.f f (Ne.symm hne) false x run val).trans (h.others f hne)⟩
  · rw [u.flow?_writeVar e.f w h.flow, hwritten]
  · rw [Wave.writeRun_eq]
    exact h.clause
  · rw [Wave.writeRun_wstat, h.wstat]
  · rw [Wave.writeRun_still, h.still]

end Effect

/-- The fields of an instruction that names no register are those of its specification. -/
theorem Ready.parts {s : State} {i : Instr} {e : Issuer} (h : Ready s i e) {p : OpSpec} (hp : i.spec = some p) (hn : namesRegister i = false) : e.p = p := by
  obtain ⟨q, hq, he⟩ := State.parts_of_issuer h.issuer
  rw [hp, Option.some.injEq] at hq
  rw [he, ← hq]
  unfold partsFor
  cases s.cur with
  | steward d k => rfl
  | wave c k => rw [hn]; rfl

/-! ### Leaving, with the record's copies and the groups -/

/-- Behind the effect of an undisturbed instruction come the ages of its core's octets and its leaving, and nothing else. -/
theorem Effect.finish_eq {s s' u : State} {e : Issuer} {w : Wave} (h : Effect s u e w) (ht : e.w.traced = false) (hsound : ∀ c k, e.f = .wave c k → (s.core c).sound = true)
    (hd : s.dstep = none) {probe : Probe} {commit : LaneMask → State → State} {latch : LaneMask → Latch} (hu : commit e.run s' = u) :
    s'.finish e { probe, commit, latch := some latch } e.run = (u.settle e.f).retire e (some (latch e.run)) none := by
  have hO := h.only.trans (OnlyVars.settle u e.f)
  have hflow : (u.settle e.f).flow? e.f = some w := (u.flow?_settle e.f e.f).trans h.flow
  have harr : (u.settle e.f).arraysWritten e e.run false = u.settle e.f :=
    State.arraysWritten_sound _ e e.run false (fun c k hw => (hO.sound c).trans (hsound c k hw))
  obtain ⟨hO', -⟩ := (u.settle e.f).retire_spec e (some (latch e.run)) none w hflow h.clause ((Wave.of_still h.still).2.2.2.1.trans ht)
  unfold State.finish
  simp only [hu, harr, Bool.false_eq_true, if_false, Option.map_some, id]
  unfold State.afterStep
  rw [(hO.trans hO').dstep, hd]

theorem Machine.State.group?_settle (s : State) (f : Flow) (c g : Nat) : (s.settle f).group? c g = s.group? c g := by
  unfold State.settle
  split
  · next c' _ =>
    unfold State.group?
    rw [s.core_modCore]
    split
    · rfl
    · rfl
  · rfl

/-- Leaving an instruction changes no copy of its flow's variables, and no group. -/
theorem Machine.State.retire_keeps (s : State) (e : Issuer) (k : Option Latch) (target : Option (Nat → Nat)) (w : Wave) (hf : s.flow? e.f = some w)
    (hc : w.clause = some e.c) (ht : w.traced = false) :
    ((s.retire e k target).flow? e.f).map (fun v => (v.copies, v.laneCopies)) = some (w.copies, w.laneCopies) ∧
      ∀ c g, (s.retire e k target).group? c g = s.group? c g := by
  obtain ⟨x, hx⟩ : ∃ x, w.pushLatch e.i k = { w with latches := x } := ⟨_, w.pushLatch_eq e.i k⟩
  have hpushed : (s.modFlow e.f (fun w => { w.pushLatch e.i k with park := none })).flow? e.f = some { w with latches := x, park := none } := by
    rw [State.flow?_modFlow_self, hf, Option.map_some, hx]
  have hgroup (c g : Nat) : (s.modFlow e.f (fun w => { w.pushLatch e.i k with park := none })).group? c g = s.group? c g := s.group?_modFlow e.f _ c g
  unfold State.retire
  simp only [hpushed, Option.bind_some, hc]
  split
  · unfold State.endClause
    simp only [hpushed, ht, Bool.false_eq_true, if_false]
    split <;> exact ⟨by rw [State.flow?_modFlow_self, hpushed]; rfl, fun c g => (State.group?_modFlow ..).trans (hgroup c g)⟩
  · exact ⟨by rw [State.flow?_modFlow_self, hpushed]; rfl, fun c g => (State.group?_modFlow ..).trans (hgroup c g)⟩

/-- What an undisturbed instruction leaves behind its effect `u`, with record `w`: the flow stands behind the instruction with its latch entry, its variables read by the record of
the effect, and the groups are those of the effect. -/
structure Leaves (s u t : State) (e : Issuer) (w : Wave) (k : Latch) : Prop where
  only : OnlyVars s t
  vars : ∀ x l, varAt t e.f x l = some (s.readVar e.f w x l)
  varsApart : ∀ f, f ≠ e.f → ∀ x l, varAt t f x l = varAt s f x l
  others : ∀ f, f ≠ e.f → t.flow? f = s.flow? f
  passed : Passed t e
  raised : Raised t e {}
  latched : Latched t e k
  flow : ∃ v, t.flow? e.f = some v ∧ v.still = e.w.still ∧ v.copies = w.copies ∧ v.laneCopies = w.laneCopies
  groups : ∀ c g, t.group? c g = u.group? c g

/-- A variable of the issuing flow reads by the record with which it issues. -/
theorem Ready.varAt {s : State} {i : Instr} {e : Issuer} (h : Ready s i e) (x l : Nat) : varAt s e.f x l = some (s.readVar e.f e.w x l) := by
  obtain ⟨-, hf, -, -⟩ := s.of_issuer h.issuer
  unfold Sys2Proof.varAt
  rw [hf, Option.map_some]

/-- An instruction that leaves has touched nothing but variables of its own flow that its effect's record reads anew. -/
theorem Leaves.untouched {s u t : State} {i : Instr} {e : Issuer} {w : Wave} {k : Latch} {dst : Flow → Nat → Prop} (h : Leaves s u t e w k) (hready : Ready s i e)
    (hv : ∀ x, ¬dst e.f x → ∀ l < 64, s.readVar e.f w x l = s.readVar e.f e.w x l) : Untouched s t e dst := by
  refine Untouched.of_onlyVars h.only (fun f x hne l hl => ?_) (fun f hne => by rw [h.others f hne])
  by_cases hf : f = e.f
  · subst hf
    rw [h.vars, hready.varAt, hv x hne l hl]
  · exact h.varsApart f hf x l

/-- Behind an effect come the ages of its core's octets (R40) and the leaving. -/
theorem Effect.leaves {s u : State} {e : Issuer} {w : Wave} (h : Effect s u e w) (ht : e.w.traced = false) (k : Latch) :
    Leaves s u ((u.settle e.f).retire e (some k) none) e w k := by
  have hflow : (u.settle e.f).flow? e.f = some w := (u.flow?_settle e.f e.f).trans h.flow
  obtain ⟨-, -, hlive, htraced, hhandler, hhalted, -⟩ := Wave.of_still h.still
  obtain ⟨hO, hV, hN, v, hv, hws, hl, hplace⟩ := (u.settle e.f).retire_spec e (some k) none w hflow h.clause (htraced.trans ht)
  obtain ⟨hcopies, hgroups⟩ := (u.settle e.f).retire_keeps e (some k) none w hflow h.clause (htraced.trans ht)
  have hmovers : w.movers e.c = e.w.movers e.c := by unfold Wave.movers; rw [hlive, hhalted]
  rw [hhandler, hmovers] at hplace
  refine ⟨h.only.trans ((OnlyVars.settle u e.f).trans hO), fun x l => ?_, fun f hne x l => ?_,
    fun f hne => (hN f hne).trans ((u.flow?_settle e.f f).trans (h.others f hne)), ⟨v, hv, hplace⟩, ⟨v, hv, ?_⟩, ⟨v, hv, ?_⟩, ⟨v, hv, ?_, ?_⟩,
    fun c g => (hgroups c g).trans (u.group?_settle e.f c g)⟩
  · rw [hV, varAt_settle, h.varAt]
  · rw [hV, varAt_settle, h.varAt_ne hne]
  · rw [hws, h.wstat, Wstat.raise_none]
  · rw [hl]
    exact w.head_pushLatch e.i k
  · have hstill := hO.flows e.f
    rw [hv, hflow] at hstill
    exact (Option.some.inj hstill).trans h.still
  · rw [hv, Option.map_some, Option.some.injEq, Prod.mk.injEq] at hcopies
    exact hcopies

/-- An undisturbed instruction whose plan is an effect on its own flow and a latch entry has that effect, and leaves (R17, R18, R53, R289). The effect starts from a state that is
the issuing one but for exemptions used (R456), with a record alike. -/
theorem Ready.leaves {s : State} {i : Instr} {e : Issuer} (h : Ready s i e) {plan : State → Issuer → Except Hold Plan} {probe : Probe}
    {commit : LaneMask → State → State} {latch : LaneMask → Latch} (hp : plan s e = .ok { probe, commit, latch := some latch })
    {p : State → Wave → Prop} (heffect : ∀ s' w, Effect s s' e w → w.Alike e.w → (∀ c g, s'.group? c g = s.group? c g) →
      ∃ v, Effect s (commit e.run s') e v ∧ p (commit e.run s') v) :
    ∃ t u v, perform i plan s = .next t ∧ p u v ∧ Leaves s u t e v (latch e.run) := by
  obtain ⟨s', hexec, hs⟩ := h.perform_ok plan _ hp rfl rfl
  obtain ⟨w, hE, ha⟩ := h.effect_gated hs
  obtain ⟨v, hE', hp'⟩ := heffect s' w hE ha (group?_gated hs)
  rw [hE'.finish_eq h.untraced h.sound h.alone rfl] at hexec
  exact ⟨_, _, v, hexec, hp', hE'.leaves h.untraced _⟩

end Sys2Proof
end

