-- ==== Sys2Proof/Proofs/RanksAndLanes.lean ====
section
/-! Lemmas and proof: the rank queries and the handler's reach into single lanes (R40, R44, R47, R369, R374). -/

namespace Sys2Proof

open Sys2Proof.Machine

/-! ### The write of one lane (R44, R374) -/

/-- A write of one lane is a change of slots, copies, lane copies and octets. -/
theorem Machine.Wave.writeOne_eq (w : Wave) (r : Rank) (home : Word) (x l : Nat) (v : Word) :
    w.writeOne r home x l v = { w with
      slots := (w.writeOne r home x l v).slots, copies := (w.writeOne r home x l v).copies, laneCopies := (w.writeOne r home x l v).laneCopies,
      octets := (w.writeOne r home x l v).octets, overflowed := (w.writeOne r home x l v).overflowed } := by
  cases r with
  | lane => rfl
  | wave => rfl
  | group =>
    unfold Wave.writeOne
    rw [if_pos rfl, Wave.ensureCopy_eq]
    rfl

/-- Of the variable, the lane written reads the value, and every other lane as before. -/
theorem Machine.State.readVar_writeOne_self (s : State) (f : Flow) (w : Wave) (x l m : Nat) (v : Word) :
    s.readVar f (w.writeOne (s.rank f w x) (s.groupHome f x) x l v) x m = if l = m then v else s.readVar f w x m := by
  have hkey : 64 * x + l = 64 * x + m ↔ l = m := by omega
  unfold State.readVar
  rw [s.rank_eq f (w.writeOne (s.rank f w x) (s.groupHome f x) x l v) w x (by rw [Wave.writeOne_eq])]
  cases hr : s.rank f w x with
  | lane => simp only [Wave.writeOne, Tab.getD_set, hkey]
  | wave =>
    simp only [Wave.writeOne, Wave.setLane, Wave.fixOctets_laneCopies, Wave.fixOctets_copies, Tab.get_set, hkey, reduceCtorEq, if_false]
    by_cases hlm : l = m
    · rw [if_pos hlm, if_pos hlm]
    · rw [if_neg hlm, if_neg hlm]
  | group =>
    simp only [Wave.writeOne, if_true]
    rw [Wave.ensureCopy_eq]
    simp only [Wave.setLane, Wave.fixOctets_laneCopies, Wave.fixOctets_copies, Tab.get_set, hkey, Wave.get_ensureCopy, if_true]
    by_cases hlm : l = m
    · rw [if_pos hlm, if_pos hlm]
    · rw [if_neg hlm, if_neg hlm]
      cases w.copies.get x <;> rfl

/-- Other variables of the record read as before. -/
theorem Machine.Wave.writeOne_other (w : Wave) (r : Rank) (home : Word) (x l : Nat) (v : Word) (y m : Nat) (hl : l < 64) (hm : m < 64) (h : x ≠ y) :
    (w.writeOne r home x l v).sameVar w y m := by
  have hkey : 64 * x + l ≠ 64 * y + m := fun he => h (slotKey_inj hl hm he).1
  cases r with
  | lane => exact ⟨rfl, Tab.get_set_ne _ _ hkey, rfl, rfl⟩
  | wave => exact ⟨rfl, rfl, Tab.get_set_ne _ _ hkey, rfl⟩
  | group =>
    unfold Wave.writeOne
    rw [if_pos rfl, Wave.ensureCopy_eq]
    exact ⟨rfl, rfl, Tab.get_set_ne _ _ hkey, (w.get_ensureCopy x home y).trans (if_neg h)⟩

/-- The lane written reads the value, and every other lane and variable as before. -/
theorem Machine.State.readVar_writeOne (s : State) (f : Flow) (w : Wave) (x l : Nat) (v : Word) (hl : l < 64) (y m : Nat) (hm : m < 64) :
    s.readVar f (w.writeOne (s.rank f w x) (s.groupHome f x) x l v) y m = if y = x ∧ l = m then v else s.readVar f w y m := by
  by_cases hy : y = x
  · subst hy
    rw [s.readVar_writeOne_self]
    simp only [true_and]
  · rw [s.readVar_of_same f _ w y m (w.writeOne_other _ _ x l v y m hl hm (Ne.symm hy)), if_neg (fun h => hy h.1)]

theorem Effect.writeLane {s u : State} {e : Issuer} {w : Wave} (h : Effect s u e w) (x l : Nat) (v : Word) :
    Effect s (u.writeLane e.f x l v) e (w.writeOne (s.rank e.f w x) (s.groupHome e.f x) x l v) := by
  rw [← h.rank w x, ← h.groupHome x]
  have hset : Effect s (u.setFlow e.f (w.writeOne (u.rank e.f w x) (u.groupHome e.f x) x l v)) e (w.writeOne (u.rank e.f w x) (u.groupHome e.f x) x l v) := by
    refine h.setFlow ?_ ?_ ?_ <;> rw [Wave.writeOne_eq]
    rfl
  unfold State.writeLane
  simp only [h.flow]
  split
  · exact hset.noteWrite x
  · exact hset

/-! ### `rkq` and `rkhome` (R47, R369) -/

theorem exec_rkq (x : XArgs) (s : State) : Machine.exec (.rkq x) s =
    perform (.rkq x) (fun s e => .ok (resultPlan e none false (fun _ _ => wordsOf (s.splitMask e (varOf x.sa))) (fun _ _ => {}))) s := rfl

theorem exec_rkhome (x : XArgs) (s : State) : Machine.exec (.rkhome x) s =
    perform (.rkhome x) (fun s e => .ok (resultPlan e none false (fun _ l => [s.homeCopy e (varOf x.sa) l]) (fun _ _ => {}))) s := rfl

/-- An undisturbed `rkq` puts the split mask (R47, R369). -/
theorem rkq_gives (x : XArgs) : Gives (.rkq x) (fun s e _ => wordsOf (s.splitMask e (varOf x.sa))) (fun _ _ => {}) :=
  gives_of_plan (.rkq x) _ (fun _ _ => none) false (fun s e _ _ => wordsOf (s.splitMask e (varOf x.sa))) (fun _ _ _ _ => {})
    (fun _ _ h hs _ => h.rank_ok (by rw [h.parts rfl rfl]; exact (by decide : (0x12 : Nat) ≠ 0x1E)) hs) (exec_rkq x) (fun _ _ => rfl)

/-- An undisturbed `rkhome` puts the home copy (R47, R369). -/
theorem rkhome_gives (x : XArgs) : Gives (.rkhome x) (fun s e l => [s.homeCopy e (varOf x.sa) l]) (fun _ _ => {}) :=
  gives_of_plan (.rkhome x) _ (fun _ _ => none) false (fun s e _ l => [s.homeCopy e (varOf x.sa) l]) (fun _ _ _ _ => {})
    (fun _ _ h hs _ => h.rank_ok (by rw [h.parts rfl rfl]; exact (by decide : (0x12 : Nat) ≠ 0x1E)) hs) (exec_rkhome x) (fun _ _ => rfl)

/-! ### `lread` and `lwrite` (R374) -/

/-- An undisturbed instruction whose own checks park it parks. -/
theorem Ready.perform_park {s : State} {i : Instr} {e : Issuer} (h : Ready s i e) (plan : State → Issuer → Except Hold Plan) {s' : State} {p : Park}
    (hp : plan s e = .error (.park s' p)) : perform i plan s = .next (s'.parkAt e p) := by
  unfold perform
  simp only [h.issuer, h.legal, h.free, Bool.false_eq_true, if_false, ite_self, Bool.and_false, h.resident, hp]

/-- What `lread` gives: the lane reached, of each variable named, where it is live. -/
def laneRead (x : XArgs) (s : State) (e : Issuer) : List Word :=
  if e.w.live.getLsbD (s.reached e) then
    [s.readVar e.f e.w (x.immBits 6 0) (s.reached e), if x.w64 then s.readVar e.f e.w (x.immBits 6 0 + 1) (s.reached e) else 0]
  else [0, 0]

/-- The plan of `lread`. -/
def lreadPlan (x : XArgs) (s : State) (e : Issuer) : Except Hold Plan :=
  match s.reachedOctet e (x.immBits 6 0) x.w64 with
  | some (v, k) => .error (.park s (.octet v k))
  | none => .ok (resultPlan e none false (fun _ _ => laneRead x s e) (fun _ _ => {}))

theorem exec_lread (x : XArgs) (s : State) : Machine.exec (.lread x) s = perform (.lread x) (lreadPlan x) s := rfl

/-- An undisturbed `lread` whose lane's octets are in the file puts what the lane reads (R374). -/
theorem lread_gives (x : XArgs) :
    GivesIf (.lread x) (fun s e => s.reachedOctet e (x.immBits 6 0) x.w64 = none) (fun s e _ => laneRead x s e) (fun _ _ => {}) := by
  intro s e h hnone
  have hplan : lreadPlan x s e = .ok (resultPlan e none false (fun _ _ => laneRead x s e) (fun _ _ => {})) := by unfold lreadPlan; rw [hnone]
  obtain ⟨s', hexec, hs⟩ := h.perform_ok (lreadPlan x) _ hplan rfl rfl
  have hmajor : e.p.major ≠ 0x1E := by rw [h.parts rfl rfl]; exact (by decide : (0x17 : Nat) ≠ 0x1E)
  exact ⟨_, (exec_lread x s).trans hexec, h.finish_result s' hs (fun hsc _ => h.rank_ok hmajor hsc) none false (fun _ _ => laneRead x s e) (fun _ _ => {})⟩

/-- The lane `l` of one variable, or of a pair, written with a value. -/
def Machine.State.writeLanePair (s : State) (f : Flow) (n l : Nat) (wide : Bool) (v : DWord) : State :=
  if wide then (s.writeLane f n l (lo32 v)).writeLane f (n + 1) l (hi32 v) else s.writeLane f n l (lo32 v)

/-- The write of a lane gives the halves of the value in the variables named, and changes nothing else that the flow reads. -/
theorem Effect.writeLanePair {s u : State} {e : Issuer} {w : Wave} (h : Effect s u e w) (n l : Nat) (wide : Bool) (v : DWord) (hl : l < 64) :
    ∃ w', Effect s (u.writeLanePair e.f n l wide v) e w' ∧ ∀ y m, m < 64 → s.readVar e.f w' y m =
      if y = n ∧ l = m then lo32 v else if wide = true ∧ y = n + 1 ∧ l = m then hi32 v else s.readVar e.f w y m := by
  have hlow := h.writeLane n l (lo32 v)
  unfold State.writeLanePair
  cases wide with
  | false =>
    refine ⟨_, hlow, fun y m hm => ?_⟩
    rw [s.readVar_writeOne e.f w n l _ hl y m hm]
    simp only [Bool.false_eq_true, false_and, if_false]
  | true =>
    refine ⟨_, hlow.writeLane (n + 1) l (hi32 v), fun y m hm => ?_⟩
    rw [s.readVar_writeOne e.f _ (n + 1) l _ hl y m hm, s.readVar_writeOne e.f w n l _ hl y m hm]
    simp only [true_and]
    by_cases hy : y = n ∧ l = m
    · rw [if_pos hy, if_pos hy, if_neg (by omega)]
    · rw [if_neg hy, if_neg hy]

/-- What `lwrite` does: the write of a lane that is live. -/
def lwriteCommit (x : XArgs) (e : Issuer) (l : Nat) (v : DWord) (_ : LaneMask) (s : State) : State :=
  if e.w.live.getLsbD l then
    (s.writeLanePair e.f (x.immBits 6 0) l x.w64 v).laneWritten e.f (if x.w64 then [x.immBits 6 0, x.immBits 6 0 + 1] else [x.immBits 6 0]) l (e.c.addr, 0)
  else s

/-- The plan of `lwrite`. -/
def lwritePlan (x : XArgs) (s : State) (e : Issuer) : Except Hold Plan :=
  match (s.reachedOctet e (x.immBits 6 0) x.w64).or (s.octetNeeded e (x.immBits 6 0) x.w64) with
  | some (v, k) => .error (.park s (.octet v k))
  | none => .ok { commit := lwriteCommit x e (s.reached e) (s.srcB e e.lead) }

theorem exec_lwrite (x : XArgs) (s : State) : Machine.exec (.lwrite x) s = perform (.lwrite x) (lwritePlan x) s := rfl

/-- On a sound core the write of a lane does nothing to the file's arrays. -/
theorem Machine.State.laneWritten_sound {s : State} {f : Flow} (h : ∀ c k, f = .wave c k → (s.core c).sound = true) (vars : List Nat) (l : Nat) (site : Site) :
    s.laneWritten f vars l site = s := by
  cases f with
  | steward d k => rfl
  | wave c k => exact s.fileWritten_sound c k vars false _ site (h c k rfl)

/-- What lane `m` of a variable of the flow reads after `lwrite`: in the lane reached, where it is live, a half of the value for each variable named. -/
def lwriteReads (x : XArgs) (s : State) (e : Issuer) (y m : Nat) : Word :=
  if e.w.live.getLsbD (s.reached e) = true then
    if y = x.immBits 6 0 ∧ s.reached e = m then lo32 (s.srcB e e.lead)
    else if x.w64 = true ∧ y = x.immBits 6 0 + 1 ∧ s.reached e = m then hi32 (s.srcB e e.lead)
    else s.readVar e.f e.w y m
  else s.readVar e.f e.w y m

section Reads

variable {x : XArgs} {s : State} {e : Issuer}

theorem lwriteReads_low (hlive : e.w.live.getLsbD (s.reached e) = true) : lwriteReads x s e (x.immBits 6 0) (s.reached e) = lo32 (s.srcB e e.lead) := by
  rw [lwriteReads, if_pos hlive, if_pos ⟨rfl, rfl⟩]

theorem lwriteReads_high (hlive : e.w.live.getLsbD (s.reached e) = true) (hw : x.w64 = true) :
    lwriteReads x s e (x.immBits 6 0 + 1) (s.reached e) = hi32 (s.srcB e e.lead) := by
  rw [lwriteReads, if_pos hlive, if_neg (fun h => Nat.succ_ne_self _ h.1), if_pos ⟨hw, rfl, rfl⟩]

/-- Variables not named, lanes not reached, and a lane that is not live read as before. -/
theorem lwriteReads_other {y m : Nat}
    (h : ¬(y = x.immBits 6 0 ∨ (x.w64 = true ∧ y = x.immBits 6 0 + 1)) ∨ m ≠ s.reached e ∨ e.w.live.getLsbD (s.reached e) = false) :
    lwriteReads x s e y m = s.readVar e.f e.w y m := by
  unfold lwriteReads
  split
  · next hlive =>
    have hno : ¬(y = x.immBits 6 0 ∧ s.reached e = m) ∧ ¬(x.w64 = true ∧ y = x.immBits 6 0 + 1 ∧ s.reached e = m) := by
      rcases h with hy | hm | hdead
      · exact ⟨fun h => hy (.inl h.1), fun h => hy (.inr ⟨h.1, h.2.1⟩)⟩
      · exact ⟨fun h => hm h.2.symm, fun h => hm h.2.2.symm⟩
      · exact absurd hlive (ne_true_of_eq_false hdead)
    rw [if_neg hno.1, if_neg hno.2]
  · rfl

end Reads

theorem Effect.lwriteCommit {s u : State} {x : XArgs} {e : Issuer} {w : Wave} (h : Effect s u e w) (ha : w.Alike e.w)
    (hsound : ∀ c k, e.f = .wave c k → (s.core c).sound = true) :
    ∃ v, Effect s (lwriteCommit x e (s.reached e) (s.srcB e e.lead) e.run u) e v ∧ ∀ y m, m < 64 → s.readVar e.f v y m = lwriteReads x s e y m := by
  have hsame (y m : Nat) : s.readVar e.f w y m = s.readVar e.f e.w y m := s.readVar_of_same e.f w e.w y m (ha.sameVar y m)
  unfold Sys2Proof.lwriteCommit lwriteReads
  split
  · obtain ⟨v, hE, hreads⟩ := h.writeLanePair (x.immBits 6 0) (s.reached e) x.w64 (s.srcB e e.lead) (Nat.mod_lt _ (by decide))
    rw [State.laneWritten_sound (fun c k hf => (hE.only.sound c).trans (hsound c k hf))]
    exact ⟨v, hE, fun y m hm => by rw [hreads y m hm, hsame]⟩
  · exact ⟨w, h, fun y m _ => hsame y m⟩

/-- An undisturbed `lwrite` writes its lane, where it is live, and nothing else (R44, R374). -/
theorem lwrite_writes {s : State} {x : XArgs} {e : Issuer} (h : Ready s (.lwrite x) e) (hread : s.reachedOctet e (x.immBits 6 0) x.w64 = none)
    (hneed : s.octetNeeded e (x.immBits 6 0) x.w64 = none) :
    ∃ t, Machine.exec (.lwrite x) s = .next t ∧ Passed t e ∧ Raised t e {} ∧ Latched t e .invalid ∧
      Untouched s t e (fun f y => f = e.f ∧ (y = x.immBits 6 0 ∨ (x.w64 = true ∧ y = x.immBits 6 0 + 1))) ∧
      ∀ y m, m < 64 → varAt t e.f y m = some (lwriteReads x s e y m) := by
  have hplan : lwritePlan x s e = .ok { commit := lwriteCommit x e (s.reached e) (s.srcB e e.lead) } := by unfold lwritePlan; rw [hread, hneed]; rfl
  obtain ⟨t, u, w, hexec, hreads, hleaves⟩ := h.leaves hplan (p := fun _ v => ∀ y m, m < 64 → s.readVar e.f v y m = lwriteReads x s e y m)
    (fun s' w hE ha _ => hE.lwriteCommit ha h.sound)
  refine ⟨t, (exec_lwrite x s).trans hexec, hleaves.passed, hleaves.raised, hleaves.latched, hleaves.untouched h fun y hne m hm => ?_,
    fun y m hm => by rw [hleaves.vars, hreads y m hm]⟩
  rw [hreads y m hm, lwriteReads_other (.inl fun hy => hne ⟨rfl, hy⟩)]

/-! ### The statement -/

/-- Settles O25: `rkq`, `rkhome` and `lread` are results of the state that issues, and `lwrite` is the write of one lane. -/
theorem ranksAndLanes : Obligations.RanksAndLanes := by
  unfold Obligations.RanksAndLanes
  refine ⟨rkq_gives, rkhome_gives, lread_gives, ?_, ?_, ?_⟩
  · intro x s e h hread hneed n l named
    obtain ⟨t, hexec, hpassed, hraised, hlatched, huntouched, hvars⟩ := lwrite_writes h hread hneed
    have hl : l < 64 := Nat.mod_lt _ (by decide)
    refine ⟨t, hexec, hpassed, hraised, hlatched, huntouched, fun hlive => ⟨?_, fun hw => ?_⟩, fun y m hm hoff _ => ?_⟩
    · exact (hvars n l hl).trans (congrArg some (lwriteReads_low hlive))
    · exact (hvars (n + 1) l hl).trans (congrArg some (lwriteReads_high hlive hw))
    · rw [hvars y m hm, h.varAt, lwriteReads_other (.inr hoff)]
  · intro x s e v k h hpark
    exact (exec_lwrite x s).trans (h.perform_park (lwritePlan x) (by unfold lwritePlan; rw [hpark]))
  · intro x s e v k h hpark
    exact (exec_lread x s).trans (h.perform_park (lreadPlan x) (by unfold lreadPlan; rw [hpark]))

end Sys2Proof
end

