-- ==== Sys2Proof/Proofs/Merges.lean ====
section
/-! Lemmas and proof: the merges (R48 to R50, R55, R370 to R372). -/

namespace Sys2Proof

open Sys2Proof.Machine

/-! ### A collapse (R48, R49) -/

/-- The copies of a variable in a wave: its home copy or wave copy, and no lane copy. -/
def Machine.Wave.Unsplit (w : Wave) (x : Nat) (v : Option Word) : Prop := (∀ l < 64, w.laneCopies.get (64 * x + l) = none) ∧ w.copies.get x = v

theorem Machine.Wave.get_dropLanes (w : Wave) (x y l : Nat) (hl : l < 64) : (w.dropLanes x).laneCopies.get (64 * y + l) = if x = y then none else w.laneCopies.get (64 * y + l) :=
  Tab.get_keep_var w.laneCopies 0 x y l hl

theorem Machine.Wave.collapse_unsplit (w : Wave) (x : Nat) (v : Word) : (w.collapse x v).Unsplit x (some v) :=
  ⟨fun l hl => (Wave.get_dropLanes _ x x l hl).trans (if_pos rfl), Tab.get_set_self w.copies x v⟩

theorem Machine.Wave.collapse_other (w : Wave) (x : Nat) (v : Word) {y l : Nat} (hl : l < 64) (h : x ≠ y) : (w.collapse x v).sameVar w y l :=
  ⟨rfl, rfl, (Wave.get_dropLanes _ x y l hl).trans (if_neg h), Tab.get_set_ne _ _ h⟩

/-- A variable that a wave holds in no lane copy reads alike in every lane. -/
theorem Machine.State.readVar_unsplit {s : State} {f : Flow} {w : Wave} {x : Nat} {o : Option Word} (h : w.Unsplit x o) (hr : s.rank f w x ≠ .lane) {v : Word}
    (hv : o = some v ∨ (s.rank f w x = .group ∧ o = none ∧ v = s.groupHome f x)) {l : Nat} (hl : l < 64) : s.readVar f w x l = v := by
  obtain ⟨hlanes, hcopy⟩ := h
  unfold State.readVar
  rcases hv with rfl | ⟨hg, rfl, rfl⟩
  · cases hw : s.rank f w x with
    | lane => exact absurd hw hr
    | wave => simp only [hlanes l hl, Tab.getD, hcopy, Option.getD_some]
    | group => simp only [hlanes l hl, hcopy]
  · simp only [hg, hlanes l hl, hcopy]

/-! ### What `merge.chk` makes of a wave (R48, R370) -/

/-- Every live thread reads `v`. -/
def Agree (s : State) (e : Issuer) (x : Nat) (v : Word) : Prop := ∀ l, e.w.live.getLsbD l = true → s.readVar e.f e.w x l = v

/-- The wave after a merge of threads that agree on `v`: where that is the group's home copy, the wave's own copy is dropped. -/
def Machine.State.agreed (s : State) (e : Issuer) (x : Nat) (v : Word) : Wave :=
  if s.rank e.f e.w x = .group ∧ v = s.groupHome e.f x then { e.w.collapse x v with copies := (e.w.collapse x v).copies.del x } else e.w.collapse x v

section Check

variable {s : State} {e : Issuer} {x : Nat} {v : Word}

theorem agree_unique (hlive : ∃ l, e.w.live.getLsbD l = true) {u : Word} (hu : Agree s e x u) (hv : Agree s e x v) : u = v := by
  obtain ⟨l, hl⟩ := hlive
  rw [← hu l hl, hv l hl]

theorem all_live_iff (v : Word) : ((LaneMask.toList e.w.live).map (s.readVar e.f e.w x)).all (· == v) = true ↔ Agree s e x v := by
  simp [Agree]

/-- Where all live threads agree, what they agree on is what the first of them reads. -/
theorem mergeCheck_agree (hlive : ∃ l, e.w.live.getLsbD l = true) (h : Agree s e x v) :
    s.mergeCheck e e.w x = (s.agreed e x v, decide (s.rank e.f e.w x = .group → v = s.groupHome e.f x)) := by
  have hhead : (((LaneMask.toList e.w.live).map (s.readVar e.f e.w x)).head?).getD 0 = v := by
    cases hl : LaneMask.toList e.w.live with
    | nil =>
      obtain ⟨l, hl'⟩ := hlive
      rw [← LaneMask.mem_toList, hl] at hl'
      cases hl'
    | cons k ls => exact h k ((LaneMask.mem_toList _ k).1 (by rw [hl]; exact List.mem_cons_self))
  unfold State.mergeCheck State.agreed
  simp only [hhead, (all_live_iff v).2 h, if_true]
  by_cases hg : s.rank e.f e.w x = .group <;> by_cases hv : v = s.groupHome e.f x <;> simp [hg, hv]

theorem mergeCheck_disagree (h : ∀ v, ¬Agree s e x v) : s.mergeCheck e e.w x = (e.w, false) :=
  if_neg (fun hall => h _ ((all_live_iff _).1 hall))

/-- The result is 1 exactly where no split is left: the threads agree, and for a group-home variable on the group's home copy. -/
theorem mergeCheck_result (hlive : ∃ l, e.w.live.getLsbD l = true) :
    (s.mergeCheck e e.w x).2 = true ↔ ∃ v, Agree s e x v ∧ (s.rank e.f e.w x = .group → v = s.groupHome e.f x) := by
  by_cases h : ∃ v, Agree s e x v
  · obtain ⟨v, hv⟩ := h
    rw [mergeCheck_agree hlive hv, decide_eq_true_iff]
    refine ⟨fun hhome => ⟨v, hv, hhome⟩, fun ⟨u, hu, hhome⟩ => ?_⟩
    rwa [agree_unique hlive hu hv] at hhome
  · rw [mergeCheck_disagree (fun v hv => h ⟨v, hv⟩)]
    exact ⟨fun hf => absurd hf Bool.false_ne_true, fun ⟨v, hv, _⟩ => absurd ⟨v, hv⟩ h⟩

theorem agreed_unsplit : (s.agreed e x v).Unsplit x (if s.rank e.f e.w x = .group ∧ v = s.groupHome e.f x then none else some v) := by
  obtain ⟨hlanes, hcopy⟩ := e.w.collapse_unsplit x v
  unfold State.agreed
  split
  · exact ⟨hlanes, Tab.get_del_self _ x⟩
  · exact ⟨hlanes, hcopy⟩

theorem agreed_other {y l : Nat} (hl : l < 64) (h : x ≠ y) : (s.agreed e x v).sameVar e.w y l := by
  obtain ⟨hlaunch, hslots, hlanes, hcopy⟩ := e.w.collapse_other x v hl h
  unfold State.agreed
  split
  · exact ⟨hlaunch, hslots, hlanes, (Tab.get_del_ne _ h).trans hcopy⟩
  · exact ⟨hlaunch, hslots, hlanes, hcopy⟩

theorem readVar_agreed (hr : s.rank e.f e.w x ≠ .lane) {l : Nat} (hl : l < 64) : s.readVar e.f (s.agreed e x v) x l = v := by
  have hrank : s.rank e.f (s.agreed e x v) x = s.rank e.f e.w x := s.rank_eq e.f _ e.w x (by unfold State.agreed; split <;> rfl)
  refine State.readVar_unsplit agreed_unsplit (by rwa [hrank]) ?_ hl
  rw [hrank]
  split
  · next h => exact .inr ⟨h.1, rfl, h.2⟩
  · exact .inl rfl

/-- A check changes no other variable of the wave. -/
theorem mergeCheck_other (hlive : ∃ l, e.w.live.getLsbD l = true) {y l : Nat} (hl : l < 64) (h : x ≠ y) : (s.mergeCheck e e.w x).1.sameVar e.w y l := by
  by_cases hagree : ∃ v, Agree s e x v
  · obtain ⟨v, hv⟩ := hagree
    rw [mergeCheck_agree hlive hv]
    exact agreed_other hl h
  · rw [mergeCheck_disagree (fun v hv => hagree ⟨v, hv⟩)]
    exact ⟨rfl, rfl, rfl, rfl⟩

/-- A check changes nothing that a live thread reads. -/
theorem readVar_mergeCheck (hlive : ∃ l, e.w.live.getLsbD l = true) (hr : s.rank e.f e.w x ≠ .lane) {l : Nat} (hl : e.w.live.getLsbD l = true) :
    s.readVar e.f (s.mergeCheck e e.w x).1 x l = s.readVar e.f e.w x l := by
  by_cases hagree : ∃ v, Agree s e x v
  · obtain ⟨v, hv⟩ := hagree
    rw [mergeCheck_agree hlive hv, readVar_agreed hr (BitVec.lt_of_getLsbD hl), hv l hl]
  · rw [mergeCheck_disagree (fun v hv => hagree ⟨v, hv⟩)]

theorem mergeCheck_keeps : (s.mergeCheck e e.w x).1.launch = e.w.launch ∧ (s.mergeCheck e e.w x).1.slots = e.w.slots := by
  unfold State.mergeCheck
  dsimp only
  split
  · split
    · split <;> exact ⟨rfl, rfl⟩
    · exact ⟨rfl, rfl⟩
  · exact ⟨rfl, rfl⟩

end Check

/-! ### Splits of a variable (R47, R48) -/

theorem Machine.Tab.isSome_of_mem {α : Type} {t : Tab α} {a : Nat × α} (h : a ∈ t) : (t.get a.1).isSome = true := by
  induction t with
  | nil => cases h
  | cons b t ih =>
    rw [Tab.get_cons]
    split
    · rfl
    · next hne => exact ih ((List.mem_cons.1 h).resolve_left (fun hab => hne (by rw [hab])))

/-- A wave holds a lane copy of a variable where its table has an entry of one of its lanes. -/
theorem Machine.Tab.any_var_iff (t : Tab Word) (x : Nat) : t.any (fun k => k.1 / 64 == x) = true ↔ ∃ l < 64, (t.get (64 * x + l)).isSome = true := by
  rw [List.any_eq_true]
  constructor
  · rintro ⟨a, ha, hx⟩
    have hkey : 64 * x + a.1 % 64 = a.1 := by rw [beq_iff_eq] at hx; omega
    exact ⟨a.1 % 64, Nat.mod_lt _ (by decide), by rw [hkey]; exact Tab.isSome_of_mem ha⟩
  · rintro ⟨l, hl, hsome⟩
    obtain ⟨v, hv⟩ := Option.isSome_iff_exists.1 hsome
    exact ⟨_, Tab.mem_of_get t _ v hv, by rw [beq_iff_eq]; dsimp only; omega⟩

theorem unsplit_eq_false_iff (s : State) (e : Issuer) (x : Nat) :
    s.unsplit e e.w x = false ↔
      (∃ l < 64, (e.w.laneCopies.get (64 * x + l)).isSome = true) ∨ (s.rank e.f e.w x = .group ∧ (e.w.copies.get x).isSome = true) := by
  rw [← Tab.any_var_iff]
  unfold State.unsplit
  cases s.rank e.f e.w x <;> cases e.w.copies.get x <;> simp

/-- A wave-home variable without lane copies has an empty split mask. -/
theorem Machine.State.splitMask_wave {s : State} {e : Issuer} {x : Nat} (hr : s.rank e.f e.w x = .wave) (h : ∀ l < 64, e.w.laneCopies.get (64 * x + l) = none) :
    s.splitMask e x = 0 := by
  have hnil : e.w.laneCopies.filter (fun k => k.1 / 64 == x) = [] := by
    rw [List.filter_eq_nil_iff]
    intro a ha hx
    obtain ⟨l, hl, hsome⟩ := (Tab.any_var_iff _ _).1 (List.any_eq_true.2 ⟨a, ha, hx⟩)
    rw [h l hl] at hsome
    cases hsome
  unfold State.splitMask
  simp only [hr, hnil]
  rfl

/-! ### `merge.chk` (R48, R370) -/

/-- A record with the copies of another, and their octets. -/
def Machine.Wave.taking (w v : Wave) : Wave := { w with copies := v.copies, laneCopies := v.laneCopies, octets := v.octets, overflowed := v.overflowed }

/-- The result of `merge.chk`: under NWB, whether the variable has no split as it stands (log 91). -/
def chkResult (x : XArgs) (s : State) (e : Issuer) : Word :=
  BitVec.ofNat 32 (b2n (if e.p.nwb then s.unsplit e e.w (varOf x.sa) else (s.mergeCheck e e.w (varOf x.sa)).2))

/-- The effect of `merge.chk` that issues in `s`, on a state. -/
def chkCommit (x : XArgs) (s : State) (e : Issuer) (run : LaneMask) (u : State) : State :=
  if e.p.nwb then u else (u.modFlow e.f (fun w => w.taking (s.mergeCheck e e.w (varOf x.sa)).1)).putWords e run (fun _ => [chkResult x s e])

/-- The plan of `merge.chk`. -/
def mergeChkPlan (x : XArgs) (s : State) (e : Issuer) : Except Hold Plan :=
  if s.rank e.f e.w (varOf x.sa) = .lane then .error (.trap .illegal)
  else .ok { commit := chkCommit x s e, latch := some (fun run => e.latch run (fun _ => [chkResult x s e])) }

theorem exec_mergeChk (x : XArgs) (s : State) : Machine.exec (.mergeChk x) s = perform (.mergeChk x) (mergeChkPlan x) s := rfl

/-- The record with which `merge.chk` leaves its flow's record `w`: the copies of the check, and the result in the destination. -/
def chkRecord (x : XArgs) (s : State) (e : Issuer) (w : Wave) : Wave :=
  (w.taking (s.mergeCheck e e.w (varOf x.sa)).1).writeRun (s.rank e.f (w.taking (s.mergeCheck e e.w (varOf x.sa)).1) e.p.dst.toNat)
    (s.groupHome e.f e.p.dst.toNat) e.p.dst.toNat e.run (fun _ => chkResult x s e)

theorem Machine.Wave.sameVar.trans {w v u : Wave} {x l : Nat} (h : w.sameVar v x l) (k : v.sameVar u x l) : w.sameVar u x l := by
  obtain ⟨h1, h2, h3, h4⟩ := h
  obtain ⟨k1, k2, k3, k4⟩ := k
  exact ⟨h1.trans k1, h2.trans k2, h3.trans k3, h4.trans k4⟩

section MergeChk

variable {x : XArgs} {s u : State} {e : Issuer} {w : Wave}

/-- `merge.chk` is of lane class and has one destination. -/
theorem mergeChk_class (h : Ready s (.mergeChk x) e) : scalarClass e.p = false ∧ roleCount e.p.dstRole = 1 := by
  rw [h.parts rfl rfl]
  exact ⟨by simp [scalarClass, waveClass, xSpec], rfl⟩

theorem isDst_one (h : roleCount e.p.dstRole = 1) (f : Flow) (y : Nat) : isDst e f y ↔ f = e.f ∧ y = e.p.dst.toNat := by
  unfold isDst
  rw [h]
  exact and_congr_right fun _ => by omega

theorem Effect.chkCommit (h : Effect s u e w) (hnwb : e.p.nwb = false) (hscalar : scalarClass e.p = false) (hcount : roleCount e.p.dstRole = 1) :
    Effect s (chkCommit x s e e.run u) e (chkRecord x s e w) := by
  have hset := h.setFlow (v := w.taking (s.mergeCheck e e.w (varOf x.sa)).1) rfl rfl rfl
  unfold Sys2Proof.chkCommit State.putWords
  rw [hnwb, if_neg Bool.false_ne_true, if_neg Bool.false_ne_true, hscalar, hcount, State.modFlow_of_flow h.flow]
  exact hset.writeVar e.p.dst.toNat e.run (fun _ => chkResult x s e)

/-- Each thread of the run reads the result in the destination. -/
theorem readVar_chkRecord_dst {l : Nat} (hl : e.run.getLsbD l = true) : s.readVar e.f (chkRecord x s e w) e.p.dst.toNat l = chkResult x s e :=
  s.readVar_writeRun_mem e.f _ _ l e.run (fun _ => chkResult x s e) hl

/-- Beside the destination the record is that of the check. -/
theorem chkRecord_sameVar (ha : w.Alike e.w) {y l : Nat} (hl : l < 64) (hy : y ≠ e.p.dst.toNat) :
    (chkRecord x s e w).sameVar (s.mergeCheck e e.w (varOf x.sa)).1 y l := by
  obtain ⟨hlaunch, hslots⟩ := mergeCheck_keeps (s := s) (e := e) (x := varOf x.sa)
  refine (Wave.writeRun_other _ _ _ _ e.run _ y l hl (Ne.symm hy)).trans ⟨ha.launch.trans hlaunch.symm, ?_, rfl, rfl⟩
  show w.slots.get _ = _
  rw [ha.vars.1, hslots]

/-- An undisturbed `merge.chk` without NWB writes the copies of its check and its result, and leaves (R48, R370). -/
theorem mergeChk_leaves (h : Ready s (.mergeChk x) e) (hr : s.rank e.f e.w (varOf x.sa) ≠ .lane) (hnwb : e.p.nwb = false) :
    ∃ t u v, Machine.exec (.mergeChk x) s = .next t ∧ (∃ w, w.Alike e.w ∧ v = chkRecord x s e w) ∧ Leaves s u t e v (e.latch e.run (fun _ => [chkResult x s e])) := by
  obtain ⟨hscalar, hcount⟩ := mergeChk_class h
  exact h.leaves (plan := mergeChkPlan x) (if_neg hr) (p := fun _ v => ∃ w : Wave, w.Alike e.w ∧ v = chkRecord x s e w)
    (fun s' w hE ha _ => ⟨chkRecord x s e w, hE.chkCommit hnwb hscalar hcount, w, ha, rfl⟩)

/-- Under NWB it writes nothing (R55). -/
theorem mergeChk_nwb (h : Ready s (.mergeChk x) e) (hr : s.rank e.f e.w (varOf x.sa) ≠ .lane) (hnwb : e.p.nwb = true) :
    ∃ t u v, Machine.exec (.mergeChk x) s = .next t ∧ v.Alike e.w ∧ Leaves s u t e v (e.latch e.run (fun _ => [chkResult x s e])) := by
  refine h.leaves (plan := mergeChkPlan x) (if_neg hr) (p := fun _ v => v.Alike e.w) (fun s' w hE ha _ => ⟨w, ?_, ha⟩)
  show Effect s (chkCommit x s e e.run s') e w
  rwa [chkCommit, if_pos hnwb]

end MergeChk

/-! ### `merge.lane` (R49, R371) -/

/-- The effect of `merge.lane` on a state. -/
def laneCommit (x : XArgs) (e : Issuer) (run : LaneMask) (s : State) : State :=
  let l := (s.srcA e (LaneMask.lowest run)).toNat % 64
  if e.w.live.getLsbD l && !e.p.nwb then
    let t := s.modFlow e.f (fun w => w.collapse x.dst.toNat (s.readVar e.f e.w x.dst.toNat l))
    if t.rank e.f e.w x.dst.toNat = .group then t.noteWrite e.f x.dst.toNat else t
  else s

/-- Source A of `merge.lane` names a lane-home variable. -/
def namesLane (x : XArgs) (s : State) (e : Issuer) : Bool :=
  match x.sa with
  | .var k => s.rank e.f e.w k.toNat == .lane
  | _ => false

/-- The plan of `merge.lane`. -/
def mergeLanePlan (x : XArgs) (s : State) (e : Issuer) : Except Hold Plan :=
  if s.rank e.f e.w x.dst.toNat = .lane || namesLane x s e then .error (.trap .illegal) else .ok { commit := laneCommit x e }

theorem exec_mergeLane (x : XArgs) (s : State) : Machine.exec (.mergeLane x) s = perform (.mergeLane x) (mergeLanePlan x) s := rfl

section MergeLane

variable {x : XArgs} {s u : State} {e : Issuer} {w : Wave}

theorem namesLane_eq_false (h : ∀ k, x.sa = .var k → s.rank e.f e.w k.toNat ≠ .lane) : namesLane x s e = false := by
  unfold namesLane
  split
  · next k hk => exact beq_false_of_ne (h k hk)
  · rfl

/-- The lane that `merge.lane` names, and whether it is live and a copy may change (R55). -/
def laneTaken (s : State) (e : Issuer) : Bool := e.w.live.getLsbD ((s.srcA e e.lead).toNat % 64) && !e.p.nwb

/-- The record with which `merge.lane` leaves its flow's record `w`. -/
def laneRecord (x : XArgs) (s : State) (e : Issuer) (w : Wave) : Wave :=
  if laneTaken s e then w.collapse x.dst.toNat (s.readVar e.f e.w x.dst.toNat ((s.srcA e e.lead).toNat % 64)) else w

theorem Effect.laneCommit (h : Effect s u e w) : Effect s (laneCommit x e e.run u) e (laneRecord x s e w) := by
  have hsrc : u.srcA e (LaneMask.lowest e.run) = s.srcA e e.lead := h.src _ _ _
  unfold Sys2Proof.laneCommit laneRecord laneTaken
  simp only [hsrc, h.readVar, State.modFlow_of_flow h.flow]
  split
  · have hset := h.setFlow (v := w.collapse x.dst.toNat (s.readVar e.f e.w x.dst.toNat ((s.srcA e e.lead).toNat % 64))) rfl rfl rfl
    split
    · exact hset.noteWrite x.dst.toNat
    · exact hset
  · exact h

/-- An undisturbed `merge.lane` collapses its variable to the value of a live lane, and leaves (R49, R371). -/
theorem mergeLane_leaves (h : Ready s (.mergeLane x) e) (hr : s.rank e.f e.w x.dst.toNat ≠ .lane) (hsa : ∀ k, x.sa = .var k → s.rank e.f e.w k.toNat ≠ .lane) :
    ∃ t u v, Machine.exec (.mergeLane x) s = .next t ∧ (∃ w, w.Alike e.w ∧ v = laneRecord x s e w) ∧ Leaves s u t e v .invalid := by
  have hplan : mergeLanePlan x s e = .ok { commit := laneCommit x e } := by
    unfold mergeLanePlan
    rw [namesLane_eq_false hsa, decide_eq_false hr]
    rfl
  exact h.leaves (plan := mergeLanePlan x) hplan (p := fun _ v => ∃ w : Wave, w.Alike e.w ∧ v = laneRecord x s e w)
    (fun s' w hE ha _ => ⟨laneRecord x s e w, hE.laneCommit, w, ha, rfl⟩)

end MergeLane

/-! ### `merge.g` (R50, R372) -/

/-- The capture that `merge.g` records. -/
def captureOf (x : XArgs) (e : Issuer) (off : Nat) (run : LaneMask) (s : State) : Capture :=
  { wave := e.w.number, var := x.dst.toNat, barrier := off, value := s.readVar e.f e.w x.dst.toNat (LaneMask.lowest run), written := false }

/-- A group with a capture, in place of an earlier one of the same wave, variable and barrier (R50). -/
def Machine.Group.withCapture (q : Group) (k : Capture) : Group :=
  { q with captures := q.captures.filter (fun j => !(j.wave == k.wave && j.var == k.var && j.barrier == k.barrier)) ++ [k] }

/-- The effect of `merge.g` on a state. -/
def captureCommit (x : XArgs) (e : Issuer) (core g off : Nat) (run : LaneMask) (s : State) : State :=
  if e.p.nwb then s else s.modGroup core g (fun q => q.withCapture (captureOf x e off run s))

/-- A barrier of group scope stands at an aligned offset. -/
def Machine.Group.hasBarrier (q : Group) (off : Nat) : Bool := off % 16 == 0 && (q.barriers.get off).any (fun b => b.scope == 1)

/-- The plan of `merge.g`. -/
def mergeGPlan (x : XArgs) (s : State) (e : Issuer) : Except Hold Plan :=
  if s.rank e.f e.w x.dst.toNat ≠ .group then .error (.trap .illegal)
  else match s.groupOf e.f with
    | none => .error (.trap .illegal)
    | some (core, g, q) =>
      if !q.hasBarrier ((s.srcA e e.lead).toNat % 2 ^ 24) then .error (.trap { code := 0x0C, addr := (s.srcA e e.lead).toNat % 2 ^ 24 })
      else .ok { commit := captureCommit x e core g ((s.srcA e e.lead).toNat % 2 ^ 24) }

theorem exec_mergeG (x : XArgs) (s : State) : Machine.exec (.mergeG x) s = perform (.mergeG x) (mergeGPlan x) s := rfl

section MergeG

variable {x : XArgs} {s u : State} {e : Issuer} {w : Wave} {c g off : Nat} {q : Group}

theorem Machine.State.group?_modGroup_self (s : State) (c g : Nat) (p : Group → Group) : (s.modGroup c g p).group? c g = (s.group? c g).map p := by
  unfold State.modGroup State.group?
  rw [s.core_modCore_self]
  exact Tab.get_upd_self ..

theorem Effect.capture (h : Effect s u e w) : Effect s (captureCommit x e c g off e.run u) e w := by
  unfold captureCommit
  split
  · exact h
  · exact h.modGroup c g _ (fun _ => rfl)

theorem Effect.captureOf_eq (h : Effect s u e w) : captureOf x e off e.run u = captureOf x e off e.run s := by
  unfold captureOf
  rw [h.readVar]

theorem Effect.group?_captureCommit (h : Effect s u e w) (hq : u.group? c g = some q) :
    (captureCommit x e c g off e.run u).group? c g = some (if e.p.nwb then q else q.withCapture (captureOf x e off e.run s)) := by
  unfold captureCommit
  rw [h.captureOf_eq]
  split
  · exact hq
  · rw [State.group?_modGroup_self, hq]
    rfl

/-- An undisturbed `merge.g` at a barrier of its group records its capture there, but under NWB, and leaves (R50, R55, R372). -/
theorem mergeG_leaves (h : Ready s (.mergeG x) e) (hr : s.rank e.f e.w x.dst.toNat = .group) (hg : s.groupOf e.f = some (c, g, q))
    (hb : q.hasBarrier ((s.srcA e e.lead).toNat % 2 ^ 24) = true) :
    ∃ t u v, Machine.exec (.mergeG x) s = .next t ∧
      (v.Alike e.w ∧ u.group? c g = some (if e.p.nwb then q else q.withCapture (captureOf x e ((s.srcA e e.lead).toNat % 2 ^ 24) e.run s))) ∧ Leaves s u t e v .invalid := by
  have hplan : mergeGPlan x s e = .ok { commit := captureCommit x e c g ((s.srcA e e.lead).toNat % 2 ^ 24) } := by
    unfold mergeGPlan
    simp only [hr, hg, hb, ne_eq, not_true, if_false, Bool.not_true, Bool.false_eq_true]
  exact h.leaves (plan := mergeGPlan x) hplan
    (p := fun u v => v.Alike e.w ∧ u.group? c g = some (if e.p.nwb then q else q.withCapture (captureOf x e ((s.srcA e e.lead).toNat % 2 ^ 24) e.run s)))
    (fun s' w hE ha hgroup => ⟨w, hE.capture, ha, hE.group?_captureCommit ((hgroup c g).trans (State.group?_of_groupOf hg))⟩)

end MergeG

/-! ### The statement -/

/-- A merge whose plan is an error is a trap, and so still answers a next state. -/
theorem Ready.answers {s : State} {i : Instr} {e : Issuer} (h : Ready s i e) {plan : State → Issuer → Except Hold Plan} (hx : Machine.exec i s = perform i plan s)
    (hp : (∃ t, plan s e = .error (.trap t) ∧ t.code ≠ 0x15) ∨ ∃ commit latch, plan s e = .ok { commit, latch }) : ∃ t, Machine.exec i s = .next t := by
  rcases hp with ⟨t, ht, hcode⟩ | ⟨commit, latch, hok⟩
  · exact ⟨_, hx.trans (h.perform_trap plan t ht hcode)⟩
  · exact h.completes hx hok rfl rfl

theorem mergeChk_answers {x : XArgs} {s : State} {e : Issuer} (h : Ready s (.mergeChk x) e) : ∃ t, Machine.exec (.mergeChk x) s = .next t := by
  refine h.answers (exec_mergeChk x s) ?_
  unfold mergeChkPlan
  split
  · exact .inl ⟨_, rfl, by decide⟩
  · exact .inr ⟨_, _, rfl⟩

theorem mergeLane_answers {x : XArgs} {s : State} {e : Issuer} (h : Ready s (.mergeLane x) e) : ∃ t, Machine.exec (.mergeLane x) s = .next t := by
  refine h.answers (exec_mergeLane x s) ?_
  unfold mergeLanePlan
  split
  · exact .inl ⟨_, rfl, by decide⟩
  · exact .inr ⟨_, _, rfl⟩

theorem mergeG_answers {x : XArgs} {s : State} {e : Issuer} (h : Ready s (.mergeG x) e) : ∃ t, Machine.exec (.mergeG x) s = .next t := by
  refine h.answers (exec_mergeG x s) ?_
  unfold mergeGPlan
  split
  · exact .inl ⟨_, rfl, by decide⟩
  · split
    · exact .inl ⟨_, rfl, by decide⟩
    · split
      · exact .inl ⟨_, rfl, (by decide : (0x0C : Nat) ≠ 0x15)⟩
      · exact .inr ⟨_, _, rfl⟩

section Statement

variable {x : XArgs} {s : State} {e : Issuer}

/-- `merge.chk` without NWB, by what its live threads read (R48, R370). -/
theorem mergeChk_merges (h : Ready s (.mergeChk x) e) (hr : s.rank e.f e.w (varOf x.sa) ≠ .lane) (hlive : ∃ l, e.w.live.getLsbD l = true) (hnwb : e.p.nwb = false) :
    let n := varOf x.sa
    let rank := s.rank e.f e.w n
    let left : Prop := ∃ v, Agree s e n v ∧ (rank = .group → v = s.groupHome e.f n)
    ∃ t w, Machine.exec (.mergeChk x) s = .next t ∧ Passed t e ∧ Raised t e {} ∧ Untouched s t e (fun f y => isDst e f y ∨ (f = e.f ∧ y = n)) ∧ t.flow? e.f = some w ∧
      (∀ r : Word, (left → r = 1) → (¬left → r = 0) →
        Latched t e (e.latch e.run (fun _ => [r])) ∧ ∀ l, e.run.getLsbD l = true → varAt t e.f e.p.dst.toNat l = some r) ∧
      (¬isDst e e.f n →
        (∀ l, e.w.live.getLsbD l = true → varAt t e.f n l = varAt s e.f n l) ∧
        (∀ v, Agree s e n v → w.Unsplit n (if rank = .group ∧ v = s.groupHome e.f n then none else some v)) ∧
        (left → rank = .wave → t.splitMask { e with w } n = 0) ∧
        ((∀ v, ¬Agree s e n v) → (∀ l < 64, w.laneCopies.get (64 * n + l) = e.w.laneCopies.get (64 * n + l)) ∧ w.copies.get n = e.w.copies.get n)) := by
  intro n rank left
  obtain ⟨-, hcount⟩ := mergeChk_class h
  obtain ⟨t, u, -, hexec, ⟨w0, ha, rfl⟩, hleaves⟩ := mergeChk_leaves h hr hnwb
  obtain ⟨w, hflow, hstill, hcopies, hlanes⟩ := hleaves.flow
  have hdst (y : Nat) : isDst e e.f y ↔ y = e.p.dst.toNat := (isDst_one hcount e.f y).trans (and_iff_right rfl)
  have hsame {y l : Nat} (hl : l < 64) (hy : ¬isDst e e.f y) : (chkRecord x s e w0).sameVar (s.mergeCheck e e.w n).1 y l :=
    chkRecord_sameVar ha hl (fun h => hy ((hdst y).2 h))
  have hgetLane {l : Nat} (hl : l < 64) (hn : ¬isDst e e.f n) : w.laneCopies.get (64 * n + l) = (s.mergeCheck e e.w n).1.laneCopies.get (64 * n + l) := by
    rw [hlanes]; exact (hsame hl hn).2.2.1
  have hgetCopy (hn : ¬isDst e e.f n) : w.copies.get n = (s.mergeCheck e e.w n).1.copies.get n := by
    rw [hcopies]; exact (hsame (l := 0) (by decide) hn).2.2.2
  have hunsplit (hn : ¬isDst e e.f n) (v : Word) (hv : Agree s e n v) : w.Unsplit n (if rank = .group ∧ v = s.groupHome e.f n then none else some v) := by
    obtain ⟨hagreed, hcopy⟩ := agreed_unsplit (s := s) (e := e) (x := n) (v := v)
    rw [mergeCheck_agree hlive hv] at hgetLane hgetCopy
    exact ⟨fun l hl => (hgetLane hl hn).trans (hagreed l hl), (hgetCopy hn).trans hcopy⟩
  refine ⟨t, w, hexec, hleaves.passed, hleaves.raised, hleaves.untouched h (fun y hy l hl => ?_), hflow, fun r h1 h0 => ?_, fun hn => ⟨fun l hl => ?_, hunsplit hn, ?_, ?_⟩⟩
  · have hne : n ≠ y := fun hny => hy (.inr ⟨rfl, hny.symm⟩)
    exact s.readVar_of_same e.f _ e.w y l ((hsame hl (fun hd => hy (.inl hd))).trans (mergeCheck_other hlive hl hne))
  · have hresult : chkResult x s e = r := by
      unfold chkResult
      rw [hnwb, if_neg Bool.false_ne_true]
      by_cases hleft : left
      · rw [(mergeCheck_result hlive).2 hleft, h1 hleft]; rfl
      · rw [Bool.eq_false_iff.2 (fun hm => hleft ((mergeCheck_result hlive).1 hm)), h0 hleft]; rfl
    refine ⟨hresult ▸ hleaves.latched, fun l hl => ?_⟩
    rw [hleaves.vars, readVar_chkRecord_dst hl, hresult]
  · have hlt := BitVec.lt_of_getLsbD hl
    rw [hleaves.vars, h.varAt, s.readVar_of_same e.f _ _ n l (hsame hlt hn), readVar_mergeCheck hlive hr hl]
  · rintro ⟨v, hv, -⟩ hwave
    refine State.splitMask_wave (e := { e with w }) ?_ (hunsplit hn v hv).1
    show t.rank e.f w n = .wave
    rw [State.rank_of_state s t e.f w n hleaves.only.launches, s.rank_eq e.f w e.w n (Wave.of_still hstill).1]
    exact hwave
  · intro hno
    rw [mergeCheck_disagree hno] at hgetLane hgetCopy
    exact ⟨fun l hl => hgetLane hl hn, hgetCopy hn⟩

/-- `merge.chk` under NWB keeps every copy, and says whether the variable has no split as it stands (R55, log 91). -/
theorem mergeChk_reports (h : Ready s (.mergeChk x) e) (hr : s.rank e.f e.w (varOf x.sa) ≠ .lane) (hnwb : e.p.nwb = true) :
    ∃ t w, Machine.exec (.mergeChk x) s = .next t ∧ Passed t e ∧ Raised t e {} ∧ Untouched s t e (fun _ _ => False) ∧ t.flow? e.f = some w ∧
      w.laneCopies = e.w.laneCopies ∧ w.copies = e.w.copies ∧ Latched t e (e.latch e.run (fun _ => [BitVec.ofNat 32 (b2n (s.unsplit e e.w (varOf x.sa)))])) := by
  obtain ⟨t, u, v, hexec, ha, hleaves⟩ := mergeChk_nwb h hr hnwb
  obtain ⟨w, hflow, -, hcopies, hlanes⟩ := hleaves.flow
  obtain ⟨-, hacopies, halanes, -⟩ := ha.vars
  refine ⟨t, w, hexec, hleaves.passed, hleaves.raised, hleaves.untouched h (fun y _ l _ => s.readVar_of_same e.f v e.w y l (ha.sameVar y l)), hflow,
    hlanes.trans halanes, hcopies.trans hacopies, ?_⟩
  have := hleaves.latched
  rwa [chkResult, hnwb, if_pos rfl] at this

/-- `merge.lane`, by the lane it names (R49, R55, R371). -/
theorem mergeLane_merges (h : Ready s (.mergeLane x) e) (hr : s.rank e.f e.w x.dst.toNat ≠ .lane) (hsa : ∀ k, x.sa = .var k → s.rank e.f e.w k.toNat ≠ .lane) :
    let n := x.dst.toNat
    let k := (s.srcA e e.lead).toNat % 64
    ∃ t w, Machine.exec (.mergeLane x) s = .next t ∧ Passed t e ∧ Raised t e {} ∧ Latched t e .invalid ∧ Untouched s t e (fun f y => f = e.f ∧ y = n) ∧ t.flow? e.f = some w ∧
      (∀ l, l < 64 → varAt t e.f n l = if laneTaken s e then varAt s e.f n k else varAt s e.f n l) ∧
      (if laneTaken s e then w.Unsplit n (varAt s e.f n k) else w.laneCopies = e.w.laneCopies ∧ w.copies = e.w.copies) := by
  intro n k
  obtain ⟨t, u, -, hexec, ⟨w0, ha, rfl⟩, hleaves⟩ := mergeLane_leaves h hr hsa
  obtain ⟨w, hflow, -, hcopies, hlanes⟩ := hleaves.flow
  obtain ⟨-, hacopies, halanes, -⟩ := ha.vars
  have hsame (y l : Nat) : s.readVar e.f w0 y l = s.readVar e.f e.w y l := s.readVar_of_same e.f w0 e.w y l (ha.sameVar y l)
  refine ⟨t, w, hexec, hleaves.passed, hleaves.raised, hleaves.latched, hleaves.untouched h (fun y hy l hl => ?_), hflow, fun l hl => ?_, ?_⟩
  · have hne : n ≠ y := fun hny => hy ⟨rfl, hny.symm⟩
    rw [← hsame]
    unfold laneRecord
    split
    · exact s.readVar_of_same e.f _ w0 y l (w0.collapse_other n _ hl hne)
    · rfl
  · rw [hleaves.vars, h.varAt, h.varAt, laneRecord]
    split
    · have hunsplit := w0.collapse_unsplit n (s.readVar e.f e.w n k)
      exact congrArg some (State.readVar_unsplit hunsplit (by rwa [s.rank_eq e.f (w0.collapse n _) e.w n ha.launch]) (.inl rfl) hl)
    · rw [hsame]
  · rw [laneRecord] at hcopies hlanes
    split
    · next htaken =>
      rw [if_pos htaken] at hcopies hlanes
      obtain ⟨hnone, hcopy⟩ := w0.collapse_unsplit n (s.readVar e.f e.w n k)
      exact ⟨fun l hl => by rw [hlanes]; exact hnone l hl, by rw [hcopies, h.varAt]; exact hcopy⟩
    · next htaken =>
      rw [if_neg htaken] at hcopies hlanes
      exact ⟨hlanes.trans halanes, hcopies.trans hacopies⟩

/-- `merge.g` at a barrier of its group (R50, R55, R372). -/
theorem mergeG_captures {c g : Nat} {q : Group} (h : Ready s (.mergeG x) e) (hr : s.rank e.f e.w x.dst.toNat = .group) (hg : s.groupOf e.f = some (c, g, q)) :
    let off := (s.srcA e e.lead).toNat % 2 ^ 24
    q.hasBarrier off = true →
    ∃ t, Machine.exec (.mergeG x) s = .next t ∧ Passed t e ∧ Raised t e {} ∧ Latched t e .invalid ∧ Untouched s t e (fun _ _ => False) ∧
      t.group? c g = some (if e.p.nwb then q else q.withCapture (captureOf x e off e.run s)) := by
  intro off hb
  obtain ⟨t, u, v, hexec, ⟨ha, hgroup⟩, hleaves⟩ := mergeG_leaves h hr hg hb
  exact ⟨t, hexec, hleaves.passed, hleaves.raised, hleaves.latched,
    hleaves.untouched h (fun y _ l _ => s.readVar_of_same e.f v e.w y l (ha.sameVar y l)), (hleaves.groups c g).trans hgroup⟩

end Statement

/-- Settles O26: each merge is one change of its wave's record, or one capture of its group, and what its flow then reads follows from that record. -/
theorem merges : Obligations.Merges := by
  unfold Obligations.Merges
  refine ⟨fun x s e h _ => mergeChk_answers h, fun x s e h _ => mergeLane_answers h, fun x s e h _ => mergeG_answers h, ?_, ?_, ?_, ?_⟩
  · intro x s e h hr hlive hnwb n rank agree left
    have hagree (v : Word) : agree v ↔ Agree s e n v := by
      simp only [agree, h.varAt, Option.some.injEq]
      rfl
    have hleft : left ↔ ∃ v, Agree s e n v ∧ (rank = .group → v = s.groupHome e.f n) :=
      exists_congr fun v => and_congr_left' (hagree v)
    obtain ⟨t, w, hexec, hpassed, hraised, huntouched, hflow, hresult, hcopies⟩ := mergeChk_merges h hr hlive hnwb
    refine ⟨t, w, hexec, hpassed, hraised, huntouched, hflow, fun r h1 h0 => hresult r (fun hl => h1 (hleft.2 hl)) (fun hl => h0 (fun hl' => hl (hleft.1 hl'))), fun hn => ?_⟩
    obtain ⟨hvars, hunsplit, hmask, hno⟩ := hcopies hn
    exact ⟨hvars, fun v hv => hunsplit v ((hagree v).1 hv), fun hl => hmask (hleft.1 hl), fun hall => hno (fun v hv => hall v ((hagree v).2 hv))⟩
  · intro x s e h hr hnwb n split
    have hsplit : s.unsplit e e.w n = false ↔ split := unsplit_eq_false_iff s e n
    obtain ⟨t, w, hexec, hpassed, hraised, huntouched, hflow, hlanes, hcopies, hlatched⟩ := mergeChk_reports h hr hnwb
    refine ⟨t, w, hexec, hpassed, hraised, huntouched, hflow, hlanes, hcopies, fun hyes => ?_, fun hno => ?_⟩
    · rwa [hsplit.2 hyes] at hlatched
    · rwa [eq_true_of_ne_false (fun hf => hno (hsplit.1 hf))] at hlatched
  · intro x s e h hr hsa n k
    have htaken : laneTaken s e = true ↔ e.w.live.getLsbD k = true ∧ e.p.nwb = false := by simp [laneTaken, k]
    obtain ⟨t, w, hexec, hpassed, hraised, hlatched, huntouched, hflow, hvars, hcopies⟩ := mergeLane_merges h hr hsa
    refine ⟨t, w, hexec, hpassed, hraised, hlatched, huntouched, hflow, fun l hl => ?_, fun hlive hnwb => ?_, fun hoff => ?_⟩
    · exact (hvars l (BitVec.lt_of_getLsbD hl)).trans (if_congr htaken rfl rfl)
    · rw [if_pos (htaken.2 ⟨hlive, hnwb⟩)] at hcopies
      exact hcopies
    · have hnot : ¬laneTaken s e = true := by
        rw [htaken]
        rintro ⟨hlive, hnwb⟩
        simp [hlive, hnwb] at hoff
      rwa [if_neg hnot] at hcopies
  · intro x s e c g q h hr hg off halign hb
    obtain ⟨b, hbar, hscope⟩ := hb
    have hbarrier : q.hasBarrier off = true := by simp [Group.hasBarrier, halign, hbar, hscope]
    obtain ⟨t, hexec, hpassed, hraised, hlatched, huntouched, hgroup⟩ := mergeG_captures h hr hg hbarrier
    refine ⟨t, _, hexec, hpassed, hraised, hlatched, huntouched, hgroup, ?_⟩
    split <;> rfl

end Sys2Proof
end

