-- ==== Sys2Proof/Proofs/Rounding.lean ====
section
/-! Lemmas and proofs: rounding to a neighbour (R63), values that FP32 holds (R59, R64), and undefined results (R65). -/

namespace Sys2Proof

open Sys2Proof.Machine

/-! ### Rounding a magnitude (R63) -/

/-- A mode takes a magnitude between the multiples `r` and `r + 1` of 2 × `half`, `rest` above the lower one, to the upper one (R63). -/
def Machine.RMode.goesUp (mode : RMode) (neg : Bool) (r rest half : Nat) : Bool :=
  match mode with
  | .rne => half < rest || (rest == half && r % 2 == 1)
  | .rz => false
  | .rup => !neg
  | .rdn => neg

/-- A magnitude is a multiple of every unit that is not above its own. -/
theorem Machine.roundMag_finer (mode : RMode) (neg : Bool) (m : Nat) {e q : Int} (h : q ≤ e) : roundMag mode neg m e q = (m * 2 ^ (e - q).toNat, false) := by
  unfold roundMag
  rw [if_pos h]

/-- In a unit 2^k times its own a magnitude stays where it is a multiple, and else goes up or down as the mode says. -/
theorem Machine.roundMag_coarser (mode : RMode) (neg : Bool) (m k : Nat) (e : Int) (hk : 0 < k) :
    roundMag mode neg m e (e + k) =
      if m % 2 ^ k = 0 then (m / 2 ^ k, false)
      else (if mode.goesUp neg (m / 2 ^ k) (m % 2 ^ k) (2 ^ (k - 1)) then m / 2 ^ k + 1 else m / 2 ^ k, true) := by
  unfold roundMag
  rw [if_neg (by omega), show (e + k - e).toNat = k by omega]
  rfl

/-- Settles O16: the multiple below and the remainder say how far each neighbour is, and the mode says which is taken. -/
theorem roundingNeighbours : Obligations.RoundingNeighbours := by
  unfold Obligations.RoundingNeighbours
  intro mode neg m k e hk r u
  obtain ⟨half, hhalf⟩ : ∃ half, half = 2 ^ (k - 1) := ⟨_, rfl⟩
  have hu : u = 2 * half := by rw [hhalf, ← pow_succ']; exact congrArg _ (by omega)
  have hround := roundMag_coarser mode neg m k e hk
  rw [← hhalf, show (2 : Nat) ^ k = u from rfl] at hround
  have hr : r = (roundMag mode neg m e (e + k)).1 := rfl
  have hsplit : m / u * u + m % u = m := Nat.div_add_mod' m u
  have hrest : m % u < u := Nat.mod_lt m (by rw [show u = 2 ^ k from rfl]; positivity)
  have hnext : ∀ n, (n + 1) * u = n * u + u := fun n => Nat.succ_mul n u
  clear_value r u
  by_cases hexact : m % u = 0
  · rw [if_pos hexact] at hround
    obtain rfl : r = m / u := by rw [hr, hround]
    have hstay : m / u * u = m := by omega
    rw [hround, hnext, hstay]
    refine ⟨by simp, by omega, by omega, ?_⟩
    cases mode with
    | rz | rup | rdn => simp
    | rne => exact ⟨by omega, by omega, fun htie => by omega⟩
  · rw [if_neg hexact] at hround
    rw [hround, hnext]
    generalize m / u = n at *
    cases hup : mode.goesUp neg n (m % u) half with
    | true =>
      obtain rfl : r = n + 1 := by rw [hr, hround, hup]; rfl
      rw [hnext]
      refine ⟨by simp; omega, by omega, by omega, ?_⟩
      cases mode with
      | rne =>
        simp only [RMode.goesUp, Bool.or_eq_true, Bool.and_eq_true, decide_eq_true_eq, beq_iff_eq] at hup
        exact ⟨by omega, by omega, fun htie => by omega⟩
      | rz => cases hup
      | rup | rdn =>
        cases neg <;> simp [RMode.goesUp] at hup ⊢
        omega
    | false =>
      obtain rfl : r = n := by rw [hr, hround, hup]; rfl
      refine ⟨by simp; omega, by omega, by omega, ?_⟩
      cases mode with
      | rne =>
        simp only [RMode.goesUp, Bool.or_eq_false_iff, Bool.and_eq_false_iff, decide_eq_false_iff_not, beq_eq_false_iff_ne] at hup
        exact ⟨by omega, by omega, fun htie => by omega⟩
      | rz => show r * u ≤ m; omega
      | rup | rdn =>
        cases neg <;> simp [RMode.goesUp] at hup ⊢
        omega

/-! ### Values that a format holds (R59, R64) -/

/-- A finite value of at most the mantissa's width in units above the format's lowest rounds to its own code: m × 2^(qmin + n), where `n` is 0 for what has no more than a
subnormal's bits, and the width is full otherwise. -/
theorem Machine.Fmt.roundFin_exact (f : Fmt) (mode : RMode) (sat neg : Bool) {m n : Nat} (hwide : Nat.log2 m ≤ f.mbits) (hfull : n = 0 ∨ Nat.log2 m = f.mbits)
    (hmax : m + n * 2 ^ f.mbits ≤ f.maxCode) :
    f.roundFin mode sat neg m (f.qmin + n) = (m + n * 2 ^ f.mbits + b2n neg * 2 ^ f.signPos, {}) := by
  have hq : max ((Nat.log2 m : Int) + (f.qmin + n) - f.mbits) f.qmin = f.qmin + n := by omega
  have hcode : m + (f.qmin + n - f.qmin).toNat * 2 ^ f.mbits = m + n * 2 ^ f.mbits := by rw [show (f.qmin + n - f.qmin).toNat = n by omega]
  unfold Fmt.roundFin
  simp only [hq, roundMag_finer mode neg m (le_refl (f.qmin + n)), Int.sub_self, Int.toNat_zero, pow_zero, Nat.mul_one, hcode, if_neg (Nat.not_lt.2 hmax), Bool.false_and]

/-- The sign of a code stands above its magnitude. -/
theorem Machine.Fmt.sign_add_mag (f : Fmt) {code : Nat} (h : code < 2 ^ (f.signPos + 1)) : code % 2 ^ f.signPos + b2n (bit code f.signPos) * 2 ^ f.signPos = code := by
  have hsign : code / 2 ^ f.signPos < 2 := Nat.div_lt_of_lt_mul (by rwa [← pow_succ])
  have hb : b2n (bit code f.signPos) = code / 2 ^ f.signPos := by
    unfold b2n bit
    interval_cases code / 2 ^ f.signPos <;> rfl
  rw [hb]
  exact Nat.mod_add_div' code _

/-- A value of an IEEE format rounds to its own code in every mode, with no exception. -/
theorem Machine.Fmt.round_value (f : Fmt) (mode : RMode) (sat : Bool) {code : Nat} (hieee : f.top = .ieee) (htop : f.maxCode + 1 = (2 ^ f.ebits - 1) * 2 ^ f.mbits)
    (hcode : code < 2 ^ (f.signPos + 1)) (hnum : f.value code ≠ .nan) : f.round mode sat (f.value code) = (code, {}) := by
  have hsign := f.sign_add_mag hcode
  have hmag : code % 2 ^ f.signPos < 2 ^ f.ebits * 2 ^ f.mbits := by
    rw [← pow_add]
    exact Nat.mod_lt code (by positivity)
  unfold Fmt.value at hnum ⊢
  generalize code % 2 ^ f.signPos = mag at *
  generalize bit code f.signPos = neg at *
  have hparts : mag / 2 ^ f.mbits * 2 ^ f.mbits + mag % 2 ^ f.mbits = mag := Nat.div_add_mod' mag _
  have hm : mag % 2 ^ f.mbits < 2 ^ f.mbits := Nat.mod_lt mag (by positivity)
  simp only [hieee] at hnum ⊢
  by_cases hbig : f.maxCode < mag
  · rw [if_pos hbig] at hnum ⊢
    have hm0 : mag % 2 ^ f.mbits = 0 := by
      by_contra hne
      exact hnum (if_neg hne)
    have he : mag / 2 ^ f.mbits = 2 ^ f.ebits - 1 := by
      have hlow : 2 ^ f.ebits - 1 ≤ mag / 2 ^ f.mbits := (Nat.le_div_iff_mul_le (by positivity)).2 (by omega)
      have hhigh : mag / 2 ^ f.mbits < 2 ^ f.ebits := Nat.div_lt_of_lt_mul (by rwa [Nat.mul_comm])
      omega
    rw [if_pos hm0]
    show ((2 ^ f.ebits - 1) * 2 ^ f.mbits + b2n neg * 2 ^ f.signPos, _) = _
    rw [hm0, Nat.add_zero] at hparts
    rw [← he, hparts, hsign]
  · rw [if_neg hbig]
    by_cases hzero : mag = 0
    · rw [if_pos hzero]
      show (b2n neg * 2 ^ f.signPos, _) = _
      rw [← hsign, hzero, Nat.zero_add]
    · rw [if_neg hzero]
      by_cases hsub : mag / 2 ^ f.mbits = 0
      · rw [hsub, Nat.zero_mul, Nat.zero_add] at hparts
        rw [if_pos hsub, hparts]
        have hwide : Nat.log2 mag ≤ f.mbits := (Nat.log2_lt hzero).2 (by omega) |>.le
        have := f.roundFin_exact mode sat neg (n := 0) hwide (.inl rfl) (by omega)
        rw [Nat.zero_mul, Nat.add_zero, hsign] at this
        simpa [Fmt.round] using this
      · rw [if_neg hsub]
        obtain ⟨n, hn⟩ : ∃ n, mag / 2 ^ f.mbits = n + 1 := Nat.exists_eq_succ_of_ne_zero hsub
        rw [hn, Nat.succ_mul] at hparts
        have hwide : Nat.log2 (mag % 2 ^ f.mbits + 2 ^ f.mbits) = f.mbits :=
          (Nat.log2_eq_iff (by positivity)).2 ⟨by omega, by rw [pow_succ]; omega⟩
        have hval : mag % 2 ^ f.mbits + 2 ^ f.mbits + n * 2 ^ f.mbits = mag := by omega
        have := f.roundFin_exact mode sat neg (n := n) hwide.le (.inr hwide) (by omega)
        rw [hval, hsign] at this
        rw [hn, show f.qmin + (((n + 1 : Nat) : Int) - 1) = f.qmin + n by omega]
        exact this

/-! ### Undefined results (R65) -/

theorem Machine.Exact.nan_mul (v : Exact) : Exact.nan.mul v = .nan := rfl

theorem Machine.Exact.mul_nan (v : Exact) : v.mul .nan = .nan := by cases v <;> rfl

/-- A NaN among the terms makes the sum undefined. -/
theorem Machine.sumExact_nan (mode : RMode) {ts : List Exact} (h : Exact.nan ∈ ts) : sumExact mode ts = .nan := by
  have hany : ts.any (· == .nan) = true := List.any_eq_true.2 ⟨.nan, h, beq_self_eq_true _⟩
  unfold sumExact
  rw [if_pos hany]

theorem Machine.sumExact_opposite_inf (mode : RMode) (s : Bool) : sumExact mode [.inf s, .inf (!s)] = .nan := by cases s <;> rfl

/-- Settles O17: a value of FP32 is one of an IEEE format, and each undefined result is a NaN before it is rounded. -/
theorem exactAndUndefinedResults : Obligations.ExactAndUndefinedResults := by
  unfold Obligations.ExactAndUndefinedResults
  refine ⟨fun w mode sat hnum => ?_, fun _ _ => rfl, sumExact_opposite_inf, fun _ _ => ⟨rfl, rfl⟩, fun v => ⟨v.nan_mul, v.mul_nan⟩,
    fun mode v => ⟨sumExact_nan mode (by simp), sumExact_nan mode (by simp)⟩⟩
  have hround := fp32.round_value mode sat rfl rfl w.isLt hnum
  unfold roundFp32 f32
  rw [hround]
  exact Prod.ext (by simp) rfl

end Sys2Proof
end

