-- ==== Sys2Proof/Proofs/Dots.lean ====
section
/-! Lemmas and proof: per-lane arithmetic instructions give their results (R311, R315, R341), and the narrow dot products (R70 to R72, R359, R360). -/

namespace Sys2Proof

open Sys2Proof.Machine

/-! ### Per-lane arithmetic (R311, R315, R341) -/

/-- The instruction is neither a debug nor a register instruction: its fields are those of its specification on every core, and it executes once only where it is wave class. -/
def ordinary (i : Instr) : Bool := i.spec.any (fun p => p.major != 0x1E) && !namesRegister i

/-- An undisturbed ordinary instruction that executes once has no destination of lane home (R42). -/
theorem Ready.rank_of_ordinary {s : State} {i : Instr} {e : Issuer} (h : Ready s i e) (hi : ordinary i = true) (hscalar : scalarClass e.p = true) :
    ∀ k < roleCount e.p.dstRole, s.rank e.f e.w (e.p.dst.toNat + k) ≠ .lane := by
  unfold ordinary at hi
  rw [Bool.and_eq_true, Option.any_eq_true, Bool.not_eq_true'] at hi
  obtain ⟨⟨p, hp, hmajor⟩, hname⟩ := hi
  exact h.rank_ok (by rw [h.parts hp hname]; exact bne_iff_ne.1 hmajor) hscalar

/-- An ordinary per-lane floating-point instruction gives its patterns and their exceptions. -/
theorem givesFp_of_plan {i : Instr} {unit : Option Nat} {g : Ops → Word × Exc} (hi : ordinary i = true)
    (hx : ∀ s, Machine.exec i s = perform i (fpPlan unit g) s) : GivesFp i g :=
  gives_of_plan i (fpPlan unit g) (fun _ _ => unit) true (fun s e _ l => [(g (s.ops e l)).1]) (fun s e _ l => (g (s.ops e l)).2)
    (fun _ _ h hscalar _ => h.rank_of_ordinary hi hscalar) hx (fun _ _ => rfl)

/-- An ordinary per-lane integer instruction gives its values. -/
theorem givesInt_of_plan {i : Instr} {unit : Nat} {g : Ops → DWord} (hi : ordinary i = true)
    (hx : ∀ s, Machine.exec i s = perform i (intPlan unit g) s) : GivesInt i g :=
  gives_of_plan i (intPlan unit g) (fun _ _ => some unit) false (fun s e _ l => wordsOf (g (s.ops e l))) (fun _ _ _ _ => {})
    (fun _ _ h hscalar _ => h.rank_of_ordinary hi hscalar) hx (fun _ _ => rfl)

/-! ### Scaled dots (R71, R72, R360) -/

/-- A scaled dot whose scale word is no latch is a result of its block's lanes. -/
theorem Machine.scaledPlan_ok (f : Fmt) (w : Nat) {x : XArgs} (s : State) (e : Issuer) (h : ∀ k, scaleSrc x ≠ .latch k) :
    scaledPlan f w x s e =
      .ok (resultPlan e (some 5) true (fun _ l => [(dotScaled f w x s e e.run l).1]) (fun _ l => (dotScaled f w x s e e.run l).2)) := by
  unfold scaledPlan
  split
  · next k hk => exact absurd hk (h k)
  · rfl

/-- A scaled dot whose scale word is no latch gives the sum of its block for each lane (R360). -/
theorem dotScaled_gives {i : Instr} {f : Fmt} {w : Nat} {x : XArgs} (hi : ordinary i = true) (hx : ∀ s, Machine.exec i s = perform i (scaledPlan f w x) s) :
    GivesIf i (fun _ _ => ∀ k, scaleSrc x ≠ .latch k) (fun s e l => [(dotScaled f w x s e e.run l).1])
      (fun s e => (e.lanes e.run).foldl (fun a l => a.or (dotScaled f w x s e e.run l).2) {}) := by
  intro s e h hscale
  obtain ⟨s', hexec, hs⟩ := h.perform_ok (scaledPlan f w x) _ (scaledPlan_ok f w s e hscale) rfl rfl
  exact ⟨_, (hx s).trans hexec, h.finish_result s' hs (fun hscalar _ => h.rank_of_ordinary hi hscalar) (some 5) true
    (fun _ l => [(dotScaled f w x s e e.run l).1]) (fun _ l => (dotScaled f w x s e e.run l).2)⟩

/-- Settles O23: the plain dots are per-lane arithmetic, and a scaled dot is a result of its block's lanes. -/
theorem dotProducts : Obligations.DotProducts := by
  unfold Obligations.DotProducts
  have fp {i : Instr} {g : Ops → Word × Exc} := givesFp_of_plan (i := i) (unit := some 5) (g := g)
  have int {i : Instr} {g : Ops → DWord} := givesInt_of_plan (i := i) (unit := 5) (g := g)
  exact ⟨fun _ => fp rfl fun _ => rfl, fun _ => fp rfl fun _ => rfl, fun _ => fp rfl fun _ => rfl, fun _ => fp rfl fun _ => rfl,
    fun _ => int rfl fun _ => rfl, fun _ => int rfl fun _ => rfl, fun _ => int rfl fun _ => rfl,
    fun _ => dotScaled_gives rfl fun _ => rfl, fun _ => dotScaled_gives rfl fun _ => rfl, fun _ => dotScaled_gives rfl fun _ => rfl⟩

end Sys2Proof
end

