-- ==== Sys2Proof/Proofs/Accessed.lean ====
section
/-! Lemmas: what the checks of an access and the access itself leave of the state (R67, R96, R140, R192, R224, R227, R231), and what memory then holds (R75, R137). -/

namespace Sys2Proof

open Sys2Proof.Machine

/-! ### The relation -/

/-- A flow's record without what its accesses change: the releases that its reads have seen, its WSTAT and the watch exemptions that it has used (R67, R140, R142, R456). -/
def Machine.Wave.unmarked (w : Wave) : Wave := { w with seen := [], wstat := Wstat.reset, exempt := [] }

/-- A core without its waves and its L1 TLB. -/
def Machine.Core.beside (q : Core) : Core := { q with waves := [], l1 := [] }

/-- The checks and the accesses of a flow have changed nothing but memory with its releases and reservations, the TLBs and tiers, marks of launches, and marks of the flow's own
record. -/
structure Accessed (f : Flow) (s t : State) : Prop where
  rest : { t with mem := s.mem, tags := s.tags, reservations := s.reservations, cores := s.cores, dies := s.dies, launches := s.launches, fresh := s.fresh } = s
  others : ∀ g, g ≠ f → t.flow? g = s.flow? g
  own : (t.flow? f).map Wave.unmarked = (s.flow? f).map Wave.unmarked
  cores : ∀ c, (t.core c).beside = (s.core c).beside
  launches : SameRecords t.launches s.launches

/-- No injection is armed, and no word is bad, on the core that a flow runs on. -/
def SoundFor (f : Flow) (s : State) : Prop := ∀ c k, f = .wave c k → (s.core c).sound = true

namespace Accessed

variable {f : Flow} {s t u : State}

theorem refl (f : Flow) (s : State) : Accessed f s s := ⟨rfl, fun _ _ => rfl, rfl, fun _ => rfl, SameRecords.refl _⟩

theorem trans (h : Accessed f s t) (k : Accessed f t u) : Accessed f s u where
  rest := (congrArg (fun x : State => { x with mem := s.mem, tags := s.tags, reservations := s.reservations, cores := s.cores, dies := s.dies, launches := s.launches,
                                               fresh := s.fresh }) k.rest).trans h.rest
  others g hg := (k.others g hg).trans (h.others g hg)
  own := k.own.trans h.own
  cores c := (k.cores c).trans (h.cores c)
  launches := SameRecords.trans k.launches h.launches

/-! What stands after it. -/

theorem globals (h : Accessed f s t) : t.globals = s.globals := (congrArg State.globals h.rest :)
theorem chains (h : Accessed f s t) : t.chains = s.chains := (congrArg State.chains h.rest :)
theorem poison (h : Accessed f s t) : t.poison = s.poison := (congrArg State.poison h.rest :)
theorem dstep (h : Accessed f s t) : t.dstep = s.dstep := (congrArg State.dstep h.rest :)

theorem sound (h : Accessed f s t) (hs : SoundFor f s) : SoundFor f t := fun c k hf =>
  (congrArg Core.sound (h.cores c) : (t.core c).beside.sound = (s.core c).beside.sound).trans (hs c k hf)

theorem watches (h : Accessed f s t) (c : Nat) : (t.core c).watches = (s.core c).watches := (congrArg Core.watches (h.cores c) :)

theorem group? (h : Accessed f s t) (c g : Nat) : t.group? c g = s.group? c g := (congrArg (fun q : Core => q.groups.get g) (h.cores c) :)

theorem flow (h : Accessed f s t) {w : Wave} (hf : s.flow? f = some w) :
    ∃ seen wstat exempt, t.flow? f = some { w with seen, wstat, exempt } := by
  have hown := h.own
  rw [hf] at hown
  obtain ⟨v, hv, hvw⟩ := Option.map_eq_some_iff.1 hown
  exact ⟨v.seen, v.wstat, v.exempt, hv.trans (congrArg some (congrArg (fun x : Wave => { x with seen := v.seen, wstat := v.wstat, exempt := v.exempt }) hvw :))⟩

theorem flows (h : Accessed f s t) (g : Flow) : (t.flow? g).map Wave.unmarked = (s.flow? g).map Wave.unmarked := by
  by_cases hg : g = f
  · subst hg; exact h.own
  · rw [h.others g hg]

theorem rank (h : Accessed f s t) (g : Flow) (w : Wave) (x : Nat) : t.rank g w x = s.rank g w x := h.launches.rank (s := s) g w x

theorem groupHome (h : Accessed f s t) (g : Flow) (x : Nat) : t.groupHome g x = s.groupHome g x := by
  cases g with
  | steward d k => rfl
  | wave c k =>
    have hgroup (r : State) : (r.flow? (.wave c k)).bind (fun w => (r.group? c w.group).map Group.home) =
        ((r.flow? (.wave c k)).map Wave.unmarked).bind (fun w => (r.group? c w.group).map Group.home) := by cases r.flow? (.wave c k) <;> rfl
    rw [s.groupHome_wave, t.groupHome_wave, hgroup s, hgroup t, h.flows]
    simp only [h.group?]

/-- Every variable of every flow reads as before. -/
theorem varAt (h : Accessed f s t) (g : Flow) (x l : Nat) : varAt t g x l = varAt s g x l := by
  have hread (r : State) : Sys2Proof.varAt r g x l = ((r.flow? g).map Wave.unmarked).map (fun w => r.readVar g w x l) := by
    unfold Sys2Proof.varAt
    rw [Option.map_map]
    rfl
  rw [hread s, hread t, h.flows]
  congr 1
  funext w
  unfold State.readVar
  simp only [h.rank, h.groupHome]

theorem ownedBytes (h : Accessed f s t) (pa n : Nat) : t.ownedBytes pa n = s.ownedBytes pa n := by
  unfold State.ownedBytes
  rw [h.globals, h.chains]

theorem poisonOf (h : Accessed f s t) (e : Issuer) (ps : Tab Nat) (va : Nat → Nat) : t.poisonOf e ps va = s.poisonOf e ps va := by
  unfold State.poisonOf
  rw [h.poison]

/-! ### The changes that make it up -/

theorem modDie (f : Flow) (s : State) (d : Nat) (g : Die → Die) (h : (g (s.die d)).stewards = (s.die d).stewards := by rfl) : Accessed f s (s.modDie d g) :=
  ⟨rfl, fun _ _ => s.flow?_modDie d g h _, by rw [s.flow?_modDie d g h], fun _ => rfl, SameRecords.refl _⟩

theorem modCore (f : Flow) (s : State) (c : Nat) (g : Core → Core) (hw : ∀ q, (g q).waves = q.waves) (h : ∀ q, (g q).beside = q.beside) : Accessed f s (s.modCore c g) := by
  refine ⟨rfl, fun _ _ => s.flow?_modCore c g (hw _) _, by rw [s.flow?_modCore c g (hw _)], fun c' => ?_, SameRecords.refl _⟩
  rw [s.core_modCore]
  split
  · next hc => rw [h]
  · rfl

theorem modFlow (s : State) (f : Flow) (g : Wave → Wave) (h : ∀ w, (g w).unmarked = w.unmarked) : Accessed f s (s.modFlow f g) := by
  refine ⟨?_, fun k hk => s.flow?_modFlow_ne g (Ne.symm hk), ?_, fun c => ?_, ?_⟩
  · unfold State.modFlow
    split
    · cases f <;> rfl
    · rfl
  · rw [s.flow?_modFlow_self, Option.map_map, show Wave.unmarked ∘ g = Wave.unmarked from funext h]
  · exact congrArg (fun q : Core => { q with l1 := [] }) (s.core_modFlow_rest f g c)
  · rw [s.launches_modFlow]
    exact SameRecords.refl _

theorem foldl {α : Type} (g : State → α → State) (h : ∀ s a, Accessed f s (g s a)) (l : List α) (s : State) : Accessed f s (l.foldl g s) := by
  induction l generalizing s with
  | nil => exact refl f s
  | cons a l ih => exact (h s a).trans (ih (g s a))

/-! ### Memory at the home slice (R137, R231, R402) -/

theorem countGranule (f : Flow) (s : State) (pa n : Nat) (write : Bool) : Accessed f s (s.countGranule pa n write) := by
  unfold State.countGranule
  split
  · exact refl f s
  · have hfresh : Accessed f s { s with fresh := s.fresh + 1 } := ⟨rfl, fun _ _ => rfl, rfl, fun _ => rfl, SameRecords.refl _⟩
    exact hfresh.trans (modDie f _ _ _)

theorem poke (f : Flow) (s : State) (pa : Nat) (bs : List Byte) (atomic : Bool) (tag : Option SyncTag) : Accessed f s (s.poke pa bs atomic tag) := by
  have hwrite (r : List Reservation) : Accessed f s (State.tagWrite { s.setBytes pa bs with reservations := r } pa bs.length atomic tag) :=
    ⟨rfl, fun g _ => by cases g <;> rfl, by cases f <;> rfl, fun _ => rfl, SameRecords.refl _⟩
  exact (hwrite _).trans (countGranule f _ pa bs.length true)

/-! ### Walks and translations (R224, R227) -/

theorem pinLeaf (f : Flow) (s : State) (pa size pte : Nat) : Accessed f s (s.pinLeaf pa size pte) := by
  unfold State.pinLeaf
  dsimp only
  split
  · exact modDie f s _ _
  · exact refl f s

theorem touchLeaf (f : Flow) (s : State) (entry pte : Nat) (write : Bool) : Accessed f s (s.touchLeaf entry pte write).1 := by
  unfold State.touchLeaf
  generalize (pte ||| 0x40 ||| if write then 0x80 else 0) = v
  dsimp only
  split
  · exact refl f s
  · exact poke ..

theorem walkFill (f : Flow) (s : State) (die asid va : Nat) (use : Use) (steward : Bool) : Accessed f s (s.walkFill die asid va use steward).1 := by
  have hcount : Accessed f s ((s.walkEntries die asid va).foldl (fun s a => s.countGranule a 8 false) s) := foldl _ (fun s a => countGranule f s a 8 false) _ s
  unfold State.walkFill
  dsimp only
  split
  · exact hcount
  · next entry base size pa pte _ =>
    have hpin := hcount.trans (pinLeaf f _ pa size pte)
    split
    · exact hpin
    · refine (hpin.trans (touchLeaf f _ entry pte (use == .write))).trans ?_
      dsimp only
      exact modDie f _ die _

theorem translateDie (f : Flow) (s : State) (die asid va : Nat) (use : Use) (steward : Bool) : Accessed f s (s.translateDie die asid va use steward).1 := by
  unfold State.translateDie
  split
  · exact refl f s
  · exact walkFill ..

end Accessed

/-- No injection strikes an array of a sound core. -/
theorem Machine.Core.sound_not_armed {q : Core} (h : q.sound = true) (k index : Nat) : q.armed k index = false := by
  have h63 : bit (q.errInj.getD k 0).toNat 63 = (q.errInj.getD k 0).getLsbD 63 := by
    rw [← BitVec.testBit_toNat, Nat.testBit_eq_decide_div_mod_eq]
    rfl
  unfold Core.armed
  simp only [h63, Core.sound_unarmed h k, Bool.false_and]

theorem Machine.State.cacheWritten_sound {s : State} {c : Nat} (h : (s.core c).sound = true) (k index : Nat) (site : Site) : s.cacheWritten c k index site = s := by
  unfold State.cacheWritten
  rw [Core.sound_not_armed h, if_neg Bool.false_ne_true]

namespace Accessed

variable {f : Flow} {s t u : State}

theorem l1Written_enter {c k : Nat} (hs : SoundFor (.wave c k) s) (u : Translation) :
    Accessed (.wave c k) s ((s.modCore c (fun q => { q with l1 := enterTlb 128 u q.l1 })).l1Written (.wave c k) c u) := by
  have henter : Accessed (.wave c k) s (s.modCore c (fun q => { q with l1 := enterTlb 128 u q.l1 })) := modCore _ s c _ (fun _ => rfl) (fun _ => rfl)
  unfold State.l1Written
  simp only [Core.sound_not_armed (henter.sound hs c k rfl), Bool.false_eq_true, if_false]
  exact henter

theorem translate (hs : SoundFor f s) (asid va : Nat) (use : Use) : Accessed f s (s.translate f asid va use).1 := by
  unfold State.translate
  cases f with
  | steward d k =>
    have h := translateDie (.steward d k) s d asid va use (isSteward (.steward d k))
    dsimp only
    split <;> next heq => rw [heq] at h; exact h
  | wave c k =>
    dsimp only
    split
    · exact refl _ s
    · have h := translateDie (.wave c k) s (dieOf c) asid va use (isSteward (.wave c k))
      split
      · next t u heq =>
        rw [heq] at h
        exact h.trans (l1Written_enter (h.sound hs) u)
      · next heq => rw [heq] at h; exact h

/-! ### The checks of an instruction's accesses (R392) -/

theorem checkGlobal (hs : SoundFor f s) (va bytes : Nat) (use : Use) (k : AccessKind) (lane : Nat) : Accessed f s (s.checkGlobal f va bytes use k lane).1 := by
  have h := translate hs (s.asidOf f) va use
  unfold State.checkGlobal State.checkGlobalAs
  split
  · exact refl f s
  · split
    · exact refl f s
    · split
      · next heq => rw [heq] at h; exact h
      · next heq =>
        rw [heq] at h
        split <;> exact h

/-- The checks of lanes leave what an access leaves; where none of them faults, each lane has its address, in order. -/
theorem checkLanes (bytes : Nat) (use : Use) (k : AccessKind) (ls : List (Nat × Nat)) (hs : SoundFor f s) :
    Accessed f s (s.checkLanes f bytes use k ls).1 ∧
      ((s.checkLanes f bytes use k ls).2.1 = [] → (s.checkLanes f bytes use k ls).2.2.map Prod.fst = ls.map Prod.fst) := by
  induction ls generalizing s with
  | nil => exact ⟨refl f s, fun _ => rfl⟩
  | cons a ls ih =>
    obtain ⟨l, va⟩ := a
    have hone := checkGlobal hs va bytes use k l
    obtain ⟨hrest, hkeys⟩ := ih (hone.sound hs)
    unfold State.checkLanes
    generalize s.checkGlobal f va bytes use k l = r at *
    obtain ⟨s1, r⟩ := r
    dsimp only at hone hrest hkeys ⊢
    cases r with
    | ok pa => exact ⟨hone.trans hrest, fun hnone => by simp [hkeys hnone]⟩
    | error t => exact ⟨hone.trans hrest, fun hnone => by cases hnone⟩

end Accessed

theorem Machine.Trap.first_eq_none {ts : List Trap} (h : Trap.first ts = none) : ts = [] := by
  cases ts with
  | nil => rfl
  | cons t ts =>
    unfold Trap.first at h
    split at h <;> cases h

/-- Accesses that pass their checks leave what an access leaves, and have an address for each lane that makes one, in order (R390, R392). -/
theorem Machine.State.resolve_ok {s s' : State} {e : Issuer} {bytes : Nat} {use : Use} {k : AccessKind} {va : Nat → Nat} {ps : Tab Nat} (hs : SoundFor e.f s)
    (h : s.resolve e bytes use k va = (s', .ok ps)) : Accessed e.f s s' ∧ ps.map Prod.fst = e.accessLanes := by
  obtain ⟨hacc, hkeys⟩ := Accessed.checkLanes bytes use k (e.accessLanes.map (fun l => (l, va l))) hs
  unfold State.resolve at h
  generalize s.checkLanes e.f bytes use k (e.accessLanes.map (fun l => (l, va l))) = r at *
  obtain ⟨t, ts, qs⟩ := r
  dsimp only at h hacc hkeys
  split at h
  · cases h
  · next hfirst =>
    cases h
    obtain ⟨hnone, -⟩ := List.append_eq_nil_iff.1 (Trap.first_eq_none hfirst)
    refine ⟨hacc, (hkeys hnone).trans ?_⟩
    rw [List.map_map]
    exact List.map_id _

end Sys2Proof
end

