-- ==== Sys2Proof/Proofs/Served.lean ====
section
/-! Lemmas: an undisturbed instruction whose accesses have passed their checks issues, performs or sends its request, and leaves its clause (R17, R18, R96, R239, R289, R290,
R393, R456; log 126). -/

namespace Sys2Proof

open Sys2Proof.Machine

/-! ### Issuing behind the checks (R289, R290, R450, R456) -/

/-- What the watches leave of a state on a core without one: no change but exemptions used (R456). -/
def Gated (e : Issuer) (s t : State) : Prop := t = s ∨ t = s.modFlow e.f (fun w => w.useExempt e.c e.run)

section Gated

variable {e : Issuer} {s t : State}

theorem Gated.accessed (h : Gated e s t) : Accessed e.f s t := by
  rcases h with rfl | rfl
  · exact Accessed.refl _ _
  · exact Accessed.modFlow s e.f _ (fun _ => rfl)

theorem Gated.mem (h : Gated e s t) : t.mem = s.mem := by
  rcases h with rfl | rfl
  · rfl
  · exact s.mem_modFlow e.f _

theorem Gated.reservations (h : Gated e s t) : t.reservations = s.reservations := by
  rcases h with rfl | rfl
  · rfl
  · exact s.reservations_modFlow e.f _

/-- On a core without watches the whole run commits. -/
theorem Machine.State.gate_unwatched (h : ∀ c k, e.f = .wave c k → (s.core c).watches = []) (pr : Probe) : ∃ t, s.gate e pr = .go e.run t ∧ Gated e s t := by
  unfold State.gate State.gateWith
  split
  · exact ⟨s, rfl, .inl rfl⟩
  · next c k hf =>
    simp only [hf, h c k hf, beq_self_eq_true, if_true]
    split
    · exact ⟨s, rfl, .inl rfl⟩
    · unfold State.useExempt
      split
      · exact ⟨s, rfl, .inl rfl⟩
      · exact ⟨_, rfl, .inr rfl⟩

/-- On a sound core no checker strikes. -/
theorem Machine.State.checker_sound (h : SoundFor e.f s) (unit : Option Nat) : s.checker e unit = (s, none) := by
  unfold State.checker
  split
  · next u c k hf =>
    simp only [Core.sound_unarmed (h c k hf), Bool.false_and, Bool.false_eq_true, if_false]
  · rfl

end Gated

/-- An undisturbed instruction whose plan stands on the state that its checks have left takes its effect there, for the whole run. -/
theorem Ready.perform_checked {s s' : State} {i : Instr} {e : Issuer} (h : Ready s i e) {plan : State → Issuer → Except Hold Plan} {pl : Plan} (hp : plan s e = .ok pl)
    (hst : pl.st = some s') (ha : Accessed e.f s s') : ∃ t, Gated e s' t ∧ perform i plan s = .next (t.finish e pl e.run) := by
  obtain ⟨t, hgate, ht⟩ := State.gate_unwatched (s := s') (fun c k hf => (ha.watches c).trans (h.watches c k hf)) pl.probe
  unfold perform
  simp only [h.issuer, h.legal, h.free, Bool.false_eq_true, if_false, ite_self, Bool.and_false, h.resident, hp, hst, Option.getD_some,
    State.checker_sound (ha.sound h.sound), hgate]
  by_cases hpass : pl.pass = true
  · exact ⟨s', .inl rfl, by rw [if_pos hpass]⟩
  · exact ⟨t, ht, by rw [if_neg hpass]⟩

/-! ### Leaving (R17, R18) -/

/-- What the leaving of an instruction looks at in its flow's record. -/
def Machine.Wave.stance (w : Wave) : Option Clause × LaneMask × LaneMask × Bool × Bool := (w.clause, w.live, w.halted, w.handler, w.traced)

/-- Leaving an instruction changes nothing but what `OnlyVars` names, and no variable and no other flow. -/
structure Departs (e : Issuer) (u t : State) : Prop where
  only : OnlyVars u t
  vars : ∀ f x l, varAt t f x l = varAt u f x l
  others : ∀ f, f ≠ e.f → t.flow? f = u.flow? f

theorem Departs.settle (e : Issuer) (u : State) : Departs e u (u.settle e.f) := ⟨OnlyVars.settle u e.f, varAt_settle u e.f, fun f _ => u.flow?_settle e.f f⟩

/-- Behind its effect `u` an undisturbed instruction whose flow still stands in its clause passes. -/
theorem Ready.finish_passed {s t u : State} {i : Instr} {e : Issuer} (h : Ready s i e) {pl : Plan} (hu : pl.commit e.run t = u) (hstay : pl.stay = false)
    (htarget : pl.target = none) (hafter : pl.after = id) (hf : (u.flow? e.f).map Wave.stance = some e.w.stance) (hsound : SoundFor e.f u) (hd : u.dstep = none) :
    Passed (t.finish e pl e.run) e ∧ Departs e u (t.finish e pl e.run) := by
  obtain ⟨-, -, hcl, -⟩ := s.of_issuer h.issuer
  obtain ⟨w, hf, hw⟩ := Option.map_eq_some_iff.1 hf
  simp only [Wave.stance, Prod.mk.injEq] at hw
  obtain ⟨hc, hlive, hhalted, hhandler, htraced⟩ := hw
  have hO := OnlyVars.settle u e.f
  have harr : (u.settle e.f).arraysWritten e e.run pl.later = u.settle e.f :=
    State.arraysWritten_sound _ e e.run pl.later (fun c k hw => (hO.sound c).trans (hsound c k hw))
  obtain ⟨hO', hV, hN, w', hf', -, -, hplace⟩ := (u.settle e.f).retire_spec e (pl.latch.map (fun k => k e.run)) none w ((u.flow?_settle e.f e.f).trans hf) (hc.trans hcl)
    (htraced.trans h.untraced)
  have hmovers : w.movers e.c = e.w.movers e.c := by unfold Wave.movers; rw [hlive, hhalted]
  rw [hhandler, hmovers] at hplace
  have hfinish : t.finish e pl e.run = (u.settle e.f).retire e (pl.latch.map (fun k => k e.run)) none := by
    unfold State.finish
    simp only [hu, hstay, htarget, hafter, harr, Bool.false_eq_true, if_false, id]
    unfold State.afterStep
    rw [(hO.trans hO').dstep, hd]
  rw [hfinish]
  exact ⟨⟨w', hf', hplace⟩, hO.trans hO', fun f x l => (hV f x l).trans (varAt_settle u e.f f x l), fun f hne => (hN f hne).trans (u.flow?_settle e.f f)⟩

/-! ### What memory instructions leave alone -/

section MemCalm

variable {s t u : State} {e : Issuer}

theorem Accessed.memCalm (h : Accessed e.f s t) (hf : s.flow? e.f = some e.w) : MemCalm s t e where
  vars g x l _ := h.varAt g x l
  flows g hg := by rw [h.others g hg]
  own := by
    obtain ⟨_, _, _, hflow⟩ := h.flow hf
    rw [hflow]
    rfl
  cores c := (congrArg (fun q : Core => { q.still with l1 := [] }) (h.cores c) :)
  groups c g := by rw [h.group?]

/-- A change of the flow's record that is no part of what stands at rest. -/
theorem MemCalm.modFlow (h : MemCalm s u e) (g : Wave → Wave) (hrest : ∀ w, (g w).atRest = w.atRest) (hgroup : ∀ w, (g w).group = w.group)
    (hvar : ∀ w x l, (g w).sameVar w x l) : MemCalm s (u.modFlow e.f g) e where
  vars f x l hl := (varAt_modFlow_same u e.f g f x l hgroup (fun w => hvar w x l)).trans (h.vars f x l hl)
  flows f hf := by rw [u.flow?_modFlow_ne g (Ne.symm hf), h.flows f hf]
  own := by rw [u.flow?_modFlow_self, Option.map_map, show Wave.atRest ∘ g = Wave.atRest from funext hrest, h.own]
  cores c := (congrArg (fun q : Core => { q.still with l1 := [] }) (u.core_modFlow_rest e.f g c) :).trans (h.cores c)
  groups c k := by rw [u.group?_modFlow, h.groups]

theorem MemCalm.departs (h : MemCalm s u e) (k : Departs e u t) : MemCalm s t e where
  vars f x l hl := (k.vars f x l).trans (h.vars f x l hl)
  flows f hf := by rw [k.others f hf, h.flows f hf]
  own := by
    have hrest (r : State) : (r.flow? e.f).map Wave.atRest = ((r.flow? e.f).map Wave.still).map (fun w => { w with flags := [], outstanding := [], seen := [] }) := by
      rw [Option.map_map]; rfl
    rw [hrest t, k.only.flows, ← hrest u, h.own]
  cores c := (congrArg (fun q : Core => { q with l1 := [] }) (k.only.cores c)).trans (h.cores c)
  groups c g := (k.only.groups c g).trans (h.groups c g)

end MemCalm

/-! ### Results that return later (R96, R393) -/

/-- The result that becomes outstanding. -/
def Machine.Given.result (g : Given) (e : Issuer) (run : LaneMask) : Outstanding :=
  { dst := if e.p.nwb || roleCount e.p.dstRole = 0 then none else some e.p.dst.toNat, vars := roleCount e.p.dstRole, scalar := scalarClass e.p, run, vals := g.vals,
    flag := e.p.flag, failure := g.failure, reads := g.reads, site := e.c.addr, major := e.p.major }

/-- A flow's record with one more result outstanding, and its flag raised (R96). -/
def Machine.Wave.awaits (w : Wave) (o : Outstanding) : Wave := { (w.raiseFlag o.flag) with outstanding := w.outstanding ++ [o] }

theorem Machine.Wave.awaits_eq (w : Wave) (o : Outstanding) : w.awaits o = { w with flags := (w.awaits o).flags, outstanding := w.outstanding ++ [o] } := by
  unfold Wave.awaits Wave.raiseFlag
  cases o.flag <;> rfl

theorem Machine.Wave.flags_awaits (w : Wave) {o : Outstanding} {k : Fin 12} (h : o.flag = some k) : (w.awaits o).flags.getD k.val 0 = w.flags.getD k.val 0 + 1 := by
  unfold Wave.awaits Wave.raiseFlag
  rw [h]
  exact Tab.getD_set_self _ _ _ _

/-- A flow's record with one more result outstanding stands where it stood, and reads its variables alike. -/
theorem Machine.Wave.awaits_keeps (w : Wave) (o : Outstanding) :
    (w.awaits o).atRest = w.atRest ∧ (w.awaits o).stance = w.stance ∧ (w.awaits o).group = w.group ∧ ∀ x l, (w.awaits o).sameVar w x l := by
  rw [Wave.awaits_eq]
  exact ⟨rfl, rfl, rfl, fun _ _ => ⟨rfl, rfl, rfl, rfl⟩⟩

theorem Machine.State.later_eq {s : State} (h : s.dstep = none) (e : Issuer) (run : LaneMask) (g : Given) :
    s.later e run g = s.modFlow e.f (fun w => w.awaits (g.result e run)) := by
  unfold State.later
  rw [h]
  rfl

/-! ### Results written at once (R41 to R45) -/

theorem Machine.OnlyVars.putWords (s : State) (e : Issuer) (run : LaneMask) (v : Nat → List Word) : OnlyVars s (s.putWords e run v) := by
  unfold State.putWords
  split
  · exact OnlyVars.refl s
  · exact OnlyVars.writeVars ..

/-- A result's words move no thread of the flow. -/
theorem Machine.State.stance_putWords (s : State) {e : Issuer} {w : Wave} (hf : s.flow? e.f = some w) (run : LaneMask) (v : Nat → List Word) :
    ((s.putWords e run v).flow? e.f).map Wave.stance = some w.stance := by
  unfold State.putWords
  split
  · rw [hf]; rfl
  · obtain ⟨u, hu, hstill, -, -, hclause, -⟩ := s.flow?_writeVars e.f w hf (scalarClass e.p) e.p.dst.toNat (roleCount e.p.dstRole) run v
    obtain ⟨-, -, hlive, htraced, hhandler, hhalted, -⟩ := Wave.of_still hstill
    rw [hu]
    simp only [Option.map_some, Wave.stance, hclause, hlive, hhalted, hhandler, htraced]

/-- Words put for an instruction's lanes, behind its accesses, are its result; no other variable reads anew. -/
theorem putWords_wrote {s u : State} {i : Instr} {e : Issuer} (h : Ready s i e) (hi : ordinary i = true) (ha : Accessed e.f s u) {v vals : Nat → List Word}
    (hv : ∀ l ∈ e.accessLanes, v l = vals l) :
    Wrote s (u.putWords e e.run v) e vals ∧ ∀ f y l, l < 64 → ¬isDst e f y → varAt (u.putWords e e.run v) f y l = varAt s f y l := by
  obtain ⟨-, hf, -, -⟩ := s.of_issuer h.issuer
  obtain ⟨seen, wstat, exempt, hflow⟩ := ha.flow hf
  unfold Wrote State.putWords
  by_cases hnwb : e.p.nwb = true
  · simp only [hnwb, if_true]
    exact ⟨fun k _ l _ => ha.varAt _ _ _, fun f y l _ _ => ha.varAt f y l⟩
  · simp only [if_neg hnwb]
    refine ⟨fun k hk l hl => ?_, fun f y l hl hd => (varAt_writeVars_other u e.f _ _ _ e.run v f y l hl hd).trans (ha.varAt f y l)⟩
    by_cases hscalar : scalarClass e.p = true
    · have hrank : ∀ j < roleCount e.p.dstRole, u.rank e.f { e.w with seen, wstat, exempt } (e.p.dst.toNat + j) ≠ .lane := fun j hj =>
        (ha.rank e.f _ _).trans_ne (h.rank_of_ordinary hi hscalar j hj)
      have hlead : v e.lead = vals e.lead := hv _ (by unfold Issuer.accessLanes; rw [if_pos hscalar]; exact List.mem_singleton_self _)
      rw [if_pos hscalar, hscalar, varAt_writeVars_scalar u e.f _ hflow _ _ e.run v k l hk hl hrank, ha.varAt, ← hlead]
      rfl
    · have hlanes : e.run.getLsbD l = true → v l = vals l := fun hrun =>
        hv l (by unfold Issuer.accessLanes; rw [if_neg hscalar]; exact (LaneMask.mem_toList _ _).2 hrun)
      rw [if_neg hscalar, Bool.eq_false_iff.2 hscalar]
      refine ⟨fun hrun => ?_, fun hrun hlive => ?_⟩
      · rw [varAt_writeVars_run u e.f _ hflow _ _ e.run v k l hk hrun, hlanes hrun]
      · rw [varAt_writeVars_off u e.f _ hflow _ _ e.run v _ l hrun hlive, ha.varAt]

/-! ### Instructions that memory serves (R239, R246, R291, R393; log 126) -/

/-- Accesses that perform from a state of the flow: they fail nowhere, give each lane its words, and leave what is said of memory and reservations. -/
structure Performs (e : Issuer) (s : State) (g : Given) (vals : Nat → List Word) (served : State → Prop) : Prop where
  accessed : Accessed e.f s g.s
  good : g.failure = none
  words : ∀ l ∈ e.accessLanes, g.words l = vals l
  served : ∀ t, t.mem = g.s.mem → t.reservations = g.s.reservations → served t

section Request

variable {i : Instr} {s s' t : State} {e : Issuer} {ps : Tab Nat} {va : Nat → Nat} {probe : Probe} {access : LaneMask → State → Given} {vals : Nat → List Word}
  {served : State → Prop}

theorem Accessed.stance (h : Accessed e.f s t) (hf : s.flow? e.f = some e.w) : (t.flow? e.f).map Wave.stance = some e.w.stance := by
  obtain ⟨_, _, _, hflow⟩ := h.flow hf
  rw [hflow]
  rfl

/-- What stands in the flow's record of a result that has become outstanding is a result under way (R96). -/
theorem underWay_of_awaits {g : Given} {w : Wave} (hstill : (t.flow? e.f).map Wave.still = some (w.awaits (g.result e e.run)).still)
    (hout : w.outstanding = e.w.outstanding) (hflags : w.flags = e.w.flags) (hgood : g.failure = none) (hwords : ∀ l ∈ e.accessLanes, g.words l = vals l) : UnderWay t e vals := by
  obtain ⟨v, hv, hvw⟩ := Option.map_eq_some_iff.1 hstill
  have hvout : v.outstanding = w.outstanding ++ [g.result e e.run] := (congrArg Wave.outstanding hvw :)
  have hvflags : v.flags = (w.awaits (g.result e e.run)).flags := (congrArg Wave.flags hvw :)
  refine ⟨v, g.result e e.run, hv, by rw [hvout, hout], hgood, rfl, rfl, ?_, rfl, fun l hl k _ => by rw [← hwords l hl]; rfl, fun k hk => ?_⟩
  · unfold Given.result
    simp only [Bool.or_eq_true, decide_eq_true_eq]
  · rw [hvflags, ← hflags]
    exact Wave.flags_awaits _ hk

/-- A result under way (R96, R393): accesses that perform at once and answer later. -/
theorem Ready.finish_later (h : Ready s i e) (ha : Accessed e.f s t) (hperform : Performs e t (access e.run t) vals served) :
    let r := t.finish e (laterPlan s' e probe access) e.run
    Passed r e ∧ MemCalm s r e ∧ served r ∧ UnderWay r e vals := by
  intro r
  obtain ⟨-, hs, -, -⟩ := s.of_issuer h.issuer
  have hg := ha.trans hperform.accessed
  generalize hgiven : access e.run t = g at hperform hg
  obtain ⟨o, ho⟩ : ∃ o, g.result e e.run = o := ⟨_, rfl⟩
  have hd : g.s.dstep = none := hg.dstep.trans h.alone
  have hkeeps (w : Wave) := w.awaits_keeps o
  have hcommit : (laterPlan s' e probe access).commit e.run t = g.s.modFlow e.f (fun w => w.awaits o) := by
    show (access e.run t).s.later e e.run (access e.run t) = _
    rw [hgiven, State.later_eq hd, ho]
  have hcalm : MemCalm s (g.s.modFlow e.f (fun w => w.awaits o)) e :=
    (hg.memCalm hs).modFlow _ (fun w => (hkeeps w).1) (fun w => (hkeeps w).2.2.1) (fun w => (hkeeps w).2.2.2)
  have hstance : ((g.s.modFlow e.f (fun w => w.awaits o)).flow? e.f).map Wave.stance = some e.w.stance := by
    rw [State.flow?_modFlow_self, Option.map_map, show (Wave.stance ∘ fun w => w.awaits o) = Wave.stance from funext fun w => (hkeeps w).2.1]
    exact hg.stance hs
  have hsound : SoundFor e.f (g.s.modFlow e.f (fun w => w.awaits o)) := fun c k hw =>
    (congrArg Core.sound (g.s.core_modFlow_rest e.f (fun w => w.awaits o) c) :).trans (hg.sound h.sound c k hw)
  obtain ⟨hpassed, hdeparts⟩ := h.finish_passed hcommit rfl rfl rfl hstance hsound ((g.s.dstep_modFlow e.f _).trans hd)
  refine ⟨hpassed, hcalm.departs hdeparts, hperform.served r (hdeparts.only.mem.trans (g.s.mem_modFlow e.f _)) (hdeparts.only.reservations.trans (g.s.reservations_modFlow e.f _)), ?_⟩
  obtain ⟨seen, wstat, exempt, hflow⟩ := hg.flow hs
  refine underWay_of_awaits (g := g) (w := { e.w with seen, wstat, exempt }) ?_ rfl rfl hperform.good hperform.words
  rw [hdeparts.only.flows, State.flow?_modFlow_self, hflow, ho]
  rfl

/-- A request that has come to its die performs there, and its result is written at once. -/
theorem Ready.finish_arrived (h : Ready s i e) (hi : ordinary i = true) (ha : Accessed e.f s t) (hperform : Performs e t (access e.run t) vals served) {pl : Plan}
    (hcommit : pl.commit e.run t = (access e.run t).s.give e e.run (access e.run t)) (hstay : pl.stay = false) (htarget : pl.target = none) (hafter : pl.after = id) :
    let r := t.finish e pl e.run
    Passed r e ∧ Wrote s r e vals ∧ served r ∧ ∀ f y l, l < 64 → ¬isDst e f y → Sys2Proof.varAt r f y l = Sys2Proof.varAt s f y l := by
  intro r
  obtain ⟨-, hs, -, -⟩ := s.of_issuer h.issuer
  have hg := ha.trans hperform.accessed
  generalize access e.run t = g at hperform hg hcommit
  rw [State.give, hperform.good] at hcommit
  obtain ⟨hwrote, hother⟩ := putWords_wrote h hi hg hperform.words
  have hO : OnlyVars g.s (g.s.putWords e e.run g.words) := OnlyVars.putWords ..
  obtain ⟨seen, wstat, exempt, hflow⟩ := hg.flow hs
  obtain ⟨hpassed, hdeparts⟩ := h.finish_passed hcommit hstay htarget hafter (g.s.stance_putWords hflow e.run g.words) (fun c k hw => (hO.sound c).trans (hg.sound h.sound c k hw))
    (hO.dstep.trans (hg.dstep.trans h.alone))
  refine ⟨hpassed, fun k hk l hl => ?_, hperform.served r (hdeparts.only.mem.trans hO.mem) (hdeparts.only.reservations.trans hO.reservations),
    fun f y l hl hd => (hdeparts.vars f y l).trans (hother f y l hl hd)⟩
  rw [hdeparts.vars]
  exact hwrote k hk l hl

/-- A request that a link has lost performs nothing, and its instruction passes. -/
theorem Ready.finish_lost (h : Ready s i e) (ha : Accessed e.f s t) {pl : Plan} (hcommit : pl.commit e.run t = t) (hstay : pl.stay = false) (htarget : pl.target = none)
    (hafter : pl.after = id) :
    let r := t.finish e pl e.run
    Passed r e ∧ MemCalm s r e ∧ r.mem = t.mem ∧ r.reservations = t.reservations := by
  intro r
  obtain ⟨-, hs, -, -⟩ := s.of_issuer h.issuer
  obtain ⟨hpassed, hdeparts⟩ := h.finish_passed hcommit hstay htarget hafter (ha.stance hs) (ha.sound h.sound) (ha.dstep.trans h.alone)
  exact ⟨hpassed, (ha.memCalm hs).departs hdeparts, hdeparts.only.mem, hdeparts.only.reservations⟩

/-- The outstanding entry of a request on its way to another die. -/
def requestOf (e : Issuer) (run : LaneMask) (reads : Tab (Nat × Nat)) : Outstanding :=
  { dst := none, vars := 0, scalar := scalarClass e.p, run, vals := [], flag := none, failure := none, reads, site := e.c.addr, major := e.p.major, request := true }

/-- An access to another die sends its request and holds its wave, and changes nothing else. -/
theorem Ready.finish_asked (h : Ready s i e) (ha : Accessed e.f s t) (hmem : t.mem = s'.mem) {pl : Plan} {reads : Tab (Nat × Nat)}
    (hcommit : pl.commit e.run t = t.sendRequest e e.run reads) (hstay : pl.stay = true) : Asked s s' (t.finish e pl e.run) e := by
  obtain ⟨-, hs, -, -⟩ := s.of_issuer h.issuer
  obtain ⟨seen, wstat, exempt, hflow⟩ := ha.flow hs
  obtain ⟨u, hu⟩ : ∃ u, u = t.modFlow e.f (fun w => { w with park := some .request, outstanding := w.outstanding ++ [requestOf e e.run reads] }) := ⟨_, rfl⟩
  have hsend : t.sendRequest e e.run reads = u := hu.symm
  have hcalm : MemCalm s u e := by
    rw [hu]
    exact (ha.memCalm hs).modFlow _ (fun _ => rfl) (fun _ => rfl) (fun _ _ _ => ⟨rfl, rfl, rfl, rfl⟩)
  have hsound : SoundFor e.f u := fun c k hw => by
    rw [hu]
    exact (congrArg Core.sound (t.core_modFlow_rest e.f _ c) :).trans (ha.sound h.sound c k hw)
  have hdeparts := Departs.settle e u
  have harr : (u.settle e.f).arraysWritten e e.run pl.later = u.settle e.f :=
    State.arraysWritten_sound _ e e.run pl.later (fun c k hw => (hdeparts.only.sound c).trans (hsound c k hw))
  have hfinish : t.finish e pl e.run = u.settle e.f := by
    unfold State.finish
    simp only [hcommit, hsend, harr, hstay, if_true]
  rw [hfinish]
  refine ⟨hcalm.departs hdeparts, fun a => ?_, { e.w with seen, wstat, exempt, park := some .request, outstanding := e.w.outstanding ++ [requestOf e e.run reads] },
    requestOf e e.run reads, ?_, rfl, rfl, rfl, rfl, rfl, rfl, rfl, rfl⟩
  · have hmem' : (u.settle e.f).mem = s'.mem := hdeparts.only.mem.trans (by rw [hu, State.mem_modFlow, hmem])
    unfold State.byte
    rw [hmem']
  · rw [State.flow?_settle, hu, State.flow?_modFlow_self, hflow]
    rfl

/-- What memory serves has one of four plans: its request has arrived, or is lost, or is to be sent, or none is needed. -/
theorem Machine.requestPlan_arrived (hpark : e.w.park = some .arrived) : requestPlan s' e probe ps va access =
    { st := some s', commit := fun run t => (access run t).s.give e run (access run t), latch := some (fun run => e.latch run (access run s').words), pass := true } := by
  unfold requestPlan
  rw [hpark]

theorem Machine.requestPlan_lost (hpark : e.w.park = some .lost) : requestPlan s' e probe ps va access = { st := some s', pass := true } := by
  unfold requestPlan
  rw [hpark]

theorem Machine.requestPlan_first (harrived : e.w.park ≠ some .arrived) (hlost : e.w.park ≠ some .lost) : requestPlan s' e probe ps va access =
    if s'.crosses e ps then
      { st := some s', probe, stay := true,
        commit := fun run t => t.sendRequest e run ((ps.filter (fun p => scalarClass e.p || run.getLsbD p.1)).map (fun p => (p.1, va p.1, p.2))) }
    else laterPlan s' e probe access := by
  unfold requestPlan
  split
  · next h => exact absurd h harrived
  · next h => exact absurd h hlost
  · rfl

theorem Machine.requestPlan_st : (requestPlan s' e probe ps va access).st = some s' := by
  unfold requestPlan
  split
  · rfl
  · rfl
  · split <;> rfl

/-- An instruction that memory serves, by the plan of a request: its accesses have passed their checks, and perform wherever they are served (R239, R246, R291, R393; log 126). -/
theorem Ready.served_of_request (h : Ready s i e) (hi : ordinary i = true) {plan : State → Issuer → Except Hold Plan} (hx : Machine.exec i s = perform i plan s)
    (hp : plan s e = .ok (requestPlan s' e probe ps va access)) (ha : Accessed e.f s s') (hperform : ∀ t, Gated e s' t → Performs e t (access e.run t) vals served) :
    Served i s s' e ps vals served := by
  obtain ⟨t, ht, hexec⟩ := h.perform_checked hp requestPlan_st ha
  have hat := ha.trans ht.accessed
  refine ⟨_, hx.trans hexec, ?_⟩
  by_cases harrived : e.w.park = some .arrived
  · rw [if_pos harrived, requestPlan_arrived harrived]
    exact h.finish_arrived hi hat (hperform t ht) rfl rfl rfl rfl
  by_cases hlost : e.w.park = some .lost
  · rw [if_neg harrived, if_pos hlost, requestPlan_lost hlost]
    obtain ⟨hpassed, hcalm, hmem, hres⟩ := h.finish_lost hat (pl := { st := some s', pass := true }) rfl rfl rfl rfl
    exact ⟨hpassed, hcalm, fun a => by rw [State.byte, hmem, ht.mem]; rfl, hres.trans ht.reservations⟩
  have hcross : s'.crosses e ps = ps.any (fun p => paDie p.2 != flowDie e.f) := by
    unfold State.crosses
    rw [ha.dstep, h.alone]
    rfl
  rw [if_neg harrived, if_neg hlost, requestPlan_first harrived hlost, hcross]
  by_cases hany : ps.any (fun p => paDie p.2 != flowDie e.f) = true
  · rw [if_pos hany, if_pos hany]
    exact h.finish_asked hat ht.mem rfl rfl
  · rw [if_neg hany, if_neg hany]
    exact h.finish_later hat (hperform t ht)

end Request

end Sys2Proof
end

