-- ==== Sys2Proof/Proofs/Atomics.lean ====
section
/-! Lemmas and proof: the atomics (R75, R239, R397 to R399). -/

namespace Sys2Proof

open Sys2Proof.Machine

/-! ### Reads and writes of memory by a lane (R140, R192, R231) -/

namespace Accessed

variable {f : Flow} {s t : State}

theorem noteTags (s : State) (e : Issuer) (l : Nat) (tags : List SyncTag) (acquire : Option Nat) : Accessed e.f s (s.noteTags e l tags acquire) := by
  unfold State.noteTags
  dsimp only
  split
  · exact refl _ s
  · exact modFlow s e.f _ (fun w => by split <;> rfl)

theorem noteHost (s : State) (g : Flow) (pa : Nat) : Accessed f s (s.noteHost g pa) := by
  unfold State.noteHost
  split
  · split
    · split
      · exact refl f s
      · next w _ _ =>
        refine ⟨rfl, fun _ _ => by rfl, by rfl, fun _ => rfl, ?_⟩
        unfold State.modLaunch Tab.upd
        dsimp only
        split
        · next l hl => exact SameRecords.set hl rfl
        · exact SameRecords.refl _
    · exact refl f s
  · exact refl f s

theorem raiseExc (s : State) (f : Flow) (x : Exc) : Accessed f s (s.raiseExc f x) := modFlow s f _ (fun _ => rfl)

end Accessed

@[simp] theorem Machine.State.mem_countGranule (s : State) (pa n : Nat) (write : Bool) : (s.countGranule pa n write).mem = s.mem := by
  unfold State.countGranule
  split <;> rfl

@[simp] theorem Machine.State.mem_noteTags (s : State) (e : Issuer) (l : Nat) (tags : List SyncTag) (acquire : Option Nat) :
    (s.noteTags e l tags acquire).mem = s.mem := by
  unfold State.noteTags
  dsimp only
  split
  · rfl
  · exact s.mem_modFlow e.f _

@[simp] theorem Machine.State.mem_noteHost (s : State) (f : Flow) (pa : Nat) : (s.noteHost f pa).mem = s.mem := by
  unfold State.noteHost
  split
  · split
    · split <;> rfl
    · rfl
  · rfl

@[simp] theorem Machine.State.mem_raiseExc (s : State) (f : Flow) (x : Exc) : (s.raiseExc f x).mem = s.mem := s.mem_modFlow f _

/-- A byte after a write at the home slice (R137). -/
theorem Machine.State.byte_poke (s : State) (pa : Nat) (bs : List Byte) (atomic : Bool) (tag : Option SyncTag) (a : Nat) :
    (s.poke pa bs atomic tag).byte a = if pa ≤ a ∧ a < pa + bs.length then bs.getD (a - pa) 0 else s.byte a := by
  have hmem : (s.poke pa bs atomic tag).mem = Memory.write s.mem pa bs := State.mem_countGranule ..
  rw [State.byte, hmem, Memory.getD_write]
  simp only [List.getD_eq_getElem?_getD]
  rfl

/-- On a sound core a load fills a line of its core's cache, which changes nothing (R468). -/
theorem Machine.State.dataLine_sound {s : State} {e : Issuer} (h : SoundFor e.f s) (pa : Nat) : s.dataLine e pa = s := by
  unfold State.dataLine
  split
  · next c k hf =>
    split
    · exact State.cacheWritten_sound (h c k hf) _ _ _
    · rfl
  · rfl

/-- A load outside device space gives the bytes of memory, and changes none. -/
theorem Machine.State.loadAt_memory {s : State} {e : Issuer} (hs : SoundFor e.f s) (l n : Nat) (acquire : Option Nat) {pa : Nat} (h : paSpace pa ≠ 2) :
    Accessed e.f s (s.loadAt e l pa n acquire).1 ∧ (s.loadAt e l pa n acquire).1.mem = s.mem ∧ (s.loadAt e l pa n acquire).2 = s.bytes pa n := by
  have hread : Accessed e.f s ((s.noteRead e l pa n acquire).countGranule pa n false) := (Accessed.noteTags s e l _ acquire).trans (Accessed.countGranule ..)
  unfold State.loadAt
  rw [if_neg h, State.dataLine_sound (hread.sound hs)]
  exact ⟨hread, by rw [State.mem_countGranule, State.noteRead, State.mem_noteTags], rfl⟩

/-! ### One atomic (R75, R397, R399) -/

section Atomic

variable {e : Issuer} {x : XArgs} {w : Nat} {op : Nat → Nat → Nat → AtomicResult} {b c : Nat → Nat} {s s' t : State}

/-- Memory with the new value of an atomic, where it has one. -/
def storedAt (n pa : Nat) (new : Option Nat) (m : Nat → Byte) : Nat → Byte :=
  match new with
  | some v => fun a => if pa ≤ a ∧ a < pa + n then (bytesOfNat n v).getD (a - pa) 0 else m a
  | none => m

theorem serveAtomics_cons (n : Nat) (new : Nat → Nat → Option Nat) (l pa : Nat) (rest : List (Nat × Nat)) (m : Nat → Byte) :
    let old := natOfBytes ((List.range n).map (fun k => m (pa + k)))
    let r := serveAtomics n new rest (storedAt n pa (new l old) m)
    serveAtomics n new ((l, pa) :: rest) m = (r.1, (l, old) :: r.2) := rfl

theorem natOfBytes_lt (bs : List Byte) : natOfBytes bs < 256 ^ bs.length := by
  induction bs with
  | nil => exact Nat.one_pos
  | cons v bs ih =>
    have hv : v.toNat < 256 := v.isLt
    rw [natOfBytes, List.length_cons, pow_succ]
    omega

/-- What memory serves depends on what the operation makes of values of its width. -/
theorem serveAtomics_congr (n : Nat) {new new' : Nat → Nat → Option Nat} (h : ∀ l old, old < 256 ^ n → new l old = new' l old) (ps : List (Nat × Nat)) (m : Nat → Byte) :
    serveAtomics n new ps m = serveAtomics n new' ps m := by
  induction ps generalizing m with
  | nil => rfl
  | cons p ps ih =>
    obtain ⟨l, pa⟩ := p
    have hold : natOfBytes ((List.range n).map (fun k => m (pa + k))) < 256 ^ n := by
      have := natOfBytes_lt ((List.range n).map (fun k => m (pa + k)))
      rwa [List.length_map, List.length_range] at this
    rw [serveAtomics_cons, serveAtomics_cons, h l _ hold, ih]

/-- The atomic of one lane, with the values of its operands: the state after it, and the old value. -/
def atomicLane (e : Issuer) (x : XArgs) (w : Nat) (op : Nat → Nat → Nat → AtomicResult) (b c : Nat → Nat) (t : State) (p : Nat × Nat) : State × Nat :=
  let (t, bs) := t.loadAt e p.1 p.2 (w / 8) (ordAcquire x)
  let old := natOfBytes bs
  let r := op old (b p.1) (c p.1)
  if t.ownedBytes p.2 (w / 8) then (t.logOwned e p.2, old)
  else
    let t := match r.new with
      | some v => t.poke p.2 (bytesOfNat (w / 8) v) true (t.releaseOf e p.1 (ordRelease x))
      | none => t
    ((t.noteHost e.f p.2).raiseExc e.f r.exc, old)

/-- One lane's atomic on memory that no server owns: the old value, and the bytes that the operation leaves. -/
theorem atomicLane_spec (hs : SoundFor e.f t) {l pa : Nat} (hdev : paSpace pa ≠ 2) (hown : t.ownedBytes pa (w / 8) = false) :
    let old := natOfBytes (t.bytes pa (w / 8))
    Accessed e.f t (atomicLane e x w op b c t (l, pa)).1 ∧ (atomicLane e x w op b c t (l, pa)).2 = old ∧
      (atomicLane e x w op b c t (l, pa)).1.byte = storedAt (w / 8) pa (op old (b l) (c l)).new t.byte := by
  intro old
  obtain ⟨hload, hmem, hbytes⟩ := State.loadAt_memory hs l (w / 8) (ordAcquire x) hdev
  unfold atomicLane
  dsimp only
  generalize t.loadAt e l pa (w / 8) (ordAcquire x) = r at *
  obtain ⟨u, bs⟩ := r
  dsimp only at hload hmem hbytes ⊢
  subst hbytes
  rw [hload.ownedBytes, hown, if_neg Bool.false_ne_true]
  have hbyte (a : Nat) : u.byte a = t.byte a := by rw [State.byte, hmem]; rfl
  cases (op old (b l) (c l)).new with
  | none =>
    refine ⟨(hload.trans (Accessed.noteHost u e.f pa)).trans (Accessed.raiseExc ..), rfl, funext fun a => ?_⟩
    rw [State.byte, State.mem_raiseExc, State.mem_noteHost]
    exact hbyte a
  | some v =>
    have hpoke := hload.trans (Accessed.poke e.f u pa (bytesOfNat (w / 8) v) true (u.releaseOf e l (ordRelease x)))
    refine ⟨(hpoke.trans (Accessed.noteHost _ e.f pa)).trans (Accessed.raiseExc ..), rfl, funext fun a => ?_⟩
    rw [State.byte, State.mem_raiseExc, State.mem_noteHost]
    show (u.poke pa (bytesOfNat (w / 8) v) true (u.releaseOf e l (ordRelease x))).byte a = _
    rw [State.byte_poke, length_bytesOfNat, hbyte]
    rfl

/-! ### The atomics of an instruction (R397, R399) -/

/-- One lane's atomic, after those of the lanes below it, with its old value under its lane. -/
def atomicStep (e : Issuer) (x : XArgs) (w : Nat) (op : Nat → Nat → Nat → AtomicResult) (b c : Nat → Nat) (run : LaneMask) (a : Given) (p : Nat × Nat) : Given :=
  if e.commits run p.1 then
    { a with s := (atomicLane e x w op b c a.s p).1, vals := a.vals.set p.1 (wordsOfNat 2 (atomicLane e x w op b c a.s p).2) }
  else a

/-- The accesses of an atomic. -/
def atomicAccess (e : Issuer) (x : XArgs) (w : Nat) (op : Nat → Nat → Nat → AtomicResult) (b c va : Nat → Nat) (ps : Tab Nat) (run : LaneMask) (t : State) : Given :=
  match t.poisonOf e (ps.filter (fun p => e.commits run p.1)) va with
  | some f => { s := t, failure := some f }
  | none => ps.foldl (atomicStep e x w op b c run) { s := t }

theorem atomicPlan_ok {host : Bool} {op : Nat → Nat → Nat → Nat → AtomicResult} {ps : Tab Nat}
    (h : s.resolve e (opWidth x.w64 / 8) .write (.atomic host) (fun l => (s.srcA e l).toNat) = (s', .ok ps)) :
    atomicPlan host op x s e = .ok (requestPlan s' e { addr := fun l => some (s.srcA e l).toNat } ps (fun l => (s.srcA e l).toNat)
      (atomicAccess e x (opWidth x.w64) (op (opWidth x.w64)) (fun l => uOf (opWidth x.w64) (s.srcB e l)) (fun l => uOf (opWidth x.w64) (s.srcC e l))
        (fun l => (s.srcA e l).toNat) ps)) := by
  unfold atomicPlan
  dsimp only
  rw [h]
  rfl

/-- The atomics of lanes that all commit, on memory that no server owns, are served one after another. -/
theorem foldl_atomicStep {run : LaneMask} (ps : List (Nat × Nat)) (hkeys : (ps.map Prod.fst).Nodup) (hcommit : ∀ p ∈ ps, e.commits run p.1 = true) (a : Given)
    (hs : SoundFor e.f a.s) (hplain : ∀ p ∈ ps, paSpace p.2 ≠ 2 ∧ a.s.ownedBytes p.2 (w / 8) = false) :
    let g := ps.foldl (atomicStep e x w op b c run) a
    let m := serveAtomics (w / 8) (fun l old => (op old (b l) (c l)).new) ps a.s.byte
    Accessed e.f a.s g.s ∧ g.failure = a.failure ∧ g.s.byte = m.1 ∧ (∀ l ∉ ps.map Prod.fst, g.vals.get l = a.vals.get l) ∧
      ∀ l ∈ ps.map Prod.fst, g.vals.get l = some (wordsOfNat 2 (m.2.getD l 0)) := by
  induction ps generalizing a with
  | nil => exact ⟨Accessed.refl _ _, rfl, rfl, fun _ _ => rfl, fun _ h => by cases h⟩
  | cons p ps ih =>
    obtain ⟨l, pa⟩ := p
    rw [List.map_cons, List.nodup_cons] at hkeys
    obtain ⟨hdev, hown⟩ := hplain (l, pa) (by simp)
    obtain ⟨hacc, hold, hbyte⟩ := atomicLane_spec (x := x) (op := op) (b := b) (c := c) (l := l) hs hdev hown
    have hstep : atomicStep e x w op b c run a (l, pa) =
        { a with s := (atomicLane e x w op b c a.s (l, pa)).1, vals := a.vals.set l (wordsOfNat 2 (atomicLane e x w op b c a.s (l, pa)).2) } :=
      if_pos (hcommit (l, pa) (by simp))
    rw [List.foldl_cons, hstep, hold, serveAtomics_cons]
    generalize (atomicLane e x w op b c a.s (l, pa)).1 = u at *
    obtain ⟨hrest, hgood, hbytes, hother, hvals⟩ := ih hkeys.2 (fun p hp => hcommit p (List.mem_cons_of_mem _ hp))
      { a with s := u, vals := a.vals.set l (wordsOfNat 2 (natOfBytes (a.s.bytes pa (w / 8)))) } (hacc.sound hs)
      (fun p hp => ⟨(hplain p (List.mem_cons_of_mem _ hp)).1, (hacc.ownedBytes _ _).trans (hplain p (List.mem_cons_of_mem _ hp)).2⟩)
    dsimp only at hbyte hrest hgood hbytes hother hvals ⊢
    rw [hbyte] at hbytes hvals
    refine ⟨hacc.trans hrest, hgood, hbytes, fun k hk => ?_, fun k hk => ?_⟩
    · rw [List.map_cons, List.mem_cons, not_or] at hk
      rw [hother k hk.2, Tab.get_set_ne _ _ (Ne.symm hk.1)]
    · by_cases hkl : k = l
      · subst hkl
        rw [hother k hkeys.1, Tab.get_set_self, Tab.getD, Tab.get_cons, if_pos rfl]
        rfl
      · have hmem : k ∈ ps.map Prod.fst := by simpa [hkl] using hk
        rw [hvals k hmem, Tab.getD, Tab.getD, Tab.get_cons, if_neg (Ne.symm hkl)]
        rfl

theorem nodup_accessLanes (e : Issuer) : e.accessLanes.Nodup := by
  unfold Issuer.accessLanes
  split
  · exact List.nodup_singleton _
  · exact LaneMask.nodup_toList _

theorem commits_accessLanes {l : Nat} (h : l ∈ e.accessLanes) : e.commits e.run l = true := by
  unfold Issuer.accessLanes at h
  unfold Issuer.commits
  split at h
  · next hscalar => rw [hscalar]; rfl
  · rw [(LaneMask.mem_toList _ _).1 h, Bool.or_true]

/-- An undisturbed atomic whose accesses have passed their checks is served lane by lane (R75, R397 to R399). -/
theorem atomic_served {i : Instr} {host : Bool} {op : Nat → Nat → Nat → Nat → AtomicResult} {new : Nat → Nat → Nat → Nat → Option Nat} {ps : Tab Nat} (h : Ready s i e)
    (hi : ordinary i = true) (hx : Machine.exec i s = perform i (atomicPlan host op x) s)
    (hok : s.resolve e (opWidth x.w64 / 8) .write (.atomic host) (fun l => (s.srcA e l).toNat) = (s', .ok ps))
    (hplain : ∀ p ∈ ps, paSpace p.2 ≠ 2 ∧ s'.ownedBytes p.2 (opWidth x.w64 / 8) = false) (hpoison : s'.poisonOf e ps (fun l => (s.srcA e l).toNat) = none)
    (hnew : ∀ old b c, old < 2 ^ opWidth x.w64 → b < 2 ^ opWidth x.w64 → (op (opWidth x.w64) old b c).new = new (opWidth x.w64) old b c) :
    let m := serveAtomics (opWidth x.w64 / 8) (fun l old => new (opWidth x.w64) old (uOf (opWidth x.w64) (s.srcB e l)) (uOf (opWidth x.w64) (s.srcC e l))) ps s'.byte
    Served i s s' e ps (fun l => wordsOfNat 2 (m.2.getD l 0)) (fun t => ∀ a, t.byte a = m.1 a) := by
  intro m
  obtain ⟨hchecked, hlanes⟩ := State.resolve_ok h.sound hok
  refine h.served_of_request hi hx (atomicPlan_ok hok) hchecked (fun t ht => ?_)
  have hacc := ht.accessed
  have hcommit : ∀ p ∈ ps, e.commits e.run p.1 = true := fun p hp => commits_accessLanes (hlanes ▸ List.mem_map_of_mem hp)
  have hbyte : t.byte = s'.byte := funext fun a => by rw [State.byte, ht.mem]; rfl
  unfold atomicAccess
  rw [List.filter_eq_self.2 hcommit, hacc.poisonOf, hpoison]
  obtain ⟨hserved, hgood, hbytes, -, hvals⟩ := foldl_atomicStep (x := x) (op := op (opWidth x.w64)) (b := fun l => uOf (opWidth x.w64) (s.srcB e l))
    (c := fun l => uOf (opWidth x.w64) (s.srcC e l)) ps (hlanes ▸ nodup_accessLanes e) hcommit { s := t } ((hchecked.trans hacc).sound h.sound)
    (fun p hp => ⟨(hplain p hp).1, (hacc.ownedBytes _ _).trans (hplain p hp).2⟩)
  have hm : serveAtomics (opWidth x.w64 / 8) (fun l old => (op (opWidth x.w64) old (uOf (opWidth x.w64) (s.srcB e l)) (uOf (opWidth x.w64) (s.srcC e l))).new) ps t.byte = m := by
    rw [hbyte]
    refine serveAtomics_congr _ (fun l old hold => hnew old _ _ (lt_of_lt_of_eq hold ?_) (Nat.mod_lt _ (by positivity))) ps s'.byte
    cases x.w64 <;> rfl
  dsimp only at hbytes hvals hgood hserved
  rw [hm] at hbytes hvals
  refine ⟨hserved, hgood, fun l hl => ?_, fun u hu _ a => ?_⟩
  · rw [Given.words, Tab.getD, hvals l (hlanes ▸ hl)]
    rfl
  · rw [← hbytes, State.byte, hu]
    rfl

end Atomic

/-! ### The statement -/

/-- N(v) of a value of the operation's width (R311). -/
theorem Machine.nOf_ofNat (sgn : Bool) {w v : Nat} (hw : w ≤ 64) (hv : v < 2 ^ w) :
    nOf sgn w (BitVec.ofNat 64 v) = if sgn ∧ 2 ^ (w - 1) ≤ v then (v : Int) - 2 ^ w else v := by
  have hu : uOf w (BitVec.ofNat 64 v) = v := by
    have h64 : v < 2 ^ 64 := lt_of_lt_of_le hv (Nat.pow_le_pow_right (by decide) hw)
    rw [uOf, BitVec.toNat_ofNat, Nat.mod_eq_of_lt h64, Nat.mod_eq_of_lt hv]
  cases sgn <;> simp [nOf, sOf, hu]

/-- `amin` and `amax` compare by N, and leave old where the values are equal (R397). -/
theorem Machine.atomicMin_new (sgn : Bool) {w old b : Nat} (c : Nat) (hw : w ≤ 64) (hold : old < 2 ^ w) (hb : b < 2 ^ w) :
    let n (v : Nat) : Int := if sgn ∧ 2 ^ (w - 1) ≤ v then (v : Int) - 2 ^ w else v
    (atomicMinMax false sgn w old b c).new = some (if n b < n old then b else old) := by
  unfold atomicMinMax
  simp only [nOf_ofNat sgn hw hold, nOf_ofNat sgn hw hb, Bool.false_eq_true, if_false]

theorem Machine.atomicMax_new (sgn : Bool) {w old b : Nat} (c : Nat) (hw : w ≤ 64) (hold : old < 2 ^ w) (hb : b < 2 ^ w) :
    let n (v : Nat) : Int := if sgn ∧ 2 ^ (w - 1) ≤ v then (v : Int) - 2 ^ w else v
    (atomicMinMax true sgn w old b c).new = some (if n old < n b then b else old) := by
  unfold atomicMinMax
  simp only [nOf_ofNat sgn hw hold, nOf_ofNat sgn hw hb, if_true]

theorem Machine.opWidth_le (w64 : Bool) : opWidth w64 ≤ 64 := by cases w64 <;> decide

/-- An undisturbed atomic of the width that its form says is served lane by lane, by what its operation makes of an old value and its two operands. -/
def AtomicServed (i : XArgs → Instr) (host : Bool) (new : XArgs → Nat → Nat → Nat → Nat → Option Nat) : Prop :=
  ∀ x s e s' ps, Ready s (i x) e → s.dstep = none →
    let w := if x.w64 then 64 else 32
    let va (l : Nat) : Nat := (s.srcA e l).toNat
    s.resolve e (w / 8) .write (.atomic host) va = (s', .ok ps) → (∀ p ∈ ps, paSpace p.2 ≠ 2 ∧ s'.ownedBytes p.2 (w / 8) = false) → s'.poisonOf e ps va = none →
    let m := serveAtomics (w / 8) (fun l old => new x w old ((s.srcB e l).toNat % 2 ^ w) ((s.srcC e l).toNat % 2 ^ w)) ps s'.byte
    Served (i x) s s' e ps (fun l => wordsOfNat 2 (m.2.getD l 0)) (fun t => ∀ a, t.byte a = m.1 a)

theorem atomicServed_of_plan {i : XArgs → Instr} {host : Bool} {new : XArgs → Nat → Nat → Nat → Nat → Option Nat} (op : XArgs → Nat → Nat → Nat → Nat → AtomicResult)
    (hi : ∀ x, ordinary (i x) = true) (hx : ∀ x s, Machine.exec (i x) s = perform (i x) (atomicPlan host (op x) x) s)
    (hnew : ∀ x old b c, old < 2 ^ opWidth x.w64 → b < 2 ^ opWidth x.w64 → (op x (opWidth x.w64) old b c).new = new x (opWidth x.w64) old b c) : AtomicServed i host new := by
  intro x s e s' ps h _ w va hok hplain hpoison
  exact atomic_served (op := op x) (new := new x) h (hi x) (hx x s) hok hplain hpoison (hnew x)

/-- Settles O36: each atomic is its operation, served lane by lane. -/
theorem atomics : Obligations.Atomics := by
  unfold Obligations.Atomics
  intro served signed_
  have hserved : served = AtomicServed := rfl
  clear_value served
  subst hserved
  have wide (x : XArgs) := opWidth_le x.w64
  refine ⟨?_, ?_, ?_, ?_, ?_, ?_, ?_, ?_, ?_, ?_, ?_⟩
  · exact atomicServed_of_plan (fun _ => plainAtomic fun w a b => (a + b) % 2 ^ w) (fun _ => rfl) (fun _ _ => rfl) (fun _ _ _ _ _ _ => rfl)
  · exact atomicServed_of_plan (fun x => atomicMinMax false x.sgn) (fun _ => rfl) (fun _ _ => rfl) (fun x _ _ c ha hb => atomicMin_new x.sgn c (wide x) ha hb)
  · exact atomicServed_of_plan (fun x => atomicMinMax true x.sgn) (fun _ => rfl) (fun _ _ => rfl) (fun x _ _ c ha hb => atomicMax_new x.sgn c (wide x) ha hb)
  · exact atomicServed_of_plan (fun _ => plainAtomic fun _ a b => a &&& b) (fun _ => rfl) (fun _ _ => rfl) (fun _ _ _ _ _ _ => rfl)
  · exact atomicServed_of_plan (fun _ => plainAtomic fun _ a b => a ||| b) (fun _ => rfl) (fun _ _ => rfl) (fun _ _ _ _ _ _ => rfl)
  · exact atomicServed_of_plan (fun _ => plainAtomic fun _ a b => a ^^^ b) (fun _ => rfl) (fun _ _ => rfl) (fun _ _ _ _ _ _ => rfl)
  · exact atomicServed_of_plan (fun _ => plainAtomic fun _ _ b => b) (fun _ => rfl) (fun _ _ => rfl) (fun _ _ _ _ _ _ => rfl)
  · exact atomicServed_of_plan (fun _ _ a b c => { new := if a = b then some c else none }) (fun _ => rfl) (fun _ _ => rfl) (fun _ _ _ _ _ _ => rfl)
  · exact atomicServed_of_plan (fun _ => atomicFadd) (fun _ => rfl) (fun _ _ => rfl) (fun _ _ _ _ _ _ => rfl)
  · exact atomicServed_of_plan (fun _ => atomicFminMax false) (fun _ => rfl) (fun _ _ => rfl) (fun _ _ _ _ _ _ => rfl)
  · exact atomicServed_of_plan (fun _ => atomicFminMax true) (fun _ => rfl) (fun _ _ => rfl) (fun _ _ _ _ _ _ => rfl)

end Sys2Proof
end

