-- ==== Sys2Proof/Proofs/WordFields.lean ====
section
/-! Lemmas: the fields of base words and extension words (R81, R82), the codes of source fields and flags (R82, R84), and what the readers of fields answer. -/

namespace Sys2Proof

/-! ### Fields of words -/

/-- An appended vector is the one that has its parts as fields. -/
theorem eq_append_iff {n m : Nat} {x : BitVec n} {y : BitVec m} {z : BitVec (n + m)} : z = x ++ y ↔ z.extractLsb' m n = x ∧ z.extractLsb' 0 m = y := by
  constructor
  · rintro rfl
    exact ⟨BitVec.extractLsb'_append_eq_left, BitVec.extractLsb'_append_eq_right⟩
  · rintro ⟨rfl, rfl⟩
    rw [BitVec.extractLsb'_append_extractLsb'_eq_extractLsb' (by omega), BitVec.extractLsb'_eq_self]

/-- A field of a field. -/
theorem extractLsb'_extractLsb'_of_add_le {k a n b m : Nat} {z : BitVec k} (h : b + m ≤ n) : (z.extractLsb' a n).extractLsb' b m = z.extractLsb' (a + b) m := by
  ext i hi
  simp [Nat.add_assoc]
  omega

/-- A field of one bit. -/
theorem extractLsb'_one_eq_ofBool_iff {n k : Nat} {z : BitVec n} {b : Bool} : z.extractLsb' k 1 = BitVec.ofBool b ↔ z.getLsbD k = b := by
  have hbit : z.extractLsb' k 1 = BitVec.ofBool (z.getLsbD k) := by
    ext i hi
    obtain rfl : i = 0 := by omega
    simp
  rw [hbit, BitVec.ofBool_eq_iff_eq]

theorem eq_baseWord_iff {dist : BitVec 2} {s : Bool} {major : BitVec 5} {nwb : Bool} {dst : BitVec 7} {sa sb : BitVec 8} {w : Word} :
    w = baseWord dist s major nwb dst sa sb ↔ wDist w = dist ∧ wS w = s ∧ wMajor w = major ∧ wNwb w = nwb ∧ wDst w = dst ∧ wSa w = sa ∧ wSb w = sb := by
  unfold baseWord wDist wS wMajor wNwb wDst wSa wSb
  rw [eq_append_iff (n := 24) (m := 8), eq_append_iff (n := 16) (m := 8), eq_append_iff (n := 9) (m := 7), eq_append_iff (n := 8) (m := 1),
    eq_append_iff (n := 3) (m := 5), eq_append_iff (n := 2) (m := 1)]
  simp only [extractLsb'_extractLsb'_of_add_le, extractLsb'_one_eq_ofBool_iff, and_assoc, Nat.reduceAdd, Nat.reduceLeDiff]

theorem eq_extWord_iff {sc : BitVec 8} {flag fn : BitVec 4} {imm : BitVec 16} {e : Word} :
    e = extWord sc flag fn imm ↔ eSc e = sc ∧ eFlag e = flag ∧ eFn e = fn ∧ eImm e = imm := by
  unfold extWord eSc eFlag eFn eImm
  rw [eq_append_iff (n := 16) (m := 16), eq_append_iff (n := 12) (m := 4), eq_append_iff (n := 8) (m := 4)]
  simp only [extractLsb'_extractLsb'_of_add_le, and_assoc, Nat.reduceAdd, Nat.reduceLeDiff]

/-- The layout of hint space: DIST, S = 0 and major 0x1F, and the free bits (R93). -/
theorem eq_hintWord_iff {dist : BitVec 2} {n : BitVec 24} {w : Word} :
    w = dist ++ (0b011111 : BitVec 6) ++ n ↔ wDist w = dist ∧ wS w = false ∧ wMajor w = 0x1F ∧ w.extractLsb' 0 24 = n := by
  have hcode : (0b011111 : BitVec 6) = BitVec.ofBool false ++ (0x1F : BitVec 5) := rfl
  unfold wDist wS wMajor
  rw [eq_append_iff (n := 8) (m := 24), eq_append_iff (n := 2) (m := 6), hcode, eq_append_iff (n := 1) (m := 5)]
  simp only [extractLsb'_extractLsb'_of_add_le, extractLsb'_one_eq_ofBool_iff, and_assoc, Nat.reduceAdd, Nat.reduceLeDiff]

/-- The unused fields of a control word (R366). -/
theorem unusedFields_eq_zero_iff {w : Word} : w.extractLsb' 8 16 = 0 ↔ wNwb w = false ∧ wDst w = 0 ∧ wSa w = 0 := by
  have hzero : (0 : BitVec 16) = BitVec.ofBool false ++ (0 : BitVec 7) ++ (0 : BitVec 8) := rfl
  unfold wNwb wDst wSa
  rw [hzero, eq_append_iff (n := 8) (m := 8), eq_append_iff (n := 1) (m := 7)]
  simp only [extractLsb'_extractLsb'_of_add_le, extractLsb'_one_eq_ofBool_iff, and_assoc, Nat.reduceAdd, Nat.reduceLeDiff]

/-- A field that holds a number (R81). -/
theorem eq_ofNat_iff {n k : Nat} {z : BitVec n} (hk : k < 2 ^ n) : z = BitVec.ofNat n k ↔ z.toNat = k := by
  rw [← BitVec.toNat_inj, BitVec.toNat_ofNat, Nat.mod_eq_of_lt hk]

/-! ### Codes of fields -/

theorem Special.ofCode_code (x : Special) : Special.ofCode x.code = some x := by
  cases x with
  | zero | lane | wave | group | seq => rfl
  | lvl k => revert k; decide
  | nlvl k => revert k; decide

theorem Special.code_lt (x : Special) : x.code < 24 := by
  unfold Special.code
  cases x <;> dsimp only <;> omega

theorem Special.code_of_ofCode {k : Nat} {x : Special} (h : Special.ofCode k = some x) : x.code = k := by
  unfold Special.ofCode at h
  split_ifs at h <;> cases h <;> simp [Special.code] <;> omega

/-- The number of a source field's code (R84). -/
def Src.number : Src → Nat
  | .var n => n.toNat
  | .latch k => 0x80 + k.toNat
  | .const k => 0x88 + k.val
  | .special x => 0xC0 + x.code
  | .lit => 0xFF

theorem Src.toNat_code (x : Src) : x.code.toNat = x.number := by
  unfold Src.code Src.number
  cases x with
  | var n => exact BitVec.toNat_setWidth_of_le (by omega)
  | latch k => revert k; decide
  | const k => exact (BitVec.toNat_ofNat ..).trans (Nat.mod_eq_of_lt (by omega))
  | special x => exact (BitVec.toNat_ofNat ..).trans (Nat.mod_eq_of_lt (by have := x.code_lt; omega))
  | lit => rfl

theorem Src.ofCode_code (x : Src) : Src.ofCode x.code = some x := by
  unfold Src.ofCode
  rw [x.toNat_code]
  unfold Src.number
  cases x with
  | var n => simp [n.isLt]
  | latch k => simp; omega
  | const k => simp; omega
  | special x =>
    have hlt := x.code_lt
    dsimp only
    rw [if_neg (by omega), if_neg (by omega), dif_neg (by omega), if_pos (by omega), Nat.add_sub_cancel_left, x.ofCode_code]
    rfl
  | lit => rfl

theorem Src.code_of_ofCode {c : BitVec 8} {x : Src} (h : Src.ofCode c = some x) : x.code = c := by
  apply BitVec.eq_of_toNat_eq
  rw [x.toNat_code]
  have hlt := c.isLt
  unfold Src.ofCode at h
  dsimp only at h
  split_ifs at h with hvar hlatch hconst hspecial hlit
  · cases h
    exact (BitVec.toNat_ofNat ..).trans (Nat.mod_eq_of_lt hvar)
  · cases h
    show 0x80 + (BitVec.ofNat 3 _).toNat = _
    rw [BitVec.toNat_ofNat]
    omega
  · cases h
    show 0x88 + (c.toNat - 0x88) = _
    omega
  · obtain ⟨x, hx, rfl⟩ := Option.map_eq_some_iff.1 h
    show 0xC0 + x.code = _
    rw [Special.code_of_ofCode hx]
    omega
  · cases h
    exact hlit.symm

/-! ### The readers of fields -/

theorem bind_eq_ok_iff {ε α β : Type} {x : Except ε α} {f : α → Except ε β} {b : β} : (x >>= f) = .ok b ↔ ∃ a, x = .ok a ∧ f a = .ok b := by
  cases x with
  | error d => exact ⟨fun h => (nomatch h), fun ⟨_, h, _⟩ => (nomatch h)⟩
  | ok a => exact ⟨fun h => ⟨a, rfl, h⟩, fun ⟨_, h, hf⟩ => by cases h; exact hf⟩

theorem readSrc_eq_ok_iff {c : BitVec 8} {x : Src} : readSrc c = .ok x ↔ x.code = c := by
  unfold readSrc
  constructor
  · intro h
    split at h
    · next y hy => cases h; exact Src.code_of_ofCode hy
    · cases h
  · rintro rfl
    rw [x.ofCode_code]

theorem takeLit_eq_ok_iff {uses : Bool} {ws rest : List Word} {lit : Option Word} :
    takeLit uses ws = .ok (lit, rest) ↔ uses = lit.isSome ∧ ws = lit.toList ++ rest := by
  unfold takeLit
  cases uses <;> cases ws <;> cases lit <;> simp

theorem settle_eq_ok_iff {o : Option Instr} {i : Instr} {ws rest : List Word} : settle o ws = .ok (i, rest) ↔ o = some i ∧ i.wf = true ∧ ws = rest := by
  unfold settle
  cases o with
  | none => simp
  | some j =>
    dsimp only
    constructor
    · intro h
      split at h
      · next hwf => cases h; exact ⟨rfl, hwf, rfl⟩
      · cases h
    · rintro ⟨h, hwf, rfl⟩
      cases h
      exact if_pos hwf

theorem flagOf_eq_some_iff {c : BitVec 4} {f : Option (Fin 12)} : flagOf c = some f ↔ flagCode f = c := by
  revert c f
  decide

end Sys2Proof
end

