-- ==== Sys2Proof/Proofs/InstrTables.lean ====
section
/-! Lemmas: the decoder's tables and the specifications of the instructions' fields give each instruction the same codes (R88, R89). -/

namespace Sys2Proof

/-! ### The tables and the specifications of the fields agree (R88, R89) -/

/-- A legal instruction by its fields (R83, R90, R312, R314), condition by condition. -/
theorem OpSpec.ok_iff {p : OpSpec} : p.ok = true ↔ (∀ b, p.sReq = some b → p.s = b) ∧ dstOk p.dstRole p.dst = true ∧ srcOk p.saRole p.sa = true ∧
    srcOk p.sbRole p.sb = true ∧ srcOk p.scRole p.sc = true ∧ p.immOk = true ∧ (p.flagOk || p.flag == none) = true ∧
    (p.dstRole != .unused || !p.nwb) = true ∧ p.usesLit = p.lit.isSome := by
  have hs : p.sReq.all (· == p.s) = true ↔ ∀ b, p.sReq = some b → p.s = b := by
    rw [Option.all_eq_true]
    exact forall₂_congr fun b _ => beq_iff_eq.trans eq_comm
  unfold OpSpec.ok
  simp only [Bool.and_eq_true, hs, beq_iff_eq, and_assoc]

/-- The specification of a well-formed instruction is legal, and it has one. -/
theorem Instr.wf_iff {i : Instr} : i.wf = true ↔ ∃ p, i.spec = some p ∧ p.ok = true := Option.any_eq_true ..

theorem OpSpec.ok_of_wf {i : Instr} {p : OpSpec} (hwf : i.wf = true) (h : i.spec = some p) : p.ok = true := by
  obtain ⟨q, hq, hok⟩ := Instr.wf_iff.1 hwf
  exact Option.some.inj (hq.symm.trans h) ▸ hok

/-- The decoder's tables give the instruction for the codes and the operands of its specification. -/
inductive Picks : Instr → OpSpec → Prop
  | b (major : Nat) {o : BArgs} {i : Instr} : pickB major o = some i → Picks i (bSpec major o)
  | u (major code : Nat) {o : UArgs} {i : Instr} : pickU major code o = some i → Picks i (uSpec major code o)
  | ctl (code : Nat) {o : CArgs} {i : Instr} : pickCtl code o = some i → Picks i (cSpec code o)
  | hint (o : HintArgs) : Picks (.hint o) (hintSpec o)
  | x (major fn : Nat) {sReq : Option Bool} {dst sa sb sc : Role} {immOk flagOk : Bool} {x : XArgs} {i : Instr} :
      pickX major fn x = some i → Picks i (xSpec major fn sReq dst sa sb sc immOk flagOk x)
  | fn (code : Nat) {immOk : Bool} {x : XArgs} {i : Instr} : pickFn code x = some i → Picks i (fnSpec code immOk x)

theorem pickEcall_of_not_mem {x : XArgs} (h : x.imm.toNat ∉ ecallServices) : pickEcall x = .ecall x := by
  unfold pickEcall
  split
  case h_7 => rfl
  all_goals exact absurd (by simp [ecallServices, *]) h

theorem pickMoncall_of_le {x : XArgs} (h : 7 ≤ x.imm.toNat) : pickMoncall x = .moncallUnknown x := by
  unfold pickMoncall
  split
  case h_8 => rfl
  all_goals omega

/-- The decoder's tables give a legal instruction for the codes and the operands of its specification. -/
theorem picks_of_spec {i : Instr} {p : OpSpec} (h : i.spec = some p) (hok : p.ok = true) : Picks i p := by
  obtain ⟨hs, -, -, -, -, himm, -, -, -⟩ := OpSpec.ok_iff.1 hok
  cases i <;> cases h
  case iadd | isub | and | or | xor | shl | shr | fadd | fmul | fsub => exact .b _ rfl
  case mov | not | ineg | iabs | popc | clz | ctz | brev | fabs | fneg | frcp | frsq | fsqrt | fexp2 | flog2 | fsin | fcos | ftanh | fsig | ffrac | fclass =>
    exact .u _ _ rfl
  case ret | exit | trigger | yield | nop => exact .ctl _ rfl
  case hint o => exact .hint o
  case fabsX | fnegX | frcpX | frsqX | fsqrtX | fexp2X | flog2X | fsinX | fcosX | ftanhX | fsigX | ffracX | fclassX => exact .fn _ rfl
  case ld w x | lds w x | st w x | sts w x => cases w <;> exact .x _ _ rfl
  -- S = 0 and S = 1 of the majors whose tables differ by it (R89)
  case shflIdx | shflUp | shflDown | shflXor | voteAny | voteAll | voteEq | ballot | mergeChk | mergeLane | mergeG | rkq | rkhome | dot4E4m3 | dot4E5m2 | dot8E2m1 |
      dot2B16 | dot4I8 | dot4N8 | dot8I4 | dots4E4m3 | dots4E5m2 | dots8E2m1 | hadd2 | hsub2 | hmul2 | hfma2 | hmin2 | hmax2 | cvtF32I32 | cvtI32F32 | cvtF32F16 |
      cvtF32B16 | cvtPkF16F32 | cvtPkB16F32 | cvtPkE4m3F32 | cvtPkE5m2F32 | cvtPkE2m1F32 | cvtUpB16E4m3 | cvtUpB16E5m2 | cvtUpB16E2m1 | cvtB16E8m0 | cvtPkI8F32 | cvtPkI4F32 |
      dhalt | dresume | dstep | dread | dwrite =>
    exact .x _ _ (if_neg (ne_true_of_eq_false (hs _ rfl)))
  case bra | bz | bnz | brx | call | calli | grow | fwait | lread | lwrite | mclaim | mrel | mfill | mzero | mload | mma | mver | mdrain | mverify | mloc | mfix |
      mretry | mstat | barInit | barArrive | barExpect | barWait | barTest | barDrop | wbind | wunbind | wstat | enq | eseq | trap | brk | csrr | csrw | csrs | csrc |
      isync | iflush | wfi =>
    exact .x _ _ (if_pos (hs _ rfl))
  -- FN 1, 8, 9 and 11 of major 0x1E stand for several instructions, told apart by IMM (R299, R436, R437, R440)
  case tret x =>
    have h0 : x.imm = 0 := of_decide_eq_true himm
    exact .x _ _ ((if_pos (hs _ rfl)).trans (congrArg some (if_neg (by rw [h0]; decide))))
  case tretSkip x => exact .x _ _ ((if_pos (hs _ rfl)).trans (congrArg some (if_pos (of_decide_eq_true himm))))
  case ecall x =>
    refine .x _ _ ((if_pos (hs _ rfl)).trans (congrArg some (pickEcall_of_not_mem ?_)))
    exact of_decide_eq_true (Bool.and_eq_true _ _ ▸ himm).2
  case queueQuiesce x | queueResume x | queueReset x | traceBind x | traceClose x | codeLoad x =>
    refine .x _ _ ((if_pos (hs _ rfl)).trans (congrArg some ?_))
    unfold pickEcall
    rw [of_decide_eq_true himm]
    rfl
  case monitorVersion x | imageVerify x | imageMeasure x | isleWrite x | isleSwitch x | heartbeat x | fuseSvn x =>
    refine .x _ _ ((if_pos (hs _ rfl)).trans (congrArg some ?_))
    unfold pickMoncall
    rw [of_decide_eq_true himm]
    rfl
  case moncallUnknown x =>
    refine .x _ _ ((if_pos (hs _ rfl)).trans (congrArg some (pickMoncall_of_le ?_)))
    exact of_decide_eq_true (Bool.and_eq_true _ _ ▸ himm).2
  case tlbinvAll x =>
    refine .x _ _ ((if_pos (hs _ rfl)).trans ?_)
    show pickTlbinv x = _
    unfold pickTlbinv XArgs.immBits
    rw [of_decide_eq_true himm]
    rfl
  case tlbinvAsid x | tlbinvRange x =>
    refine .x _ _ ((if_pos (hs _ rfl)).trans ?_)
    show pickTlbinv x = _
    have hmode : (only x 0xFFF && x.immBits 1 0 = _ && x.immBits 11 2 ≠ 0) = true := himm
    simp only [Bool.and_eq_true, decide_eq_true_eq] at hmode
    obtain ⟨⟨-, hmode⟩, -⟩ := hmode
    unfold pickTlbinv
    rw [hmode]
    rfl
  all_goals exact .x _ _ rfl

/-! The specification of an instruction that a table gives has the codes and the operands that it was asked for. -/

theorem spec_of_pickB {major : Nat} {o : BArgs} {i : Instr} (h : pickB major o = some i) : i.spec = some (bSpec major o) := by
  unfold pickB at h
  split at h <;> cases h <;> rfl

theorem spec_of_pickU {major code : Nat} {o : UArgs} {i : Instr} (h : pickU major code o = some i) : i.spec = some (uSpec major code o) := by
  unfold pickU pickU9 pickUA at h
  split at h <;> try split at h
  all_goals cases h <;> rfl

theorem spec_of_pickCtl {code : Nat} {o : CArgs} {i : Instr} (h : pickCtl code o = some i) : i.spec = some (cSpec code o) := by
  unfold pickCtl at h
  split at h <;> cases h <;> rfl

theorem spec_of_pickFn {code : Nat} {x : XArgs} {i : Instr} (h : pickFn code x = some i) : ∃ immOk, i.spec = some (fnSpec code immOk x) := by
  unfold pickFn at h
  split at h <;> cases h <;> exact ⟨_, rfl⟩

/-- Major 0x0D FN 0xB, whose SB is a function code (R88). -/
def isUnary (major fn : Nat) : Bool := major == 0x0D && fn == 0xB

/-- The specification is that of an X-form of this major and FN with these operands, and FN is no function code's. -/
def Instr.IsX (i : Instr) (major fn : Nat) (x : XArgs) : Prop :=
  (fn < 16 ∧ isUnary major fn = false) ∧ ∃ sReq dst sa sb sc immOk flagOk, i.spec = some (xSpec major fn sReq dst sa sb sc immOk flagOk x)

theorem Instr.isX_of_spec {i : Instr} {major fn : Nat} {x : XArgs} {sReq : Option Bool} {dst sa sb sc : Role} {immOk flagOk : Bool}
    (h : i.spec = some (xSpec major fn sReq dst sa sb sc immOk flagOk x)) (hfn : fn < 16 ∧ isUnary major fn = false) : i.IsX major fn x :=
  ⟨hfn, _, _, _, _, _, _, _, h⟩

theorem code_of_widthOf {k : Nat} {w : MemWidth} (h : widthOf k = some w) : w.code = k := by
  unfold widthOf at h
  split at h <;> cases h <;> rfl

/-- Loads and stores have the scratchpad's codes 8 above those of global memory (R89). -/
theorem isX_of_memTable {major fn : Nat} {x : XArgs} {i : Instr} {g l : MemWidth → Instr}
    (h : (if fn < 8 then (widthOf fn).map g else (widthOf (fn - 8)).map l) = some i)
    (hg : ∀ w, (g w).IsX major (0 + w.code) x) (hl : ∀ w, (l w).IsX major (8 + w.code) x) : i.IsX major fn x := by
  split at h
  · obtain ⟨w, hw, rfl⟩ := Option.map_eq_some_iff.1 h
    have hfn : 0 + w.code = fn := by rw [code_of_widthOf hw, Nat.zero_add]
    exact hfn ▸ hg w
  · obtain ⟨w, hw, rfl⟩ := Option.map_eq_some_iff.1 h
    have hfn : 8 + w.code = fn := by rw [code_of_widthOf hw]; omega
    exact hfn ▸ hl w

/-- The services and modes that IMM tells apart have one major and one FN (R436, R437, R440). -/
theorem isX_pickEcall (x : XArgs) : (pickEcall x).IsX 0x1E 8 x := by
  unfold pickEcall
  split <;> exact Instr.isX_of_spec rfl (by decide)

theorem isX_pickMoncall (x : XArgs) : (pickMoncall x).IsX 0x1E 9 x := by
  unfold pickMoncall
  split <;> exact Instr.isX_of_spec rfl (by decide)

theorem isX_of_pickTlbinv {x : XArgs} {i : Instr} (h : pickTlbinv x = some i) : i.IsX 0x1E 11 x := by
  unfold pickTlbinv at h
  split at h <;> cases h <;> exact Instr.isX_of_spec rfl (by decide)

theorem isX_of_pick1Ew {fn : Nat} {x : XArgs} {i : Instr} (h : pick1Ew fn x = some i) : i.IsX 0x1E fn x := by
  unfold pick1Ew at h
  split at h
  case h_2 =>
    cases h
    split <;> exact Instr.isX_of_spec rfl (by decide)
  case h_9 => cases h; exact isX_pickEcall x
  case h_10 => cases h; exact isX_pickMoncall x
  case h_12 => exact isX_of_pickTlbinv h
  all_goals cases h <;> exact Instr.isX_of_spec rfl (by decide)

theorem isX_of_pickX {major fn : Nat} {x : XArgs} {i : Instr} (h : pickX major fn x = some i) : i.IsX major fn x := by
  unfold pickX at h
  split at h
  case h_12 | h_13 => exact isX_of_memTable h (fun w => Instr.isX_of_spec rfl (by cases w <;> decide)) (fun w => Instr.isX_of_spec rfl (by cases w <;> decide))
  case h_18 =>
    split at h
    · exact isX_of_pick1Ew h
    · unfold pick1El at h
      split at h <;> cases h <;> exact Instr.isX_of_spec rfl (by decide)
  -- every other table is a list of constructors by FN, at one value of S where the major asks for it
  all_goals try split at h
  all_goals simp only [pick0B, pick0C, pick0D, pick10l, pick10w, pick11l, pick12l, pick13l, pick14l, pick15l, pick16l, pick17w, pick1A, pick1B, pick1Cw, pick1Dw,
    reduceCtorEq] at h
  all_goals split at h <;> cases h <;> exact Instr.isX_of_spec rfl (by decide)

/-! The layout of the words of each table's instructions (R88, R89). -/

theorem formOf_of_pickB {major : Nat} {o : BArgs} {i : Instr} (h : pickB major o = some i) (s : Bool) : formOf major s = some .b ∧ major < 32 := by
  unfold pickB at h
  split at h
  case h_11 => cases h
  all_goals exact ⟨rfl, by decide⟩

theorem formOf_of_pickU {major code : Nat} {o : UArgs} {i : Instr} (h : pickU major code o = some i) (s : Bool) :
    formOf major s = some .u ∧ major < 32 ∧ code < 256 := by
  unfold pickU pickU9 pickUA at h
  split at h
  case h_3 => cases h
  all_goals
    split at h <;> cases h
    all_goals exact ⟨rfl, by decide, by decide⟩

theorem code_lt_of_pickCtl {code : Nat} {o : CArgs} {i : Instr} (h : pickCtl code o = some i) : code < 256 := by
  unfold pickCtl at h
  split at h <;> cases h <;> decide

theorem code_lt_of_pickFn {code : Nat} {x : XArgs} {i : Instr} (h : pickFn code x = some i) : code < 256 := by
  unfold pickFn at h
  split at h <;> cases h <;> decide

theorem formOf_of_pickX {major fn : Nat} {x : XArgs} {i : Instr} (h : pickX major fn x = some i) : formOf major x.s = some .x ∧ major < 32 := by
  unfold pickX at h
  split at h
  case h_19 => cases h
  all_goals try split at h
  all_goals simp_all [formOf]

end Sys2Proof
end

