-- ==== Sys2Proof/Proofs/EncodeDecode.lean ====
section
/-! Lemmas and proofs: words and instructions name each other (R81 to R93, R100): the round trips of the encoder and the decoder, and the words that the spec writes out. -/

namespace Sys2Proof

/-! ### Decoding and encoding a word of each form -/

theorem encode_eq_words {i : Instr} {p : OpSpec} (h : i.spec = some p) (hf : p.form ≠ .hint) : encode i = p.words := by
  unfold encode
  split
  · cases h
    exact absurd rfl hf
  · rw [h]
    rfl

theorem OpSpec.usesLit_of_wf {i : Instr} {p : OpSpec} (hwf : i.wf = true) (h : i.spec = some p) : p.usesLit = p.lit.isSome := by
  obtain ⟨-, -, -, -, -, -, -, -, hlit⟩ := OpSpec.ok_iff.1 (OpSpec.ok_of_wf hwf h)
  exact hlit

/-! Which source fields read a literal in each form (R82). -/

theorem usesLit_bSpec {major : Nat} {o : BArgs} : (bSpec major o).usesLit = (o.sa == .lit || o.sb == .lit) := by
  show (o.sa == .lit || o.sb == .lit || false || false) = _
  rw [Bool.or_false, Bool.or_false]

theorem usesLit_uSpec {major code : Nat} {o : UArgs} : (uSpec major code o).usesLit = (o.sa == .lit) := by
  show (o.sa == .lit || false || false || false) = _
  rw [Bool.or_false, Bool.or_false, Bool.or_false]

theorem ofCode_eq_lit_iff {c : BitVec 8} : Src.ofCode c = some .lit ↔ c = 0xFF :=
  ⟨fun h => (Src.code_of_ofCode h).symm, fun h => h ▸ Src.ofCode_code .lit⟩

theorem usesLit_xSpec {major fn : Nat} {sReq : Option Bool} {dst sa sb sc : Role} {immOk flagOk : Bool} {x : XArgs} :
    (xSpec major fn sReq dst sa sb sc immOk flagOk x).usesLit =
      (x.sa == .lit || x.sb == .lit || x.sc == .lit || (major == 0x14 && x.imm.extractLsb' 0 8 == 0xFF)) := by
  have hxs : ((xSpec major fn sReq dst sa sb sc immOk flagOk x).xs == some .lit) = (major == 0x14 && x.imm.extractLsb' 0 8 == 0xFF) := by
    show ((if Form.x = .x ∧ major = 0x14 then Src.ofCode (x.imm.extractLsb' 0 8) else none) == some .lit) = _
    rw [Bool.eq_iff_iff, beq_iff_eq]
    by_cases hm : major = 0x14
    · rw [if_pos ⟨rfl, hm⟩, ofCode_eq_lit_iff]
      simp [hm]
    · rw [if_neg (fun h => hm h.2)]
      simp [hm]
  unfold OpSpec.usesLit
  rw [hxs]
  rfl

theorem usesLit_fnSpec {code : Nat} {immOk : Bool} {x : XArgs} : (fnSpec code immOk x).usesLit = (x.sa == .lit || x.sb == .lit || x.sc == .lit || false) := rfl

/-! ### Words by their fields, form by form (R81, R82) -/

theorem cons_eq_words_bSpec_iff {major : Nat} (hm : major < 32) {o : BArgs} {w : Word} {ws rest : List Word} : w :: ws = (bSpec major o).words ++ rest ↔
    wDist w = o.dist ∧ wS w = o.s ∧ (wMajor w).toNat = major ∧ wNwb w = o.nwb ∧ wDst w = o.dst ∧ wSa w = o.sa.code ∧ wSb w = o.sb.code ∧
      ws = o.lit.toList ++ rest := by
  show w :: ws = baseWord o.dist o.s (BitVec.ofNat 5 major) o.nwb o.dst o.sa.code o.sb.code :: (o.lit.toList ++ rest) ↔ _
  rw [List.cons.injEq, eq_baseWord_iff, eq_ofNat_iff hm]
  simp only [and_assoc]

theorem cons_eq_words_uSpec_iff {major code : Nat} (hm : major < 32) (hc : code < 256) {o : UArgs} {w : Word} {ws rest : List Word} :
    w :: ws = (uSpec major code o).words ++ rest ↔
      wDist w = o.dist ∧ wS w = o.s ∧ (wMajor w).toNat = major ∧ wNwb w = o.nwb ∧ wDst w = o.dst ∧ wSa w = o.sa.code ∧ (wSb w).toNat = code ∧
        ws = o.lit.toList ++ rest := by
  show w :: ws = baseWord o.dist o.s (BitVec.ofNat 5 major) o.nwb o.dst o.sa.code (BitVec.ofNat 8 code) :: (o.lit.toList ++ rest) ↔ _
  rw [List.cons.injEq, eq_baseWord_iff, eq_ofNat_iff hm, eq_ofNat_iff hc]
  simp only [and_assoc]

theorem cons_eq_words_cSpec_iff {code : Nat} (hc : code < 256) {o : CArgs} {w : Word} {ws rest : List Word} : w :: ws = (cSpec code o).words ++ rest ↔
    wDist w = o.dist ∧ wS w = true ∧ (wMajor w).toNat = 0x11 ∧ w.extractLsb' 8 16 = 0 ∧ (wSb w).toNat = code ∧ ws = rest := by
  show w :: ws = baseWord o.dist true (BitVec.ofNat 5 0x11) false 0 0 (BitVec.ofNat 8 code) :: rest ↔ _
  rw [List.cons.injEq, eq_baseWord_iff, eq_ofNat_iff (by decide : 0x11 < 2 ^ 5), eq_ofNat_iff hc, unusedFields_eq_zero_iff]
  simp only [and_assoc]

/-- The words of an X-form of this major and FN, whatever parts its operands play. -/
def xWords (major fn : Nat) (x : XArgs) : List Word :=
  [baseWord x.dist x.s (BitVec.ofNat 5 major) x.nwb x.dst x.sa.code x.sb.code, extWord x.sc.code (flagCode x.flag) (BitVec.ofNat 4 fn) x.imm] ++ x.lit.toList

theorem words_xSpec {major fn : Nat} {sReq : Option Bool} {dst sa sb sc : Role} {immOk flagOk : Bool} {x : XArgs} :
    (xSpec major fn sReq dst sa sb sc immOk flagOk x).words = xWords major fn x := rfl

theorem cons_cons_eq_xWords_iff {major fn : Nat} (hm : major < 32) (hfn : fn < 16) {x : XArgs} {w e : Word} {ws rest : List Word} :
    w :: e :: ws = xWords major fn x ++ rest ↔
      (wDist w = x.dist ∧ wS w = x.s ∧ (wMajor w).toNat = major ∧ wNwb w = x.nwb ∧ wDst w = x.dst ∧ wSa w = x.sa.code ∧ wSb w = x.sb.code) ∧
      (eSc e = x.sc.code ∧ eFlag e = flagCode x.flag ∧ (eFn e).toNat = fn ∧ eImm e = x.imm) ∧ ws = x.lit.toList ++ rest := by
  show w :: e :: ws = baseWord _ _ _ _ _ _ _ :: extWord _ _ _ _ :: (x.lit.toList ++ rest) ↔ _
  rw [List.cons.injEq, List.cons.injEq, eq_baseWord_iff, eq_extWord_iff, eq_ofNat_iff hm, eq_ofNat_iff hfn]

/-- The words of a unary function, whose SB is its code. -/
def fnWords (code : Nat) (x : XArgs) : List Word :=
  [baseWord x.dist x.s 0x0D x.nwb x.dst x.sa.code (BitVec.ofNat 8 code), extWord x.sc.code (flagCode x.flag) 0xB x.imm] ++ x.lit.toList

theorem words_fnSpec {code : Nat} {immOk : Bool} {x : XArgs} : (fnSpec code immOk x).words = fnWords code x := rfl

theorem cons_cons_eq_fnWords_iff {code : Nat} (hc : code < 256) {x : XArgs} {w e : Word} {ws rest : List Word} : w :: e :: ws = fnWords code x ++ rest ↔
      (wDist w = x.dist ∧ wS w = x.s ∧ (wMajor w).toNat = 0x0D ∧ wNwb w = x.nwb ∧ wDst w = x.dst ∧ wSa w = x.sa.code ∧ (wSb w).toNat = code) ∧
      (eSc e = x.sc.code ∧ eFlag e = flagCode x.flag ∧ (eFn e).toNat = 0xB ∧ eImm e = x.imm) ∧ ws = x.lit.toList ++ rest := by
  show w :: e :: ws = baseWord x.dist x.s (BitVec.ofNat 5 0x0D) x.nwb x.dst x.sa.code _ :: extWord x.sc.code (flagCode x.flag) (BitVec.ofNat 4 0xB) x.imm ::
    (x.lit.toList ++ rest) ↔ _
  rw [List.cons.injEq, List.cons.injEq, eq_baseWord_iff, eq_extWord_iff, eq_ofNat_iff (by decide : 0x0D < 2 ^ 5), eq_ofNat_iff hc,
    eq_ofNat_iff (by decide : 0xB < 2 ^ 4)]

/-! ### The decoder, form by form -/

theorem decodeB_eq_ok_iff {w : Word} {ws rest : List Word} {i : Instr} : decodeB w ws = .ok (i, rest) ↔
    i.wf = true ∧ ∃ major o, pickB major o = some i ∧ w :: ws = (bSpec major o).words ++ rest := by
  unfold decodeB
  simp only [bind_eq_ok_iff, readSrc_eq_ok_iff, Prod.exists, takeLit_eq_ok_iff, settle_eq_ok_iff]
  constructor
  · rintro ⟨sa, hsa, sb, hsb, lit, _, ⟨-, hws⟩, hpick, hwf, rfl⟩
    obtain ⟨-, hm⟩ := formOf_of_pickB hpick true
    exact ⟨hwf, _, _, hpick, (cons_eq_words_bSpec_iff hm).2 ⟨rfl, rfl, rfl, rfl, rfl, hsa.symm, hsb.symm, hws⟩⟩
  · rintro ⟨hwf, major, o, hpick, hwords⟩
    obtain ⟨-, hm⟩ := formOf_of_pickB hpick true
    obtain ⟨hdist, hs, rfl, hnwb, hdst, hsa, hsb, hws⟩ := (cons_eq_words_bSpec_iff hm).1 hwords
    have hlit := usesLit_bSpec ▸ OpSpec.usesLit_of_wf hwf (spec_of_pickB hpick)
    refine ⟨o.sa, hsa.symm, o.sb, hsb.symm, o.lit, rest, ⟨hlit, hws⟩, ?_, hwf, rfl⟩
    rwa [hdist, hs, hnwb, hdst]

theorem decodeU_eq_ok_iff {w : Word} {ws rest : List Word} {i : Instr} : decodeU w ws = .ok (i, rest) ↔
    i.wf = true ∧ ∃ major code o, pickU major code o = some i ∧ w :: ws = (uSpec major code o).words ++ rest := by
  unfold decodeU
  simp only [bind_eq_ok_iff, readSrc_eq_ok_iff, Prod.exists, takeLit_eq_ok_iff, settle_eq_ok_iff]
  constructor
  · rintro ⟨sa, hsa, lit, _, ⟨-, hws⟩, hpick, hwf, rfl⟩
    obtain ⟨-, hm, hc⟩ := formOf_of_pickU hpick true
    exact ⟨hwf, _, _, _, hpick, (cons_eq_words_uSpec_iff hm hc).2 ⟨rfl, rfl, rfl, rfl, rfl, hsa.symm, rfl, hws⟩⟩
  · rintro ⟨hwf, major, code, o, hpick, hwords⟩
    obtain ⟨-, hm, hc⟩ := formOf_of_pickU hpick true
    obtain ⟨hdist, hs, rfl, hnwb, hdst, hsa, rfl, hws⟩ := (cons_eq_words_uSpec_iff hm hc).1 hwords
    have hlit := usesLit_uSpec ▸ OpSpec.usesLit_of_wf hwf (spec_of_pickU hpick)
    refine ⟨o.sa, hsa.symm, o.lit, rest, ⟨hlit, hws⟩, ?_, hwf, rfl⟩
    rwa [hdist, hs, hnwb, hdst]

/-- A control word, where the decoder looks for one: at major 0x11 with S = 1. -/
theorem decodeCtl_eq_ok_iff {w : Word} {ws rest : List Word} {i : Instr} (hmajor : (wMajor w).toNat = 0x11) (hs : wS w = true) : decodeCtl w ws = .ok (i, rest) ↔
    i.wf = true ∧ ∃ code o, pickCtl code o = some i ∧ w :: ws = (cSpec code o).words ++ rest := by
  unfold decodeCtl
  constructor
  · intro h
    split at h
    · next hzero =>
      obtain ⟨hpick, hwf, hws⟩ := settle_eq_ok_iff.1 h
      exact ⟨hwf, _, _, hpick, (cons_eq_words_cSpec_iff (code_lt_of_pickCtl hpick)).2 ⟨rfl, hs, hmajor, hzero, rfl, hws⟩⟩
    · cases h
  · rintro ⟨hwf, code, o, hpick, hwords⟩
    obtain ⟨hdist, -, -, hzero, rfl, hws⟩ := (cons_eq_words_cSpec_iff (code_lt_of_pickCtl hpick)).1 hwords
    rw [if_pos hzero, settle_eq_ok_iff, hdist]
    exact ⟨hpick, hwf, hws⟩

/-- The operands that the decoder reads from the two words of an X-form. -/
def xArgsOf (w e : Word) (sa sb sc : Src) (flag : Option (Fin 12)) (lit : Option Word) : XArgs :=
  { dist := wDist w, s := wS w, nwb := wNwb w, dst := wDst w, sa, sb, sc, flag, imm := eImm e, lit }

theorem decodeX_eq_ok_iff_fields {w e : Word} {ws rest : List Word} {i : Instr} : decodeX w e ws = .ok (i, rest) ↔
    ∃ sa, sa.code = wSa w ∧ ∃ sb, (if isUnary (wMajor w).toNat (eFn e).toNat then sb = .var 0 else sb.code = wSb w) ∧ ∃ sc, sc.code = eSc e ∧
      ∃ flag, flagOf (eFlag e) = some flag ∧
      ∃ lit, (sa == .lit || sb == .lit || sc == .lit || ((wMajor w).toNat == 0x14 && (eImm e).extractLsb' 0 8 == 0xFF)) = lit.isSome ∧ ws = lit.toList ++ rest ∧
      (if isUnary (wMajor w).toNat (eFn e).toNat then pickFn (wSb w).toNat (xArgsOf w e sa sb sc flag lit)
        else pickX (wMajor w).toNat (eFn e).toNat (xArgsOf w e sa sb sc flag lit)) = some i ∧ i.wf = true := by
  have hu : ((wMajor w).toNat == 0x0D && (eFn e).toNat == 0xB) = isUnary (wMajor w).toNat (eFn e).toNat := rfl
  unfold decodeX
  simp only [hu]
  cases isUnary (wMajor w).toNat (eFn e).toNat <;> cases flagOf (eFlag e) <;>
    simp only [bind_eq_ok_iff, Prod.exists, takeLit_eq_ok_iff, settle_eq_ok_iff, readSrc_eq_ok_iff, xArgsOf, Bool.false_eq_true, if_false, if_true, reduceCtorEq, false_and,
      and_false, exists_false, Option.some.injEq, Except.ok.injEq, existsAndEq, true_and, and_true, and_assoc]


/-- Two words of an X-form whose FN is none of a function code. -/
theorem decodeX_eq_ok_iff_pickX {w e : Word} {ws rest : List Word} {i : Instr} (hu : isUnary (wMajor w).toNat (eFn e).toNat = false) :
    decodeX w e ws = .ok (i, rest) ↔ i.wf = true ∧ ∃ major fn x, pickX major fn x = some i ∧ w :: e :: ws = xWords major fn x ++ rest := by
  rw [decodeX_eq_ok_iff_fields, hu]
  simp only [Bool.false_eq_true, if_false, flagOf_eq_some_iff]
  constructor
  · rintro ⟨sa, hsa, sb, hsb, sc, hsc, flag, hflag, lit, -, hws, hpick, hwf⟩
    obtain ⟨-, hm⟩ := formOf_of_pickX hpick
    obtain ⟨⟨hfn, -⟩, -⟩ := isX_of_pickX hpick
    exact ⟨hwf, _, _, _, hpick, (cons_cons_eq_xWords_iff hm hfn).2
      ⟨⟨rfl, rfl, rfl, rfl, rfl, hsa.symm, hsb.symm⟩, ⟨hsc.symm, hflag.symm, rfl, rfl⟩, hws⟩⟩
  · rintro ⟨hwf, major, fn, x, hpick, hwords⟩
    obtain ⟨-, hm⟩ := formOf_of_pickX hpick
    obtain ⟨⟨hfn, -⟩, _, _, _, _, _, _, _, hspec⟩ := isX_of_pickX hpick
    obtain ⟨⟨hdist, hs, rfl, hnwb, hdst, hsa, hsb⟩, ⟨hsc, hflag, rfl, himm⟩, hws⟩ := (cons_cons_eq_xWords_iff hm hfn).1 hwords
    have hlit := usesLit_xSpec ▸ OpSpec.usesLit_of_wf hwf hspec
    refine ⟨x.sa, hsa.symm, x.sb, hsb.symm, x.sc, hsc.symm, x.flag, hflag.symm, x.lit, himm ▸ hlit, hws, ?_, hwf⟩
    unfold xArgsOf
    rwa [hdist, hs, hnwb, hdst, himm]

/-- Two words of major 0x0D FN 0xB, where SB is a function code and no operand (R352). -/
theorem decodeX_eq_ok_iff_pickFn {w e : Word} {ws rest : List Word} {i : Instr} (hu : isUnary (wMajor w).toNat (eFn e).toNat = true) :
    decodeX w e ws = .ok (i, rest) ↔ i.wf = true ∧ ∃ code x, pickFn code x = some i ∧ x.sb = .var 0 ∧ w :: e :: ws = fnWords code x ++ rest := by
  obtain ⟨hmajor, hfn⟩ : (wMajor w).toNat = 0x0D ∧ (eFn e).toNat = 0xB := by simpa [isUnary] using hu
  rw [decodeX_eq_ok_iff_fields, hu]
  simp only [if_true, flagOf_eq_some_iff]
  constructor
  · rintro ⟨sa, hsa, sb, hsb, sc, hsc, flag, hflag, lit, -, hws, hpick, hwf⟩
    exact ⟨hwf, _, _, hpick, hsb, (cons_cons_eq_fnWords_iff (code_lt_of_pickFn hpick)).2
      ⟨⟨rfl, rfl, hmajor, rfl, rfl, hsa.symm, rfl⟩, ⟨hsc.symm, hflag.symm, hfn, rfl⟩, hws⟩⟩
  · rintro ⟨hwf, code, x, hpick, hsb, hwords⟩
    obtain ⟨_, hspec⟩ := spec_of_pickFn hpick
    obtain ⟨⟨hdist, hs, -, hnwb, hdst, hsa, rfl⟩, ⟨hsc, hflag, -, himm⟩, hws⟩ := (cons_cons_eq_fnWords_iff (code_lt_of_pickFn hpick)).1 hwords
    have hlit := usesLit_fnSpec ▸ OpSpec.usesLit_of_wf hwf hspec
    refine ⟨x.sa, hsa.symm, x.sb, hsb, x.sc, hsc.symm, x.flag, hflag.symm, x.lit, ?_, hws, ?_, hwf⟩
    · rw [hmajor]
      exact hlit
    · unfold xArgsOf
      rwa [hdist, hs, hnwb, hdst, himm]

/-! The decoder at a list of words, by the layout of the first (R88, R89). -/

theorem decodeWords_cons_b {w : Word} (ws : List Word) (h : formOf (wMajor w).toNat (wS w) = some .b) : decodeWords (w :: ws) = decodeB w ws := by
  simp only [decodeWords, h]

theorem decodeWords_cons_u {w : Word} (ws : List Word) (h : formOf (wMajor w).toNat (wS w) = some .u) : decodeWords (w :: ws) = decodeU w ws := by
  simp only [decodeWords, h]

theorem decodeWords_cons_ctl {w : Word} (ws : List Word) (h : formOf (wMajor w).toNat (wS w) = some .ctl) : decodeWords (w :: ws) = decodeCtl w ws := by
  simp only [decodeWords, h]

theorem decodeWords_cons_hint {w : Word} (ws : List Word) (h : formOf (wMajor w).toNat (wS w) = some .hint) :
    decodeWords (w :: ws) = settle (some (.hint { dist := wDist w, n := w.extractLsb' 0 24 })) ws := by
  simp only [decodeWords, h]

theorem decodeWords_cons_x {w : Word} (e : Word) (ws : List Word) (h : formOf (wMajor w).toNat (wS w) = some .x) : decodeWords (w :: e :: ws) = decodeX w e ws := by
  simp only [decodeWords, h]

/-! What a layout says of the word: control words and hint space have one major and one S, and no word has the layout of a function code (R88, R89). -/

theorem formOf_eq_ctl {major : Nat} {s : Bool} (h : formOf major s = some .ctl) : major = 0x11 ∧ s = true := by
  unfold formOf at h
  split_ifs at h <;> simp_all

theorem formOf_eq_hint {major : Nat} {s : Bool} (h : formOf major s = some .hint) : major = 0x1F ∧ s = false := by
  unfold formOf at h
  split_ifs at h <;> simp_all

theorem formOf_ne_xfn {major : Nat} {s : Bool} {code : Nat} : formOf major s ≠ some (.xfn code) := by
  unfold formOf
  split_ifs <;> simp

/-! ### The words of an instruction decode to it -/

theorem decodeWords_words_bSpec {major : Nat} {o : BArgs} {i : Instr} (hpick : pickB major o = some i) (hwf : i.wf = true) (rest : List Word) :
    decodeWords ((bSpec major o).words ++ rest) = .ok (i, rest) := by
  obtain ⟨w, ws, hw⟩ : ∃ w ws, (bSpec major o).words ++ rest = w :: ws := ⟨_, _, rfl⟩
  obtain ⟨hform, hm⟩ := formOf_of_pickB hpick (wS w)
  obtain ⟨-, -, rfl, -⟩ := (cons_eq_words_bSpec_iff hm).1 hw.symm
  rw [hw, decodeWords_cons_b ws hform]
  exact decodeB_eq_ok_iff.2 ⟨hwf, _, o, hpick, hw.symm⟩

theorem decodeWords_words_uSpec {major code : Nat} {o : UArgs} {i : Instr} (hpick : pickU major code o = some i) (hwf : i.wf = true) (rest : List Word) :
    decodeWords ((uSpec major code o).words ++ rest) = .ok (i, rest) := by
  obtain ⟨w, ws, hw⟩ : ∃ w ws, (uSpec major code o).words ++ rest = w :: ws := ⟨_, _, rfl⟩
  obtain ⟨hform, hm, hc⟩ := formOf_of_pickU hpick (wS w)
  obtain ⟨-, -, rfl, -⟩ := (cons_eq_words_uSpec_iff hm hc).1 hw.symm
  rw [hw, decodeWords_cons_u ws hform]
  exact decodeU_eq_ok_iff.2 ⟨hwf, _, code, o, hpick, hw.symm⟩

theorem decodeWords_words_cSpec {code : Nat} {o : CArgs} {i : Instr} (hpick : pickCtl code o = some i) (hwf : i.wf = true) (rest : List Word) :
    decodeWords ((cSpec code o).words ++ rest) = .ok (i, rest) := by
  obtain ⟨w, ws, hw⟩ : ∃ w ws, (cSpec code o).words ++ rest = w :: ws := ⟨_, _, rfl⟩
  obtain ⟨-, hs, hmajor, -⟩ := (cons_eq_words_cSpec_iff (code_lt_of_pickCtl hpick)).1 hw.symm
  rw [hw, decodeWords_cons_ctl ws (by rw [hmajor, hs]; rfl)]
  exact (decodeCtl_eq_ok_iff hmajor hs).2 ⟨hwf, code, o, hpick, hw.symm⟩

theorem decodeWords_xWords {major fn : Nat} {x : XArgs} {i : Instr} (hpick : pickX major fn x = some i) (hwf : i.wf = true) (rest : List Word) :
    decodeWords (xWords major fn x ++ rest) = .ok (i, rest) := by
  obtain ⟨w, e, ws, hw⟩ : ∃ w e ws, xWords major fn x ++ rest = w :: e :: ws := ⟨_, _, _, rfl⟩
  obtain ⟨hform, hm⟩ := formOf_of_pickX hpick
  obtain ⟨⟨hfn, hu⟩, -⟩ := isX_of_pickX hpick
  obtain ⟨⟨-, hs, rfl, -⟩, ⟨-, -, rfl, -⟩, -⟩ := (cons_cons_eq_xWords_iff hm hfn).1 hw.symm
  rw [hw, decodeWords_cons_x e ws (hs ▸ hform)]
  exact (decodeX_eq_ok_iff_pickX hu).2 ⟨hwf, _, _, x, hpick, hw.symm⟩

theorem decodeWords_fnWords {code : Nat} {x : XArgs} {i : Instr} (hpick : pickFn code x = some i) (hsb : x.sb = .var 0) (hwf : i.wf = true) (rest : List Word) :
    decodeWords (fnWords code x ++ rest) = .ok (i, rest) := by
  obtain ⟨w, e, ws, hw⟩ : ∃ w e ws, fnWords code x ++ rest = w :: e :: ws := ⟨_, _, _, rfl⟩
  obtain ⟨⟨-, -, hmajor, -⟩, ⟨-, -, hfn, -⟩, -⟩ := (cons_cons_eq_fnWords_iff (code_lt_of_pickFn hpick)).1 hw.symm
  rw [hw, decodeWords_cons_x e ws (by rw [hmajor]; rfl)]
  exact (decodeX_eq_ok_iff_pickFn (by rw [hmajor, hfn]; rfl)).2 ⟨hwf, code, x, hpick, hsb, hw.symm⟩

theorem decodeWords_hint {o : HintArgs} (hwf : (Instr.hint o).wf = true) (rest : List Word) : decodeWords (encode (.hint o) ++ rest) = .ok (.hint o, rest) := by
  obtain ⟨w, hw⟩ : ∃ w, w = o.dist ++ (0b011111 : BitVec 6) ++ o.n := ⟨_, rfl⟩
  obtain ⟨hdist, hs, hmajor, hn⟩ := eq_hintWord_iff.1 hw
  show decodeWords ((o.dist ++ (0b011111 : BitVec 6) ++ o.n) :: rest) = _
  rw [← hw, decodeWords_cons_hint rest (by rw [hmajor, hs]; rfl), settle_eq_ok_iff, hdist, hn]
  exact ⟨rfl, hwf, rfl⟩

/-! ### The statements -/

/-- Settles O1: the fields of the words are those of the instruction's specification, and the decoder's table has the instruction at their codes. -/
theorem encodeThenDecode : Obligations.EncodeThenDecode := by
  unfold Obligations.EncodeThenDecode
  intro i rest hwf
  obtain ⟨p, hp, hok⟩ := Instr.wf_iff.1 hwf
  cases picks_of_spec hp hok with
  | b major hpick =>
    rw [encode_eq_words hp nofun]
    exact decodeWords_words_bSpec hpick hwf rest
  | u major code hpick =>
    rw [encode_eq_words hp nofun]
    exact decodeWords_words_uSpec hpick hwf rest
  | ctl code hpick =>
    rw [encode_eq_words hp nofun]
    exact decodeWords_words_cSpec hpick hwf rest
  | hint o => exact decodeWords_hint hwf rest
  | x major fn hpick =>
    rw [encode_eq_words hp nofun, words_xSpec]
    exact decodeWords_xWords hpick hwf rest
  | fn code hpick =>
    obtain ⟨-, -, -, hsb, -⟩ := OpSpec.ok_iff.1 hok
    rw [encode_eq_words hp nofun, words_fnSpec]
    exact decodeWords_fnWords hpick (eq_of_beq hsb) hwf rest

/-- Settles O2: each layout reads every field of its words, and an instruction of the tables has the specification of those fields. -/
theorem decodeThenEncode : Obligations.DecodeThenEncode := by
  unfold Obligations.DecodeThenEncode
  intro ws rest i h
  cases ws with
  | nil => cases h
  | cons w ws =>
    cases hform : formOf (wMajor w).toNat (wS w) with
    | none =>
      simp only [decodeWords, hform, reduceCtorEq] at h
    | some form =>
      cases form with
      | b =>
        obtain ⟨hwf, major, o, hpick, hwords⟩ := decodeB_eq_ok_iff.1 (decodeWords_cons_b ws hform ▸ h)
        exact ⟨hwf, by rw [hwords, encode_eq_words (spec_of_pickB hpick) nofun]⟩
      | u =>
        obtain ⟨hwf, major, code, o, hpick, hwords⟩ := decodeU_eq_ok_iff.1 (decodeWords_cons_u ws hform ▸ h)
        exact ⟨hwf, by rw [hwords, encode_eq_words (spec_of_pickU hpick) nofun]⟩
      | ctl =>
        obtain ⟨hmajor, hs⟩ := formOf_eq_ctl hform
        obtain ⟨hwf, code, o, hpick, hwords⟩ := (decodeCtl_eq_ok_iff hmajor hs).1 (decodeWords_cons_ctl ws hform ▸ h)
        exact ⟨hwf, by rw [hwords, encode_eq_words (spec_of_pickCtl hpick) nofun]⟩
      | hint =>
        obtain ⟨hmajor, hs⟩ := formOf_eq_hint hform
        obtain ⟨hi, hwf, rfl⟩ := settle_eq_ok_iff.1 (decodeWords_cons_hint ws hform ▸ h)
        cases hi
        exact ⟨hwf, congrArg (· :: ws) (eq_hintWord_iff.2 ⟨rfl, hs, BitVec.eq_of_toNat_eq hmajor, rfl⟩).symm⟩
      | x =>
        cases ws with
        | nil => simp only [decodeWords, hform, reduceCtorEq] at h
        | cons e ws =>
          have hx := decodeWords_cons_x e ws hform ▸ h
          cases hu : isUnary (wMajor w).toNat (eFn e).toNat with
          | false =>
            obtain ⟨hwf, major, fn, x, hpick, hwords⟩ := (decodeX_eq_ok_iff_pickX hu).1 hx
            obtain ⟨-, _, _, _, _, _, _, _, hspec⟩ := isX_of_pickX hpick
            exact ⟨hwf, by rw [hwords, encode_eq_words hspec nofun, words_xSpec]⟩
          | true =>
            obtain ⟨hwf, code, x, hpick, -, hwords⟩ := (decodeX_eq_ok_iff_pickFn hu).1 hx
            obtain ⟨_, hspec⟩ := spec_of_pickFn hpick
            exact ⟨hwf, by rw [hwords, encode_eq_words hspec nofun, words_fnSpec]⟩
      | xfn code => exact absurd hform formOf_ne_xfn

/-- Settles O3: each of the five is a run of the decoder on closed words. -/
theorem writtenWords : Obligations.WrittenWords := by
  unfold Obligations.WrittenWords
  exact ⟨rfl, rfl, rfl, rfl, rfl⟩

end Sys2Proof
end

