-- ==== Sys2Proof/Proofs/Privilege.lean ====
section
/-! Lemmas and proof: instructions below their privilege, and register instructions whose access is refused (R90, R374, R414, R430, R431). -/

namespace Sys2Proof

open Sys2Proof.Machine

/-- An instruction raises a precise trap, with no other effect (R290). -/
def Raises (i : Instr) (s : State) (e : Issuer) (t : Trap) : Prop := Machine.exec i s = .next (s.takeTrap e.f (t.regs e.c.addr e.c.pos e.run))

/-! ### Instructions below their privilege (R90, R374, R414) -/

theorem exec_of_stewardOnly {i : Instr} (h : stewardOnly i = true) : ∃ plan, ∀ s, Machine.exec i s = perform i plan s := by
  unfold stewardOnly at h
  split at h
  case h_13 => cases h
  all_goals
    simp only [Machine.exec, execMonitorVersion, execImageVerify, execImageMeasure, execIsleWrite, execIsleSwitch, execHeartbeat, execFuseSvn, execMoncallUnknown, execWfi,
      execTlbinvAll, execTlbinvAsid, execTlbinvRange]
    exact ⟨_, fun _ => rfl⟩

/-- The debug instructions (R442 to R445). -/
def Debugs (i : Instr) : Prop := ∃ x, i = .dhalt x ∨ i = .dresume x ∨ i = .dstep x ∨ i = .dread x ∨ i = .dwrite x

theorem Debugs.exec {i : Instr} (h : Debugs i) : ∃ plan, ∀ s, Machine.exec i s = perform i plan s := by
  obtain ⟨x, rfl | rfl | rfl | rfl | rfl⟩ := h <;>
  · simp only [Machine.exec, execDhalt, execDresume, execDstep, execDread, execDwrite]
    exact ⟨_, fun _ => rfl⟩

theorem Debugs.spec {i : Instr} (h : Debugs i) {p : OpSpec} (hp : i.spec = some p) : p.form = .x ∧ p.major = 0x1E ∧ p.sReq = some false := by
  obtain ⟨x, rfl | rfl | rfl | rfl | rfl⟩ := h <;> cases hp <;> exact ⟨rfl, rfl, rfl⟩

/-- The instructions of a handler: `tret` in either form, `lread` and `lwrite` (R374, R414). -/
def Handles (i : Instr) : Prop := ∃ x, i = .tret x ∨ i = .tretSkip x ∨ i = .lread x ∨ i = .lwrite x

theorem Handles.exec {i : Instr} (h : Handles i) : ∃ plan, ∀ s, Machine.exec i s = perform i plan s := by
  obtain ⟨x, rfl | rfl | rfl | rfl⟩ := h <;>
  · simp only [Machine.exec, execTret, execTretSkip, execLread, execLwrite]
    exact ⟨_, fun _ => rfl⟩

theorem Handles.spec {i : Instr} (h : Handles i) {p : OpSpec} (hp : i.spec = some p) : isTret i = true ∨ p.form = .x ∧ p.major = 0x17 := by
  obtain ⟨x, rfl | rfl | rfl | rfl⟩ := h <;> cases hp
  · exact .inl rfl
  · exact .inl rfl
  · exact .inr ⟨rfl, rfl⟩
  · exact .inr ⟨rfl, rfl⟩

/-- The parts of an instruction for a flow differ from its specification in the part of SB alone. -/
theorem Machine.partsFor_eq (f : Flow) (i : Instr) (p : OpSpec) : partsFor f i p = { p with sbRole := (partsFor f i p).sbRole } := by
  unfold partsFor
  split
  · split <;> rfl
  · rfl

/-- Off a steward core PRIVILEGE precedes every other check (R90): it meets the debug instructions, those of stewards, and at user privilege those of handlers. -/
theorem Machine.Issuer.modeTrap_privilege {e : Issuer} (hf : isSteward e.f = false)
    (h : (e.p.form = .x ∧ e.p.major = 0x1E ∧ e.p.s = false) ∨ stewardOnly e.i = true ∨
      e.w.handler = false ∧ (isTret e.i = true ∨ e.p.form = .x ∧ e.p.major = 0x17)) :
    e.modeTrap = some (.privilege 0) := by
  unfold Issuer.modeTrap
  rw [hf]
  rcases h with ⟨hform, hmajor, hs⟩ | hi | ⟨hw, htret | ⟨hform, hmajor⟩⟩
  · simp [hform, hmajor, hs]
  · simp [hi]
  · simp [hw, htret]
  · simp [hw, hform, hmajor]

/-- An instruction that may not run where it stands takes that trap before any other check. -/
theorem Machine.State.perform_modeTrap {s : State} {i : Instr} {e : Issuer} (he : s.issuer i = some e) (hd : s.dstep = none) (hpark : e.second = false) {t : Trap}
    (hm : e.modeTrap = some t) (hc : t.code ≠ 0x15) (plan : State → Issuer → Except Hold Plan) :
    perform i plan s = .next (s.takeTrap e.f (t.regs e.c.addr e.c.pos e.run)) := by
  have hfirst : s.firstTrap e = some t := by
    unfold State.firstTrap
    rw [hm]
  unfold perform
  simp only [he, hpark, Bool.false_eq_true, if_false, hfirst, State.trapAt, hd, s.logMemory_other e t hc]

/-- A wave's privileged instruction below its privilege raises PRIVILEGE (R90, R414). -/
theorem raises_privilege {s : State} {i : Instr} {e : Issuer} (hwf : i.wf = true) (he : s.issuer i = some e) (hf : isSteward e.f = false) (hd : s.dstep = none)
    (hpark : e.w.park.any Park.second = false) (hi : stewardOnly i = true ∨ Debugs i ∨ e.w.handler = false ∧ Handles i) :
    Raises i s e (.privilege 0) := by
  obtain ⟨-, -, -, hei⟩ := s.of_issuer he
  obtain ⟨p, hp, hparts⟩ := State.parts_of_issuer he
  rw [partsFor_eq] at hparts
  obtain ⟨plan, hexec⟩ : ∃ plan, ∀ s, Machine.exec i s = perform i plan s := by
    rcases hi with h | h | ⟨-, h⟩
    · exact exec_of_stewardOnly h
    · exact h.exec
    · exact h.exec
  have hmode : e.modeTrap = some (.privilege 0) := by
    refine Issuer.modeTrap_privilege hf ?_
    rw [hei, hparts]
    rcases hi with h | h | ⟨hw, h⟩
    · exact .inr (.inl h)
    · obtain ⟨hform, hmajor, hs⟩ := h.spec hp
      obtain ⟨hreq, -⟩ := OpSpec.ok_iff.1 (OpSpec.ok_of_wf hwf hp)
      exact .inl ⟨hform, hmajor, hreq _ hs⟩
    · exact .inr (.inr ⟨hw, h.spec (p := p) hp⟩)
  exact (hexec s).trans (State.perform_modeTrap he hd hpark hmode (by decide) plan)

/-! ### Registers that may not be accessed (R430, R431) -/

section Access

variable {s : State} {e : Issuer} {n : Nat}

/-- On a compute core SB is zero and a register instruction reaches no number from 0x300 on (R430). -/
theorem Machine.State.namedReg_core_illegal (hf : isSteward e.f = false) (h : e.p.sb ≠ .var 0 ∨ 0x300 ≤ n) : s.namedReg e n = .error .illegal := by
  unfold State.namedReg
  split
  · by_cases hsb : e.p.sb ≠ .var 0
    · rw [if_pos hsb]
    · have hn : 0x300 ≤ n := h.resolve_left hsb
      rw [if_neg hsb, if_neg (by omega), if_neg (by omega), if_neg (by omega)]
  · next hst => rw [hst] at hf; cases hf

/-- The registers of a die are those of its steward cores alone (R430). -/
theorem Machine.State.namedReg_core_die (hf : isSteward e.f = false) (hsb : e.p.sb = .var 0) (hlo : 0x200 ≤ n) (hhi : n < 0x300) :
    s.namedReg e n = .error (.privilege n) := by
  unfold State.namedReg
  split
  · rw [if_neg (not_not.2 hsb), if_neg (by omega), if_neg (by omega), if_pos hhi]
  · next hst => rw [hst] at hf; cases hf

/-- A die has 64 compute cores (R430). -/
theorem Machine.State.namedReg_steward_illegal (hf : isSteward e.f = true) (hlo : 0x100 ≤ n) (hhi : n < 0x200) (hc : 63 < (lo32 (s.srcB e e.lead)).toNat) :
    s.namedReg e n = .error .illegal := by
  unfold State.namedReg
  split
  · next hst => rw [hst] at hf; cases hf
  · rw [if_neg (by omega), if_pos hhi]
    exact if_pos hc

theorem Machine.State.regAccess_unnamed {t : Trap} (h : s.namedReg e n = .error t) (write : Bool) : s.regAccess e n write = .error t := by
  unfold State.regAccess
  rw [h]

theorem Machine.State.regAccess_absent {r : RegId} (h : s.namedReg e n = .ok r) (hr : s.regSpec r = none) (write : Bool) : s.regAccess e n write = .error .illegal := by
  unfold State.regAccess
  simp only [h, hr]

/-- The table gives a read, or a write, a privilege above this one; a register that no privilege writes refuses no write (R431). -/
def Machine.RegSpec.Above (p : RegSpec) (write : Bool) (v : Nat) : Prop := if write then p.write < 4 ∧ v < p.write else v < p.read

theorem Machine.State.regAccess_above {r : RegId} {p : RegSpec} {write : Bool} (h : s.namedReg e n = .ok r) (hr : s.regSpec r = some p)
    (hp : p.Above write (e.w.privilege e.f)) : s.regAccess e n write = .error (.privilege n) := by
  unfold State.regAccess RegSpec.Above at *
  simp only [h, hr]
  refine if_pos ?_
  cases write
  · exact decide_eq_true hp
  · exact Bool.and_eq_true_iff.2 ⟨decide_eq_true hp.1, decide_eq_true hp.2⟩

end Access

/-- A register instruction raises the trap with which its access is refused. -/
def RaisesRefusal (i : XArgs → Instr) (write : Bool) : Prop :=
  ∀ x s e t, Ready s (i x) e → s.regAccess e (x.immBits 11 0) write = .error t → t.code ≠ 0x15 → Raises (i x) s e t

theorem csrr_raisesRefusal : RaisesRefusal .csrr false := by
  intro x s e t h ht hc
  show execCsrr x s = _
  unfold execCsrr
  refine h.perform_trap _ t ?_ hc
  simp only [regNumber, ht]

theorem regPlan_refused {x : XArgs} {s : State} {e : Issuer} {t : Trap} (h : s.regAccess e (x.immBits 11 0) true = .error t) (op : RegOp) :
    regPlan x op s e = .error (.trap t) := by
  unfold regPlan regNumber
  rw [h]

theorem csrw_raisesRefusal : RaisesRefusal .csrw true := fun _ _ _ t h ht hc => h.perform_trap _ t (regPlan_refused ht .write) hc

theorem csrs_raisesRefusal : RaisesRefusal .csrs true := fun _ _ _ t h ht hc => h.perform_trap _ t (regPlan_refused ht .set) hc

theorem csrc_raisesRefusal : RaisesRefusal .csrc true := fun _ _ _ t h ht hc => h.perform_trap _ t (regPlan_refused ht .clear) hc

/-- What a register instruction raises by its number, by SB and by the privilege that the table gives (R430, R431). -/
theorem RaisesRefusal.by_number {i : XArgs → Instr} {write : Bool} (hi : RaisesRefusal i write) {x : XArgs} {s : State} {e : Issuer} (h : Ready s (i x) e) {n : Nat}
    (hn : x.immBits 11 0 = n) :
    (isSteward e.f = false → (e.p.sb ≠ .var 0 ∨ 0x300 ≤ n) → Raises (i x) s e .illegal) ∧
    (isSteward e.f = false → e.p.sb = .var 0 → 0x200 ≤ n → n < 0x300 → Raises (i x) s e (.privilege n)) ∧
    (isSteward e.f = true → 0x100 ≤ n → n < 0x200 → 63 < (lo32 (s.srcB e e.lead)).toNat → Raises (i x) s e .illegal) ∧
    ∀ r, s.namedReg e n = .ok r → (s.regSpec r = none → Raises (i x) s e .illegal) ∧
      ∀ p, s.regSpec r = some p → p.Above write (e.w.privilege e.f) → Raises (i x) s e (.privilege n) := by
  subst hn
  have illegal (ht : s.regAccess e (x.immBits 11 0) write = .error .illegal) : Raises (i x) s e .illegal := hi x s e _ h ht (by decide)
  have privilege (ht : s.regAccess e (x.immBits 11 0) write = .error (.privilege (x.immBits 11 0))) : Raises (i x) s e (.privilege (x.immBits 11 0)) :=
    hi x s e _ h ht (show 0x03 ≠ 0x15 by decide)
  refine ⟨fun hf hsb => ?_, fun hf hsb hlo hhi => ?_, fun hf hlo hhi hc => ?_, fun r hr => ⟨fun hs => ?_, fun p hs hp => ?_⟩⟩
  · exact illegal (State.regAccess_unnamed (State.namedReg_core_illegal hf hsb) write)
  · exact privilege (State.regAccess_unnamed (State.namedReg_core_die hf hsb hlo hhi) write)
  · exact illegal (State.regAccess_unnamed (State.namedReg_steward_illegal hf hlo hhi hc) write)
  · exact illegal (State.regAccess_absent hr hs write)
  · exact privilege (State.regAccess_above hr hs hp)

/-- Settles O44: PRIVILEGE precedes every other check of an instruction, and the access of a register instruction is refused before its effect. -/
theorem privilegeTraps : Obligations.PrivilegeTraps := by
  unfold Obligations.PrivilegeTraps
  refine ⟨fun s i e c k hwf he hf hd hpark hi => raises_privilege hwf he (by rw [hf]; rfl) hd hpark hi, ?_, ?_, ?_, ?_⟩
  · exact fun x s e h => csrr_raisesRefusal.by_number h rfl
  · exact fun x s e h => csrw_raisesRefusal.by_number h rfl
  · exact fun x s e h => csrs_raisesRefusal.by_number h rfl
  · exact fun x s e h => csrc_raisesRefusal.by_number h rfl

end Sys2Proof
end

