-- ==== Sys2Proof/Proofs/ResetMemory.lean ====
section
/-! The memory of the state after reset. -/

namespace Sys2Proof
open Sys2Proof.Machine

/-- Settles O7: memory after reset is empty. -/
theorem resetMemory : Obligations.ResetMemory := State.wf_reset

end Sys2Proof
end

