-- ==== Sys2Proof/Proofs/KeptByIssue.lean ====
section
/-! Lemmas: memory stays in canonical form (R109) through what every instruction does: the state's operations, traps, operands, register files, watches and issue. -/

set_option Elab.async false

namespace Sys2Proof

open Sys2Proof.Machine

/-- The state in which a choice of a step leaves or runs. -/
def Machine.Choice.state : Choice → State
  | .run _ s | .done s => s

/-- The state in which a drain ends, for every way it can end. -/
def Machine.Drained.state : Drained → State
  | .done s _ | .fault s _ _ | .stall s => s

/-- The state in which the watches leave an instruction. -/
def Machine.Gate.state : Gate → State
  | .go _ s | .trap _ s | .halted s => s

theorem Machine.State.gate_ite {p : Prop} [Decidable p] {x y : Gate} (hx : MemOk x.state) (hy : MemOk y.state) : MemOk (if p then x else y).state := by
  split
  · exact hx
  · exact hy

theorem Machine.Tab.sorted_keep {α : Type} {t : Tab α} (p : Nat → α → Bool) (h : Tab.sorted t = true) : Tab.sorted (t.keep p) = true := by
  induction t with
  | nil => rfl
  | cons e t ih =>
    obtain ⟨hlt, ht⟩ := (Tab.sorted_cons e.1 e.2 t).1 h
    unfold Tab.keep
    rw [List.filter_cons]
    split
    · exact (Tab.sorted_cons e.1 e.2 _).2 ⟨fun x hx => hlt x (List.mem_of_mem_filter hx), ih ht⟩
    · exact ih ht

theorem Machine.Memory.wf_keep {m : Tab Byte} (p : Nat → Byte → Bool) (h : Memory.wf m = true) : Memory.wf (m.keep p) = true := by
  rw [Memory.wf_iff] at h ⊢
  exact ⟨Tab.sorted_keep p h.1, fun e he => h.2 e (List.mem_of_mem_filter he)⟩

/-- A stop keeps the form of memory. -/
def Machine.Hold.Keeps : Hold → Prop
  | .trap _ => True
  | .trapIn s _ | .held s | .park s _ => MemOk s

/-- What an instruction does keeps the form of memory. -/
structure Machine.Plan.Keeps (pl : Plan) : Prop where
  st : ∀ s, pl.st = some s → MemOk s
  commit : ∀ run s, MemOk s → MemOk (pl.commit run s)
  after : ∀ s, MemOk s → MemOk (pl.after s)

theorem Machine.Plan.keeps_iff (pl : Plan) :
    pl.Keeps ↔ (∀ s, pl.st = some s → MemOk s) ∧ (∀ run s, MemOk s → MemOk (pl.commit run s)) ∧ ∀ s, MemOk s → MemOk (pl.after s) :=
  ⟨fun ⟨hs, hc, ha⟩ => ⟨hs, hc, ha⟩, fun ⟨hs, hc, ha⟩ => ⟨hs, hc, ha⟩⟩

/-- An instruction's own checks and effect keep the form of memory. -/
def Planned : Except Hold Plan → Prop
  | .error x => x.Keeps
  | .ok pl => pl.Keeps

theorem planned_ok {pl : Plan} : Planned (.ok pl) ↔ pl.Keeps := Iff.rfl

theorem planned_error {x : Hold} : Planned (.error x) ↔ x.Keeps := Iff.rfl

namespace MemOk

variable {s t : State} {a addr array asid c code core d g index k kind l n next n₀ off pa pc seq slot status type v value what x : Nat}
variable {atomic b₀ mid nested scalar ue write : Bool} {nums vars words : List Nat} {acquire release unit : Option Nat} {r regs regs' : TrapRegs}
variable {lanes run : LaneMask} {bs rec : List Byte} {bad : BadWord} {cl : Clause} {q : Core} {gc : Core → Core} {ds : DStep} {dv : Die} {gd : Die → Die}
variable {exc : Exc} {f : Flow} {group : Group} {gg : Group → Group} {i : Image} {e : Issuer} {fires : List (Nat × Nat × List (Nat × Nat))} {o : MatOp}
variable {vals : Nat → List Word} {fn : Nat → Nat} {val : Nat → Word} {target : Option (Nat → Nat)} {oplace : Option (Option Nat)} {latch : Option Latch}
variable {tag : Option SyncTag} {p : Packet} {pk : Park} {pl : Plan} {pr : Probe} {site : Site} {plan : State → Issuer → Except Hold Plan}
variable {mark : State → State} {watches : Tab Nat} {trap : Trap} {w : Wave} {gw : Wave → Wave}

theorem foldl {α : Type} (h : MemOk s) (l : List α) {g : State → α → State} (hg : ∀ s a, MemOk s → MemOk (g s a)) : MemOk (l.foldl g s) :=
  List.foldlRecOn (motive := MemOk) l g h (fun s hs a _ => hg s a hs)

theorem foldl_fst {α β : Type} {x : State × β} (h : MemOk x.1) (l : List α) {g : State × β → α → State × β} (hg : ∀ x a, MemOk x.1 → MemOk (g x a).1) :
    MemOk (l.foldl g x).1 :=
  List.foldlRecOn (motive := fun x => MemOk x.1) l g h (fun x hx a _ => hg x a hx)

theorem elim {α : Type} (h : MemOk s) (o : Option α) {g : α → State} (hg : ∀ a, MemOk (g a)) : MemOk (o.elim s g) := by
  cases o with
  | none => exact h
  | some a => exact hg a

theorem ite {p : Prop} [Decidable p] (hs : MemOk s) (ht : MemOk t) : MemOk (if p then s else t) := by
  split
  · exact hs
  · exact ht

theorem ite_fst {α : Type} {p : Prop} [Decidable p] {x y : State × α} (hx : MemOk x.1) (hy : MemOk y.1) : MemOk (if p then x else y).1 := by
  split
  · exact hx
  · exact hy

theorem of_fst_eq {α : Type} {x : State × α} {a : α} (h : MemOk x.1) (hx : x = (t, a)) : MemOk t := by
  subst hx
  exact h

theorem withTranslations {l : List Translated} (h : MemOk s) : MemOk { s with translations := l } := h

theorem withCodes {cs : Tab CodeObject} {l : List Translated} (h : MemOk s) : MemOk { s with codes := cs, translations := l } := h

theorem withFresh {n : Nat} (h : MemOk s) : MemOk { s with fresh := n } := h

theorem withSwaps {n : Nat} (h : MemOk s) : MemOk { s with swaps := n } := h

theorem setBytes (h : MemOk s) : MemOk (s.setBytes pa bs) := Memory.wf_write _ _ _ h

theorem setCore (h : MemOk s) : MemOk (s.setCore c q) := h

theorem modCore (h : MemOk s) : MemOk (s.modCore c gc) := h

theorem setDie (h : MemOk s) : MemOk (s.setDie d dv) := h

theorem modDie (h : MemOk s) : MemOk (s.modDie d gd) := h

theorem setFlow (h : MemOk s) : MemOk (s.setFlow f w) := by
  unfold State.setFlow
  grind [!. modCore, !. modDie]

theorem modFlow (h : MemOk s) : MemOk (s.modFlow f gw) := by
  unfold State.modFlow
  grind [!. setFlow]

theorem setGroup (h : MemOk s) : MemOk (s.setGroup c g group) := h

theorem modGroup (h : MemOk s) : MemOk (s.modGroup c g gg) := h

theorem raiseEvent (h : MemOk s) : MemOk (s.raiseEvent d k) := h

theorem report (h : MemOk s) : MemOk (s.report d what value) := h

theorem logCore (h : MemOk s) : MemOk (s.logCore core array ue asid addr pc seq) := by
  unfold State.logCore
  grind [!. modCore, !. modDie]

theorem logDie (h : MemOk s) : MemOk (s.logDie d array ue asid addr pc seq) := by
  unfold State.logDie
  grind [!. modDie]

theorem tagWrite (h : MemOk s) : MemOk (s.tagWrite pa n atomic tag) := h

theorem countGranule (h : MemOk s) : MemOk (s.countGranule pa n write) := by
  unfold State.countGranule
  grind [MemOk, !. modDie]

theorem poke (h : MemOk s) : MemOk (s.poke pa bs atomic tag) := by
  unfold State.poke
  grind [MemOk, !. setBytes, !. countGranule, !. tagWrite]

theorem traceBytes (h : MemOk s) : MemOk (s.traceBytes core bs) := by
  unfold State.traceBytes
  grind [!. poke, !. modCore]

theorem traceRec (h : MemOk s) : MemOk (s.traceRec core slot rec oplace a) := by
  induction a generalizing s with
  | zero => exact h
  | succ n ih =>
    unfold State.traceRec
    grind [!. traceBytes, !. modFlow]

theorem traceEvent (h : MemOk s) : MemOk (s.traceEvent f kind code lanes) := by
  unfold State.traceEvent
  grind [!. traceRec]

theorem traceTarget (h : MemOk s) : MemOk (s.traceTarget f next lanes) := by
  unfold State.traceTarget
  grind [!. traceRec]

theorem traceClause (h : MemOk s) : MemOk (s.traceClause f cl mid) := by
  unfold State.traceClause
  grind [!. traceRec, !. modFlow]

theorem traceLast (h : MemOk s) : MemOk (s.traceLast core type) := by
  unfold State.traceLast
  grind [!. traceBytes]

theorem traceEnd (h : MemOk s) : MemOk (s.traceEnd core type) := by
  unfold State.traceEnd
  grind [!. modCore, !. traceLast]

theorem dropTag (h : MemOk s) : MemOk (s.dropTag f) := by
  unfold State.dropTag
  grind [!. setCore]

theorem fenceRun (h : MemOk s) : MemOk (s.fenceRun f run release acquire) := by
  unfold State.fenceRun
  grind [!. modFlow]

theorem fabricFence (h : MemOk s) : MemOk (s.fabricFence f) := by
  unfold State.fabricFence
  grind [!. fenceRun]

theorem freeze (h : MemOk s) : MemOk (s.freeze d regs regs') := h

theorem passToSteward (h : MemOk s) : MemOk (s.passToSteward f r nested) := by
  unfold State.passToSteward
  grind [!. modFlow, !. raiseEvent, !. modDie]

theorem dropReservations (h : MemOk s) : MemOk (s.dropReservations f) := h

theorem enterHandler (h : MemOk s) : MemOk (s.enterHandler f r) := by
  unfold State.enterHandler
  grind [!. dropReservations, !. fabricFence, !. modFlow, !. traceEvent]

theorem stewardTrap (h : MemOk s) : MemOk (s.stewardTrap d n₀ w r) := by
  unfold State.stewardTrap
  grind [!. enterHandler, !. freeze, !. modFlow]

theorem countChecksum (h : MemOk s) : MemOk (s.countChecksum f r) := by
  unfold State.countChecksum
  grind [!. modDie]

theorem takeTrap (h : MemOk s) : MemOk (s.takeTrap f r) := by
  unfold State.takeTrap
  grind [!. dropTag, !. countChecksum, !. stewardTrap, !. passToSteward, !. enterHandler]

theorem returnFromTrap (h : MemOk s) : MemOk (s.returnFromTrap f) := by
  unfold State.returnFromTrap
  grind [!. fabricFence, !. modFlow, !. traceEvent]

theorem noteWrite (h : MemOk s) : MemOk (s.noteWrite f x) := by
  unfold State.noteWrite
  grind [!. modGroup]

theorem writeVar (h : MemOk s) : MemOk (s.writeVar f scalar x run val) := by
  unfold State.writeVar
  grind [!. setFlow, !. noteWrite]

theorem writeVars (h : MemOk s) : MemOk (s.writeVars f scalar x n run vals) := by
  unfold State.writeVars
  grind [!. foldl, !. writeVar]

theorem putWords (h : MemOk s) : MemOk (s.putWords e run vals) := by
  unfold State.putWords
  grind [!. writeVars]

theorem settle (h : MemOk s) : MemOk (s.settle f) := by
  unfold State.settle
  grind [!. modCore]

theorem strike (h : MemOk s) (hm : ∀ s, MemOk s → MemOk (mark s)) : MemOk (s.strike c k index asid site mark) := by
  unfold State.strike
  grind [!. modCore, !. logCore]

theorem spoil (h : MemOk s) : MemOk (s.spoil c bad) := h

theorem fileWritten (h : MemOk s) : MemOk (s.fileWritten c k vars scalar run site) := by
  unfold State.fileWritten
  grind [!. foldl, !. modCore, !. strike, !. spoil]

theorem recordWritten (h : MemOk s) : MemOk (s.recordWritten c k site) := by
  unfold State.recordWritten
  grind [!. strike, !. spoil]

theorem waveWritten (h : MemOk s) : MemOk (s.waveWritten c k) := by
  unfold State.waveWritten
  grind [!. recordWritten, !. fileWritten]

theorem arraysWritten (h : MemOk s) : MemOk (s.arraysWritten e run b₀) := by
  unfold State.arraysWritten
  grind [!. recordWritten, !. fileWritten]

theorem spadWritten (h : MemOk s) : MemOk (s.spadWritten c g words site) := by
  unfold State.spadWritten
  grind [!. foldl, !. strike, !. modGroup]

theorem unitWritten (h : MemOk s) : MemOk (s.unitWritten c g off site) := by
  unfold State.unitWritten
  grind [!. strike, !. spoil]

theorem cacheWritten (h : MemOk s) : MemOk (s.cacheWritten c k index site) := by
  unfold State.cacheWritten
  grind [!. logCore, !. modCore]

theorem refreshGroup (h : MemOk s) : MemOk (s.refreshGroup core g) := h

theorem haltLanes (h : MemOk s) : MemOk (s.haltLanes f lanes) := by
  unfold State.haltLanes
  grind [!. modFlow, !. dropTag, !. refreshGroup]

theorem hit (h : MemOk s) : MemOk (s.hit core k n) := h

theorem useExempt (h : MemOk s) : MemOk (s.useExempt e run) := by
  unfold State.useExempt
  grind [!. modFlow]

theorem watchHalt (h : MemOk s) : MemOk (s.watchHalt e k lanes) := by
  unfold State.watchHalt
  grind [!. modFlow, !. raiseEvent, !. traceEvent, !. haltLanes]

theorem stopGang (h : MemOk s) : MemOk (s.stopGang f) := by
  unfold State.stopGang
  grind [MemOk]

theorem watchCounts (h : MemOk s) : MemOk (s.watchCounts e core fires run) := by
  unfold State.watchCounts
  grind [!. foldl, !. hit, !. traceEvent]

theorem gateWith (h : MemOk s) : MemOk (s.gateWith watches e pr).state := by
  have hwhole {c k n : Nat} {lanes : LaneMask} : MemOk ((s.hit c k n).watchHalt e k lanes) := h.hit.watchHalt
  unfold State.gateWith
  split
  · exact h
  · refine State.gate_ite h (State.gate_ite h.useExempt ?_)
    dsimp only
    split
    · exact hwhole.stopGang
    · split
      · exact hwhole
      · split
        · exact h.hit.modFlow
        · split
          · refine State.gate_ite hwhole (State.gate_ite (modFlow (watchHalt ?_)) (watchCounts (useExempt (modFlow (watchHalt ?_))))) <;>
              exact foldl h _ fun _ _ hs => hs.hit
          · exact h.useExempt.watchCounts

theorem gate {pr : Probe} (h : MemOk s) : MemOk (s.gate e pr).state := gateWith h

theorem finishStep (h : MemOk s) : MemOk (s.finishStep ds status) := by
  unfold State.finishStep
  grind [MemOk, !. modFlow, !. haltLanes, !. writeVar]

theorem afterStep (h : MemOk s) : MemOk s.afterStep := by
  unfold State.afterStep
  grind [MemOk, !. finishStep]

theorem logMemory (h : MemOk s) : MemOk (s.logMemory e trap) := by
  unfold State.logMemory
  grind [!. logCore]

theorem trapAt (h : MemOk s) : MemOk (s.trapAt e trap) := by
  unfold State.trapAt
  grind [!. finishStep, !. takeTrap, !. logMemory]

theorem parkAt (h : MemOk s) : MemOk (s.parkAt e pk) := by
  unfold State.parkAt
  grind [!. finishStep, !. modFlow]

theorem checker (h : MemOk s) : MemOk (s.checker e unit).1 := by
  unfold State.checker
  grind [!. modCore, !. logCore, !. modDie]

theorem traceTargets (h : MemOk s) : MemOk (s.traceTargets e fn nums) := by
  unfold State.traceTargets
  grind [!. foldl, !. traceTarget]

theorem endClause (h : MemOk s) : MemOk (s.endClause e cl target) := by
  unfold State.endClause
  grind [!. traceTargets, !. modFlow]

theorem retire (h : MemOk s) : MemOk (s.retire e latch target) := by
  unfold State.retire
  grind [!. modFlow, !. endClause]

theorem finish (h : MemOk s) (hc : ∀ run s, MemOk s → MemOk (pl.commit run s)) (ha : ∀ s, MemOk s → MemOk (pl.after s)) : MemOk (s.finish e pl run) := by
  have hs {b : Bool} := ((hc run s h).settle (f := e.f)).arraysWritten (e := e) (run := run) (b₀ := b)
  unfold State.finish
  dsimp only
  split
  · exact hs
  · exact ha _ hs.retire.afterStep

theorem perform {i : Instr} (hp : ∀ s e, MemOk s → Planned (plan s e)) (h : MemOk s) (ht : Machine.perform i plan s = .next t) : MemOk t := by
  unfold Machine.perform at ht
  split at ht
  · exact absurd ht nofun
  · next e _ =>
    split at ht
    · exact Host.Outcome.next.inj ht ▸ h.trapAt
    · split at ht
      · exact Host.Outcome.next.inj ht ▸ h
      · split at ht
        · exact Host.Outcome.next.inj ht ▸ h.parkAt
        · have hk := hp s e h
          split at ht
          · exact Host.Outcome.next.inj ht ▸ h.trapAt
          · next heq => exact Host.Outcome.next.inj ht ▸ trapAt (by rwa [heq] at hk)
          · next heq => exact Host.Outcome.next.inj ht ▸ (by rwa [heq] at hk)
          · next heq => exact Host.Outcome.next.inj ht ▸ parkAt (by rwa [heq] at hk)
          · next pl heq =>
            rw [heq] at hk
            have hs : MemOk (pl.st.getD s) := by
              cases hst : pl.st with
              | none => exact h
              | some u => exact hk.st u hst
            have hc := hs.checker (e := e) (unit := pl.unit)
            have hg := hc.gate (e := e) (pr := pl.probe)
            dsimp only at ht
            split at ht
            · exact Host.Outcome.next.inj ht ▸ finish hs hk.commit hk.after
            · split at ht
              · exact Host.Outcome.next.inj ht ▸ trapAt hc
              · split at ht <;> rename_i heq <;> rw [heq] at hg <;> rw [← Host.Outcome.next.inj ht]
                · exact trapAt hg
                · exact hg
                · exact finish hg hk.commit hk.after

theorem raiseExc (h : MemOk s) : MemOk (s.raiseExc f exc) := by
  unfold State.raiseExc
  grind [!. modFlow]

theorem resultPlan {e : Issuer} {unit : Option Nat} {fp : Bool} {v : LaneMask → Nat → List Word} {x : LaneMask → Nat → Exc}
    : (resultPlan e unit fp v x).Keeps := by
  unfold Machine.resultPlan
  grind [planned_ok, Plan.keeps_iff, !. raiseExc, !. putWords]

theorem intPlan {unit : Nat} {g : Ops → DWord} {e : Issuer} : Planned (intPlan unit g s e) := by
  unfold Machine.intPlan
  grind [planned_ok, Plan.keeps_iff, !. resultPlan]

theorem fpPlan {unit : Option Nat} {g : Ops → Word × Exc} {e : Issuer} : Planned (fpPlan unit g s e) := by
  unfold Machine.fpPlan
  grind [planned_ok, Plan.keeps_iff, !. resultPlan]

end MemOk

end Sys2Proof
end

