-- ==== Sys2Proof/Proofs/KeptByWaves.lean ====
section
/-! Lemmas: memory stays in canonical form through accesses of memory, the life of waves, groups and launches, ports, registers and requests. -/

set_option Elab.async false

namespace Sys2Proof

open Sys2Proof.Machine

namespace MemOk

variable {a asid bytes c cause core ctx d die entry g half index k lane launch len n n₀ off pa phase piece pte queue root sets size start state : Nat}
variable {s : State} {status sub v va : Nat} {all armed b₀ fence on steward write : Bool} {dests pieces : List Nat} {access : AccessKind} {id : BarId}
variable {b : Barrier} {gb : Barrier → Barrier} {gx : Context → Context} {dw : DWord} {ge : Engine → Engine} {fr : FaultRecord} {f : Flow} {gr : GuardRecord}
variable {i : Image} {fj : Landing → Bool} {gl : Launch → Launch} {lstate : LaunchState} {pairs : List (Nat × Nat)} {bs : List Byte} {opt : Option Nat}
variable {tag : Option SyncTag} {gp : Port → Port} {gq : Queue → Queue} {reg : RegId} {op : RegOp} {site : Site} {stalled : Stalled} {old : Tab Image}
variable {tr : Translation} {ptr : Translation → Bool} {use : Use}

theorem touchLeaf (h : MemOk s) : MemOk (s.touchLeaf entry pte write).1 := by
  unfold State.touchLeaf
  grind [!. poke]

theorem pinLeaf (h : MemOk s) : MemOk (s.pinLeaf pa size pte) := by
  unfold State.pinLeaf
  grind [!. modDie]

theorem walkFill (h : MemOk s) : MemOk (s.walkFill die asid va use steward).1 := by
  unfold State.walkFill
  grind [!. foldl, !. countGranule, !. pinLeaf, !. touchLeaf, !. modDie]

theorem translateDie (h : MemOk s) : MemOk (s.translateDie die asid va use steward).1 := by
  unfold State.translateDie
  grind [!. walkFill]

theorem l1Written (h : MemOk s) : MemOk (s.l1Written f c tr) := by
  unfold State.l1Written
  grind [!. cacheWritten, !. modCore]

theorem translate (h : MemOk s) : MemOk (s.translate f asid va use).1 := by
  unfold State.translate
  grind [!. translateDie, !. l1Written, !. modCore]

theorem engineFault (h : MemOk s) : MemOk (s.engineFault die stalled opt asid va sub) := by
  unfold State.engineFault
  grind [!. raiseEvent, !. modDie]

theorem checkGlobalAs (h : MemOk s) : MemOk (s.checkGlobalAs f asid va bytes use access lane).1 := by
  unfold State.checkGlobalAs
  grind [!. translate]

theorem checkGlobal (h : MemOk s) : MemOk (s.checkGlobal f va bytes use access lane).1 := by
  unfold State.checkGlobal
  grind [!. checkGlobalAs]

theorem checkLanes (h : MemOk s) : MemOk (s.checkLanes f bytes use access pairs).1 := by
  induction pairs generalizing s with
  | nil => exact h
  | cons a ls ih =>
    unfold State.checkLanes
    grind [!. checkGlobal]

theorem modLaunch (h : MemOk s) : MemOk (s.modLaunch n gl) := h

theorem modQueue (h : MemOk s) : MemOk (s.modQueue n gq) := h

theorem modContext (h : MemOk s) : MemOk (s.modContext n gx) := h

theorem queueTo (h : MemOk s) : MemOk (s.queueTo n state cause) := by
  unfold State.queueTo
  grind [!. poke, !. modQueue]

theorem queueError (h : MemOk s) : MemOk (s.queueError n cause) := by
  unfold State.queueError
  grind [!. queueTo]

theorem snapBits (h : MemOk s) : MemOk (s.snapBits die asid piece on) := by
  unfold State.snapBits
  grind [!. foldl, !. poke]

theorem dropTlb (h : MemOk s) : MemOk (s.dropTlb die ptr) := h

theorem dropAsid (h : MemOk s) : MemOk (s.dropAsid asid) := by
  unfold State.dropAsid
  grind [!. dropTlb]

theorem splitLeaf (h : MemOk s) : MemOk (s.splitLeaf die asid va) := by
  unfold State.splitLeaf
  grind [MemOk, !. foldl, !. poke]

theorem snapshot (h : MemOk s) : MemOk (s.snapshot die asid launch piece) := by
  unfold State.snapshot
  grind [MemOk, !. modLaunch]

theorem dropPiece (h : MemOk s) : MemOk (s.dropPiece asid piece) := by
  unfold State.dropPiece
  grind [!. dropTlb]

theorem serveSnap (h : MemOk s) : MemOk (s.serveSnap die ctx asid va) := by
  unfold State.serveSnap
  grind [!. foldl, !. dropPiece, !. snapBits, !. snapshot]

theorem firstWrite (h : MemOk s) : MemOk (s.firstWrite pa n) := by
  unfold State.firstWrite
  grind [!. foldl, !. serveSnap]

theorem protect (h : MemOk s) : MemOk (s.protect die asid pieces) := by
  unfold State.protect
  grind [!. foldl, !. dropAsid, !. snapBits, !. splitLeaf]

theorem freeSnapshots (h : MemOk s) : MemOk (s.freeSnapshots n) := by
  unfold State.freeSnapshots
  grind [!. foldl, !. modLaunch, !. dropPiece, !. snapBits]

theorem flushCode (h : MemOk s) : MemOk (s.flushCode die asid start len) := h

theorem agentWrite (h : MemOk s) : MemOk (s.agentWrite die ctx asid va).1 := by
  unfold State.agentWrite
  grind [!. translateDie, !. serveSnap]

theorem agentPoke (h : MemOk s) : MemOk (s.agentPoke die asid pa bs tag) := by
  unfold State.agentPoke
  grind [!. logDie, !. poke]

theorem stewardStore (h : MemOk s) : MemOk (s.stewardStore die ctx va dw).1 := by
  unfold State.stewardStore
  grind [!. agentWrite, !. agentPoke]

theorem signal (h : MemOk s) : MemOk (s.signal queue va dw) := by
  unfold State.signal
  grind [!. stewardStore, !. queueError]

theorem dropRequests (h : MemOk s) : MemOk (s.dropRequests f opt) := h

theorem forgetFlow (h : MemOk s) : MemOk (s.forgetFlow f) := h

theorem trimKeys (h : MemOk s) : MemOk s.trimKeys := h

theorem freeCore (h : MemOk s) : MemOk (s.freeCore core) := by
  unfold State.freeCore
  grind [!. setCore, !. trimKeys, !. modContext]

theorem cancelCalls (h : MemOk s) : MemOk (s.cancelCalls die fj) := h

theorem dropGroup (h : MemOk s) : MemOk (s.dropGroup core g) := by
  unfold State.dropGroup
  grind [!. foldl, !. cancelCalls, !. forgetFlow, !. freeCore, !. modCore]

theorem dropImageRequests (h : MemOk s) : MemOk (s.dropImageRequests core launch i) := by
  unfold State.dropImageRequests
  grind [!. foldl, !. dropRequests]

theorem dropAwayRequests (h : MemOk s) : MemOk (s.dropAwayRequests launch) := by
  refine foldl (foldl h _ fun s e hs => elim hs _ fun i => hs.dropImageRequests) _ fun s e hs => ?_
  split
  · exact elim hs _ fun c => hs.dropImageRequests
  · exact hs

theorem trimAreas (h : MemOk s) : MemOk (s.trimAreas old) := h

theorem dropLaunch (h : MemOk s) : MemOk (s.dropLaunch launch) := by
  unfold State.dropLaunch
  grind [MemOk, !. foldl, !. dropGroup, !. dropAwayRequests, !. trimAreas]

theorem askSwap (h : MemOk s) : MemOk (s.askSwap c) := by
  unfold State.askSwap
  grind [MemOk, !. modCore]

theorem setRoot (h : MemOk s) : MemOk (s.setRoot asid root d) := by
  unfold State.setRoot
  grind [!. poke]

theorem setAsid (h : MemOk s) : MemOk (s.setAsid ctx asid) := by
  unfold State.setAsid
  grind [!. foldl, !. modContext, !. setRoot]

theorem giveAsid (h : MemOk s) : MemOk (s.giveAsid ctx) := by
  unfold State.giveAsid
  split
  · exact h
  · split
    · exact ite h.setAsid h
    · exact h

theorem takeAsid (h : MemOk s) : MemOk (s.takeAsid ctx) := by
  unfold State.takeAsid
  grind [!. modContext, !. dropAsid]

theorem settleContext (h : MemOk s) : MemOk (s.settleContext ctx) := by
  unfold State.settleContext
  grind [!. trimKeys, !. modContext]

theorem endLaunch (h : MemOk s) : MemOk (s.endLaunch n lstate) := by
  unfold State.endLaunch
  grind [MemOk, !. freeSnapshots, !. modLaunch]

theorem failContext (h : MemOk s) : MemOk (s.failContext ctx cause) := by
  unfold State.failContext
  grind [!. foldl, !. modContext, !. queueError, !. endLaunch, !. askSwap]

theorem keepFault (h : MemOk s) : MemOk (s.keepFault launch fr) := h

theorem countReplay (h : MemOk s) : MemOk (s.countReplay ctx) := by
  unfold State.countReplay
  grind [!. modDie]

theorem startReplay (h : MemOk s) : MemOk (s.startReplay n) := by
  unfold State.startReplay
  grind [!. modLaunch, !. dropLaunch]

theorem failLaunch (h : MemOk s) : MemOk (s.failLaunch n cause) := by
  unfold State.failLaunch
  grind [!. failContext, !. endLaunch]

theorem escalate (h : MemOk s) : MemOk (s.escalate n) := by
  unfold State.escalate
  grind [!. failLaunch, !. countReplay, !. startReplay]

theorem faultGroup (h : MemOk s) : MemOk (s.faultGroup core g fr b₀) := by
  unfold State.faultGroup
  grind [!. keepFault, !. modGroup, !. escalate, !. failLaunch]

theorem testTrigger (h : MemOk s) : MemOk (s.testTrigger n) := by
  unfold State.testTrigger
  grind [!. modLaunch, !. signal]

theorem trigger (h : MemOk s) : MemOk (s.trigger n index) := by
  unfold State.trigger
  grind [!. testTrigger, !. modLaunch]

theorem testComplete (h : MemOk s) : MemOk (s.testComplete n) := by
  unfold State.testComplete
  grind [!. freeSnapshots, !. modLaunch, !. signal]

theorem noWave (h : MemOk s) : MemOk (s.noWave core g gr) := by
  unfold State.noWave
  grind [!. faultGroup]

theorem retireGroup (h : MemOk s) : MemOk (s.retireGroup core g) := by
  unfold State.retireGroup
  grind [!. dropGroup, !. noWave, !. trigger, !. testComplete, !. modLaunch, !. settleContext]

theorem tryEnd (h : MemOk s) : MemOk (s.tryEnd f) := by
  unfold State.tryEnd
  grind [!. forgetFlow, !. modCore, !. retireGroup]

theorem growBy (h : MemOk s) : MemOk (s.growBy n n₀).1 := by
  unfold State.growBy
  grind [!. modLaunch]

theorem modPort (h : MemOk s) : MemOk (s.modPort d k gp) := h

theorem modLink (h : MemOk s) : MemOk (s.modLink d k gp) := by
  unfold State.modLink
  grind [!. modPort]

theorem loseReads (h : MemOk s) : MemOk (s.loseReads d dests) := h

theorem portLost (h : MemOk s) : MemOk (s.portLost d k) := by
  unfold State.portLost
  grind [!. loseReads, !. modDie, !. modPort]

theorem dropEnd (h : MemOk s) : MemOk (s.dropEnd d k state) := by
  unfold State.dropEnd
  grind [!. modPort, !. portLost]

theorem dropPort (h : MemOk s) : MemOk (s.dropPort d k state) := by
  unfold State.dropPort
  grind [!. dropEnd]

theorem trainLink (h : MemOk s) : MemOk (s.trainLink d k) := by
  unfold State.trainLink
  grind [!. modPort]

theorem unfencePort (h : MemOk s) : MemOk (s.unfencePort d k) := by
  unfold State.unfencePort
  grind [!. modPort, !. modLink]

theorem loseImages (h : MemOk s) : MemOk (s.loseImages d) := by
  unfold State.loseImages
  grind [MemOk, !. foldl, !. dropGroup, !. trimAreas]

theorem stopDie (h : MemOk s) : MemOk (s.stopDie d) := by
  unfold State.stopDie
  grind [MemOk, !. foldl, !. modDie, !. dropPort, !. failContext, !. report, !. loseImages]

theorem fenceOff (h : MemOk s) : MemOk (s.fenceOff d off) := by
  unfold State.fenceOff
  grind [!. modDie, !. loseReads, !. dropPort]

theorem fenceDie (h : MemOk s) : MemOk (s.fenceDie d) := by
  unfold State.fenceDie
  grind [!. stopDie, !. fenceOff]

theorem linkLost (h : MemOk s) : MemOk (s.linkLost d k state) := by
  unfold State.linkLost
  grind [!. dropPort, !. fenceDie]

theorem fencePort (h : MemOk s) : MemOk (s.fencePort d k fence) := by
  unfold State.fencePort
  grind [!. modPort, !. linkLost, !. unfencePort]

theorem putFenceOff (h : MemOk s) : MemOk (s.putFenceOff d v) := by
  unfold State.putFenceOff
  grind [!. foldl, !. modDie, !. dropPort, !. stopDie]

theorem modEngine (h : MemOk s) : MemOk (s.modEngine d n₀ ge) := h

theorem putWave (h : MemOk s) : MemOk (s.putWave f n v) := by
  unfold State.putWave
  grind [!. modFlow, !. modContext, !. modDie]

theorem flushTrail (h : MemOk s) : MemOk (s.flushTrail c) := by
  unfold State.flushTrail
  grind [!. foldl, !. poke, !. modCore]

theorem putTrail (h : MemOk s) : MemOk (s.putTrail c v) := by
  unfold State.putTrail
  grind [!. flushTrail, !. modCore]

theorem putTrace (h : MemOk s) : MemOk (s.putTrace c v) := by
  unfold State.putTrace
  grind [!. traceEnd, !. modCore]

theorem putCore (h : MemOk s) : MemOk (s.putCore c n v sets) := 
  ite h <| ite h <| ite h <| ite h <| ite h <| ite h <| ite h <| ite h.putTrail <| ite h.putTrace <| ite h <| ite h h

theorem putDie (h : MemOk s) : MemOk (s.putDie d n v) := by
  unfold State.putDie
  grind [!. modDie, !. putFenceOff]

theorem putDev (h : MemOk s) : MemOk (s.putDev d off v half sets) := by
  unfold State.putDev
  refine ite (modDie h) <| ite (ite h (raiseEvent h)) <| ite ?_ <| ite (modDie h) <| ite ?_ <| ite (modDie h) <| ite (modEngine h) <| ite (modDie h) h
  · exact ite (raiseEvent (modDie h)) (modDie h)
  · split
    · exact ite (modPort h).fencePort.trainLink (modPort h).fencePort
    · exact modPort h
    · exact h

theorem writeReg (h : MemOk s) : MemOk (s.writeReg reg op a half) := by
  unfold State.writeReg
  grind [!. putWave, !. putCore, !. putDie, !. putDev]

theorem devStore (h : MemOk s) : MemOk (s.devStore pa bs) := by
  unfold State.devStore
  grind [!. writeReg]

theorem barBytes (h : MemOk s) : MemOk (s.barBytes id b armed) := by
  unfold State.barBytes
  grind [!. modGroup, !. poke]

theorem setBar (h : MemOk s) : MemOk (s.setBar id b site) := by
  unfold State.setBar
  grind [MemOk, !. unitWritten, !. modGroup, !. barBytes]

theorem moveHeads (h : MemOk s) : MemOk (s.moveHeads id n₀ site) := by
  unfold State.moveHeads
  grind [MemOk, !. setBar]

theorem applyCaptures (h : MemOk s) : MemOk (s.applyCaptures c g off) := by
  unfold State.applyCaptures
  grind [!. setGroup, !. modCore]

theorem raiseRecord (h : MemOk s) : MemOk (s.raiseRecord c g gr) := by
  unfold State.raiseRecord
  grind [!. modFlow, !. noWave]

theorem raiseRecords (h : MemOk s) : MemOk (s.raiseRecords c g) := by
  unfold State.raiseRecords
  split
  · exact h
  · exact elim (elim (setGroup h) _ fun r => (setGroup h).raiseRecord) _ fun r => raiseRecord (elim (setGroup h) _ fun r => (setGroup h).raiseRecord)

theorem raiseGroups (h : MemOk s) : MemOk (s.raiseGroups id) := by
  unfold State.raiseGroups
  grind [MemOk, !. foldl, !. raiseRecords, !. failLaunch, !. keepFault]

theorem wakeWaiters (h : MemOk s) : MemOk (s.wakeWaiters id phase all status) := h

theorem testBar (h : MemOk s) : MemOk (s.testBar id site) := by
  unfold State.testBar
  grind [!. setBar, !. moveHeads, !. applyCaptures, !. wakeWaiters, !. raiseGroups]

theorem updateBar (h : MemOk s) : MemOk (s.updateBar id site gb) := by
  unfold State.updateBar
  grind [!. testBar, !. setBar]

end MemOk

end Sys2Proof
end

