-- ==== Sys2Proof/Proofs/KeptByAccesses.lean ====
section
/-! Lemmas: memory stays in canonical form through windows, barriers, checked accesses, chains, copies and control flow. -/

set_option Elab.async false

namespace Sys2Proof

open Sys2Proof.Machine

namespace MemOk

variable {a addr asid bytes c chain clause core ctx d die engine entryPa g hi k l line lo n next num n₀ off pa pc phase pos scope sector : Nat}
variable {s t : State} {seq slot st stage status sub v va wave win x xc xe : Nat} {ahead dest landing poisoned sgn write : Bool}
variable {addrs lines map nums vars vas : List Nat} {acquire opt release : Option Nat} {bs output : List Byte} {access : AccessKind} {id : BarId} {b : Barrier}
variable {binding : Binding} {ch : Chain} {gch : Chain → Chain} {chosen : Chosen} {en : Entry} {f : Flow} {given : Given} {e : Issuer} {job : Landing}
variable {run : LaneMask} {srcs : List (Nat × Chain × Nat)} {dsts : List (Nat × List Nat)} {ls : List (Nat × Nat)} {ts : List SpadTouch} {tags : List SyncTag}
variable {ws : List Word} {o : MatOp} {keep : Nat → Bool} {fn : Nat → Nat} {target : Option (Nat → Nat)} {obar : Option Barrier} {failure : Option Imprecise}
variable {p : Packet} {who : Place} {req : Request} {call : RoutineCall} {result : RoutineResult} {site : Site} {reads : Tab (Nat × Nat)} {ps : Tab Nat}
variable {trap : Trap} {r : TrapRegs} {use : Use} {w : Wave} {wp : WinPlace} {hd : Word} {int : ℤ}

theorem firstBar (h : MemOk s) : MemOk (s.firstBar id) := by
  unfold State.firstBar
  grind [!. firstWrite]

theorem issueStage (h : MemOk s) : MemOk (s.issueStage c g win stage ahead pc wave) := by
  unfold State.issueStage
  split
  · exact h
  · split
    · grind [!. setGroup, !. firstBar, !. setBar]
    · exact h

theorem touch (h : MemOk s) : MemOk (s.touch c g win st off pc wave).1 := by
  unfold State.touch
  grind [!. foldl, !. setGroup, !. issueStage, !. modGroup]

theorem wakeLines (h : MemOk s) : MemOk (s.wakeLines c g lo hi) := h

theorem tryUnbind (h : MemOk s) : MemOk (s.tryUnbind c g win) := by
  unfold State.tryUnbind
  grind [!. setGroup, !. wakeLines, !. modCore]

theorem failStage (h : MemOk s) : MemOk (s.failStage c g win stage addr) := by
  unfold State.failStage
  grind [!. setGroup, !. tryUnbind, !. wakeLines]

theorem countLanding (h : MemOk s) : MemOk (s.countLanding c g win stage binding site) := by
  unfold State.countLanding
  split
  · exact h
  · split
    · split
      · exact h.modGroup
      · split
        · exact h.firstBar.updateBar
        · exact h
    · exact h.modGroup

theorem presentLines (h : MemOk s) : MemOk (s.presentLines c g win wp lines) := by
  unfold State.presentLines
  grind [!. foldl, !. modGroup, !. wakeLines]

theorem landSector (h : MemOk s) : MemOk (s.landSector c g win stage sector bs poisoned) := by
  unfold State.landSector
  split
  · exact h
  · split
    · split
      · exact h
      · split
        · exact h
        · refine ite h ?_
          dsimp only
          split
          · split
            · split
              · exact h.setGroup.spadWritten.countLanding.presentLines.tryUnbind
              · exact ite h h.setGroup.modGroup
            · exact h.setGroup.spadWritten.countLanding
          · exact tryUnbind (ite h.setGroup.spadWritten.countLanding.presentLines h.setGroup.spadWritten.countLanding)
    · exact h

theorem engineRead (h : MemOk s) : MemOk (s.engineRead die asid va n).1 := by
  unfold State.engineRead
  grind [!. translateDie, !. countGranule]

theorem sourceFault (h : MemOk s) : MemOk (s.sourceFault c g win stage addr va sub) := by
  unfold State.sourceFault
  grind [!. failStage, !. engineFault]

theorem landSource (h : MemOk s) : MemOk (s.landSource c g win stage sector) := by
  unfold State.landSource
  grind [!. engineRead, !. landSector, !. sourceFault]

theorem sourceFails (h : MemOk s) : MemOk (s.sourceFails c g win stage) := by
  unfold State.sourceFails
  grind [!. engineRead, !. failStage, !. sourceFault]

theorem barOperand (h : MemOk s) : MemOk (s.barOperand e scope write).1 := by
  unfold State.barOperand
  grind [!. checkGlobal]

theorem barPlan {x : XArgs} {write : Bool} {k : State → Issuer → BarId → Option Barrier → Except Hold Plan} (h : MemOk s)
    (hk : ∀ s id b, MemOk s → Planned (k s e id b)) : Planned (barPlan x write k s e) := by
  unfold Machine.barPlan
  grind [MemOk, planned_ok, planned_error, Hold.Keeps, Plan.keeps_iff, !. barOperand]

theorem statusPlan {v : Nat} {effect : State → State} (h : MemOk s) (hg : ∀ s, MemOk s → MemOk (effect s)) : (statusPlan s e v effect).Keeps := by
  unfold Machine.statusPlan
  grind [MemOk, planned_ok, planned_error, Hold.Keeps, Plan.keeps_iff, !. putWords]

theorem parkPlan {p : Park} {effect : State → State} (h : MemOk s) (hg : ∀ s, MemOk s → MemOk (effect s)) : Planned (parkPlan s e p effect) := by
  unfold Machine.parkPlan
  grind [MemOk, planned_ok, planned_error, Hold.Keeps, Plan.keeps_iff, !. parkAt]

theorem arm (h : MemOk s) : MemOk (s.arm id ctx b site) := by
  unfold State.arm
  grind [MemOk, !. setBar, !. barBytes]

theorem execBarInit {x} (h : MemOk s) (ht : execBarInit x s = .next t) : MemOk t := by
  refine perform (fun s e h => ?_) h ht
  grind [planned_ok, Plan.keeps_iff, planned_error, Hold.Keeps, !. barOperand, !. statusPlan, !. arm, !. modCore]

theorem noteBar (h : MemOk s) : MemOk (s.noteBar e obar phase) := by
  unfold State.noteBar
  grind [!. modFlow]

theorem execBarArrive {x} (h : MemOk s) (ht : execBarArrive x s = .next t) : MemOk t := by
  refine perform (fun s e h => barPlan h fun s id b h => ?_) h ht
  grind [planned_ok, Plan.keeps_iff, planned_error, Hold.Keeps, !. statusPlan, !. updateBar]

theorem execBarExpect {x} (h : MemOk s) (ht : execBarExpect x s = .next t) : MemOk t := by
  refine perform (fun s e h => barPlan h fun s id b h => ?_) h ht
  grind [planned_ok, Plan.keeps_iff, planned_error, Hold.Keeps, !. updateBar]

theorem execBarWait {x} (h : MemOk s) (ht : execBarWait x s = .next t) : MemOk t := by
  refine perform (fun s e h => ?_) h ht
  grind [planned_ok, Plan.keeps_iff, planned_error, Hold.Keeps, !. barOperand, !. statusPlan, !. noteBar, !. barPlan, !. parkPlan]

theorem execBarTest {x} (h : MemOk s) (ht : execBarTest x s = .next t) : MemOk t := by
  refine perform (fun s e h => barPlan h fun s id b h => ?_) h ht
  grind [planned_ok, Plan.keeps_iff, !. statusPlan, !. noteBar]

theorem disarm (h : MemOk s) : MemOk (s.disarm id b) := by
  unfold State.disarm
  grind [MemOk, !. barBytes, !. modGroup, !. wakeWaiters]

theorem execBarDrop {x} (h : MemOk s) (ht : execBarDrop x s = .next t) : MemOk t := by
  refine perform (fun s e h => barPlan h fun s id b h => ?_) h ht
  grind [planned_ok, Plan.keeps_iff, !. statusPlan, !. disarm]

theorem execWbind {x} (h : MemOk s) (ht : execWbind x s = .next t) : MemOk t := by
  refine perform (fun s e h => ?_) h ht
  grind [planned_ok, Plan.keeps_iff, planned_error, Hold.Keeps, !. checkGlobal, !. statusPlan, !. modGroup]

theorem execWunbind {x} (h : MemOk s) (ht : execWunbind x s = .next t) : MemOk t := by
  refine perform (fun s e h => ?_) h ht
  grind [planned_ok, Plan.keeps_iff, planned_error, Hold.Keeps, !. tryUnbind, !. modGroup, !. parkPlan]

theorem execWstat {x} (h : MemOk s) (ht : execWstat x s = .next t) : MemOk t := by
  refine perform (fun s e h => ?_) h ht
  grind [planned_ok, Plan.keeps_iff, planned_error, Hold.Keeps, !. resultPlan]

theorem evict (h : MemOk s) : MemOk (s.evict c k n) := by
  unfold State.evict
  grind [!. poke, !. modCore, !. modFlow]

theorem makeRoom (h : MemOk s) : MemOk (s.makeRoom c) := by
  unfold State.makeRoom
  grind [!. evict]

theorem fillOctet (h : MemOk s) : MemOk (s.fillOctet c k n) := by
  unfold State.fillOctet
  grind [!. fileWritten, !. modCore, !. modFlow]

theorem callBack (h : MemOk s) : MemOk (s.callBack f vars nums) := by
  unfold State.callBack
  grind [!. foldl, !. fillOctet, !. makeRoom]

theorem give (h : MemOk s) : MemOk (s.give e run given) := by
  unfold State.give
  grind [!. putWords, !. modFlow]

theorem later (h : MemOk s) : MemOk (s.later e run given) := by
  unfold State.later
  grind [!. give, !. modFlow]

theorem foldl_given {α : Type} {a : Given} (h : MemOk a.s) (l : List α) {g : Given → α → Given} (hg : ∀ a x, MemOk a.s → MemOk (g a x).s) :
    MemOk (l.foldl g a).s :=
  List.foldlRecOn (motive := fun a => MemOk a.s) l g h (fun a ha x _ => hg a x ha)

theorem laterPlan {probe : Probe} {access : LaneMask → State → Given} (h : MemOk s) (ha : ∀ run s, MemOk s → MemOk (access run s).s) :
    (laterPlan s e probe access).Keeps := by
  unfold Machine.laterPlan
  grind [MemOk, planned_ok, planned_error, Hold.Keeps, Plan.keeps_iff, !. later]

theorem sendRequest (h : MemOk s) : MemOk (s.sendRequest e run reads) := by
  unfold State.sendRequest
  grind [!. modFlow]

theorem requestPlan {probe : Probe} {ps : Tab Nat} {addr : Nat → Nat} {access : LaneMask → State → Given} (h : MemOk s)
    (ha : ∀ run s, MemOk s → MemOk (access run s).s) : (requestPlan s e probe ps addr access).Keeps := by
  unfold Machine.requestPlan
  split
  · exact ⟨fun u hu => by cases hu; exact h, fun run u hu => (ha run u hu).give, fun _ hu => hu⟩
  · exact ⟨fun u hu => by cases hu; exact h, fun run u hu => hu, fun _ hu => hu⟩
  · split
    · exact ⟨fun u hu => by cases hu; exact h, fun run u hu => hu.sendRequest, fun _ hu => hu⟩
    · exact laterPlan h ha

theorem respond (h : MemOk s) : MemOk (s.respond f k) := by
  unfold State.respond
  split
  · exact h
  · split
    · exact h
    · refine tryEnd (settle ?_)
      split <;> grind [!. fileWritten, !. callBack, !. writeVars, !. modFlow]

theorem resolve (h : MemOk s) : MemOk (s.resolve e bytes use access fn).1 := by
  unfold State.resolve
  grind [!. checkLanes]

theorem noteTags (h : MemOk s) : MemOk (s.noteTags e l tags acquire) := by
  unfold State.noteTags
  grind [!. modFlow]

theorem noteRead (h : MemOk s) : MemOk (s.noteRead e l pa n acquire) := by
  unfold State.noteRead
  grind [!. noteTags]

theorem noteHost (h : MemOk s) : MemOk (s.noteHost f pa) := by
  unfold State.noteHost
  grind [!. modLaunch]

theorem logOwned (h : MemOk s) : MemOk (s.logOwned e pa) := h

theorem noteState (h : MemOk s) : MemOk (s.noteState f pa bs) := by
  unfold State.noteState
  grind [MemOk]

theorem storeAt (h : MemOk s) : MemOk (s.storeAt e l pa bs release) := by
  unfold State.storeAt
  grind [!. devStore, !. logOwned, !. noteState, !. noteHost, !. poke]

theorem dataLine (h : MemOk s) : MemOk (s.dataLine e pa) := by
  unfold State.dataLine
  grind [!. cacheWritten]

theorem loadAt (h : MemOk s) : MemOk (s.loadAt e l pa n acquire).1 := by
  unfold State.loadAt
  grind [!. dataLine, !. countGranule, !. noteRead]

theorem loadLanes (h : MemOk s) : MemOk (s.loadLanes e run ps n sgn acquire).1 := by
  refine foldl_fst h _ fun x a hx => ?_
  split
  · exact loadAt hx
  · exact hx

theorem touchAll (h : MemOk s) : MemOk (s.touchAll c g pc wave ts).1 := by
  refine foldl_fst h _ fun x a hx => ?_
  split
  · exact touch hx
  · exact hx

theorem spadTouches {n : Nat} {b : Bool} {l : List Trap} {xs : List (Nat × Nat)} {x : Hold} (h : MemOk s) (hx : s.spadTouches e n b l xs = .error x) : x.Keeps := by
  unfold State.spadTouches at hx
  grind [Hold.Keeps, !. touchAll]

theorem spadResolve {n : Nat} {b : Bool} {l : List Trap} {off : Nat → Nat} {x : Hold} (h : MemOk s) (hx : s.spadResolve e n b l off = .error x) : x.Keeps :=
  spadTouches h hx

theorem touchRun (h : MemOk s) : MemOk (s.touchRun e run c g ts) := by
  unfold State.touchRun
  grind [!. touchAll]

theorem request (h : MemOk s) : MemOk (s.request d req) := h

theorem ecallPlan {x : XArgs} {e : Issuer} : Planned (ecallPlan x s e) := by
  unfold Machine.ecallPlan
  grind [planned_ok, Plan.keeps_iff, !. resultPlan, !. modFlow, !. request, !. fabricFence]

theorem chainPut (h : MemOk s) : MemOk (s.chainPut who pa bs) := by
  unfold State.chainPut
  grind [!. poke]

theorem tailCheck (h : MemOk s) : MemOk (s.tailCheck e asid pa).1 := by
  unfold State.tailCheck
  grind [!. checkGlobalAs]

theorem append (h : MemOk s) : MemOk (s.append e pa xe entryPa opt).1 := by
  unfold State.append
  grind [MemOk, !. chainPut]

theorem enqCheck (h : MemOk s) : MemOk (s.enqCheck e asid xc xe).1 := by
  unfold State.enqCheck
  grind [!. checkGlobalAs, !. tailCheck]

theorem execEnq {x} (h : MemOk s) (ht : execEnq x s = .next t) : MemOk t := by
  refine perform (fun s e h => ?_) h ht
  grind [planned_ok, Plan.keeps_iff, planned_error, Hold.Keeps, !. elim, !. foldl_given, !. enqCheck, !. storeAt, !. modLaunch, !. append, !. requestPlan]

theorem seqAddress (h : MemOk s) : MemOk (s.seqAddress e xc).1 := by
  unfold State.seqAddress
  grind [!. translate]

theorem execEseq {x} (h : MemOk s) (ht : execEseq x s = .next t) : MemOk t := by
  refine perform (fun s e h => ?_) h ht
  grind [planned_ok, Plan.keeps_iff, planned_error, Hold.Keeps, !. seqAddress, !. noteRead, !. laterPlan]

theorem fetchLine (h : MemOk s) : MemOk (s.fetchLine f line clause).1 := by
  unfold State.fetchLine
  grind [MemOk, !. translate, !. countGranule, !. cacheWritten, !. modCore]

theorem fetchWord (h : MemOk s) : MemOk (s.fetchWord f va clause).1 := by
  unfold State.fetchWord
  grind [!. fetchLine]

theorem fetchRun (h : MemOk s) : MemOk (s.fetchRun f clause va a).1 := by
  induction a generalizing s va with
  | zero => exact h
  | succ n ih =>
    unfold State.fetchRun
    grind [!. fetchWord]

theorem fetchClause (h : MemOk s) : MemOk (s.fetchClause f addr).1 := by
  unfold State.fetchClause
  grind [!. fetchWord, !. fetchRun]

theorem trapAtStart (h : MemOk s) : MemOk (s.trapAtStart f chosen trap) := by
  unfold State.trapAtStart
  grind [!. takeTrap, !. modFlow]

theorem issued (h : MemOk s) : MemOk (s.issued f) := by
  unfold State.issued
  grind [!. modFlow, !. modCore]

theorem tagIssue (h : MemOk s) : MemOk (s.tagIssue f) := by
  unfold State.tagIssue
  grind [MemOk, !. setCore]

theorem beginClause (h : MemOk s) : MemOk (s.beginClause f chosen hd ws pos) := by
  unfold State.beginClause
  grind [!. modFlow, !. traceClause]

theorem skipInstruction (h : MemOk s) : MemOk (s.skipInstruction f) := by
  unfold State.skipInstruction
  grind [!. fetchClause, !. modFlow]

theorem startClause (h : MemOk s) : MemOk (s.startClause f chosen) := by
  unfold State.startClause
  grind [!. fetchClause, !. trapAtStart, !. beginClause]

theorem stopAtBoundary (h : MemOk s) : MemOk (s.stopAtBoundary f) := by
  unfold State.stopAtBoundary
  grind [!. traceEvent, !. haltLanes, !. modFlow]

theorem execGangHalt {core slot} (h : MemOk s) (ht : execGangHalt core slot s = .next t) : MemOk t := by
  unfold Machine.execGangHalt at ht
  grind [!. stopAtBoundary]

theorem takeDue (h : MemOk s) : MemOk (s.takeDue f) := by
  unfold State.takeDue
  grind [!. takeTrap, !. modFlow]

theorem takeImprecise (h : MemOk s) : MemOk (s.takeImprecise f) := by
  unfold State.takeImprecise
  grind [!. takeDue]

theorem execImpreciseFault {core slot} (h : MemOk s) (ht : execImpreciseFault core slot s = .next t) : MemOk t := by
  unfold Machine.execImpreciseFault at ht
  grind [!. takeImprecise]

theorem modChain (h : MemOk s) : MemOk (s.modChain pa gch) := h

theorem engineReads (h : MemOk s) : MemOk (s.engineReads die asid va a).1 := by
  induction a generalizing s va with
  | zero => exact h
  | succ n ih =>
    unfold State.engineReads
    grind [!. engineRead]

theorem engineDest (h : MemOk s) : MemOk (s.engineDest die asid va n).1 := by
  unfold State.engineDest
  grind [!. translateDie]

theorem landGlobal (h : MemOk s) : MemOk (s.landGlobal ch asid pa bs poisoned) := by
  unfold State.landGlobal
  grind [MemOk, !. logDie, !. poke]

theorem endStart (h : MemOk s) : MemOk (s.endStart chain ch bs status) := h

theorem entryFault (h : MemOk s) : MemOk (s.entryFault chain va sub dest) := by
  unfold State.entryFault
  grind [!. engineFault, !. endStart, !. modChain]

theorem entryBar (h : MemOk s) : MemOk (s.entryBar ch).1 := by
  unfold State.entryBar
  grind [!. engineDest]

theorem entryCount (h : MemOk s) : MemOk (s.entryCount ch int landing).1 := by
  unfold State.entryCount
  grind [!. entryBar, !. updateBar]

theorem countEntry (h : MemOk s) : MemOk (s.countEntry chain) := by
  unfold State.countEntry
  grind [!. entryCount, !. modChain]

theorem addEntry (h : MemOk s) : MemOk (s.addEntry chain n) := by
  unfold State.addEntry
  grind [!. entryCount, !. modChain]

theorem barFault (h : MemOk s) : MemOk (s.barFault ch).1 := by
  unfold State.barFault
  grind [!. entryBar]

theorem landEntry (h : MemOk s) : MemOk (s.landEntry chain sector va bs poisoned) := by
  unfold State.landEntry
  grind [!. engineDest, !. entryFault, !. barFault, !. countEntry, !. modChain, !. landGlobal]

theorem startEntry (h : MemOk s) : MemOk (s.startEntry chain) := by
  unfold State.startEntry
  split
  · exact h
  · refine ite h ?_
    split
    · grind [!. engineReads, !. entryFault]
    · grind [MemOk, !. engineReads, !. entryFault, !. endStart, !. barFault, !. addEntry]

theorem execEntryStart {chain} (h : MemOk s) (ht : execEntryStart chain s = .next t) : MemOk t := by
  unfold Machine.execEntryStart at ht
  grind [!. startEntry]

theorem copySector (h : MemOk s) : MemOk (s.copySector chain sector) := by
  unfold State.copySector
  grind [!. engineRead, !. entryFault, !. landEntry]

theorem execSectorLanding {target} (h : MemOk s) (ht : execSectorLanding target s = .next t) : MemOk t := by
  unfold Machine.execSectorLanding at ht
  grind [!. landSource, !. copySector]

theorem waitSeq (h : MemOk s) : MemOk (s.waitSeq ch en).1 := by
  unfold State.waitSeq
  grind [!. translateDie]

theorem chainStep (h : MemOk s) : MemOk (s.chainStep who chain seq status next) := by
  unfold State.chainStep
  grind [!. chainPut, !. firstWrite]

theorem withdrawEntry (h : MemOk s) : MemOk (s.withdrawEntry chain ch).1 := by
  unfold State.withdrawEntry
  grind [!. entryCount, !. modChain]

theorem closeEntry (h : MemOk s) : MemOk (s.closeEntry chain ch next) := by
  unfold State.closeEntry
  grind [!. modChain, !. chainStep]

theorem finishEntry (h : MemOk s) : MemOk (s.finishEntry chain ch) := by
  unfold State.finishEntry
  grind [!. withdrawEntry, !. entryFault, !. engineRead, !. closeEntry, !. engineDest, !. chainPut]

theorem completeEntry (h : MemOk s) : MemOk (s.completeEntry chain) := by
  unfold State.completeEntry
  grind [!. finishEntry, !. waitSeq, !. entryFault]

theorem execEntryComplete {chain} (h : MemOk s) (ht : execEntryComplete chain s = .next t) : MemOk t := by
  unfold Machine.execEntryComplete at ht
  grind [!. completeEntry]

theorem failJob (h : MemOk s) : MemOk (s.failJob job status addr) := by
  unfold State.failJob
  grind [!. failStage, !. modChain]

theorem routineFault (h : MemOk s) : MemOk (s.routineFault die engine job addr) := by
  unfold State.routineFault
  grind [!. failJob, !. modEngine]

theorem readSectors (h : MemOk s) : MemOk (s.readSectors die asid addrs).1 := by
  refine foldl_fst h _ fun x a hx => ?_
  grind [!. engineRead]

theorem jobFault (h : MemOk s) : MemOk (s.jobFault job n₀ va sub) := by
  unfold State.jobFault
  grind [!. sourceFault, !. entryFault]

theorem routineCall (h : MemOk s) : MemOk (s.routineCall die engine job) := by
  unfold State.routineCall
  grind [MemOk, !. routineFault, !. readSectors, !. modEngine, !. jobFault]

theorem execRoutineCall {die engine job} (h : MemOk s) (ht : execRoutineCall die engine job s = .next t) : MemOk t := by
  unfold Machine.execRoutineCall at ht
  grind [!. routineCall]

theorem destFault (h : MemOk s) : MemOk (s.destFault chain vas).1 := by
  unfold State.destFault
  split
  · exact h
  · refine foldl_fst ?_ _ fun x a hx => ?_
    · grind [!. barFault]
    · grind [!. engineDest]

theorem landCall (h : MemOk s) : MemOk (s.landCall call num output map) := by
  unfold State.landCall
  grind [!. foldl, !. landSector, !. modChain, !. addEntry, !. landEntry]

theorem routineReturn (h : MemOk s) : MemOk (s.routineReturn die engine result) := by
  unfold State.routineReturn
  dsimp only
  split
  · exact h
  · refine ite h ?_
    split
    · exact h.modEngine
    · split
      · exact h.routineFault
      · split
        · exact h.modEngine.landCall
        · split
          · next heq => exact ((destFault h).of_fst_eq heq).entryFault
          · next heq => exact ((destFault h).of_fst_eq heq).modEngine.landCall

theorem execRoutineReturn {die engine r} (h : MemOk s) (ht : execRoutineReturn die engine r s = .next t) : MemOk t := by
  unfold Machine.execRoutineReturn at ht
  grind [!. routineReturn]

theorem routineTimeout (h : MemOk s) : MemOk (s.routineTimeout die engine) := by
  unfold State.routineTimeout
  grind [!. modEngine, !. routineFault]

theorem execRoutineTimeout {die engine} (h : MemOk s) (ht : execRoutineTimeout die engine s = .next t) : MemOk t := by
  unfold Machine.execRoutineTimeout at ht
  grind [!. routineTimeout]

theorem engineWords (h : MemOk s) : MemOk (s.engineWords die asid va a).1 := by
  induction a generalizing s va with
  | zero => exact h
  | succ n ih =>
    unfold State.engineWords
    grind [!. engineRead]

theorem peersOf (h : MemOk s) : MemOk (s.peersOf ch en).1 := by
  unfold State.peersOf
  grind [!. engineWords]

theorem endMatched (h : MemOk s) : MemOk (s.endMatched chain status) := h

theorem landCollective (h : MemOk s) : MemOk (s.landCollective chain va bs poisoned keep) := by
  unfold State.landCollective
  grind [!. foldl, !. engineDest, !. modChain, !. landGlobal]

theorem sourcesOf (h : MemOk s) : MemOk (s.sourcesOf srcs).1 := by
  refine foldl_fst h _ fun x a hx => ?_
  grind [!. engineReads]

theorem destsFault (h : MemOk s) : MemOk (s.destsFault dsts).1 := by
  refine foldl_fst h _ fun x a hx => ?_
  grind [!. destFault]

theorem collective (h : MemOk s) : MemOk (s.collective chain) := by
  have hall {s : State} (h : MemOk s) (l : List Nat) (st : Nat) : MemOk (l.foldl (fun s k => s.endMatched k st) s) := h.foldl l fun _ _ hs => hs.endMatched
  unfold State.collective
  split
  · exact h
  · next c _ =>
    refine ite h ?_
    have hp := peersOf h (ch := c) (en := entryOf c.entry)
    split
    · next heq =>
      have hp := hp.of_fst_eq heq
      exact ite hp.entryFault (hall hp _ _)
    · next heq => exact (hp.of_fst_eq heq).endMatched
    · next heq =>
      have hp := hp.of_fst_eq heq
      refine ite (hall hp _ _) <| ite (ite (hall hp _ _) hp) <| ite (hall hp _ _) <| ite hp ?_
      dsimp only
      split
      · next heq =>
        have hs := (sourcesOf hp).of_fst_eq heq
        exact ite hs.entryFault (hall hs _ _)
      · next heq =>
        have hs := (sourcesOf hp).of_fst_eq heq
        split
        · next heq => exact ((destsFault hs).of_fst_eq heq).entryFault
        · next s₃ heq =>
          have ht : MemOk s₃ := (destsFault hs).of_fst_eq heq
          exact foldl (s := { s₃ with fresh := s₃.fresh + 1 }) ht _ fun _ _ hs => hs.endMatched.landCollective.modChain

theorem execCollectiveMatch {chain} (h : MemOk s) (ht : execCollectiveMatch chain s = .next t) : MemOk t := by
  unfold Machine.execCollectiveMatch at ht
  grind [!. collective]

theorem jumpPlan {next : Nat → Nat} : (jumpPlan next).Keeps := by
  unfold Machine.jumpPlan
  grind [planned_ok, Plan.keeps_iff]

theorem execBra {x} (h : MemOk s) (ht : execBra x s = .next t) : MemOk t := by
  refine perform (fun s e h => ?_) h ht
  grind [planned_ok, Plan.keeps_iff, !. jumpPlan]

theorem execBz {x} (h : MemOk s) (ht : execBz x s = .next t) : MemOk t := by
  refine perform (fun s e h => ?_) h ht
  grind [planned_ok, Plan.keeps_iff, !. jumpPlan]

theorem execBnz {x} (h : MemOk s) (ht : execBnz x s = .next t) : MemOk t := by
  refine perform (fun s e h => ?_) h ht
  grind [planned_ok, Plan.keeps_iff, !. jumpPlan]

theorem execBrx {x} (h : MemOk s) (ht : execBrx x s = .next t) : MemOk t := by
  refine perform (fun s e h => ?_) h ht
  grind [planned_ok, Plan.keeps_iff, planned_error, Hold.Keeps, !. jumpPlan]

theorem checkSlots (h : MemOk s) : MemOk (s.checkSlots e use ls).1 := by
  unfold State.checkSlots
  grind [!. checkLanes]

theorem callPlan {target : Nat → Nat} {check : Bool} {e : Issuer} (h : MemOk s) : Planned (callPlan target check s e) := by
  unfold Machine.callPlan
  grind [planned_ok, Plan.keeps_iff, planned_error, Hold.Keeps, !. foldl, !. checkSlots, !. storeAt, !. modFlow]

theorem execCall {x} (h : MemOk s) (ht : execCall x s = .next t) : MemOk t := by
  refine perform (fun s e h => ?_) h ht
  grind [!. callPlan]

theorem execCalli {x} (h : MemOk s) (ht : execCalli x s = .next t) : MemOk t := by
  refine perform (fun s e h => ?_) h ht
  grind [!. callPlan]

theorem failWith (h : MemOk s) : MemOk (s.failWith f failure) := by
  unfold State.failWith
  grind [!. modFlow]

theorem execRet {o} (h : MemOk s) (ht : execRet o s = .next t) : MemOk t := by
  refine perform (fun s e h => ?_) h ht
  grind [planned_ok, planned_error, Plan.keeps_iff, Hold.Keeps, !. foldl, !. checkSlots, !. failWith, !. loadAt, !. modFlow]

theorem execExit {o} (h : MemOk s) (ht : execExit o s = .next t) : MemOk t := by
  refine perform (fun s e h => ?_) h ht
  grind [MemOk, planned_ok, Plan.keeps_iff, planned_error, Hold.Keeps, !. traceEvent, !. modFlow, !. tryEnd]

theorem triggerOf (h : MemOk s) : MemOk (s.triggerOf f) := by
  unfold State.triggerOf
  grind [!. trigger, !. setGroup]

theorem execTrigger {o} (h : MemOk s) (ht : execTrigger o s = .next t) : MemOk t := by
  refine perform (fun s e h => ?_) h ht
  grind [planned_ok, Plan.keeps_iff, !. triggerOf]

theorem growLanes (h : MemOk s) : MemOk (s.growLanes e run fn).1 := by
  refine foldl_fst h _ fun x a hx => ?_
  exact growBy hx

theorem execGrow {x} (h : MemOk s) (ht : execGrow x s = .next t) : MemOk t := by
  refine perform (fun s e h => ?_) h ht
  grind [planned_ok, Plan.keeps_iff, !. growLanes, !. putWords]

theorem execYield {o} (h : MemOk s) (ht : execYield o s = .next t) : MemOk t := by
  refine perform (fun s e h => ?_) h ht
  grind [planned_ok, Plan.keeps_iff, !. modFlow]

theorem execFwait {x} (h : MemOk s) (ht : execFwait x s = .next t) : MemOk t := by
  refine perform (fun s e h => ?_) h ht
  grind [planned_ok, Plan.keeps_iff, planned_error, Hold.Keeps, !. modFlow]

theorem execNop {o} (h : MemOk s) (ht : execNop o s = .next t) : MemOk t := by
  refine perform (fun s e h => ?_) h ht
  grind [planned_ok, Plan.keeps_iff]

theorem execHint {o} (h : MemOk s) (ht : execHint o s = .next t) : MemOk t := by
  refine perform (fun s e h => ?_) h ht
  grind [planned_ok, Plan.keeps_iff]

theorem scaledPlan {f : Fmt} {w : Nat} {x : XArgs} {e : Issuer} : Planned (scaledPlan f w x s e) := by
  unfold Machine.scaledPlan
  grind [planned_ok, Plan.keeps_iff, planned_error, Hold.Keeps, !. resultPlan]

theorem execDots4E4m3 {x} (h : MemOk s) (ht : execDots4E4m3 x s = .next t) : MemOk t := by
  refine perform (fun s e h => ?_) h ht
  grind [!. scaledPlan]

theorem execDots4E5m2 {x} (h : MemOk s) (ht : execDots4E5m2 x s = .next t) : MemOk t := by
  refine perform (fun s e h => ?_) h ht
  grind [!. scaledPlan]

theorem execDots8E2m1 {x} (h : MemOk s) (ht : execDots8E2m1 x s = .next t) : MemOk t := by
  refine perform (fun s e h => ?_) h ht
  grind [!. scaledPlan]

end MemOk

end Sys2Proof
end

