-- ==== Sys2Proof/Proofs/KeptByMatrix.lean ====
section
/-! Lemmas: memory stays in canonical form through the matrix engine, the memory instructions, scheduling and save areas. -/

set_option Elab.async false

namespace Sys2Proof

open Sys2Proof.Machine

namespace MemOk

variable {s t : State} {a acc addr c code core g in_ index k kind l n n₀ out pa quarter sch scheduler slot stage sub v va x : Nat} {av : Acc} {global : Bool}
variable {r₀ : Except Hold Plan} {f : Flow} {group : Group} {i : Image} {e : Issuer} {lines : List Nat} {parts : List Piece} {mk : MatKind} {o : MatOp}
variable {gmat : Matrix → Matrix} {release : Option Nat} {park : Option Park} {stag : Option SyncTag} {pl : Plan} {op : RegOp} {replay : Replay}
variable {resv : Reservation} {source : Tab (Bool × Nat)} {ok : TileOk} {trap : Trap} {w : Wave} {gw : Wave → Wave}

theorem modMatrix (h : MemOk s) : MemOk (s.modMatrix c gmat) := h

theorem modEngineWave (h : MemOk s) : MemOk (s.modEngineWave c k gw) := h

theorem setEngineGroup (h : MemOk s) : MemOk (s.setEngineGroup c g group) := h

theorem forEngine {α : Type} {g : State → State × α} (h : MemOk s) (hg : ∀ s, MemOk s → MemOk (g s).1) : MemOk (s.forEngine c g).1 := by
  unfold State.forEngine
  dsimp only
  split
  · exact hg s h
  · exact hg _ h

theorem opLeaves (h : MemOk s) : MemOk (s.opLeaves c o park) := h

theorem opFails (h : MemOk s) : MemOk (s.opFails c o code sub addr) := h

theorem opTraps (h : MemOk s) : MemOk (s.opTraps c o trap) := h

theorem discardOp (h : MemOk s) : MemOk (s.discardOp c o) := h

theorem opTryEnd (h : MemOk s) : MemOk (s.opTryEnd c k) := by
  unfold State.opTryEnd
  grind [!. tryEnd]

theorem settleEngine (h : MemOk s) : MemOk (s.settleEngine c) := by
  unfold State.settleEngine
  grind [!. foldl, !. discardOp, !. opTryEnd, !. modMatrix]

theorem ofLead (h : Planned r₀) : Planned (ofLead e r₀) := by
  unfold Machine.ofLead
  grind [MemOk, planned_ok, planned_error, Hold.Keeps, Plan.keeps_iff]

theorem matrixPlan {k : State → Issuer → Nat → Except Hold Plan} (h : MemOk s) (hk : ∀ c, Planned (k s e c)) : Planned (matrixPlan k s e) := by
  unfold Machine.matrixPlan
  grind [MemOk, planned_ok, planned_error, Hold.Keeps, Plan.keeps_iff, !. ofLead]

theorem tileLines_error {g w a : Bool} {l : List Trap} {lines : List Nat} {x : Hold} (h : MemOk s) (hx : s.tileLines e g w a l lines = .error x) : x.Keeps := by
  unfold State.tileLines at hx
  grind [Hold.Keeps, !. spadTouches, !. checkLanes]

theorem tileLines_ok {g w a : Bool} {l : List Trap} {lines : List Nat} {ok : TileOk} (h : MemOk s) (hx : s.tileLines e g w a l lines = .ok ok) : MemOk ok.s := by
  unfold State.tileLines at hx
  grind [!. checkLanes]

theorem touchTile (h : MemOk s) : MemOk (s.touchTile e ok) := by
  unfold State.touchTile
  grind [!. touchRun, !. modGroup]

theorem readLines (h : MemOk s) : MemOk (s.readLines e global lines ok).1 := by
  unfold State.readLines
  split
  · exact foldl_fst h _ fun x a hx => loadAt hx
  · split
    · exact h
    · split
      · exact h
      · exact noteTags h

theorem execMclaim {x} (h : MemOk s) (ht : execMclaim x s = .next t) : MemOk t := by
  refine perform (fun s e h => matrixPlan h fun c => ?_) h ht
  grind [planned_ok, Plan.keeps_iff, planned_error, Hold.Keeps, !. statusPlan, !. modMatrix]

theorem execMrel {x} (h : MemOk s) (ht : execMrel x s = .next t) : MemOk t := by
  refine perform (fun s e h => matrixPlan h fun c => ?_) h ht
  grind [planned_ok, Plan.keeps_iff, !. settleEngine, !. modMatrix]

theorem acceptFill (h : MemOk s) : MemOk (s.acceptFill e c slot quarter n global addr ok) := by
  unfold State.acceptFill
  grind [!. readLines, !. modFlow, !. modMatrix]

theorem execMfill {x} (h : MemOk s) (ht : execMfill x s = .next t) : MemOk t := by
  refine perform (fun s e h => matrixPlan h fun c => ?_) h ht
  grind [planned_ok, planned_error, Plan.keeps_iff, Hold.Keeps, !. foldl, → tileLines_error, → tileLines_ok, !. acceptFill, !. touchTile]

theorem accept (h : MemOk s) : MemOk (s.accept e c mk acc v stag) := by
  unfold State.accept
  grind [!. modFlow, !. modMatrix]

theorem acceptPlan (h : MemOk s) (hp : pl.Keeps) : Planned (acceptPlan c s pl) := by
  unfold Machine.acceptPlan
  grind [MemOk, planned_ok, planned_error, Hold.Keeps, Plan.keeps_iff]

theorem execMzero {x} (h : MemOk s) (ht : execMzero x s = .next t) : MemOk t := by
  refine perform (fun s e h => matrixPlan h fun c => ?_) h ht
  grind [planned_ok, Plan.keeps_iff, planned_error, Hold.Keeps, !. acceptPlan, !. accept]

theorem execMload {x} (h : MemOk s) (ht : execMload x s = .next t) : MemOk t := by
  refine perform (fun s e h => matrixPlan h fun c => ?_) h ht
  grind [planned_ok, planned_error, Plan.keeps_iff, Hold.Keeps, !. foldl, → tileLines_error, → tileLines_ok, !. acceptPlan, !. accept, !. touchTile]

theorem readBlock_error {g : Bool} {x : Hold} (h : MemOk s) (hx : s.readBlock e g addr = .error x) : x.Keeps := by
  unfold State.readBlock at hx
  grind [Hold.Keeps, !. spadTouches, !. checkGlobal]

theorem readBlock_ok {g : Bool} {x : State × List Byte × TileOk × (State → State)} (h : MemOk s) (hx : s.readBlock e g addr = .ok x) :
    MemOk x.1 ∧ ∀ s, MemOk s → MemOk (x.2.2.2 s) := by
  unfold State.readBlock at hx
  grind [!. checkGlobal, !. loadAt, !. noteTags]

theorem execMma {x} (h : MemOk s) (ht : execMma x s = .next t) : MemOk t := by
  refine perform (fun s e h => matrixPlan h fun c => ?_) h ht
  grind [planned_ok, planned_error, Plan.keeps_iff, Hold.Keeps, → readBlock_error, → readBlock_ok, !. acceptPlan, !. statusPlan, !. accept, !. touchTile]

theorem heldPlan {v : Nat} {kind : MatKind} {note : State → State} (h : MemOk s) (hn : ∀ s, MemOk s → MemOk (note s)) :
    Planned (heldPlan c acc v kind stag note s e) := by
  unfold Machine.heldPlan
  grind [MemOk, planned_ok, planned_error, Hold.Keeps, Plan.keeps_iff, !. acceptPlan, !. accept, !. modFlow]

theorem execMverify {x} (h : MemOk s) (ht : execMverify x s = .next t) : MemOk t := by
  refine perform (fun s e h => matrixPlan h fun c => ?_) h ht
  grind [planned_ok, Plan.keeps_iff, planned_error, Hold.Keeps, !. heldPlan]

theorem execMdrain {x} (h : MemOk s) (ht : execMdrain x s = .next t) : MemOk t := by
  refine perform (fun s e h => matrixPlan h fun c => ?_) h ht
  grind [planned_ok, planned_error, Plan.keeps_iff, Hold.Keeps, !. foldl, → tileLines_error, → tileLines_ok, !. heldPlan, !. noteHost]

theorem accRead {x : XArgs} {f : Matrix → Nat → DWord} {e : Issuer} {c : Nat} : Planned (accRead x f s e c) := by
  unfold Machine.accRead
  grind [planned_ok, Plan.keeps_iff, !. resultPlan]

theorem execMver {x} (h : MemOk s) (ht : execMver x s = .next t) : MemOk t := by
  refine perform (fun s e h => matrixPlan h fun c => ?_) h ht
  grind [!. accRead]

theorem execMstat {x} (h : MemOk s) (ht : execMstat x s = .next t) : MemOk t := by
  refine perform (fun s e h => matrixPlan h fun c => ?_) h ht
  grind [!. accRead]

theorem execMloc {x} (h : MemOk s) (ht : execMloc x s = .next t) : MemOk t := by
  refine perform (fun s e h => matrixPlan h fun c => ?_) h ht
  grind [!. accRead]

theorem repairPlan {x : XArgs} {k : State → Issuer → Nat → Except Hold Plan} (h : MemOk s) (hk : ∀ c, Planned (k s e c)) : Planned (repairPlan x k s e) := by
  refine matrixPlan h fun c => ?_
  grind [MemOk, planned_ok, planned_error, Hold.Keeps, Plan.keeps_iff]

theorem execMfix {x} (h : MemOk s) (ht : execMfix x s = .next t) : MemOk t := by
  refine perform (fun s e h => repairPlan h fun c => ?_) h ht
  grind [planned_ok, Plan.keeps_iff, !. statusPlan, !. modMatrix]

theorem rereadLines (h : MemOk s) : MemOk (s.rereadLines c g global lines).1 := by
  unfold State.rereadLines
  split
  · refine foldl_fst h _ fun x a hx => ?_
    grind [!. engineRead]
  · split <;> exact h

theorem rereadBlock (h : MemOk s) : MemOk (s.rereadBlock c g global addr).1 := by
  unfold State.rereadBlock
  grind [!. engineRead]

theorem rereadSlot (h : MemOk s) : MemOk (s.rereadSlot c g source n₀).1 := by
  unfold State.rereadSlot
  refine foldl_fst (x := (s, _)) h (List.range 4) fun x a hx => ?_
  grind [!. rereadLines]

theorem replayEntry (h : MemOk s) : MemOk (s.replayEntry c g av replay).1 := by
  unfold State.replayEntry
  have hb := rereadBlock h (c := c) (g := g) (global := replay.global) (addr := replay.address)
  split
  · next heq => exact hb.of_fst_eq heq
  · next heq =>
    have hb := hb.of_fst_eq heq
    refine ite_fst hb (foldl_fst (β := Except Unread (Tab (Tab Byte))) (x := (_, _)) hb replay.slots fun x a hx => ?_)
    grind [!. rereadSlot]

theorem rebuild (h : MemOk s) : MemOk (s.rebuild c g av).1 := by
  unfold State.rebuild
  refine ite_fst h (foldl_fst (β := Except Unread Acc) ?_ _ fun x r hx => ?_)
  · split
    · exact h
    · have hr {k g : Nat} {b : Bool} {l : List Nat} : MemOk (s.rereadLines k g b l).1 := rereadLines h
      split <;> next heq => exact hr.of_fst_eq heq
  · split
    · exact hx
    · exact hx.replayEntry

theorem execMretry {x} (h : MemOk s) (ht : execMretry x s = .next t) : MemOk t := by
  refine perform (fun s e h => repairPlan h fun c => ?_) h ht
  grind [planned_ok, Plan.keeps_iff, planned_error, Hold.Keeps, !. statusPlan, !. rebuild, !. modMatrix]

theorem execLd {w x} (h : MemOk s) (ht : execLd w x s = .next t) : MemOk t := by
  refine perform (fun s e h => ?_) h ht
  grind [planned_ok, Plan.keeps_iff, planned_error, Hold.Keeps, !. resolve, !. loadLanes, !. laterPlan]

theorem execSt {w x} (h : MemOk s) (ht : execSt w x s = .next t) : MemOk t := by
  refine perform (fun s e h => ?_) h ht
  grind [planned_ok, Plan.keeps_iff, planned_error, Hold.Keeps, !. foldl, !. resolve, !. storeAt]

theorem execLds {w x} (h : MemOk s) (ht : execLds w x s = .next t) : MemOk t := by
  refine perform (fun s e h => ?_) h ht
  grind [planned_ok, planned_error, Hold.Keeps, Plan.keeps_iff, → spadResolve, !. foldl_given, !. modGroup, !. noteTags, !. touchRun, !. laterPlan]

theorem execSts {w x} (h : MemOk s) (ht : execSts w x s = .next t) : MemOk t := by
  refine perform (fun s e h => ?_) h ht
  grind [planned_ok, planned_error, Hold.Keeps, Plan.keeps_iff, → spadResolve, !. touchRun, !. spadWritten, !. modGroup]

theorem atomicPlan {host : Bool} {op : Nat → Nat → Nat → Nat → AtomicResult} {x : XArgs} {e : Issuer} (h : MemOk s) : Planned (atomicPlan host op x s e) := by
  unfold Machine.atomicPlan
  grind [planned_ok, Plan.keeps_iff, planned_error, Hold.Keeps, !. foldl_given, !. resolve, !. loadAt, !. logOwned, !. poke, !. raiseExc, !. noteHost, !. requestPlan]

theorem reserve (h : MemOk s) : MemOk (s.reserve resv) := h

theorem clearReservation (h : MemOk s) : MemOk (s.clearReservation f l) := h

theorem execLr {x} (h : MemOk s) (ht : execLr x s = .next t) : MemOk t := by
  refine perform (fun s e h => ?_) h ht
  grind [planned_ok, Plan.keeps_iff, planned_error, Hold.Keeps, !. foldl, !. resolve, !. loadLanes, !. clearReservation, !. reserve, !. laterPlan]

theorem scLane (h : MemOk s) : MemOk (s.scLane e l va pa n v release).1 := by
  unfold State.scLane
  grind [!. translate, !. clearReservation, !. poke, !. logOwned]

theorem execSc {x} (h : MemOk s) (ht : execSc x s = .next t) : MemOk t := by
  refine perform (fun s e h => ?_) h ht
  grind [planned_ok, Plan.keeps_iff, planned_error, Hold.Keeps, !. foldl_given, !. resolve, !. scLane, !. requestPlan]

theorem execFence {x} (h : MemOk s) (ht : execFence x s = .next t) : MemOk t := by
  refine perform (fun s e h => ?_) h ht
  grind [planned_ok, Plan.keeps_iff, planned_error, Hold.Keeps, !. fenceRun]

theorem enter (h : MemOk s) : MemOk (s.enter c k) := by
  unfold State.enter
  grind [!. modFlow, !. modCore]

theorem exchange (h : MemOk s) : MemOk (s.exchange c out in_) := by
  unfold State.exchange
  grind [!. modCore, !. enter, !. modFlow]

theorem execWaveSwap {core scheduler} (h : MemOk s) (ht : execWaveSwap core scheduler s = .next t) : MemOk t := by
  unfold Machine.execWaveSwap at ht
  grind [!. exchange]

theorem execPendingStarvationTimeout {core scheduler} (h : MemOk s) (ht : execPendingStarvationTimeout core scheduler s = .next t) : MemOk t := by
  unfold Machine.execPendingStarvationTimeout at ht
  grind [!. modFlow]

theorem execClauseStart {f} (h : MemOk s) (ht : execClauseStart f s = .next t) : MemOk t := by
  unfold Machine.execClauseStart at ht
  grind [MemOk, !. startClause]

theorem execMemoryResponse {f index} (h : MemOk s) (ht : execMemoryResponse f index s = .next t) : MemOk t := by
  unfold Machine.execMemoryResponse at ht
  grind [!. respond]

theorem returnOctet (h : MemOk s) : MemOk (s.returnOctet c k) := by
  unfold State.returnOctet
  grind [!. makeRoom, !. fillOctet, !. modFlow]

theorem execOctetReturn {core slot} (h : MemOk s) (ht : execOctetReturn core slot s = .next t) : MemOk t := by
  unfold Machine.execOctetReturn at ht
  grind [!. returnOctet]

theorem execBarrierWake {core slot} (h : MemOk s) (ht : execBarrierWake core slot s = .next t) : MemOk t := by
  unfold Machine.execBarrierWake at ht
  grind [!. modFlow]

theorem execGlobalBarrierRetest {core slot} (h : MemOk s) (ht : execGlobalBarrierRetest core slot s = .next t) : MemOk t := by
  unfold Machine.execGlobalBarrierRetest at ht
  grind [!. modFlow]

theorem chore (h : MemOk s) (ht : s.chore c sch = some t) : MemOk t := by
  unfold State.chore at ht
  grind [!. evict, !. setCore, !. enter, !. exchange]

theorem execStageSourceFailure {core group window stage} (h : MemOk s) (ht : execStageSourceFailure core group window stage s = .next t) : MemOk t := by
  unfold Machine.execStageSourceFailure at ht
  grind [!. sourceFails]

theorem fillArea (h : MemOk s) : MemOk (s.fillArea pa parts) := by
  refine countGranule (List.foldlRecOn (motive := fun m => Memory.wf m = true) _ _ (Memory.wf_keep _ h) fun m hm p _ => ?_)
  exact Memory.wf_write _ _ _ hm

theorem writeArea (h : MemOk s) : MemOk (s.writeArea core pa n₀ i) := by
  unfold State.writeArea
  grind [!. fillArea, !. firstWrite, !. poke]

end MemOk

end Sys2Proof
end

