-- ==== Sys2Proof/Proofs/KeptByFirmware.lean ====
section
/-! Lemmas: memory stays in canonical form through the monitor, the steward's firmware, placement, swaps and contexts. -/

set_option Elab.async false

namespace Sys2Proof

open Sys2Proof.Machine

namespace MemOk

variable {a addr asid base but c choice core ctx d die entry frame g index k l launch n n₀ pa piece place priority queue record size slot st stage : Nat}
variable {s t : State} {sub type us v va value win x : Nat} {b₀ nested skip : Bool} {b : Barrier} {byte : Byte} {ch : Chain} {q : Core} {answer : DWord}
variable {fc : FaultChoice} {fr : FaultRecord} {f : Flow} {i : Image} {e : Issuer} {lv : Launch} {gangs : List (Nat × Nat)} {bs : List Byte} {vars : List Nat}
variable {gm : Monitor → Monitor} {away : Nat × Nat × Image} {pn : Nat → Bool} {opt : Option Nat} {p : Packet} {qu : Queue} {gq : Queue → Queue} {op : RegOp}
variable {site : Site} {stalled : Stalled} {pages : Tab (List Byte)} {r : TrapRegs} {w : Wave} {gw : Wave → Wave} {hd : Word}

theorem modMonitor (h : MemOk s) : MemOk (s.modMonitor d gm) := h

theorem imageVerify (h : MemOk s) : MemOk (s.imageVerify d a n).1 := by
  unfold State.imageVerify
  grind [!. modMonitor]

theorem imageMeasure (h : MemOk s) : MemOk (s.imageMeasure d a).1 := by
  unfold State.imageMeasure
  grind [!. modMonitor]

theorem isleWrite (h : MemOk s) : MemOk (s.isleWrite d slot).1 := by
  unfold State.isleWrite
  grind [MemOk]

theorem tableAt (h : MemOk s) : MemOk (s.tableAt entry frame).1 := by
  unfold State.tableAt
  grind [!. poke]

theorem mapIsle (h : MemOk s) : MemOk (s.mapIsle d place k) := by
  unfold State.mapIsle
  grind [!. tableAt, !. poke]

theorem placeImage (h : MemOk s) : MemOk (s.placeImage d place bs) := by
  unfold State.placeImage
  grind [!. foldl, !. mapIsle, !. poke, !. flushCode, !. dropTlb]

theorem stopFlow (h : MemOk s) : MemOk (s.stopFlow f) := by
  unfold State.stopFlow
  grind [!. finishStep, !. forgetFlow]

theorem startImage (h : MemOk s) : MemOk (s.startImage d place but bs) := by
  unfold State.startImage
  grind [!. stopFlow, !. placeImage, !. modDie, !. modMonitor]

theorem isleSwitch (h : MemOk s) : MemOk (s.isleSwitch d st slot us).1 := by
  unfold State.isleSwitch
  grind [!. modMonitor, !. startImage]

theorem rollBack (h : MemOk s) : MemOk (s.rollBack d) := by
  unfold State.rollBack
  grind [!. foldl, !. modMonitor, !. startImage, !. queueTo, !. raiseEvent, !. report]

theorem feed (h : MemOk s) : MemOk (s.feed d).1 := by
  unfold State.feed
  grind [MemOk, !. rollBack, !. raiseEvent, !. modMonitor]

theorem execHeartbeatTimeout {die} (h : MemOk s) (ht : execHeartbeatTimeout die s = .next t) : MemOk t := by
  unfold Machine.execHeartbeatTimeout at ht
  grind [MemOk, !. rollBack]

theorem moncallPlan {service : State → Issuer → Nat → Nat → State × Nat} (hs : ∀ s a b, MemOk s → MemOk (service s e a b).1) :
    Planned (moncallPlan service s e) := by
  unfold Machine.moncallPlan
  grind [MemOk, planned_ok, planned_error, Hold.Keeps, Plan.keeps_iff, resultPlan]

theorem execMonitorVersion {x} (h : MemOk s) (ht : execMonitorVersion x s = .next t) : MemOk t := by
  refine perform (fun s e h => moncallPlan fun s a b h => ?_) h ht
  grind

theorem execImageVerify {x} (h : MemOk s) (ht : execImageVerify x s = .next t) : MemOk t := by
  refine perform (fun s e h => moncallPlan fun s a b h => ?_) h ht
  grind [!. imageVerify]

theorem execImageMeasure {x} (h : MemOk s) (ht : execImageMeasure x s = .next t) : MemOk t := by
  refine perform (fun s e h => moncallPlan fun s a b h => ?_) h ht
  grind [!. imageMeasure]

theorem execIsleWrite {x} (h : MemOk s) (ht : execIsleWrite x s = .next t) : MemOk t := by
  refine perform (fun s e h => moncallPlan fun s a b h => ?_) h ht
  grind [!. isleWrite]

theorem execIsleSwitch {x} (h : MemOk s) (ht : execIsleSwitch x s = .next t) : MemOk t := by
  refine perform (fun s e h => moncallPlan fun s a b h => ?_) h ht
  grind [!. isleSwitch]

theorem execHeartbeat {x} (h : MemOk s) (ht : execHeartbeat x s = .next t) : MemOk t := by
  refine perform (fun s e h => moncallPlan fun s a b h => ?_) h ht
  grind [!. feed]

theorem execFuseSvn {x} (h : MemOk s) (ht : execFuseSvn x s = .next t) : MemOk t := by
  refine perform (fun s e h => moncallPlan fun s a b h => ?_) h ht
  grind

theorem execMoncallUnknown {x} (h : MemOk s) (ht : execMoncallUnknown x s = .next t) : MemOk t := by
  refine perform (fun s e h => moncallPlan fun s a b h => ?_) h ht
  grind

theorem execTrap {x} (h : MemOk s) (ht : execTrap x s = .next t) : MemOk t := by
  refine perform (fun s e h => ?_) h ht
  grind [planned_ok, Plan.keeps_iff, planned_error, Hold.Keeps]

theorem execBrk {x} (h : MemOk s) (ht : execBrk x s = .next t) : MemOk t := by
  refine perform (fun s e h => ?_) h ht
  grind [planned_ok, Plan.keeps_iff, planned_error, Hold.Keeps]

theorem trapReturn (h : MemOk s) : MemOk (s.trapReturn e skip) := by
  unfold State.trapReturn
  grind [!. skipInstruction, !. returnFromTrap]

theorem returnPlan {skip : Bool} {e : Issuer} : (returnPlan skip e).Keeps := by
  unfold Machine.returnPlan
  grind [planned_ok, Plan.keeps_iff, !. trapReturn, !. tryEnd]

theorem execTret {x} (h : MemOk s) (ht : execTret x s = .next t) : MemOk t := by
  refine perform (fun s e h => ?_) h ht
  grind [planned_ok, Plan.keeps_iff, !. returnPlan]

theorem execTretSkip {x} (h : MemOk s) (ht : execTretSkip x s = .next t) : MemOk t := by
  refine perform (fun s e h => ?_) h ht
  grind [planned_ok, Plan.keeps_iff, !. returnPlan]

theorem execIsync {x} (h : MemOk s) (ht : execIsync x s = .next t) : MemOk t := by
  refine perform (fun s e h => ?_) h ht
  grind [planned_ok, Plan.keeps_iff]

theorem execIflush {x} (h : MemOk s) (ht : execIflush x s = .next t) : MemOk t := by
  refine perform (fun s e h => ?_) h ht
  grind [planned_ok, Plan.keeps_iff, planned_error, Hold.Keeps, !. flushCode]

theorem takeEvents (h : MemOk s) : MemOk (s.takeEvents f) := by
  unfold State.takeEvents
  grind [!. modDie]

theorem execWfi {x} (h : MemOk s) (ht : execWfi x s = .next t) : MemOk t := by
  refine perform (fun s e h => ?_) h ht
  grind [planned_ok, Plan.keeps_iff, planned_error, Hold.Keeps, !. statusPlan, !. takeEvents]

theorem tlbPlan {x : XArgs} {pick : State → Issuer → Translation → Bool} {e : Issuer} : Planned (tlbPlan x pick s e) := by
  unfold Machine.tlbPlan
  grind [planned_ok, Plan.keeps_iff, planned_error, Hold.Keeps, !. foldl, !. dropTlb, !. fenceRun]

theorem execTlbinvAll {x} (h : MemOk s) (ht : execTlbinvAll x s = .next t) : MemOk t := by
  refine perform (fun s e h => ?_) h ht
  grind [!. tlbPlan]

theorem execTlbinvAsid {x} (h : MemOk s) (ht : execTlbinvAsid x s = .next t) : MemOk t := by
  refine perform (fun s e h => ?_) h ht
  grind [!. tlbPlan]

theorem execTlbinvRange {x} (h : MemOk s) (ht : execTlbinvRange x s = .next t) : MemOk t := by
  refine perform (fun s e h => ?_) h ht
  grind [!. tlbPlan]

theorem touchRead (h : MemOk s) : MemOk (s.touchRead die asid va n) := by
  unfold State.touchRead
  grind [!. foldl, !. touchLeaf]

theorem agentFill (h : MemOk s) : MemOk (s.agentFill die asid pa bs) := by
  unfold State.agentFill
  grind [!. foldl, !. agentPoke, !. poke]

theorem agentPage (h : MemOk s) : MemOk (s.agentPage die ctx asid va).1 := by
  unfold State.agentPage
  grind [!. serveSnap, !. touchLeaf]

theorem writeVa (h : MemOk s) (ht : s.writeVa die ctx asid va bs a = some t) : MemOk t := by
  induction a generalizing s va bs with
  | zero =>
    unfold State.writeVa at ht
    grind
  | succ n ih =>
    unfold State.writeVa at ht
    grind [!. agentPage, !. agentFill]

theorem codeLoad (h : MemOk s) : MemOk (s.codeLoad die ctx a n₀ base).1 := by
  have hr {k a n : Nat} : MemOk (s.touchRead die k a n) := touchRead h
  unfold State.codeLoad
  dsimp only
  split
  · exact h
  · split
    · exact h
    · refine ite_fst hr <| ite_fst hr <| ite_fst hr ?_
      split
      · exact hr
      · refine ite_fst hr ?_
        split
        · exact hr
        · next t ht =>
          have hw : MemOk t := writeVa (withTranslations hr) ht
          exact withCodes hw.flushCode

theorem rewrite (h : MemOk s) : MemOk (s.rewrite n) := by
  unfold State.rewrite
  grind [!. poke]

theorem setQueue (h : MemOk s) : MemOk (s.setQueue n gq) := by
  unfold State.setQueue
  grind [!. rewrite, !. modQueue]

theorem unmark (h : MemOk s) : MemOk (s.unmark n) := h

theorem closeSession (h : MemOk s) : MemOk (s.closeSession n type) := by
  unfold State.closeSession
  grind [!. foldl, !. traceLast, !. traceEnd, !. unmark, !. setQueue]

theorem tearLaunch (h : MemOk s) : MemOk (s.tearLaunch n) := by
  unfold State.tearLaunch
  grind [!. endLaunch, !. dropLaunch]

theorem putCtxByte (h : MemOk s) : MemOk (s.putCtxByte die ctx va byte) := by
  unfold State.putCtxByte
  grind [!. agentPage, !. agentPoke]

theorem modImageWave (h : MemOk s) : MemOk (s.modImageWave f opt gw) := by
  unfold State.modImageWave
  grind [MemOk, !. modFlow, !. modCore]

theorem giveAnswer (h : MemOk s) : MemOk (s.giveAnswer f opt v) := by
  unfold State.giveAnswer
  grind [!. modImageWave]

theorem answerMailbox (h : MemOk s) : MemOk (s.answerMailbox die record v) := h

theorem answerAll (h : MemOk s) : MemOk (s.answerAll n n₀ v) := by
  unfold State.answerAll
  grind [!. foldl, !. answerMailbox, !. giveAnswer, !. modDie]

theorem discardAsked (h : MemOk s) : MemOk (s.discardAsked n) := by
  unfold State.discardAsked
  grind [!. modQueue, !. answerAll]

theorem resetQueue (h : MemOk s) : MemOk (s.resetQueue n) := by
  unfold State.resetQueue
  grind [!. foldl, !. setQueue, !. discardAsked, !. tearLaunch, !. putCtxByte, !. closeSession]

theorem queueService (h : MemOk s) : MemOk (s.queueService n n₀ size choice).1 := by
  unfold State.queueService
  grind [!. setQueue, !. giveAsid, !. resetQueue, !. closeSession]

theorem service (h : MemOk s) : MemOk (s.service die opt n a n₀ choice).1 := by
  unfold State.service
  grind [!. queueService, !. codeLoad]

theorem answerRequest (h : MemOk s) : MemOk (s.answerRequest die n₀ answer) := by
  unfold State.answerRequest
  grind [!. modDie, !. service, !. giveAnswer]

theorem execEcallAnswer {die request answer} (h : MemOk s) (ht : execEcallAnswer die request answer s = .next t) : MemOk t := by
  unfold Machine.execEcallAnswer at ht
  grind [!. answerRequest]

theorem execHostMailboxRequest {die record service a b} (h : MemOk s) (ht : execHostMailboxRequest die record service a b s = .next t) : MemOk t := by
  unfold Machine.execHostMailboxRequest at ht
  grind [!. raiseEvent, !. modDie]

theorem serveMailbox (h : MemOk s) : MemOk (s.serveMailbox die record pn) := by
  unfold State.serveMailbox
  grind [MemOk, !. service, !. answerMailbox]

theorem rejectBad (h : MemOk s) : MemOk (s.rejectBad n) := by
  unfold State.rejectBad
  grind [!. queueError]

theorem take (h : MemOk s) : MemOk (s.take n qu p) := by
  unfold State.take
  grind [!. touchRead, !. setQueue, !. putCtxByte]

theorem noteReady (h : MemOk s) : MemOk s.noteReady := by
  unfold State.noteReady
  grind [MemOk]

theorem touchRecord (h : MemOk s) : MemOk (s.touchRecord die asid addr) := by
  unfold State.touchRecord
  grind [!. touchRead]

theorem startLaunch (h : MemOk s) : MemOk (s.startLaunch n qu p priority) := by
  unfold State.startLaunch
  grind [MemOk, !. touchRecord, !. queueError, !. protect]

theorem execLaunchPacket {die queue} (h : MemOk s) (ht : execLaunchPacket die queue s = .next t) : MemOk t := by
  unfold Machine.execLaunchPacket at ht
  grind [!. rejectBad, !. startLaunch, !. take]

theorem execWaitPacket {queue} (h : MemOk s) (ht : execWaitPacket queue s = .next t) : MemOk t := by
  unfold Machine.execWaitPacket at ht
  grind [!. rejectBad, !. modQueue, !. take]

theorem execWaitSatisfied {queue : Nat} (h : MemOk s) (ht : execWaitSatisfied queue s = .next t) : MemOk t := by
  cases ht
  split
  · exact h
  · split
    · split
      · refine ite ?_ h
        split
        · exact h.touchRead.modQueue.signal
        · exact h.touchRead.modQueue
      · exact h
    · exact h

theorem execMarkPacket {queue} (h : MemOk s) (ht : execMarkPacket queue s = .next t) : MemOk t := by
  unfold Machine.execMarkPacket at ht
  grind [!. rejectBad, !. modQueue, !. take]

theorem execMarkSignal {queue} (h : MemOk s) (ht : execMarkSignal queue s = .next t) : MemOk t := by
  unfold Machine.execMarkSignal at ht
  grind [!. modQueue, !. signal]

theorem execQdoorbell {die value} (h : MemOk s) (ht : execQdoorbell die value s = .next t) : MemOk t := by
  unfold Machine.execQdoorbell at ht
  grind [!. writeReg]

theorem visit (h : MemOk s) : MemOk (s.visit n) := by
  unfold State.visit
  grind [!. modQueue, !. queueService, !. rewrite]

theorem execStewardTick {die} (h : MemOk s) (ht : execStewardTick die s = .next t) : MemOk t := by
  unfold Machine.execStewardTick at ht
  grind [MemOk, !. foldl, !. raiseEvent, !. serveMailbox, !. visit]

theorem pinArea (h : MemOk s) : MemOk (s.pinArea pa) := h

theorem traceCore (h : MemOk s) : MemOk (s.traceCore queue c q).2 := by
  unfold State.traceCore
  split <;> exact h

theorem bringKey (h : MemOk s) : MemOk (s.bringKey die ctx) := by
  unfold State.bringKey
  grind [!. modDie]

theorem placeGroup (h : MemOk s) : MemOk (s.placeGroup n₀ lv index c) := by
  unfold State.placeGroup
  grind [MemOk, !. bringKey, !. traceCore, !. pinArea, !. setCore, !. modContext, !. foldl, !. waveWritten]

theorem endDrain (h : MemOk s) : MemOk (s.endDrain n₀) := h

theorem execGroupPlace {launch} (h : MemOk s) (ht : execGroupPlace launch s = .next t) : MemOk t := by
  unfold Machine.execGroupPlace at ht
  grind [!. foldl, !. giveAsid, !. modLaunch, !. placeGroup, !. endDrain]

theorem execCompactionDrainStart {launch} (h : MemOk s) (ht : execCompactionDrainStart launch s = .next t) : MemOk t := by
  unfold Machine.execCompactionDrainStart at ht
  grind [!. foldl, !. modDie]

theorem execPreempt {launch} (h : MemOk s) (ht : execPreempt launch s = .next t) : MemOk t := by
  unfold Machine.execPreempt at ht
  grind [!. foldl, !. askSwap]

theorem leaveWave (h : MemOk s) : MemOk (s.leaveWave c k) := by
  unfold State.leaveWave
  grind [!. foldl, !. respond, !. dropTag, !. takeDue, !. traceEvent, !. dropReservations, !. fabricFence]

theorem cancelStage (h : MemOk s) : MemOk (s.cancelStage c g win stage) := by
  unfold State.cancelStage
  split
  · exact h
  · split
    · split
      · exact h
      · refine ite h ?_
        grind [!. setGroup, !. firstBar, !. setBar]
    · exact h

theorem cancelStages (h : MemOk s) : MemOk (s.cancelStages c g) := by
  unfold State.cancelStages
  grind [!. foldl, !. cancelStage]

theorem shadowWritten (h : MemOk s) : MemOk (s.shadowWritten core) := by
  unfold State.shadowWritten
  grind [!. strike, !. modCore]

theorem preemptCore (h : MemOk s) : MemOk (s.preemptCore c) := by
  unfold State.preemptCore
  grind [!. modCore, !. askSwap]

theorem swap (h : MemOk s) : MemOk (s.swap core) := by
  unfold State.swap
  dsimp only
  split
  · exact h
  · refine shadowWritten (withSwaps (modCore (foldl (foldl (foldl h _ ?_) _ ?_) _ ?_)))
    · exact fun _ _ hs => hs.preemptCore
    · exact fun _ _ hs => hs.leaveWave
    · exact fun _ _ hs => hs.cancelCalls.cancelStages

theorem execSwap {core} (h : MemOk s) (ht : execSwap core s = .next t) : MemOk t := by
  unfold Machine.execSwap at ht
  grind [!. swap]

theorem execSwapEnd {core} (h : MemOk s) (ht : execSwapEnd core s = .next t) : MemOk t := by
  cases ht
  exact h

theorem execSpillComplete {core} (h : MemOk s) (ht : execSpillComplete core s = .next t) : MemOk t := by
  unfold Machine.execSpillComplete at ht
  grind [MemOk, !. foldl, !. writeArea, !. logCore, !. modCore, !. modContext]

theorem askRestore (h : MemOk s) : MemOk (s.askRestore away) := h

theorem execRestore {core} (h : MemOk s) (ht : execRestore core s = .next t) : MemOk t := by
  unfold Machine.execRestore at ht
  grind [!. foldl, !. giveAsid, !. askRestore]

theorem install (h : MemOk s) : MemOk (s.install core i asid) := h

theorem wakeGangs (h : MemOk s) : MemOk (s.wakeGangs gangs) := h

theorem returned (h : MemOk s) : MemOk (s.returned core k) := by
  unfold State.returned
  grind [!. traceEvent, !. fabricFence, !. traceRec, !. modFlow, !. tryEnd]

theorem homeAgain (h : MemOk s) : MemOk (s.homeAgain ctx core a) := h

theorem imageWritten (h : MemOk s) : MemOk (s.imageWritten core i) := by
  unfold State.imageWritten
  grind [!. foldl, !. waveWritten, !. unitWritten, !. spadWritten]

theorem execRestoreComplete {core} (h : MemOk s) (ht : execRestoreComplete core s = .next t) : MemOk t := by
  unfold Machine.execRestoreComplete at ht
  grind [!. foldl, !. modCore, !. failContext, !. imageWritten, !. install, !. modContext, !. homeAgain, !. returned, !. wakeGangs]

theorem execContextCreate {c} (h : MemOk s) (ht : execContextCreate c s = .next t) : MemOk t := by
  unfold Machine.execContextCreate at ht
  grind [MemOk, !. foldl, !. takeAsid, !. modDie, !. setAsid]

theorem stopChain (h : MemOk s) : MemOk (s.stopChain pa ch) := by
  unfold State.stopChain
  grind [MemOk, !. chainPut]

theorem freeQueue (h : MemOk s) : MemOk (s.freeQueue n) := by
  unfold State.freeQueue
  grind [MemOk, !. queueTo, !. resetQueue]

theorem dropContext (h : MemOk s) : MemOk (s.dropContext ctx) := by
  unfold State.dropContext
  grind [MemOk, !. foldl, !. dropGroup, !. trimAreas]

theorem forgetContext (h : MemOk s) : MemOk (s.forgetContext ctx) := h

theorem execContextTeardown {handle : Nat} (h : MemOk s) (ht : execContextTeardown handle s = .next t) : MemOk t := by
  cases ht
  split
  · exact h
  · refine ite h (forgetContext (modContext (elim ?_ _ fun a => dropAsid ?_)))
    all_goals
      refine foldl (dropContext (foldl (foldl h.modContext _ fun _ _ hs => hs.freeQueue) _ fun _ _ hs => hs.tearLaunch)) _ fun _ _ hs => hs.stopChain

theorem freshPiece (h : MemOk s) (ht : s.freshPiece die asid piece = some t) : MemOk t := by
  unfold State.freshPiece at ht
  dsimp only at ht
  split at ht
  · cases ht
    exact h
  · obtain ⟨p, -, rfl⟩ := Option.map_eq_some_iff.1 ht
    exact foldl (s := { s with fresh := s.fresh + 1 }) h _ fun s e hs => hs.poke.poke

theorem putBack (h : MemOk s) (ht : s.putBack die asid piece pages = some t) : MemOk t := by
  unfold State.putBack at ht
  refine List.foldlRecOn (motive := fun o : Option State => ∀ t, o = some t → MemOk t) pages _ (fun u hu => ?_) (fun o ho e _ u hu => ?_) t ht
  · exact h.splitLeaf.splitLeaf.dropPiece.freshPiece hu
  · obtain ⟨s', rfl, hs'⟩ := Option.bind_eq_some_iff.1 hu
    obtain ⟨p, -, rfl⟩ := Option.map_eq_some_iff.1 hs'
    exact agentFill (ho s' rfl)

theorem restoreSnapshots (h : MemOk s) (ht : s.restoreSnapshots n lv die asid = some t) : MemOk t := by
  unfold State.restoreSnapshots at ht
  obtain ⟨u, hu, rfl⟩ := Option.map_eq_some_iff.1 ht
  refine modLaunch (protect ?_)
  refine List.foldlRecOn (motive := fun o : Option State => ∀ t, o = some t → MemOk t) _ _ (fun u hu => ?_) (fun o ho e _ v hv => ?_) u hu
  · cases hu
    exact h
  · obtain ⟨s', rfl, hs'⟩ := Option.bind_eq_some_iff.1 hv
    exact (ho s' rfl).putBack hs'

theorem execReplayRestoreDone {launch : Nat} (h : MemOk s) (ht : execReplayRestoreDone launch s = .next t) : MemOk t := by
  cases ht
  split
  · exact h
  · refine ite h ?_
    split
    · exact h
    · dsimp only
      split
      · next t ht =>
        split at ht
        · exact modLaunch (withFresh (h.restoreSnapshots ht))
        · cases ht
      · exact failLaunch (withFresh h)

theorem letGo (h : MemOk s) : MemOk (s.letGo f opt) := by
  unfold State.letGo
  grind [!. modImageWave]

theorem faultImage (h : MemOk s) : MemOk (s.faultImage f opt g) := by
  unfold State.faultImage
  grind [MemOk, !. modCore]

theorem fail (h : MemOk s) : MemOk (s.fail f opt w fr b₀) := by
  unfold State.fail
  grind [!. keepFault, !. faultImage, !. escalate, !. failLaunch]

theorem forward (h : MemOk s) : MemOk (s.forward f opt r) := by
  unfold State.forward
  grind [!. enterHandler, !. modImageWave]

theorem serveWriters (h : MemOk s) : MemOk (s.serveWriters die ctx asid va) := by
  unfold State.serveWriters
  grind [MemOk, !. foldl, !. serveSnap, !. letGo]

theorem dispatchFault (h : MemOk s) : MemOk (s.dispatchFault d f opt r nested fc) := by
  unfold State.dispatchFault
  grind [!. fail, !. letGo, !. serveWriters, !. forward]

theorem endJob (h : MemOk s) : MemOk (s.endJob d asid va stalled) := by
  unfold State.endJob
  grind [!. engineRead, !. failStage, !. translateDie, !. endStart, !. modChain]

theorem dispatchEngine (h : MemOk s) : MemOk (s.dispatchEngine d stalled opt asid va sub fc) := by
  unfold State.dispatchEngine
  split
  · exact elim h _ fun x => h.serveWriters
  · split
    · exact h
    · exact h.endJob

theorem execStewardFaultDispatch {die index choice} (h : MemOk s) (ht : execStewardFaultDispatch die index choice s = .next t) : MemOk t := by
  unfold Machine.execStewardFaultDispatch at ht
  grind [!. modDie, !. dispatchFault, !. dispatchEngine]

theorem execSnapshotCopy {launch piece} (h : MemOk s) (ht : execSnapshotCopy launch piece s = .next t) : MemOk t := by
  unfold Machine.execSnapshotCopy at ht
  grind [!. serveWriters]

theorem execCsrr {x} (h : MemOk s) (ht : execCsrr x s = .next t) : MemOk t := by
  refine perform (fun s e h => ?_) h ht
  grind [planned_ok, Plan.keeps_iff, planned_error, Hold.Keeps, !. resultPlan]

theorem regPlan {x : XArgs} {op : RegOp} {e : Issuer} : Planned (regPlan x op s e) := by
  unfold Machine.regPlan
  grind [planned_ok, Plan.keeps_iff, planned_error, Hold.Keeps, !. writeReg]

theorem execMergeChk {x} (h : MemOk s) (ht : execMergeChk x s = .next t) : MemOk t := by
  refine perform (fun s e h => ?_) h ht
  grind [planned_ok, Plan.keeps_iff, planned_error, Hold.Keeps, !. resultPlan, !. modFlow, !. putWords]

theorem execMergeLane {x} (h : MemOk s) (ht : execMergeLane x s = .next t) : MemOk t := by
  refine perform (fun s e h => ?_) h ht
  grind [planned_ok, Plan.keeps_iff, planned_error, Hold.Keeps, !. modFlow, !. noteWrite]

theorem execMergeG {x} (h : MemOk s) (ht : execMergeG x s = .next t) : MemOk t := by
  refine perform (fun s e h => ?_) h ht
  grind [planned_ok, Plan.keeps_iff, planned_error, Hold.Keeps, !. modGroup]

theorem execRkq {x} (h : MemOk s) (ht : execRkq x s = .next t) : MemOk t := by
  refine perform (fun s e h => ?_) h ht
  grind [planned_ok, Plan.keeps_iff, !. resultPlan]

theorem execRkhome {x} (h : MemOk s) (ht : execRkhome x s = .next t) : MemOk t := by
  refine perform (fun s e h => ?_) h ht
  grind [planned_ok, Plan.keeps_iff, !. resultPlan]

theorem execLread {x} (h : MemOk s) (ht : execLread x s = .next t) : MemOk t := by
  refine perform (fun s e h => ?_) h ht
  grind [planned_ok, Plan.keeps_iff, planned_error, Hold.Keeps, !. resultPlan]

theorem writeLane (h : MemOk s) : MemOk (s.writeLane f x l hd) := by
  unfold State.writeLane
  grind [!. setFlow, !. noteWrite]

theorem laneWritten (h : MemOk s) : MemOk (s.laneWritten f vars l site) := by
  unfold State.laneWritten
  grind [!. fileWritten]

theorem execLwrite {x} (h : MemOk s) (ht : execLwrite x s = .next t) : MemOk t := by
  refine perform (fun s e h => ?_) h ht
  grind [planned_ok, Plan.keeps_iff, planned_error, Hold.Keeps, !. writeLane, !. laneWritten]

end MemOk

end Sys2Proof
end

