-- ==== Sys2Proof/Proofs/KeptByStep.lean ====
section
/-! Lemmas and proof: memory stays in canonical form through debug, engines, links, power and the outside, and so through every step. -/

set_option Elab.async false

namespace Sys2Proof

open Sys2Proof.Machine

namespace MemOk

variable {acc acked addr array asid bytes c code core d die g index k n off pa pitch place saved sch scheduler scope slot status sub v va value word : Nat}
variable {s t u : State} {x : Nat} {add first global precise write : Bool} {lanes mask : LaneMask} {bs data : List Byte} {av : Acc} {b : Barrier} {byte : Byte}
variable {ch : Chain} {cl : Clause} {ds : DStep} {f : Flow} {i : Image} {e : Issuer} {nums : List Nat} {failed : List UnitFailure} {ws : List Word} {o : MatOp}
variable {nc : NewChain} {nq : NewQueue} {offered : Option (List Byte)} {op : RegOp} {sel : Selected} {site : Site} {trail : TrailData} {trap : Trap}
variable {r : TrapRegs} {w : Wave} {hd : Word}

theorem debugStatus {e : Issuer} {status : Nat} : (debugStatus e status).Keeps := by
  unfold Machine.debugStatus
  grind [!. resultPlan]

theorem debugPlan {x : XArgs} {act : State → Issuer → Nat → Nat → Wave → Except Nat (State → State)}
    (ha : ∀ c k w g, act s e c k w = .ok g → ∀ s, MemOk s → MemOk (g s)) : Planned (debugPlan x act s e) := by
  unfold Machine.debugPlan
  grind [MemOk, planned_ok, planned_error, Hold.Keeps, Plan.keeps_iff, debugStatus]

theorem haltWave (h : MemOk s) : MemOk (s.haltWave f) := by
  unfold State.haltWave
  grind [!. traceEvent, !. haltLanes]

theorem stopOthers (h : MemOk s) : MemOk (s.stopOthers c k w scope) := by
  unfold State.stopOthers
  grind [!. stopGang, !. modCore]

theorem execDhalt {x} (h : MemOk s) (ht : execDhalt x s = .next t) : MemOk t := by
  refine perform (fun s e h => debugPlan fun c k w g hg s h => ?_) h ht
  grind [!. stopOthers, !. haltWave]

theorem resumeLanes (h : MemOk s) : MemOk (s.resumeLanes c k mask) := by
  unfold State.resumeLanes
  grind [!. modFlow, !. traceEvent, !. refreshGroup]

theorem execDresume {x} (h : MemOk s) (ht : execDresume x s = .next t) : MemOk t := by
  refine perform (fun s e h => debugPlan fun c k w g hg s h => ?_) h ht
  grind [!. resumeLanes]

theorem beginStep (h : MemOk s) : MemOk (s.beginStep e f lanes addr word hd ws) := by
  unfold State.beginStep
  grind [MemOk, !. modFlow, !. traceClause]

theorem execDstep {x} (h : MemOk s) (ht : execDstep x s = .next t) : MemOk t := by
  refine perform (fun s e h => ?_) h ht
  grind [planned_ok, Plan.keeps_iff, !. debugStatus, !. fetchClause, !. beginStep]

theorem execDread {x} (h : MemOk s) (ht : execDread x s = .next t) : MemOk t := by
  refine perform (fun s e h => ?_) h ht
  grind [planned_ok, Plan.keeps_iff, !. resultPlan]

theorem debugWrite {c k : Nat} {w : Wave} {x : Selected} {v : DWord} {g : State → State} (hg : s.debugWrite c k w x v = .ok g) (hu : MemOk u) : MemOk (g u) := by
  unfold State.debugWrite at hg
  grind [!. settle, !. writeLane, !. callBack, !. modFlow, !. modGroup, !. writeReg]

theorem debugWritten (h : MemOk s) : MemOk (s.debugWritten c k sel site) := by
  unfold State.debugWritten
  grind [!. laneWritten, !. fileWritten, !. recordWritten]

theorem execDwrite {x : XArgs} (h : MemOk s) (ht : execDwrite x s = .next t) : MemOk t := by
  refine perform (fun s e h => debugPlan fun c k w g hg u hu => ?_) h ht
  split at hg
  · cases hg
  · next sel _ =>
    split at hg
    · cases hd : s.debugWrite c k w sel (s.srcC e e.lead) with
      | error st => rw [hd] at hg; cases hg
      | ok g' =>
        rw [hd] at hg
        cases hg
        exact (debugWrite hd hu).debugWritten
    · cases hg

theorem execFoxRead {die core slot item} (h : MemOk s) (ht : execFoxRead die core slot item s = .next t) : MemOk t := by
  unfold Machine.execFoxRead at ht
  grind [MemOk, !. report]

theorem pushTrail (h : MemOk s) : MemOk (s.pushTrail core bs) := by
  unfold State.pushTrail
  grind [!. modCore, !. flushTrail]

theorem trailRecord (h : MemOk s) : MemOk (s.trailRecord core scheduler trail) := by
  unfold State.trailRecord
  grind [!. pushTrail, !. modCore]

theorem execTrailRecord {core scheduler r} (h : MemOk s) (ht : execTrailRecord core scheduler r s = .next t) : MemOk t := by
  unfold Machine.execTrailRecord at ht
  grind [!. trailRecord]

theorem execMfillComplete {core index} (h : MemOk s) (ht : execMfillComplete core index s = .next t) : MemOk t := by
  unfold Machine.execMfillComplete at ht
  grind [!. modMatrix, !. setCore, !. modEngineWave, !. opTryEnd, !. settleEngine]

theorem runOp (h : MemOk s) : MemOk (s.runOp c o data) := h

theorem loadRows (h : MemOk s) : MemOk (s.loadRows c g global addr pitch).1 := by
  unfold State.loadRows
  split
  · exact h
  · refine foldl_fst h _ fun x a hx => ?_
    grind [!. rereadLines]

theorem logEngine (h : MemOk s) : MemOk (s.logEngine c o code sub addr) := by
  unfold State.logEngine
  grind [!. logCore]

theorem execMatrixOpStart {core index} (h : MemOk s) (ht : execMatrixOpStart core index s = .next t) : MemOk t := by
  unfold Machine.execMatrixOpStart at ht
  grind [!. loadRows, !. runOp, !. opTryEnd, !. settleEngine, !. opFails, !. logEngine, !. discardOp]

theorem drainTo (h : MemOk s) : MemOk (s.drainTo o asid pa bs add) := by
  unfold State.drainTo
  grind [!. foldl, !. logDie, !. poke]

theorem drainLines (h : MemOk s) : MemOk (s.drainLines die asid o nums).1 := by
  induction nums generalizing s with
  | nil => exact h
  | cons va rest ih =>
    unfold State.drainLines
    grind [!. translateDie, !. logDie]

theorem drainGlobal (h : MemOk s) : MemOk (s.drainGlobal c o av addr pitch add).state := by
  unfold State.drainGlobal
  grind [Drained.state, !. drainLines, !. engineFault, !. foldl_fst, !. drainTo]

theorem drainSpad (h : MemOk s) : MemOk (s.drainSpad c g o av addr pitch add).state := by
  unfold State.drainSpad
  grind [Drained.state, !. setEngineGroup, !. spadWritten]

theorem strikeAcc (h : MemOk s) : MemOk (s.strikeAcc c k) := by
  unfold State.strikeAcc
  grind [!. modCore, !. modMatrix]

theorem opCompletes (h : MemOk s) : MemOk (s.opCompletes c o av) := by
  unfold State.opCompletes
  grind [!. modMatrix, !. opTryEnd, !. settleEngine, !. opLeaves, !. strikeAcc]

theorem opMismatches (h : MemOk s) : MemOk (s.opMismatches c o av) := by
  unfold State.opMismatches
  grind [!. settleEngine, !. opTraps, !. modMatrix]

theorem logParity (h : MemOk s) : MemOk (s.logParity c o) := by
  unfold State.logParity
  grind [!. foldl, !. logCore]

theorem drainFault (h : MemOk s) : MemOk (s.drainFault c o trap precise) := by
  unfold State.drainFault
  grind [!. logEngine, !. opTraps, !. opFails]

theorem heldGate (h : MemOk s) : MemOk (s.heldGate c o).1 := by
  refine forEngine h fun s hs => ?_
  grind [Gate.state, !. gateWith, !. opLeaves, !. opTraps]

theorem drainTouches (h : MemOk s) : MemOk (s.drainTouches c o addr pitch) := by
  refine forEngine h fun s hs => ?_
  grind [!. touchTile]

theorem drained? (h : MemOk s) : MemOk (s.drained? c o av global addr pitch add).state := by
  unfold State.drained?
  grind [Drained.state, !. drainGlobal, !. drainSpad]

theorem drain (h : MemOk s) : MemOk (s.drain c o av global addr pitch add) := by
  unfold State.drain
  grind [Drained.state, !. drained?, !. modMatrix, !. drainFault, !. settleEngine, !. heldGate, !. drainTouches, !. modEngineWave, !. opCompletes]

theorem verifyPasses (h : MemOk s) : MemOk (s.verifyPasses c o av) := by
  unfold State.verifyPasses
  grind [!. heldGate, !. opCompletes]

theorem execMatrixOpComplete {core acc} (h : MemOk s) (ht : execMatrixOpComplete core acc s = .next t) : MemOk t := by
  unfold Machine.execMatrixOpComplete at ht
  grind [!. opCompletes, !. modEngineWave, !. logParity, !. opMismatches, !. verifyPasses, !. drain]

theorem shufflePlan {k : Shuffle} {x : XArgs} {e : Issuer} : Planned (shufflePlan k x s e) := by
  unfold Machine.shufflePlan
  grind [planned_ok, Plan.keeps_iff, !. resultPlan]

theorem votePlan {v : List DWord → List Nat → DWord} {e : Issuer} : Planned (votePlan v s e) := by
  unfold Machine.votePlan
  grind [planned_ok, Plan.keeps_iff, !. resultPlan]

theorem execTierEpoch {die} (h : MemOk s) (ht : execTierEpoch die s = .next t) : MemOk t := by
  cases ht
  exact h

theorem execGranuleMoveStart {die granule} (h : MemOk s) (ht : execGranuleMoveStart die granule s = .next t) : MemOk t := by
  unfold Machine.execGranuleMoveStart at ht
  grind [!. modDie]

theorem execPageWalkComplete {die asid va write} (h : MemOk s) (ht : execPageWalkComplete die asid va write s = .next t) : MemOk t := by
  unfold Machine.execPageWalkComplete at ht
  grind [!. walkFill]

theorem chargePage (h : MemOk s) : MemOk (s.chargePage pa) := by
  unfold State.chargePage
  grind [!. foldl, !. poke, !. dropTlb]

theorem foundInLine (h : MemOk s) : MemOk (s.foundInLine die array pa) := by
  unfold State.foundInLine
  grind [!. chargePage, !. logDie]

theorem execGranuleMoveComplete {die granule} (h : MemOk s) (ht : execGranuleMoveComplete die granule s = .next t) : MemOk t := by
  unfold Machine.execGranuleMoveComplete at ht
  grind [!. foldl, !. foundInLine, !. modDie]

theorem markWord (h : MemOk s) : MemOk (s.markWord c array index sub) := by
  unfold State.markWord
  grind [!. modCore, !. modGroup, !. modMatrix, !. spoil]

theorem execScrubbing {die array address} (h : MemOk s) (ht : execScrubbing die array address s = .next t) : MemOk t := by
  unfold Machine.execScrubbing at ht
  grind [MemOk, !. markWord, !. logCore, !. fenceDie, !. logDie, !. foundInLine]

theorem sentTo (h : MemOk s) : MemOk (s.sentTo d k acked saved) := by
  unfold State.sentTo
  grind [!. modPort]

theorem refuseFlit (h : MemOk s) : MemOk (s.refuseFlit d k first) := h

theorem execFlitReceive {die port goodCrc} (h : MemOk s) (ht : execFlitReceive die port goodCrc s = .next t) : MemOk t := by
  unfold Machine.execFlitReceive at ht
  grind [MemOk, !. sentTo, !. modPort, !. refuseFlit, !. trainLink]

theorem execNakResend {die port} (h : MemOk s) (ht : execNakResend die port s = .next t) : MemOk t := by
  unfold Machine.execNakResend at ht
  grind [!. modPort]

theorem execLinkRetrain {die port} (h : MemOk s) (ht : execLinkRetrain die port s = .next t) : MemOk t := by
  unfold Machine.execLinkRetrain at ht
  grind [!. trainLink]

theorem straightenEnd (h : MemOk s) : MemOk (s.straightenEnd d k) := by
  unfold State.straightenEnd
  grind [!. modDie]

theorem straighten (h : MemOk s) : MemOk (s.straighten d k) := by
  unfold State.straighten
  grind [!. straightenEnd]

theorem execLinkTrainingEnd {die port outcome} (h : MemOk s) (ht : execLinkTrainingEnd die port outcome s = .next t) : MemOk t := by
  unfold Machine.execLinkTrainingEnd at ht
  grind [!. modLink, !. straighten, !. linkLost]

theorem execLinkTrainingTimeout {die port} (h : MemOk s) (ht : execLinkTrainingTimeout die port s = .next t) : MemOk t := by
  unfold Machine.execLinkTrainingTimeout at ht
  grind [!. linkLost]

theorem execLinkFence {die port} (h : MemOk s) (ht : execLinkFence die port s = .next t) : MemOk t := by
  unfold Machine.execLinkFence at ht
  grind [!. fencePort]

theorem execLinkUnfence {die port} (h : MemOk s) (ht : execLinkUnfence die port s = .next t) : MemOk t := by
  unfold Machine.execLinkUnfence at ht
  grind [!. fencePort]

theorem execDieFenceOff {die off} (h : MemOk s) (ht : execDieFenceOff die off s = .next t) : MemOk t := by
  unfold Machine.execDieFenceOff at ht
  grind [!. fenceOff, !. stopDie]

theorem execMonitorRelease {die} (h : MemOk s) (ht : execMonitorRelease die s = .next t) : MemOk t := by
  unfold Machine.execMonitorRelease at ht
  grind [!. fenceDie]

theorem execPowerSample {die watts} (h : MemOk s) (ht : execPowerSample die watts s = .next t) : MemOk t := by
  unfold Machine.execPowerSample at ht
  grind [!. modDie]

theorem execLifetimeFold {die} (h : MemOk s) (ht : execLifetimeFold die s = .next t) : MemOk t := by
  unfold Machine.execLifetimeFold at ht
  grind [!. modDie]

theorem execSupplyDroop {die} (h : MemOk s) (ht : execSupplyDroop die s = .next t) : MemOk t := by
  unfold Machine.execSupplyDroop at ht
  grind [!. modDie]

theorem execTempMinuteCount {die celsius} (h : MemOk s) (ht : execTempMinuteCount die celsius s = .next t) : MemOk t := by
  unfold Machine.execTempMinuteCount at ht
  grind [!. modDie]

theorem bootDie (h : MemOk s) : MemOk (s.bootDie d place bs) := by
  unfold State.bootDie
  grind [!. modDie, !. modMonitor, !. startImage]

theorem romBoot (h : MemOk s) : MemOk (s.romBoot offered d) := by
  unfold State.romBoot
  grind [!. bootDie]

theorem writeRoutes (h : MemOk s) : MemOk (s.writeRoutes d) := h

theorem boot (h : MemOk s) : MemOk (s.boot offered) := by
  unfold State.boot
  grind [MemOk, !. foldl, !. romBoot, !. writeRoutes]

theorem afterReset : MemOk s.afterReset := State.wf_reset

theorem moduleReset : MemOk (s.moduleReset failed offered) := by
  unfold State.moduleReset
  grind [MemOk, !. foldl, !. afterReset, !. fenceDie, !. boot]

theorem execModuleReset {failed offered} (ht : execModuleReset failed offered s = .next t) : MemOk t := by
  unfold Machine.execModuleReset at ht
  grind [!. moduleReset]

theorem execBootTimeout (h : MemOk s) (ht : execBootTimeout s = .next t) : MemOk t := by
  unfold Machine.execBootTimeout at ht
  grind [!. boot]

theorem execSpdmRequest {index} (h : MemOk s) (ht : execSpdmRequest index s = .next t) : MemOk t := by
  unfold Machine.execSpdmRequest at ht
  grind [!. report]

theorem burrowQueue (h : MemOk s) : MemOk (s.burrowQueue n) := by
  unfold State.burrowQueue
  grind [!. setQueue]

theorem stopCopy (h : MemOk s) : MemOk (s.stopCopy pa ch) := by
  unfold State.stopCopy
  grind [MemOk, !. entryCount]

theorem quietQueues (h : MemOk s) : MemOk s.quietQueues := by
  unfold State.quietQueues
  grind [!. foldl, !. burrowQueue, !. stopCopy]

theorem leaveCores (h : MemOk s) : MemOk s.leaveCores := by
  unfold State.leaveCores
  grind [MemOk, !. foldl, !. askSwap, !. modCore]

theorem endBurrow (h : MemOk s) : MemOk s.endBurrow := h

theorem execBurrowEntry (h : MemOk s) (ht : execBurrowEntry s = .next t) : MemOk t := by
  unfold Machine.execBurrowEntry at ht
  grind [!. leaveCores, !. quietQueues, !. endBurrow]

theorem resumeQueue (h : MemOk s) : MemOk (s.resumeQueue n) := by
  unfold State.resumeQueue
  grind [!. setQueue]

theorem wakeUp (h : MemOk s) : MemOk s.wakeUp := h

theorem execBurrowResume {failed} (h : MemOk s) (ht : execBurrowResume failed s = .next t) : MemOk t := by
  unfold Machine.execBurrowResume at ht
  grind [MemOk, !. foldl, !. wakeUp, !. fenceDie, !. resumeQueue]

theorem execCapacityPowerLoss (h : MemOk s) (ht : execCapacityPowerLoss s = .next t) : MemOk t := by
  unfold Machine.execCapacityPowerLoss at ht
  grind [MemOk, !. moduleReset]

theorem execHostAtomicop {op bytes pa b c} (h : MemOk s) (ht : execHostAtomicop op bytes pa b c s = .next t) : MemOk t := by
  unfold Machine.execHostAtomicop at ht
  grind [!. logDie, !. poke, !. firstWrite]

theorem barByte (h : MemOk s) : MemOk (s.barByte d off byte) := by
  unfold State.barByte
  grind [!. modDie, !. raiseEvent]

theorem execHostPostedWrite {pa data} (h : MemOk s) (ht : execHostPostedWrite pa data s = .next t) : MemOk t := by
  unfold Machine.execHostPostedWrite at ht
  grind [!. foldl, !. logDie, !. poke, !. firstWrite, !. barByte]

theorem execRegisterWrite {die offset bytes value} (h : MemOk s) (ht : execRegisterWrite die offset bytes value s = .next t) : MemOk t := by
  unfold Machine.execRegisterWrite at ht
  grind [!. devStore]

theorem createQueue (h : MemOk s) : MemOk (s.createQueue d nq) := by
  unfold State.createQueue
  grind [MemOk, !. poke]

theorem bindChain (h : MemOk s) : MemOk (s.bindChain d nc) := by
  unfold State.bindChain
  grind [MemOk, !. poke]

theorem answerLog (h : MemOk s) : MemOk s.answerLog := by
  unfold State.answerLog
  grind [!. foldl, !. report]

theorem execManagementPortMessage {die m} (h : MemOk s) (ht : execManagementPortMessage die m s = .next t) : MemOk t := by
  unfold Machine.execManagementPortMessage at ht
  grind [MemOk, !. answerLog, !. raiseEvent, !. boot, !. modMonitor, !. modDie, !. stopFlow, !. createQueue, !. bindChain]

theorem illegalWord (h : MemOk s) : MemOk (s.illegalWord cl) := by
  unfold State.illegalWord
  grind [!. finishStep, !. takeTrap]

theorem imprecise (h : MemOk s) : MemOk (s.imprecise f).state := by
  cases f with
  | wave c k => exact h
  | steward d k => exact h.takeImprecise

theorem issueFlow (h : MemOk s) : MemOk (s.issueFlow f).state := by
  have hf : MemOk { s with cur := f } := h
  unfold State.issueFlow
  generalize { s with cur := f } = t at hf
  dsimp only
  split
  · exact hf
  · split
    · exact hf.imprecise
    · split
      · exact hf
      · split
        · split
          · exact hf.issued.tagIssue
          · exact hf.issued.illegalWord
        · split
          · exact hf.stopAtBoundary
          · exact hf.issued

theorem ownStep (h : MemOk s) : MemOk (s.ownStep f).state := by
  unfold State.ownStep
  split
  · split
    · exact h.swap
    · cases s.ownEvent _ <;> exact h
  · exact h
  · exact h

theorem stepTarget (h : MemOk s) : MemOk (s.stepTarget ds).state := by
  unfold State.stepTarget
  split
  · exact h.finishStep
  · split
    · exact (modFlow h).finishStep
    · split
      · exact h.finishStep
      · exact h.ownStep
    · split
      · exact h.ownStep
      · split
        · exact h
        · exact illegalWord (s := { s with cur := _ }) h

theorem schedule (h : MemOk s) : ∀ x ∈ s.schedule c sch, MemOk x.state := by
  unfold State.schedule
  intro x hx
  split at hx
  · next heq =>
    cases hx
    exact h.chore heq
  · obtain ⟨k, -, rfl⟩ := Option.map_eq_some_iff.1 hx
    exact h.issueFlow

theorem turn (h : MemOk s) : MemOk (s.turn f).state := by
  unfold State.turn
  split
  · exact h.stepTarget
  · exact h.issueFlow
  · cases hx : s.schedule _ _ with
    | none => exact h
    | some x => exact h.schedule x hx

theorem alone (h : MemOk s) : MemOk (s.alone).state := by
  unfold State.alone
  split
  · exact h.stepTarget
  · split
    · exact h.issueFlow
    · exact h.ownStep
  · cases hx : s.schedule _ _ with
    | none => exact h.ownStep
    | some x => exact h.schedule x hx

theorem choose (h : MemOk s) : MemOk (s.choose).state := by
  have hn : MemOk s.noteReady := noteReady h
  unfold State.choose
  dsimp only
  split
  · exact turn hn
  · exact turn hn
  · split <;> exact hn
  · exact hn.alone

/-- An instruction or event keeps the form of memory. -/
theorem exec {i : Instr} (h : MemOk s) (ht : Machine.exec i s = .next t) : MemOk t := by
  unfold Machine.exec at ht
  cases i with
  | iadd | isub | and | or | xor | shl | shr | mov | not | ineg | iabs | popc | clz | ctz | brev | iaddX | isubX | imul | imulh | imad | imin | imax |
  iabsX | inegX | icmp | isel | bsel | lea | movX | andX | orX | xorX | andn | notX | shlX | shrX | sar | fshl | fshr | bfx | bfi | popcX | clzX | ctzX
  | brevX | dot4I8 | dot4N8 | dot8I4 =>
    exact perform (fun _ _ _ => intPlan) h ht
  | fadd | fmul | fsub | fabs | fneg | frcp | frsq | fsqrt | fexp2 | flog2 | fsin | fcos | ftanh | fsig | ffrac | fclass | faddX | fsubX | fmulX | ffma
  | fmin | fmax | fminnum | fmaxnum | fcmp | fscale | fround | fabsX | fnegX | frcpX | frsqX | fsqrtX | fexp2X | flog2X | fsinX | fcosX | ftanhX | fsigX
  | ffracX | fclassX | dot4E4m3 | dot4E5m2 | dot8E2m1 | dot2B16 | cvtF32I32 | cvtI32F32 | cvtF32F16 | cvtF32B16 | cvtPkF16F32 | cvtPkB16F32 |
  cvtPkE4m3F32 | cvtPkE5m2F32 | cvtPkE2m1F32 | cvtUpB16E4m3 | cvtUpB16E5m2 | cvtUpB16E2m1 | cvtB16E8m0 | cvtPkI8F32 | cvtPkI4F32 =>
    exact perform (fun _ _ _ => fpPlan) h ht
  | shflIdx | shflUp | shflDown | shflXor =>
    exact perform (fun _ _ _ => shufflePlan) h ht
  | voteAny | voteAll | voteEq | ballot =>
    exact perform (fun _ _ _ => votePlan) h ht
  | aadd | amin | amax | aand | aor | axor | axchg | acas | afadd | afmin | afmax =>
    exact perform (fun _ _ h => atomicPlan h) h ht
  | csrw | csrs | csrc =>
    exact perform (fun _ _ _ => regPlan) h ht
  | ecall | queueQuiesce | queueResume | queueReset | traceBind | traceClose | codeLoad =>
    exact perform (fun _ _ _ => ecallPlan) h ht
  | hadd2 =>
    unfold Machine.execHadd2 at ht
    exact perform (fun _ _ _ => fpPlan) h ht
  | hsub2 =>
    unfold Machine.execHsub2 at ht
    exact perform (fun _ _ _ => fpPlan) h ht
  | hmul2 =>
    unfold Machine.execHmul2 at ht
    exact perform (fun _ _ _ => fpPlan) h ht
  | hfma2 =>
    unfold Machine.execHfma2 at ht
    exact perform (fun _ _ _ => fpPlan) h ht
  | hmin2 =>
    unfold Machine.execHmin2 at ht
    exact perform (fun _ _ _ => fpPlan) h ht
  | hmax2 =>
    unfold Machine.execHmax2 at ht
    exact perform (fun _ _ _ => fpPlan) h ht
  | bra => exact execBra h ht
  | bz => exact execBz h ht
  | bnz => exact execBnz h ht
  | brx => exact execBrx h ht
  | call => exact execCall h ht
  | calli => exact execCalli h ht
  | grow => exact execGrow h ht
  | fwait => exact execFwait h ht
  | ret => exact execRet h ht
  | exit => exact execExit h ht
  | trigger => exact execTrigger h ht
  | yield => exact execYield h ht
  | nop => exact execNop h ht
  | hint => exact execHint h ht
  | mergeChk => exact execMergeChk h ht
  | mergeLane => exact execMergeLane h ht
  | mergeG => exact execMergeG h ht
  | rkq => exact execRkq h ht
  | rkhome => exact execRkhome h ht
  | dots4E4m3 => exact execDots4E4m3 h ht
  | dots4E5m2 => exact execDots4E5m2 h ht
  | dots8E2m1 => exact execDots8E2m1 h ht
  | lread => exact execLread h ht
  | lwrite => exact execLwrite h ht
  | ld => exact execLd h ht
  | lds => exact execLds h ht
  | st => exact execSt h ht
  | sts => exact execSts h ht
  | lr => exact execLr h ht
  | sc => exact execSc h ht
  | fence => exact execFence h ht
  | mclaim => exact execMclaim h ht
  | mrel => exact execMrel h ht
  | mfill => exact execMfill h ht
  | mzero => exact execMzero h ht
  | mload => exact execMload h ht
  | mma => exact execMma h ht
  | mver => exact execMver h ht
  | mdrain => exact execMdrain h ht
  | mverify => exact execMverify h ht
  | mloc => exact execMloc h ht
  | mfix => exact execMfix h ht
  | mretry => exact execMretry h ht
  | mstat => exact execMstat h ht
  | barInit => exact execBarInit h ht
  | barArrive => exact execBarArrive h ht
  | barExpect => exact execBarExpect h ht
  | barWait => exact execBarWait h ht
  | barTest => exact execBarTest h ht
  | barDrop => exact execBarDrop h ht
  | wbind => exact execWbind h ht
  | wunbind => exact execWunbind h ht
  | wstat => exact execWstat h ht
  | enq => exact execEnq h ht
  | eseq => exact execEseq h ht
  | trap => exact execTrap h ht
  | brk => exact execBrk h ht
  | tret => exact execTret h ht
  | tretSkip => exact execTretSkip h ht
  | csrr => exact execCsrr h ht
  | isync => exact execIsync h ht
  | iflush => exact execIflush h ht
  | ecallAnswer => exact execEcallAnswer h ht
  | hostMailboxRequest => exact execHostMailboxRequest h ht
  | monitorVersion => exact execMonitorVersion h ht
  | imageVerify => exact execImageVerify h ht
  | imageMeasure => exact execImageMeasure h ht
  | isleWrite => exact execIsleWrite h ht
  | isleSwitch => exact execIsleSwitch h ht
  | heartbeat => exact execHeartbeat h ht
  | fuseSvn => exact execFuseSvn h ht
  | moncallUnknown => exact execMoncallUnknown h ht
  | heartbeatTimeout => exact execHeartbeatTimeout h ht
  | wfi => exact execWfi h ht
  | tlbinvAll => exact execTlbinvAll h ht
  | tlbinvAsid => exact execTlbinvAsid h ht
  | tlbinvRange => exact execTlbinvRange h ht
  | dhalt => exact execDhalt h ht
  | dresume => exact execDresume h ht
  | dstep => exact execDstep h ht
  | dread => exact execDread h ht
  | dwrite => exact execDwrite h ht
  | clauseStart => exact execClauseStart h ht
  | waveSwap => exact execWaveSwap h ht
  | pendingStarvationTimeout => exact execPendingStarvationTimeout h ht
  | memoryResponse => exact execMemoryResponse h ht
  | impreciseFault => exact execImpreciseFault h ht
  | octetReturn => exact execOctetReturn h ht
  | sectorLanding => exact execSectorLanding h ht
  | stageSourceFailure => exact execStageSourceFailure h ht
  | barrierWake => exact execBarrierWake h ht
  | globalBarrierRetest => exact execGlobalBarrierRetest h ht
  | mfillComplete => exact execMfillComplete h ht
  | matrixOpStart => exact execMatrixOpStart h ht
  | matrixOpComplete => exact execMatrixOpComplete h ht
  | qdoorbell => exact execQdoorbell h ht
  | launchPacket => exact execLaunchPacket h ht
  | waitPacket => exact execWaitPacket h ht
  | waitSatisfied => exact execWaitSatisfied h ht
  | markPacket => exact execMarkPacket h ht
  | markSignal => exact execMarkSignal h ht
  | stewardTick => exact execStewardTick h ht
  | groupPlace => exact execGroupPlace h ht
  | compactionDrainStart => exact execCompactionDrainStart h ht
  | preempt => exact execPreempt h ht
  | snapshotCopy => exact execSnapshotCopy h ht
  | stewardFaultDispatch => exact execStewardFaultDispatch h ht
  | replayRestoreDone => exact execReplayRestoreDone h ht
  | contextCreate => exact execContextCreate h ht
  | contextTeardown => exact execContextTeardown h ht
  | swap => exact execSwap h ht
  | swapEnd => exact execSwapEnd h ht
  | spillComplete => exact execSpillComplete h ht
  | restore => exact execRestore h ht
  | restoreComplete => exact execRestoreComplete h ht
  | pageWalkComplete => exact execPageWalkComplete h ht
  | tierEpoch => exact execTierEpoch h ht
  | granuleMoveStart => exact execGranuleMoveStart h ht
  | granuleMoveComplete => exact execGranuleMoveComplete h ht
  | flitReceive => exact execFlitReceive h ht
  | nakResend => exact execNakResend h ht
  | linkRetrain => exact execLinkRetrain h ht
  | linkTrainingEnd => exact execLinkTrainingEnd h ht
  | linkTrainingTimeout => exact execLinkTrainingTimeout h ht
  | linkFence => exact execLinkFence h ht
  | linkUnfence => exact execLinkUnfence h ht
  | entryStart => exact execEntryStart h ht
  | collectiveMatch => exact execCollectiveMatch h ht
  | routineCall => exact execRoutineCall h ht
  | routineReturn => exact execRoutineReturn h ht
  | routineTimeout => exact execRoutineTimeout h ht
  | entryComplete => exact execEntryComplete h ht
  | hostAtomicop => exact execHostAtomicop h ht
  | foxRead => exact execFoxRead h ht
  | trailRecord => exact execTrailRecord h ht
  | gangHalt => exact execGangHalt h ht
  | dieFenceOff => exact execDieFenceOff h ht
  | monitorRelease => exact execMonitorRelease h ht
  | lifetimeFold => exact execLifetimeFold h ht
  | powerSample => exact execPowerSample h ht
  | moduleReset => exact execModuleReset ht
  | bootTimeout => exact execBootTimeout h ht
  | spdmRequest => exact execSpdmRequest h ht
  | burrowEntry => exact execBurrowEntry h ht
  | burrowResume => exact execBurrowResume h ht
  | capacityPowerLoss => exact execCapacityPowerLoss h ht
  | registerWrite => exact execRegisterWrite h ht
  | hostPostedWrite => exact execHostPostedWrite h ht
  | managementPortMessage => exact execManagementPortMessage h ht
  | scrubbing => exact execScrubbing h ht
  | supplyDroop => exact execSupplyDroop h ht
  | tempMinuteCount => exact execTempMinuteCount h ht

theorem step (h : MemOk s) (ht : Machine.step s = .next t) : MemOk t := by
  have hc := h.choose
  unfold Machine.step at ht
  split at ht <;> rename_i heq <;> rw [heq] at hc
  · exact exec hc ht
  · exact Host.Outcome.next.inj ht ▸ hc

end MemOk

/-- Settles O8: every function that gives a next state keeps memory in canonical form, and so does a step. -/
theorem stepKeepsMemory : Obligations.StepKeepsMemory := fun _ _ h ht => h.step ht

end Sys2Proof
end

