-- ==== Sys2Proof/Proofs/Alignment.lean ====
section
/-! Lemmas and proof: what the checks of an access write in the leaf entries at which walks end, and a misaligned access (R108, R224, R289, R292, R392). -/

namespace Sys2Proof

open Sys2Proof.Machine

/-! ### The bytes of a leaf entry (R224) -/

theorem bytesOfNat_natOfBytes (bs : List Byte) : bytesOfNat bs.length (natOfBytes bs) = bs := by
  induction bs with
  | nil => rfl
  | cons b bs ih =>
    have hb : b.toNat < 256 := b.isLt
    have hdiv : (b.toNat + 256 * natOfBytes bs) / 256 = natOfBytes bs := by omega
    rw [natOfBytes, List.length_cons, bytesOfNat, hdiv, ih]
    congr 1
    apply BitVec.eq_of_toNat_eq
    rw [BitVec.toNat_ofNat]
    omega

/-- Bits below 256 that are set in a number change only its low byte. -/
theorem bytesOfNat_or_low (n v m : Nat) (h : m < 256) : bytesOfNat (n + 1) (v ||| m) = (BitVec.ofNat 8 v ||| BitVec.ofNat 8 m) :: bytesOfNat n (v / 256) := by
  have hdiv : (v ||| m) / 256 = v / 256 := by
    show (v ||| m) / 2 ^ 8 = v / 2 ^ 8
    rw [Nat.or_div_two_pow, Nat.div_eq_of_lt (show m < 2 ^ 8 from h), Nat.or_zero]
  rw [bytesOfNat, hdiv, BitVec.ofNat_or]

theorem Machine.State.bytes_succ (s : State) (a n : Nat) : s.bytes a (n + 1) = s.byte a :: s.bytes (a + 1) n := by
  unfold State.bytes Memory.read State.byte
  rw [List.range_succ_eq_map, List.map_cons, List.map_map]
  refine congrArg _ (List.map_congr_left fun i _ => ?_)
  show Tab.getD s.mem (a + (i + 1)) 0 = _
  rw [Nat.add_comm i 1, Nat.add_assoc]

theorem Machine.State.getD_bytes (s : State) (a n k : Nat) (h : k < n) : (s.bytes a n).getD k 0 = s.byte (a + k) := by
  unfold State.bytes Memory.read State.byte
  rw [List.getD_eq_getElem?_getD, List.getElem?_map, List.getElem?_range h]
  rfl

/-- An entry written back with bits below 256 set: its low byte has gained them, and every other byte is as before. -/
theorem Machine.State.byte_poke_or (s : State) (entry m : Nat) (h : m < 256) (atomic : Bool) (tag : Option SyncTag) (a : Nat) :
    (s.poke entry (bytesOfNat 8 (s.tableWord entry ||| m)) atomic tag).byte a = if a = entry then s.byte a ||| BitVec.ofNat 8 m else s.byte a := by
  obtain ⟨b, bs, hbs⟩ : ∃ b bs, s.bytes entry 8 = b :: bs := ⟨_, _, s.bytes_succ entry 7⟩
  have hlen : bs.length = 7 := by
    have := s.length_bytes entry 8
    rw [hbs] at this
    simpa using this
  have hword : natOfBytes (b :: bs) / 256 = natOfBytes bs := by
    have hb : b.toNat < 256 := b.isLt
    rw [natOfBytes]
    omega
  have hlow : BitVec.ofNat 8 (natOfBytes (b :: bs)) = b := by
    have hb : b.toNat < 256 := b.isLt
    apply BitVec.eq_of_toNat_eq
    rw [BitVec.toNat_ofNat, natOfBytes]
    omega
  have hnew : bytesOfNat 8 (s.tableWord entry ||| m) = (b ||| BitVec.ofNat 8 m) :: bs := by
    rw [State.tableWord, hbs, bytesOfNat_or_low 7 _ m h, hword, hlow, ← hlen, bytesOfNat_natOfBytes]
  have hget (k : Nat) (hk : k < 8) : (b :: bs).getD k 0 = s.byte (entry + k) := by rw [← hbs, s.getD_bytes entry 8 k hk]
  rw [s.byte_poke, hnew, List.length_cons, hlen]
  by_cases ha : a = entry
  · subst ha
    have := hget 0 (by decide)
    simp only [List.getD_cons_zero, Nat.add_zero] at this
    simp [this]
  · rw [if_neg ha]
    split
    · next hin =>
      obtain ⟨k, rfl⟩ : ∃ k, a = entry + (k + 1) := ⟨a - entry - 1, by omega⟩
      rw [show entry + (k + 1) - entry = k + 1 by omega, List.getD_cons_succ, ← hget (k + 1) (by omega), List.getD_cons_succ]
    · rfl

/-! ### Accessed and dirty bits that are set (R224) -/

/-- Accessed and dirty bits gained one after another are gained. -/
theorem Gained.trans {s t u : State} {a : Nat} (h : Gained s t a) (k : Gained t u a) : Gained s u a := by
  have hor (x y : Byte) (hx : x = 0x40 ∨ x = 0x80 ∨ x = 0xC0) (hy : y = 0x40 ∨ y = 0x80 ∨ y = 0xC0) : x ||| y = 0x40 ∨ x ||| y = 0x80 ∨ x ||| y = 0xC0 := by
    rcases hx with rfl | rfl | rfl <;> rcases hy with rfl | rfl | rfl <;> decide
  unfold Gained at *
  rcases k with k | ⟨y, hy, k⟩
  · rw [k]; exact h
  · rcases h with h | ⟨x, hx, h⟩
    · exact .inr ⟨y, hy, by rw [k, h]⟩
    · exact .inr ⟨x ||| y, hor x y hx hy, by rw [k, h, BitVec.or_assoc]⟩

/-- The checks of a flow's accesses for some addresses have changed no byte but those of leaf entries, and neither its ASID nor a die's root array. -/
structure Marks (f : Flow) (vas : List Nat) (s t : State) : Prop where
  leaves : MarkedLeaves s t f vas
  asid : t.asidOf f = s.asidOf f
  roots : ∀ d, (t.die d).walkRoot = (s.die d).walkRoot

namespace Marks

variable {f : Flow} {vas : List Nat} {s t u : State}

theorem of_mem (hm : t.mem = s.mem) (ha : t.asidOf f = s.asidOf f) (hr : ∀ d, (t.die d).walkRoot = (s.die d).walkRoot) : Marks f vas s t :=
  ⟨fun a => .inl (by rw [State.byte, hm]; rfl), ha, hr⟩

theorem refl (f : Flow) (vas : List Nat) (s : State) : Marks f vas s s := of_mem rfl rfl fun _ => rfl

theorem gained (h : Marks f vas s t) (a : Nat) : Gained s t a := (h.leaves a).elim .inl And.left

theorem mono {vas' : List Nat} (h : Marks f vas s t) (hv : ∀ va ∈ vas, va ∈ vas') : Marks f vas' s t := by
  refine ⟨fun a => (h.leaves a).imp_right fun ⟨hg, va, hva, hw⟩ => ⟨hg, va, hv va hva, hw⟩, h.asid, h.roots⟩

theorem trans (h : Marks f vas s t) (k : Marks f vas t u) : Marks f vas s u := by
  refine ⟨fun a => ?_, k.asid.trans h.asid, fun d => (k.roots d).trans (h.roots d)⟩
  rcases k.leaves a with ha | ⟨hg, va, hva, v, base, size, pa, pte, hwalk, hv, hroot⟩
  · rcases h.leaves a with hb | ⟨hg, hw⟩
    · exact .inl (ha.trans hb)
    · exact .inr ⟨hg.trans (.inl ha), hw⟩
  · exact .inr ⟨(h.gained a).trans hg, va, hva, v, base, size, pa, pte, h.asid ▸ hwalk, fun b => (h.gained b).trans (hv b), fun d => (hroot d).trans (h.roots d)⟩

theorem modDie (f : Flow) (vas : List Nat) (s : State) (d : Nat) (g : Die → Die) (h : ∀ q, (g q).walkRoot = q.walkRoot) : Marks f vas s (s.modDie d g) := by
  refine of_mem rfl ?_ fun d' => ?_
  · cases f <;> rfl
  · rw [s.die_modDie]
    split
    · next hd => rw [h]
    · rfl

theorem modCore (f : Flow) (vas : List Nat) (s : State) (c : Nat) (g : Core → Core) (h : ∀ q, (g q).asid = q.asid) : Marks f vas s (s.modCore c g) := by
  refine of_mem rfl ?_ fun _ => rfl
  cases f with
  | steward d k => rfl
  | wave c' k =>
    show ((s.modCore c g).core c').asid = (s.core c').asid
    rw [s.core_modCore]
    split
    · next hc => rw [h]
    · rfl

theorem foldl {α : Type} (g : State → α → State) (h : ∀ s a, Marks f vas s (g s a)) (l : List α) (s : State) : Marks f vas s (l.foldl g s) := by
  induction l generalizing s with
  | nil => exact refl f vas s
  | cons a l ih => exact (h s a).trans (ih (g s a))

theorem countGranule (f : Flow) (vas : List Nat) (s : State) (pa n : Nat) (write : Bool) : Marks f vas s (s.countGranule pa n write) := by
  unfold State.countGranule
  split
  · exact refl f vas s
  · have hfresh : Marks f vas s { s with fresh := s.fresh + 1 } := of_mem rfl (by cases f <;> rfl) fun _ => rfl
    exact hfresh.trans (modDie f vas _ _ _ fun _ => rfl)

theorem poke (f : Flow) (vas : List Nat) (s : State) (pa : Nat) (bs : List Byte) (atomic : Bool) (tag : Option SyncTag) :
    (s.poke pa bs atomic tag).asidOf f = s.asidOf f ∧ ∀ d, ((s.poke pa bs atomic tag).die d).walkRoot = (s.die d).walkRoot := by
  have h (u : State) := countGranule f vas u pa bs.length true
  exact ⟨(h _).asid.trans (by cases f <;> rfl), (h _).roots⟩

theorem pinLeaf (f : Flow) (vas : List Nat) (s : State) (pa size pte : Nat) : Marks f vas s (s.pinLeaf pa size pte) := by
  unfold State.pinLeaf
  dsimp only
  split
  · exact modDie f vas s _ _ fun _ => rfl
  · exact refl f vas s

end Marks

@[simp] theorem Machine.State.mem_pinLeaf (s : State) (pa size pte : Nat) : (s.pinLeaf pa size pte).mem = s.mem := by
  unfold State.pinLeaf
  dsimp only
  split <;> rfl

/-- A walk that ends at a leaf ends with the word of its entry. -/
theorem Machine.State.walkFrom_word {s : State} {die va table level : Nat} {wide : Bool} {fuel entry base size pa pte : Nat}
    (h : s.walkFrom die va table level wide fuel = .leaf entry base size pa pte) : pte = s.tableWord entry := by
  induction fuel generalizing table level wide with
  | zero => cases h
  | succ fuel ih =>
    unfold State.walkFrom at h
    dsimp only at h
    split_ifs at h
    · cases h; rfl
    · exact ih h

theorem Machine.State.walk_word {s : State} {die asid va entry base size pa pte : Nat} (h : s.walk die asid va = .leaf entry base size pa pte) : pte = s.tableWord entry := by
  unfold State.walk at h
  dsimp only at h
  split_ifs at h
  exact State.walkFrom_word h

namespace Marks

variable {f : Flow} {vas : List Nat} {s t u : State}

/-- The leaf entry at which a walk has ended gains its bits. -/
theorem touchLeaf {va entry base size pa pte : Nat} (hwalk : s.walk (flowDie f) (s.asidOf f) va = .leaf entry base size pa pte) (h : Marks f [va] s t) (hm : t.mem = s.mem)
    (write : Bool) : Marks f [va] s (t.touchLeaf entry pte write).1 := by
  obtain ⟨m, hm256, hmask, hor⟩ : ∃ m, m < 256 ∧ (BitVec.ofNat 8 m = 0x40#8 ∨ BitVec.ofNat 8 m = 0x80#8 ∨ BitVec.ofNat 8 m = 0xC0#8) ∧
      (pte ||| 0x40 ||| if write then 0x80 else 0) = pte ||| m := by
    cases write
    · exact ⟨0x40, by decide, .inl rfl, Nat.or_zero _⟩
    · exact ⟨0xC0, by decide, .inr (.inr rfl), by rw [if_pos rfl, Nat.or_assoc]; rfl⟩
  have hword : pte = t.tableWord entry := by
    rw [State.walk_word hwalk, State.tableWord, State.tableWord, State.bytes, State.bytes, hm]
  unfold State.touchLeaf
  dsimp only
  rw [hor]
  split
  · exact h
  · rw [hword]
    have hbyte := t.byte_poke_or entry m hm256 false none
    have ht : ∀ a, t.byte a = s.byte a := fun a => by rw [State.byte, hm]; rfl
    refine ⟨fun a => ?_, ?_, fun d => ?_⟩
    · rw [hbyte]
      split
      · next ha =>
        refine .inr ⟨.inr ⟨BitVec.ofNat 8 m, hmask, (hbyte a).trans (by rw [if_pos ha, ht])⟩, va, List.mem_singleton_self _, s, base, size, pa, pte, ha ▸ hwalk, fun b => .inl rfl, fun _ => rfl⟩
      · exact .inl (ht a)
    · rw [← h.asid]
      exact (poke f [va] t entry _ false none).1
    · rw [← h.roots]
      exact (poke f [va] t entry _ false none).2 d

/-- A walk leaves memory but for the bits of the leaf entry at which it ends. -/
theorem walkFill (f : Flow) (s : State) (va : Nat) (use : Use) (steward : Bool) : Marks f [va] s (s.walkFill (flowDie f) (s.asidOf f) va use steward).1 := by
  have hcount : Marks f [va] s ((s.walkEntries (flowDie f) (s.asidOf f) va).foldl (fun s a => s.countGranule a 8 false) s) :=
    foldl _ (fun s a => countGranule f _ s a 8 false) _ s
  have hmem : ((s.walkEntries (flowDie f) (s.asidOf f) va).foldl (fun s a => s.countGranule a 8 false) s).mem = s.mem :=
    List.foldlRecOn (motive := fun t => t.mem = s.mem) _ _ rfl fun t ht a _ => (State.mem_countGranule t a 8 false).trans ht
  unfold State.walkFill
  generalize (s.walkEntries (flowDie f) (s.asidOf f) va).foldl (fun s a => s.countGranule a 8 false) s = t at hcount hmem
  dsimp only
  split
  · exact hcount
  · next entry base size pa pte hwalk =>
    have hpin := hcount.trans (pinLeaf f _ t pa size pte)
    have hpinmem : (t.pinLeaf pa size pte).mem = s.mem := (t.mem_pinLeaf pa size pte).trans hmem
    split
    · exact hpin
    · refine (touchLeaf hwalk hpin hpinmem (use == .write)).trans ?_
      dsimp only
      exact modDie f _ _ _ _ fun _ => rfl

theorem translateDie (f : Flow) (s : State) (va : Nat) (use : Use) (steward : Bool) : Marks f [va] s (s.translateDie (flowDie f) (s.asidOf f) va use steward).1 := by
  unfold State.translateDie
  split
  · exact refl f _ s
  · exact walkFill ..

theorem translate (hs : SoundFor f s) (va : Nat) (use : Use) : Marks f [va] s (s.translate f (s.asidOf f) va use).1 := by
  have h := translateDie f s va use (isSteward f)
  have ha := Accessed.translateDie f s (flowDie f) (s.asidOf f) va use (isSteward f)
  unfold State.translate
  cases f with
  | steward d k =>
    change Marks _ _ _ (s.translateDie d (s.asidOf (.steward d k)) va use (isSteward (.steward d k))).1 at h
    dsimp only
    split <;> next heq => rw [heq] at h; exact h
  | wave c k =>
    change Marks _ _ _ (s.translateDie (dieOf c) (s.asidOf (.wave c k)) va use (isSteward (.wave c k))).1 at h
    change Accessed _ _ (s.translateDie (dieOf c) (s.asidOf (.wave c k)) va use (isSteward (.wave c k))).1 at ha
    dsimp only
    split
    · exact refl _ _ s
    · split
      · next t u heq =>
        rw [heq] at h ha
        refine h.trans ?_
        have henter : Accessed (.wave c k) t (t.modCore c (fun q => { q with l1 := enterTlb 128 u q.l1 })) := Accessed.modCore _ t c _ (fun _ => rfl) (fun _ => rfl)
        unfold State.l1Written
        simp only [Core.sound_not_armed (henter.sound (ha.sound hs) c k rfl), Bool.false_eq_true, if_false]
        exact modCore _ _ t c _ fun _ => rfl
      · next heq => rw [heq] at h; exact h

theorem checkGlobal (hs : SoundFor f s) (va bytes : Nat) (use : Use) (k : AccessKind) (lane : Nat) : Marks f [va] s (s.checkGlobal f va bytes use k lane).1 := by
  have h := translate hs va use
  unfold State.checkGlobal State.checkGlobalAs
  split
  · exact refl f _ s
  · split
    · exact refl f _ s
    · split
      · next heq => rw [heq] at h; exact h
      · next heq =>
        rw [heq] at h
        split <;> exact h

theorem checkLanes (bytes : Nat) (use : Use) (k : AccessKind) (ls : List (Nat × Nat)) (hs : SoundFor f s) :
    Marks f (ls.map Prod.snd) s (s.checkLanes f bytes use k ls).1 := by
  induction ls generalizing s with
  | nil => exact refl f _ s
  | cons a ls ih =>
    obtain ⟨l, va⟩ := a
    have hone := checkGlobal hs va bytes use k l
    have hrest := ih ((Accessed.checkGlobal hs va bytes use k l).sound hs)
    unfold State.checkLanes
    generalize s.checkGlobal f va bytes use k l = r at *
    obtain ⟨s1, r⟩ := r
    have hboth : Marks f (va :: ls.map Prod.snd) s (s1.checkLanes f bytes use k ls).1 :=
      (hone.mono fun v hv => by rw [List.mem_singleton.1 hv]; exact List.mem_cons_self).trans (hrest.mono fun v hv => List.mem_cons_of_mem _ hv)
    cases r <;> exact hboth

end Marks

/-! ### The faults of the lanes (R292, R392) -/

theorem Machine.Trap.before_iff_lane {a b : Trap} (h : a.code = b.code) (h6 : b.code ≠ 0x06) : a.before b = true ↔ a.lane < b.lane := by
  unfold Trap.before
  rw [if_neg (not_not_intro h), if_neg (fun hc => h6 (h ▸ hc.1)), decide_eq_true_iff]

theorem Machine.Trap.before_of_code {a b : Trap} (h : a.code < b.code) : a.before b = true ∧ b.before a = false := by
  unfold Trap.before
  rw [if_pos (by omega), if_pos (by omega)]
  exact ⟨decide_eq_true h, decide_eq_false (by omega)⟩

/-- The fault that is taken is one of the lanes', of the lowest code, and but for page faults of the lowest lane with it. -/
theorem Machine.Trap.first_of_ne_nil {ts : List Trap} (h : ts ≠ []) :
    ∃ t ∈ ts, Trap.first ts = some t ∧ ∀ u ∈ ts, t.code ≤ u.code ∧ (u.code = t.code → t.code ≠ 0x06 → t.lane ≤ u.lane) := by
  induction ts with
  | nil => exact absurd rfl h
  | cons t ts ih =>
    unfold Trap.first
    by_cases hts : ts = []
    · subst hts
      exact ⟨t, List.mem_cons_self, rfl, fun u hu => by rw [List.mem_singleton.1 hu]; exact ⟨le_rfl, fun _ _ => le_rfl⟩⟩
    · obtain ⟨v, hv, hfirst, hmin⟩ := ih hts
      rw [hfirst]
      dsimp only
      have hcodes : (v.before t = true → v.code ≤ t.code ∧ (t.code = v.code → v.code ≠ 0x06 → v.lane ≤ t.lane)) ∧
          (v.before t = false → t.code ≤ v.code ∧ (v.code = t.code → t.code ≠ 0x06 → t.lane ≤ v.lane)) := by
        rcases Nat.lt_trichotomy v.code t.code with h | h | h
        · refine ⟨fun _ => ⟨h.le, by omega⟩, fun hb => ?_⟩
          rw [(Trap.before_of_code h).1] at hb
          cases hb
        · refine ⟨fun hb => ⟨h.le, fun _ h6 => ?_⟩, fun hb => ⟨h.ge, fun _ h6 => ?_⟩⟩
          · exact ((Trap.before_iff_lane h (h ▸ h6)).1 hb).le
          · refine Nat.le_of_not_lt fun hlt => ?_
            rw [(Trap.before_iff_lane h h6).2 hlt] at hb
            cases hb
        · refine ⟨fun hb => ?_, fun _ => ⟨h.le, by omega⟩⟩
          rw [(Trap.before_of_code h).2] at hb
          cases hb
      cases hb : v.before t with
      | true =>
        rw [if_pos rfl]
        refine ⟨v, List.mem_cons_of_mem _ hv, rfl, fun u hu => ?_⟩
        rcases List.mem_cons.1 hu with rfl | hu
        · exact hcodes.1 hb
        · exact hmin u hu
      | false =>
        rw [if_neg Bool.false_ne_true]
        refine ⟨t, List.mem_cons_self, rfl, fun u hu => ?_⟩
        rcases List.mem_cons.1 hu with rfl | hu
        · exact ⟨le_rfl, fun _ _ => le_rfl⟩
        · obtain ⟨hcode, hlane⟩ := hmin u hu
          obtain ⟨hle, heq⟩ := hcodes.2 hb
          exact ⟨hle.trans hcode, fun hu6 h6 => (heq (by omega) h6).trans (hlane (by omega) (by omega))⟩

/-- A misaligned access faults with code 0x04, and no other fault of an access has that code or a lower one (R392). -/
theorem Machine.State.checkGlobal_misaligned (s : State) (f : Flow) (va bytes : Nat) (use : Use) (k : AccessKind) (lane : Nat) :
    (va % bytes ≠ 0 → (s.checkGlobal f va bytes use k lane).2 = .error { code := 0x04, addr := va, lane }) ∧
      (va % bytes = 0 → ∀ t, (s.checkGlobal f va bytes use k lane).2 = .error t → 0x04 < t.code) := by
  unfold State.checkGlobal State.checkGlobalAs
  refine ⟨fun h => by rw [if_pos h], fun h t ht => ?_⟩
  rw [if_neg (not_not_intro h)] at ht
  split at ht
  · cases ht
    exact (by decide : 0x04 < 0x05)
  · split at ht
    · cases ht
      unfold pageTrap
      split
      · exact (by decide : 0x04 < 0x07)
      · exact (by decide : 0x04 < 0x06)
    · split at ht
      · cases ht
        exact (by decide : 0x04 < 0x07)
      · cases ht

/-- The misaligned lanes' traps among the faults of the checks of some lanes: all of code 0x04, and none of a lower one. -/
theorem Machine.State.checkLanes_misaligned (f : Flow) (bytes : Nat) (use : Use) (k : AccessKind) (ls : List (Nat × Nat)) (s : State) :
    (∀ x ∈ ls, x.2 % bytes ≠ 0 → ({ code := 0x04, addr := x.2, lane := x.1 } : Trap) ∈ (s.checkLanes f bytes use k ls).2.1) ∧
      ∀ t ∈ (s.checkLanes f bytes use k ls).2.1, 0x04 ≤ t.code ∧
        (t.code = 0x04 → ∃ x ∈ ls, x.2 % bytes ≠ 0 ∧ t = { code := 0x04, addr := x.2, lane := x.1 }) := by
  induction ls generalizing s with
  | nil => exact ⟨fun x hx => absurd hx List.not_mem_nil, fun t ht => absurd ht List.not_mem_nil⟩
  | cons a ls ih =>
    obtain ⟨l, va⟩ := a
    have hone := s.checkGlobal_misaligned f va bytes use k l
    unfold State.checkLanes
    generalize s.checkGlobal f va bytes use k l = r at *
    obtain ⟨s1, r⟩ := r
    obtain ⟨hin, hout⟩ := ih s1
    cases r with
    | ok pa =>
      refine ⟨fun x hx hmis => ?_, fun t ht => ?_⟩
      · rcases List.mem_cons.1 hx with rfl | hx
        · cases hone.1 hmis
        · exact hin x hx hmis
      · obtain ⟨hle, heq⟩ := hout t ht
        exact ⟨hle, fun h4 => (heq h4).imp fun x hx => ⟨List.mem_cons_of_mem _ hx.1, hx.2⟩⟩
    | error u =>
      refine ⟨fun x hx hmis => ?_, fun t ht => ?_⟩
      · rcases List.mem_cons.1 hx with rfl | hx
        · cases hone.1 hmis
          exact List.mem_cons_self
        · exact List.mem_cons_of_mem _ (hin x hx hmis)
      · rcases List.mem_cons.1 ht with rfl | ht
        · by_cases hmis : va % bytes = 0
          · have := hone.2 hmis t rfl
            exact ⟨this.le, fun h4 => by omega⟩
          · cases hone.1 hmis
            exact ⟨le_rfl, fun _ => ⟨_, List.mem_cons_self, hmis, rfl⟩⟩
        · obtain ⟨hle, heq⟩ := hout t ht
          exact ⟨hle, fun h4 => (heq h4).imp fun x hx => ⟨List.mem_cons_of_mem _ hx.1, hx.2⟩⟩

/-! ### A trap leaves the data (R290, R297, R302) -/

theorem SameFlows.countChecksum_dropTag (s : State) (f : Flow) (r : TrapRegs) : Machine.SameFlows s ((s.countChecksum f r).dropTag f) := by
  refine Machine.SameFlows.trans (t := s.countChecksum f r) ?_ (Machine.SameFlows.dropTag _ f)
  unfold State.countChecksum
  split
  · split
    · exact Machine.SameFlows.modDie s _ _
    · exact Machine.SameFlows.refl s
  · exact Machine.SameFlows.refl s

/-- The record of a flow behind a fence (R140, R142). -/
def Machine.State.fenced (s : State) (f : Flow) (run : LaneMask) (release acquire : Option Nat) (w : Wave) : Wave :=
  let w := match release with
    | some k => { w with fences := (LaneMask.toList run).foldl (fun t l => t.set l (max k (t.getD l 0))) w.fences }
    | none => w
  match acquire with
  | some k => if w.seen.any (fun x => run.getLsbD x.1 && s.drops f k x.2) then { w with wstat := { w.wstat with scope := true } } else w
  | none => w

theorem Machine.State.fenceRun_eq (s : State) (f : Flow) (run : LaneMask) (release acquire : Option Nat) :
    s.fenceRun f run release acquire = s.modFlow f (s.fenced f run release acquire) := by rfl

/-- Neither a byte of memory nor a variable has changed. -/
structure KeepsData (s t : State) : Prop where
  mem : t.mem = s.mem
  vars : ∀ f x l, varAt t f x l = varAt s f x l

namespace KeepsData

variable {s t u : State}

theorem refl (s : State) : KeepsData s s := ⟨rfl, fun _ _ _ => rfl⟩

theorem trans (h : KeepsData s t) (k : KeepsData t u) : KeepsData s u := ⟨k.mem.trans h.mem, fun f x l => (k.vars f x l).trans (h.vars f x l)⟩

theorem modFlow (s : State) (f : Flow) (g : Wave → Wave) (hg : ∀ w, (g w).group = w.group) (h : ∀ w x l, (g w).sameVar w x l) : KeepsData s (s.modFlow f g) :=
  ⟨s.mem_modFlow f g, fun f' x l => varAt_modFlow_same s f g f' x l hg fun w => h w x l⟩

theorem modDie (s : State) (d : Nat) (g : Die → Die) (h : (g (s.die d)).stewards = (s.die d).stewards := by rfl) : KeepsData s (s.modDie d g) :=
  ⟨rfl, (SameFlows.modDie s d g h).varAt⟩

theorem dropTag (s : State) (f : Flow) : KeepsData s (s.dropTag f) := by
  refine ⟨?_, (SameFlows.dropTag s f).varAt⟩
  unfold State.dropTag
  split
  · rfl
  · dsimp only
    split <;> rfl

theorem countChecksum (s : State) (f : Flow) (r : TrapRegs) : KeepsData s (s.countChecksum f r) := by
  unfold State.countChecksum
  split
  · split
    · exact modDie s _ _
    · exact refl s
  · exact refl s

theorem raiseEvent (s : State) (d k : Nat) : KeepsData s (s.raiseEvent d k) := modDie s d _

theorem report (s : State) (d what value : Nat) : KeepsData s (s.report d what value) := ⟨rfl, fun f x l => by cases f <;> rfl⟩

theorem freeze (s : State) (d : Nat) (a b : TrapRegs) : KeepsData s (s.freeze d a b) := by
  unfold State.freeze
  refine KeepsData.trans (modDie s d _ ?_) (report ..)
  rfl

theorem holdFlow (s : State) (f : Flow) : KeepsData s (s.modFlow f (fun w => { w with park := some .steward })) :=
  modFlow s f _ (fun _ => rfl) fun _ _ _ => ⟨rfl, rfl, rfl, rfl⟩

theorem passToSteward (s : State) (f : Flow) (r : TrapRegs) (nested : Bool) : KeepsData s (s.passToSteward f r nested) := by
  unfold State.passToSteward
  refine (holdFlow s f).trans (KeepsData.trans (modDie _ (flowDie f) _ ?_) (raiseEvent ..))
  rfl

/-- A fence changes no variable and no group of its flow, nor whether it is traced. -/
theorem fenceRun (s : State) {f : Flow} {w : Wave} (hf : s.flow? f = some w) (run : LaneMask) (release acquire : Option Nat) :
    KeepsData s (s.fenceRun f run release acquire) ∧ ∃ v, (s.fenceRun f run release acquire).flow? f = some v ∧ v.traced = w.traced := by
  have hkeeps (w : Wave) : let v := s.fenced f run release acquire w; v.group = w.group ∧ v.traced = w.traced ∧ ∀ x l, v.sameVar w x l := by
    unfold State.fenced
    cases release <;> cases acquire <;> dsimp only
    · exact ⟨rfl, rfl, fun _ _ => ⟨rfl, rfl, rfl, rfl⟩⟩
    · split <;> exact ⟨rfl, rfl, fun _ _ => ⟨rfl, rfl, rfl, rfl⟩⟩
    · exact ⟨rfl, rfl, fun _ _ => ⟨rfl, rfl, rfl, rfl⟩⟩
    · split <;> exact ⟨rfl, rfl, fun _ _ => ⟨rfl, rfl, rfl, rfl⟩⟩
  refine ⟨modFlow s f _ (fun w => (hkeeps w).1) (fun w => (hkeeps w).2.2), s.fenced f run release acquire w, ?_, (hkeeps w).2.1⟩
  rw [s.fenceRun_eq, s.flow?_modFlow_self, hf]
  rfl

/-- A trap entry of a flow that is not traced writes no trace record (R297, R463). -/
theorem enterHandler {f : Flow} {w : Wave} (hf : s.flow? f = some w) (ht : w.traced = false) (r : TrapRegs) : KeepsData s (s.enterHandler f r) := by
  obtain ⟨hfence, v, hv, hvt⟩ := fenceRun s hf w.live (some 4) (some 4)
  have hfabric : s.fabricFence f = s.fenceRun f w.live (some 4) (some 4) := by
    unfold State.fabricFence
    rw [hf]
  unfold State.enterHandler
  dsimp only
  rw [hfabric]
  have hdrop : KeepsData (s.fenceRun f w.live (some 4) (some 4)) ((s.fenceRun f w.live (some 4) (some 4)).dropReservations f) :=
    ⟨rfl, fun g x l => by cases g <;> rfl⟩
  have hflow : ((s.fenceRun f w.live (some 4) (some 4)).dropReservations f).flow? f = some v := by rw [← hv]; cases f <;> rfl
  generalize (s.fenceRun f w.live (some 4) (some 4)).dropReservations f = u at hdrop hflow
  rw [State.traceEvent_untraced ((u.flow?_modFlow_self f _).trans (congrArg (Option.map _) hflow)) (hvt.trans ht)]
  exact (hfence.trans hdrop).trans (modFlow u f _ (fun _ => rfl) fun _ _ _ => ⟨rfl, rfl, rfl, rfl⟩)

/-- Taking a trap changes no byte of memory and no variable, where its flow is not traced. -/
theorem takeTrap {f : Flow} {w : Wave} (hf : s.flow? f = some w) (ht : w.traced = false) (r : TrapRegs) : KeepsData s (s.takeTrap f r) := by
  have hone := (countChecksum s f r).trans (dropTag (s.countChecksum f r) f)
  obtain ⟨x, hflow⟩ := (Sys2Proof.SameFlows.countChecksum_dropTag s f r).flow hf
  unfold State.takeTrap
  rw [hf]
  dsimp only
  generalize (s.countChecksum f r).dropTag f = u at hone hflow
  refine hone.trans ?_
  split
  · next d k =>
    unfold State.stewardTrap
    dsimp only
    split
    · exact enterHandler hflow ht _
    · exact (holdFlow u _).trans (freeze ..)
  · split
    · exact passToSteward ..
    · split
      · exact passToSteward ..
      · exact enterHandler hflow ht r

end KeepsData

/-! ### A misaligned access (R108, R289, R392) -/

/-- A precise trap that an instruction's own checks raise, in a state that they have left (R290). -/
theorem Ready.perform_trapIn {s s' : State} {i : Instr} {e : Issuer} (h : Ready s i e) (plan : State → Issuer → Except Hold Plan) (t : Trap)
    (hp : plan s e = .error (.trapIn s' t)) (hd : s'.dstep = none) (hm : t.code ≠ 0x15) :
    perform i plan s = .next (s'.takeTrap e.f (t.regs e.c.addr e.c.pos e.run)) := by
  unfold perform
  simp only [h.issuer, h.legal, h.free, Bool.false_eq_true, if_false, ite_self, Bool.and_false, h.resident, hp, State.trapAt, hd, s'.logMemory_other e t hm]

/-- The accesses of an instruction one of which is misaligned fail for the lowest such lane, where none names a device register (R108, R292, R392). -/
theorem Machine.State.resolve_misaligned {s : State} {e : Issuer} {bytes : Nat} {use : Use} {k : AccessKind} {va : Nat → Nat} {l : Nat} (hl : l ∈ e.accessLanes)
    (hmis : va l % bytes ≠ 0) (hdev : ∀ p ∈ (s.checkLanes e.f bytes use k (e.accessLanes.map (fun l => (l, va l)))).2.2, paSpace p.2 ≠ 2) :
    ∃ m, (m ∈ e.accessLanes ∧ va m % bytes ≠ 0 ∧ ∀ j ∈ e.accessLanes, j < m → va j % bytes = 0) ∧
      s.resolve e bytes use k va =
        ((s.checkLanes e.f bytes use k (e.accessLanes.map (fun l => (l, va l)))).1, .error { code := 0x04, addr := va m, lane := m }) := by
  obtain ⟨hin, hout⟩ := State.checkLanes_misaligned e.f bytes use k (e.accessLanes.map (fun l => (l, va l))) s
  unfold State.resolve
  generalize s.checkLanes e.f bytes use k (e.accessLanes.map (fun l => (l, va l))) = r at *
  obtain ⟨s', ts, ps⟩ := r
  dsimp only at hin hout hdev ⊢
  have hmem (j : Nat) (hj : j ∈ e.accessLanes) (hm : va j % bytes ≠ 0) : ({ code := 0x04, addr := va j, lane := j } : Trap) ∈ ts :=
    hin (j, va j) (List.mem_map.2 ⟨j, hj, rfl⟩) hm
  have hnone : ps.filterMap (s'.devTrap e bytes use.writes) = [] := by
    rw [List.filterMap_eq_nil_iff]
    intro p hp
    unfold State.devTrap
    rw [if_neg (by simp [hdev p hp])]
  obtain ⟨t, ht, hfirst, hmin⟩ := Trap.first_of_ne_nil (List.ne_nil_of_mem (hmem l hl hmis))
  have hcode : t.code = 0x04 := le_antisymm (hmin _ (hmem l hl hmis)).1 (hout t ht).1
  obtain ⟨x, hx, hxm, rfl⟩ := (hout t ht).2 hcode
  obtain ⟨m, hmm, rfl⟩ := List.mem_map.1 hx
  refine ⟨m, ⟨hmm, hxm, fun j hj hlt => ?_⟩, ?_⟩
  · by_contra hj'
    have : m ≤ j := (hmin _ (hmem j hj hj')).2 rfl (by decide : (0x04 : Nat) ≠ 0x06)
    omega
  · rw [hnone, List.append_nil, hfirst]

/-- What the checks of accesses and a trap behind them leave of memory and variables (R224, R290). -/
theorem takeTrap_checked {s : State} {i : Instr} {e : Issuer} (h : Ready s i e) (bytes : Nat) (use : Use) (k : AccessKind) (va : Nat → Nat) (r : TrapRegs) :
    let t := (s.checkLanes e.f bytes use k (e.accessLanes.map (fun l => (l, va l)))).1.takeTrap e.f r
    MarkedLeaves s t e.f (e.accessLanes.map va) ∧ ∀ f y l, varAt t f y l = varAt s f y l := by
  obtain ⟨-, hs, -, -⟩ := s.of_issuer h.issuer
  obtain ⟨hacc, -⟩ := Accessed.checkLanes bytes use k (e.accessLanes.map (fun l => (l, va l))) h.sound
  have hmarks := Marks.checkLanes bytes use k (e.accessLanes.map (fun l => (l, va l))) h.sound
  rw [List.map_map] at hmarks
  generalize (s.checkLanes e.f bytes use k (e.accessLanes.map (fun l => (l, va l)))).1 = s' at hacc hmarks ⊢
  obtain ⟨seen, wstat, exempt, hflow⟩ := hacc.flow hs
  have hkeeps := KeepsData.takeTrap hflow h.untraced r
  have hbyte (a : Nat) : (s'.takeTrap e.f r).byte a = s'.byte a := by rw [State.byte, hkeeps.mem]; rfl
  refine ⟨fun a => ?_, fun f y l => (hkeeps.vars f y l).trans (hacc.varAt f y l)⟩
  have ha := hmarks.leaves a
  unfold Gained at ha ⊢
  rw [hbyte]
  exact ha

/-- Settles O39: the checks of the lanes fault for the lowest misaligned one, and the trap behind them changes no byte and no variable. -/
theorem alignmentTraps : Obligations.AlignmentTraps := by
  unfold Obligations.AlignmentTraps
  intro lowest checked traps
  have settled {i : Instr} {plan : State → Issuer → Except Hold Plan} {n : Nat} {use : Use} {k : AccessKind} (hx : ∀ s, Machine.exec i s = perform i plan s)
      (hp : ∀ s e s' t, s.resolve e n use k (s.loadAddr e) = (s', .error t) → plan s e = .error (.trapIn s' t)) : traps i n use k := by
    intro s e l h hl hmis hdev
    obtain ⟨m, hm, hres⟩ := State.resolve_misaligned hl hmis hdev
    have hacc := (Accessed.checkLanes n use k (e.accessLanes.map (fun l => (l, s.loadAddr e l))) h.sound).1
    refine ⟨m, _, hm, (hx s).trans (h.perform_trapIn plan _ (hp s e _ _ hres) (hacc.dstep.trans h.alone) (by decide : (0x04 : Nat) ≠ 0x15)), rfl, ?_⟩
    exact takeTrap_checked h n use k (s.loadAddr e) _
  refine ⟨fun w x => settled (fun s => show execLd w x s = _ from rfl) fun s e s' t hres => ?_, fun w x => settled (fun s => show execSt w x s = _ from rfl) fun s e s' t hres => ?_⟩
  · dsimp only
    rw [hres]
  · dsimp only
    rw [hres]

end Sys2Proof
end

