-- ==== Sys2Proof/Proofs/Touches.lean ====
section
/-! Lemmas: what a touch of a window leaves of the state, and that no touch looks at a flow's record (R120, R193, R206, R215). -/

namespace Sys2Proof

open Sys2Proof.Machine

/-! ### Changes that leave the cores (R137, R192, R193) -/

/-- A state with other cores. -/
def Machine.State.withCores (s : State) (ks : Tab Core) : State := { s with cores := ks }

/-- A change that neither looks at the cores nor changes them. -/
def Coreless (op : State → State) : Prop := ∀ s ks, op (s.withCores ks) = (op s).withCores ks

theorem Coreless.cores {op : State → State} (h : Coreless op) (s : State) : (op s).cores = s.cores := (congrArg State.cores (h s s.cores) :)

theorem Coreless.foldl {α : Type} {op : State → α → State} (h : ∀ a, Coreless (op · a)) (l : List α) : Coreless (fun s => l.foldl op s) := by
  intro s ks
  induction l generalizing s with
  | nil => rfl
  | cons a l ih => exact (congrArg (fun t => l.foldl op t) (h a s ks)).trans (ih (op s a))

section Cores

variable (s : State) (ks : Tab Core)

theorem countGranule_cores (pa n : Nat) (write : Bool) : Coreless (fun s => s.countGranule pa n write) := by
  intro s ks
  unfold State.countGranule
  split <;> rfl

theorem poke_cores (pa : Nat) (bs : List Byte) (atomic : Bool) (tag : Option SyncTag) : Coreless (fun s => s.poke pa bs atomic tag) := fun s ks =>
  countGranule_cores pa bs.length true
    (State.tagWrite { s.setBytes pa bs with reservations := s.reservations.filter (fun r => lineOf r.pa < lineOf pa || lineOf (pa + bs.length - 1) < lineOf r.pa) }
      pa bs.length atomic tag) ks

theorem Machine.State.walkFrom_cores (die va table level : Nat) (wide : Bool) (fuel : Nat) :
    (s.withCores ks).walkFrom die va table level wide fuel = s.walkFrom die va table level wide fuel := by
  induction fuel generalizing table level wide with
  | zero => rfl
  | succ fuel ih =>
    unfold State.walkFrom
    simp only [ih]
    rfl

theorem Machine.State.walk_cores (die asid va : Nat) : (s.withCores ks).walk die asid va = s.walk die asid va := by
  unfold State.walk
  simp only [State.walkFrom_cores]
  rfl

theorem Machine.State.physOf_cores (die asid va : Nat) : (s.withCores ks).physOf die asid va = s.physOf die asid va := by
  unfold State.physOf
  rw [State.walk_cores]

theorem snapshot_cores (die asid launch piece : Nat) : Coreless (fun s => s.snapshot die asid launch piece) := by
  intro s ks
  have hbytes : (s.withCores ks).pieceBytes die asid piece = s.pieceBytes die asid piece := by
    unfold State.pieceBytes
    simp only [State.physOf_cores]
    rfl
  unfold State.snapshot
  dsimp only
  rw [hbytes, show (s.withCores ks).launches = s.launches from rfl]
  cases s.launches.get launch with
  | none => rfl
  | some l => dsimp only; split <;> rfl

theorem snapBits_cores (die asid piece : Nat) (on : Bool) : Coreless (fun s => s.snapBits die asid piece on) := by
  intro s ks
  have hleaves : (s.withCores ks).pieceLeaves die asid piece = s.pieceLeaves die asid piece := by
    unfold State.pieceLeaves
    simp only [State.walk_cores]
  unfold State.snapBits
  dsimp only
  rw [hleaves]
  refine Coreless.foldl (fun x s ks => ?_) _ s ks
  dsimp only
  rw [show (s.withCores ks).tableWord x.1 = s.tableWord x.1 from rfl]
  generalize (if on then s.tableWord x.1 ||| 0x100 else if bit (s.tableWord x.1) 8 then s.tableWord x.1 - 0x100 else s.tableWord x.1) = v
  split
  · rfl
  · exact poke_cores _ _ _ _ s ks

end Cores

/-! ### What a touch leaves -/

/-- No flow's record, home copy or launch record has changed, and no core's soundness. -/
structure Touched (s t : State) : Prop where
  flows : ∀ f, t.flow? f = s.flow? f
  homes : ∀ c g, (t.group? c g).map Group.home = (s.group? c g).map Group.home
  launches : SameRecords t.launches s.launches
  sound : ∀ c, (t.core c).sound = (s.core c).sound
  dstep : t.dstep = s.dstep

/-- The cores behind the loss of translations (R229). -/
theorem Machine.State.core_dropTlb (s : State) (die : Nat) (p : Translation → Bool) (c : Nat) :
    (s.dropTlb die p).core c = if dieOf c = die then { (s.core c) with l1 := (s.core c).l1.filter (fun t => !p t) } else s.core c := by
  show (s.cores.mapVal (fun c q => if dieOf c = die then { q with l1 := q.l1.filter (fun t => !p t) } else q)).getD c Core.reset = _
  unfold State.core Tab.getD
  rw [Tab.get_mapVal]
  cases s.cores.get c with
  | none => split <;> rfl
  | some q => rfl

theorem Machine.State.stewards_modDie (s : State) (d : Nat) (g : Die → Die) (h : ∀ q, (g q).stewards = q.stewards) (d' : Nat) :
    ((s.modDie d g).die d').stewards = (s.die d').stewards := by
  rw [s.die_modDie]
  split
  · next hd => rw [h]
  · rfl

namespace Touched

variable {s t u : State}

theorem refl (s : State) : Touched s s := ⟨fun _ => rfl, fun _ _ => rfl, SameRecords.refl _, fun _ => rfl, rfl⟩

theorem trans (h : Touched s t) (k : Touched t u) : Touched s u :=
  ⟨fun f => (k.flows f).trans (h.flows f), fun c g => (k.homes c g).trans (h.homes c g), SameRecords.trans k.launches h.launches, fun c => (k.sound c).trans (h.sound c),
    k.dstep.trans h.dstep⟩

theorem foldl {α : Type} {g : State → α → State} (h : ∀ s a, Touched s (g s a)) (l : List α) (s : State) : Touched s (l.foldl g s) := by
  induction l generalizing s with
  | nil => exact refl s
  | cons a l ih => exact (h s a).trans (ih (g s a))

/-- Every variable of every flow reads as before. -/
theorem varAt (h : Touched s t) (f : Flow) (x l : Nat) : varAt t f x l = varAt s f x l := by
  have hhome : t.groupHome f x = s.groupHome f x := by
    cases f with
    | steward d k => rfl
    | wave c k => rw [s.groupHome_wave, t.groupHome_wave, h.flows]; simp only [h.homes]
  unfold Sys2Proof.varAt
  rw [h.flows]
  congr 1
  funext w
  unfold State.readVar
  rw [hhome, show t.rank f w x = s.rank f w x from h.launches.rank (s := s) f w x]

theorem recordOf (h : Touched s t) (q : Group) : t.recordOf q = s.recordOf q := by
  unfold State.recordOf
  rw [h.launches q.launch]

theorem of_cores (hc : t.cores = s.cores) (hd : ∀ d, (t.die d).stewards = (s.die d).stewards) (hl : SameRecords t.launches s.launches) (hs : t.dstep = s.dstep) : Touched s t := by
  have hcore (c : Nat) : t.core c = s.core c := by unfold State.core; rw [hc]
  refine ⟨fun f => ?_, fun c g => by unfold State.group?; rw [hcore], hl, fun c => by rw [hcore], hs⟩
  cases f with
  | wave c k => exact congrArg (fun q : Core => q.waves.get k) (hcore c)
  | steward d k => exact congrArg (fun x => some (Tab.getD x k Wave.stewardReset)) (hd d)

theorem modDie (s : State) (d : Nat) (g : Die → Die) (h : ∀ q, (g q).stewards = q.stewards) : Touched s (s.modDie d g) := by
  exact of_cores rfl (s.stewards_modDie d g h) (SameRecords.refl _) rfl

theorem modCore (s : State) (c : Nat) (g : Core → Core) (hw : ∀ q, (g q).waves = q.waves) (hs : ∀ q, (g q).sound = q.sound)
    (hh : ∀ k, ((g (s.core c)).groups.get k).map Group.home = ((s.core c).groups.get k).map Group.home) : Touched s (s.modCore c g) := by
  refine ⟨fun f => s.flow?_modCore c g (hw _) f, fun c' k => ?_, SameRecords.refl _, fun c' => ?_, rfl⟩
  · unfold State.group?
    rw [s.core_modCore]
    split
    · next hc => subst hc; exact hh k
    · rfl
  · rw [s.core_modCore]
    split
    · next hc => subst hc; exact hs _
    · rfl

theorem modGroup (s : State) (c g : Nat) (p : Group → Group) (hp : ∀ q, (p q).home = q.home) : Touched s (s.modGroup c g p) := by
  refine modCore s c _ (fun _ => rfl) (fun _ => rfl) fun k => ?_
  dsimp only
  by_cases hk : k = g
  · subst hk
    rw [Tab.get_upd_self, Option.map_map, show Group.home ∘ p = Group.home from funext hp]
  · rw [Tab.get_upd_ne _ _ (Ne.symm hk)]

theorem setGroup {c g : Nat} {q : Group} (hq : s.group? c g = some q) (v : Group) (hv : v.home = q.home) : Touched s (s.setGroup c g v) := by
  refine modCore s c _ (fun _ => rfl) (fun _ => rfl) fun k => ?_
  have hq : (s.core c).groups.get g = some q := hq
  dsimp only
  by_cases hk : k = g
  · subst hk
    rw [Tab.get_set_self, hq, Option.map_some, Option.map_some, hv]
  · rw [Tab.get_set_ne _ _ (Ne.symm hk)]

theorem countGranule (s : State) (pa n : Nat) (write : Bool) : Touched s (s.countGranule pa n write) := by
  unfold State.countGranule
  split
  · exact refl s
  · have hfresh : Touched s { s with fresh := s.fresh + 1 } := of_cores rfl (fun _ => rfl) (SameRecords.refl _) rfl
    exact hfresh.trans (modDie _ _ _ fun _ => rfl)

theorem poke (s : State) (pa : Nat) (bs : List Byte) (atomic : Bool) (tag : Option SyncTag) : Touched s (s.poke pa bs atomic tag) := by
  have hwrite (r : List Reservation) : Touched s (State.tagWrite { s.setBytes pa bs with reservations := r } pa bs.length atomic tag) :=
    of_cores rfl (fun _ => rfl) (SameRecords.refl _) rfl
  exact (hwrite _).trans (countGranule _ pa bs.length true)

theorem modLaunch (s : State) (n : Nat) (g : Launch → Launch) (h : ∀ l, (g l).record = l.record) : Touched s (s.modLaunch n g) := by
  refine of_cores rfl (fun _ => rfl) (fun m => ?_) rfl
  show ((s.launches.upd n g).get m).map Launch.record = _
  by_cases hm : m = n
  · subst hm
    rw [Tab.get_upd_self, Option.map_map, show Launch.record ∘ g = Launch.record from funext h]
  · rw [Tab.get_upd_ne _ _ (Ne.symm hm)]

theorem snapshot (s : State) (die asid launch piece : Nat) : Touched s (s.snapshot die asid launch piece) := by
  unfold State.snapshot
  split
  · exact refl s
  · split
    · exact refl s
    · have hfresh : Touched s { s with fresh := s.fresh + 1 } := of_cores rfl (fun _ => rfl) (SameRecords.refl _) rfl
      refine hfresh.trans (modLaunch _ launch _ fun l => ?_)
      split <;> rfl

theorem snapBits (s : State) (die asid piece : Nat) (on : Bool) : Touched s (s.snapBits die asid piece on) := by
  refine foldl (fun s x => ?_) _ s
  dsimp only
  generalize (if on then s.tableWord x.1 ||| 0x100 else if bit (s.tableWord x.1) 8 then s.tableWord x.1 - 0x100 else s.tableWord x.1) = v
  split
  · exact refl s
  · exact poke ..

theorem dropTlb (s : State) (die : Nat) (p : Translation → Bool) : Touched s (s.dropTlb die p) := by
  have hcore (c : Nat) : (s.dropTlb die p).core c = if dieOf c = die then { (s.core c) with l1 := (s.core c).l1.filter (fun t => !p t) } else s.core c := s.core_dropTlb die p c
  have hdie (d : Nat) : ((s.dropTlb die p).die d).stewards = (s.die d).stewards := s.stewards_modDie die (fun q => { q with tlb := q.tlb.filter (fun t => !p t) }) (fun _ => rfl) d
  refine ⟨fun f => ?_, fun c g => ?_, SameRecords.refl _, fun c => ?_, rfl⟩
  · cases f with
    | wave c k =>
      show ((s.dropTlb die p).core c).waves.get k = _
      rw [hcore]
      split <;> rfl
    | steward d k => exact congrArg (fun x => some (Tab.getD x k Wave.stewardReset)) (hdie d)
  · unfold State.group?
    rw [hcore]
    split <;> rfl
  · rw [hcore]
    split <;> rfl

theorem dropPiece (s : State) (asid piece : Nat) : Touched s (s.dropPiece asid piece) := foldl (fun s d => dropTlb s d _) _ s

theorem serveSnap (s : State) (die ctx asid va : Nat) : Touched s (s.serveSnap die ctx asid va) := by
  unfold State.serveSnap
  dsimp only
  have hcopy := foldl (g := fun s x => s.snapshot die asid x.1 (va / 65536)) (fun s (x : Nat × Launch) => snapshot s die asid x.1 _)
    (s.launches.filter (fun e => e.2.context == ctx && e.2.protectedPieces.contains (va / 65536))) s
  exact (hcopy.trans (snapBits _ die asid _ false)).trans (dropPiece _ asid _)

theorem firstWrite (s : State) (pa n : Nat) : Touched s (s.firstWrite pa n) := by
  refine foldl (fun s x => ?_) _ s
  split
  · exact refl s
  · exact foldl (fun s piece => serveSnap s _ _ _ _) _ s

end Touched

/-! ### States whose flows alone differ -/

/-- Two states differ in nothing but the waves of cores. -/
structure Twin (s t : State) : Prop where
  rest : t = s.withCores t.cores
  cores : ∀ c, ∃ ws, t.core c = { s.core c with waves := ws }

namespace Twin

variable {s t : State}

theorem refl (s : State) : Twin s s := ⟨rfl, fun _ => ⟨_, rfl⟩⟩

theorem mem (h : Twin s t) : t.mem = s.mem := by rw [h.rest]; rfl
theorem launches (h : Twin s t) : t.launches = s.launches := by rw [h.rest]; rfl
theorem globals (h : Twin s t) : t.globals = s.globals := by rw [h.rest]; rfl

theorem group? (h : Twin s t) (c g : Nat) : t.group? c g = s.group? c g := by
  obtain ⟨ws, hc⟩ := h.cores c
  unfold State.group?
  rw [hc]

theorem recordOf (h : Twin s t) (q : Group) : t.recordOf q = s.recordOf q := by
  unfold State.recordOf
  rw [h.launches]

theorem bar? (h : Twin s t) (id : BarId) : t.bar? id = s.bar? id := by
  unfold State.bar?
  cases id with
  | spad c g off => dsimp only; rw [h.group?]
  | global pa => dsimp only; rw [h.globals]

theorem foldl {α : Type} {g : State → α → State} (hg : ∀ s t a, Twin s t → Twin (g s a) (g t a)) (h : Twin s t) (l : List α) : Twin (l.foldl g s) (l.foldl g t) := by
  induction l generalizing s t with
  | nil => exact h
  | cons a l ih => exact ih (hg s t a h)

theorem of_coreless {op : State → State} (hop : Coreless op) (h : Twin s t) : Twin (op s) (op t) := by
  have hs : (op s).cores = s.cores := hop.cores s
  have ht : (op t).cores = t.cores := hop.cores t
  refine ⟨?_, fun c => ?_⟩
  · rw [ht, ← hop s t.cores, ← h.rest]
  · obtain ⟨ws, hc⟩ := h.cores c
    exact ⟨ws, by unfold State.core at hc ⊢; rw [hs, ht]; exact hc⟩

theorem modCore (h : Twin s t) (c : Nat) (g : Core → Core) (hg : ∀ q ws, ∃ ws', g { q with waves := ws } = { g q with waves := ws' }) : Twin (s.modCore c g) (t.modCore c g) := by
  refine ⟨?_, fun c' => ?_⟩
  · show ({ t with cores := _ } : State) = _
    rw [h.rest]
    rfl
  · rw [s.core_modCore, t.core_modCore]
    split
    · next hc =>
      subst hc
      obtain ⟨ws, hw⟩ := h.cores c
      rw [hw]
      exact hg _ ws
    · exact h.cores c'

theorem modGroup (h : Twin s t) (c g : Nat) (p : Group → Group) : Twin (s.modGroup c g p) (t.modGroup c g p) := h.modCore c _ fun _ ws => ⟨ws, rfl⟩

theorem setGroup (h : Twin s t) (c g : Nat) (v : Group) : Twin (s.setGroup c g v) (t.setGroup c g v) := h.modCore c _ fun _ ws => ⟨ws, rfl⟩

theorem dropTlb (h : Twin s t) (die : Nat) (p : Translation → Bool) : Twin (s.dropTlb die p) (t.dropTlb die p) := by
  refine ⟨?_, fun c => ?_⟩
  · rw [h.rest]
    rfl
  · obtain ⟨ws, hc⟩ := h.cores c
    refine ⟨ws, ?_⟩
    rw [s.core_dropTlb, t.core_dropTlb, hc]
    split <;> rfl

theorem dropPiece (h : Twin s t) (asid piece : Nat) : Twin (s.dropPiece asid piece) (t.dropPiece asid piece) := by
  unfold State.dropPiece
  exact foldl (fun _ _ d h => h.dropTlb d _) h _

theorem serveSnap (h : Twin s t) (die ctx asid va : Nat) : Twin (s.serveSnap die ctx asid va) (t.serveSnap die ctx asid va) := by
  unfold State.serveSnap
  dsimp only
  rw [h.launches]
  have hcopy := h.foldl (g := fun s x => s.snapshot die asid x.1 (va / 65536)) (fun _ _ x h => h.of_coreless (snapshot_cores die asid x.1 _))
    (s.launches.filter (fun e => e.2.context == ctx && e.2.protectedPieces.contains (va / 65536)))
  have hbits := hcopy.of_coreless (snapBits_cores die asid (va / 65536) false)
  exact hbits.dropPiece asid (va / 65536)

theorem firstWrite (h : Twin s t) (pa n : Nat) : Twin (s.firstWrite pa n) (t.firstWrite pa n) := by
  unfold State.firstWrite
  rw [h.launches]
  refine foldl (fun s t x h => ?_) h s.launches
  have hctx : t.contexts = s.contexts := by rw [h.rest]; rfl
  have hphys (die asid va : Nat) : t.physOf die asid va = s.physOf die asid va := by rw [h.rest, State.physOf_cores]
  simp only [hctx, hphys]
  split
  · exact h
  · next die asid _ =>
    exact foldl (g := fun s piece => s.serveSnap die x.2.context asid (piece * 65536)) (fun _ _ piece h => h.serveSnap die x.2.context asid _) h _

end Twin

/-! ### The touches of windows (R120, R206, R215) -/

/-- A barrier stands in global memory, or in the scratchpad of a sound core. -/
def Machine.BarId.SoundIn (id : BarId) (s : State) : Prop := ∀ c g off, id = .spad c g off → (s.core c).sound = true

theorem Machine.State.unitWritten_sound {s : State} {c : Nat} (h : (s.core c).sound = true) (g off : Nat) (site : Site) : s.unitWritten c g off site = s := if_pos h

/-- The barrier of a binding is global, or one of its own group. -/
theorem Machine.Binding.barId_spad {b : Binding} {c g c' g' off : Nat} (h : b.barId c g = some (.spad c' g' off)) : c' = c := by
  unfold Binding.barId at h
  split at h
  · cases h
  · cases h; rfl
  · obtain ⟨pa, -, hpa⟩ := Option.map_eq_some_iff.1 h
    cases hpa

@[simp] theorem Machine.Group.home_freeSlot (g : Group) (win : Nat) (p : WinPlace) (b : Binding) (stage : Nat) : (g.freeSlot win p b stage).home = g.home := by
  unfold Group.freeSlot
  split <;> rfl

namespace Touched

variable {s : State}

theorem barBytes (s : State) (id : BarId) (b : Barrier) (armed : Bool) : Touched s (s.barBytes id b armed) := by
  cases id with
  | spad c g off => exact modGroup s c g _ fun _ => rfl
  | global pa => exact poke ..

theorem setBar {id : BarId} (hid : id.SoundIn s) (b : Barrier) (site : Site) : Touched s (s.setBar id b site) := by
  unfold State.setBar
  refine trans ?_ (barBytes _ id b true)
  cases id with
  | spad c g off =>
    have hmod := modGroup s c g (fun q => { q with barriers := q.barriers.set off b }) fun _ => rfl
    dsimp only
    rw [State.unitWritten_sound ((hmod.sound c).trans (hid c g off rfl))]
    exact hmod
  | global pa => exact of_cores rfl (fun _ => rfl) (SameRecords.refl _) rfl

theorem firstBar (s : State) (id : BarId) : Touched s (s.firstBar id) := by
  cases id with
  | spad c g off => exact refl s
  | global pa => exact firstWrite ..

theorem issueStage {c : Nat} (hs : (s.core c).sound = true) (g win stage : Nat) (ahead : Bool) (pc wave : Nat) : Touched s (s.issueStage c g win stage ahead pc wave) := by
  unfold State.issueStage
  split
  · exact refl s
  · next q hq =>
    split
    · next b pl _ _ =>
      extract_lets t lines all q1 q2 q3 s1
      have hset : Touched s s1 := setGroup hq q3 (Group.home_freeSlot ..)
      split
      · exact hset
      · next id hid =>
        split
        · split
          · have hfirst := hset.trans (firstBar _ id)
            refine hfirst.trans (setBar (fun c' g' off he => ?_) _ _)
            rw [hfirst.sound, Binding.barId_spad (hid.trans (congrArg some he))]
            exact hs
          · exact hset
        · exact hset
    · exact refl s

theorem touch {c : Nat} (hs : (s.core c).sound = true) (g win st off pc wave : Nat) : Touched s (s.touch c g win st off pc wave).1 := by
  unfold State.touch
  split
  · exact refl s
  · next q hq =>
    split
    · next b pl _ _ =>
      dsimp only
      split
      · exact refl s
      · generalize (if (b.stages.get st).isSome = true then b.touched st (s.lineAbsent c g win off) else b) = b1
        have hset : Touched s (s.setGroup c g (q.modBinding win fun _ => b1)) := setGroup hq _ rfl
        have hissue : Touched s (if b.closing then s.setGroup c g (q.modBinding win fun _ => b1) else
            (b1.toIssue (pl.slots b.size) st).foldl (fun s t => s.issueStage c g win t (t != st) pc wave) (s.setGroup c g (q.modBinding win fun _ => b1))) := by
          split
          · exact hset
          · exact List.foldlRecOn (motive := fun u => Touched s u) _ _ hset fun u hu k _ => hu.trans (issueStage ((hu.sound c).trans hs) ..)
        split
        · exact hissue
        · exact hissue.trans (modGroup _ c g _ fun _ => rfl)
    · exact refl s

theorem touchAll {c : Nat} (hs : (s.core c).sound = true) (g pc wave : Nat) (ts : List SpadTouch) : Touched s (s.touchAll c g pc wave ts).1 := by
  refine List.foldlRecOn (motive := fun x : State × Option Nat => Touched s x.1) ts _ (refl s) fun x hx t _ => ?_
  split
  · exact hx.trans (touch ((hx.sound c).trans hs) ..)
  · exact hx

theorem touchRun {c : Nat} (hs : (s.core c).sound = true) (e : Issuer) (run : LaneMask) (g : Nat) (ts : List SpadTouch) : Touched s (s.touchRun e run c g ts) := touchAll hs ..

end Touched

namespace Twin

variable {s t : State}

theorem barBytes (h : Twin s t) (id : BarId) (b : Barrier) (armed : Bool) : Twin (s.barBytes id b armed) (t.barBytes id b armed) := by
  cases id with
  | spad c g off => exact h.modGroup c g _
  | global pa => exact h.of_coreless (poke_cores pa _ false none)

theorem sound (h : Twin s t) (c : Nat) : (t.core c).sound = (s.core c).sound := by
  obtain ⟨ws, hc⟩ := h.cores c
  rw [hc]
  rfl

theorem setBar (h : Twin s t) {id : BarId} (hid : id.SoundIn s) (b : Barrier) (site : Site) : Twin (s.setBar id b site) (t.setBar id b site) := by
  unfold State.setBar
  refine barBytes ?_ id b true
  cases id with
  | spad c g off =>
    have hmod := h.modGroup c g (fun q => { q with barriers := q.barriers.set off b })
    have hs := (Touched.modGroup s c g (fun q => { q with barriers := q.barriers.set off b }) fun _ => rfl).sound c
    dsimp only
    rw [State.unitWritten_sound (hs.trans (hid c g off rfl)), State.unitWritten_sound ((hmod.sound c).trans (hs.trans (hid c g off rfl)))]
    exact hmod
  | global pa => exact h.of_coreless (op := fun s => { s with globals := s.globals.upd pa (fun x => { x with barrier := b }) }) fun _ _ => rfl

theorem firstBar (h : Twin s t) (id : BarId) : Twin (s.firstBar id) (t.firstBar id) := by
  cases id with
  | spad c g off => exact h
  | global pa => exact h.firstWrite pa 16

theorem issueStage (h : Twin s t) {c : Nat} (hs : (s.core c).sound = true) (g win stage : Nat) (ahead : Bool) (pc wave : Nat) :
    Twin (s.issueStage c g win stage ahead pc wave) (t.issueStage c g win stage ahead pc wave) := by
  unfold State.issueStage
  rw [h.group?]
  split
  · exact h
  · next q hq =>
    rw [h.recordOf]
    split
    · next b pl _ _ =>
      extract_lets t1 lines all q1 q2 q3 s1 t2
      have hset : Twin s1 t2 := h.setGroup c g q3
      have htouched : Touched s s1 := Touched.setGroup hq q3 (Group.home_freeSlot ..)
      split
      · exact hset
      · next id hid =>
        rw [hset.bar?]
        split
        · split
          · refine (hset.firstBar id).setBar (fun c' g' off he => ?_) _ _
            rw [(htouched.trans (Touched.firstBar _ id)).sound, Binding.barId_spad (hid.trans (congrArg some he))]
            exact hs
          · exact hset
        · exact hset
    · exact h

theorem foldlIssue (h : Twin s t) {c : Nat} (hs : (s.core c).sound = true) (g win st pc wave : Nat) (l : List Nat) :
    Twin (l.foldl (fun s t => s.issueStage c g win t (t != st) pc wave) s) (l.foldl (fun s t => s.issueStage c g win t (t != st) pc wave) t) := by
  induction l generalizing s t with
  | nil => exact h
  | cons k l ih => exact ih (h.issueStage hs g win k _ pc wave) (((Touched.issueStage hs g win k _ pc wave).sound c).trans hs)

theorem lineAbsent (h : Twin s t) (c g win off : Nat) : t.lineAbsent c g win off = s.lineAbsent c g win off := by
  unfold State.lineAbsent
  simp only [h.group?, h.recordOf]

/-- A touch does the same, and parks or not alike, whatever the flows' records are. -/
theorem touch (h : Twin s t) {c : Nat} (hs : (s.core c).sound = true) (g win st off pc wave : Nat) :
    Twin (s.touch c g win st off pc wave).1 (t.touch c g win st off pc wave).1 ∧ (t.touch c g win st off pc wave).2 = (s.touch c g win st off pc wave).2 := by
  unfold State.touch
  rw [h.group?]
  split
  · exact ⟨h, rfl⟩
  · next q hq =>
    rw [h.recordOf]
    split
    · next b pl _ _ =>
      dsimp only
      rw [h.lineAbsent]
      split
      · exact ⟨h, rfl⟩
      · generalize (if (b.stages.get st).isSome = true then b.touched st (s.lineAbsent c g win off) else b) = b1
        have hset := h.setGroup c g (q.modBinding win fun _ => b1)
        have htouched : Touched s (s.setGroup c g (q.modBinding win fun _ => b1)) := Touched.setGroup hq _ rfl
        have hissue : Twin (if b.closing then s.setGroup c g (q.modBinding win fun _ => b1) else
              (b1.toIssue (pl.slots b.size) st).foldl (fun s t => s.issueStage c g win t (t != st) pc wave) (s.setGroup c g (q.modBinding win fun _ => b1)))
            (if b.closing then t.setGroup c g (q.modBinding win fun _ => b1) else
              (b1.toIssue (pl.slots b.size) st).foldl (fun s t => s.issueStage c g win t (t != st) pc wave) (t.setGroup c g (q.modBinding win fun _ => b1))) := by
          split
          · exact hset
          · exact hset.foldlIssue ((htouched.sound c).trans hs) ..
        split
        · exact ⟨hissue, rfl⟩
        · rw [hissue.lineAbsent]
          exact ⟨hissue.modGroup c g _, rfl⟩
    · exact ⟨h, rfl⟩

theorem touchAll (h : Twin s t) {c : Nat} (hs : (s.core c).sound = true) (g pc wave : Nat) (ts : List SpadTouch) :
    Twin (s.touchAll c g pc wave ts).1 (t.touchAll c g pc wave ts).1 := by
  unfold State.touchAll
  generalize (none : Option Nat) = o
  induction ts generalizing s t o with
  | nil => exact h
  | cons p ts ih =>
    rw [List.foldl_cons, List.foldl_cons]
    cases hp : p.stage with
    | none => exact ih h hs o
    | some x =>
      obtain ⟨win, st⟩ := x
      dsimp only
      obtain ⟨htouch, hparks⟩ := h.touch hs g win st p.off pc wave
      rw [hparks]
      exact ih htouch (((Touched.touch hs g win st p.off pc wave).sound c).trans hs) _

theorem touchRun (h : Twin s t) {c : Nat} (hs : (s.core c).sound = true) (e : Issuer) (run : LaneMask) (g : Nat) (ts : List SpadTouch) :
    Twin (s.touchRun e run c g ts) (t.touchRun e run c g ts) := h.touchAll hs ..

end Twin

end Sys2Proof
end

