-- ==== Sys2Proof/Proofs/Scratchpad.lean ====
section
/-! Lemmas and proof: `lds` and `sts` on plain scratchpad bytes (R111, R114, R396). -/

namespace Sys2Proof

open Sys2Proof.Machine

/-! ### Accesses that have passed their checks (R392) -/

/-- Scratchpad accesses that pass their checks are those of a wave's lanes, in order, each at its lane's offset. -/
theorem Machine.State.spadResolve_ok {s : State} {e : Issuer} {n : Nat} {store : Bool} {extra : List Trap} {off : Nat → Nat} {c g : Nat} {ts : List SpadTouch}
    (h : s.spadResolve e n store extra off = .ok (c, g, ts)) : (∃ k, e.f = .wave c k) ∧ ts.map SpadTouch.lane = e.accessLanes ∧ ∀ p ∈ ts, p.off = off p.lane := by
  unfold State.spadResolve State.spadTouches at h
  split at h
  · cases h
  · next c' g' q hgroup =>
    dsimp only at h
    split at h
    · cases h
    · split at h
      · cases h
      · cases h
        refine ⟨?_, ?_, ?_⟩
        · unfold State.groupOf at hgroup
          split at hgroup
          · next c1 k hf =>
            split at hgroup
            · obtain ⟨_, -, hq⟩ := Option.map_eq_some_iff.1 hgroup
              cases hq
              exact ⟨k, hf⟩
            · cases hgroup
          · cases hgroup
        · simp [Function.comp_def]
        · intro p hp
          simp only [List.map_map, List.mem_map, Function.comp] at hp
          obtain ⟨l, -, rfl⟩ := hp
          rfl

/-! ### Behind the gate (R456) -/

/-- A wave's own record is no part of the rest of the state. -/
theorem Twin.modFlow_wave (s : State) (c k : Nat) (g : Wave → Wave) : Twin s (s.modFlow (.wave c k) g) := by
  unfold State.modFlow
  split
  · refine ⟨rfl, fun c' => ?_⟩
    show ∃ ws, (s.modCore c (fun q => { q with waves := q.waves.set k _ })).core c' = _
    rw [s.core_modCore]
    split
    · next hc => subst hc; exact ⟨_, rfl⟩
    · exact ⟨_, rfl⟩
  · exact Twin.refl s

section Gated

variable {e : Issuer} {s t : State}

theorem Gated.twin {c k : Nat} (h : Gated e s t) (hf : e.f = .wave c k) : Twin s t := by
  rcases h with rfl | rfl
  · exact Twin.refl _
  · rw [hf]
    exact Twin.modFlow_wave ..

theorem Gated.flow (h : Gated e s t) (hf : s.flow? e.f = some e.w) : ∃ exempt, t.flow? e.f = some { e.w with exempt } := by
  rcases h with rfl | rfl
  · exact ⟨_, hf⟩
  · rw [State.flow?_modFlow_self, hf]
    exact ⟨_, rfl⟩

end Gated

/-! ### Leaving (R17, R18) -/

/-- Behind its effect `u` an undisturbed instruction leaves its clause, with the groups and the WSTAT of its effect. -/
theorem Ready.finish_keeps {s t u : State} {i : Instr} {e : Issuer} {w : Wave} (h : Ready s i e) {pl : Plan} (hu : pl.commit e.run t = u) (hstay : pl.stay = false)
    (htarget : pl.target = none) (hafter : pl.after = id) (hf : u.flow? e.f = some w) (hw : w.stance = e.w.stance) (hsound : SoundFor e.f u) (hd : u.dstep = none) :
    (∀ c g, (t.finish e pl e.run).group? c g = u.group? c g) ∧ ∃ v, (t.finish e pl e.run).flow? e.f = some v ∧ v.wstat = w.wstat := by
  obtain ⟨-, -, hcl, -⟩ := s.of_issuer h.issuer
  simp only [Wave.stance, Prod.mk.injEq] at hw
  obtain ⟨hc, hlive, hhalted, hhandler, htraced⟩ := hw
  have hO := OnlyVars.settle u e.f
  have harr : (u.settle e.f).arraysWritten e e.run pl.later = u.settle e.f :=
    State.arraysWritten_sound _ e e.run pl.later (fun c k hw => (hO.sound c).trans (hsound c k hw))
  have hflow : (u.settle e.f).flow? e.f = some w := (u.flow?_settle e.f e.f).trans hf
  obtain ⟨hO', -, -, v, hv, hws, -⟩ := (u.settle e.f).retire_spec e (pl.latch.map (fun k => k e.run)) none w hflow (hc.trans hcl) (htraced.trans h.untraced)
  obtain ⟨-, hgroups⟩ := (u.settle e.f).retire_keeps e (pl.latch.map (fun k => k e.run)) none w hflow (hc.trans hcl) (htraced.trans h.untraced)
  have hfinish : t.finish e pl e.run = (u.settle e.f).retire e (pl.latch.map (fun k => k e.run)) none := by
    unfold State.finish
    simp only [hu, hstay, htarget, hafter, harr, Bool.false_eq_true, if_false, id]
    unfold State.afterStep
    rw [(hO.trans hO').dstep, hd]
  rw [hfinish]
  exact ⟨fun c g => (hgroups c g).trans (u.group?_settle e.f c g), v, hv, hws⟩

/-! ### Loads (R111, R396) -/

/-- The accesses of the lanes of `lds` (R111, R114). -/
def spadLoads (n : Nat) (sgn : Bool) (e : Issuer) (c g : Nat) (run : LaneMask) (ts : List SpadTouch) (a : Given) : Given :=
  ts.foldl (fun (a : Given) p =>
    if e.commits run p.lane then
      let q := a.s.group? c g
      let bs := if p.guard then List.replicate n 0 else (q.map (fun q => Memory.read q.spad p.off n)).getD []
      let s := if p.guard then a.s.modGroup c g (fun q => q.noteGuard e.w.number p.off e.c.addr)
        else a.s.noteTags e p.lane ((q.map (fun q => tagsIn q.spadTags p.off n)).getD []) none
      { a with s, vals := a.vals.set p.lane (loadWords sgn bs) }
    else a) a

/-- Loads outside guard lines note releases seen, and give each lane the bytes at its offset. -/
theorem spadLoads_plain {n : Nat} {sgn : Bool} {e : Issuer} {c g : Nat} {q : Group} {off : Nat → Nat} {ts : List SpadTouch}
    (hts : ∀ p ∈ ts, p.guard = false ∧ e.commits e.run p.lane = true ∧ p.off = off p.lane) {a : Given} (ha : a.s.group? c g = some q) :
    let r := spadLoads n sgn e c g e.run ts a
    Accessed e.f a.s r.s ∧ r.s.mem = a.s.mem ∧ r.failure = a.failure ∧
      ∀ l, r.words l = if l ∈ ts.map SpadTouch.lane then loadWords sgn (Memory.read q.spad (off l) n) else a.words l := by
  induction ts generalizing a with
  | nil => exact ⟨Accessed.refl _ _, rfl, rfl, fun _ => rfl⟩
  | cons p ts ih =>
    obtain ⟨hp, hts⟩ := List.forall_mem_cons.1 hts
    obtain ⟨hguard, hcommits, hoff⟩ := hp
    have hnote := Accessed.noteTags a.s e p.lane (tagsIn q.spadTags p.off n) none
    obtain ⟨hacc, hmem, hfail, hwords⟩ := ih hts (a := { a with s := a.s.noteTags e p.lane (tagsIn q.spadTags p.off n) none,
                                                                vals := a.vals.set p.lane (loadWords sgn (Memory.read q.spad p.off n)) }) ((hnote.group? c g).trans ha)
    have hstep : spadLoads n sgn e c g e.run (p :: ts) a = spadLoads n sgn e c g e.run ts
        { a with s := a.s.noteTags e p.lane (tagsIn q.spadTags p.off n) none, vals := a.vals.set p.lane (loadWords sgn (Memory.read q.spad p.off n)) } := by
      unfold spadLoads
      rw [List.foldl_cons]
      simp only [hcommits, if_true, hguard, ha, Option.map_some, Option.getD_some, Bool.false_eq_true, if_false]
    rw [hstep]
    refine ⟨hnote.trans hacc, hmem.trans (a.s.mem_noteTags ..), hfail, fun l => ?_⟩
    rw [hwords, List.map_cons]
    by_cases hl : l ∈ ts.map SpadTouch.lane
    · rw [if_pos hl, if_pos (List.mem_cons_of_mem _ hl)]
    · rw [if_neg hl]
      by_cases hlp : l = p.lane
      · rw [hlp, if_pos List.mem_cons_self, ← hoff]
        exact Tab.getD_set_self ..
      · rw [if_neg (by simpa [hlp] using hl)]
        exact congrArg (fun o : Option (List Word) => o.getD []) (Tab.get_set_ne a.vals _ (Ne.symm hlp))

/-- An undisturbed `lds` of plain bytes. -/
theorem lds_plain {w : MemWidth} {x : XArgs} {s : State} {e : Issuer} {c g : Nat} {q : Group} {ts : List SpadTouch} (h : Ready s (.lds w x) e)
    (hok : s.spadResolve e w.bytes false [] (s.spadOffset e) = .ok (c, g, ts)) (hq : (s.touchRun e e.run c g ts).group? c g = some q) (hguard : ∀ p ∈ ts, p.guard = false) :
    ∃ t, Machine.exec (.lds w x) s = .next t ∧ Passed t e ∧ (∀ a, t.byte a = (s.touchRun e e.run c g ts).byte a) ∧ t.group? c g = some q ∧
      (∀ f y l, l < 64 → varAt t f y l = varAt s f y l) ∧
      UnderWay t e (fun l => loadWords x.sgn (Memory.read q.spad (s.spadOffset e l) w.bytes)) := by
  obtain ⟨-, hs, -, -⟩ := s.of_issuer h.issuer
  obtain ⟨⟨k, hf⟩, hlanes, hoffs⟩ := State.spadResolve_ok hok
  have hcommits : ∀ p ∈ ts, e.commits e.run p.lane = true := fun p hp => commits_accessLanes (hlanes ▸ List.mem_map_of_mem hp)
  obtain ⟨access, haccess⟩ : ∃ access : LaneMask → State → Given, access = fun run t => spadLoads w.bytes x.sgn e c g run ts { s := t.touchRun e run c g ts } := ⟨_, rfl⟩
  obtain ⟨plan, hexec, hplan⟩ : ∃ plan : State → Issuer → Except Hold Plan, Machine.exec (.lds w x) s = perform (.lds w x) plan s ∧
      plan s e = .ok (laterPlan s e {} access) := by
    refine ⟨_, (show execLds w x s = _ from rfl), ?_⟩
    dsimp only
    rw [hok, haccess]
    rfl
  obtain ⟨t, hgate, hnext⟩ := h.perform_checked hplan rfl (Accessed.refl e.f s)
  have hsound : (s.core c).sound = true := h.sound c k hf
  have htwin := (hgate.twin hf).touchRun hsound e e.run g ts
  have htouched : Touched t (t.touchRun e e.run c g ts) := Touched.touchRun (((hgate.twin hf).sound c).trans hsound) ..
  obtain ⟨hacc, hmem, hgood, hwords⟩ := spadLoads_plain (n := w.bytes) (sgn := x.sgn) (off := s.spadOffset e) (a := { s := t.touchRun e e.run c g ts })
    (fun p hp => ⟨hguard p hp, hcommits p hp, hoffs p hp⟩) ((htwin.group? c g).trans hq)
  have hgiven : access e.run t = spadLoads w.bytes x.sgn e c g e.run ts { s := t.touchRun e e.run c g ts } := by rw [haccess]
  rw [← hgiven] at hacc hmem hgood hwords
  obtain ⟨r, hr⟩ : ∃ r, access e.run t = r := ⟨_, rfl⟩
  rw [hr] at hacc hmem hgood hwords
  obtain ⟨o, ho⟩ : ∃ o, r.result e e.run = o := ⟨_, rfl⟩
  have hd : r.s.dstep = none := hacc.dstep.trans (htouched.dstep.trans (hgate.accessed.dstep.trans h.alone))
  have hcommit : (laterPlan s e {} access).commit e.run t = r.s.modFlow e.f (fun w => w.awaits o) := by
    show (access e.run t).s.later e e.run (access e.run t) = _
    rw [hr, State.later_eq hd, ho]
  obtain ⟨seen, wstat, exempt, hflow⟩ : ∃ seen wstat exempt, r.s.flow? e.f = some { e.w with seen, wstat, exempt } := by
    obtain ⟨exempt, hflow⟩ := hgate.flow hs
    obtain ⟨seen, wstat, exempt, hflow⟩ := hacc.flow ((htouched.flows e.f).trans hflow)
    exact ⟨seen, wstat, exempt, hflow⟩
  have hkeeps (w : Wave) := w.awaits_keeps o
  have hawaits : (r.s.modFlow e.f (fun w => w.awaits o)).flow? e.f = some (({ e.w with seen, wstat, exempt } : Wave).awaits o) := by
    rw [State.flow?_modFlow_self, hflow, Option.map_some]
  have hstance : (({ e.w with seen, wstat, exempt } : Wave).awaits o).stance = e.w.stance := (hkeeps _).2.1
  have hsound' : SoundFor e.f (r.s.modFlow e.f (fun w => w.awaits o)) := fun c k hw =>
    (congrArg Core.sound (r.s.core_modFlow_rest e.f (fun w => w.awaits o) c) :).trans (hacc.sound (fun c k hw => (htouched.sound c).trans (hgate.accessed.sound h.sound c k hw)) c k hw)
  have hd' := (r.s.dstep_modFlow e.f (fun w => w.awaits o)).trans hd
  obtain ⟨hpassed, hdeparts⟩ := h.finish_passed hcommit rfl rfl rfl (by rw [hawaits, Option.map_some, hstance]) hsound' hd'
  obtain ⟨hgroups, -⟩ := h.finish_keeps hcommit rfl rfl rfl hawaits hstance hsound' hd'
  refine ⟨_, hexec.trans hnext, hpassed, fun a => ?_, ?_, fun f y l _ => ?_, ?_⟩
  · rw [State.byte, hdeparts.only.mem, State.mem_modFlow, hmem, htwin.mem]
    rfl
  · rw [hgroups, State.group?_modFlow, hacc.group?, htwin.group?, hq]
  · rw [hdeparts.vars, varAt_modFlow_same _ _ _ _ _ _ (fun w => (hkeeps w).2.2.1) (fun w => (hkeeps w).2.2.2 y l), hacc.varAt, htouched.varAt, hgate.accessed.varAt]
  · refine underWay_of_awaits (g := r) (w := { e.w with seen, wstat, exempt }) ?_ rfl rfl hgood (fun l hl => ?_)
    · rw [hdeparts.only.flows, hawaits, ho]
      rfl
    · rw [hwords, hlanes, if_pos hl]

/-! ### The bytes that a lane stores (R394) -/

theorem length_bytesOfWords (ws : List Word) : (bytesOfWords ws).length = 4 * ws.length := by
  simp [bytesOfWords, List.length_flatMap, length_bytesOfNat, Nat.mul_comm]

/-- A well-formed `sts` stores as many bytes as its width says: a source of 128 bits is a variable's quad. -/
theorem length_storeBytes {w : MemWidth} {x : XArgs} {s : State} {e : Issuer} (h : Ready s (.sts w x) e) (hwf : (Instr.sts w x).wf = true) (t : State) (l : Nat) :
    (t.storeBytes e w.bytes l).length = w.bytes := by
  obtain ⟨p, hp, he⟩ := State.parts_of_issuer h.issuer
  cases hp
  have hrole : e.p.scRole = mr w ∧ e.p.sc = x.sc := by
    rw [he]
    unfold partsFor
    split <;> exact ⟨rfl, rfl⟩
  have hsrc : srcOk (mr w) x.sc = true := by
    change OpSpec.ok _ = true at hwf
    unfold OpSpec.ok at hwf
    simp only [Bool.and_eq_true] at hwf
    obtain ⟨⟨⟨⟨⟨_, hsc⟩, _⟩, _⟩, _⟩, _⟩ := hwf
    exact hsc
  unfold State.storeBytes
  rw [List.length_take, length_bytesOfWords]
  unfold State.storeWords
  rw [hrole.1, hrole.2]
  cases w with
  | b128 =>
    cases hx : x.sc with
    | var n => rfl
    | _ => rw [hx] at hsrc; cases hsrc
  | _ => rfl

/-! ### Writes one after another -/

theorem Machine.Memory.get_write_outside {m : Tab Byte} {a : Nat} {bs : List Byte} {b : Nat} (h : b < a ∨ a + bs.length ≤ b) : (Memory.write m a bs).get b = m.get b := by
  induction bs generalizing m a with
  | nil => rfl
  | cons v bs ih =>
    rw [List.length_cons] at h
    rw [Memory.write, ih (by omega)]
    unfold Memory.setByte
    split
    · exact Tab.get_del_ne _ (by omega)
    · exact Tab.get_set_ne _ _ (by omega)

/-- A group's bytes after the stores of lanes, one after another. -/
def laneWrites (off : Nat → Nat) (bytes : Nat → List Byte) (ls : List Nat) (m : Tab Byte) : Tab Byte := ls.foldl (fun m l => Memory.write m (off l) (bytes l)) m

section LaneWrites

variable {off : Nat → Nat} {bytes : Nat → List Byte} {n : Nat}

/-- A byte that no lane stores to stays. -/
theorem get_laneWrites_outside (hn : ∀ l, (bytes l).length = n) {ls : List Nat} {m : Tab Byte} {a : Nat} (h : ∀ l ∈ ls, a < off l ∨ off l + n ≤ a) :
    (laneWrites off bytes ls m).get a = m.get a := by
  induction ls generalizing m with
  | nil => rfl
  | cons l ls ih =>
    obtain ⟨hl, hls⟩ := List.forall_mem_cons.1 h
    exact (ih hls).trans (Memory.get_write_outside (by rw [hn]; exact hl))

/-- Where several lanes in ascending order store to a byte, the highest one's stands (R394). -/
theorem getD_laneWrites_last (hn : ∀ l, (bytes l).length = n) {ls : List Nat} (hsorted : ls.Pairwise (· < ·)) {m : Tab Byte} {l a : Nat} (hl : l ∈ ls) (hlo : off l ≤ a)
    (hhi : a < off l + n) (h : ∀ k ∈ ls, l < k → a < off k ∨ off k + n ≤ a) : (laneWrites off bytes ls m).getD a 0 = (bytes l).getD (a - off l) 0 := by
  induction ls generalizing m with
  | nil => cases hl
  | cons k ls ih =>
    obtain ⟨hk, hsorted⟩ := List.pairwise_cons.1 hsorted
    obtain ⟨-, hls⟩ := List.forall_mem_cons.1 h
    rcases List.mem_cons.1 hl with rfl | hl
    · have hrest : (laneWrites off bytes (l :: ls) m).get a = (Memory.write m (off l) (bytes l)).get a := get_laneWrites_outside hn fun k hmem => hls k hmem (hk k hmem)
      rw [Tab.getD, hrest, ← Tab.getD, Memory.getD_write, if_pos ⟨hlo, by rw [hn]; exact hhi⟩, List.getD_eq_getElem?_getD]
    · exact ih hsorted hl hls

end LaneWrites

theorem pairwise_accessLanes (e : Issuer) : e.accessLanes.Pairwise (· < ·) := by
  unfold Issuer.accessLanes
  split
  · exact List.pairwise_singleton _ _
  · exact List.pairwise_lt_range.filter _

/-! ### Stores (R111, R114, R396) -/

theorem Machine.Group.home_store {q q' : Group} {r : Record} {off : Nat} {bs : List Byte} (h : q.store r off bs = some q') : q'.home = q.home := by
  unfold Group.store at h
  dsimp only at h
  split at h
  · split at h
    · obtain ⟨_, -, rfl⟩ := Option.map_eq_some_iff.1 h
      rfl
    · cases h
      rfl
  · cases h
    rfl

theorem home_spadStores (r : Record) (off : Nat → Nat) (bytes : Nat → List Byte) (tag : Nat → Option SyncTag) (wave pc : Nat) (xs : List (Nat × Bool)) (q : Group) :
    (spadStores r off bytes tag wave pc xs q).1.home = q.home := by
  induction xs generalizing q with
  | nil => rfl
  | cons x xs ih =>
    obtain ⟨l, guard⟩ := x
    unfold spadStores
    split
    · exact ih _
    · split
      · next q' hq => exact (ih (q'.tagSpad (off l) (bytes l).length (tag l))).trans (Group.home_store hq :)
      · rfl

/-- Stores outside guard lines and windows write their bytes, one after another. -/
theorem spad_spadStores {r : Record} {off : Nat → Nat} {bytes : Nat → List Byte} {tag : Nat → Option SyncTag} {wave pc : Nat} {xs : List (Nat × Bool)}
    (h : ∀ x ∈ xs, x.2 = false ∧ r.windowAt (off x.1) = none) (q : Group) :
    (spadStores r off bytes tag wave pc xs q).1.spad = laneWrites off bytes (xs.map Prod.fst) q.spad := by
  induction xs generalizing q with
  | nil => rfl
  | cons x xs ih =>
    obtain ⟨l, guard⟩ := x
    obtain ⟨hx, hxs⟩ := List.forall_mem_cons.1 h
    obtain ⟨rfl, hplain⟩ : guard = false ∧ r.windowAt (off l) = none := hx
    have hstore : ∃ q', q.store r (off l) (bytes l) = some q' ∧ q'.spad = Memory.write q.spad (off l) (bytes l) := by
      unfold Group.store
      rw [hplain]
      exact ⟨_, rfl, rfl⟩
    obtain ⟨q', hq', hspad⟩ := hstore
    unfold spadStores
    simp only [Bool.false_eq_true, if_false, hq']
    rw [ih hxs]
    show laneWrites off bytes (xs.map Prod.fst) q'.spad = _
    rw [hspad]
    rfl

/-- The effect of `sts` behind its touches, on the group: the stores of the lanes that commit. -/
def performStores (n : Nat) (s : State) (e : Issuer) (c g : Nat) (ts : List SpadTouch) (run : LaneMask) (t : State) : State :=
  t.modGroup c g (fun q => (spadStores (t.recordOf q) (s.spadOffset e) (s.storeBytes e n) (fun l => t.releaseOf e l none) e.w.number e.c.addr
      ((ts.filter (fun p => e.commits run p.lane)).map (fun p => (p.lane, p.guard))) q).1)
    |>.spadWritten c g ((ts.filter (fun p => e.commits run p.lane && !p.guard)).flatMap (fun p => wordsAt p.off n)) (e.c.addr, 0)

/-- The plan of `sts` whose accesses have passed their checks. -/
def storePlan (n : Nat) (s : State) (e : Issuer) (c g : Nat) (ts : List SpadTouch) : Plan where
  probe := { stored := fun l => probeWords (s.storeBytes e n l) }
  commit := fun run t => performStores n s e c g ts run (t.touchRun e run c g ts)

/-- Stores of plain bytes leave what a touch does, and in their group the bytes of their lanes. -/
theorem performStores_plain {n : Nat} {s t : State} {e : Issuer} {c g : Nat} {ts : List SpadTouch} {q : Group} (hs : (t.core c).sound = true) (hq : t.group? c g = some q)
    (hlanes : ts.map SpadTouch.lane = e.accessLanes) (hoffs : ∀ p ∈ ts, p.off = s.spadOffset e p.lane)
    (hplain : ∀ p ∈ ts, p.guard = false ∧ (t.recordOf q).windowAt p.off = none) :
    Touched t (performStores n s e c g ts e.run t) ∧ (performStores n s e c g ts e.run t).mem = t.mem ∧
      ∃ q', (performStores n s e c g ts e.run t).group? c g = some q' ∧ q'.spad = laneWrites (s.spadOffset e) (s.storeBytes e n) e.accessLanes q.spad := by
  have hall : ts.filter (fun p => e.commits e.run p.lane) = ts := List.filter_eq_self.2 fun p hp => commits_accessLanes (hlanes ▸ List.mem_map_of_mem hp)
  obtain ⟨f, hf⟩ : ∃ f : Group → Group, f = fun q => (spadStores (t.recordOf q) (s.spadOffset e) (s.storeBytes e n) (fun l => t.releaseOf e l none) e.w.number e.c.addr
      (ts.map (fun p => (p.lane, p.guard))) q).1 := ⟨_, rfl⟩
  have htouched : Touched t (t.modGroup c g f) := Touched.modGroup t c g f fun q => by rw [hf]; exact home_spadStores ..
  have heq : performStores n s e c g ts e.run t = t.modGroup c g f := by
    unfold performStores State.spadWritten
    rw [hall, ← hf, if_pos ((htouched.sound c).trans hs)]
  rw [heq]
  refine ⟨htouched, rfl, f q, by rw [State.group?_modGroup_self, hq, Option.map_some], ?_⟩
  rw [hf]
  dsimp only
  rw [spad_spadStores (fun x hx => ?_), List.map_map, ← hlanes]
  · rfl
  · obtain ⟨p, hp, rfl⟩ := List.mem_map.1 hx
    obtain ⟨hguard, hwindow⟩ := hplain p hp
    exact ⟨hguard, hoffs p hp ▸ hwindow⟩

/-- An undisturbed `sts` of plain bytes. -/
theorem sts_plain {w : MemWidth} {x : XArgs} {s : State} {e : Issuer} {c g : Nat} {q : Group} {ts : List SpadTouch} (h : Ready s (.sts w x) e)
    (hok : s.spadResolve e w.bytes true (s.budgetTrap e w.bytes (s.spadOffset e) (s.storeBytes e w.bytes)).toList (s.spadOffset e) = .ok (c, g, ts))
    (hq : (s.touchRun e e.run c g ts).group? c g = some q) (hplain : ∀ p ∈ ts, p.guard = false ∧ (s.recordOf q).windowAt p.off = none) :
    ∃ t q', Machine.exec (.sts w x) s = .next t ∧ Passed t e ∧ Raised t e {} ∧ (∀ a, t.byte a = (s.touchRun e e.run c g ts).byte a) ∧ t.group? c g = some q' ∧
      (∀ f y l, l < 64 → varAt t f y l = varAt s f y l) ∧ q'.spad = laneWrites (s.spadOffset e) (s.storeBytes e w.bytes) e.accessLanes q.spad := by
  obtain ⟨-, hs, -, -⟩ := s.of_issuer h.issuer
  obtain ⟨⟨k, hf⟩, hlanes, hoffs⟩ := State.spadResolve_ok hok
  obtain ⟨plan, hexec, hplan⟩ : ∃ plan : State → Issuer → Except Hold Plan, Machine.exec (.sts w x) s = perform (.sts w x) plan s ∧
      plan s e = .ok (storePlan w.bytes s e c g ts) := by
    refine ⟨_, (show execSts w x s = _ from rfl), ?_⟩
    dsimp only
    rw [hok]
    rfl
  obtain ⟨t, hnext, hgate⟩ := h.perform_ok plan _ hplan rfl rfl
  have hgate : Gated e s t := hgate
  have hsound : (s.core c).sound = true := h.sound c k hf
  have htwin := (hgate.twin hf).touchRun hsound e e.run g ts
  have htouched : Touched t (t.touchRun e e.run c g ts) := Touched.touchRun (((hgate.twin hf).sound c).trans hsound) ..
  have hrecord : (t.touchRun e e.run c g ts).recordOf q = s.recordOf q := (htouched.recordOf q).trans ((hgate.twin hf).recordOf q)
  obtain ⟨hstored, hmem, q', hq', hspad⟩ := performStores_plain (n := w.bytes) (t := t.touchRun e e.run c g ts) ((htouched.sound c).trans (((hgate.twin hf).sound c).trans hsound))
    ((htwin.group? c g).trans hq) hlanes hoffs (fun p hp => by rw [hrecord]; exact hplain p hp)
  have hall := htouched.trans hstored
  have hcommit : (storePlan w.bytes s e c g ts).commit e.run t = performStores w.bytes s e c g ts e.run (t.touchRun e e.run c g ts) := rfl
  obtain ⟨exempt, hflow⟩ := hgate.flow hs
  have hflow := (hall.flows e.f).trans hflow
  have hsound' : SoundFor e.f (performStores w.bytes s e c g ts e.run (t.touchRun e e.run c g ts)) := fun c k hw => (hall.sound c).trans (hgate.accessed.sound h.sound c k hw)
  have hd := hall.dstep.trans (hgate.accessed.dstep.trans h.alone)
  obtain ⟨hpassed, hdeparts⟩ := h.finish_passed hcommit rfl rfl rfl (by rw [hflow]; rfl) hsound' hd
  obtain ⟨hgroups, v, hv, hws⟩ := h.finish_keeps hcommit rfl rfl rfl hflow rfl hsound' hd
  refine ⟨_, q', hexec.trans hnext, hpassed, ⟨v, hv, by rw [hws, Wstat.raise_none]⟩, fun a => ?_, (hgroups c g).trans hq', fun f y l _ => ?_, hspad⟩
  · rw [State.byte, hdeparts.only.mem, hmem, htwin.mem]
    rfl
  · rw [hdeparts.vars, hall.varAt, hgate.accessed.varAt]

/-- Settles O35: a load's bytes are those of the group behind the touches, and the stores of the lanes are writes of its bytes one after another, of which the last stands. -/
theorem scratchpadAccess : Obligations.ScratchpadAccess := by
  unfold Obligations.ScratchpadAccess
  refine ⟨fun w x s e c g q ts h hok hq hguard => lds_plain h hok hq hguard, fun w x s e c g q ts h hwf hok hq hplain => ?_⟩
  obtain ⟨-, hlanes, hoffs⟩ := State.spadResolve_ok hok
  have hlen (l : Nat) : (s.storeBytes e w.bytes l).length = w.bytes := length_storeBytes h hwf s l
  obtain ⟨t, q', hexec, hpassed, hraised, hbytes, hq', hvars, hspad⟩ := sts_plain h hok hq hplain
  have hlane {l : Nat} (hl : l ∈ e.accessLanes) : ∃ p ∈ ts, p.lane = l ∧ p.off = s.spadOffset e l := by
    rw [← hlanes] at hl
    obtain ⟨p, hp, rfl⟩ := List.mem_map.1 hl
    exact ⟨p, hp, rfl, hoffs p hp⟩
  refine ⟨t, q', hexec, hpassed, hraised, hbytes, hq', hvars, fun a ha => ?_, fun p hp a hlo hhi hlast => ?_⟩
  · rw [hspad]
    refine get_laneWrites_outside hlen fun l hl => ?_
    obtain ⟨p, hp, -, hoff⟩ := hlane hl
    rw [← hoff]
    exact ha p hp
  · have hbyte : q'.spad.getD a 0 = (s.storeBytes e w.bytes p.lane).getD (a - s.spadOffset e p.lane) 0 := by
      rw [hspad]
      refine getD_laneWrites_last hlen (pairwise_accessLanes e) (hlanes ▸ List.mem_map_of_mem hp) (hoffs p hp ▸ hlo) (hoffs p hp ▸ hhi) fun l hl hlt => ?_
      obtain ⟨p', hp', rfl, hoff⟩ := hlane hl
      rw [← hoff]
      exact hlast p' hp' hlt
    rw [hoffs p hp, ← hbyte]
    rfl

end Sys2Proof
end

