-- ==== Sys2Proof/Proofs/WindowsAndChains.lean ====
section
/-! Refutation: an `enq` whose entry's translation is not aligned reaches the device registers (R108, R110, R284). -/

namespace Sys2Proof

open Sys2Proof.Machine

/-- An `enq` with its descriptor at 0x2000 and its entry at 0. -/
def enqAtZero : XArgs := { dist := 0, s := true, nwb := false, dst := 8, sa := .lit, sb := .special .zero, sc := .var 0, flag := none, imm := 0, lit := some 0x2000 }

/-- A translation of 64 bytes of ASID 1 with every right. -/
def lineTo (va pa : Nat) : Translation := { asid := 1, va, size := 64, pa, pte := 0xDB }

/-- A wave that issues that `enq`, with its destination wave-home. Die 0's TLB translates the entry to an address of host memory 4 bytes below the device registers, which is no
multiple of 64. -/
def enqAcross : State :=
  { (placedState (encode (.enq enqAtZero))).modDie 0 (fun q => { q with tlb := [lineTo 0 (2 ^ 45 - 4), lineTo 0x2000 0x2000] }) with
    launches := [(1, { Launch.plain with record := { Record.plain with ranks := [(8, .wave), (9, .wave)] } })] }

/-- The issuer of the wave's instruction. -/
def enqIssuer : Issuer :=
  let ws := encode (.enq enqAtZero)
  { f := .wave 0 0, w := placedWave ws, c := placedClause ws, i := .enq enqAtZero, p := xSpec 0x1D 9 (some true) .pair .pair .pair .unused (only enqAtZero 0) true enqAtZero }

theorem ready_enqAcross : Ready enqAcross (.enq enqAtZero) enqIssuer where
  issuer := rfl
  legal := by decide +kernel
  free := by decide +kernel
  resident := by decide +kernel
  watches c k h := by cases h; rfl
  sound c k h := by cases h; rfl
  untraced := rfl
  alone := rfl
  run := by decide

/-- The checks of that `enq` pass, and say where its entry is. -/
theorem enqCheck_enqAcross : ∃ s', enqAcross.enqCheck enqIssuer (enqAcross.chainAsid enqIssuer.f 0x2000) 0x2000 0 = (s', .ok (0x2000, 2 ^ 45 - 4, none)) ∧
    s'.ownedBytes (2 ^ 45 - 4) 64 = false ∧ s'.chains.get 0x2000 = none := by
  refine ⟨(enqAcross.enqCheck enqIssuer (enqAcross.chainAsid enqIssuer.f 0x2000) 0x2000 0).1, Prod.ext rfl ?_, ?_, ?_⟩ <;> decide +kernel

/-- No byte of memory behind the device registers' first address has become 0xFF: the store of the entry's first word went to a register. -/
theorem bytes_enqAcross : ∀ t, Machine.exec (.enq enqAtZero) enqAcross = .next t → t.bytes (2 ^ 45) 4 = [0, 0, 0, 0] := by
  have h : (match Machine.exec (.enq enqAtZero) enqAcross with
    | .next t => t.bytes (2 ^ 45) 4
    | _ => [0, 0, 0, 0]) = [0, 0, 0, 0] := by decide +kernel
  intro t ht
  rwa [ht] at h

/-- Refutes O51: a state's TLB may hold a translation that is not aligned to its entry's 64 bytes, so that the first of an entry's bytes lie in host memory and the next in
device-register space, where a store writes no byte of memory. -/
theorem not_windowsAndChains : ¬ Obligations.WindowsAndChains := by
  unfold Obligations.WindowsAndChains
  intro h
  obtain ⟨-, -, -, -, henq, -⟩ := h
  obtain ⟨s', hcheck, howned, hchain⟩ := enqCheck_enqAcross
  obtain ⟨-, hrefused⟩ := henq enqAtZero enqAcross enqIssuer s' 0x2000 (2 ^ 45 - 4) none ready_enqAcross hcheck (by decide) howned
  obtain ⟨t, hexec, hserved⟩ := hrefused (fun htakes => by simp [hchain] at htakes)
  rw [if_neg (by decide), if_neg (by decide), if_neg (by decide)] at hserved
  obtain ⟨-, -, ⟨-, hwritten, -⟩, -⟩ := hserved
  rw [show 2 ^ 45 - 4 + 4 = 2 ^ 45 from rfl, bytes_enqAcross t hexec] at hwritten
  exact absurd hwritten (by decide)

end Sys2Proof
end

