-- ==== Sys2Proof/Proofs/ChainsKept.lean ====
section
/-! Lemmas: the changes that leave the chains (R214, R280). -/

namespace Sys2Proof

open Sys2Proof.Machine

/-! ### What leaves the chains as they are -/

section Chains

variable (s : State) (addr array asid c cause core ctx d die g hi k index lo launch n off pa pc phase piece seq state status sub v va : Nat)
variable (all armed atomic b₀ on poisoned ue write : Bool) (id : BarId) (b : Barrier) (gb : Barrier → Barrier) (gx : Context → Context) (fr : FaultRecord) (f : Flow)
variable (gr : GuardRecord) (i : Image) (fj : Landing → Bool) (gl : Launch → Launch) (lstate : LaunchState) (bs : List Byte) (opt : Option Nat) (tag : Option SyncTag)
variable (gq : Queue → Queue) (site : Site) (stalled : Stalled) (old : Tab Image) (ptr : Translation → Bool) (bad : BadWord) (ch : Chain) (who : Place)

variable {s} in
theorem chains_elim {α : Type} {o : Option α} {h : α → State} (hh : ∀ a, (h a).chains = s.chains) : (o.elim s h).chains = s.chains := by
  cases o with
  | none => rfl
  | some a => exact hh a

variable {s} in
theorem Machine.State.chains_foldl {α : Type} {h : State → α → State} (hh : ∀ s a, (h s a).chains = s.chains) (l : List α) : (l.foldl h s).chains = s.chains :=
  List.foldlRecOn (motive := fun t => t.chains = s.chains) l h rfl fun t ht a _ => (hh t a).trans ht

@[simp] theorem Machine.State.chains_dropRequests : (s.dropRequests f opt).chains = s.chains := rfl

@[simp] theorem Machine.State.chains_modLaunch : (s.modLaunch n gl).chains = s.chains := rfl

@[simp] theorem Machine.State.chains_modQueue : (s.modQueue n gq).chains = s.chains := rfl

@[simp] theorem Machine.State.chains_modContext : (s.modContext n gx).chains = s.chains := rfl

@[simp] theorem Machine.State.chains_keepFault : (s.keepFault launch fr).chains = s.chains := rfl

@[simp] theorem Machine.State.chains_tagWrite : (s.tagWrite pa n atomic tag).chains = s.chains := rfl

@[simp] theorem Machine.State.chains_trimKeys : s.trimKeys.chains = s.chains := rfl

@[simp] theorem Machine.State.chains_trimAreas : (s.trimAreas old).chains = s.chains := rfl

@[simp] theorem Machine.State.chains_forgetFlow : (s.forgetFlow f).chains = s.chains := rfl

@[simp] theorem Machine.State.chains_cancelCalls : (s.cancelCalls die fj).chains = s.chains := rfl

@[simp] theorem Machine.State.chains_dropTlb : (s.dropTlb die ptr).chains = s.chains := rfl

@[simp] theorem Machine.State.chains_wakeWaiters : (s.wakeWaiters id phase all status).chains = s.chains := rfl

@[simp] theorem Machine.State.chains_wakeLines : (s.wakeLines c g lo hi).chains = s.chains := rfl

@[simp] theorem Machine.State.chains_spoil : (s.spoil c bad).chains = s.chains := rfl

@[simp] theorem Machine.State.chains_logCore : (s.logCore core array ue asid addr pc seq).chains = s.chains := by
  unfold State.logCore
  dsimp only
  split <;> simp

@[simp] theorem Machine.State.chains_logDie : (s.logDie d array ue asid addr pc seq).chains = s.chains := by
  unfold State.logDie
  dsimp only
  split <;> simp

@[simp] theorem Machine.State.chains_countGranule : (s.countGranule pa n write).chains = s.chains := by
  unfold State.countGranule
  dsimp only
  split <;> simp

@[simp] theorem Machine.State.chains_poke : (s.poke pa bs atomic tag).chains = s.chains := by
  unfold State.poke
  simp

@[simp] theorem Machine.State.chains_chainPut : (s.chainPut who pa bs).chains = s.chains := by
  unfold State.chainPut
  simp

theorem Machine.State.chains_strike {mark : State → State} (hm : ∀ s, (mark s).chains = s.chains) : (s.strike c k index asid site mark).chains = s.chains := by
  unfold State.strike
  dsimp only
  split
  · rfl
  · split
    · rw [hm]; rfl
    · simp

@[simp] theorem Machine.State.chains_unitWritten : (s.unitWritten c g off site).chains = s.chains := by
  unfold State.unitWritten
  split
  · rfl
  · exact State.chains_strike _ _ _ _ _ _ fun s => s.chains_spoil _ _

@[simp] theorem Machine.State.chains_barBytes : (s.barBytes id b armed).chains = s.chains := by
  cases id with
  | spad c g off => rfl
  | global pa => exact State.chains_poke ..

@[simp] theorem Machine.State.chains_setBar : (s.setBar id b site).chains = s.chains := by
  cases id <;> simp [State.setBar]

@[simp] theorem Machine.State.chains_freeCore : (s.freeCore core).chains = s.chains := by
  unfold State.freeCore
  dsimp only
  split
  · rfl
  · split
    · rfl
    · split <;> rfl

@[simp] theorem Machine.State.chains_dropImageRequests : (s.dropImageRequests core launch i).chains = s.chains := by
  unfold State.dropImageRequests
  refine State.chains_foldl (fun s a => ?_) _
  simp

@[simp] theorem Machine.State.chains_dropAwayRequests : (s.dropAwayRequests launch).chains = s.chains := by
  refine (State.chains_foldl (fun s e => ?_) _).trans (State.chains_foldl (fun s e => ?_) _)
  · split
    · exact chains_elim fun c => State.chains_dropImageRequests ..
    · rfl
  · exact chains_elim fun i => State.chains_dropImageRequests ..

@[simp] theorem Machine.State.chains_dropGroup : (s.dropGroup core g).chains = s.chains := by
  unfold State.dropGroup
  exact (State.chains_freeCore ..).trans (State.chains_foldl (fun s k => s.chains_forgetFlow _) _)

@[simp] theorem Machine.State.chains_dropLaunch : (s.dropLaunch launch).chains = s.chains := by
  refine (State.chains_foldl (fun s e => ?_) _).trans (State.chains_dropAwayRequests ..)
  exact State.chains_foldl (fun s g => s.chains_dropGroup _ _) _

@[simp] theorem Machine.State.chains_startReplay : (s.startReplay n).chains = s.chains := by
  unfold State.startReplay
  simp

@[simp] theorem Machine.State.chains_countReplay : (s.countReplay ctx).chains = s.chains := by
  unfold State.countReplay
  dsimp only
  split <;> simp

@[simp] theorem Machine.State.chains_askSwap : (s.askSwap c).chains = s.chains := by
  unfold State.askSwap
  split
  · rfl
  · dsimp only
    split <;> simp

@[simp] theorem Machine.State.chains_snapBits : (s.snapBits die asid piece on).chains = s.chains := by
  refine State.chains_foldl (fun s x => ?_) _
  dsimp only
  generalize (if on then s.tableWord x.1 ||| 0x100 else if bit (s.tableWord x.1) 8 then s.tableWord x.1 - 0x100 else s.tableWord x.1) = v
  split <;> simp

@[simp] theorem Machine.State.chains_dropPiece : (s.dropPiece asid piece).chains = s.chains := rfl

@[simp] theorem Machine.State.chains_freeSnapshots : (s.freeSnapshots n).chains = s.chains := by
  unfold State.freeSnapshots
  split
  · rfl
  · dsimp only
    split
    · rfl
    · exact State.chains_foldl (fun s p => by simp) _

@[simp] theorem Machine.State.chains_endLaunch : (s.endLaunch n lstate).chains = s.chains := by
  unfold State.endLaunch
  split
  · dsimp only
    split <;> simp
  · rfl

@[simp] theorem Machine.State.chains_queueTo : (s.queueTo n state cause).chains = s.chains := by
  unfold State.queueTo
  split <;> simp

@[simp] theorem Machine.State.chains_queueError : (s.queueError n cause).chains = s.chains := by
  unfold State.queueError
  split
  · split <;> simp
  · rfl

@[simp] theorem Machine.State.chains_failContext : (s.failContext ctx cause).chains = s.chains := by
  unfold State.failContext
  split
  · rfl
  · split
    · rfl
    · refine (State.chains_foldl (fun s e => s.chains_askSwap _) _).trans ((State.chains_foldl (fun s e => s.chains_endLaunch _ _) _).trans ?_)
      exact State.chains_foldl (fun s e => s.chains_queueError _ _) _

@[simp] theorem Machine.State.chains_failLaunch : (s.failLaunch n cause).chains = s.chains := by
  unfold State.failLaunch
  split <;> simp

@[simp] theorem Machine.State.chains_escalate : (s.escalate n).chains = s.chains := by
  unfold State.escalate
  split
  · rfl
  · split
    · split
      · simp
      · split <;> simp
    · rfl

@[simp] theorem Machine.State.chains_faultGroup : (s.faultGroup core g fr b₀).chains = s.chains := by
  unfold State.faultGroup
  split
  · rfl
  · dsimp only
    split <;> simp

@[simp] theorem Machine.State.chains_noWave : (s.noWave core g gr).chains = s.chains := by
  unfold State.noWave
  simp

@[simp] theorem Machine.State.chains_raiseRecord : (s.raiseRecord c g gr).chains = s.chains := by
  unfold State.raiseRecord
  split <;> simp

@[simp] theorem Machine.State.chains_raiseRecords : (s.raiseRecords c g).chains = s.chains := by
  unfold State.raiseRecords
  split
  · rfl
  · exact (chains_elim fun r => State.chains_raiseRecord ..).trans (chains_elim fun r => State.chains_raiseRecord ..)

@[simp] theorem Machine.State.chains_raiseGroups : (s.raiseGroups id).chains = s.chains := by
  refine (State.chains_foldl (fun s x => ?_) _).trans ?_
  · simp
  · exact State.chains_foldl (fun s e => State.chains_foldl (fun s g => s.chains_raiseRecords _ _) _) _

@[simp] theorem Machine.State.chains_applyCaptures : (s.applyCaptures c g off).chains = s.chains := by
  unfold State.applyCaptures
  dsimp only
  split <;> simp

@[simp] theorem Machine.State.chains_moveHeads : (s.moveHeads id n site).chains = s.chains := by
  unfold State.moveHeads
  dsimp only
  split
  · split
    · rfl
    · exact State.chains_setBar ..
  · rfl

@[simp] theorem Machine.State.chains_testBar : (s.testBar id site).chains = s.chains := by
  unfold State.testBar
  split
  · rfl
  · split
    · cases id <;> simp
    · rfl

@[simp] theorem Machine.State.chains_updateBar : (s.updateBar id site gb).chains = s.chains := by
  unfold State.updateBar
  split <;> simp

@[simp] theorem Machine.State.chains_engineFault : (s.engineFault die stalled opt asid va sub).chains = s.chains := by
  unfold State.engineFault
  dsimp only
  split <;> simp

@[simp] theorem Machine.State.chains_snapshot : (s.snapshot die asid launch piece).chains = s.chains := by
  unfold State.snapshot
  split
  · rfl
  · dsimp only
    split <;> simp

@[simp] theorem Machine.State.chains_serveSnap : (s.serveSnap die ctx asid va).chains = s.chains := by
  unfold State.serveSnap
  simp only [State.chains_dropPiece, State.chains_snapBits]
  exact State.chains_foldl (fun s e => s.chains_snapshot _ _ _ _) _

@[simp] theorem Machine.State.chains_firstWrite : (s.firstWrite pa n).chains = s.chains := by
  refine State.chains_foldl (fun s e => ?_) _
  split
  · rfl
  · exact State.chains_foldl (fun s p => s.chains_serveSnap _ _ _ _) _

@[simp] theorem Machine.State.chains_landGlobal : (s.landGlobal ch asid pa bs poisoned).chains = s.chains := by
  unfold State.landGlobal
  split
  · rfl
  · dsimp only
    split <;> simp

end Chains

end Sys2Proof
end

