-- ==== Sys2Proof/Proofs/EngineReads.lean ====
section
/-! Lemmas: what the reads and the translations of a copy engine leave (R224, R227, R272). -/

namespace Sys2Proof

open Sys2Proof.Machine

namespace Accessed

variable {f : Flow} {s t : State}

theorem withFresh (f : Flow) (s : State) (n : Nat) : Accessed f s { s with fresh := n } := ⟨rfl, fun _ _ => rfl, rfl, fun _ => rfl, SameRecords.refl _⟩

theorem of_fst_eq {α : Type} {x : State × α} {a : α} (h : Accessed f s x.1) (hx : x = (t, a)) : Accessed f s t := by
  subst hx
  exact h

/-! What stands behind it of the module's state. -/

theorem power (h : Accessed f s t) : t.power = s.power := (congrArg State.power h.rest :)
theorem contexts (h : Accessed f s t) : t.contexts = s.contexts := (congrArg State.contexts h.rest :)

theorem chainAs (h : Accessed f s t) (c : Chain) : t.chainAs c = s.chainAs c := by
  unfold State.chainAs
  rw [h.contexts]

/-! ### Reads and destinations of an engine (R226, R272) -/

theorem engineRead (f : Flow) (s : State) (die asid va n : Nat) : Accessed f s (s.engineRead die asid va n).1 := by
  have h := translateDie f s die asid va .read false
  unfold State.engineRead
  split
  · exact refl f s
  · split
    · next heq => exact h.of_fst_eq heq
    · next heq =>
      dsimp only
      split
      · exact h.of_fst_eq heq
      · exact (h.of_fst_eq heq).trans (countGranule ..)

theorem engineReads (f : Flow) (die asid n : Nat) (s : State) (va : Nat) : Accessed f s (s.engineReads die asid va n).1 := by
  induction n generalizing s va with
  | zero => exact refl f s
  | succ n ih =>
    have h := engineRead f s die asid va 32
    unfold State.engineReads
    split
    · next heq => exact h.of_fst_eq heq
    · next t _ _ heq =>
      have hrest := (h.of_fst_eq heq).trans (ih t (va + 32))
      split <;> next heq => exact hrest.of_fst_eq heq

theorem engineWords (f : Flow) (die asid n : Nat) (s : State) (va : Nat) : Accessed f s (s.engineWords die asid va n).1 := by
  induction n generalizing s va with
  | zero => exact refl f s
  | succ n ih =>
    have h := engineRead f s die asid va 8
    unfold State.engineWords
    split
    · next heq => exact h.of_fst_eq heq
    · next t _ _ heq =>
      have hrest := (h.of_fst_eq heq).trans (ih t (va + 8))
      split <;> next heq => exact hrest.of_fst_eq heq

theorem engineDest (f : Flow) (s : State) (die asid va n : Nat) : Accessed f s (s.engineDest die asid va n).1 := by
  have h := translateDie f s die asid va .write false
  unfold State.engineDest
  split
  · exact refl f s
  · split
    · next heq => exact h.of_fst_eq heq
    · next heq =>
      dsimp only
      split <;> exact h.of_fst_eq heq

/-- Reads one after another, each from the state that the ones before it leave. -/
theorem foldl_fst {α β : Type} {g : State × β → α → State × β} (h : ∀ x a, Accessed f x.1 (g x a).1) (l : List α) (x : State × β) : Accessed f x.1 (l.foldl g x).1 := by
  induction l generalizing x with
  | nil => exact refl f x.1
  | cons a l ih => exact (h x a).trans (ih (g x a))

theorem readSectors (f : Flow) (s : State) (die asid : Nat) (addrs : List Nat) : Accessed f s (s.readSectors die asid addrs).1 := by
  refine foldl_fst (fun x va => ?_) addrs (s, _)
  split
  · next t _ _ =>
    have h := engineRead f t die asid va 32
    split <;> next heq => exact h.of_fst_eq heq
  · exact refl f _

theorem sourcesOf (f : Flow) (s : State) (ps : List (Nat × Chain × Nat)) : Accessed f s (s.sourcesOf ps).1 := by
  refine foldl_fst (fun x k => ?_) ps (s, _)
  split
  · next t _ =>
    have h := engineReads f k.2.1.die (t.chainAs k.2.1) k.2.2 t (entryOf k.2.1.entry).src
    split <;> next heq => exact h.of_fst_eq heq
  · exact refl f _

theorem entryBar (f : Flow) (s : State) (c : Chain) : Accessed f s (s.entryBar c).1 := by
  have h := engineDest f s c.die (s.chainAs c) (entryOf c.entry).aux 16
  unfold State.entryBar
  split <;> next heq => exact h.of_fst_eq heq

theorem barFault (f : Flow) (s : State) (c : Chain) : Accessed f s (s.barFault c).1 := by
  have h := entryBar f s c
  unfold State.barFault
  split
  · exact refl f s
  · split <;> next heq => exact h.of_fst_eq heq

theorem destFault (f : Flow) (s : State) (chain : Nat) (vas : List Nat) : Accessed f s (s.destFault chain vas).1 := by
  unfold State.destFault
  split
  · exact refl f s
  · next c _ =>
    have hstart : Accessed f s (match s.barFault c with
        | (s, some sub) => ((s, some ((entryOf c.entry).aux, sub)) : State × Option (Nat × Nat))
        | (s, none) => (s, none)).1 := by
      have h := barFault f s c
      split <;> next heq => exact h.of_fst_eq heq
    refine hstart.trans (foldl_fst (fun x va => ?_) vas _)
    split
    · next t =>
      have h := engineDest f t c.die (t.chainAs c) va 32
      split <;> next heq => exact h.of_fst_eq heq
    · exact refl f _

theorem destsFault (f : Flow) (s : State) (ps : List (Nat × List Nat)) : Accessed f s (s.destsFault ps).1 := by
  refine foldl_fst (fun x k => ?_) ps (s, _)
  split
  · next t =>
    split
    · exact refl f t
    · have h := destFault f t k.1 k.2
      split <;> next heq => exact h.of_fst_eq heq
  · exact refl f _

theorem peersOf (f : Flow) (s : State) (c : Chain) (n : Entry) : Accessed f s (s.peersOf c n).1 := by
  have h := engineWords f c.die (s.chainAs c) 1 s n.aux
  unfold State.peersOf
  dsimp only
  split
  · next heq => exact h.of_fst_eq heq
  · next t l heq =>
    have h := h.of_fst_eq heq
    split
    · exact h
    · have hrest := h.trans (engineWords f c.die (s.chainAs c) (l.headD 0) t (n.aux + 8))
      split <;> next heq => exact hrest.of_fst_eq heq

end Accessed

/-! ### The launches and the engines of the dies -/

/-- The launches, and the copy engines of every die, stand as they were. -/
structure SameWork (s t : State) : Prop where
  launches : t.launches = s.launches
  engines : ∀ d, (t.die d).engines = (s.die d).engines

namespace SameWork

variable {s t u : State}

theorem refl (s : State) : SameWork s s := ⟨rfl, fun _ => rfl⟩

theorem trans (h : SameWork s t) (k : SameWork t u) : SameWork s u := ⟨k.launches.trans h.launches, fun d => (k.engines d).trans (h.engines d)⟩

theorem engine (h : SameWork s t) (d n : Nat) : (t.die d).engine n = (s.die d).engine n := by
  unfold Die.engine
  rw [h.engines]

theorem of_fst_eq {α : Type} {x : State × α} {a : α} (h : SameWork s x.1) (hx : x = (t, a)) : SameWork s t := by
  subst hx
  exact h

theorem foldl {α : Type} {g : State → α → State} (h : ∀ s a, SameWork s (g s a)) (l : List α) (s : State) : SameWork s (l.foldl g s) :=
  List.foldlRecOn (motive := fun t => SameWork s t) l g (refl s) fun t ht a _ => ht.trans (h t a)

theorem of_same (hl : t.launches = s.launches) (hd : t.dies = s.dies) : SameWork s t := ⟨hl, fun d => by rw [State.die, hd]; rfl⟩

theorem modDie (s : State) (d : Nat) (g : Die → Die) (h : ∀ q, (g q).engines = q.engines) : SameWork s (s.modDie d g) := by
  refine ⟨rfl, fun d' => ?_⟩
  rw [s.die_modDie]
  split
  · rw [h]
  · rfl

theorem countGranule (s : State) (pa n : Nat) (write : Bool) : SameWork s (s.countGranule pa n write) := by
  unfold State.countGranule
  split
  · exact refl s
  · refine trans (t := { s with fresh := s.fresh + 1 }) (of_same rfl rfl) ?_
    exact modDie _ _ _ fun _ => rfl

theorem poke (s : State) (pa : Nat) (bs : List Byte) (atomic : Bool) (tag : Option SyncTag) : SameWork s (s.poke pa bs atomic tag) := by
  unfold State.poke
  refine trans (of_same ?_ ?_) (countGranule _ pa bs.length true)
  · rfl
  · rfl

theorem pinLeaf (s : State) (pa size pte : Nat) : SameWork s (s.pinLeaf pa size pte) := by
  unfold State.pinLeaf
  dsimp only
  split
  · exact modDie s _ _ fun _ => rfl
  · exact refl s

theorem touchLeaf (s : State) (entry pte : Nat) (write : Bool) : SameWork s (s.touchLeaf entry pte write).1 := by
  unfold State.touchLeaf
  generalize (pte ||| 0x40 ||| if write then 0x80 else 0) = v
  dsimp only
  split
  · exact refl s
  · exact poke _ _ _ _ _

theorem walkFill (s : State) (die asid va : Nat) (use : Use) (steward : Bool) : SameWork s (s.walkFill die asid va use steward).1 := by
  have hcount : SameWork s ((s.walkEntries die asid va).foldl (fun s a => s.countGranule a 8 false) s) := foldl (fun s a => countGranule s a 8 false) _ s
  unfold State.walkFill
  dsimp only
  split
  · exact hcount
  · next entry base size pa pte _ =>
    have hpin := hcount.trans (pinLeaf _ pa size pte)
    split
    · exact hpin
    · refine (hpin.trans (touchLeaf _ entry pte (use == .write))).trans ?_
      dsimp only
      exact modDie _ die _ fun _ => rfl

theorem translateDie (s : State) (die asid va : Nat) (use : Use) (steward : Bool) : SameWork s (s.translateDie die asid va use steward).1 := by
  unfold State.translateDie
  split
  · exact refl s
  · exact walkFill _ _ _ _ _ _

theorem engineRead (s : State) (die asid va n : Nat) : SameWork s (s.engineRead die asid va n).1 := by
  have h := translateDie s die asid va .read false
  unfold State.engineRead
  split
  · exact refl s
  · split
    · next heq => exact h.of_fst_eq heq
    · next heq =>
      dsimp only
      split
      · exact h.of_fst_eq heq
      · exact (h.of_fst_eq heq).trans (countGranule _ _ _ _)

theorem engineDest (s : State) (die asid va n : Nat) : SameWork s (s.engineDest die asid va n).1 := by
  have h := translateDie s die asid va .write false
  unfold State.engineDest
  split
  · exact refl s
  · split
    · next heq => exact h.of_fst_eq heq
    · next heq =>
      dsimp only
      split <;> exact h.of_fst_eq heq

theorem readSectors (s : State) (die asid : Nat) (addrs : List Nat) : SameWork s (s.readSectors die asid addrs).1 := by
  refine List.foldlRecOn (motive := fun x : State × Except (Nat × Nat) (List Byte × Bool) => SameWork s x.1) addrs _ (refl s) fun x hx va _ => ?_
  split
  · next t _ _ =>
    have h := engineRead t die asid va 32
    split <;> next heq => exact hx.trans (h.of_fst_eq heq)
  · exact hx

end SameWork

end Sys2Proof
end

