-- ==== Sys2Proof/Proofs/Landings.lean ====
section
/-! Lemmas: landings of sectors, sources that cannot be read, and the calls of routines (R119, R123, R215, R275, R276, R278, R282). -/

namespace Sys2Proof

open Sys2Proof.Machine

/-! ### Bytes behind a write -/

theorem Machine.State.mem_poke (s : State) (pa : Nat) (bs : List Byte) (atomic : Bool) (tag : Option SyncTag) : (s.poke pa bs atomic tag).mem = Memory.write s.mem pa bs :=
  State.mem_countGranule ..

theorem Machine.State.bytes_poke_self (s : State) (pa : Nat) (bs : List Byte) (atomic : Bool) (tag : Option SyncTag) : (s.poke pa bs atomic tag).bytes pa bs.length = bs := by
  rw [State.bytes, State.mem_poke]
  exact s.bytes_setBytes_self pa bs

theorem Machine.State.byte_poke_ne (s : State) {pa : Nat} {bs : List Byte} (atomic : Bool) (tag : Option SyncTag) {a : Nat} (h : a < pa ∨ pa + bs.length ≤ a) :
    (s.poke pa bs atomic tag).byte a = s.byte a := by
  rw [State.byte_poke, if_neg (by omega)]

theorem Machine.State.get_modChain_self (s : State) (n : Nat) (g : Chain → Chain) : (s.modChain n g).chains.get n = (s.chains.get n).map g := Tab.get_upd_self ..

theorem Machine.State.get_modChain_ne (s : State) {n m : Nat} (g : Chain → Chain) (h : n ≠ m) : (s.modChain n g).chains.get m = s.chains.get m := Tab.get_upd_ne _ _ h

/-! ### Landings (R119, R215, R282) -/

/-- A sector that no server owns is written, and at most its line marked as poisoned. -/
theorem Machine.State.landGlobal_plain {s : State} {pa : Nat} {bs : List Byte} (h : s.ownedBytes pa bs.length = false) (c : Chain) (asid : Nat) (poisoned : Bool) :
    (s.landGlobal c asid pa bs poisoned).mem = (s.poke pa bs false none).mem ∧
      ∀ f x l, varAt (s.landGlobal c asid pa bs poisoned) f x l = varAt s f x l := by
  have hvar (f : Flow) (x l : Nat) := (Accessed.poke f s pa bs false none).varAt f x l
  unfold State.landGlobal
  rw [if_neg (Bool.eq_false_iff.1 h)]
  dsimp only
  split
  · exact ⟨rfl, hvar⟩
  · exact ⟨rfl, hvar⟩

/-- An entry without a barrier counts nothing. -/
theorem Machine.State.countEntry_unbarred {s : State} {n : Nat} {c : Chain} (hc : s.chains.get n = some c) (h : c.barred = false) : s.countEntry n = s := by
  unfold State.countEntry
  simp only [hc, h, Bool.not_false, if_true]

theorem Machine.State.barFault_unbarred {s : State} {c : Chain} (h : c.barred = false) : s.barFault c = (s, none) := by
  unfold State.barFault
  rw [h]
  rfl

theorem Machine.Chain.barred_of_aux {c : Chain} (h : (entryOf c.entry).aux = 0) : c.barred = false := by
  unfold Chain.barred
  rw [h, bne_self_eq_false, Bool.and_false]

/-- A sector of a COPY without a routine and without a barrier lands where its destination says. -/
theorem Machine.State.copySector_lands {s s1 s2 : State} {n k : Nat} {c : Chain} {bs : List Byte} {p : Bool} {pa : Nat} (hc : s.chains.get n = some c)
    (hrunning : c.running.isSome = true) (hended : c.ended = false) (hop : (entryOf c.entry).op = 1) (hroutine : (entryOf c.entry).routine = 0) (haux : (entryOf c.entry).aux = 0)
    (hk : k < c.todo) (hnew : c.landed.contains k = false) (hruns : s.entryRuns c = true)
    (hread : s.engineRead c.die (s.chainAs c) ((entryOf c.entry).src + 32 * k) 32 = (s1, .ok (bs, p)))
    (hdest : s1.engineDest c.die (s1.chainAs c) ((entryOf c.entry).dst + 32 * k) 32 = (s2, .ok pa)) :
    s.copySector n k = (s2.landGlobal c (s1.chainAs c) pa bs p).modChain n (fun c => { c with landed := c.landed ++ [k] }) := by
  have hsource : Accessed s.cur s s1 := (Accessed.engineRead s.cur s _ _ _ _).of_fst_eq hread
  have hplace : Accessed s.cur s1 s2 := (Accessed.engineDest s.cur s1 _ _ _ _).of_fst_eq hdest
  have hc1 : s1.chains.get n = some c := by rw [hsource.chains, hc]
  have hc2 : s2.chains.get n = some c := by rw [hplace.chains, hc1]
  have hbarred : c.barred = false := Chain.barred_of_aux haux
  have hguard : (c.running.isNone || c.ended || decide ((entryOf c.entry).op ≠ 1) || decide ((entryOf c.entry).routine ≠ 0) || decide (c.todo ≤ k) || c.landed.contains k ||
      !s.entryRuns c) = false := by
    have hmem : k ∉ c.landed := by simpa using hnew
    simp [hrunning, hended, hop, hroutine, hmem, hruns, hk]
  unfold State.copySector
  simp only [hc, hguard, Bool.false_eq_true, if_false, hread]
  unfold State.landEntry
  simp only [hc1, hdest, State.barFault_unbarred hbarred]
  refine State.countEntry_unbarred (c := { c with landed := c.landed ++ [k] }) ?_ hbarred
  rw [State.get_modChain_self, State.chains_landGlobal, hc2]
  rfl

/-- A sector of a window's stage without a routine lands as its source reads. -/
theorem Machine.State.landSource_lands {s s' : State} {c g win st k : Nat} {q : Group} {w : Window} {b : Binding} {x : Stage} {bs : List Byte} {p : Bool}
    (hq : s.group? c g = some q) (hw : q.windows.get win = some w) (hb : w.bound = some b) (hroutine : (regionOf b.region).routine = 0) (hx : b.stages.get st = some x)
    (hfailed : x.failed = none) (hk : k < x.sectors) (hnew : x.landed.contains k = false) (hruns : s.engineRuns (dieOf c) = true)
    (hread : s.engineRead (dieOf c) (s.core c).asid ((regionOf b.region).sourceByte b.base st (32 * k)) 32 = (s', .ok (bs, p))) :
    s.landSource c g win st k = s'.landSector c g win st k bs p := by
  have hmem : k ∉ x.landed := by simpa using hnew
  unfold State.landSource
  simp [hq, hw, hb, hroutine, hx, hfailed, hk, hmem, hruns, hread]

/-- The least number below `n` that a test keeps and for which a function has a value. -/
theorem findSome?_range_filter {α : Type} {n k : Nat} {p : Nat → Bool} {f : Nat → Option α} {v : α} (hk : k < n) (hp : p k = true) (hf : f k = some v)
    (hbelow : ∀ j < k, p j = true → f j = none) : ((List.range n).filter p).findSome? f = some v := by
  obtain ⟨m, rfl⟩ := Nat.exists_eq_add_of_lt hk
  have hsplit : List.range (k + m + 1) = List.range k ++ k :: (List.range m).map (fun j => k + (j + 1)) := by
    rw [Nat.add_assoc, List.range_add, List.range_succ_eq_map, List.map_cons, List.map_map]
    rfl
  have hnone : ((List.range k).filter p).findSome? f = none := by
    rw [List.findSome?_eq_none_iff]
    intro j hj
    obtain ⟨hj, hpj⟩ := List.mem_filter.1 hj
    exact hbelow j (List.mem_range.1 hj) hpj
  rw [hsplit, List.filter_append, List.findSome?_append, hnone, List.filter_cons_of_pos hp, List.findSome?_cons, hf]
  rfl

/-- The first unlanded sector of a stage without a routine whose source cannot be accessed ends the stage, with its address (R123). -/
theorem Machine.State.sourceFails_at {s : State} {c g win st k : Nat} {q : Group} {w : Window} {b : Binding} {t : Stage} (hq : s.group? c g = some q)
    (hw : q.windows.get win = some w) (hb : w.bound = some b) (ht : b.stages.get st = some t) (hfailed : t.failed = none) (hroutine : (regionOf b.region).routine = 0)
    (hruns : s.engineRuns (dieOf c) = true) (hk : k < t.sectors) (hnew : t.landed.contains k = false)
    (hread : (s.engineRead (dieOf c) (s.core c).asid ((regionOf b.region).sourceByte b.base st (32 * k)) 32).2 = .error 0)
    (hbelow : ∀ j < k, t.landed.contains j = false → ∃ x, (s.engineRead (dieOf c) (s.core c).asid ((regionOf b.region).sourceByte b.base st (32 * j)) 32).2 = .ok x) :
    s.sourceFails c g win st = s.failStage c g win st ((regionOf b.region).sourceByte b.base st (32 * k)) := by
  unfold State.sourceFails
  simp only [hq, hw, hb, ht, hfailed, hroutine, hruns, Option.bind_some, Option.isSome_none, Bool.not_true, Bool.or_self, Bool.false_eq_true, if_false, if_true, bne_self_eq_false,
    Bool.false_and]
  rw [findSome?_range_filter (v := (32 * k, 32 * k, 0)) hk (by rw [hnew]; rfl) (by rw [hread]) fun j hj hunlanded => ?_]
  · rfl
  · obtain ⟨x, hx⟩ := hbelow j hj (by simpa using hunlanded)
    rw [hx]

/-! ### Calls of routines (R275, R276) -/

/-- A job's routine is called with its chunk (R275). -/
theorem Machine.State.routineCall_calls {s s1 : State} {d n : Nat} {job : Landing} {j : Job} {input : List Byte} {bad : Bool} (hj : s.jobOf job = some j) (hd : j.die = d)
    (hn : j.engine = n) (hruns : s.jobRuns job = true) (hcallable : j.callable job = true) (hhold : ((s.die d).engine n).hold = false)
    (hcall : ((s.die d).engine n).call = none) (hpower : s.power = .running) :
    let num := bits j.reg 15 12
    let den := bits j.reg 11 8
    let grain := 2 ^ bits j.reg 3 0
    let pos := if num = 0 then 0 else landingSector job * 32 * den / num
    let chunk := chunkBytes num den grain (j.size - pos)
    chunk ≠ 0 → den ≠ 0 → (num = 0 ∨ (pos % chunkBytes num den grain j.size = 0 ∧ pos * num / den = landingSector job * 32)) →
    s.readSectors d j.asid ((List.range ((chunk + 31) / 32)).map (fun k => j.addr (pos + 32 * k))) = (s1, .ok (input, bad)) →
    s.routineCall d n job = State.modEngine { s1 with fresh := s1.fresh + 1 } d n (fun e => { e with call := some {
      job, segment := Config.jobSegment s1.fresh % 8, args := callArgs (Config.jobSegment s1.fresh % 8) chunk pos j.arg s1.fresh, position := pos,
      input := input.take chunk, poisoned := bad } }) := by
  intro num den grain pos chunk hchunk hden hplace hread
  subst hd hn
  have hready : ¬(j.die ≠ j.die ∨ j.engine ≠ j.engine ∨ (!s.jobRuns job) = true ∨ ((s.die j.die).engine j.engine).hold = true ∨
      ((s.die j.die).engine j.engine).call.isSome = true ∨ s.power ≠ .running) := by
    simp [hruns, hhold, hcall, hpower]
  have haligned : ¬(num ≠ 0 ∧ chunkBytes num den grain j.size ≠ 0 ∧ (pos % chunkBytes num den grain j.size ≠ 0 ∨ pos * num / den ≠ landingSector job * 32)) := by
    rintro ⟨hnum, -, hoff⟩
    obtain ⟨hstart, hsector⟩ := hplace.resolve_left hnum
    exact hoff.elim (fun h => h hstart) (fun h => h hsector)
  have hsome : ¬(chunk = 0 ∨ den = 0) := by
    rintro (h | h)
    · exact hchunk h
    · exact hden h
  unfold State.routineCall
  dsimp only
  rw [hj]
  dsimp only
  rw [if_neg hready, if_neg haligned, hcallable, if_neg (by decide), if_neg hsome, hread]

/-- What a routine's return does with the engine's data memory: a shipped routine leaves it, and another one what it says. -/
def dataLeft (s : State) (d n : Nat) (j : Job) (priv : List Byte) : Tab Byte :=
  if j.routine ≤ 8 then ((s.die d).engine n).data else (priv.zip (List.range 32768)).filterMap (fun x => if x.1 = 0 then none else some (x.2, x.1))

/-- A state whose engine has no call and that data memory. -/
def freed (d n : Nat) (data : Tab Byte) (s : State) : State := s.modEngine d n (fun e => { e with call := none, data })

section Return

variable {s : State} {d n : Nat} {c : RoutineCall} {j : Job} {r : RoutineResult} {a0 : Nat} {output o : List Byte} {map m : List Nat} {priv : List Byte}
variable (hcall : ((s.die d).engine n).call = some c) (hruns : s.engineRuns d = true) (hj : s.jobOf c.job = some j)
variable (hgives : (8 < j.routine ∧ r = .returned a0 output map priv) ∨ (j.routine ≤ 8 ∧ shipped j.routine j.arg j.page c.input = some (output, map) ∧ a0 = output.length))

include hcall hruns hj hgives

/-- A routine of a stage returns: its output lands at the matching place of the stage's slot. -/
theorem Machine.State.routineReturn_window {core g win st k : Nat} (hjob : c.job = .window core g win st k)
    (hresult : callResult j.reg k c.input true (some ((a0 : Int), output, map)) = some (o, m)) :
    s.routineReturn d n r = (freed d n (dataLeft s d n j priv) s).landCall c (bits j.reg 15 12) o m := by
  rw [hjob] at hj
  unfold State.routineReturn
  rcases hgives with ⟨hown, rfl⟩ | ⟨hshipped, hship, rfl⟩
  · have hlt : ¬j.routine ≤ 8 := by omega
    simp only [hcall, hruns, hjob, hj, Bool.not_true, Bool.false_eq_true, if_false, if_neg hlt, landingSector, hresult]
    unfold freed dataLeft
    rw [if_neg hlt]
  · cases r <;>
    · simp only [hcall, hruns, hjob, hj, Bool.not_true, Bool.false_eq_true, if_false, if_pos hshipped, hship, Option.map_some, landingSector, hresult]
      unfold freed dataLeft
      rw [if_pos hshipped]

/-- A routine of an entry returns: its output lands at the sectors of its map, once neither its barrier nor a destination has met a page fault. -/
theorem Machine.State.routineReturn_entry {chain k : Nat} {s' : State} (hjob : c.job = .entry chain k)
    (hresult : callResult j.reg k c.input false (some ((a0 : Int), output, map)) = some (o, m)) (hdest : s.destFault chain (s.callDests chain m) = (s', none)) :
    s.routineReturn d n r = (freed d n (dataLeft s d n j priv) s').landCall c (bits j.reg 15 12) o m := by
  rw [hjob] at hj
  unfold State.routineReturn
  rcases hgives with ⟨hown, rfl⟩ | ⟨hshipped, hship, rfl⟩
  · have hlt : ¬j.routine ≤ 8 := by omega
    simp only [hcall, hruns, hjob, hj, Bool.not_true, Bool.false_eq_true, if_false, if_neg hlt, landingSector, hresult, hdest]
    unfold freed dataLeft
    rw [if_neg hlt]
  · cases r <;>
    · simp only [hcall, hruns, hjob, hj, Bool.not_true, Bool.false_eq_true, if_false, if_pos hshipped, hship, Option.map_some, landingSector, hresult, hdest]
      unfold freed dataLeft
      rw [if_pos hshipped]

end Return

/-- The end of a stage leaves the dies (R123). -/
theorem Machine.State.dies_tryUnbind (s : State) (c g win : Nat) : (s.tryUnbind c g win).dies = s.dies := by
  unfold State.tryUnbind
  split
  · rfl
  · split
    · dsimp only
      split <;> rfl
    · rfl

theorem Machine.State.dies_failJob (s : State) (t : Landing) (status addr : Nat) : (s.failJob t status addr).dies = s.dies := by
  cases t with
  | entry chain k => rfl
  | window c g win st k =>
    show (s.failStage c g win st addr).dies = s.dies
    unfold State.failStage
    split
    · rfl
    · split
      · exact State.dies_tryUnbind ..
      · rfl

/-- A call that runs too long is a routine fault: it ends, and is counted (R276). -/
theorem Machine.State.routineTimeout_faults {s : State} {d n : Nat} {c : RoutineCall} {j : Job} (hcall : ((s.die d).engine n).call = some c) (hruns : s.engineRuns d = true)
    (hj : s.jobOf c.job = some j) :
    (((s.routineTimeout d n).die d).engine n).call = none ∧ (((s.routineTimeout d n).die d).engine n).rfaults = min 65535 (((s.die d).engine n).rfaults + 1) := by
  have heq : s.routineTimeout d n = s.routineFault d n c.job (j.addr c.position) := by
    unfold State.routineTimeout
    simp only [hcall, hruns, hj, Bool.not_true, Bool.false_eq_true, if_false]
  have hdie : (s.routineTimeout d n).die d = (s.modEngine d n (fun e => { e with rfaults := min 65535 (e.rfaults + 1), call := none })).die d := by
    rw [heq]
    unfold State.die State.routineFault
    rw [State.dies_failJob]
  have hengine : ((s.routineTimeout d n).die d).engine n = { (s.die d).engine n with rfaults := min 65535 (((s.die d).engine n).rfaults + 1), call := none } := by
    rw [hdie, State.modEngine, State.die_modDie_self]
    exact Tab.getD_set_self ..
  rw [hengine]
  exact ⟨rfl, rfl⟩

end Sys2Proof
end

