-- ==== Sys2Proof/Proofs/Entries.lean ====
section
/-! Lemmas: the start and the completion of a chain's entries (R226, R280 to R283). -/

namespace Sys2Proof

open Sys2Proof.Machine

/-! ### The start of an entry (R281 to R283) -/

/-- A page fault leaves the chains. -/
theorem Machine.State.chains_entryFault {s : State} {n : Nat} {c : Chain} (hc : s.chains.get n = some c) (va sub : Nat) (dest : Bool) (hsub : sub ≠ 0) :
    (s.entryFault n va sub dest).chains = s.chains := by
  unfold State.entryFault
  simp only [hc, if_pos hsub, State.chains_engineFault]

theorem Machine.State.barFault_ne_zero {s t : State} {c : Chain} {sub : Nat} (h : s.barFault c = (t, some sub)) : sub ≠ 0 := by
  unfold State.barFault at h
  split at h
  · cases h
  · split at h
    · cases h
      exact Nat.succ_ne_zero _
    · cases h

/-- The count of an entry's sectors leaves the chains. -/
theorem Machine.State.chains_entryCount (s : State) (c : Chain) (n : Int) (landing : Bool) : (s.entryCount c n landing).1.chains = s.chains := by
  have h := (Accessed.entryBar s.cur s c).chains
  unfold State.entryCount
  split
  · next heq => rw [heq] at h; exact h
  · next heq =>
    rw [heq] at h
    split
    · exact (State.chains_updateBar ..).trans h
    · exact h
  · next heq => rw [heq] at h; exact h

/-- The count of an entry's sectors changes of its record nothing but what counts it and its status. -/
theorem Machine.State.addEntry_chain {s : State} {n : Nat} {c : Chain} (hc : s.chains.get n = some c) (k : Nat) :
    ∃ c', (s.addEntry n k).chains.get n = some c' ∧ c'.running = c.running ∧ c'.entry = c.entry ∧ c'.landed = c.landed ∧ (c.barred = false → c'.status = c.status) := by
  have hget {t : State} {r : Except Nat Bool} (heq : s.entryCount c k false = (t, r)) : t.chains.get n = some c := by
    have hcount := s.chains_entryCount c k false
    rw [heq] at hcount
    rw [hcount, hc]
  unfold State.addEntry
  simp only [hc]
  split
  · exact ⟨c, hc, rfl, rfl, rfl, fun _ => rfl⟩
  · next hbarred =>
    have hvacuous {p : Prop} : c.barred = false → p := fun h => absurd (by rw [h]; rfl) hbarred
    split
    · next heq => exact ⟨{ c with counted := true }, by rw [State.get_modChain_self, hget heq]; rfl, rfl, rfl, rfl, hvacuous⟩
    · next heq => exact ⟨c, hget heq, rfl, rfl, rfl, hvacuous⟩
    · next heq =>
      refine ⟨c.fail 3, by rw [State.get_modChain_self, hget heq]; rfl, ?_, ?_, ?_, hvacuous⟩ <;>
      · unfold Chain.fail
        split <;> rfl

/-- What is said of a chain's record behind the start of its entry. -/
def Machine.Chain.StartsAs (c c' : Chain) (bs : List Byte) (status : Nat) : Prop :=
  (((entryOf bs).op ≠ 1 ∨ (entryOf bs).aux = 0) → c'.running = some (field bs 56 8) ∧ c'.entry = bs ∧ c'.landed = [] ∧ c'.status = status) ∧
    (c' = c ∨ (c'.running = some (field bs 56 8) ∧ c'.entry = bs ∧ c'.landed = []))

/-- The record with which an entry starts is said of behind the count of its sectors, too. -/
theorem Machine.State.addEntry_starts {s : State} {n k status : Nat} {c x : Chain} {bs : List Byte} (hrunning : x.running = some (field bs 56 8)) (hentry : x.entry = bs)
    (hlanded : x.landed = []) (hstatus : x.status = status) :
    ∃ c', (State.addEntry { s with chains := s.chains.set n x } n k).chains.get n = some c' ∧ c.StartsAs c' bs status := by
  obtain ⟨c', hget, hrunning', hentry', hlanded', hstatus'⟩ := State.addEntry_chain (s := { s with chains := s.chains.set n x }) (Tab.get_set_self ..) k
  rw [hrunning] at hrunning'
  rw [hentry] at hentry'
  rw [hlanded] at hlanded'
  refine ⟨c', hget, fun h => ⟨hrunning', hentry', hlanded', (hstatus' ?_).trans hstatus⟩, .inr ⟨hrunning', hentry', hlanded'⟩⟩
  unfold Chain.barred
  rw [hentry]
  rcases h with hop | haux
  · rw [beq_false_of_ne hop, Bool.false_and]
  · rw [haux, bne_self_eq_false, Bool.and_false]

/-- An entry at HEAD starts, or its chain stays as it was until the steward has served a page fault of its barrier. -/
theorem Machine.State.startEntry_chain {s s1 : State} {n : Nat} {c : Chain} {bs : List Byte} {p : Bool} (hc : s.chains.get n = some c) (hstate : s.chainState n = 1)
    (hidle : c.running = none) (hpower : s.power = .running) (hruns : s.engineRuns c.die = true)
    (hread : s.engineReads c.die (s.chainAs c) (s.chainWord n 0) 2 = (s1, .ok (bs, p))) (harg : (entryOf bs).arg = 0) :
    ∃ c', (s.startEntry n).chains.get n = some c' ∧ c.StartsAs c' bs ((entryOf bs).startStatus (s1.entryRoutine c (entryOf bs))) := by
  have hreads : Accessed s.cur s s1 := (Accessed.engineReads s.cur _ _ _ s _).of_fst_eq hread
  have hc1 : s1.chains.get n = some c := by rw [hreads.chains, hc]
  have hready : ¬((decide (s.chainState n ≠ 1) || c.running.isSome || s.power != .running || !s.engineRuns c.die) = true) := by
    simp [hstate, hidle, hpower, hruns]
  unfold State.startEntry
  simp only [hc]
  rw [if_neg hready, hread]
  simp only [harg, bne_self_eq_false, Bool.and_false, Bool.false_and, Bool.false_eq_true, if_false]
  split
  · next t sub heq =>
    split at heq
    · next hcounts =>
      have hop : (entryOf bs).op = 1 := by
        simp only [Bool.and_eq_true, beq_iff_eq] at hcounts
        obtain ⟨⟨-, hop⟩, -⟩ := hcounts
        exact hop
      have ht : t.chains = s1.chains := ((Accessed.barFault s.cur s1 _).of_fst_eq heq).chains
      refine ⟨c, ?_, fun h => ?_, .inl rfl⟩
      · rw [State.chains_entryFault (c := c) (by rw [ht, hc1]) _ _ _ (State.barFault_ne_zero heq), ht, hc1]
      · rw [State.barFault_unbarred (Chain.barred_of_aux (h.resolve_left fun hne => hne hop))] at heq
        cases heq
    · cases heq
  · split
    · exact State.addEntry_starts rfl rfl rfl rfl
    · exact ⟨_, Tab.get_set_self .., fun _ => ⟨rfl, rfl, rfl, rfl⟩, .inr ⟨rfl, rfl, rfl⟩⟩

/-! ### Writes of a descriptor (R280) -/

theorem Machine.State.bytes_congr {s t : State} {a n : Nat} (h : ∀ k < n, t.byte (a + k) = s.byte (a + k)) : t.bytes a n = s.bytes a n :=
  List.map_congr_left fun k hk => h k (List.mem_range.1 hk)

section ChainPut

variable {s : State} {who : Place} {a : Nat} {bs : List Byte}

theorem Machine.State.byte_chainPut_ne {b : Nat} (h : b < a ∨ a + bs.length ≤ b) : (s.chainPut who a bs).byte b = s.byte b := State.byte_poke_ne _ _ _ h

theorem Machine.State.bytes_chainPut_ne {b n : Nat} (h : b + n ≤ a ∨ a + bs.length ≤ b) : (s.chainPut who a bs).bytes b n = s.bytes b n :=
  State.bytes_congr fun k hk => State.byte_chainPut_ne (by omega)

theorem Machine.State.bytes_chainPut_self : (s.chainPut who a bs).bytes a bs.length = bs := State.bytes_poke_self ..

/-- A field of a descriptor that has been written reads as the value. -/
theorem Machine.State.chainWord_chainPut_self {pa off v : Nat} (h : v < 2 ^ 64) : (s.chainPut who (pa + off) (bytesOfNat 8 v)).chainWord pa off = v := by
  have hbytes := State.bytes_chainPut_self (s := s) (who := who) (a := pa + off) (bs := bytesOfNat 8 v)
  rw [length_bytesOfNat] at hbytes
  rw [State.chainWord, hbytes, natOfBytes_bytesOfNat]
  exact Nat.mod_eq_of_lt h

/-- A field apart from the bytes written reads as before. -/
theorem Machine.State.chainWord_chainPut_ne {pa off : Nat} (h : pa + off + 8 ≤ a ∨ a + bs.length ≤ pa + off) : (s.chainPut who a bs).chainWord pa off = s.chainWord pa off := by
  rw [State.chainWord, State.bytes_chainPut_ne h]
  rfl

theorem Machine.State.chainState_chainPut_ne {pa : Nat} (h : pa + 33 < a ∨ a + bs.length ≤ pa + 33) : (s.chainPut who a bs).chainState pa = s.chainState pa := by
  rw [State.chainState, State.byte_chainPut_ne h]
  rfl

end ChainPut

/-! ### The completion of an entry (R283) -/

/-- The writes of the step of an entry that ended well, behind the service of its descriptor's piece. -/
def stepWrites (u : State) (who : Place) (n seq next : Nat) : State :=
  let v := u.chainPut who (n + 24) (bytesOfNat 8 seq)
  if next = 0 then ((v.chainPut who n (bytesOfNat 8 0)).chainPut who (n + 8) (bytesOfNat 8 0)).chainPut who (n + 33) [0] else v.chainPut who n (bytesOfNat 8 next)

/-- The step takes DONE, and HEAD from NEXT; an empty chain has no TAIL and is idle. -/
theorem stepWrites_spec {u : State} {who : Place} {n seq next : Nat} (hseq : seq < 2 ^ 64) (hnext : next < 2 ^ 64) :
    let t := stepWrites u who n seq next
    t.chains = u.chains ∧ t.chainWord n 24 = seq ∧ t.chainWord n 0 = next ∧ (next = 0 → t.chainWord n 8 = 0 ∧ t.chainState n = 0) ∧
      (next ≠ 0 → t.chainWord n 8 = u.chainWord n 8 ∧ t.chainState n = u.chainState n) ∧ ∀ a, (a < n ∨ n + 64 ≤ a) → t.byte a = u.byte a := by
  intro t
  have hlen (v : Nat) : (bytesOfNat 8 v).length = 8 := length_bytesOfNat 8 v
  by_cases hzero : next = 0
  · have ht : t = (((u.chainPut who (n + 24) (bytesOfNat 8 seq)).chainPut who n (bytesOfNat 8 0)).chainPut who (n + 8) (bytesOfNat 8 0)).chainPut who (n + 33) [0] := if_pos hzero
    rw [ht]
    refine ⟨by simp only [State.chains_chainPut], ?_, ?_, fun _ => ⟨?_, ?_⟩, fun h => absurd hzero h, fun a ha => ?_⟩
    · rw [State.chainWord_chainPut_ne, State.chainWord_chainPut_ne, State.chainWord_chainPut_ne, State.chainWord_chainPut_self hseq] <;> simp only [hlen, List.length_singleton] <;> omega
    · rw [State.chainWord_chainPut_ne, State.chainWord_chainPut_ne, hzero]
      · exact State.chainWord_chainPut_self (pa := n) (off := 0) (by decide)
      · rw [hlen]; omega
      · rw [List.length_singleton]; omega
    · rw [State.chainWord_chainPut_ne, State.chainWord_chainPut_self (by decide)]
      rw [List.length_singleton]; omega
    · have hbytes := State.bytes_chainPut_self (s := ((u.chainPut who (n + 24) (bytesOfNat 8 seq)).chainPut who n (bytesOfNat 8 0)).chainPut who (n + 8) (bytesOfNat 8 0)) (who := who)
        (a := n + 33) (bs := [0])
      have hbyte := State.getD_bytes _ (n + 33) 1 0 Nat.one_pos ▸ congrArg (fun l : List Byte => l.getD 0 0) hbytes
      exact congrArg BitVec.toNat hbyte
    · rw [State.byte_chainPut_ne, State.byte_chainPut_ne, State.byte_chainPut_ne, State.byte_chainPut_ne] <;> simp only [hlen, List.length_singleton] <;> omega
  · have ht : t = (u.chainPut who (n + 24) (bytesOfNat 8 seq)).chainPut who n (bytesOfNat 8 next) := if_neg hzero
    rw [ht]
    refine ⟨by simp only [State.chains_chainPut], ?_, ?_, fun h => absurd h hzero, fun _ => ⟨?_, ?_⟩, fun a ha => ?_⟩
    · rw [State.chainWord_chainPut_ne, State.chainWord_chainPut_self hseq]
      rw [hlen]; omega
    · exact State.chainWord_chainPut_self (pa := n) (off := 0) hnext
    · rw [State.chainWord_chainPut_ne, State.chainWord_chainPut_ne] <;> rw [hlen] <;> omega
    · rw [State.chainState_chainPut_ne, State.chainState_chainPut_ne] <;> rw [hlen] <;> omega
    · rw [State.byte_chainPut_ne, State.byte_chainPut_ne] <;> rw [hlen] <;> omega

/-- The record of a chain whose running entry is over. -/
def Machine.Chain.closed (seq : Nat) (x : Chain) : Chain :=
  { x with running := none, entry := [], todo := 0, landed := [], status := 0, matched := false, page := [], counted := false, mute := false, sites := x.sites.del seq }

/-- The running entry that ended well and whose STATUS can be written completes. -/
theorem Machine.State.completeEntry_step {s s1 : State} {n pa seq : Nat} {c : Chain} (hc : s.chains.get n = some c) (hdone : c.done = true) (hstatus : c.status = 0)
    (hrunning : c.running = some seq) (hmute : c.mute = false) (hpower : s.power ≠ .burrow) (hruns : s.engineRuns c.die = true)
    (hdest : s.engineDest c.die (s.chainAs c) (s.chainWord n 0 + 4) 4 = (s1, .ok pa)) :
    s.completeEntry n = (stepWrites ((s1.chainPut (enginePlace c.die) pa [0, 0, 0, 0]).firstWrite n 64) (enginePlace c.die) n seq
      (natOfBytes (s1.bytes (pa + 4) 8))).modChain n (Chain.closed seq) := by
  have hended : c.ended = false := by unfold Chain.ended; rw [hstatus]; rfl
  have hready : ¬((s.power == .burrow || !s.engineRuns c.die) = true) := by simp [hpower, hruns]
  unfold State.completeEntry
  simp only [hc]
  rw [if_neg hready, if_pos hdone]
  unfold State.finishEntry State.withdrawEntry
  simp only [hended, Bool.false_and, Bool.false_eq_true, if_false, hmute, hdest, hstatus]
  unfold State.closeEntry State.chainStep
  rw [hrunning, hstatus]
  rfl

/-- Where no launch protects a piece, a write of the engine has nothing to serve first (R193). -/
theorem Machine.State.firstWrite_unprotected {s : State} (h : ∀ l ∈ s.launches, l.2.protectedPieces = []) (pa n : Nat) : s.firstWrite pa n = s := by
  unfold State.firstWrite
  refine List.foldlRecOn (motive := fun t => t = s) s.launches _ rfl fun t ht e he => ?_
  split
  · exact ht
  · dsimp only
    rw [h e he]
    exact ht

end Sys2Proof
end

