-- ==== Sys2Proof/Proofs/Collectives.lean ====
section
/-! Lemmas: the match of a collective (R249, R250, R287). -/

namespace Sys2Proof

open Sys2Proof.Machine

/-- A record of a collective that runs is matched, and awaits no sector of its own. -/
def Machine.Chain.Matched (c : Chain) : Prop := c.matched = true ∧ c.todo = 0 ∧ c.landed = []

/-- Of the chains' records at most one's status has changed. -/
def StatusOnly (n : Nat) (s t : State) : Prop :=
  (∀ m, n ≠ m → t.chains.get m = s.chains.get m) ∧ ∀ x, s.chains.get n = some x → ∃ status, t.chains.get n = some { x with status }

namespace StatusOnly

variable {n : Nat} {s t u : State}

theorem of_chains (n : Nat) (h : t.chains = s.chains) : StatusOnly n s t := ⟨fun _ _ => by rw [h], fun x hx => ⟨x.status, by rw [h, hx]⟩⟩

theorem trans (h : StatusOnly n s t) (k : StatusOnly n t u) : StatusOnly n s u := by
  refine ⟨fun m hm => (k.1 m hm).trans (h.1 m hm), fun x hx => ?_⟩
  obtain ⟨status, hstatus⟩ := h.2 x hx
  obtain ⟨status', hstatus'⟩ := k.2 _ hstatus
  exact ⟨status', hstatus'⟩

theorem modChain (s : State) (n : Nat) (g : Chain → Chain) (hg : ∀ x, ∃ status, g x = { x with status }) : StatusOnly n s (s.modChain n g) := by
  refine ⟨fun m hm => s.get_modChain_ne g hm, fun x hx => ?_⟩
  obtain ⟨status, hstatus⟩ := hg x
  exact ⟨status, by rw [State.get_modChain_self, hx, Option.map_some, hstatus]⟩

/-- What lands of a collective at a participant changes of the chains' records at most its status. -/
theorem landCollective (s : State) (n va : Nat) (bs : List Byte) (poisoned : Bool) (keep : Nat → Bool) : StatusOnly n s (s.landCollective n va bs poisoned keep) := by
  refine List.foldlRecOn (motive := fun t => StatusOnly n s t) (List.range (bs.length / 32)) _ (of_chains n rfl) fun t ht i _ => ?_
  split
  · exact ht
  · next c _ =>
    split
    · exact ht
    · have hdest := (Accessed.engineDest t.cur t c.die (t.chainAs c) (va + 32 * i) 32).chains
      split
      · next heq =>
        rw [heq] at hdest
        exact (ht.trans (of_chains n hdest)).trans (modChain _ n _ fun _ => ⟨3, rfl⟩)
      · next heq =>
        rw [heq] at hdest
        exact ht.trans (of_chains n ((State.chains_landGlobal ..).trans hdest))

end StatusOnly

/-- The effect of a match on one participant matches its record, and no other record changes. -/
def MatchesAt (n : Nat) (s t : State) : Prop :=
  (∀ m, n ≠ m → t.chains.get m = s.chains.get m) ∧ ∀ x, s.chains.get n = some x → ∃ y, t.chains.get n = some y ∧ y.Matched ∧ y.running = x.running

theorem Machine.State.matchesAt_endMatched (s : State) (n status : Nat) : MatchesAt n s (s.endMatched n status) :=
  ⟨fun _ hm => s.get_modChain_ne _ hm, fun x hx =>
    ⟨{ x with status, matched := true, todo := 0, landed := [] }, by rw [State.endMatched, State.get_modChain_self, hx]; rfl, ⟨rfl, rfl, rfl⟩, rfl⟩⟩

theorem MatchesAt.then {n : Nat} {s t u : State} (h : MatchesAt n s t) (k : StatusOnly n t u) : MatchesAt n s u := by
  refine ⟨fun m hm => (k.1 m hm).trans (h.1 m hm), fun x hx => ?_⟩
  obtain ⟨y, hy, hmatched, hrunning⟩ := h.2 x hx
  obtain ⟨status, hu⟩ := k.2 y hy
  exact ⟨_, hu, hmatched, hrunning⟩

/-- What a match does at one participant: its record ends matched, its result lands, and a status is recorded where it has none. -/
theorem Machine.State.matchesAt_ended (s : State) (n status va : Nat) (bs : List Byte) (poisoned : Bool) (keep : Nat → Bool) (status' : Nat) :
    MatchesAt n s (((s.endMatched n status).landCollective n va bs poisoned keep).modChain n (fun x => if x.status = 0 then { x with status := status' } else x)) := by
  refine (s.matchesAt_endMatched n status).then ((StatusOnly.landCollective _ n va bs poisoned keep).trans (StatusOnly.modChain _ n _ fun x => ?_))
  split
  · exact ⟨status', rfl⟩
  · exact ⟨x.status, rfl⟩

/-- Where each of several effects matches a participant, all the participants are matched behind them. -/
theorem foldl_matchesAt {α : Type} {g : State → α → State} {at_ : α → Nat} (hg : ∀ s a, MatchesAt (at_ a) s (g s a)) (l : List α) {s : State} {n : Nat} {x : Chain}
    (hx : s.chains.get n = some x) :
    ∃ y, (l.foldl g s).chains.get n = some y ∧ y.running = x.running ∧ (n ∈ l.map at_ ∨ x.Matched → y.Matched) := by
  induction l generalizing s x with
  | nil => exact ⟨x, hx, rfl, fun h => h.resolve_left List.not_mem_nil⟩
  | cons a l ih =>
    obtain ⟨hother, hself⟩ := hg s a
    by_cases hn : at_ a = n
    · subst hn
      obtain ⟨y, hy, hmatched, hrunning⟩ := hself x hx
      obtain ⟨z, hz, hz', hdone⟩ := ih hy
      exact ⟨z, hz, hz'.trans hrunning, fun _ => hdone (.inr hmatched)⟩
    · obtain ⟨z, hz, hz', hdone⟩ := ih ((hother n hn).trans hx)
      refine ⟨z, hz, hz', fun h => hdone (h.imp_left fun hmem => ?_)⟩
      exact (List.mem_cons.1 hmem).resolve_left (Ne.symm hn)

theorem exists_matched_of_foldl {α : Type} {g : State → α → State} {at_ : α → Nat} (hg : ∀ s a, MatchesAt (at_ a) s (g s a)) {l : List α} {s : State} {n : Nat} {x : Chain}
    (hmem : n ∈ l.map at_) (hx : s.chains.get n = some x) : ∃ y, (l.foldl g s).chains.get n = some y ∧ y.Matched ∧ y.running = x.running := by
  obtain ⟨y, hy, hrunning, hdone⟩ := foldl_matchesAt hg l hx
  exact ⟨y, hy, hdone (.inl hmem), hrunning⟩

/-- A key of a table has a value. -/
theorem Machine.Tab.exists_of_mem_keys {α : Type} {t : Tab α} {k : Nat} (h : k ∈ t.map Prod.fst) : ∃ v, t.get k = some v := by
  induction t with
  | nil => cases h
  | cons e t ih =>
    obtain ⟨j, v⟩ := e
    rw [Tab.get_cons]
    split
    · exact ⟨v, rfl⟩
    · next hj => exact ih ((List.mem_cons.1 h).resolve_left (Ne.symm hj))

/-- A collective whose participants have all started, with sources and destinations that can be reached, runs (R287). -/
theorem Machine.State.collective_matches {s s1 s2 s3 : State} {n : Nat} {c : Chain} {peers : List (Option Nat)} {l : List (List Byte × Bool)} (hc : s.chains.get n = some c)
    (hjoins : c.joins c = true) (hpower : s.power ≠ .burrow) (hruns : s.engineRuns c.die = true) (hpeers : s.peersOf c (entryOf c.entry) = (s1, .ok (some peers)))
    (hself : peers.contains (some n) = true) (hstarted : ∀ p ∈ peers, ∃ a ∈ s.joiners c, p = some a) :
    let e := entryOf c.entry
    let ps := peers.filterMap id
    let part (k : Nat) : Chain := s1.chains.getD k c
    (∀ k ∈ s.joiners c, let m := entryOf (part k).entry
      m.op = e.op ∧ m.fmt = e.fmt ∧ m.len = e.len ∧ m.arg % 64 = e.arg % 64 ∧ k ∈ ps) →
    (e.op = 0x13 → e.arg % 64 < ps.length) → (∀ k ∈ ps, s1.engineRuns (part k).die = true) →
    let sectors (r : Nat) : Nat := if e.op = 0x13 ∧ r ≠ e.arg % 64 then 0 else (e.sizes ps.length).1 / 32
    s1.sourcesOf (ps.zip (List.range ps.length) |>.map (fun k => (k.1, part k.1, sectors k.2))) = (s2, .ok l) →
    s2.destsFault (ps.map (fun k => (k, (List.range ((e.sizes ps.length).2 / 32)).map (fun i => (entryOf (part k).entry).dst + 32 * i)))) = (s3, none) →
    ∀ k ∈ ps, ∃ c', (s.collective n).chains.get k = some c' ∧ c'.Matched ∧ c'.running = (part k).running := by
  intro e ps part hsame hroot hengines sectors hsources hdests k hk
  have hread := (Accessed.peersOf s.cur s c (entryOf c.entry)).of_fst_eq hpeers
  have hsourced := (Accessed.sourcesOf s.cur s1 _).of_fst_eq hsources
  have hplaced := (Accessed.destsFault s.cur s2 _).of_fst_eq hdests
  have hchains : s3.chains = s.chains := by rw [hplaced.chains, hsourced.chains, hread.chains]
  obtain ⟨x, hx⟩ : ∃ x, s.chains.get k = some x := by
    obtain ⟨p, hp, hpk⟩ := List.mem_filterMap.1 hk
    obtain ⟨a, ha, rfl⟩ := hstarted p hp
    cases hpk
    obtain ⟨y, hy, rfl⟩ := List.mem_map.1 ha
    exact Tab.exists_of_mem_keys (List.mem_map_of_mem (List.mem_filter.1 hy).1)
  have hpart : part k = x := by
    show (s1.chains.get k).getD c = x
    rw [hread.chains, hx]
    rfl
  have hready : ¬((!c.joins c || s.power == .burrow || !s.engineRuns c.die) = true) := by simp [hjoins, hpower, hruns]
  have hall : peers.all (fun p => p.any (s.joiners c).contains) = true := by
    rw [List.all_eq_true]
    intro p hp
    obtain ⟨a, ha, rfl⟩ := hstarted p hp
    simpa using ha
  unfold State.collective
  simp only [hc]
  rw [if_neg hready, hpeers]
  simp only [hself, hall, Bool.not_true, Bool.false_eq_true, if_false]
  have hagree : ¬((!(s.joiners c).all (fun k => (entryOf (part k).entry).op == e.op && (entryOf (part k).entry).fmt == e.fmt && (entryOf (part k).entry).len == e.len &&
      (entryOf (part k).entry).arg % 64 == e.arg % 64 && ps.contains k) || e.op == 0x13 && decide (ps.length ≤ e.arg % 64)) = true) := by
    rw [Bool.not_eq_true, Bool.or_eq_false_iff, Bool.not_eq_false', List.all_eq_true]
    refine ⟨fun j hj => ?_, by simpa using hroot⟩
    obtain ⟨hop, hfmt, hlen, harg, hmem⟩ := hsame j hj
    simp [hop, hfmt, hlen, harg, hmem]
  have hrun : ¬((!ps.all fun k => s1.engineRuns (part k).die) = true) := by simpa using hengines
  refine (congrArg (fun t : State => t.chains.get k) ((if_neg hagree).trans (if_neg hrun))).symm ▸ ?_
  simp only [e, ps, part, sectors] at hsources hdests
  rw [hsources]
  dsimp only
  rw [hdests]
  have hmem : k ∈ (ps.zip (List.range ps.length)).map Prod.fst := by
    rw [List.map_fst_zip (by rw [List.length_range])]
    exact hk
  rw [hpart]
  exact exists_matched_of_foldl (fun t a => t.matchesAt_ended a.1 ..) hmem ((congrArg (fun t : Tab Chain => t.get k) hchains).trans hx)

end Sys2Proof
end

