-- ==== Sys2Proof/Proofs/EngineEvents.lean ====
section
/-! What copy engines do on their own (R119, R123, R215, R275, R276, R278, R281 to R283, R287). -/

namespace Sys2Proof

open Sys2Proof.Machine

theorem Machine.State.engine_modEngine_self (s : State) (d n : Nat) (g : Engine → Engine) : ((s.modEngine d n g).die d).engine n = g ((s.die d).engine n) := by
  rw [State.modEngine, State.die_modDie_self]
  exact Tab.getD_set_self ..

theorem Machine.State.launches_chainPut (s : State) (who : Place) (a : Nat) (bs : List Byte) : (s.chainPut who a bs).launches = s.launches := (SameWork.poke s a bs _ _).launches

/-- Settles O55. Each event's change of state is one equation about the model's function for it (Landings, Entries, Collectives); what the translations and reads before it leave
comes from `Accessed` and `SameWork`, and what a write changes from the rules of `poke` and `chainPut`. -/
theorem engineEvents : Obligations.EngineEvents := by
  unfold Obligations.EngineEvents
  refine ⟨?_, ?_, ?_, ?_, ?_, ?_, ?_, ?_, ?_⟩
  · intro s s1 s2 n k c bs p pa hc e hrunning hended hop hroutine haux hk hnew hruns hread hdest hlen howned
    have hlands := State.copySector_lands hc hrunning hended hop hroutine haux hk hnew hruns hread hdest
    have hsource : Accessed s.cur s s1 := (Accessed.engineRead s.cur s _ _ _ _).of_fst_eq hread
    have hplace : Accessed s.cur s1 s2 := (Accessed.engineDest s.cur s1 _ _ _ _).of_fst_eq hdest
    obtain ⟨hmem, hvar⟩ := State.landGlobal_plain (s := s2) (hlen.symm ▸ howned) c (s1.chainAs c) p
    refine ⟨_, congrArg Host.Outcome.next hlands, ?_, fun a ha => ?_, ?_, fun f x l => ?_⟩
    · have hbytes := s2.bytes_poke_self pa bs false none
      rw [hlen, State.bytes, ← hmem] at hbytes
      exact hbytes
    · have hbyte := s2.byte_poke_ne (bs := bs) false none (hlen.symm ▸ ha)
      rw [State.byte, ← hmem] at hbyte
      exact hbyte
    · rw [State.get_modChain_self, State.chains_landGlobal, hplace.chains, hsource.chains, hc]
      rfl
    · have hsame := (Accessed.engineRead f s c.die (s.chainAs c) ((entryOf c.entry).src + 32 * k) 32).of_fst_eq hread
      have hsame' := (Accessed.engineDest f s1 c.die (s1.chainAs c) ((entryOf c.entry).dst + 32 * k) 32).of_fst_eq hdest
      exact (hvar f x l).trans ((hsame'.varAt f x l).trans (hsame.varAt f x l))
  · intro s s' c g win st k q w b x bs p hq hw hb hroutine hx hfailed hk hnew hruns hread
    exact congrArg Host.Outcome.next (State.landSource_lands hq hw hb hroutine hx hfailed hk hnew hruns hread)
  · intro s c g win st q w b t k hq hw hb ht hfailed hroutine hruns addr read hk hnew hread hbelow
    exact congrArg Host.Outcome.next (State.sourceFails_at hq hw hb ht hfailed hroutine hruns hk hnew hread hbelow)
  · intro s s1 n c bs p hc hstate hidle hpower hruns hread harg
    obtain ⟨c', hget, hstarts⟩ := State.startEntry_chain hc hstate hidle hpower hruns hread harg
    exact ⟨_, c', rfl, hget, hstarts⟩
  · intro s s1 n c pa seq hc hdone hstatus hrunning hseq hmute hpower hruns hdest hapart next u
    have hplace : Accessed s.cur s s1 := (Accessed.engineDest s.cur s _ _ _ _).of_fst_eq hdest
    have hnext : next < 2 ^ 64 := by
      have hlt := natOfBytes_lt (s1.bytes (pa + 4) 8)
      rwa [State.length_bytes] at hlt
    have hcompletes : s.completeEntry n = (stepWrites u (enginePlace c.die) n seq next).modChain n (Chain.closed seq) :=
      State.completeEntry_step hc hdone hstatus hrunning hmute hpower hruns hdest
    have hspec := stepWrites_spec (u := u) (who := enginePlace c.die) (n := n) hseq hnext
    generalize stepWrites u (enginePlace c.die) n seq next = v at hcompletes hspec
    obtain ⟨hchains, hDone, hHead, hempty, hmore, hbytes⟩ := hspec
    refine ⟨_, Chain.closed seq c, congrArg Host.Outcome.next hcompletes, ?_, rfl, hDone, hHead, hempty, hmore, hbytes, fun hplain => ?_⟩
    · rw [State.get_modChain_self, hchains, State.chains_firstWrite, State.chains_chainPut, hplace.chains, hc]
      rfl
    · have hlaunches : s1.launches = s.launches := ((SameWork.engineDest s _ _ _ _).of_fst_eq hdest).launches
      have hu : u = s1.chainPut (enginePlace c.die) pa [0, 0, 0, 0] := State.firstWrite_unprotected (by rwa [State.launches_chainPut, hlaunches]) n 64
      refine ⟨(State.bytes_congr fun k hk => hbytes (pa + k) (by omega)).trans ?_, fun a ha ha' => (hbytes a ha).trans ?_⟩
      · rw [hu]
        exact State.bytes_chainPut_self
      · rw [hu]
        exact State.byte_chainPut_ne ha'
  · intro s s1 d n job j input bad hj hd hn hruns hcallable hhold hcall hpower num den grain pos chunk hchunk hden hplace hread
    have hsame : SameWork s s1 := (SameWork.readSectors s _ _ _).of_fst_eq hread
    have hcalls := State.routineCall_calls hj hd hn hruns hcallable hhold hcall hpower hchunk hden hplace hread
    have hengine := State.engine_modEngine_self { s1 with fresh := s1.fresh + 1 } d n (fun e => { e with call := some {
      job, segment := Config.jobSegment s1.fresh % 8, args := callArgs (Config.jobSegment s1.fresh % 8) chunk pos j.arg s1.fresh, position := pos,
      input := input.take chunk, poisoned := bad } })
    refine ⟨_, _, congrArg Host.Outcome.next hcalls, congrArg Engine.call hengine, rfl, rfl, rfl, rfl, Nat.mod_lt _ (by decide), rfl, ?_, fun _ => rfl, rfl⟩
    rw [hengine]
    exact (congrArg Engine.hold (hsame.engine d n)).trans hhold
  · intro s d n c j r a0 output map priv o m hcall hruns hj hgives left free
    refine ⟨fun core g win st k hjob hresult => ?_, fun chain k s' hjob hresult hdest => ?_⟩
    · exact congrArg Host.Outcome.next (State.routineReturn_window hcall hruns hj hgives hjob hresult)
    · exact congrArg Host.Outcome.next (State.routineReturn_entry hcall hruns hj hgives hjob hresult hdest)
  · intro s d n c j hcall hruns hj
    exact ⟨_, rfl, State.routineTimeout_faults hcall hruns hj⟩
  · intro s s1 s2 s3 n c peers l hc hjoins hpower hruns e hpeers hself hstarted ps part hsame hroot hengines sectors hsources hdests
    refine ⟨_, rfl, fun k hk => ?_⟩
    obtain ⟨c', hget, ⟨hmatched, htodo, hlanded⟩, hrunning⟩ :=
      State.collective_matches hc hjoins hpower hruns hpeers hself hstarted hsame hroot hengines hsources hdests k hk
    exact ⟨c', hget, hmatched, htodo, hlanded, hrunning⟩

end Sys2Proof
end

