-- ==== Sys2Proof/Proofs/Fences.lean ====
section
/-! Proof of O38, fences (R140, R142, R405): a fence changes its flow's record alone, of which the releases that its threads carry and WSTAT.SCOPE. -/

namespace Sys2Proof

open Sys2Proof.Machine

/-- A table whose values at some keys are changed one after another has a property of the changed values at each of the keys, and where it had it before. -/
theorem Machine.Tab.getD_foldl_change {α : Type} {p : α → Prop} {g : α → α} (d : α) (hg : ∀ v, p (g v)) (ls : List Nat) (t : Tab α) (l : Nat) (h : l ∈ ls ∨ p (t.getD l d)) :
    p ((ls.foldl (fun t l => t.set l (g (t.getD l d))) t).getD l d) := by
  induction ls generalizing t with
  | nil => exact h.resolve_left List.not_mem_nil
  | cons a ls ih =>
    refine ih _ ?_
    by_cases hal : a = l
    · subst hal
      exact .inr (by rw [Tab.getD_set_self]; exact hg _)
    · rw [Tab.getD_set_ne _ _ _ hal]
      exact h.imp_left fun hl => (List.mem_cons.1 hl).resolve_left (Ne.symm hal)

/-- A fence leaves of its flow's record everything but the releases carried and WSTAT. -/
theorem Machine.State.fenced_keeps (s : State) (f : Flow) (run : LaneMask) (release acquire : Option Nat) (w : Wave) :
    let v := s.fenced f run release acquire w
    { v with fences := [], wstat := Wstat.reset } = { w with fences := [], wstat := Wstat.reset } := by
  unfold State.fenced
  cases release <;> cases acquire <;> dsimp only <;> split <;> rfl

theorem Machine.State.fences_fenced (s : State) (f : Flow) (run : LaneMask) (release acquire : Option Nat) (w : Wave) :
    (s.fenced f run release acquire w).fences = match release with
      | some k => (LaneMask.toList run).foldl (fun t l => t.set l (max k (t.getD l 0))) w.fences
      | none => w.fences := by
  unfold State.fenced
  cases release <;> cases acquire <;> dsimp only <;> split <;> rfl

/-- The plan of a fence that has nothing to wait for. -/
def fencePlan (x : XArgs) (e : Issuer) : Plan where
  commit := fun run s => s.fenceRun e.f run (ordRelease x) (ordAcquire x)

/-- An acquire fence is held while reads of its run are out, unless a `dstep` steps it (R140, R405, R444). -/
def fenceOrHold (x : XArgs) (s : State) (e : Issuer) : Except Hold Plan :=
  if (ordAcquire x).isSome && e.w.readsOut e.run && s.dstep.isNone then .error (.held s) else .ok (fencePlan x e)

theorem exec_fence (x : XArgs) (s : State) : Machine.exec (.fence x) s = perform (.fence x) (fenceOrHold x) s := rfl

/-- An instruction whose effect is a change of its flow's own record, of no variable, leaves everything else alone. -/
theorem Calm.of_modFlow {s s' t : State} {e : Issuer} {g : Wave → Wave} (hO : OnlyVars s s') (hV : ∀ f x l, varAt s' f x l = varAt s f x l)
    (hN : ∀ f, f ≠ e.f → s'.flow? f = s.flow? f) (hdata : ∀ f x l, varAt (s'.modFlow e.f g) f x l = varAt s' f x l) (hOt : OnlyVars (s'.modFlow e.f g) t)
    (hVt : ∀ f x l, varAt t f x l = varAt (s'.modFlow e.f g) f x l) (hNt : ∀ f, f ≠ e.f → t.flow? f = (s'.modFlow e.f g).flow? f) :
    Calm s t e (fun _ _ => False) where
  rest := (congrArg (fun v : State => { v with cores := s.cores, dies := s.dies }) hOt.rest).trans ((s'.modFlow_rest e.f g _ _).trans hO.rest)
  vars := fun f x _ l _ => (hVt f x l).trans ((hdata f x l).trans (hV f x l))
  flows := fun f hne => by rw [hNt f hne, State.flow?_modFlow_ne _ _ (Ne.symm hne), hN f hne]
  cores := fun c => (hOt.cores c).trans ((State.proj_modFlow Core.still (fun _ => rfl) s' e.f g c).trans (hO.cores c))
  dies := fun d => (hOt.dies d).trans ((s'.die_modFlow_still e.f g d).trans (hO.dies d))
  groups := fun c k => (hOt.groups c k).trans ((congrArg _ (s'.group?_modFlow e.f g c k)).trans (hO.groups c k))

/-- An undisturbed instruction whose own checks hold it leaves the state that they hold it in. -/
theorem Ready.perform_held {s s' : State} {i : Instr} {e : Issuer} (h : Ready s i e) (plan : State → Issuer → Except Hold Plan)
    (hp : plan s e = .error (.held s')) : perform i plan s = .next s' := by
  unfold perform
  simp only [h.issuer, h.legal, h.free, Bool.false_eq_true, if_false, ite_self, Bool.and_false, h.resident, hp]

/-- An acquire fence waits while earlier reads of its run are out (R140, R405). -/
theorem fence_waits {s : State} {x : XArgs} {e : Issuer} {k : Nat} (h : Ready s (.fence x) e) (hk : ordAcquire x = some k) (hout : e.w.readsOut e.run = true) :
    Machine.exec (.fence x) s = .next s := by
  refine (exec_fence x s).trans (h.perform_held _ ?_)
  unfold fenceOrHold
  rw [hk, hout, h.alone]
  rfl

/-- A fence that has nothing to wait for makes no access and passes, with its release carried (R140, R405). -/
theorem fence_passes {s : State} {x : XArgs} {e : Issuer} (h : Ready s (.fence x) e) (hfree : ordAcquire x = none ∨ e.w.readsOut e.run = false) :
    ∃ t w, Machine.exec (.fence x) s = .next t ∧ Passed t e ∧ Latched t e .invalid ∧ Calm s t e (fun _ _ => False) ∧ t.flow? e.f = some w ∧
      { w.still with fences := [] } = { e.w.still with fences := [] } ∧
      (∀ k, ordRelease x = some k → ∀ l, e.run.getLsbD l = true → k ≤ w.fences.getD l 0) ∧ (ordRelease x = none → w.fences = e.w.fences) := by
  obtain ⟨-, hf, hc, -⟩ := s.of_issuer h.issuer
  have hplan : fenceOrHold x s e = .ok (fencePlan x e) := by
    unfold fenceOrHold
    rcases hfree with hk | hout
    · rw [hk]; rfl
    · rw [hout, Bool.and_false, Bool.false_and]; rfl
  obtain ⟨s', hexec, hs⟩ := h.perform_ok _ _ hplan rfl rfl
  obtain ⟨w0, ha, hc0, hf0, hO, hV, hN⟩ := h.gated s' hs
  have hkeeps := s'.fenced_keeps e.f e.run (ordRelease x) (ordAcquire x) w0
  have hfences := s'.fences_fenced e.f e.run (ordRelease x) (ordAcquire x) w0
  have hdata := (KeepsData.fenceRun s' hf0 e.run (ordRelease x) (ordAcquire x)).1.vars
  have hcommit := s'.fenceRun_eq e.f e.run (ordRelease x) (ordAcquire x)
  rw [hcommit] at hdata
  generalize s'.fenced e.f e.run (ordRelease x) (ordAcquire x) = g at hkeeps hfences hdata hcommit
  have hstill : ({ (g w0).still with fences := [] } : Wave) = { e.w.still with fences := [] } :=
    (congrArg (fun v : Wave => { v.still with fences := [] }) hkeeps).trans (congrArg (fun v : Wave => { v with fences := [] }) ha.still)
  have hhandler : (g w0).handler = e.w.handler := (congrArg Wave.handler hstill :)
  have hmovers : (g w0).movers e.c = e.w.movers e.c := (congrArg (fun v : Wave => v.movers e.c) hstill :)
  obtain ⟨t, hfin, hOt, hVt, hNt, w, hft, -, hlatch, -, hplace⟩ := finish_leaves (pl := fencePlan x e) hcommit rfl rfl
    ((s'.flow?_modFlow_self e.f g).trans (congrArg (Option.map g) hf0)) ((congrArg Wave.clause hkeeps :).trans (hc0.trans hc))
    ((congrArg Wave.traced hstill :).trans h.untraced)
    (fun c k hw => (s'.sound_modFlow e.f g c).trans ((congrArg Core.sound (hO.cores c) :).trans (h.sound c k hw)))
    ((s'.dstep_modFlow e.f g).trans (hO.dstep.trans h.alone))
  rw [hhandler, hmovers] at hplace
  have hw := hOt.flows e.f
  rw [State.flow?_modFlow_self, hf0, hft] at hw
  have hwstill : w.still = (g w0).still := Option.some.inj hw
  have hwfences : w.fences = (g w0).fences := (congrArg Wave.fences hwstill :)
  refine ⟨t, w, (exec_fence x s).trans (hexec.trans (congrArg _ hfin)), ⟨w, hft, hplace⟩, ⟨w, hft, hlatch ▸ (g w0).head_pushLatch e.i .invalid⟩,
    .of_modFlow hO hV hN hdata hOt hVt hNt, hft, (congrArg (fun v : Wave => { v with fences := [] }) hwstill).trans hstill, fun k hk l hl => ?_, fun hk => ?_⟩
  · rw [hwfences, hfences, hk]
    exact Tab.getD_foldl_change (p := (k ≤ ·)) (g := max k) 0 (le_max_left k) _ _ l (.inl ((LaneMask.mem_toList _ l).2 hl))
  · rw [hwfences, hfences, hk]
    exact (congrArg Wave.fences ha.still :)

/-- Settles O38: a fence holds while an acquire has reads to wait for, and else passes. -/
theorem fences : Obligations.Fences :=
  ⟨fun _ _ _ h hfree => fence_passes h hfree, fun _ _ _ _ h hk hout => fence_waits h hk hout⟩

end Sys2Proof
end

