-- ==== Sys2Proof/Proofs/FromOutside.lean ====
section
/-! Lemmas: what the host, the stewards' register writes, attestation, the Fox port, trail records and the power cap do (R152, R432, R457, R460, R497, R498). -/

namespace Sys2Proof

open Sys2Proof.Machine

/-! ### The host (R152) -/

section HostAtomic

variable {s : State} {op : HostAtomic} {n pa b c : Nat}
variable (hn : n = 4 ∨ n = 8) (hreach : hostReach pa n = true) (hpower : s.power = .running) (hself : (s.die (paDie pa)).fenceSelf = false)
  (hpoison : s.poison.contains (lineOf pa) = false) (howned : s.ownedBytes pa n = false)

include hn hreach hpower hself hpoison howned

/-- A host atomic that reaches memory writes what it makes of the old value (R152). -/
theorem hostAtomicop_writes {v : Nat} (hv : hostAtomicNew op (8 * n) (natOfBytes (s.bytes pa n)) b c = some v) :
    Machine.exec (.hostAtomicop op n pa b c) s = .next ((s.firstWrite pa n).poke pa (bytesOfNat n v) true none) := by
  have hwidth : (n == 4 || n == 8) = true := by simpa using hn
  show execHostAtomicop op n pa b c s = _
  unfold execHostAtomicop
  simp only [hwidth, hreach, hpower, hself, hpoison, howned, hv, bne_self_eq_false, Bool.not_true, Bool.or_self, Bool.false_eq_true, if_false]

/-- A host compare-and-swap that finds another value changes nothing (R152). -/
theorem hostAtomicop_keeps (hv : hostAtomicNew op (8 * n) (natOfBytes (s.bytes pa n)) b c = none) : Machine.exec (.hostAtomicop op n pa b c) s = .next s := by
  have hwidth : (n == 4 || n == 8) = true := by simpa using hn
  show execHostAtomicop op n pa b c s = _
  unfold execHostAtomicop
  simp only [hwidth, hreach, hpower, hself, hpoison, howned, hv, bne_self_eq_false, Bool.not_true, Bool.or_self, Bool.false_eq_true, if_false]

/-- A host atomic writes the bytes that it names and no other, but for what the first write to their pieces does (R152, R193). -/
theorem hostAtomicop_spec {v : Nat} (hv : hostAtomicNew op (8 * n) (natOfBytes (s.bytes pa n)) b c = some v) :
    ∃ t, Machine.exec (.hostAtomicop op n pa b c) s = .next t ∧ t.bytes pa n = bytesOfNat n v ∧ ∀ a, a < pa ∨ pa + n ≤ a → t.byte a = (s.firstWrite pa n).byte a := by
  have hlen : (bytesOfNat n v).length = n := length_bytesOfNat n v
  refine ⟨_, hostAtomicop_writes hn hreach hpower hself hpoison howned hv, ?_, fun a ha => State.byte_poke_ne _ _ _ (hlen.symm ▸ ha)⟩
  have hbytes := (s.firstWrite pa n).bytes_poke_self pa (bytesOfNat n v) true none
  rwa [hlen] at hbytes

end HostAtomic

/-- A write of the host to memory of a die of the module, or to host memory, is performed (R152). -/
theorem hostPostedWrite_writes {s : State} {pa : Nat} {bs : List Byte} (hpa : pa < 2 ^ 52) (hdie : paDie pa < 4) (hbs : bs ≠ []) (hpower : s.power = .running)
    (hself : (s.die (paDie pa)).fenceSelf = false)
    (hplace : (paSpace pa = 0 ∧ paOffset pa + bs.length ≤ 2 ^ 39 ∧ s.ownedBytes pa bs.length = false) ∨
      (paSpace pa = 1 ∧ paOffset pa + bs.length ≤ 2 ^ 44 ∧ paDie pa % 2 = 0)) :
    Machine.exec (.hostPostedWrite pa bs) s = .next ((if paSpace pa = 0 then s.firstWrite pa bs.length else s).poke pa bs false none) := by
  have hguard : ¬(pa / 2 ^ 52 ≠ 0 ∨ 4 ≤ paDie pa ∨ bs = [] ∨ s.power ≠ .running) := by
    simp only [Nat.div_eq_of_lt hpa, hbs, hpower, ne_eq, not_true_eq_false, false_or, or_false, not_le, hdie]
  show execHostPostedWrite pa bs s = _
  unfold execHostPostedWrite
  rw [if_neg hguard]
  rcases hplace with ⟨hspace, hoff, howned⟩ | ⟨hspace, hoff, heven⟩
  · simp only [hspace, hself, howned, Bool.false_eq_true, or_false, if_neg (not_lt.2 hoff), if_false, if_true]
  · simp only [hspace, hself, heven, Bool.false_eq_true, or_false, if_neg (not_lt.2 hoff), Nat.zero_ne_one, Nat.one_ne_zero, if_false]

/-- A write of the host that no die takes is dropped (R152). -/
theorem hostPostedWrite_dropped {s : State} {pa : Nat} {bs : List Byte}
    (hclosed : (paSpace pa < 2 ∧ (s.die (paDie pa)).fenceSelf = true) ∨ (paSpace pa = 2 ∧ s.barOpen (paDie pa) = false)) :
    Machine.exec (.hostPostedWrite pa bs) s = .next s := by
  show execHostPostedWrite pa bs s = _
  unfold execHostPostedWrite
  split
  · rfl
  · rcases hclosed with ⟨hspace, hself⟩ | ⟨hspace, hbar⟩
    · obtain hspace | hspace : paSpace pa = 0 ∨ paSpace pa = 1 := by omega
      · simp only [hspace, hself, or_true, if_true]
      · simp only [hspace, hself, or_true, if_true]
    · simp only [hspace, hbar, Bool.not_false, or_true, if_true]

/-- A write of the host leaves the bytes outside it as the first write to their pieces did, and every variable (R152, R193). -/
theorem hostPostedWrite_spec {s : State} {pa : Nat} {bs : List Byte} (hpa : pa < 2 ^ 52) (hdie : paDie pa < 4) (hbs : bs ≠ []) (hpower : s.power = .running)
    (hself : (s.die (paDie pa)).fenceSelf = false)
    (hplace : (paSpace pa = 0 ∧ paOffset pa + bs.length ≤ 2 ^ 39 ∧ s.ownedBytes pa bs.length = false) ∨
      (paSpace pa = 1 ∧ paOffset pa + bs.length ≤ 2 ^ 44 ∧ paDie pa % 2 = 0)) :
    let s0 : State := if paSpace pa = 0 then s.firstWrite pa bs.length else s
    ∃ t, Machine.exec (.hostPostedWrite pa bs) s = .next t ∧ t.bytes pa bs.length = bs ∧ (∀ a, a < pa ∨ pa + bs.length ≤ a → t.byte a = s0.byte a) ∧
      ∀ f x l, varAt t f x l = varAt s f x l := by
  intro s0
  have hfirst : Touched s s0 := by
    unfold s0
    split
    · exact Touched.firstWrite ..
    · exact Touched.refl s
  exact ⟨_, hostPostedWrite_writes hpa hdie hbs hpower hself hplace, State.bytes_poke_self .., fun a ha => State.byte_poke_ne _ _ _ ha,
    (hfirst.trans (Touched.poke ..)).varAt⟩

/-! ### Register writes (R432) -/

theorem registerWrite_stores {s : State} {d off n : Nat} {v : DWord} (hn : n = 4 ∨ n = 8) (haligned : off % n = 0) (hd : d < 4) (hoff : off < 2 ^ 44)
    (hself : (s.die d).fenceSelf = false) :
    Machine.exec (.registerWrite d off n v) s = .next (s.devStore (d * 2 ^ 46 + 2 * 2 ^ 44 + off) (bytesOfNat n v.toNat)) := by
  have hwidth : (n == 4 || n == 8) = true := by simpa using hn
  show execRegisterWrite d off n v s = _
  unfold execRegisterWrite
  simp only [hwidth, haligned, hself, bne_self_eq_false, Bool.not_true, Bool.or_false, decide_eq_false (not_le.2 hd), decide_eq_false (not_le.2 hoff), Bool.false_eq_true,
    if_false]

/-! ### What the management port reports (R457, R497) -/

theorem spdmRequest_reports {s : State} {n v : Nat} (hv : s.measurement (if (s.die 0).fenceSelf then 1 else 0) n = some v) :
    ∃ t, Machine.exec (.spdmRequest n) s = .next t ∧ t.mgmtOut = s.mgmtOut ++ [(if (s.die 0).fenceSelf then 1 else 0, 0x200 + n, v)] ∧ { t with mgmtOut := s.mgmtOut } = s := by
  have hexec : Machine.exec (.spdmRequest n) s = .next (s.report (if (s.die 0).fenceSelf then 1 else 0) (0x200 + n) v) := by
    show execSpdmRequest n s = _
    unfold execSpdmRequest
    simp only [hv]
  exact ⟨_, hexec, rfl, rfl⟩

theorem foxRead_reports (s : State) (d c k : Nat) (i : FoxItem) : let r := s.foxValue (64 * d + c % 64) k i
    ∃ t, Machine.exec (.foxRead d c k i) s = .next t ∧ { t with mgmtOut := s.mgmtOut, fresh := s.fresh } = s ∧
      t.mgmtOut = s.mgmtOut ++ (if Config.sessionAdmitted s.fresh = true then [(d, 0x100 + r.1, r.2)] else []) := by
  refine ⟨_, rfl, ?_⟩
  split
  · exact ⟨rfl, rfl⟩
  · exact ⟨rfl, (List.append_nil _).symm⟩

/-! ### Trail records (R460 to R462) -/

/-- A tagged instruction that has not written back gives no record yet (R460). -/
theorem trailRecord_early {s : State} {c n : Nat} {r : TrailData} {g : TrailTag} {w : Wave} (hg : (s.core c).trailTags.get n = some g)
    (hw : (s.core c).waves.get g.slot = some w) (hback : g.back w = false) : Machine.exec (.trailRecord c n r) s = .next s := by
  show Host.Outcome.next (s.trailRecord c n r) = _
  unfold State.trailRecord
  simp only [hg, hw, hback, Bool.false_eq_true, if_false]

/-- A record enters a buffer with room (R462). -/
theorem Machine.State.pushTrail_room {s : State} {c : Nat} {bs : List Byte} (h : (s.core c).trailBuf.length < 31) :
    s.pushTrail c bs = s.modCore c (fun q => { q with trailBuf := q.trailBuf ++ [bs], trailSerial := (q.trailSerial + 1) % 2 ^ 32 }) := by
  unfold State.pushTrail
  refine if_neg ?_
  rw [State.core_modCore_self, List.length_append, List.length_singleton]
  omega

/-- A tagged instruction that has written back gives its record to a buffer with room, and is tagged no more (R460, R461). -/
theorem trailRecord_enters {s : State} {c n : Nat} {r : TrailData} {g : TrailTag} {w : Wave} (hg : (s.core c).trailTags.get n = some g)
    (hw : (s.core c).waves.get g.slot = some w) (hback : g.back w = true) (hroom : (s.core c).trailBuf.length < 31) :
    ∃ t, Machine.exec (.trailRecord c n r) s = .next t ∧ (t.core c).trailBuf = (s.core c).trailBuf ++ [trailBytes c (s.core c).asid (s.core c).trailSerial g r] ∧
      (t.core c).trailSerial = ((s.core c).trailSerial + 1) % 2 ^ 32 ∧ (t.core c).trailTags.get n = none ∧ { t with cores := s.cores } = s := by
  have hroom' : ((s.modCore c (fun q => { q with trailTags := q.trailTags.del n })).core c).trailBuf.length < 31 := by rwa [State.core_modCore_self]
  have hexec : Machine.exec (.trailRecord c n r) s = .next (s.trailRecord c n r) := rfl
  unfold State.trailRecord at hexec
  simp only [hg, hw, hback, if_true, State.pushTrail_room hroom'] at hexec
  refine ⟨_, hexec, ?_⟩
  rw [State.core_modCore_self, State.core_modCore_self]
  exact ⟨rfl, rfl, Tab.get_del_self .., rfl⟩

/-! ### The power cap (R498) -/

theorem Machine.Die.sample_above {q : Die} {w : Nat} (h : q.capW < w) (hclock : 1000 < q.clock) :
    q.sample w = { q with clock := max 1000 (q.clock - 50), lowered := min 65535 (q.lowered + 1) } := by
  unfold Die.sample
  rw [if_pos h, if_neg (not_le.2 hclock)]

theorem Machine.Die.sample_below {q : Die} {w : Nat} (h : w ≤ q.capW) (hlow : w * 100 < 95 * q.capW) : q.sample w = { q with clock := min 2000 (q.clock + 50) } := by
  unfold Die.sample
  rw [if_neg (not_lt.2 h), if_pos hlow]

theorem Machine.Die.sample_between {q : Die} {w : Nat} (h : w ≤ q.capW) (hhigh : 95 * q.capW ≤ w * 100) : q.sample w = q := by
  unfold Die.sample
  rw [if_neg (not_lt.2 h), if_neg (not_lt.2 hhigh)]

/-- A sample of power moves the clock of its die alone (R498). -/
theorem powerSample_samples {s : State} {d w : Nat} (hpower : s.power = .running ∨ s.power = .entering ∨ s.power = .resuming) : let q := s.die d
    ∃ t, Machine.exec (.powerSample d w) s = .next t ∧ { t with dies := s.dies } = s ∧
      (q.capW < w → 1000 < q.clock → (t.die d).clock = max 1000 (q.clock - 50) ∧ (t.die d).lowered = min 65535 (q.lowered + 1)) ∧
      (w ≤ q.capW → w * 100 < 95 * q.capW → (t.die d).clock = min 2000 (q.clock + 50) ∧ (t.die d).lowered = q.lowered) ∧
      (w ≤ q.capW → 95 * q.capW ≤ w * 100 → t.die d = q) := by
  refine ⟨s.modDie d (fun q => q.sample w), congrArg Host.Outcome.next (if_pos hpower), rfl, ?_⟩
  rw [State.die_modDie_self]
  refine ⟨fun habove hclock => ?_, fun hle hlow => ?_, Die.sample_between⟩
  · rw [Die.sample_above habove hclock]
    exact ⟨rfl, rfl⟩
  · rw [Die.sample_below hle hlow]
    exact ⟨rfl, rfl⟩

end Sys2Proof
end

