-- ==== Sys2Proof/Proofs/Management.lean ====
section
/-! Lemmas: steward events, what the start of an image leaves of the monitors, and the messages of the management port (R438, R439, R495, R496). -/

namespace Sys2Proof

open Sys2Proof.Machine

/-! ### Steward events (R439) -/

/-- An event bit is pending on the four steward cores of a die. -/
def Pends (t : State) (d k : Nat) : Prop := ∀ st < 4, ((t.die d).events.getD st 0).testBit k = true

theorem Pends.of_events {s t : State} {d k : Nat} (h : Pends s d k) (he : (t.die d).events = (s.die d).events) : Pends t d k := by
  unfold Pends
  rwa [he]

theorem pends_raiseEvent (s : State) (d k : Nat) : Pends (s.raiseEvent d k) d k := by
  intro st hst
  have hmem : st ∈ ([0, 1, 2, 3] : List Nat) := by
    simp only [List.mem_cons, List.not_mem_nil, or_false]
    omega
  unfold State.raiseEvent
  rw [State.die_modDie_self]
  exact Tab.getD_foldl_change (p := fun v : Nat => v.testBit k = true) (g := (· ||| 2 ^ k)) 0
    (fun v => by rw [Nat.testBit_or, Nat.testBit_two_pow_self, Bool.or_true]) _ _ st (.inl hmem)

/-- A raised event changes nothing of a die but its pending events. -/
theorem Machine.State.die_raiseEvent (s : State) (d k d' : Nat) : (s.raiseEvent d k).die d' = { s.die d' with events := ((s.raiseEvent d k).die d').events } := by
  unfold State.raiseEvent
  rw [State.die_modDie]
  split <;> rfl

@[simp] theorem Machine.State.monitor_raiseEvent (s : State) (d k d' : Nat) : ((s.raiseEvent d k).die d').monitor = (s.die d').monitor := by rw [State.die_raiseEvent]

@[simp] theorem Machine.State.fenceSelf_raiseEvent (s : State) (d k d' : Nat) : ((s.raiseEvent d k).die d').fenceSelf = (s.die d').fenceSelf := by rw [State.die_raiseEvent]

/-! ### What neither a steward's events nor a monitor nor the management port meets -/

/-- The power state, the reports, the pending events and the monitors have not changed. -/
structure Unheard (s t : State) : Prop where
  power : t.power = s.power
  mgmtOut : t.mgmtOut = s.mgmtOut
  events : ∀ d, (t.die d).events = (s.die d).events
  monitor : ∀ d, (t.die d).monitor = (s.die d).monitor

namespace Unheard

variable {s t u : State}

theorem refl (s : State) : Unheard s s := ⟨rfl, rfl, fun _ => rfl, fun _ => rfl⟩

theorem trans (h : Unheard s t) (k : Unheard t u) : Unheard s u :=
  ⟨k.power.trans h.power, k.mgmtOut.trans h.mgmtOut, fun d => (k.events d).trans (h.events d), fun d => (k.monitor d).trans (h.monitor d)⟩

theorem foldl {α : Type} {g : State → α → State} (h : ∀ s a, Unheard s (g s a)) (l : List α) (s : State) : Unheard s (l.foldl g s) :=
  List.foldlRecOn (motive := fun t => Unheard s t) l g (refl s) fun t ht a _ => ht.trans (h t a)

theorem of_same (hp : t.power = s.power) (hm : t.mgmtOut = s.mgmtOut) (hd : t.dies = s.dies) : Unheard s t :=
  ⟨hp, hm, fun d => by rw [State.die, hd]; rfl, fun d => by rw [State.die, hd]; rfl⟩

theorem modDie (s : State) (d : Nat) (g : Die → Die) (he : ∀ q, (g q).events = q.events) (hm : ∀ q, (g q).monitor = q.monitor) : Unheard s (s.modDie d g) := by
  refine ⟨rfl, rfl, fun d' => ?_, fun d' => ?_⟩ <;> rw [s.die_modDie] <;> split
  · exact he _
  · rfl
  · exact hm _
  · rfl

theorem modCore (s : State) (c : Nat) (g : Core → Core) : Unheard s (s.modCore c g) := of_same rfl rfl rfl

theorem setFlow (s : State) (f : Flow) (w : Wave) : Unheard s (s.setFlow f w) := by
  cases f with
  | wave c k => exact modCore s c (fun q => { q with waves := q.waves.set k w })
  | steward d k => exact modDie s d (fun q => { q with stewards := q.stewards.set k w }) (fun _ => rfl) fun _ => rfl

theorem modFlow (s : State) (f : Flow) (g : Wave → Wave) : Unheard s (s.modFlow f g) := by
  unfold State.modFlow
  split
  · exact setFlow ..
  · exact refl s

theorem countGranule (s : State) (pa n : Nat) (write : Bool) : Unheard s (s.countGranule pa n write) := by
  unfold State.countGranule
  split
  · exact refl s
  · exact trans (t := { s with fresh := s.fresh + 1 }) (of_same rfl rfl rfl) (modDie _ _ _ (fun _ => rfl) fun _ => rfl)

theorem poke (s : State) (pa : Nat) (bs : List Byte) (atomic : Bool) (tag : Option SyncTag) : Unheard s (s.poke pa bs atomic tag) := by
  unfold State.poke
  refine trans (of_same ?_ ?_ ?_) (countGranule _ pa bs.length true) <;> rfl

theorem queueTo (s : State) (n state cause : Nat) : Unheard s (s.queueTo n state cause) := by
  unfold State.queueTo
  split
  · exact refl s
  · have hmod : Unheard s (s.modQueue n (fun q => { q with state, cause })) := of_same rfl rfl rfl
    exact hmod.trans (poke ..)

/-! The end of a `dstep` and the replacement of a steward flow (R438, R444). -/

theorem noteWrite (s : State) (f : Flow) (x : Nat) : Unheard s (s.noteWrite f x) := by
  unfold State.noteWrite
  split
  · exact modCore ..
  · exact refl s

theorem writeVar (s : State) (f : Flow) (scalar : Bool) (x : Nat) (run : LaneMask) (v : Nat → Word) : Unheard s (s.writeVar f scalar x run v) := by
  unfold State.writeVar
  split
  · exact refl s
  · dsimp only
    split
    · exact (setFlow s f _).trans (noteWrite ..)
    · exact setFlow s f _

theorem dropTag (s : State) (f : Flow) : Unheard s (s.dropTag f) := by
  unfold State.dropTag
  split
  · exact refl s
  · dsimp only
    split
    · exact refl s
    · exact of_same rfl rfl rfl

theorem haltLanes (s : State) (f : Flow) (lanes : LaneMask) : Unheard s (s.haltLanes f lanes) := by
  have hmarks := (dropTag s f).trans (modFlow _ f (fun w => w.haltLanes lanes))
  unfold State.haltLanes
  dsimp only
  split
  · exact hmarks.trans (of_same rfl rfl rfl)
  · exact hmarks

theorem finishStep (s : State) (d : DStep) (status : Nat) : Unheard s (s.finishStep d status) := by
  unfold State.finishStep
  extract_lets s1 s2 s3 s4 s5
  have h1 : Unheard s s1 := by
    unfold s1
    split
    · exact refl s
    · exact modFlow ..
  have h3 : Unheard s1 s3 := (haltLanes ..).trans (modFlow ..)
  have h4 : Unheard s3 s4 := by
    unfold s4
    split
    · exact refl s3
    · exact writeVar ..
  have h5 : Unheard s4 s5 := modFlow ..
  exact h1.trans (h3.trans (h4.trans (h5.trans (of_same rfl rfl rfl))))

theorem dropRequests (s : State) (f : Flow) (ctx : Option Nat) : Unheard s (s.dropRequests f ctx) :=
  modDie s (flowDie f) (fun q => { q with requests := q.requests.keep (fun _ r => !r.ofFlow f ctx) }) (fun _ => rfl) fun _ => rfl

theorem stopFlow (s : State) (f : Flow) : Unheard s (s.stopFlow f) := by
  have hdrop (s : State) : Unheard s (s.dropReservations f) := of_same rfl rfl rfl
  have hforget (s : State) : Unheard s (s.forgetFlow f) := (hdrop s).trans (dropRequests ..)
  unfold State.stopFlow
  dsimp only
  refine trans ?_ (hforget _)
  split
  · split
    · exact finishStep ..
    · exact refl s
  · exact refl s

/-! The placement of an image (R495, R512). -/

theorem tableAt (s : State) (entry frame : Nat) : Unheard s (s.tableAt entry frame).1 := by
  unfold State.tableAt
  dsimp only
  split
  · exact refl s
  · exact (poke ..).trans (poke ..)

theorem mapIsle (s : State) (d place k : Nat) : Unheard s (s.mapIsle d place k) := by
  unfold State.mapIsle
  exact (tableAt ..).trans ((tableAt ..).trans ((tableAt ..).trans (poke ..)))

theorem dropTlb (s : State) (die : Nat) (p : Translation → Bool) : Unheard s (s.dropTlb die p) :=
  (modDie s die (fun q => { q with tlb := q.tlb.filter (fun t => !p t) }) (fun _ => rfl) fun _ => rfl).trans (of_same rfl rfl rfl)

theorem flushCode (s : State) (die asid start len : Nat) : Unheard s (s.flushCode die asid start len) := of_same rfl rfl rfl

theorem placeImage (s : State) (d place : Nat) (bs : List Byte) : Unheard s (s.placeImage d place bs) := by
  unfold State.placeImage
  dsimp only
  exact (poke ..).trans ((foldl (fun s k => mapIsle s d place k) _ _).trans ((dropTlb ..).trans (flushCode ..)))

end Unheard

/-! ### Images and the heartbeat (R438) -/

/-- A monitor whose die runs an image. -/
def Machine.Monitor.withImage (m : Monitor) (image : Option (List Byte)) : Monitor := { m with image }

/-- The start of an image on a die gives its monitor the image, and leaves the reports and the pending events. -/
theorem startImage_leaves (s : State) (d place but : Nat) (bs : List Byte) :
    (s.startImage d place but bs).mgmtOut = s.mgmtOut ∧ ((s.startImage d place but bs).die d).monitor = (s.die d).monitor.withImage (some bs) := by
  unfold State.startImage
  extract_lets s1
  have h : Unheard s s1 := (Unheard.placeImage s d place bs).trans (Unheard.foldl Unheard.stopFlow _ _)
  refine ⟨h.mgmtOut, ?_⟩
  unfold State.modMonitor
  rw [State.die_modDie_self, State.die_modDie_self]
  exact congrArg (Monitor.withImage · (some bs)) (h.monitor d)

/-- The monitor of a die that is to run the previous slot. -/
def Machine.Monitor.reverted (m : Monitor) : Monitor := { m with running := m.previous, heartbeat := none }

/-- A die whose heartbeat has expired runs the previous slot again, reports it, and raises event bit 4 (R438). -/
theorem rollBack_spec {s : State} {d n : Nat} (h : (s.die d).monitor.heartbeat = some n) : let t := s.rollBack d
    (∃ image, (t.die d).monitor = (s.die d).monitor.reverted.withImage image) ∧ Pends t d 4 ∧ t.mgmtOut = s.mgmtOut ++ [(d, 2, (s.die d).monitor.previous)] := by
  intro t
  unfold t State.rollBack
  extract_lets m s1 s2 s3
  rw [show m.heartbeat = some n from h, Option.isNone_some, if_neg Bool.false_ne_true]
  have hs1 : (s1.die d).monitor = (s.die d).monitor.reverted := congrArg Die.monitor (s.die_modDie_self d _)
  have hout1 : s1.mgmtOut = s.mgmtOut := rfl
  have ⟨hout2, hs2⟩ := startImage_leaves s1 d m.previous m.switcher ((s1.isles.get m.previous).getD [])
  have hqueues : Unheard s2 s3 := Unheard.foldl (fun s (e : Nat × Queue) => Unheard.queueTo s e.1 3 0) _ s2
  refine ⟨⟨some ((s1.isles.get m.previous).getD []), ?_⟩, pends_raiseEvent _ _ _, ?_⟩
  · rw [State.monitor_raiseEvent]
    exact (hqueues.monitor d).trans (hs2.trans (congrArg (Monitor.withImage · _) hs1))
  · exact congrArg (· ++ _) (hqueues.mgmtOut.trans (hout2.trans hout1))

theorem heartbeatTimeout_rollsBack {s : State} {d n : Nat} (h : (s.die d).monitor.heartbeat = some n) (hon : s.dieOn d = true) :
    ∃ t, Machine.exec (.heartbeatTimeout d) s = .next t ∧ (t.die d).monitor.running = (s.die d).monitor.previous ∧ (t.die d).monitor.heartbeat = none ∧ Pends t d 4 ∧
      t.mgmtOut = s.mgmtOut ++ [(d, 2, (s.die d).monitor.previous)] := by
  have hexec : Machine.exec (.heartbeatTimeout d) s = .next (State.rollBack { s with now := max s.now n } d) := by
    show execHeartbeatTimeout d s = _
    unfold execHeartbeatTimeout
    simp only [h, hon, if_true]
  obtain ⟨⟨image, hmonitor⟩, hpends, hout⟩ := rollBack_spec (s := { s with now := max s.now n }) (d := d) h
  exact ⟨_, hexec, congrArg Monitor.running hmonitor, congrArg Monitor.heartbeat hmonitor, hpends, hout⟩

/-! ### Messages of the management port (R439, R496) -/

/-- A state with other reports. -/
def Machine.State.withReports (s : State) (r : List (Nat × Nat × Nat)) : State := { s with mgmtOut := r }

theorem Machine.State.report_withReports (s : State) (r : List (Nat × Nat × Nat)) (d what value : Nat) :
    (s.withReports r).report d what value = s.withReports (r ++ [(d, what, value)]) := rfl

/-- The records of failed units that the steward of a die reports (R496). -/
def logRecords (d : Nat) (us : List UnitFailure) : List (Nat × Nat × Nat) := us.flatMap fun u => [(d, 0x400, u.die), (d, 0x401, u.unit), (d, 0x402, u.index), (d, 0x403, u.code)]

theorem foldl_report (s : State) (d : Nat) (us : List UnitFailure) (r : List (Nat × Nat × Nat)) :
    us.foldl (fun s u => (((s.report d 0x400 u.die).report d 0x401 u.unit).report d 0x402 u.index).report d 0x403 u.code) (s.withReports r) =
      s.withReports (r ++ logRecords d us) := by
  induction us generalizing r with
  | nil => exact congrArg s.withReports (List.append_nil r).symm
  | cons u us ih =>
    rw [List.foldl_cons, State.report_withReports, State.report_withReports, State.report_withReports, State.report_withReports, ih]
    refine congrArg s.withReports ?_
    simp only [logRecords, List.flatMap_cons, List.append_assoc]
    rfl

theorem foldl_foldl_report (s : State) (ds : List Nat) (r : List (Nat × Nat × Nat)) :
    ds.foldl (fun s d => s.selfTest.foldl (fun s u => (((s.report d 0x400 u.die).report d 0x401 u.unit).report d 0x402 u.index).report d 0x403 u.code) s) (s.withReports r) =
      s.withReports (r ++ ds.flatMap (fun d => logRecords d s.selfTest)) := by
  induction ds generalizing r with
  | nil => exact congrArg s.withReports (List.append_nil r).symm
  | cons d ds ih =>
    rw [List.foldl_cons, show (s.withReports r).selfTest = s.selfTest from rfl, foldl_report, ih, List.flatMap_cons, List.append_assoc]

/-- A steward's answer adds the self-test log to the reports in the safe talkative state, and nothing in another (R496). -/
theorem Machine.State.answerLog_eq (s : State) :
    s.answerLog = s.withReports (s.mgmtOut ++ if s.power = .safeTalkative then s.survivors.flatMap (fun d => logRecords d s.selfTest) else []) := by
  unfold State.answerLog
  by_cases h : s.power = .safeTalkative
  · rw [if_neg (not_not.2 h), if_pos h]
    exact foldl_foldl_report s s.survivors s.mgmtOut
  · rw [if_pos h, if_neg h, List.append_nil]
    rfl

/-- What a message of the management port at a die finds: event bit 2 is raised, and the self-test log has been asked for (R439, R496). -/
def Machine.State.heard (s : State) (d : Nat) : State := (s.raiseEvent d 2).answerLog

section Heard

variable (s : State) (d : Nat)

theorem Machine.State.survivors_raiseEvent (k : Nat) : (s.raiseEvent d k).survivors = s.survivors := by
  unfold State.survivors
  simp only [State.fenceSelf_raiseEvent]
  rfl

theorem Machine.State.heard_eq : s.heard d =
    (s.raiseEvent d 2).withReports (s.mgmtOut ++ if s.power = .safeTalkative then s.survivors.flatMap (fun d => logRecords d s.selfTest) else []) := by
  unfold State.heard
  rw [State.answerLog_eq, State.survivors_raiseEvent]
  rfl

theorem Machine.State.die_heard (e : Nat) : (s.heard d).die e = (s.raiseEvent d 2).die e := by
  rw [State.heard_eq]
  rfl

theorem pends_heard : Pends (s.heard d) d 2 := (pends_raiseEvent s d 2).of_events (congrArg Die.events (s.die_heard d d))

@[simp] theorem Machine.State.fenceSelf_heard (e : Nat) : ((s.heard d).die e).fenceSelf = (s.die e).fenceSelf := by rw [State.die_heard, State.fenceSelf_raiseEvent]

@[simp] theorem Machine.State.fuse_heard (e : Nat) : (s.heard d).fuse e = s.fuse e := by
  unfold State.fuse
  rw [State.die_heard, State.monitor_raiseEvent]

@[simp] theorem Machine.State.power_heard : (s.heard d).power = s.power := by
  rw [State.heard_eq]
  rfl

@[simp] theorem Machine.State.signers_heard : (s.heard d).signers = s.signers := by
  rw [State.heard_eq]
  rfl

@[simp] theorem Machine.State.awaitsImage_heard : (s.heard d).awaitsImage = s.awaitsImage := by
  have hbooted (e : Nat) : (s.heard d).booted e = s.booted e := by
    unfold State.booted
    rw [State.die_heard, State.monitor_raiseEvent]
  unfold State.awaitsImage
  simp only [State.power_heard, funext hbooted]

end Heard

/-- A message of the management port at a die without one, or at one that is fenced, does nothing (R9, R15). -/
theorem managementPortMessage_dropped {s : State} {d : Nat} (h : s.managed d = false) (m : Management) : Machine.exec (.managementPortMessage d m) s = .next s :=
  congrArg Host.Outcome.next (if_pos (by rw [h]; rfl))

section Managed

variable {s : State} {d : Nat} (h : s.managed d = true)

include h

theorem managementPortMessage_other : Machine.exec (.managementPortMessage d .other) s = .next (s.heard d) :=
  congrArg Host.Outcome.next (if_neg (by rw [h]; decide))

/-- A message that asks for nothing raises event bit 2, and is answered with the self-test log in the safe talkative state alone (R439, R496). -/
theorem managementPortMessage_answers : ∃ t, Machine.exec (.managementPortMessage d .other) s = .next t ∧ Pends t d 2 ∧ { t with dies := s.dies, mgmtOut := s.mgmtOut } = s ∧
    (s.power = .running → t.mgmtOut = s.mgmtOut) := by
  refine ⟨_, managementPortMessage_other h, pends_heard s d, ?_, fun hrunning => ?_⟩ <;> rw [State.heard_eq]
  · rfl
  · rw [hrunning]
    exact List.append_nil _

theorem managementPortMessage_log (hpower : s.power = .safeTalkative) : ∃ t, Machine.exec (.managementPortMessage d .other) s = .next t ∧
    ∀ x ∈ s.survivors, ∀ u ∈ s.selfTest, (x, 0x400, u.die) ∈ t.mgmtOut ∧ (x, 0x401, u.unit) ∈ t.mgmtOut ∧ (x, 0x402, u.index) ∈ t.mgmtOut ∧ (x, 0x403, u.code) ∈ t.mgmtOut := by
  refine ⟨_, managementPortMessage_other h, fun x hx u hu => ?_⟩
  have hmem (v : Nat × Nat × Nat) (hv : v ∈ [(x, 0x400, u.die), (x, 0x401, u.unit), (x, 0x402, u.index), (x, 0x403, u.code)]) : v ∈ (s.heard d).mgmtOut := by
    rw [State.heard_eq, if_pos hpower]
    exact List.mem_append_right _ (List.mem_flatMap.2 ⟨x, hx, List.mem_flatMap.2 ⟨u, hu, hv⟩⟩)
  exact ⟨hmem _ (by simp), hmem _ (by simp), hmem _ (by simp), hmem _ (by simp)⟩

/-- A key registered first stays (R485, log 13). -/
theorem managementPortMessage_key {k : Nat} (pk : List Byte) (hk : k < 8) :
    ∃ t, Machine.exec (.managementPortMessage d (.key k pk)) s = .next t ∧ Pends t d 2 ∧ t.signers.get k = some ((s.signers.get k).getD pk) := by
  have hexec : Machine.exec (.managementPortMessage d (.key k pk)) s =
      .next (if 8 ≤ k || ((s.heard d).signers.get k).isSome then s.heard d else { s.heard d with signers := (s.heard d).signers.set k pk }) :=
    congrArg Host.Outcome.next (if_neg (by rw [h]; decide))
  rw [State.signers_heard, decide_eq_false (not_le.2 hk), Bool.false_or] at hexec
  cases hold : s.signers.get k with
  | none =>
    rw [hold, Option.isSome_none, if_neg Bool.false_ne_true] at hexec
    exact ⟨_, hexec, (pends_heard s d).of_events rfl, Tab.get_set_self ..⟩
  | some old =>
    rw [hold, Option.isSome_some, if_pos rfl] at hexec
    exact ⟨_, hexec, pends_heard s d, by rw [State.signers_heard, hold]; rfl⟩

theorem managementPortMessage_offer (bs : List Byte) (hawaits : s.awaitsImage = false) :
    ∃ t, Machine.exec (.managementPortMessage d (.offer bs)) s = .next t ∧ Pends t d 2 ∧ t.offered = some bs := by
  have hexec : Machine.exec (.managementPortMessage d (.offer bs)) s =
      .next (if (s.heard d).awaitsImage then (s.heard d).boot (some bs) else { s.heard d with offered := some bs }) :=
    congrArg Host.Outcome.next (if_neg (by rw [h]; decide))
  rw [State.awaitsImage_heard, hawaits, if_neg Bool.false_ne_true] at hexec
  exact ⟨_, hexec, (pends_heard s d).of_events rfl, rfl⟩

/-- The fuse counters of the four dies rise to the number told (R493). -/
theorem managementPortMessage_raiseSvn (v : Nat) :
    ∃ t, Machine.exec (.managementPortMessage d (.raiseSvn v)) s = .next t ∧ ∀ e < 4, (t.die e).monitor.svn = some (max v (s.fuse e)) := by
  have hexec : Machine.exec (.managementPortMessage d (.raiseSvn v)) s =
      .next (([0, 1, 2, 3] : List Nat).foldl (fun s d => s.modMonitor d (fun x => { x with svn := some (max v (s.fuse d)) })) (s.heard d)) :=
    congrArg Host.Outcome.next (if_neg (by rw [h]; decide))
  refine ⟨_, hexec, fun e he => ?_⟩
  rw [← s.fuse_heard d]
  interval_cases e <;> simp [State.modMonitor, State.die_modDie, State.fuse]

/-- A steward flow is started at an address (R439, R495). -/
theorem managementPortMessage_startFlow {e st : Nat} (a : Nat) (he : e < 4) (hst : st < 4) (hself : (s.die e).fenceSelf = false) (hpower : s.power = .running) :
    ∃ t w, Machine.exec (.managementPortMessage d (.startFlow e st a)) s = .next t ∧ Pends t d 2 ∧ t.flow? (.steward e st) = some w ∧ w.live = 1 ∧
      w.position 0 = (a % 2 ^ 48, 0) ∧ w.clause = none ∧ w.park = none := by
  have hguard : ¬(4 ≤ st ∨ 4 ≤ e ∨ ((s.heard d).die e).fenceSelf = true ∨ (s.heard d).power ≠ .running) := by
    rw [State.fenceSelf_heard, State.power_heard, hself, hpower]
    simp only [not_le.2 hst, not_le.2 he, Bool.false_eq_true, ne_eq, not_true_eq_false, or_self, not_false_eq_true]
  have hexec : Machine.exec (.managementPortMessage d (.startFlow e st a)) s =
      .next (((s.heard d).stopFlow (.steward e st)).modDie e (fun q => { q.fold 0 with stewards := q.stewards.set st (Wave.flowAt (a % 2 ^ 48)) })) :=
    congrArg Host.Outcome.next ((if_neg (by rw [h]; decide)).trans (if_neg hguard))
  have hunheard := (Unheard.stopFlow (s.heard d) (.steward e st)).trans
    (Unheard.modDie _ e (fun q => { q.fold 0 with stewards := q.stewards.set st (Wave.flowAt (a % 2 ^ 48)) }) (fun _ => rfl) fun _ => rfl)
  refine ⟨_, Wave.flowAt (a % 2 ^ 48), hexec, (pends_heard s d).of_events (hunheard.events d), ?_, rfl, rfl, rfl, rfl⟩
  unfold State.flow?
  dsimp only
  rw [State.die_modDie_self]
  exact congrArg some (Tab.getD_set_self ..)

end Managed

end Sys2Proof
end

