-- ==== Sys2Proof/Proofs/Power.lean ====
section
/-! Lemmas: the lifetime record, module reset and boot, and Burrow (R482, R495, R496, R499 to R501). -/

namespace Sys2Proof

open Sys2Proof.Machine

/-! ### The lifetime record (R482) -/

/-- The newest copy is the one that stands at its number. -/
theorem newestCopy_some {copies : List (List Byte)} {m : Nat} {bs : List Byte} (h : newestCopy copies = some (m, bs)) : copies[m]? = some bs := by
  have hmem : ∀ x, newestCopy copies = some x → x ∈ (List.range copies.length).zip copies := by
    unfold newestCopy
    refine List.foldlRecOn (motive := fun acc : Option (Nat × List Byte) => ∀ x, acc = some x → x ∈ (List.range copies.length).zip copies) _ _
      (fun x hx => by cases hx) fun acc hacc c hc x hx => ?_
    split at hx
    · exact hacc x hx
    · split at hx
      · split at hx
        · cases hx; exact hc
        · cases hx; exact hacc _ rfl
      · cases hx; exact hc
  obtain ⟨i, hi, hget⟩ := List.mem_iff_getElem.1 (hmem _ h)
  rw [List.getElem_zip, List.getElem_range] at hget
  obtain ⟨rfl, rfl⟩ := Prod.mk.inj hget
  exact List.getElem?_eq_getElem _

/-- A fold writes the copy that is not the newest. -/
theorem Machine.Die.lifetime_fold {q : Die} {m : Nat} {bs : List Byte} (hours : Nat) (h : newestCopy ((q.lifetime ++ [[], []]).take 2) = some (m, bs)) :
    (q.fold hours).lifetime.getD m [] = bs := by
  obtain ⟨a, b, hcopies⟩ : ∃ a b, (q.lifetime ++ [[], []]).take 2 = [a, b] := by
    match q.lifetime with
    | [] => exact ⟨_, _, rfl⟩
    | [_] => exact ⟨_, _, rfl⟩
    | _ :: _ :: _ => exact ⟨_, _, rfl⟩
  have hm := newestCopy_some h
  unfold Die.fold
  dsimp only
  rw [h, hcopies]
  rw [hcopies] at hm
  match m with
  | 0 => exact Option.some.inj hm
  | 1 => exact Option.some.inj hm

theorem Machine.Die.port_fold (q : Die) (hours : Nat) {k : Nat} (hk : k < 6) : (q.fold hours).port k = { q.port k with retrains := 0, degrades := 0 } := by
  show (Tab.get ((List.range 6).foldl (fun t k => t.set k { q.port k with retrains := 0, degrades := 0 }) q.ports) k).getD Port.reset = _
  rw [Tab.get_foldl_set_mem (List.range 6) (fun k => k) (fun k => { q.port k with retrains := 0, degrades := 0 }) q.ports k (List.mem_range.2 hk) fun _ _ _ _ h => h]
  rfl

/-- The steward of a die that is powered and runs folds its counters (R482). -/
theorem lifetimeFold_folds {s : State} {d : Nat} (hon : s.dieOn d = true) (hfrozen : (s.die d).frozen = false) :
    ∃ t, Machine.exec (.lifetimeFold d) s = .next t ∧ (t.die d).counters = LifeCounters.reset ∧
      (∀ m bs, newestCopy (((s.die d).lifetime ++ [[], []]).take 2) = some (m, bs) → (t.die d).lifetime.getD m [] = bs) ∧
      ∀ k < 6, ((t.die d).port k).retrains = 0 ∧ ((t.die d).port k).degrades = 0 ∧ ((t.die d).port k).state = ((s.die d).port k).state := by
  refine ⟨s.modDie d (fun q => q.fold 1), congrArg Host.Outcome.next (if_pos (by rw [hon, hfrozen]; rfl)), ?_⟩
  rw [State.die_modDie_self]
  refine ⟨rfl, fun m bs h => Die.lifetime_fold 1 h, fun k hk => ?_⟩
  rw [Die.port_fold _ 1 hk]
  exact ⟨rfl, rfl, rfl⟩

theorem supplyDroop_counts {s : State} {d : Nat} (hon : s.dieOn d = true) :
    ∃ t, Machine.exec (.supplyDroop d) s = .next t ∧ (t.die d).counters = { (s.die d).counters with droop := (s.die d).counters.droop + 1 } :=
  ⟨_, congrArg Host.Outcome.next (if_neg (by rw [hon]; decide)), congrArg Die.counters (s.die_modDie_self d _)⟩

theorem tempMinuteCount_counts {s : State} {d : Nat} (hon : s.dieOn d = true) (c : Nat) : ∃ t, Machine.exec (.tempMinuteCount d c) s = .next t ∧
    (t.die d).counters.temp.getD (min 15 (c / 8)) 0 = (s.die d).counters.temp.getD (min 15 (c / 8)) 0 + 1 :=
  ⟨_, congrArg Host.Outcome.next (if_neg (by rw [hon]; decide)), by rw [State.die_modDie_self]; exact Tab.getD_set_self ..⟩

/-- A die that is powered off counts nothing, and no heartbeat of it expires (R499). -/
theorem dieOff_keeps {s : State} {d : Nat} (hoff : s.dieOn d = false) : Machine.exec (.lifetimeFold d) s = .next s ∧ Machine.exec (.supplyDroop d) s = .next s ∧
    (∀ c, Machine.exec (.tempMinuteCount d c) s = .next s) ∧ Machine.exec (.heartbeatTimeout d) s = .next s := by
  refine ⟨congrArg Host.Outcome.next (if_neg (by rw [hoff]; exact Bool.false_ne_true)), congrArg Host.Outcome.next (if_pos (by rw [hoff]; rfl)),
    fun c => congrArg Host.Outcome.next (if_pos (by rw [hoff]; rfl)), ?_⟩
  show execHeartbeatTimeout d s = _
  unfold execHeartbeatTimeout
  rw [hoff]
  split <;> rfl

/-! ### Reset and boot (R495, R496) -/

theorem moduleReset_waits (s : State) : Machine.exec (.moduleReset [] none) s = .next s.afterReset := rfl

theorem moduleReset_boots (s : State) (bs : List Byte) : Machine.exec (.moduleReset [] (some bs)) s = .next (s.afterReset.boot (some bs)) := rfl

/-- Where units of two dies fail the self-test, the module enters the safe talkative state (R496). -/
theorem moduleReset_fails (s : State) {u v : UnitFailure} (hu : u.die < 4) (hv : v.die < 4) (hne : u.die ≠ v.die) :
    ∃ t, Machine.exec (.moduleReset [u, v] none) s = .next t ∧ t.power = .safeTalkative ∧ t.selfTest = [u, v] := by
  have hlog : [u, v].filter (fun u => u.die < 4) = [u, v] := by simp [hu, hv]
  have hbad : [u.die, v.die].dedup = [u.die, v.die] := List.dedup_eq_self.2 (by simpa using hne)
  refine ⟨{ s.afterReset with selfTest := [u, v], power := .safeTalkative }, ?_, rfl, rfl⟩
  show Host.Outcome.next (s.moduleReset [u, v] none) = _
  unfold State.moduleReset
  dsimp only
  rw [hlog, List.map_cons, List.map_cons, List.map_nil, hbad]
  rfl

theorem bootTimeout_boots {s : State} (h : s.awaitsImage = true) : Machine.exec .bootTimeout s = .next (s.boot none) := congrArg Host.Outcome.next (if_pos h)

/-- A module that waits for an image and has none in its slots enters the safe talkative state (R495, R496). -/
theorem boot_fails {s : State} (h : s.awaitsImage = true) (hisles : s.isles = []) : (s.boot none).power = .safeTalkative := by
  have hrom (d : Nat) : s.romBoot none d = s := by
    have hchoices : s.bootChoices none = [] := by
      unfold State.bootChoices
      rw [hisles]
      rfl
    unfold State.romBoot
    rw [hchoices]
    rfl
  have hfold : s.workingDies.foldl (fun s d => s.romBoot none d) s = s :=
    List.foldlRecOn (motive := fun t => t = s) _ _ rfl fun t ht d _ => by rw [ht, hrom]
  have hnone : s.workingDies.any s.booted = false := by
    unfold State.awaitsImage at h
    simp only [Bool.and_eq_true, Bool.not_eq_true', List.any_eq_false] at h
    rw [List.any_eq_false]
    exact fun d hd => h.2 d (List.mem_of_mem_filter hd)
  unfold State.boot
  dsimp only
  rw [hfold, hnone]
  rfl

/-! ### A module without contexts (R246, R478, R501) -/

/-- Nothing is left of the contexts of a module that runs. -/
structure Machine.State.Bare (s : State) : Prop where
  mem : s.mem = []
  contexts : s.contexts = []
  cores : s.cores = []
  power : s.power = .running

namespace Machine.State.Bare

variable {s : State} (h : s.Bare)

include h

theorem modDie (d : Nat) (g : Die → Die) : (s.modDie d g).Bare := ⟨h.mem, h.contexts, h.cores, h.power⟩

theorem loseReads (d : Nat) (dests : List Nat) : (s.loseReads d dests).Bare := by
  unfold State.loseReads
  rw [h.cores]
  exact ⟨h.mem, h.contexts, rfl, h.power⟩

theorem portLost (d k : Nat) : (s.portLost d k).Bare := by
  unfold State.portLost
  dsimp only
  split
  · exact (h.modDie ..).loseReads ..
  · split
    · split
      · exact (((h.modDie ..).loseReads ..).modDie ..).modDie ..
      · exact (h.modDie ..).loseReads ..
    · exact (h.modDie ..).loseReads ..

theorem dropEnd (d k state : Nat) : (s.dropEnd d k state).Bare := by
  unfold State.dropEnd
  dsimp only
  split
  · exact (h.modDie ..).portLost ..
  · exact h.modDie ..

theorem dropPort (d k state : Nat) : (s.dropPort d k state).Bare := by
  unfold State.dropPort
  dsimp only
  split
  · split
    · exact (h.dropEnd ..).dropEnd ..
    · exact h.dropEnd ..
  · exact h.dropEnd ..

theorem fenceOff (d off : Nat) : (s.fenceOff d off).Bare := by
  unfold State.fenceOff
  split
  · exact h
  · dsimp only
    split
    · exact (h.modDie ..).loseReads ..
    · exact ((h.modDie ..).loseReads ..).dropPort ..

theorem loseImages (d : Nat) : (s.loseImages d).Bare := by
  have hfold : s.cores.foldl (fun s e => if dieOf e.1 = d then e.2.groups.foldl (fun s g => s.dropGroup e.1 g.1) s else s) s = s := by
    rw [h.cores]
    rfl
  unfold State.loseImages
  dsimp only
  rw [hfold, h.cores, h.contexts]
  exact ⟨h.mem, rfl, rfl, h.power⟩

theorem stopDie (d : Nat) : (s.stopDie d).Bare := by
  unfold State.stopDie
  split
  · exact h
  · extract_lets spanning s1 s2 s3 s4
    have h2 : s2.Bare := ⟨h.mem, h.contexts, h.cores, h.power⟩
    have h3 : s3.Bare := List.foldlRecOn (motive := State.Bare) _ _ h2 fun _ ht _ _ => by
      split
      · exact ht
      · exact ht.dropPort ..
    have hspanning : spanning = [] := by
      unfold spanning
      rw [h.contexts, List.filter_nil, List.map_nil]
    have h4 : s4 = s3 := by
      unfold s4
      rw [hspanning, List.foldl_nil]
    have hlost := h4 ▸ h3.loseImages d
    exact ⟨hlost.mem, hlost.contexts, hlost.cores, hlost.power⟩

theorem fenceDie (d : Nat) : (s.fenceDie d).Bare :=
  (List.foldlRecOn (motive := State.Bare) _ _ h fun _ ht e _ => ht.fenceOff e d).stopDie d

theorem fenceDies (ds : List Nat) : (ds.foldl (fun s d => s.fenceDie d) s).Bare := List.foldlRecOn (motive := State.Bare) _ _ h fun _ ht d _ => ht.fenceDie d

end Machine.State.Bare

/-- A module reset without an image leaves no context and no byte of memory, and the module runs or is in the safe talkative state (R495, R496). -/
theorem Machine.State.moduleReset_bare (s : State) (failed : List UnitFailure) :
    let t := s.moduleReset failed none
    t.contexts = [] ∧ t.mem = [] ∧ (t.power = .running ∨ t.power = .safeTalkative) := by
  intro t
  unfold t State.moduleReset
  dsimp only
  split
  · exact ⟨rfl, rfl, .inr rfl⟩
  · generalize hlog : failed.filter (fun u => u.die < 4) = log
    have hfenced := State.Bare.fenceDies (s := { s.afterReset with selfTest := log }) ⟨rfl, rfl, rfl, rfl⟩ (log.map (fun u => u.die)).dedup
    exact ⟨hfenced.contexts, hfenced.mem, .inl hfenced.power⟩

/-- The capacity tier loses its power in Burrow (R501). -/
theorem capacityPowerLoss_resets {s : State} (h : s.power = .burrow) :
    ∃ t, Machine.exec .capacityPowerLoss s = .next t ∧ t.contexts = [] ∧ t.mem = [] ∧ (t.power = .running ∨ t.power = .safeTalkative) :=
  ⟨_, congrArg Host.Outcome.next (if_pos h), State.moduleReset_bare ..⟩

/-! ### Burrow entry (R499) -/

/-- Asking for a swap changes its core and the count of swaps alone. -/
theorem Machine.State.askSwap_rest (s : State) (c : Nat) : { s.askSwap c with cores := s.cores, swaps := s.swaps } = s := by
  unfold State.askSwap
  split
  · rfl
  · dsimp only
    split <;> rfl

/-- A context at Burrow entry. -/
def Machine.Context.burrowed (x : Context) : Context := if x.state = .created ∨ x.state = .live then { x with state := .burrowed } else x

/-- Step 2 of entry leaves the key tables, and changes contexts as Burrow entry does. -/
theorem Machine.State.leaveCores_spec (s : State) : (∀ d, (s.leaveCores.die d).keys = (s.die d).keys) ∧ ∀ k, s.leaveCores.contexts.get k = (s.contexts.get k).map Context.burrowed := by
  unfold State.leaveCores
  extract_lets s1
  have hsame : s1.dies = s.dies ∧ s1.contexts = s.contexts :=
    List.foldlRecOn (motive := fun t : State => t.dies = s.dies ∧ t.contexts = s.contexts) _ _ ⟨rfl, rfl⟩ fun t ⟨hdies, hcontexts⟩ e _ => by
      have hask := State.askSwap_rest (t.modCore e.1 (fun q => { q with restoring := false })) e.1
      exact ⟨(congrArg State.dies hask :).trans hdies, (congrArg State.contexts hask :).trans hcontexts⟩
  obtain ⟨hdies, hcontexts⟩ := hsame
  refine ⟨fun d => ?_, fun k => ?_⟩
  · unfold State.die Tab.getD
    dsimp only
    rw [hdies, Tab.get_mapVal]
    cases s.dies.get d <;> rfl
  · dsimp only
    rw [hcontexts, Tab.get_mapVal]
    rfl

theorem Machine.Die.keys_burrow (q : Die) : q.burrow.keys = [] := by
  unfold Die.burrow
  dsimp only
  split <;> rfl

/-- The end of entry takes the key table out of every die, and keeps it wrapped (R166). -/
theorem Machine.State.endBurrow_spec (s : State) : s.endBurrow.power = .burrow ∧
    ∀ d < 4, (s.endBurrow.die d).keys = [] ∧ s.endBurrow.wrapped.get d = some (wrapKeys d (s.die d).keys) := by
  refine ⟨rfl, fun d hd => ⟨?_, ?_⟩⟩
  · unfold State.endBurrow
    interval_cases d <;> simp [State.die_modDie, Die.keys_burrow]
  · interval_cases d <;> rfl

section Entry

variable {s s0 : State} (h : (s.power = .running ∧ s0 = s.quietQueues) ∨ (s.power = .resuming ∧ s0 = s))

include h

/-- The first event of Burrow entry ends it at once where every image is spilled, and else waits for that (R499, R501). -/
theorem burrowEntry_begins : Machine.exec .burrowEntry s = .next (if s0.leaveCores.quiet = true then s0.leaveCores.endBurrow else s0.leaveCores) := by
  have hstart : (if s.power = .running then s.quietQueues.leaveCores else if s.power = .resuming then s.leaveCores else s) = s0.leaveCores := by
    rcases h with ⟨hpower, rfl⟩ | ⟨hpower, rfl⟩
    · rw [if_pos hpower]
    · rw [hpower]
      rfl
  have hentering : s0.leaveCores.power = .entering := rfl
  show execBurrowEntry s = _
  unfold execBurrowEntry
  dsimp only
  rw [hstart, hentering]
  simp only [true_and]

theorem burrowEntry_ends (hquiet : s0.leaveCores.quiet = true) : ∃ t, Machine.exec .burrowEntry s = .next t ∧ t.power = .burrow ∧
    ∀ d < 4, (t.die d).keys = [] ∧ t.wrapped.get d = some (wrapKeys d (s0.die d).keys) := by
  obtain ⟨hpower, hkeys⟩ := State.endBurrow_spec s0.leaveCores
  refine ⟨_, (burrowEntry_begins h).trans (congrArg _ (if_pos hquiet)), hpower, fun d hd => ?_⟩
  rw [← (State.leaveCores_spec s0).1]
  exact hkeys d hd

theorem burrowEntry_waits (hbusy : s0.leaveCores.quiet = false) : ∃ t, Machine.exec .burrowEntry s = .next t ∧ t.power = .entering ∧
    ∀ k x, s0.contexts.get k = some x → (x.state = .created ∨ x.state = .live) → (t.contexts.get k).map (fun y => y.state) = some .burrowed := by
  refine ⟨_, (burrowEntry_begins h).trans (congrArg _ (if_neg (by rw [hbusy]; exact Bool.false_ne_true))), rfl, fun k x hx hstate => ?_⟩
  rw [(State.leaveCores_spec s0).2, hx, Option.map_some, Option.map_some, Context.burrowed, if_pos hstate]

end Entry

/-! ### Resume (R500, R501) -/

/-- A die that is not fenced unwraps its key table (R166, R500). -/
theorem Machine.State.keys_wakeUp {s : State} {d : Nat} {q : Die} (hq : s.dies.get d = some q) (hself : q.fenceSelf = false) :
    (s.wakeUp.die d).keys = wrapKeys d (s.wrapped.getD d []) := by
  unfold State.wakeUp State.die Tab.getD
  dsimp only
  rw [Tab.get_mapVal, hq]
  exact if_neg (by rw [hself]; exact Bool.false_ne_true)

/-- Steps 1 and 2 of resume: the key tables come back unwrapped to the dies that are not fenced. -/
theorem burrowResume_wakes {s : State} (h : s.power = .burrow) (bad : List Nat) : ∃ t, Machine.exec (.burrowResume bad) s = .next t ∧ t.power = .resuming ∧ t.wrapped = [] ∧
    (bad = [] → ∀ d q, s.dies.get d = some q → q.fenceSelf = false → (t.die d).keys = wrapKeys d (s.wrapped.getD d [])) := by
  refine ⟨_, congrArg Host.Outcome.next (if_pos h), rfl, rfl, ?_⟩
  rintro rfl d q hq hself
  exact State.keys_wakeUp hq hself

/-- A queue at the end of resume, in the state that was recorded. -/
def Machine.State.resumed (s : State) (q : Queue) : Queue :=
  { q with
    state := match q.saved with
      | some 1 => if (s.contexts.get q.context).any (fun x => x.state == .faulted) then q.state else 1
      | _ => q.state
    saved := none
    readySince := none }

theorem Machine.State.rewrite_accessed (f : Flow) (s : State) (n : Nat) : Accessed f s (s.rewrite n) := by
  unfold State.rewrite
  split
  · exact Accessed.refl f s
  · dsimp only
    split
    · exact Accessed.refl f s
    · exact (Accessed.poke ..).trans (Accessed.poke ..)

theorem Machine.State.setQueue_spec (s : State) (n : Nat) (g : Queue → Queue) :
    (s.setQueue n g).power = s.power ∧ (s.setQueue n g).contexts = s.contexts ∧ (s.setQueue n g).queues = s.queues.upd n g := by
  have h := State.rewrite_accessed s.cur (s.modQueue n g) n
  exact ⟨h.power, h.contexts, (congrArg State.queues h.rest :)⟩

/-- A queue is resumed by itself. -/
theorem Machine.State.resumeQueue_spec (s : State) (n : Nat) : let t := s.resumeQueue n
    t.power = s.power ∧ t.contexts = s.contexts ∧ t.queues.get n = (s.queues.get n).map s.resumed ∧ ∀ m, n ≠ m → t.queues.get m = s.queues.get m := by
  intro t
  unfold t State.resumeQueue
  split
  · next hn => exact ⟨rfl, rfl, by rw [hn]; rfl, fun _ _ => rfl⟩
  · next q hq =>
    extract_lets faulted state
    obtain ⟨hpower, hcontexts, hqueues⟩ := s.setQueue_spec n (fun q => { q with state, saved := none, readySince := none })
    refine ⟨hpower, hcontexts, ?_, fun m hm => ?_⟩
    · rw [hqueues, Tab.get_upd_self, hq]
      rfl
    · rw [hqueues, Tab.get_upd_ne _ _ hm]

/-- A queue is ACTIVE, with no state recorded. -/
def QueueActive (s : State) (n : Nat) : Prop := ∃ q, s.queues.get n = some q ∧ q.state = 1 ∧ q.saved = none

/-- A queue is as it was recorded at Burrow entry: it was ACTIVE, and its context is not faulted. -/
def QueueWasActive (s : State) (n : Nat) : Prop := ∃ q, s.queues.get n = some q ∧ q.saved = some 1 ∧ (s.contexts.get q.context).any (fun x => x.state == .faulted) = false

theorem QueueWasActive.resumed {s : State} {n : Nat} (h : QueueWasActive s n) : QueueActive (s.resumeQueue n) n := by
  obtain ⟨q, hq, hsaved, hctx⟩ := h
  obtain ⟨-, -, hself, -⟩ := s.resumeQueue_spec n
  refine ⟨s.resumed q, by rw [hself, hq]; rfl, ?_, rfl⟩
  unfold State.resumed
  simp only [hsaved, hctx, Bool.false_eq_true, if_false]

theorem QueueWasActive.other {s : State} {n m : Nat} (h : QueueWasActive s n) (hne : m ≠ n) : QueueWasActive (s.resumeQueue m) n := by
  obtain ⟨q, hq, hsaved, hctx⟩ := h
  obtain ⟨-, hcontexts, -, hother⟩ := s.resumeQueue_spec m
  exact ⟨q, (hother n hne).trans hq, hsaved, by rw [hcontexts]; exact hctx⟩

theorem QueueActive.resumeQueue {s : State} {n : Nat} (h : QueueActive s n) (m : Nat) : QueueActive (s.resumeQueue m) n := by
  obtain ⟨q, hq, hstate, hsaved⟩ := h
  obtain ⟨-, -, hself, hother⟩ := s.resumeQueue_spec m
  by_cases hm : m = n
  · subst hm
    refine ⟨s.resumed q, by rw [hself, hq]; rfl, ?_, rfl⟩
    unfold State.resumed
    simp only [hsaved, hstate]
  · exact ⟨q, (hother n hm).trans hq, hstate, hsaved⟩

/-- Queues resumed one after another: each that was ACTIVE is ACTIVE again. -/
theorem foldl_resumeQueue {s : State} {n : Nat} (ks : List Nat) (h : (QueueWasActive s n ∧ n ∈ ks) ∨ QueueActive s n) : QueueActive (ks.foldl (fun s k => s.resumeQueue k) s) n := by
  induction ks generalizing s with
  | nil => exact h.resolve_left fun h => absurd h.2 List.not_mem_nil
  | cons k ks ih =>
    refine ih ?_
    rcases h with ⟨hwas, hmem⟩ | hactive
    · by_cases hk : k = n
      · subst hk
        exact .inr hwas.resumed
      · exact .inl ⟨hwas.other hk, (List.mem_cons.1 hmem).resolve_left (Ne.symm hk)⟩
    · exact .inr (hactive.resumeQueue k)

/-- The resume ends: the module runs, and the queues that were ACTIVE are so again (R500). -/
theorem burrowResume_ends {s : State} (h : s.power = .resuming) (bad : List Nat) : ∃ t, Machine.exec (.burrowResume bad) s = .next t ∧ t.power = .running ∧
    ∀ n q, s.queues.get n = some q → q.saved = some 1 → (s.contexts.get q.context).any (fun x => x.state == .faulted) = false →
      ∃ q', t.queues.get n = some q' ∧ q'.state = 1 ∧ q'.saved = none := by
  refine ⟨_, congrArg Host.Outcome.next ((if_neg (by rw [h]; decide)).trans (if_pos h)), ?_, fun n q hq hsaved hctx => ?_⟩
  · exact List.foldlRecOn (motive := fun t : State => t.power = .running) _ _ rfl fun t ht k _ => (t.resumeQueue_spec k).1.trans ht
  · exact foldl_resumeQueue _ (.inl ⟨⟨q, hq, hsaved, hctx⟩, List.mem_map.2 ⟨_, Tab.mem_of_get _ _ _ hq, rfl⟩⟩)

end Sys2Proof
end

