-- ==== Sys2Proof/Proofs/OutsideEvents.lean ====
section
/-! Proof of O60: power, boot and what reaches the module from outside. -/

namespace Sys2Proof

open Sys2Proof.Machine

/-- Settles O60, event by event. -/
theorem outsideEvents : Obligations.OutsideEvents := by
  unfold Obligations.OutsideEvents
  intro pends
  refine ⟨?host, ?posted, ?dropped, ?register, ?unmanaged, ?message, ?attestation, ?fox, ?trail, ?cap, ?off, ?lifetime, ?heartbeat, ?power⟩
  case host =>
    intro s op n pa b c hn hreach hpower hself hpoison howned
    exact ⟨fun v => hostAtomicop_spec hn hreach hpower hself hpoison howned, hostAtomicop_keeps hn hreach hpower hself hpoison howned⟩
  case posted => exact fun s pa bs => hostPostedWrite_spec
  case dropped => exact fun s pa bs _ => hostPostedWrite_dropped
  case register => exact fun s d off n v => registerWrite_stores
  case unmanaged => exact fun s d m h => managementPortMessage_dropped h m
  case message =>
    intro s d h
    exact ⟨managementPortMessage_answers h, managementPortMessage_log h, fun k pk => managementPortMessage_key h pk, managementPortMessage_raiseSvn h,
      managementPortMessage_offer h, fun e st a => managementPortMessage_startFlow h a⟩
  case attestation => exact fun s n v => spdmRequest_reports
  case fox => exact foxRead_reports
  case trail =>
    intro s c n r g w q hg hw
    exact ⟨trailRecord_early hg hw, trailRecord_enters hg hw⟩
  case cap => exact fun s d w => powerSample_samples
  case off => exact fun s d => dieOff_keeps
  case lifetime => exact fun s d hon => ⟨lifetimeFold_folds hon, supplyDroop_counts hon, tempMinuteCount_counts hon⟩
  case heartbeat => exact fun s d n => heartbeatTimeout_rollsBack
  case power =>
    intro s
    exact ⟨⟨_, moduleReset_waits s, rfl, rfl, rfl, rfl, rfl, rfl, rfl, rfl⟩, moduleReset_boots s, fun u v => moduleReset_fails s,
      fun hawaits hisles => ⟨_, bootTimeout_boots hawaits, boot_fails hawaits hisles⟩, bootTimeout_boots, fun s0 h => ⟨burrowEntry_ends h, burrowEntry_waits h⟩,
      fun h => ⟨burrowResume_wakes h, capacityPowerLoss_resets h⟩, burrowResume_ends⟩

end Sys2Proof
end

