-- ==== Sys2Proof/Proofs/GangSwap.lean ====
section
/-! Refutation of O54: the swap of a core that holds one group of a gang asks for the swaps of the gang's other cores at the same step (R22, R204), and each of them is counted. -/

namespace Sys2Proof

open Sys2Proof.Machine

/-- A running launch of one gang of two groups: its level 2, of extent 2, is the gang's (R26). -/
def gangLaunch : Launch :=
  { Launch.plain with record := { Record.plain with gang := 2, levels := [(64, 0), (1, 2), (2, 3)] }, count := 2, placed := 2, outer := 2, next := 2 }

/-- A core that holds one group of that launch, with its wave. -/
def gangCore (index : Nat) : Core :=
  { Core.reset with context := some 1, asid := 1, waves := [(0, Wave.plain)], groups := [(0, { Group.plain with index })], active := [0] }

/-- The gang stands on cores 0 and 1, and a swap of core 0 has been asked for. -/
def gangState : State :=
  { State.reset with contexts := [(1, Context.plain)], launches := [(1, gangLaunch)], cores := [(0, { gangCore 0 with swapAsked := true }), (1, gangCore 1)] }

theorem gangState_outstanding {k : Nat} {w : Wave} (h : gangState.flow? (.wave 0 k) = some w) : w.outstanding = [] := by
  obtain ⟨-, rfl⟩ : 0 = k ∧ Wave.plain = w := by simpa [gangState, State.flow?, State.core, gangCore, Tab.getD, Tab.get] using h
  rfl

/-- The swap of core 0 has counted two: that of core 1, which it asks for, and its own. -/
theorem swaps_swap_gangState : (gangState.swap 0).swaps = gangState.swaps + 2 := by decide

/-- Refutes O54: where a gang stands on two cores, the swap of one raises the count of swaps by two, not by one. -/
theorem not_imageEvents : ¬ Obligations.ImageEvents := by
  unfold Obligations.ImageEvents
  rintro ⟨hswap, -⟩
  obtain ⟨t, -, hexec, -, -, -, -, -, -, -, -, -, -, -, -, hswaps, -⟩ := hswap gangState 0 1 rfl rfl rfl rfl rfl rfl rfl fun _ _ => gangState_outstanding
  obtain rfl : gangState.swap 0 = t := Host.Outcome.next.inj hexec
  rw [swaps_swap_gangState] at hswaps
  omega

end Sys2Proof
end

