-- ==== Sys2Proof/Proofs/Lasting.lean ====
section
/-! What outlasts the work of the firmware: what a change of pages leaves of a die, and the dead contexts, the contexts of queues and the fences that nothing brings back. -/

namespace Sys2Proof

open Sys2Proof.Machine

/-! ### Changes of pages (R224, R229, R231) -/

/-- A die beside its TLB and its tiers. -/
def Machine.Die.beside (q : Die) : Die := { q with tlb := [], tiers := [] }

/-- Nothing has changed but bytes of memory with their releases and reservations, the TLBs and the tiers. -/
structure Repaged (s t : State) : Prop where
  rest : { t with mem := s.mem, tags := s.tags, reservations := s.reservations, cores := s.cores, dies := s.dies, fresh := s.fresh } = s
  dies : ∀ d, (t.die d).beside = (s.die d).beside

namespace Repaged

variable {s t u : State}

theorem refl (s : State) : Repaged s s := ⟨rfl, fun _ => rfl⟩

theorem trans (h : Repaged s t) (k : Repaged t u) : Repaged s u where
  rest := (congrArg (fun x : State => { x with mem := s.mem, tags := s.tags, reservations := s.reservations, cores := s.cores, dies := s.dies, fresh := s.fresh }) k.rest).trans h.rest
  dies d := (k.dies d).trans (h.dies d)

theorem foldl {α : Type} {g : State → α → State} (h : ∀ s a, Repaged s (g s a)) (l : List α) (s : State) : Repaged s (l.foldl g s) :=
  List.foldlRecOn (motive := fun t => Repaged s t) l g (refl s) fun t ht a _ => ht.trans (h t a)

theorem contexts (h : Repaged s t) : t.contexts = s.contexts := (congrArg State.contexts h.rest :)
theorem queues (h : Repaged s t) : t.queues = s.queues := (congrArg State.queues h.rest :)
theorem poison (h : Repaged s t) : t.poison = s.poison := (congrArg State.poison h.rest :)
theorem handles (h : Repaged s t) : t.handles = s.handles := (congrArg State.handles h.rest :)
theorem errLogs (h : Repaged s t) (d : Nat) : (t.die d).errLogs = (s.die d).errLogs := (congrArg Die.errLogs (h.dies d) :)
theorem keys (h : Repaged s t) (d : Nat) : (t.die d).keys = (s.die d).keys := (congrArg Die.keys (h.dies d) :)
theorem fenceSelf (h : Repaged s t) (d : Nat) : (t.die d).fenceSelf = (s.die d).fenceSelf := (congrArg Die.fenceSelf (h.dies d) :)

theorem modDie (s : State) (d : Nat) (g : Die → Die) (hg : ∀ q, (g q).beside = q.beside) : Repaged s (s.modDie d g) := by
  refine ⟨rfl, fun d' => ?_⟩
  rw [s.die_modDie]
  split
  · exact hg _
  · rfl

theorem countGranule (s : State) (pa n : Nat) (write : Bool) : Repaged s (s.countGranule pa n write) := by
  unfold State.countGranule
  split
  · exact refl s
  · exact trans (t := { s with fresh := s.fresh + 1 }) ⟨rfl, fun _ => rfl⟩ (modDie _ _ _ fun _ => rfl)

theorem poke (s : State) (pa : Nat) (bs : List Byte) (atomic : Bool) (tag : Option SyncTag) : Repaged s (s.poke pa bs atomic tag) := by
  unfold State.poke
  exact trans (t := State.tagWrite { s.setBytes pa bs with reservations := _ } pa bs.length atomic tag) ⟨rfl, fun _ => rfl⟩ (countGranule ..)

theorem dropTlb (s : State) (die : Nat) (p : Translation → Bool) : Repaged s (s.dropTlb die p) :=
  trans (t := s.modDie die (fun q => { q with tlb := q.tlb.filter (fun t => !p t) })) (modDie _ _ _ fun _ => rfl) ⟨rfl, fun _ => rfl⟩

theorem dropAsid (s : State) (asid : Nat) : Repaged s (s.dropAsid asid) := foldl (fun s d => dropTlb s d _) _ s

theorem dropPiece (s : State) (asid piece : Nat) : Repaged s (s.dropPiece asid piece) := foldl (fun s d => dropTlb s d _) _ s

theorem snapBits (s : State) (die asid piece : Nat) (on : Bool) : Repaged s (s.snapBits die asid piece on) := by
  unfold State.snapBits
  refine foldl (fun s e => ?_) _ s
  extract_lets v v'
  split
  · exact refl s
  · exact poke ..

theorem touchLeaf (s : State) (entry pte : Nat) (write : Bool) : Repaged s (s.touchLeaf entry pte write).1 := by
  unfold State.touchLeaf
  generalize (pte ||| 0x40 ||| if write then 0x80 else 0) = v
  dsimp only
  split
  · exact refl s
  · exact poke ..

theorem setRoot (s : State) (asid root d : Nat) : Repaged s (s.setRoot asid root d) := by
  unfold State.setRoot
  split
  · exact refl s
  · exact poke ..

theorem chargePage (s : State) (pa : Nat) : Repaged s (s.chargePage pa) := by
  unfold State.chargePage
  exact (foldl (fun s a => poke s a _ _ _) _ s).trans (foldl (fun s d => dropTlb s d _) _ _)

theorem traceBytes (s : State) (c : Nat) (bs : List Byte) : Repaged s (s.traceBytes c bs) := by
  unfold State.traceBytes
  dsimp only
  split
  · exact (poke s ..).trans ⟨rfl, fun _ => rfl⟩
  · exact ((poke s ..).trans (poke ..)).trans ⟨rfl, fun _ => rfl⟩

theorem traceLast (s : State) (c type : Nat) : Repaged s (s.traceLast c type) := by
  unfold State.traceLast
  dsimp only
  split
  · exact traceBytes ..
  · exact refl s

theorem traceEnd (s : State) (c type : Nat) : Repaged s (s.traceEnd c type) := (traceLast s c type).trans ⟨rfl, fun _ => rfl⟩

end Repaged

/-! ### What nothing brings back (R165, R181, R478) -/

/-- A handle names a context that is dead. -/
def Machine.State.DeadContext (s : State) (n : Nat) : Prop := ∃ x, s.contexts.get n = some x ∧ x.state = .dead

/-- A dead context is dead still, every queue that is left belongs to its context, and a fenced die is fenced still. -/
structure Lasting (s t : State) : Prop where
  dead : ∀ n, s.DeadContext n → t.DeadContext n
  queues : ∀ k q, t.queues.get k = some q → ∃ p, s.queues.get k = some p ∧ p.context = q.context
  fences : ∀ d, (s.die d).fenceSelf = true → (t.die d).fenceSelf = true

namespace Lasting

variable {r s t : State}

theorem refl (s : State) : Lasting s s := ⟨fun _ h => h, fun _ q h => ⟨q, h, rfl⟩, fun _ h => h⟩

theorem trans (h : Lasting r s) (k : Lasting s t) : Lasting r t where
  dead n hn := k.dead n (h.dead n hn)
  queues n q hq := by
    obtain ⟨p, hp, hpq⟩ := k.queues n q hq
    obtain ⟨o, ho, hop⟩ := h.queues n p hp
    exact ⟨o, ho, hop.trans hpq⟩
  fences d hd := k.fences d (h.fences d hd)

theorem foldl {α : Type} {g : State → α → State} (h : Lasting r s) (l : List α) (hg : ∀ s a, Lasting r s → Lasting r (g s a)) : Lasting r (l.foldl g s) :=
  List.foldlRecOn (motive := Lasting r) l g h fun t ht a _ => hg t a ht

theorem ite {p : Prop} [Decidable p] (hs : Lasting r s) (ht : Lasting r t) : Lasting r (if p then s else t) := by
  split
  · exact hs
  · exact ht

theorem elim {α : Type} (h : Lasting r s) (o : Option α) {g : α → State} (hg : ∀ a, Lasting r (g a)) : Lasting r (o.elim s g) := by
  cases o with
  | none => exact h
  | some a => exact hg a

/-- The contexts, the queues and the dies stand as they were. -/
theorem of_same (h : Lasting r s) (hc : t.contexts = s.contexts := by rfl) (hq : t.queues = s.queues := by rfl) (hd : t.dies = s.dies := by rfl) : Lasting r t := by
  refine h.trans ⟨fun n hn => ?_, fun k q hk => ⟨q, hq ▸ hk, rfl⟩, fun d hself => ?_⟩
  · unfold State.DeadContext
    rw [hc]
    exact hn
  · unfold State.die
    rw [hd]
    exact hself

theorem repaged (h : Lasting r s) (k : Repaged s t) : Lasting r t := by
  refine h.trans ⟨fun n hn => ?_, fun n q hq => ⟨q, k.queues ▸ hq, rfl⟩, fun d hd => (k.fenceSelf d).trans hd⟩
  unfold State.DeadContext
  rw [k.contexts]
  exact hn

section

variable (h : Lasting r s)

include h

theorem modCore (c : Nat) (g : Core → Core) : Lasting r (s.modCore c g) := h.of_same

theorem setCore (c : Nat) (q : Core) : Lasting r (s.setCore c q) := h.of_same

theorem modLaunch (n : Nat) (g : Launch → Launch) : Lasting r (s.modLaunch n g) := h.of_same

theorem modDie (d : Nat) (g : Die → Die) (hg : ∀ q, q.fenceSelf = true → (g q).fenceSelf = true := by exact fun _ hq => hq) : Lasting r (s.modDie d g) := by
  refine h.trans ⟨fun _ hn => hn, fun _ q hq => ⟨q, hq, rfl⟩, fun d' hd => ?_⟩
  rw [s.die_modDie]
  split
  · exact hg _ hd
  · exact hd

theorem mapDies (g : Nat → Die → Die) (hg : ∀ e q, (g e q).fenceSelf = q.fenceSelf := by exact fun _ _ => rfl) : Lasting r { s with dies := s.dies.mapVal g } := by
  refine h.trans ⟨fun _ hn => hn, fun _ q hq => ⟨q, hq, rfl⟩, fun d hd => ?_⟩
  unfold State.die Tab.getD at hd ⊢
  rw [Tab.get_mapVal]
  cases hq : s.dies.get d with
  | none => rwa [hq] at hd
  | some q =>
    rw [hq] at hd
    exact (hg d q).trans hd

theorem setFlow (f : Flow) (w : Wave) : Lasting r (s.setFlow f w) := by
  unfold State.setFlow
  split
  · exact h.modCore ..
  · exact h.modDie ..

theorem modFlow (f : Flow) (g : Wave → Wave) : Lasting r (s.modFlow f g) := by
  unfold State.modFlow
  split
  · exact h.setFlow ..
  · exact h

theorem modQueue (n : Nat) (g : Queue → Queue) (hg : ∀ q, (g q).context = q.context := by exact fun _ => rfl) : Lasting r (s.modQueue n g) := by
  refine h.trans ⟨fun _ hn => hn, fun k q hq => ?_, fun _ hd => hd⟩
  by_cases hk : n = k
  · subst hk
    obtain ⟨p, hp, rfl⟩ := Option.map_eq_some_iff.1 ((Tab.get_upd_self _ n g).symm.trans hq)
    exact ⟨p, hp, (hg p).symm⟩
  · exact ⟨q, (Tab.get_upd_ne _ g hk).symm.trans hq, rfl⟩

theorem delQueue (n : Nat) : Lasting r { s with queues := s.queues.del n } := by
  refine h.trans ⟨fun _ hn => hn, fun k q hq => ⟨q, ?_, rfl⟩, fun _ hd => hd⟩
  by_cases hk : n = k
  · subst hk
    cases (Tab.get_del_self s.queues n).symm.trans hq
  · exact (Tab.get_del_ne _ hk).symm.trans hq

theorem modContext (n : Nat) (g : Context → Context) (hg : ∀ x, s.contexts.get n = some x → x.state = .dead → (g x).state = .dead := by exact fun _ _ hx => hx) : Lasting r (s.modContext n g) := by
  refine h.trans ⟨fun k ⟨x, hx, hdead⟩ => ?_, fun _ q hq => ⟨q, hq, rfl⟩, fun _ hd => hd⟩
  by_cases hk : n = k
  · subst hk
    exact ⟨g x, (Tab.get_upd_self _ n g).trans (congrArg (Option.map g) hx), hg x hx hdead⟩
  · exact ⟨x, (Tab.get_upd_ne _ g hk).trans hx, hdead⟩

theorem sameStates (hc : ∀ n, (t.contexts.get n).map Context.state = (s.contexts.get n).map Context.state) (hq : t.queues = s.queues) (hd : t.dies = s.dies) : Lasting r t := by
  refine Lasting.of_same (s := { s with contexts := t.contexts }) (h.trans ⟨fun n ⟨x, hx, hdead⟩ => ?_, fun _ q hq => ⟨q, hq, rfl⟩, fun _ hd => hd⟩) rfl hq hd
  obtain ⟨y, hy, hyx⟩ := Option.map_eq_some_iff.1 ((hc n).trans (congrArg (Option.map Context.state) hx))
  exact ⟨y, hy, hyx.trans hdead⟩

theorem poke (pa : Nat) (bs : List Byte) (atomic : Bool) (tag : Option SyncTag) : Lasting r (s.poke pa bs atomic tag) := h.repaged (.poke ..)

theorem logDie (d array : Nat) (ue : Bool) (asid addr pc seq : Nat) : Lasting r (s.logDie d array ue asid addr pc seq) := by
  unfold State.logDie
  dsimp only
  split
  · exact h.modDie ..
  · exact (h.modDie ..).modDie ..

/-! Queues (R177, R181). -/

theorem queueTo (n state cause : Nat) : Lasting r (s.queueTo n state cause) := by
  unfold State.queueTo
  split
  · exact h
  · exact (h.modQueue n _).poke ..

theorem queueError (n cause : Nat) : Lasting r (s.queueError n cause) := by
  unfold State.queueError
  split
  · exact (h.queueTo ..).ite h
  · exact h

theorem rewrite (n : Nat) : Lasting r (s.rewrite n) := by
  unfold State.rewrite
  split
  · exact h
  · exact h.ite ((h.poke ..).poke ..)

theorem setQueue (n : Nat) (g : Queue → Queue) (hg : ∀ q, (g q).context = q.context := by exact fun _ => rfl) : Lasting r (s.setQueue n g) := (h.modQueue n g hg).rewrite n

/-! Snapshots and pages (R192, R193, R224). -/

theorem snapshot (die asid launch piece : Nat) : Lasting r (s.snapshot die asid launch piece) := by
  unfold State.snapshot
  split
  · exact h
  · exact h.ite h.of_same

theorem serveSnap (die ctx asid va : Nat) : Lasting r (s.serveSnap die ctx asid va) := by
  unfold State.serveSnap
  exact ((h.foldl _ fun _ e ht => ht.snapshot die asid e.1 _).repaged (.snapBits ..)).repaged (.dropPiece ..)

theorem freeSnapshots (n : Nat) : Lasting r (s.freeSnapshots n) := by
  unfold State.freeSnapshots
  split
  · exact h
  · dsimp only
    split
    · exact h.modLaunch ..
    · exact (h.modLaunch ..).foldl _ fun _ _ ht => (ht.repaged (.snapBits ..)).repaged (.dropPiece ..)

theorem agentPoke (die asid pa : Nat) (bs : List Byte) (tag : Option SyncTag) : Lasting r (s.agentPoke die asid pa bs tag) := by
  unfold State.agentPoke
  exact (h.logDie ..).ite (h.poke ..)

theorem agentPage (die ctx asid va : Nat) : Lasting r (s.agentPage die ctx asid va).1 := by
  unfold State.agentPage
  split
  · exact h
  · have hserved (b : Bool) : Lasting r (if b then s.serveSnap die ctx asid va else s) := (h.serveSnap ..).ite h
    dsimp only
    split
    · exact hserved _
    · exact (hserved _).repaged (.touchLeaf ..)

theorem putCtxByte (die ctx va : Nat) (v : Byte) : Lasting r (s.putCtxByte die ctx va v) := by
  unfold State.putCtxByte
  split
  · exact h
  · next asid _ =>
    have hpage := h.agentPage die ctx asid va
    split
    · next heq =>
      rw [heq] at hpage
      exact hpage.agentPoke ..
    · exact h

/-! Groups that go (R167, R170, R194). -/

theorem forgetFlow (f : Flow) : Lasting r (s.forgetFlow f) := by
  unfold State.forgetFlow State.dropRequests
  exact Lasting.modDie (s := s.dropReservations f) h.of_same _ _ fun _ hq => hq

theorem dropRequests (f : Flow) (ctx : Option Nat) : Lasting r (s.dropRequests f ctx) := h.modDie ..

theorem trimKeys : Lasting r s.trimKeys := h.mapDies _

theorem freeCore (c : Nat) : Lasting r (s.freeCore c) := by
  unfold State.freeCore
  dsimp only
  split
  · exact h
  · split
    · exact h.setCore ..
    · exact (h.setCore ..).ite ((h.setCore ..).modContext ..).trimKeys

theorem cancelCalls (d : Nat) (p : Landing → Bool) : Lasting r (s.cancelCalls d p) := h.modDie ..

theorem dropGroup (c g : Nat) : Lasting r (s.dropGroup c g) := by
  unfold State.dropGroup
  exact (((h.cancelCalls ..).foldl _ fun _ _ ht => ht.forgetFlow _).modCore ..).freeCore c

theorem dropImageRequests (c launch : Nat) (i : Image) : Lasting r (s.dropImageRequests c launch i) := h.foldl _ fun _ _ ht => ht.dropRequests ..

theorem dropAwayRequests (launch : Nat) : Lasting r (s.dropAwayRequests launch) := by
  unfold State.dropAwayRequests
  refine (h.foldl _ fun _ e ht => ht.elim _ fun i => ht.dropImageRequests e.1 launch i).foldl _ fun t e ht => ?_
  split
  · exact ht.elim _ fun c => ht.dropImageRequests ..
  · exact ht

theorem trimAreas (old : Tab Image) : Lasting r (s.trimAreas old) := by
  unfold State.trimAreas
  refine trimKeys (h.sameStates (fun n => ?_) rfl rfl)
  rw [Tab.get_mapVal, Option.map_map]
  rfl

theorem dropLaunch (launch : Nat) : Lasting r (s.dropLaunch launch) := by
  unfold State.dropLaunch
  refine trimAreas (of_same (s := List.foldl _ (s.dropAwayRequests launch) s.cores) ?_) _
  exact (h.dropAwayRequests launch).foldl _ fun _ _ ht => ht.foldl _ fun _ _ hu => hu.dropGroup ..

theorem dropContext (ctx : Nat) : Lasting r (s.dropContext ctx) := by
  unfold State.dropContext
  refine trimAreas (of_same (s := List.foldl _ s s.cores) ?_) _
  exact h.foldl _ fun _ _ ht => (ht.foldl _ fun _ _ hu => hu.dropGroup ..).ite ht

theorem endLaunch (n : Nat) (st : LaunchState) : Lasting r (s.endLaunch n st) := by
  unfold State.endLaunch
  split
  · refine ite ?_ h
    exact ((h.modLaunch ..).freeSnapshots n).mapDies _ fun _ q => by split <;> rfl
  · exact h

theorem tearLaunch (n : Nat) : Lasting r (s.tearLaunch n) := ((h.dropLaunch n).endLaunch ..).ite h

/-! Resets of queues (R182 to R185). -/

theorem modImageWave (f : Flow) (ctx : Option Nat) (g : Wave → Wave) : Lasting r (s.modImageWave f ctx g) := by
  unfold State.modImageWave
  split
  · refine (h.modFlow ..).ite ((h.modCore ..).ite ?_)
    split
    · exact h.of_same
    · exact h
  · exact h.modFlow ..

theorem answerAll (n service v : Nat) : Lasting r (s.answerAll n service v) := by
  unfold State.answerAll State.answerMailbox
  refine (h.foldl _ fun _ _ ht => ?_).foldl _ fun _ _ ht => ?_
  · exact ht.modDie ..
  · exact (ht.modDie ..).modImageWave ..

theorem discardAsked (n : Nat) : Lasting r (s.discardAsked n) := ((h.answerAll ..).answerAll ..).modQueue ..

theorem closeSession (n type : Nat) : Lasting r (s.closeSession n type) := by
  unfold State.closeSession
  split
  · exact h
  · refine ite h (of_same (s := State.setQueue _ n _) ?_)
    refine setQueue (h.foldl _ fun _ _ ht => ?_) _ _ fun _ => rfl
    exact ite (ht.repaged (.traceLast ..)) (ht.repaged (.traceEnd ..))

theorem resetQueue (n : Nat) : Lasting r (s.resetQueue n) := by
  unfold State.resetQueue
  split
  · exact h
  · extract_lets upto s1 s2 s3 s4 s5
    have h1 : Lasting r s1 := (h.discardAsked n).setQueue ..
    have h2 : Lasting r s2 := h1.foldl _ fun _ _ ht => ht.tearLaunch _
    have h3 : Lasting r s3 := h2.foldl _ fun _ _ ht => ht.putCtxByte ..
    have h4 : Lasting r s4 := h3.setQueue ..
    exact (h4.closeSession n 7).setQueue ..

theorem freeQueue (n : Nat) : Lasting r (s.freeQueue n) := ((h.resetQueue n).queueTo n 0 0).delQueue n

theorem stopChain (pa : Nat) (c : Chain) : Lasting r (s.stopChain pa c) := of_same (h.poke (pa + 33) [2] false _)

/-! Contexts that fail (R167). -/

theorem askSwap (c : Nat) : Lasting r (s.askSwap c) := by
  unfold State.askSwap
  split
  · exact h
  · exact h.ite h.of_same

theorem failContext (ctx cause : Nat) : Lasting r (s.failContext ctx cause) := by
  unfold State.failContext
  split
  · exact h
  · next c hc =>
    split
    · exact h
    · next halive =>
      refine ((foldl ?_ _ fun _ _ ht => ht.queueError ..).foldl _ fun _ _ ht => ht.endLaunch ..).foldl _ fun _ _ ht => ht.askSwap _
      refine h.modContext _ _ fun x hx hdead => absurd hdead fun hdead => halive (.inl ?_)
      exact Option.some.inj (hc.symm.trans hx) ▸ hdead

/-! Links and fences of dies (R246, R478, R480). -/

theorem loseReads (d : Nat) (dests : List Nat) : Lasting r (s.loseReads d dests) := by
  unfold State.loseReads
  exact modDie h.of_same ..

theorem modPort (d k : Nat) (g : Port → Port) : Lasting r (s.modPort d k g) := h.modDie d _

theorem portLost (d k : Nat) : Lasting r (s.portLost d k) := by
  have hblock (dests : List Nat) : Lasting r
      ((s.modDie d (fun q => { q with routes := dests.foldl (fun t e => t.set e (true, (t.getD e (true, k)).2)) q.routes })).loseReads d dests) :=
    (h.modDie ..).loseReads ..
  unfold State.portLost
  dsimp only
  split
  · exact hblock _
  · split
    · exact (((hblock _).modDie ..).modPort ..).ite (hblock _)
    · exact hblock _

theorem dropEnd (d k state : Nat) : Lasting r (s.dropEnd d k state) := by
  unfold State.dropEnd
  exact ((h.modPort ..).portLost ..).ite (h.modPort ..)

theorem dropPort (d k state : Nat) : Lasting r (s.dropPort d k state) := by
  unfold State.dropPort
  dsimp only
  split
  · exact ((h.dropEnd ..).dropEnd ..).ite (h.dropEnd ..)
  · exact h.dropEnd ..

theorem loseImages (d : Nat) : Lasting r (s.loseImages d) := by
  unfold State.loseImages
  refine trimAreas (of_same (s := List.foldl _ s s.cores) ?_) _
  exact h.foldl _ fun _ _ ht => (ht.foldl _ fun _ _ hu => hu.dropGroup ..).ite ht

end

end Lasting

/-- A die that stops is fenced (R478). -/
theorem Machine.State.fenceSelf_stopDie (s : State) (d : Nat) : ((s.stopDie d).die d).fenceSelf = true := by
  unfold State.stopDie
  split
  · next hself => exact hself
  · extract_lets spanning s1 s2 s3 s4
    have h1 : (s1.die d).fenceSelf = true := congrArg Die.fenceSelf (s.die_modDie_self d _)
    have h2 : Lasting s1 s2 := (Lasting.refl s1).mapDies _ fun _ _ => by split <;> rfl
    have h3 : Lasting s1 s3 := h2.foldl _ fun _ _ ht => ht.ite (ht.dropPort ..)
    have h4 : Lasting s1 s4 := h3.foldl _ fun _ _ ht => ht.failContext ..
    exact (h4.loseImages d).fences d h1

end Sys2Proof
end

