-- ==== Sys2Proof/Proofs/FoundErrors.lean ====
section
/-! Errors that no access consumes, and the moves of granules that find them (R231 to R236, R469, R476, R478). -/

namespace Sys2Proof

open Sys2Proof.Machine

/-! ### Error logs (R476) -/

/-- A log holds an uncorrectable error: V and UE are set. -/
def Machine.ErrLog.Holds (e : ErrLog) : Prop := e.stat.getLsbD 63 = true ∧ e.stat.getLsbD 62 = true

/-- V and UE of a STAT whose fields below them are in range. -/
theorem stat_top {v u : Bool} {x n : Nat} (hx : x = b2n v * 2 ^ 63 + b2n u * 2 ^ 62 + n) (hn : n < 2 ^ 62) :
    (BitVec.ofNat 64 x).getLsbD 63 = v ∧ (BitVec.ofNat 64 x).getLsbD 62 = u := by
  rw [BitVec.getLsbD_ofNat, BitVec.getLsbD_ofNat, Nat.testBit_eq_decide_div_mod_eq, Nat.testBit_eq_decide_div_mod_eq, hx]
  cases v <;> cases u <;> simp [b2n] <;> omega

/-- An uncorrectable error that is entered in a log stands there, or one that stood there before it. -/
theorem Machine.ErrLog.enter_holds (e : ErrLog) (asid addr pc seq synd : Nat) : (e.enter true asid addr pc seq synd).Holds := by
  have hcorr : (e.stat.extractLsb' 16 16).toNat < 2 ^ 16 := BitVec.isLt _
  have hasid : (e.stat.extractLsb' 46 10).toNat < 2 ^ 10 := BitVec.isLt _
  have hsynd : (e.stat.extractLsb' 0 16).toNat < 2 ^ 16 := BitVec.isLt _
  have hovf (b : Bool) : b2n b ≤ 1 := by cases b <;> decide
  have htrue : b2n true = 1 := rfl
  unfold ErrLog.enter
  extract_lets v held corr corr' ovf
  have hsame : corr' = corr := rfl
  split
  · have hn : b2n (e.stat.getLsbD 61) * 2 ^ 61 + asid % 1024 * 2 ^ 46 + corr * 2 ^ 16 + synd % 65536 < 2 ^ 62 := by
      have := hovf (e.stat.getLsbD 61)
      omega
    exact stat_top (v := true) (u := true) (by omega) hn
  · next hheld =>
    have hv : v = true ∧ held = true := by simpa using hheld
    have hn : b2n ovf * 2 ^ 61 + (e.stat.extractLsb' 46 10).toNat * 2 ^ 46 + corr * 2 ^ 16 + (e.stat.extractLsb' 0 16).toNat < 2 ^ 62 := by
      have := hovf ovf
      omega
    exact stat_top (v := true) (u := true) (by rw [hv.1, hv.2]; omega) hn

theorem Machine.State.logDie_holds (s : State) (d array asid addr pc seq : Nat) : (((s.logDie d array true asid addr pc seq).die d).errLogs.getD array ErrLog.reset).Holds := by
  simp only [State.logDie, if_true, State.die_modDie_self, Tab.getD_set_self]
  exact ErrLog.enter_holds ..

theorem Machine.State.logCore_holds (s : State) (c array asid addr pc seq : Nat) : (((s.logCore c array true asid addr pc seq).core c).errLogs.getD array ErrLog.reset).Holds := by
  simp only [State.logCore, if_true, State.core_modCore_self, Tab.getD_set_self]
  exact ErrLog.enter_holds ..

/-! ### Errors found in memory (R236, R469) -/

theorem Machine.State.foundInLine_holds (s : State) (d array pa : Nat) : (((s.foundInLine d array pa).die d).errLogs.getD array ErrLog.reset).Holds := by
  unfold State.foundInLine
  rw [(Repaged.chargePage _ pa).errLogs]
  exact s.logDie_holds ..

theorem Machine.State.poison_foundInLine (s : State) (d array pa : Nat) : (s.foundInLine d array pa).poison = s.poison := (Repaged.chargePage (s.logDie d array true 0 pa 0 0) pa).poison

/-! ### Scrubbing (R469, R476, R478) -/

theorem scrubbing_die {d a : Nat} (s : State) (addr : Nat) (ha : a < 6) :
    ∃ t, Machine.exec (.scrubbing d a addr) s = .next t ∧ ((t.die d).errLogs.getD a ErrLog.reset).Holds ∧
      (a ≤ 1 → paSpace addr = 0 → addr < 2 ^ 52 → t.poison.contains (lineOf addr) = true) := by
  have hat : scrubbedAt d a addr = .die d a addr := if_pos (by omega)
  show ∃ t, execScrubbing d a addr s = .next t ∧ _
  unfold execScrubbing
  rw [hat]
  dsimp only
  rw [if_neg (by omega : ¬16 ≤ a), if_neg (by omega : ¬6 ≤ a)]
  split
  · next hother => exact ⟨_, rfl, s.logDie_holds .., fun h1 hspace hlt => absurd hother (by omega)⟩
  · refine ⟨_, rfl, State.foundInLine_holds .., fun _ _ _ => ?_⟩
    rw [State.poison_foundInLine]
    split
    · assumption
    · simp

theorem scrubbing_fences {d a : Nat} (s : State) (addr : Nat) (h6 : 6 ≤ a) (h16 : a < 16) :
    ∃ t, Machine.exec (.scrubbing d a addr) s = .next t ∧ (t.die d).fenceSelf = true := by
  have hat : scrubbedAt d a addr = .die d a addr := if_pos h16
  show ∃ t, execScrubbing d a addr s = .next t ∧ _
  unfold execScrubbing
  rw [hat]
  dsimp only
  rw [if_neg (by omega : ¬16 ≤ a), if_pos h6]
  exact ⟨_, rfl, State.fenceSelf_stopDie ..⟩

/-- A word of a core's array is marked in the core, whose logs, and whose memory, stand as they were. -/
theorem Machine.State.markWord_keeps (s : State) (c array index sub : Nat) :
    ((s.markWord c array index sub).core c).errLogs = (s.core c).errLogs ∧ (s.markWord c array index sub).mem = s.mem := by
  have hcore (g : Core → Core) (hg : (g (s.core c)).errLogs = (s.core c).errLogs := by rfl) :
      ((s.modCore c g).core c).errLogs = (s.core c).errLogs ∧ (s.modCore c g).mem = s.mem := ⟨(congrArg Core.errLogs (s.core_modCore_self c g)).trans hg, rfl⟩
  unfold State.markWord State.modGroup State.modMatrix State.spoil
  split
  · exact hcore _
  · exact hcore _
  · exact hcore _ (by unfold Core.putEngine; split <;> rfl)
  · exact hcore _
  · exact hcore _
  · exact hcore _
  · exact ⟨rfl, rfl⟩

theorem scrubbing_core {d a c k i j : Nat} (s : State) (addr : Nat) (hat : scrubbedAt d a addr = .core c k i j) (hk : k < 10) :
    ∃ t, Machine.exec (.scrubbing d a addr) s = .next t ∧ ((t.core c).errLogs.getD k ErrLog.reset).Holds ∧ ∀ x, t.byte x = s.byte x := by
  obtain ⟨hlogs, hmem⟩ := (s.logCore c k true 0 i 0 0).markWord_keeps c k i j
  refine ⟨(s.logCore c k true 0 i 0 0).markWord c k i j, ?_, ?_, fun x => ?_⟩
  · show execScrubbing d a addr s = _
    unfold execScrubbing
    rw [hat]
    exact congrArg Host.Outcome.next (if_neg (by omega))
  · rw [hlogs]
    exact s.logCore_holds ..
  · unfold State.byte
    rw [hmem]
    rfl

/-! ### Tiers (R231 to R235) -/

/-- EPOCH halves every COUNT (R232). -/
theorem tierEpoch_halves {s : State} {d : Nat} (h : (s.die d).tierEpoch ≠ 0) :
    ∃ t, Machine.exec (.tierEpoch d) s = .next t ∧ { t with dies := s.dies } = s ∧
      (t.die d).tiers = (((s.die d).tiers.map (fun e => (e.1, { e.2 with count := e.2.count / 2 }))).filter (fun e => e.2 != Granule.reset)) := by
  refine ⟨_, rfl, rfl, ?_⟩
  rw [s.die_modDie_self, if_neg h]
  rfl

theorem Machine.Die.granule_setGranule (q : Die) (n k : Nat) (v : Granule) : (q.setGranule n v).granule k = if n = k then v else q.granule k := by
  unfold Die.setGranule Die.granule
  split
  · next hv => rw [hv]; exact Tab.getD_del ..
  · exact Tab.getD_set ..

@[simp] theorem Machine.Die.granule_setGranule_self (q : Die) (n : Nat) (v : Granule) : (q.setGranule n v).granule n = v := by rw [q.granule_setGranule, if_pos rfl]

theorem Machine.Die.granule_setGranule_ne (q : Die) {n k : Nat} (v : Granule) (h : k ≠ n) : (q.setGranule n v).granule k = q.granule k := by
  rw [q.granule_setGranule, if_neg (Ne.symm h)]

/-- A move that starts is the die's change of one granule. -/
theorem granuleMoveStart_exec (s : State) (d : Nat) {n : Nat} (hn : n < 8388608) :
    Machine.exec (.granuleMoveStart d n) s = .next (s.modDie d (fun q => q.startMove n)) := congrArg Host.Outcome.next (if_pos hn)

theorem granuleMoveStart_sets {s : State} {d n m : Nat} {v : Granule} (hn : n < 8388608) (h : (s.die d).startMove n = (s.die d).setGranule m v) :
    ∃ t, Machine.exec (.granuleMoveStart d n) s = .next t ∧ (t.die d).granule m = v ∧ ∀ k, k ≠ m → (t.die d).granule k = (s.die d).granule k := by
  refine ⟨_, granuleMoveStart_exec s d hn, ?_, fun k hk => ?_⟩ <;> rw [s.die_modDie_self, h]
  · exact Die.granule_setGranule_self ..
  · exact Die.granule_setGranule_ne _ _ hk

theorem granuleMoveStart_out {s : State} {d n : Nat} (hn : n < 8388608) (h : wantsOut ((s.die d).granule n) = true) :
    ∃ t, Machine.exec (.granuleMoveStart d n) s = .next t ∧ (t.die d).granule n = { (s.die d).granule n with mig := true } ∧ ∀ k, k ≠ n → (t.die d).granule k = (s.die d).granule k :=
  granuleMoveStart_sets hn (if_pos h)

theorem granuleMoveStart_in {s : State} {d n f : Nat} (hn : n < 8388608) (hout : wantsOut ((s.die d).granule n) = false) (hin : (s.die d).wantsIn ((s.die d).granule n) = true)
    (hf : (s.die d).freeFrame = some f) :
    ∃ t, Machine.exec (.granuleMoveStart d n) s = .next t ∧ (t.die d).granule n = { (s.die d).granule n with mig := true, frame := f } ∧
      ∀ k, k ≠ n → (t.die d).granule k = (s.die d).granule k := by
  refine granuleMoveStart_sets hn ?_
  simp only [Die.startMove, hout, hin, hf, Bool.false_eq_true, if_false, if_true]

theorem granuleMoveStart_victim {s : State} {d n v : Nat} (hn : n < 8388608) (hout : wantsOut ((s.die d).granule n) = false) (hin : (s.die d).wantsIn ((s.die d).granule n) = true)
    (hf : (s.die d).freeFrame = none) (hv : (s.die d).victim = some v) :
    ∃ t, Machine.exec (.granuleMoveStart d n) s = .next t ∧ (t.die d).granule v = { (s.die d).granule v with mig := true } := by
  have hstart : (s.die d).startMove n = (s.die d).setGranule v { (s.die d).granule v with mig := true } := by
    simp only [Die.startMove, hout, hin, hf, hv, Bool.false_eq_true, if_false, if_true]
  obtain ⟨t, ht, hgranule, -⟩ := granuleMoveStart_sets hn hstart
  exact ⟨t, ht, hgranule⟩

/-- What a move finds: the poisoned lines of its granule, each entered in the die's log 1. -/
def Machine.State.movedWith (s : State) (d n : Nat) (found : List Nat) : State := found.foldl (fun s l => s.foundInLine d 1 (128 * l)) (s.modDie d (fun q => q.endMove n))

theorem granuleMoveComplete_exec {s : State} {d n : Nat} (h : ((s.die d).granule n).mig = true) :
    Machine.exec (.granuleMoveComplete d n) s = .next (s.movedWith d n (s.granulePoison d n)) := by
  show execGranuleMoveComplete d n s = _
  unfold execGranuleMoveComplete
  rw [h]
  rfl

theorem granuleMoveComplete_finds {s : State} {d n : Nat} (h : ((s.die d).granule n).mig = true) :
    ∃ t, Machine.exec (.granuleMoveComplete d n) s = .next t ∧ ∀ l ∈ s.granulePoison d n, ((t.die d).errLogs.getD 1 ErrLog.reset).Holds ∧ t.poison.contains l = true := by
  refine ⟨_, granuleMoveComplete_exec h, fun l hl => ⟨?_, ?_⟩⟩
  · obtain ⟨init, last, hfound⟩ := (List.eq_nil_or_concat (s.granulePoison d n)).resolve_left (List.ne_nil_of_mem hl)
    unfold State.movedWith
    rw [hfound, List.concat_eq_append, List.foldl_append, List.foldl_cons, List.foldl_nil]
    exact State.foundInLine_holds _ d 1 _
  · have hpoison : (s.movedWith d n (s.granulePoison d n)).poison = s.poison :=
      List.foldlRecOn (motive := fun t : State => t.poison = s.poison) _ _ rfl fun t ht l _ => (t.poison_foundInLine ..).trans ht
    rw [hpoison, List.contains_iff_mem]
    exact List.mem_of_mem_filter hl

theorem granuleMoveComplete_moves {s : State} {d n : Nat} (h : ((s.die d).granule n).mig = true) (hnone : s.granulePoison d n = []) : let g := (s.die d).granule n
    ∃ t, Machine.exec (.granuleMoveComplete d n) s = .next t ∧ (∀ a, t.byte a = s.byte a) ∧
      (g.inHbm = true → (t.die d).granule n = { g with mig := false, inHbm := false, frame := 0, dirty := false } ∧ (t.die d).tierOut = ((s.die d).tierOut + 1) % 2 ^ 32) ∧
      (g.inHbm = false → (t.die d).granule n = { g with mig := false, inHbm := true, dirty := false } ∧ (t.die d).tierIn = ((s.die d).tierIn + 1) % 2 ^ 32) := by
  intro g
  refine ⟨s.modDie d (fun q => q.endMove n), ?_, fun _ => rfl, fun hin => ?_, fun hout => ?_⟩
  · rw [granuleMoveComplete_exec h, hnone]
    rfl
  · have hend : (s.die d).endMove n = { (s.die d).setGranule n { g with mig := false, inHbm := false, frame := 0, dirty := false } with tierOut := ((s.die d).tierOut + 1) % 2 ^ 32 } := by
      simp only [Die.endMove, h, g, hin, Bool.not_true, Bool.false_eq_true, if_false, if_true]
    rw [s.die_modDie_self, hend]
    exact ⟨(s.die d).granule_setGranule_self n _, rfl⟩
  · have hend : (s.die d).endMove n = { (s.die d).setGranule n { g with mig := false, inHbm := true, dirty := false } with tierIn := ((s.die d).tierIn + 1) % 2 ^ 32 } := by
      simp only [Die.endMove, h, g, hout, Bool.not_true, Bool.false_eq_true, if_false]
    rw [s.die_modDie_self, hend]
    exact ⟨(s.die d).granule_setGranule_self n _, rfl⟩

end Sys2Proof
end

