-- ==== Sys2Proof/Proofs/Contexts.lean ====
section
/-! Contexts that are made and torn down, faults that are dispatched, and walks that fill a TLB (R165 to R167, R193, R194, R224, R226, R227). -/

namespace Sys2Proof

open Sys2Proof.Machine

/-! ### ASIDs that change hands (R165, R220) -/

/-- A context without its ASID. -/
def Machine.Context.unnumbered (x : Context) : Context := { x with asid := none }

theorem Machine.State.contexts_takeAsid (s : State) (n k : Nat) :
    (s.takeAsid n).contexts.get k = if n = k then (s.contexts.get k).map Context.unnumbered else s.contexts.get k := by
  unfold State.takeAsid
  split
  · next a _ =>
    have hcontexts : ((s.dropAsid a).modContext n (fun x => { x with asid := none })).contexts = s.contexts.upd n Context.unnumbered :=
      congrArg (fun t : Tab Context => t.upd n Context.unnumbered) (Repaged.dropAsid s a).contexts
    rw [hcontexts]
    split
    · next hk => rw [← hk, Tab.get_upd_self]
    · next hk => rw [Tab.get_upd_ne _ _ hk]
  · next hnone =>
    split
    · next hk =>
      subst hk
      cases hx : s.contexts.get n with
      | none => rfl
      | some x =>
        have hasid : x.asid = none := by rwa [hx] at hnone
        show some x = some { x with asid := none }
        rw [← hasid]
    · rfl

theorem Machine.State.fresh_dropAsid (s : State) (asid : Nat) : (s.dropAsid asid).fresh = s.fresh :=
  List.foldlRecOn (motive := fun t : State => t.fresh = s.fresh) _ _ rfl fun _ ht _ _ => ht

theorem Machine.State.takeAsid_keeps (s : State) (n : Nat) : (s.takeAsid n).handles = s.handles ∧ (s.takeAsid n).fresh = s.fresh := by
  unfold State.takeAsid
  split
  · next a _ => exact ⟨(Repaged.dropAsid s a).handles, s.fresh_dropAsid a⟩
  · exact ⟨rfl, rfl⟩

theorem foldl_takeAsid_contexts (hs : List Nat) (s : State) (k : Nat) :
    (hs.foldl (fun s h => s.takeAsid h) s).contexts.get k = if k ∈ hs then (s.contexts.get k).map Context.unnumbered else s.contexts.get k := by
  induction hs generalizing s with
  | nil => rfl
  | cons h hs ih =>
    rw [List.foldl_cons, ih, s.contexts_takeAsid]
    by_cases hk : h = k
    · subst hk
      rw [if_pos rfl, if_pos List.mem_cons_self, Option.map_map]
      exact ite_self _
    · simp [hk, Ne.symm hk]

theorem foldl_takeAsid_keeps (hs : List Nat) (s : State) :
    (hs.foldl (fun s h => s.takeAsid h) s).handles = s.handles ∧ (hs.foldl (fun s h => s.takeAsid h) s).fresh = s.fresh :=
  List.foldlRecOn (motive := fun t : State => t.handles = s.handles ∧ t.fresh = s.fresh) _ _ ⟨rfl, rfl⟩ fun t ⟨hhandles, hfresh⟩ n _ =>
    ⟨(t.takeAsid_keeps n).1.trans hhandles, (t.takeAsid_keeps n).2.trans hfresh⟩

theorem Machine.State.cores_poke (s : State) (pa : Nat) (bs : List Byte) (atomic : Bool) (tag : Option SyncTag) : (s.poke pa bs atomic tag).cores = s.cores := by
  unfold State.poke State.countGranule
  dsimp only
  split <;> rfl

theorem Machine.State.cores_setRoot (s : State) (asid root d : Nat) : (s.setRoot asid root d).cores = s.cores := by
  unfold State.setRoot
  split
  · rfl
  · exact s.cores_poke ..

/-- A context that is there receives an ASID: the root arrays are written, and no other context changes. -/
theorem Machine.State.setAsid_spec {s : State} {n : Nat} {x : Context} (hx : s.contexts.get n = some x) (a : Nat) :
    (s.setAsid n a).contexts.get n = some { x with asid := some a } ∧ (∀ k, k ≠ n → (s.setAsid n a).contexts.get k = s.contexts.get k) ∧
      (∀ d, ((s.setAsid n a).die d).keys = (s.die d).keys) ∧ (s.setAsid n a).handles = s.handles ∧ (s.setAsid n a).cores = s.cores := by
  obtain ⟨r, hr⟩ : ∃ r, r = ([0, 1, 2, 3] : List Nat).foldl (fun s d => s.setRoot a x.root d) s := ⟨_, rfl⟩
  have hset : s.setAsid n a = r.modContext n (fun x => { x with asid := some a }) := by
    unfold State.setAsid
    rw [hx, hr]
  have hroots : Repaged s r := hr ▸ Repaged.foldl (fun s d => Repaged.setRoot s a x.root d) _ s
  have hcores : r.cores = s.cores := by
    rw [hr]
    exact List.foldlRecOn (motive := fun t : State => t.cores = s.cores) _ _ rfl fun t ht d _ => (t.cores_setRoot a x.root d).trans ht
  have hcontexts : (s.setAsid n a).contexts = s.contexts.upd n (fun x => { x with asid := some a }) := by
    rw [hset]
    exact congrArg (fun t : Tab Context => t.upd n (fun x => { x with asid := some a })) hroots.contexts
  refine ⟨?_, fun k hk => ?_, fun d => ?_, ?_, ?_⟩
  · rw [hcontexts, Tab.get_upd_self, hx]
    rfl
  · rw [hcontexts, Tab.get_upd_ne _ _ (Ne.symm hk)]
  · rw [hset]
    exact hroots.keys d
  · rw [hset]
    exact hroots.handles
  · rw [hset]
    exact hcores

/-! ### Creation (R165, R167) -/

/-- The contexts that hold an ASID. -/
def Machine.State.holders (s : State) (asid : Nat) : List Nat := (s.contexts.filter (fun x => x.2.asid == some asid)).map Prod.fst

theorem Machine.State.mem_holders {s : State} {asid k : Nat} {y : Context} (hy : s.contexts.get k = some y) (ha : y.asid = some asid) : k ∈ s.holders asid :=
  List.mem_map.2 ⟨(k, y), List.mem_filter.2 ⟨Tab.mem_of_get _ _ _ hy, by simp [ha]⟩, rfl⟩

/-- The new context, before it holds its ASID. -/
def NewContext.record (c : NewContext) : Context :=
  { asid := none, state := .created, cause := 0, root := c.root, die := c.die, tvec := BitVec.ofNat 64 (c.tvec.toNat &&& tvecMask), areas := [] }

/-- The state in which a new context is about to receive its ASID. -/
def Machine.State.enrol (s : State) (c : NewContext) : State :=
  let s := s.modDie c.die (fun d => { d with keys := d.keys.set c.handle (Config.contextKey s.fresh) })
  { s with contexts := s.contexts.set c.handle c.record, handles := s.handles ++ [c.handle], fresh := s.fresh + 1 }

section

variable {s : State} {c : NewContext} (hnew : s.handles.contains c.handle = false) (hhandle : c.handle < 2 ^ 64) (hpos : 0 < c.asid) (hasid : c.asid < 1024) (hdie : c.die < 4)
  (hpower : s.power = .running) (hself : (s.die c.die).fenceSelf = false) (hspare : ∀ x ∈ s.contexts, x.2.asid = some c.asid → s.sparesAsid x.1 = true)

include hnew hhandle hpos hasid hdie hpower hself hspare

theorem contextCreate_exec : Machine.exec (.contextCreate c) s =
    .next ((((s.holders c.asid).foldl (fun s h => s.takeAsid h) s).enrol c).setAsid c.handle c.asid) := by
  have hspared : (s.holders c.asid).all s.sparesAsid = true := by
    rw [List.all_eq_true]
    intro h hh
    obtain ⟨x, hx, rfl⟩ := List.mem_map.1 hh
    obtain ⟨hmem, ha⟩ := List.mem_filter.1 hx
    exact hspare x hmem (beq_iff_eq.1 ha)
  refine congrArg Host.Outcome.next (if_neg ?_)
  have hspared' : (List.map Prod.fst (List.filter (fun x => x.2.asid == some c.asid) s.contexts)).all s.sparesAsid = true := hspared
  have h1 : ¬2 ^ 64 ≤ c.handle := by omega
  have h2 : c.asid ≠ 0 := by omega
  have h3 : ¬1024 ≤ c.asid := by omega
  have h4 : ¬4 ≤ c.die := by omega
  rw [hnew, hpower, hself, hspared', decide_eq_false h1, decide_eq_false h3, decide_eq_false h4, beq_eq_false_iff_ne.2 h2]
  exact nofun

theorem contextCreate_creates :
    ∃ t x, Machine.exec (.contextCreate c) s = .next t ∧ t.contexts.get c.handle = some x ∧ x.asid = some c.asid ∧ x.state = .created ∧ x.root = c.root ∧ x.die = c.die ∧
      x.tvec = BitVec.ofNat 64 (c.tvec.toNat &&& tvecMask) ∧ (t.die c.die).keys.get c.handle = some (Config.contextKey s.fresh) ∧ x.areas = [] ∧ t.handles = s.handles ++ [c.handle] ∧
      (∀ k y, k ≠ c.handle → t.contexts.get k = some y → y.asid ≠ some c.asid) ∧
      ((∀ y ∈ s.contexts, y.2.asid ≠ some c.asid) → t.cores = s.cores ∧ ∀ k, k ≠ c.handle → t.contexts.get k = s.contexts.get k) := by
  have hexec := contextCreate_exec hnew hhandle hpos hasid hdie hpower hself hspare
  have htaken := foldl_takeAsid_contexts (s.holders c.asid) s
  obtain ⟨hhandles, hfresh⟩ := foldl_takeAsid_keeps (s.holders c.asid) s
  have hnone : (∀ y ∈ s.contexts, y.2.asid ≠ some c.asid) → (s.holders c.asid).foldl (fun s h => s.takeAsid h) s = s := fun h => by
    have hempty : s.holders c.asid = [] := by
      unfold State.holders
      rw [List.filter_eq_nil_iff.2 fun y hy => by simp [h y hy], List.map_nil]
    rw [hempty, List.foldl_nil]
  generalize (s.holders c.asid).foldl (fun s h => s.takeAsid h) s = r at hexec htaken hhandles hfresh hnone
  obtain ⟨hown, hother, hkeys, hlist, hcores⟩ := State.setAsid_spec (s := r.enrol c) (Tab.get_set_self r.contexts c.handle c.record) c.asid
  have hrest (k : Nat) (hk : k ≠ c.handle) : ((r.enrol c).setAsid c.handle c.asid).contexts.get k = r.contexts.get k :=
    (hother k hk).trans (Tab.get_set_ne _ _ (Ne.symm hk))
  refine ⟨_, _, hexec, hown, rfl, rfl, rfl, rfl, rfl, ?_, rfl, ?_, fun k y hk hy => ?_, fun h => ⟨?_, fun k hk => ?_⟩⟩
  · rw [hkeys]
    have hdies : (r.enrol c).die c.die = { r.die c.die with keys := (r.die c.die).keys.set c.handle (Config.contextKey r.fresh) } :=
      r.die_modDie_self c.die (fun d => { d with keys := d.keys.set c.handle (Config.contextKey r.fresh) })
    rw [hdies, hfresh]
    exact Tab.get_set_self ..
  · rw [hlist]
    exact congrArg (· ++ [c.handle]) hhandles
  · rw [hrest k hk, htaken] at hy
    split at hy
    · obtain ⟨z, -, rfl⟩ := Option.map_eq_some_iff.1 hy
      exact nofun
    · next hnot => exact fun ha => hnot (State.mem_holders hy ha)
  · rw [hcores, ← congrArg State.cores (hnone h)]
    rfl
  · rw [hrest k hk, hnone h]

end

/-! ### Teardown (R167, R181) -/

theorem foldl_freeQueue_gone {e : Nat × Queue} (es : List (Nat × Queue)) (s : State) (h : e ∈ es) : (es.foldl (fun s e => s.freeQueue e.1) s).queues.get e.1 = none := by
  induction es generalizing s with
  | nil => cases h
  | cons a es ih =>
    rw [List.foldl_cons]
    rcases List.mem_cons.1 h with rfl | hes
    · have hgone : (s.freeQueue e.1).queues.get e.1 = none := Tab.get_del_self ..
      have hlast : Lasting (s.freeQueue e.1) (es.foldl (fun s e => s.freeQueue e.1) (s.freeQueue e.1)) := (Lasting.refl _).foldl _ fun _ _ ht => ht.freeQueue _
      rw [Option.eq_none_iff_forall_ne_some]
      intro q hq
      obtain ⟨p, hp, -⟩ := hlast.queues _ _ hq
      cases hgone.symm.trans hp
    · exact ih _ hes

/-- No queue of a context is left once each has been freed (R181). -/
theorem freeQueues_spec (s : State) (n : Nat) : ∀ k q, ((s.queues.filter (fun e => e.2.context == n)).foldl (fun s e => s.freeQueue e.1) s).queues.get k = some q → q.context ≠ n := by
  intro k q hq hctx
  have hlast : Lasting s ((s.queues.filter (fun e => e.2.context == n)).foldl (fun s e => s.freeQueue e.1) s) := (Lasting.refl s).foldl _ fun _ _ ht => ht.freeQueue _
  obtain ⟨p, hp, hpq⟩ := hlast.queues k q hq
  have hmem : (k, p) ∈ s.queues.filter (fun e => e.2.context == n) := List.mem_filter.2 ⟨Tab.mem_of_get _ _ _ hp, by simp [hpq, hctx]⟩
  cases (foldl_freeQueue_gone _ s hmem).symm.trans hq

/-- A die that has forgotten a context: its keys and the requests of its waves. -/
def Machine.Die.forgetContext (q : Die) (n : Nat) : Die :=
  { q with keys := q.keys.del n, requests := q.requests.keep (fun _ r => requestContext r != some n) }

theorem Machine.State.forgetContext_spec (s : State) (n : Nat) : (∀ e ∈ (s.forgetContext n).codes, e.2.context ≠ n) ∧ (∀ d, ((s.forgetContext n).die d).keys.get n = none) ∧
    ∀ e ∈ (s.forgetContext n).wrapped, e.2.get n = none := by
  refine ⟨fun e he => ?_, fun d => ?_, fun e he => ?_⟩
  · simpa using (List.mem_filter.1 he).2
  · have hdie : (s.forgetContext n).dies.get d = (s.dies.get d).map (fun q => q.forgetContext n) := Tab.get_mapVal s.dies (fun _ q => q.forgetContext n) d
    unfold State.die Tab.getD
    rw [hdie]
    cases s.dies.get d with
    | none => rfl
    | some q => exact Tab.get_del_self ..
  · obtain ⟨a, -, rfl⟩ := List.mem_map.1 he
    exact Tab.get_del_self ..

theorem contextTeardown_tears {s : State} {n : Nat} {x : Context} (hx : s.contexts.get n = some x) (halive : x.state ≠ .dead) :
    ∃ t y, Machine.exec (.contextTeardown n) s = .next t ∧ t.contexts.get n = some y ∧ y.state = .dead ∧ y.asid = none ∧ y.areas = [] ∧
      (∀ k q, t.queues.get k = some q → q.context ≠ n) ∧ (∀ e ∈ t.codes, e.2.context ≠ n) ∧ (∀ d, (t.die d).keys.get n = none) ∧ ∀ e ∈ t.wrapped, e.2.get n = none := by
  have hexec : Machine.exec (.contextTeardown n) s = execContextTeardown n s := rfl
  unfold execContextTeardown at hexec
  rw [hx] at hexec
  dsimp -zeta only at hexec
  rw [if_neg halive] at hexec
  extract_lets s1 s2 s3 s4 s5 s6 at hexec
  have hdead : s1.DeadContext n := ⟨_, (Tab.get_upd_self _ n _).trans (congrArg (Option.map _) hx), rfl⟩
  have h2 : Lasting s1 s2 := (Lasting.refl s1).foldl _ fun _ _ ht => ht.freeQueue _
  have h6 : Lasting s2 s6 := by
    have h3 : Lasting s2 s3 := (Lasting.refl s2).foldl _ fun _ _ ht => ht.tearLaunch _
    have h5 : Lasting s2 s5 := (h3.dropContext n).foldl _ fun _ _ ht => ht.stopChain ..
    exact h5.elim _ fun a => h5.repaged (.dropAsid _ a)
  obtain ⟨y, hy, hstate⟩ := (h2.trans h6).dead n hdead
  obtain ⟨hcodes, hkeys, hwrapped⟩ := (s6.modContext n (fun c => { c with asid := none, areas := [] })).forgetContext_spec n
  refine ⟨_, { y with asid := none, areas := [] }, hexec, ?_, hstate, rfl, rfl, fun k q hq hctx => ?_, hcodes, hkeys, hwrapped⟩
  · exact (Tab.get_upd_self _ n _).trans (congrArg (Option.map _) hy)
  · obtain ⟨p, hp, hpq⟩ := h6.queues k q hq
    exact freeQueues_spec s1 n k p hp (hpq.trans hctx)

/-! ### Snapshots and replays (R193, R194, R474) -/

theorem snapshotCopy_serves {s : State} {n p asid : Nat} {l : Launch} {x : Context} (hl : s.launches.get n = some l) (hx : s.contexts.get l.context = some x)
    (ha : x.asid = some asid) (hpiece : l.protectedPieces.contains p = true) (hwaits : ∃ d ∈ s.dies, ∃ e ∈ d.2.requests, ∃ y, snapAt l.context e.2 = some y ∧ y.2 / 65536 = p) :
    Machine.exec (.snapshotCopy n p) s = .next (s.serveWriters x.die l.context asid (p * 65536)) := by
  obtain ⟨d, hd, e, he, y, hy, hp⟩ := hwaits
  have hany : s.dies.any (fun d => d.2.requests.any (fun e => (snapAt l.context e.2).any (fun x => x.2 / 65536 == p) || (match e.2 with
      | .engine _ (some x) _ a 7 => x == l.context && a / 65536 == p
      | _ => false))) = true := by
    rw [List.any_eq_true]
    refine ⟨d, hd, List.any_eq_true.2 ⟨e, he, ?_⟩⟩
    rw [hy, Option.any_some, beq_iff_eq.2 hp, Bool.true_or]
  show execSnapshotCopy n p s = _
  unfold execSnapshotCopy
  simp only [hl, hx, ha, Option.bind_some, Option.map_some, hpiece, Bool.true_and]
  exact congrArg Host.Outcome.next (if_pos hany)

section

variable {s : State} {n asid : Nat} {l : Launch} {x : Context} (hl : s.launches.get n = some l) (hstate : l.state = .replaying) (hx : s.contexts.get l.context = some x)
  (ha : x.asid = some asid)

include hl hstate hx ha

theorem replayRestoreDone_runs {t : State} (hread : l.snapshots = [] ∨ Config.snapshotReadable s.fresh = true) (ht : s.restoreSnapshots n l x.die asid = some t) :
    Machine.exec (.replayRestoreDone n) s = .next (State.modLaunch { t with fresh := s.fresh + 1 } n (fun l => { l with state := .running })) := by
  have hgot : (if (decide (l.snapshots = []) || Config.snapshotReadable s.fresh) = true then s.restoreSnapshots n l x.die asid else none) = some t :=
    (if_pos (by simpa using hread)).trans ht
  show execReplayRestoreDone n s = _
  unfold execReplayRestoreDone
  simp only [hl, hstate, hx, ha, hgot, ne_eq, not_true, if_false, Option.bind_some, Option.map_some]

theorem replayRestoreDone_fails (h : (l.snapshots ≠ [] ∧ Config.snapshotReadable s.fresh = false) ∨ s.restoreSnapshots n l x.die asid = none) :
    Machine.exec (.replayRestoreDone n) s = .next (State.failLaunch { s with fresh := s.fresh + 1 } n 0x21) := by
  have hgot : (if (decide (l.snapshots = []) || Config.snapshotReadable s.fresh) = true then s.restoreSnapshots n l x.die asid else none) = none := by
    rcases h with ⟨hkept, hlost⟩ | hnone
    · rw [if_neg (by simp [hkept, hlost])]
    · rw [hnone, ite_self]
  show execReplayRestoreDone n s = _
  unfold execReplayRestoreDone
  simp only [hl, hstate, hx, ha, hgot, ne_eq, not_true, if_false, Option.bind_some, Option.map_some]

end

/-! ### Faults (R226, R302, R472) -/

theorem stewardFaultDispatch_fault {s : State} {d k : Nat} {f : Flow} {ctx : Option Nat} {r : TrapRegs} {nested : Bool} (hreq : (s.die d).requests.get k = some (.fault f ctx r nested))
    (hfrozen : (s.die d).frozen = false) (choice : FaultChoice) : Machine.exec (.stewardFaultDispatch d k choice) s =
      .next ((s.modDie d (fun q => { q with requests := q.requests.del k })).dispatchFault d f ctx r nested choice) := by
  show execStewardFaultDispatch d k choice s = _
  unfold execStewardFaultDispatch
  simp only [hfrozen, hreq, Bool.false_eq_true, if_false]

theorem stewardFaultDispatch_engine {s : State} {d k : Nat} {job : Stalled} {ctx : Option Nat} {asid va sub : Nat}
    (hreq : (s.die d).requests.get k = some (.engine job ctx asid va sub)) (hfrozen : (s.die d).frozen = false) (choice : FaultChoice) :
    Machine.exec (.stewardFaultDispatch d k choice) s =
      .next ((s.modDie d (fun q => { q with requests := q.requests.del k })).dispatchEngine d job ctx asid va sub choice) := by
  show execStewardFaultDispatch d k choice s = _
  unfold execStewardFaultDispatch
  simp only [hfrozen, hreq, Bool.false_eq_true, if_false]

/-- A page fault whose page the firmware has brought lets its wave go on (R226). -/
theorem Machine.State.dispatchFault_served {s : State} {c j x : Nat} {w : Wave} {r : TrapRegs} (hctx : (s.core c).context = some x) (hswap : (s.core c).swapping = false)
    (hw : s.flow? (.wave c j) = some w) (hpark : w.park = some .steward) (hcode : r.code = 0x06) (hsub : r.sub < 6) (d : Nat) (nested : Bool) :
    s.dispatchFault d (.wave c j) (some x) r nested .serve = s.setFlow (.wave c j) { w with park := none } := by
  have hhere : (s.core c).context = some x ∧ (!(s.core c).swapping) = true := ⟨hctx, by rw [hswap]; rfl⟩
  have himage : s.imageWave (.wave c j) (some x) = some w := (if_pos hhere).trans hw
  have hesc (en : Bool) : r.escalates nested en = false := by
    have h6 : r.sub ≠ 6 := by omega
    have h8 : r.sub ≠ 8 := by omega
    unfold TrapRegs.escalates
    simp [hcode, h6, h8]
  have hgo : s.letGo (.wave c j) (some x) = s.setFlow (.wave c j) { w with park := none } := by
    refine (if_pos hhere).trans ?_
    rw [State.modFlow_of_flow hw, if_pos hpark]
  have h7 : r.sub ≠ 7 := by omega
  unfold State.dispatchFault
  rw [himage]
  simp only [hesc, hcode, h7, hgo, Bool.false_eq_true, if_false, and_false, and_self, if_true]

theorem stewardFaultDispatch_serves {s : State} {d k c j x : Nat} {w : Wave} {r : TrapRegs} {nested : Bool}
    (hreq : (s.die d).requests.get k = some (.fault (.wave c j) (some x) r nested)) (hfrozen : (s.die d).frozen = false) (hctx : (s.core c).context = some x)
    (hswap : (s.core c).swapping = false) (hw : s.flow? (.wave c j) = some w) (hpark : w.park = some .steward) (hcode : r.code = 0x06) (hsub : r.sub < 6) :
    ∃ t, Machine.exec (.stewardFaultDispatch d k .serve) s = .next t ∧ t.flow? (.wave c j) = some { w with park := none } ∧ (t.die d).requests.get k = none := by
  refine ⟨_, stewardFaultDispatch_fault hreq hfrozen .serve, ?_⟩
  rw [State.dispatchFault_served (s := s.modDie d _) hctx hswap hw hpark hcode hsub]
  refine ⟨State.flow?_setFlow_self .., ?_⟩
  have hdie : ((s.modDie d (fun q => { q with requests := q.requests.del k })).setFlow (.wave c j) { w with park := none }).die d =
      { s.die d with requests := (s.die d).requests.del k } := s.die_modDie_self d (fun q => { q with requests := q.requests.del k })
  rw [hdie]
  exact Tab.get_del_self ..

/-! ### Walks (R224, R227) -/

theorem Machine.State.byte_touchLeaf_ne (s : State) (entry pte : Nat) (write : Bool) {a : Nat} (ha : a < entry ∨ entry + 8 ≤ a) : (s.touchLeaf entry pte write).1.byte a = s.byte a := by
  unfold State.touchLeaf
  generalize (pte ||| 0x40 ||| if write then 0x80 else 0) = v
  dsimp only
  split
  · rfl
  · exact s.byte_poke_ne false none (by rwa [length_bytesOfNat])

/-- A walk that ends at a leaf which does not refuse fills the TLB with the leaf, its accessed and dirty bits set, and writes no byte beside the leaf's entry. -/
theorem Machine.State.walkFill_leaf {s : State} {die asid va entry base size pa pte : Nat} {use : Use} {steward : Bool} (hwalk : s.walk die asid va = .leaf entry base size pa pte)
    (hok : leafRefuses pte use steward = none) : let t := (s.walkFill die asid va use steward).1
    (t.die die).tlb.head? = some { asid, va := base, size, pa, pte := pte ||| 0x40 ||| if use == .write then 0x80 else 0 } ∧ ∀ a, a < entry ∨ entry + 8 ≤ a → t.byte a = s.byte a := by
  intro t
  have ht : t = (s.walkFill die asid va use steward).1 := rfl
  unfold State.walkFill at ht
  simp only [hwalk, hok] at ht
  obtain ⟨u, hu⟩ : ∃ u, u = (((s.walkEntries die asid va).foldl (fun s a => s.countGranule a 8 false) s).pinLeaf pa size pte) := ⟨_, rfl⟩
  have hmem : u.mem = s.mem := by
    rw [hu, State.mem_pinLeaf]
    exact List.foldlRecOn (motive := fun t : State => t.mem = s.mem) _ _ rfl fun t ht a _ => (t.mem_countGranule a 8 false).trans ht
  rw [← hu] at ht
  rw [ht]
  refine ⟨?_, fun a ha => ?_⟩
  · rw [State.die_modDie_self]
    rfl
  · show (u.touchLeaf entry pte (use == .write)).1.byte a = s.byte a
    have hbyte : u.byte a = s.byte a := by rw [State.byte, hmem]; rfl
    exact (u.byte_touchLeaf_ne entry pte _ ha).trans hbyte

theorem pageWalkComplete_fills {s : State} {d asid va entry base size pa pte : Nat} {wr : Bool} (hva : va < 2 ^ 48) (hwalk : s.walk d asid va = .leaf entry base size pa pte)
    (hok : leafRefuses pte (if wr then .write else .read) (asid == 0) = none) :
    ∃ t tl, Machine.exec (.pageWalkComplete d asid va wr) s = .next t ∧ (t.die d).tlb.head? = some tl ∧ tl.asid = asid ∧ tl.va = base ∧ tl.size = size ∧ tl.pa = pa ∧
      tl.pte = (pte ||| 0x40 ||| if wr then 0x80 else 0) ∧ (∀ a, a < entry ∨ entry + 8 ≤ a → t.byte a = s.byte a) ∧ ∀ f x l, varAt t f x l = varAt s f x l := by
  have hwrite : ((if wr then Use.write else .read) == .write) = wr := by cases wr <;> rfl
  obtain ⟨htlb, hbytes⟩ := State.walkFill_leaf hwalk hok
  rw [hwrite] at htlb
  exact ⟨_, _, congrArg Host.Outcome.next (if_neg (by omega)), htlb, rfl, rfl, rfl, rfl, rfl, hbytes, (SameFlows.walkFill ..).varAt⟩

end Sys2Proof
end

