-- ==== Sys2Proof/Proofs/ContextEvents.lean ====
section
/-! Proof of O58: contexts, faults, walks, tiers and scrubbing. -/

namespace Sys2Proof

open Sys2Proof.Machine

/-- Settles O58, event by event. -/
theorem contextEvents : Obligations.ContextEvents := by
  unfold Obligations.ContextEvents
  refine ⟨?create, ?teardown, ?snapshot, ?fault, ?engine, ?replay, ?walk, ?epoch, ?start, ?complete, ?scrub⟩
  case create => exact fun s c => contextCreate_creates
  case teardown => exact fun s n x => contextTeardown_tears
  case snapshot => exact fun s n p l x asid => snapshotCopy_serves
  case fault =>
    intro s d k f ctx r nested choice hreq hfrozen
    refine ⟨stewardFaultDispatch_fault hreq hfrozen choice, fun c j x w hf hctx hcore hswap hw hpark hcode hsub hchoice => ?_⟩
    subst hf hctx hchoice
    exact stewardFaultDispatch_serves hreq hfrozen hcore hswap hw hpark hcode hsub
  case engine => exact fun s d k job ctx asid va sub choice hreq hfrozen => stewardFaultDispatch_engine hreq hfrozen choice
  case replay =>
    intro s n l x asid hl hstate hx ha
    exact ⟨fun t => replayRestoreDone_runs hl hstate hx ha, replayRestoreDone_fails hl hstate hx ha⟩
  case walk => exact fun s d asid va wr entry base size pa pte => pageWalkComplete_fills
  case epoch => exact fun s d => tierEpoch_halves
  case start => exact fun s d n hn => ⟨granuleMoveStart_out hn, fun f => granuleMoveStart_in hn, fun v => granuleMoveStart_victim hn⟩
  case complete =>
    intro s d n _ hmig
    exact ⟨by simpa only [ErrLog.Holds, and_assoc] using granuleMoveComplete_finds hmig, granuleMoveComplete_moves hmig⟩
  case scrub =>
    intro s d a addr
    refine ⟨fun ha => ?_, scrubbing_fences s addr, fun c k i j hat hk => ?_⟩
    · simpa only [ErrLog.Holds, and_assoc] using scrubbing_die s addr ha
    · simpa only [ErrLog.Holds, and_assoc] using scrubbing_core s addr hat hk

end Sys2Proof
end

