-- ==== Sys2Proof/Proofs/Turns.lean ====
section
/-! Lemmas and proof of O4: whose turn a step is, and what takes place at it (R17, R76, R169, R205). -/

namespace Sys2Proof

open Sys2Proof.Machine

/-! ### The note of ready packets (R186) -/

/-- The note of the packets that have become ready changes the queues and the count of passes alone. -/
theorem Machine.State.noteReady_rest (s : State) : { s.noteReady with passes := s.passes, queues := s.queues } = s := by
  unfold State.noteReady
  split <;> rfl

@[simp] theorem Machine.State.agenda_noteReady (s : State) : s.noteReady.agenda = s.agenda := (congrArg State.agenda s.noteReady_rest :)

@[simp] theorem Machine.State.cur_noteReady (s : State) : s.noteReady.cur = s.cur := (congrArg State.cur s.noteReady_rest :)

@[simp] theorem Machine.State.dstep_noteReady (s : State) : s.noteReady.dstep = s.dstep := (congrArg State.dstep s.noteReady_rest :)

/-! ### The wave that a scheduler picks may issue (R205) -/

theorem Machine.State.mem_of_leastRecent {s : State} {c k : Nat} {ks : List Nat} (h : s.leastRecent c ks = some k) : k ∈ ks := by
  unfold State.leastRecent at h
  dsimp only at h
  split at h
  · next heq =>
    cases h
    exact List.mem_of_mem_filter (List.mem_of_find?_eq_some heq)
  · exact List.mem_of_head? h

theorem Machine.State.canIssue_of_pick {s : State} {c sch k : Nat} (h : s.pick c sch = some k) : s.canIssue c k = true := by
  unfold State.pick at h
  dsimp only at h
  split at h
  · split at h
    · next hkeeps =>
      cases h
      exact (Bool.and_eq_true_iff.1 hkeeps).2
    · exact (List.mem_filter.1 (State.mem_of_leastRecent h)).2
  · cases h

/-- A wave with no fault due that can issue is not parked. -/
theorem Machine.State.issuable_of_pick {s : State} {c sch k : Nat} {w : Wave} (h : s.pick c sch = some k) (hw : s.flow? (.wave c k) = some w)
    (hdue : w.dueImprecise = none) : s.issuable (.wave c k) = true := by
  obtain ⟨hruns, hready⟩ := Bool.and_eq_true_iff.1 (State.canIssue_of_pick h)
  have hget : (s.core c).waves.get k = some w := hw
  unfold State.waveReady at hready
  simp only [hget, hdue, Option.isSome_none, Bool.false_or, Bool.and_eq_true] at hready
  obtain ⟨-, ⟨hgoes, -⟩, -⟩ := hready
  unfold State.issuable
  rw [hruns, hw, Option.any_some, hgoes, Bool.and_self]

/-! ### A flow's turn -/

section Issue

variable {s : State} {f : Flow} {w : Wave} (hw : s.flow? f = some w) (hdue : w.dueImprecise = none) (hgo : s.issuable f = true)

include hw hdue hgo

/-- A flow issues the next instruction of its clause, whatever flow was the current one. -/
theorem Machine.State.issueFlow_decoded {x : Clause} {i : Instr} {rest : List Word} (hc : w.clause = some x) (hi : decodeWords (x.words.drop (x.pos - 1)) = .ok (i, rest)) :
    s.issueFlow f = .run i ((State.issued { s with cur := f } f).tagIssue f) :=
  State.issueFlow_next (s := { s with cur := f }) hw rfl hdue hgo hc (congrArg (Except.map Prod.fst) hi)

/-- Words that decode to nothing take their trap (R83, R293). -/
theorem Machine.State.issueFlow_illegal {x : Clause} {d : DecodeError} (hc : w.clause = some x) (hd : decodeWords (x.words.drop (x.pos - 1)) = .error d) :
    s.issueFlow f = .done ((State.issued { s with cur := f } f).illegalWord x) := by
  have hflow : ({ s with cur := f } : State).flow? f = some w := hw
  have hissuable : ({ s with cur := f } : State).issuable f = true := hgo
  have hnext : x.next = .error d := congrArg (Except.map Prod.fst) hd
  unfold State.issueFlow
  simp only [hflow, hdue, hissuable, hc, hnext, Option.isSome_none, Bool.and_false, Bool.false_and, Bool.not_true, Bool.false_eq_true, if_false]

/-- A flow with no clause in progress starts one, unless a halt stops it there (R17, R454). -/
theorem Machine.State.issueFlow_start (hc : w.clause = none) (hstop : w.stopping = false) :
    s.issueFlow f = .run (.clauseStart f) (State.issued { s with cur := f } f) := by
  have hflow : ({ s with cur := f } : State).flow? f = some w := hw
  have hissuable : ({ s with cur := f } : State).issuable f = true := hgo
  unfold State.issueFlow
  simp only [hflow, hdue, hissuable, hc, hstop, Option.isSome_none, Bool.and_false, Bool.false_and, Bool.not_true, Bool.false_eq_true, if_false]

end Issue

@[simp] theorem Machine.State.dstep_issued (s : State) (f : Flow) : (s.issued f).dstep = s.dstep := by
  cases f with
  | wave c k => exact State.dstep_modFlow ..
  | steward d k => rfl

@[simp] theorem Machine.State.cur_issued (s : State) (f : Flow) : (s.issued f).cur = s.cur := by
  cases f with
  | wave c k => exact State.cur_modFlow ..
  | steward d k => rfl

/-- Without a `dstep` the trap of words that decode to nothing is the current flow's. -/
theorem Machine.State.illegalWord_trap {s : State} (h : s.dstep = none) (x : Clause) : s.illegalWord x = s.takeTrap s.cur (Trap.illegal.regs x.addr x.pos x.run) := by
  unfold State.illegalWord
  rw [h]

theorem Machine.State.schedule_pick {s : State} {c sch k : Nat} (hchore : s.chore c sch = none) (hpick : s.pick c sch = some k) :
    s.schedule c sch = some (s.issueFlow (.wave c k)) := by
  unfold State.schedule
  rw [hchore, hpick]
  rfl

theorem Machine.State.schedule_none {s : State} {c sch : Nat} (hchore : s.chore c sch = none) (hpick : s.pick c sch = none) : s.schedule c sch = none := by
  unfold State.schedule
  rw [hchore, hpick]
  rfl

/-! ### Whose turn a step is -/

section Choose

variable {s : State}

/-- With an empty tape the current flow's core acts. -/
theorem Machine.State.choose_alone (h : s.agenda = []) : s.choose = s.noteReady.alone := by
  unfold State.choose
  dsimp only
  rw [s.agenda_noteReady, h]

/-- A flow or a clause start on the tape is that flow's turn. -/
theorem Machine.State.choose_turn {f : Flow} {rest : List Act} (h : s.agenda = .flow f :: rest ∨ s.agenda = .event (.clauseStart f) :: rest) :
    s.choose = State.turn { s.noteReady with agenda := rest } f := by
  unfold State.choose
  dsimp only
  rw [s.agenda_noteReady]
  rcases h with h | h <;> rw [h]

/-- Any other event on the tape takes place, and an instruction word there is dropped. -/
theorem Machine.State.choose_event {i : Instr} {rest : List Act} (h : s.agenda = .event i :: rest) (hi : ∀ f, i ≠ .clauseStart f) :
    s.choose = if i.spec.isSome then .done { s.noteReady with agenda := rest } else .run i { s.noteReady with agenda := rest } := by
  unfold State.choose
  dsimp only
  rw [s.agenda_noteReady, h]
  split
  · next heq =>
    cases heq
    exact absurd rfl (hi _)
  · next heq => cases heq
  · next heq =>
    cases heq
    rfl
  · next heq => cases heq

end Choose

section Turn

variable {s t : State}

theorem Machine.State.turn_wave {c j : Nat} {x : Choice} (h : s.dstep = none) (hx : s.schedule c (schedulerOf j) = some x) : s.turn (.wave c j) = x := by
  unfold State.turn
  simp only [h, hx, Option.getD_some]

theorem Machine.State.turn_steward {d k : Nat} (h : s.dstep = none) : s.turn (.steward d k) = s.issueFlow (.steward d k) := by
  unfold State.turn
  simp only [h]

theorem Machine.State.alone_wave {c j : Nat} (h : s.dstep = none) (hcur : s.cur = .wave c j) : s.alone = (s.schedule c (schedulerOf j)).getD (s.ownStep (.wave c j)) := by
  unfold State.alone
  simp only [h, hcur]

theorem Machine.State.alone_steward {d k : Nat} (h : s.dstep = none) (hcur : s.cur = .steward d k) :
    s.alone = if s.issuable (.steward d k) && !((s.ownEvent (.steward d k)).isSome && s.waits (.steward d k)) then s.issueFlow (.steward d k) else s.ownStep (.steward d k) := by
  unfold State.alone
  simp only [h, hcur]

/-- What a wave's scheduler does at its turn is what the step does. -/
theorem choose_of_turnOf_wave {c j : Nat} {x : Choice} (h : TurnOf s t (.wave c j)) (hx : t.schedule c (schedulerOf j) = some x) : s.choose = x := by
  obtain ⟨hd, ⟨hempty, hcur, rfl⟩ | ⟨rest, htape, rfl⟩⟩ := h
  · rw [State.choose_alone hempty, State.alone_wave (s.dstep_noteReady.trans hd) (s.cur_noteReady.trans hcur), hx, Option.getD_some]
  · rw [State.choose_turn htape]
    exact State.turn_wave (s.dstep_noteReady.trans hd) hx

/-- A steward flow that may issue and does not wait issues at its turn. -/
theorem choose_of_turnOf_steward {d k : Nat} (h : TurnOf s t (.steward d k)) (hgo : t.issuable (.steward d k) = true) (hwaits : t.waits (.steward d k) = false) :
    s.choose = t.issueFlow (.steward d k) := by
  obtain ⟨hd, ⟨hempty, hcur, rfl⟩ | ⟨rest, htape, rfl⟩⟩ := h
  · rw [State.choose_alone hempty, State.alone_steward (s.dstep_noteReady.trans hd) (s.cur_noteReady.trans hcur), hgo, hwaits, Bool.and_false, Bool.not_false, Bool.and_self,
      if_pos rfl]
  · rw [State.choose_turn htape]
    exact State.turn_steward (s.dstep_noteReady.trans hd)

/-- The state of a turn has no `dstep` in progress. -/
theorem dstep_of_turnOf {f : Flow} (h : TurnOf s t f) : t.dstep = none := by
  obtain ⟨hd, ⟨-, -, rfl⟩ | ⟨rest, -, rfl⟩⟩ := h
  · exact s.dstep_noteReady.trans hd
  · exact s.dstep_noteReady.trans hd

theorem step_run {i : Instr} (h : s.choose = .run i t) : step s = Machine.exec i t := by
  unfold Machine.step
  rw [h]

theorem step_done (h : s.choose = .done t) : step s = .next t := by
  unfold Machine.step
  rw [h]

end Turn

/-! ### What takes place when nothing issues (R169, R255, R393) -/

section Own

variable {s s' : State} (hnote : s' = s.noteReady) (hempty : s.agenda = []) (hd : s.dstep = none)

include hnote hempty hd

/-- A core whose scheduler issues nothing does what it does of itself. -/
theorem choose_ownStep_wave {c j : Nat} (hcur : s.cur = .wave c j) (hchore : s'.chore c (schedulerOf j) = none) (hpick : s'.pick c (schedulerOf j) = none) :
    s.choose = s'.ownStep (.wave c j) := by
  subst hnote
  rw [State.choose_alone hempty, State.alone_wave (s.dstep_noteReady.trans hd) (s.cur_noteReady.trans hcur), State.schedule_none hchore hpick, Option.getD_none]

/-- A steward flow that may not issue, or waits, does what it does of itself. -/
theorem choose_ownEvent_steward {d k : Nat} {i : Instr} (hcur : s.cur = .steward d k) (hi : s'.ownEvent (.steward d k) = some i)
    (hheld : s'.issuable (.steward d k) = false ∨ s'.waits (.steward d k) = true) : s.choose = .run i s' := by
  subst hnote
  have hguard : (s.noteReady.issuable (.steward d k) && !((s.noteReady.ownEvent (.steward d k)).isSome && s.noteReady.waits (.steward d k))) = false := by
    rw [hi]
    rcases hheld with hheld | hheld <;> simp [hheld]
  rw [State.choose_alone hempty, State.alone_steward (s.dstep_noteReady.trans hd) (s.cur_noteReady.trans hcur), hguard, if_neg Bool.false_ne_true]
  unfold State.ownStep
  rw [hi]

end Own

/-- A swap that is due comes before what else the core does of itself (R169). -/
theorem Machine.State.ownStep_swap {s : State} {c j : Nat} (h : s.swapReady c = true) : s.ownStep (.wave c j) = .done (s.swap c) := by
  unfold State.ownStep
  exact if_pos h

theorem Machine.State.ownStep_event {s : State} {c j : Nat} {i : Instr} (h : s.swapReady c = false) (hi : s.ownEvent (.wave c j) = some i) :
    s.ownStep (.wave c j) = .run i s := by
  unfold State.ownStep
  simp only [h, hi, Bool.false_eq_true, if_false, Option.elim_some]

/-- Settles O4, clause by clause. -/
theorem stepRunsDecoded : Obligations.StepRunsDecoded := by
  unfold Obligations.StepRunsDecoded
  refine ⟨?decoded, ?steward, ?illegal, ?start, ?event, ?own, ?stewardOwn⟩
  case decoded =>
    intro s s' c j k w x i rest hturn hchore hpick hw hdue hc hi
    have hgo := State.issuable_of_pick hpick hw hdue
    exact step_run ((choose_of_turnOf_wave hturn (State.schedule_pick hchore hpick)).trans (State.issueFlow_decoded hw hdue hgo hc hi))
  case steward =>
    intro s s' d k w x i rest hturn hgo hwaits hw hdue hc hi
    exact step_run ((choose_of_turnOf_steward hturn hgo hwaits).trans (State.issueFlow_decoded hw hdue hgo hc hi))
  case illegal =>
    intro s s' c j k w x d hturn hchore hpick hw hdue hc hd
    have hgo := State.issuable_of_pick hpick hw hdue
    have halone : s'.dstep = none := dstep_of_turnOf hturn
    have hdstep : (State.issued { s' with cur := .wave c k } (.wave c k)).dstep = none := (State.dstep_issued ..).trans halone
    refine step_done ((choose_of_turnOf_wave hturn (State.schedule_pick hchore hpick)).trans ((State.issueFlow_illegal hw hdue hgo hc hd).trans (congrArg Choice.done ?_)))
    rw [State.illegalWord_trap hdstep, State.cur_issued]
  case start =>
    intro s s' c j k w hturn hchore hpick hw hdue hc hstop
    have hgo := State.issuable_of_pick hpick hw hdue
    exact step_run ((choose_of_turnOf_wave hturn (State.schedule_pick hchore hpick)).trans (State.issueFlow_start hw hdue hgo hc hstop))
  case event =>
    intro s i rest htape hi
    have hchoose := State.choose_event htape hi
    cases hspec : i.spec.isSome with
    | true => exact step_done (hchoose.trans (by rw [hspec]; rfl))
    | false => exact step_run (hchoose.trans (by rw [hspec]; rfl))
  case own =>
    intro s s' c j hnote hempty hd hcur hchore hpick
    have hchoose := choose_ownStep_wave hnote hempty hd hcur hchore hpick
    rw [hcur]
    exact ⟨fun hswap => step_done (hchoose.trans (State.ownStep_swap hswap)), fun i hswap hi => step_run (hchoose.trans (State.ownStep_event hswap hi))⟩
  case stewardOwn =>
    intro s s' d k i hnote hempty hd hcur hi hheld
    rw [hcur] at hi hheld
    exact step_run (choose_ownEvent_steward hnote hempty hd hcur hi hheld)

end Sys2Proof
end

