-- ==== Sys2Proof/Proofs/QueuesKept.lean ====
section
/-! Lemmas: what leaves the queues and the launches as they are, and what the firmware's first acts for a queue leave of it (R177 to R181, R192, R193, R224). -/

namespace Sys2Proof

open Sys2Proof.Machine

/-! ### Reads, protection and writes of the firmware -/

namespace Repaged

variable {s t : State}

theorem launches (h : Repaged s t) : t.launches = s.launches := (congrArg State.launches h.rest :)

theorem touchRead (s : State) (die asid va n : Nat) : Repaged s (s.touchRead die asid va n) := by
  unfold State.touchRead
  split
  · exact refl s
  · refine foldl (fun s k => ?_) _ s
    split
    · exact touchLeaf ..
    · exact refl s

theorem touchRecord (s : State) (die asid addr : Nat) : Repaged s (s.touchRecord die asid addr) := by
  have hopt (u : State) (va n : Nat) : Repaged u (if va = 0 then u else u.touchRead die asid va n) := by
    split
    · exact refl u
    · exact touchRead ..
  unfold State.touchRecord
  exact (((touchRead ..).trans (hopt ..)).trans (hopt ..)).trans (touchRead ..)

theorem splitLeaf (s : State) (die asid va : Nat) : Repaged s (s.splitLeaf die asid va) := by
  unfold State.splitLeaf
  split
  · exact refl s
  · split
    · exact refl s
    · have hfresh : Repaged s { s with fresh := s.fresh + 1 } := ⟨rfl, fun _ => rfl⟩
      exact (hfresh.trans (foldl (fun u k => poke u ..) _ _)).trans (poke ..)

theorem protect (s : State) (die asid : Nat) (pieces : List Nat) : Repaged s (s.protect die asid pieces) := by
  unfold State.protect
  exact (foldl (fun u p => ((splitLeaf u ..).trans (splitLeaf ..)).trans (snapBits ..)) _ s).trans (dropAsid ..)

end Repaged

section

variable (s : State)

theorem Machine.State.queues_snapshot (die asid launch piece : Nat) : (s.snapshot die asid launch piece).queues = s.queues := by
  unfold State.snapshot
  split
  · rfl
  · dsimp only
    split <;> rfl

theorem Machine.State.queues_serveSnap (die ctx asid va : Nat) : (s.serveSnap die ctx asid va).queues = s.queues := by
  unfold State.serveSnap
  refine (Repaged.dropPiece ..).queues.trans ((Repaged.snapBits ..).queues.trans ?_)
  exact List.foldlRecOn (motive := fun t : State => t.queues = s.queues) _ _ rfl fun t ht e _ => (t.queues_snapshot ..).trans ht

theorem Machine.State.queues_agentPage (die ctx asid va : Nat) : (s.agentPage die ctx asid va).1.queues = s.queues := by
  have hserved (b : Bool) : (if b then s.serveSnap die ctx asid va else s).queues = s.queues := by
    cases b
    · rfl
    · exact s.queues_serveSnap ..
  unfold State.agentPage
  split
  · rfl
  · dsimp only
    split
    · exact hserved _
    · exact (Repaged.touchLeaf ..).queues.trans (hserved _)

theorem Machine.State.queues_agentPoke (die asid pa : Nat) (bs : List Byte) (tag : Option SyncTag) : (s.agentPoke die asid pa bs tag).queues = s.queues := by
  unfold State.agentPoke
  split
  · rfl
  · exact (Repaged.poke ..).queues

theorem Machine.State.queues_putCtxByte (die ctx va : Nat) (v : Byte) : (s.putCtxByte die ctx va v).queues = s.queues := by
  unfold State.putCtxByte
  split
  · rfl
  · next asid _ =>
    have hpage := s.queues_agentPage die ctx asid va
    split
    · next heq =>
      rw [heq] at hpage
      exact (State.queues_agentPoke ..).trans hpage
    · rfl

theorem Machine.State.launches_queueError (n cause : Nat) : (s.queueError n cause).launches = s.launches := by
  have hqueueTo : (s.queueTo n 4 cause).launches = s.launches := by
    unfold State.queueTo
    split
    · rfl
    · exact (Repaged.poke ..).launches
  unfold State.queueError
  split
  · split
    · exact hqueueTo
    · rfl
  · rfl

end

/-! ### Packets (R178) -/

/-- The queue of a ready packet. -/
theorem Machine.State.queue_of_ready {s : State} {n : Nat} {q : Queue} {p : Packet} (h : s.ready n = some (q, p)) : s.queues.get n = some q := by
  unfold State.ready at h
  split at h
  · cases h
  · next q' hq =>
    split at h
    · cases h
    · obtain ⟨p', -, hp⟩ := Option.bind_eq_some_iff.1 h
      split at hp
      · cases hp
        exact hq
      · cases hp

/-- Taking a packet changes the queues in its own queue's RDIDX alone, and ends the time that its packet has been ready. -/
theorem Machine.State.queues_take (s : State) (n : Nat) (q : Queue) (p : Packet) :
    (s.take n q p).queues = s.queues.upd n (fun q => { q with rdidx := (q.rdidx + 1) % 2 ^ 64, readySince := none }) := by
  unfold State.take
  refine (State.setQueue_spec ..).2.2.trans (congrArg (fun t : Tab Queue => t.upd n _) ?_)
  rw [State.queues_putCtxByte]
  split
  · exact (Repaged.touchRead ..).queues
  · rfl

theorem Machine.State.queue_take {s : State} {n : Nat} {q : Queue} {p : Packet} (h : s.ready n = some (q, p)) :
    (s.take n q p).queues.get n = some { q with rdidx := (q.rdidx + 1) % 2 ^ 64, readySince := none } := by
  rw [State.queues_take, Tab.get_upd_self, State.queue_of_ready h]
  rfl

theorem Machine.State.queue_modQueue {s : State} {n : Nat} {q : Queue} (h : s.queues.get n = some q) (g : Queue → Queue) : (s.modQueue n g).queues.get n = some (g q) :=
  (Tab.get_upd_self ..).trans (congrArg (Option.map g) h)

end Sys2Proof
end

