-- ==== Sys2Proof/Proofs/Packets.lean ====
section
/-! Lemmas: doorbells and mailbox records, the packets of the queues, and what they signal (R178, R179, R185, R186, R190). -/

namespace Sys2Proof

open Sys2Proof.Machine

/-! ### Doorbells and mailbox records (R178, R185) -/

/-- A slice of bytes that have been written reads back (R109). -/
theorem read_write_slice (m : Tab Byte) (a k n : Nat) (bs : List Byte) (h : k + n ≤ bs.length) : Memory.read (Memory.write m a bs) (a + k) n = (bs.drop k).take n := by
  refine List.ext_getElem (by simp only [Memory.read, List.length_map, List.length_range, List.length_take, List.length_drop]; omega) fun i hi _ => ?_
  have hin : i < n := by simpa [Memory.read] using hi
  simp only [Memory.read, List.getElem_map, List.getElem_range, Memory.getD_write, List.getElem_take, List.getElem_drop]
  rw [if_pos (by omega), show a + k + i - a = k + i by omega, List.getElem?_eq_getElem (by omega), Option.getD_some]

/-- A write of the doorbell register raises event bit 0, whatever it brings (R178). -/
theorem Machine.State.writeReg_doorbell (s : State) (d v : Nat) : s.writeReg (devReg d 0x10) .write v (fieldMask 31 0) = s.raiseEvent d 0 := by
  have hreg : devReg d 0x10 = .dev d 0x10 := rfl
  have hreached : ¬ fieldMask 31 0 &&& (2 ^ 32 - 1) &&& 0xFFF = 0 := by decide
  rw [hreg]
  exact if_neg hreached

theorem qdoorbell_raises (s : State) (d : Nat) (v : Word) :
    (s.barOpen d = true → ∃ t, Machine.exec (.qdoorbell d v) s = .next t ∧ Pends t d 0 ∧ { t with dies := s.dies } = s) ∧
      (s.barOpen d = false → Machine.exec (.qdoorbell d v) s = .next s) := by
  refine ⟨fun hopen => ⟨s.raiseEvent d 0, congrArg Host.Outcome.next ?_, pends_raiseEvent s d 0, rfl⟩, fun hshut => congrArg Host.Outcome.next (if_pos (by rw [hshut]; rfl))⟩
  exact (if_neg (by rw [hopen]; decide)).trans (s.writeReg_doorbell d v.toNat)

theorem hostMailboxRequest_dropped {s : State} {d : Nat} (h : s.barOpen d = false) (r : Nat) (sv : Byte) (a b : DWord) :
    Machine.exec (.hostMailboxRequest d r sv a b) s = .next s := congrArg Host.Outcome.next (if_pos (by rw [h]; rfl))

/-- A mailbox record stands in its 32 bytes with OWNER 1, and its event is pending (R185). -/
theorem hostMailboxRequest_stands {s : State} {d : Nat} (h : s.barOpen d = true) (r : Nat) (sv : Byte) (a b : DWord) :
    ∃ t, Machine.exec (.hostMailboxRequest d r sv a b) s = .next t ∧ Pends t d 0 ∧ { t with dies := s.dies } = s ∧
      Memory.read (t.die d).mailbox (32 * (r % 8)) 8 = bytesOfNat 8 a.toNat ∧ Memory.read (t.die d).mailbox (32 * (r % 8) + 8) 8 = bytesOfNat 8 b.toNat ∧
      Memory.read (t.die d).mailbox (32 * (r % 8) + 24) 2 = [sv, 1] := by
  refine ⟨_, congrArg Host.Outcome.next (if_neg (by rw [h]; decide)), pends_raiseEvent _ d 0, rfl, ?_⟩
  rw [State.die_raiseEvent, State.die_modDie_self]
  have hlen : (bytesOfNat 8 a.toNat ++ bytesOfNat 8 b.toNat ++ Memory.read (s.die d).mailbox (32 * (r % 8) + 16) 8 ++ [sv, 1] ++ List.replicate 6 0).length = 32 := by
    simp [length_bytesOfNat, Memory.read]
  exact ⟨read_write_slice _ _ 0 8 _ (by omega), read_write_slice _ _ 8 8 _ (by omega), read_write_slice _ _ 24 2 _ (by omega)⟩

/-! ### Packets (R178, R179, R186, R190) -/

section Taken

variable {s : State} {n : Nat} {q : Queue} {p : Packet} (h : (s.rejectBad n).ready n = some (q, p))

include h

/-- A WAIT is taken and holds its queue (R179). -/
theorem waitPacket_holds (hp : p.type = 2) : ∃ t q', Machine.exec (.waitPacket n) s = .next t ∧ t.queues.get n = some q' ∧ q'.rdidx = (q.rdidx + 1) % 2 ^ 64 ∧
    q'.held = some { packet := p.number, address := p.addr, threshold := p.arg, signal := p.signal } := by
  have hexec : Machine.exec (.waitPacket n) s = .next (((s.rejectBad n).take n q p).modQueue n (fun q =>
      { q with held := some { packet := p.number, address := p.addr, threshold := p.arg, signal := p.signal } })) := by
    show execWaitPacket n s = _
    unfold execWaitPacket
    simp only [h, hp, if_true]
  exact ⟨_, _, hexec, State.queue_modQueue (State.queue_take h) _, rfl, rfl⟩

/-- A MARK is taken, and one with a signal joins the marks of its queue (R179). -/
theorem markPacket_marks (hp : p.type = 3) : ∃ t q', Machine.exec (.markPacket n) s = .next t ∧ t.queues.get n = some q' ∧ q'.rdidx = (q.rdidx + 1) % 2 ^ 64 ∧
    (p.signal.isSome = true → q'.marks = q.marks ++ [{ packet := p.number, address := 0, threshold := 0, signal := p.signal }]) := by
  have hexec : Machine.exec (.markPacket n) s = .next (((s.rejectBad n).take n q p).modQueue n (fun q =>
      if p.signal.isSome then { q with marks := q.marks ++ [{ packet := p.number, address := 0, threshold := 0, signal := p.signal }] } else q)) := by
    show execMarkPacket n s = _
    unfold execMarkPacket
    simp only [h, hp, if_true]
  refine ⟨_, _, hexec, State.queue_modQueue (State.queue_take h) _, ?_, fun hsignal => ?_⟩
  · split <;> rfl
  · rw [if_pos hsignal]

/-- The chosen queue's head launch is taken and started (R186). -/
theorem launchPacket_starts (hp : p.type = 1) (hchosen : (s.rejectBad n).chosen n q = true) :
    Machine.exec (.launchPacket q.die n) s = .next (((s.rejectBad n).take n q p).startLaunch n q p ((s.rejectBad n).priority q)) := by
  show execLaunchPacket q.die n s = _
  unfold execLaunchPacket
  simp only [h, hp, hchosen, and_self, if_true]

end Taken

/-- A launch is entered at the least free number with its record as read, and runs unless its record is refused (R187, R189, R190). -/
theorem Machine.State.startLaunch_enters {s : State} {n : Nat} {q : Queue} {p : Packet} {x : Context} {asid st : Nat} {r : Record} (hx : s.contexts.get q.context = some x)
    (ha : x.asid = some asid) (hcopy : s.copyRecord q.die q.context asid p.addr = (r, st)) (priority : Nat) :
    ∃ l, (s.startLaunch n q p priority).launches.get (s.launches.free 1 s.launches.length) = some l ∧ l.context = q.context ∧ l.queue = n ∧ l.packet = p.number ∧ l.record = r ∧
      l.count = r.groups ∧ l.next = 0 ∧ l.triggered = false ∧ l.signal = p.signal ∧ l.state = if st = 0 then .running else .failed := by
  have hsettled (u : State) : (if st ≠ 0 then u.queueError n st else if r.replay then u.protect q.die asid r.pieces else u).launches = u.launches := by
    split
    · exact u.launches_queueError ..
    · split
      · exact (Repaged.protect ..).launches
      · rfl
  unfold State.startLaunch
  simp only [hx, ha, hcopy, Option.bind_some]
  rw [hsettled, (Repaged.touchRecord ..).launches]
  exact ⟨_, Tab.get_set_self .., rfl, rfl, rfl, rfl, rfl, rfl, rfl, rfl, rfl⟩

/-! ### Signals (R179) -/

/-- The word of a held WAIT has reached its threshold: the WAIT is gone, and its signal, if it has one, is stored. -/
theorem waitSatisfied_signals {s : State} {n asid : Nat} {q : Queue} {h : Pending} {x : Context} {bs : List Byte} (hq : s.queues.get n = some q) (hheld : q.held = some h)
    (hx : s.contexts.get q.context = some x) (ha : x.asid = some asid) (hactive : q.state = 1) (hbs : s.stewardRead q.die asid h.address 8 = some bs)
    (hreached : h.threshold ≤ natOfBytes bs) : let s1 := (s.touchRead q.die asid h.address 8).modQueue n (fun q => { q with held := none })
    (h.signal = none → Machine.exec (.waitSatisfied n) s = .next s1) ∧ ∀ va v, h.signal = some (va, v) → Machine.exec (.waitSatisfied n) s = .next (s1.signal n va v) := by
  dsimp only
  refine ⟨fun hnone => ?_, fun va v hsome => ?_⟩
  · show execWaitSatisfied n s = _
    unfold execWaitSatisfied
    simp only [hq, hheld, hx, ha, hactive, hbs, hreached, hnone, Option.bind_some, if_true]
  · show execWaitSatisfied n s = _
    unfold execWaitSatisfied
    simp only [hq, hheld, hx, ha, hactive, hbs, hreached, hsome, Option.bind_some, if_true]

/-- Every earlier launch of the oldest MARK is final: its signal is stored. -/
theorem markSignal_signals {s : State} {n va : Nat} {v : DWord} {q : Queue} {m : Pending} (hq : s.queues.get n = some q) (hm : q.marks.head? = some m)
    (hsignal : m.signal = some (va, v)) (hfinal : ∀ e ∈ s.launches, e.2.queue = n → e.2.packet < m.packet → e.2.open = false) :
    Machine.exec (.markSignal n) s = .next ((s.modQueue n (fun q => { q with marks := q.marks.drop 1 })).signal n va v) := by
  have hnone : s.launches.any (fun e => e.2.queue == n && e.2.open && e.2.packet < m.packet) = false := by
    rw [List.any_eq_false]
    intro e he hopen
    simp only [Bool.and_eq_true, beq_iff_eq, decide_eq_true_eq] at hopen
    obtain ⟨⟨hqueue, hopen⟩, hearlier⟩ := hopen
    rw [hfinal e he hqueue hearlier] at hopen
    cases hopen
  show execMarkSignal n s = _
  unfold execMarkSignal
  simp only [hq, hm, hnone, hsignal, Option.bind_some, Bool.false_eq_true, if_false]

end Sys2Proof
end

