-- ==== Sys2Proof/Proofs/Ticks.lean ====
section
/-! Lemmas: the ticks of the stewards and the answers to `ecall` (R436, R439). -/

namespace Sys2Proof

open Sys2Proof.Machine

/-! ### Ticks (R439) -/

/-- Neither a raised event nor the time that a tick counts decides whether a firmware runs (R303, R478, R496). -/
theorem Machine.State.firmwareRuns_raiseEvent (s : State) (d k e : Nat) : (s.raiseEvent d k).firmwareRuns e = s.firmwareRuns e := by
  unfold State.firmwareRuns
  rw [State.die_raiseEvent]
  rfl

theorem Machine.State.firmwareRuns_ticked (s : State) (d e : Nat) : (if d = s.clockDie then { s with now := s.now + 50 } else s).firmwareRuns e = s.firmwareRuns e := by
  split <;> rfl

section Tick

variable {s : State} {d : Nat} {s0 : State} (h0 : s0 = if d = s.clockDie then { s with now := s.now + 50 } else s)

include h0

theorem stewardTick_stopped (hstopped : s.firmwareRuns d = false) : Machine.exec (.stewardTick d) s = .next (s0.raiseEvent d 3) := by
  subst h0
  refine congrArg Host.Outcome.next (if_pos ?_)
  rw [State.firmwareRuns_raiseEvent, State.firmwareRuns_ticked, hstopped]
  rfl

theorem stewardTick_visits (hruns : s.firmwareRuns d = true) :
    let mailbox (s : State) (p : Nat → Bool) : State := (List.range 8).foldl (fun s k => s.serveMailbox d k p) s
    let s1 := mailbox (s0.raiseEvent d 3) (· != 0x22)
    let s2 := (s1.queues.filter (fun e => e.2.die == d)).foldl (fun s e => s.visit e.1) s1
    Machine.exec (.stewardTick d) s = .next (mailbox s2 (· == 0x22)) := by
  subst h0
  refine congrArg Host.Outcome.next (if_neg ?_)
  rw [State.firmwareRuns_raiseEvent, State.firmwareRuns_ticked, hruns]
  decide

end Tick

/-! ### Answers (R436) -/

/-- The answer to an `ecall` of a wave that stands on its core waits for the wave. -/
theorem Machine.State.giveAnswer_waiting {s : State} {c k x : Nat} {w : Wave} (hctx : (s.core c).context = some x) (hswap : (s.core c).swapping = false)
    (hw : s.flow? (.wave c k) = some w) (hpark : w.park = some .ecall) (u : Nat) :
    s.giveAnswer (.wave c k) (some x) u = s.setFlow (.wave c k) { w with park := some (.answered (BitVec.ofNat 64 u)) } := by
  unfold State.giveAnswer State.modImageWave
  dsimp only
  rw [if_pos ⟨hctx, by rw [hswap]; rfl⟩]
  unfold State.modFlow
  rw [hw]
  dsimp only
  rw [if_pos hpark]

section Answer

variable {s : State} {d r n : Nat} {f : Flow} {ctx : Option Nat} {a b : DWord} {site : Nat} (hreq : (s.die d).requests.get r = some (.ecall f ctx n a b site))

include hreq

/-- A request whose firmware does not run waits. -/
theorem ecallAnswer_waits (hserved : s.servedAt d n a.toNat = false) (v : DWord) : Machine.exec (.ecallAnswer d r v) s = .next s := by
  show Host.Outcome.next (s.answerRequest d r v) = _
  unfold State.answerRequest
  simp only [hreq, hserved, Bool.not_false, if_true]

/-- A request that is served is gone, and its answer is given (R436). -/
theorem ecallAnswer_gives (hserved : s.servedAt d n a.toNat = true) {v : DWord} {s1 : State} {u : Nat}
    (hservice : (s.modDie d (fun q => { q with requests := q.requests.del r })).service d ctx n a.toNat b.toNat v.toNat = (s1, u)) :
    Machine.exec (.ecallAnswer d r v) s = .next (s1.giveAnswer f ctx u) := by
  show Host.Outcome.next (s.answerRequest d r v) = _
  unfold State.answerRequest
  simp only [hreq, hserved, hservice, Bool.not_true, Bool.false_eq_true, if_false]

end Answer

end Sys2Proof
end

