-- ==== Sys2Proof/Proofs/Placement.lean ====
section
/-! Lemmas: the dispatchers place a launch's head, drain cores or pre-empt images for it (R201, R202, R208). -/

namespace Sys2Proof

open Sys2Proof.Machine

/-! ### Placing (R165, R201) -/

section

variable (s : State)

theorem Machine.State.launches_giveAsid (n : Nat) : (s.giveAsid n).launches = s.launches := by
  have hset (a : Nat) : (s.setAsid n a).launches = s.launches := by
    unfold State.setAsid
    split
    · rfl
    · exact (Repaged.foldl (fun u d => Repaged.setRoot u ..) _ s).launches
  unfold State.giveAsid
  split
  · rfl
  · split
    · split
      · exact hset _
      · rfl
    · rfl

theorem Machine.State.launches_bringKey (d n : Nat) : (s.bringKey d n).launches = s.launches := by
  unfold State.bringKey
  split
  · rfl
  · split <;> rfl

theorem Machine.State.launches_traceCore (n c : Nat) (q : Core) : (s.traceCore n c q).2.launches = s.launches := by
  unfold State.traceCore
  split <;> rfl

theorem Machine.State.launches_waveWritten (c k : Nat) : (s.waveWritten c k).launches = s.launches := by
  unfold State.waveWritten State.recordWritten
  split
  · rfl
  · exact ((SameFlows.fileWritten s c k (List.range 128) true 0 (0, 0)).trans (SameFlows.strike _ c 8 k _ (0, 0) _ fun u => SameFlows.spoil u c _)).launches

/-- Placing a group changes no launch. -/
theorem Machine.State.launches_placeGroup (n : Nat) (l : Launch) (index c : Nat) : (s.placeGroup n l index c).launches = s.launches := by
  unfold State.placeGroup
  extract_lets q fresh area q1 g schs q2 q3 s1 s2
  have h2 : s2.launches = s.launches := s1.launches_bringKey ..
  split
  next q4 s3 heq =>
  have h3 : s3.launches = s.launches := by
    split at heq
    · have := s2.launches_traceCore l.queue c q3
      rw [heq] at this
      exact this.trans h2
    · cases heq
      exact h2
  extract_lets fresh' s4 s5
  have h5 : s5.launches = s.launches := by
    unfold s5 s4
    split
    · exact h3
    · exact h3
  exact List.foldlRecOn (motive := fun t : State => t.launches = s.launches) _ _ h5 fun t ht k _ => (t.launches_waveWritten ..).trans ht

end

theorem Machine.State.launch_modLaunch {s : State} {n : Nat} {l : Launch} (h : s.launches.get n = some l) (g : Launch → Launch) :
    (s.modLaunch n g).launches.get n = some (g l) := (Tab.get_upd_self ..).trans (congrArg (Option.map g) h)

/-- The drain of a launch is over on every die (R202). -/
theorem Machine.State.drain_endDrain (s : State) (n : Nat) : ∀ e ∈ (s.endDrain n).dies, ∀ x, e.2.drain = some x → x.1 ≠ n := by
  intro e he x hx hn
  obtain ⟨⟨d, q⟩, -, rfl⟩ := List.mem_map.1 he
  dsimp only at hx
  split at hx
  · cases hx
  · next hnot => exact hnot (by rw [hx, Option.any_some, hn, beq_self_eq_true])

section Head

variable {s : State} {n : Nat} {l : Launch} (hl : s.launches.get n = some l)

include hl

/-- The groups of a head that finds its cores are placed, and its drain ends (R201, R202). -/
theorem groupPlace_places {a : Scan} (hgo : (s.giveAsid l.context).placeable l = true)
    (hscan : (s.giveAsid l.context).scanHead l ((s.giveAsid l.context).roomNow n l.context) = some a) :
    ∃ t l', Machine.exec (.groupPlace n) s = .next t ∧ t.launches.get n = some l' ∧ l'.next = l.next + a.placed.length ∧ l'.placed = l.placed + a.placed.length ∧
      l'.units = a.units ∧ l'.waitingSince = none ∧ l'.count = l.count ∧ ∀ e ∈ t.dies, ∀ x, e.2.drain = some x → x.1 ≠ n := by
  have hkept : (a.placed.foldl (fun t e => t.placeGroup n l e.1 e.2) (s.giveAsid l.context)).launches = s.launches :=
    List.foldlRecOn (motive := fun t : State => t.launches = s.launches) _ _ (s.launches_giveAsid _) fun t ht e _ => (t.launches_placeGroup ..).trans ht
  have hexec : Machine.exec (.groupPlace n) s = .next ((State.modLaunch (a.placed.foldl (fun t e => t.placeGroup n l e.1 e.2) (s.giveAsid l.context)) n (fun l =>
      { l with placed := l.placed + a.placed.length, next := l.next + a.placed.length, units := a.units, waitingSince := none })).endDrain n) := by
    show execGroupPlace n s = _
    unfold execGroupPlace
    simp only [hl, hgo, hscan, Bool.not_true, Bool.false_eq_true, if_false]
  exact ⟨_, _, hexec, State.launch_modLaunch ((congrArg (fun t : Tab Launch => t.get n) hkept).trans hl) _, rfl, rfl, rfl, rfl, rfl, State.drain_endDrain _ n⟩

/-- A head that finds no core waits, from the time at which it was first refused (R201). -/
theorem groupPlace_waits (hgo : (s.giveAsid l.context).placeable l = true)
    (hscan : (s.giveAsid l.context).scanHead l ((s.giveAsid l.context).roomNow n l.context) = none) :
    Machine.exec (.groupPlace n) s =
      .next ((s.giveAsid l.context).modLaunch n (fun m => { m with waitingSince := some (m.waitingSince.getD (s.giveAsid l.context).now) })) := by
  show execGroupPlace n s = _
  unfold execGroupPlace
  simp only [hl, hgo, hscan, Bool.not_true, Bool.false_eq_true, if_false]

end Head

/-! ### Compaction drain (R202) -/

/-- The compaction drain that dies are given, each its own. -/
theorem foldl_drain (v : Nat → Option (Nat × List Nat)) (ds : List Nat) (s : State) :
    let t := ds.foldl (fun s d => s.modDie d (fun q => { q with drain := v d })) s
    { t with dies := s.dies } = s ∧ (∀ d ∈ ds, (t.die d).drain = v d) ∧ ∀ d, d ∉ ds → t.die d = s.die d := by
  induction ds generalizing s with
  | nil => exact ⟨rfl, fun d hd => absurd hd List.not_mem_nil, fun _ _ => rfl⟩
  | cons e ds ih =>
    obtain ⟨hrest, hdrain, hother⟩ := ih (s.modDie e (fun q => { q with drain := v e }))
    refine ⟨(congrArg (fun u : State => { u with dies := s.dies }) hrest :), fun d hd => ?_, fun d hd => ?_⟩
    · by_cases hmem : d ∈ ds
      · exact hdrain d hmem
      · obtain rfl := (List.mem_cons.1 hd).resolve_right hmem
        rw [List.foldl_cons, hother d hmem, State.die_modDie_self]
    · rw [List.mem_cons, not_or] at hd
      rw [List.foldl_cons, hother d hd.2, State.die_modDie_ne _ _ (Ne.symm hd.1)]

theorem compactionDrainStart_drains {s : State} {n t0 : Nat} {l : Launch} {a : Scan} (hl : s.launches.get n = some l) (hgo : s.placeable l = true)
    (hwaits : l.waitingSince = some t0) (hbound : (s.die (s.servingDie l)).placeBound = 0 ∨ (s.die (s.servingDie l)).placeBound < s.now - t0)
    (hscan : s.scanHead l (s.roomCleared n l.context) = some a) (hfree : ∀ c ∈ (a.placed.map Prod.snd).dedup, (s.die (dieOf c)).drain = none) :
    let cores := (a.placed.map Prod.snd).dedup
    ∃ t, Machine.exec (.compactionDrainStart n) s = .next t ∧ { t with dies := s.dies } = s ∧
      (∀ c ∈ cores, (t.die (dieOf c)).drain = some (n, cores.filter (fun x => dieOf x == dieOf c))) ∧ ∀ d, (∀ c ∈ cores, dieOf c ≠ d) → t.die d = s.die d := by
  intro cores
  have hlate : ((s.die (s.servingDie l)).placeBound == 0 || decide ((s.die (s.servingDie l)).placeBound < s.now - t0)) = true := by simpa using hbound
  have hidle : (cores.map dieOf).dedup.any (fun d => (s.die d).drain.isSome) = false := by
    rw [List.any_eq_false]
    intro d hd
    obtain ⟨c, hc, rfl⟩ := List.mem_map.1 (List.mem_dedup.1 hd)
    rw [hfree c hc]
    exact Bool.false_ne_true
  have hexec : Machine.exec (.compactionDrainStart n) s = .next ((cores.map dieOf).dedup.foldl (fun s d =>
      s.modDie d (fun q => { q with drain := some (n, cores.filter (fun c => dieOf c == d)) })) s) := by
    show execCompactionDrainStart n s = _
    unfold execCompactionDrainStart
    simp only [hl, hwaits, hgo, hlate, hscan, Bool.not_true, Bool.or_self, Bool.false_eq_true, if_false]
    exact congrArg Host.Outcome.next (if_neg (by rw [hidle]; exact Bool.false_ne_true))
  obtain ⟨hrest, hdrain, hother⟩ := foldl_drain (fun d => some (n, cores.filter (fun c => dieOf c == d))) (cores.map dieOf).dedup s
  refine ⟨_, hexec, hrest, fun c hc => hdrain _ (List.mem_dedup.2 (List.mem_map.2 ⟨c, hc, rfl⟩)), fun d hd => hother d fun hmem => ?_⟩
  obtain ⟨c, hc, hcd⟩ := List.mem_map.1 (List.mem_dedup.1 hmem)
  exact hd c hc hcd

/-! ### Pre-emption (R208) -/

/-- A swap of a core has been asked for or is under way (R169). -/
def Machine.Core.Leaving (q : Core) : Prop := q.swapAsked = true ∨ q.swapping = true

theorem Machine.State.core_askSwap_ne (s : State) {c c' : Nat} (h : c ≠ c') : (s.askSwap c).core c' = s.core c' := by
  unfold State.askSwap
  split
  · rfl
  · dsimp only
    split
    · rfl
    · exact State.core_modCore_ne _ _ h

theorem Machine.State.leaving_askSwap {s : State} {c : Nat} (h : (s.core c).context ≠ none) : ((s.askSwap c).core c).Leaving := by
  unfold State.askSwap
  split
  · next hnone => exact absurd hnone h
  · dsimp only
    split
    · next hleaving => exact Bool.or_eq_true_iff.1 hleaving
    · rw [State.core_modCore_self]
      exact .inl rfl

theorem Machine.State.context_askSwap (s : State) (c c' : Nat) : ((s.askSwap c).core c').context = (s.core c').context := by
  by_cases h : c = c'
  · subst h
    unfold State.askSwap
    split
    · rfl
    · dsimp only
      split
      · rfl
      · rw [State.core_modCore_self]
        rfl
  · rw [s.core_askSwap_ne h]

theorem Machine.Core.Leaving.askSwap {s : State} {c' : Nat} (h : (s.core c').Leaving) (c : Nat) : ((s.askSwap c).core c').Leaving := by
  by_cases hc : c = c'
  · subst hc
    by_cases hctx : (s.core c).context = none
    · unfold State.askSwap
      rw [hctx]
      exact h
    · exact State.leaving_askSwap hctx
  · rwa [s.core_askSwap_ne hc]

theorem foldl_askSwap_leaving {s : State} {c : Nat} (h : (s.core c).Leaving) (cs : List Nat) : ((cs.foldl (fun s c => s.askSwap c) s).core c).Leaving :=
  List.foldlRecOn (motive := fun t : State => (t.core c).Leaving) _ _ h fun _ ht k _ => ht.askSwap k

/-- Swaps asked for one after another: each core with an image leaves, and no other core changes. -/
theorem foldl_askSwap (cs : List Nat) (s : State) : let t := cs.foldl (fun s c => s.askSwap c) s
    { t with cores := s.cores, swaps := s.swaps } = s ∧ (∀ c ∈ cs, (s.core c).context ≠ none → (t.core c).Leaving) ∧ ∀ c, c ∉ cs → t.core c = s.core c := by
  induction cs generalizing s with
  | nil => exact ⟨rfl, fun c hc => absurd hc List.not_mem_nil, fun _ _ => rfl⟩
  | cons k cs ih =>
    obtain ⟨hrest, hleaving, hother⟩ := ih (s.askSwap k)
    refine ⟨(congrArg (fun u : State => { u with cores := s.cores, swaps := s.swaps }) hrest :).trans (s.askSwap_rest k), fun c hc hctx => ?_, fun c hc => ?_⟩
    · rcases List.mem_cons.1 hc with rfl | hmem
      · exact foldl_askSwap_leaving (State.leaving_askSwap hctx) cs
      · exact hleaving c hmem (by rwa [s.context_askSwap])
    · rw [List.mem_cons, not_or] at hc
      rw [List.foldl_cons, hother c hc.2, s.core_askSwap_ne (Ne.symm hc.1)]

theorem mem_insertVictim (s : State) (c d : Nat) (cs : List Nat) : d ∈ s.insertVictim c cs ↔ d = c ∨ d ∈ cs := by
  induction cs with
  | nil => exact List.mem_cons
  | cons e cs ih =>
    unfold State.insertVictim
    split
    · exact List.mem_cons
    · rw [List.mem_cons, ih, List.mem_cons, or_left_comm]

/-- The victims in the order in which they leave are the victims. -/
theorem mem_foldl_insertVictim (s : State) (d : Nat) (vs cs : List Nat) : d ∈ vs.foldl (fun cs c => s.insertVictim c cs) cs ↔ d ∈ vs ∨ d ∈ cs := by
  induction vs generalizing cs with
  | nil => simp
  | cons v vs ih => rw [List.foldl_cons, ih, mem_insertVictim, List.mem_cons, or_left_comm, or_assoc]

theorem preempt_leaves {s : State} {n : Nat} {l : Launch} {a : Scan} (hl : s.launches.get n = some l) (hgo : s.placeable l = true)
    (hnow : s.scanHead l (s.roomNow n l.context) = none) (hscan : s.scanHead l (s.roomPreempted n l.context (s.aged l.prio l.readySince)) = some a) :
    let victims := s.joined (((a.placed.map Prod.snd).dedup).filter (fun c => (s.core c).context.any (fun x => x != l.context))) 256
    (∀ c ∈ victims, ∀ d ∈ s.dies, ∀ x, d.2.drain = some x → c ∉ x.2) →
    ∃ t, Machine.exec (.preempt n) s = .next t ∧ { t with cores := s.cores, swaps := s.swaps } = s ∧
      (∀ c ∈ victims, (s.core c).context ≠ none → (t.core c).swapAsked = true ∨ (t.core c).swapping = true) ∧ ∀ c, c ∉ victims → t.core c = s.core c := by
  intro victims hdrains
  have hnone : victims.any (fun c => s.dies.any (fun d => d.2.drain.any (fun x => x.2.contains c))) = false := by
    simp only [List.any_eq_false, Option.any_eq_true, List.any_eq_true, not_exists, not_and]
    intro c hc d hd x hx hmem
    exact hdrains c hc d hd x hx (List.contains_iff_mem.1 hmem)
  have hexec : Machine.exec (.preempt n) s = .next ((victims.foldl (fun cs c => s.insertVictim c cs) []).foldl (fun s c => s.askSwap c) s) := by
    show execPreempt n s = _
    unfold execPreempt
    simp only [hl, hgo, hnow, hscan, Option.isSome_none, Bool.not_true, Bool.or_self, Bool.false_eq_true, if_false]
    exact congrArg Host.Outcome.next (if_neg (by rw [hnone]; exact Bool.false_ne_true))
  have hmem (c : Nat) : c ∈ victims.foldl (fun cs c => s.insertVictim c cs) [] ↔ c ∈ victims := by simp [mem_foldl_insertVictim]
  obtain ⟨hrest, hleaving, hother⟩ := foldl_askSwap (victims.foldl (fun cs c => s.insertVictim c cs) []) s
  exact ⟨_, hexec, hrest, fun c hc => hleaving c ((hmem c).2 hc), fun c hc => hother c (mt (hmem c).1 hc)⟩

end Sys2Proof
end

