-- ==== Sys2Proof/Proofs/QueueEvents.lean ====
section
/-! Proof of O57: queues and launches. -/

namespace Sys2Proof

open Sys2Proof.Machine

/-- Settles O57, event by event. -/
theorem queueEvents : Obligations.QueueEvents := by
  unfold Obligations.QueueEvents
  intro pends
  refine ⟨?doorbell, ?mailbox, ?launch, ?packets, ?satisfied, ?mark, ?tick, ?answer, ?place⟩
  case doorbell => exact qdoorbell_raises
  case mailbox => exact fun s d r sv a b => ⟨fun hshut => hostMailboxRequest_dropped hshut r sv a b, fun hopen => hostMailboxRequest_stands hopen r sv a b⟩
  case launch =>
    intro s d n q p s0 hready hd hp hchosen s1 id
    subst hd
    have hexec := launchPacket_starts hready hp hchosen
    refine ⟨⟨_, hexec⟩, fun x asid r st hx ha hcopy => ?_⟩
    obtain ⟨l, hl⟩ := State.startLaunch_enters hx ha hcopy (s0.priority q)
    exact ⟨_, l, hexec, hl⟩
  case packets => exact fun s n q p hready => ⟨waitPacket_holds hready, markPacket_marks hready⟩
  case satisfied => exact fun s n q h x asid bs => waitSatisfied_signals
  case mark => exact fun s n q m va v => markSignal_signals
  case tick => exact fun s d => ⟨pends_raiseEvent _ d 3, stewardTick_stopped rfl, stewardTick_visits rfl⟩
  case answer =>
    intro s s1 d r v c k x n a b site u w hreq
    refine ⟨fun hserved => ecallAnswer_waits hreq hserved v, ?_⟩
    intro hserved s0 hservice hctx hswap hw hpark
    constructor
    · exact (congrArg (fun q : Die => q.requests.get r) (s.die_modDie_self d _)).trans (Tab.get_del_self ..)
    · rw [ecallAnswer_gives hreq hserved hservice, State.giveAnswer_waiting hctx hswap hw hpark]
  case place =>
    intro s n l hl
    exact ⟨fun hgo => ⟨fun a => groupPlace_places hl hgo, groupPlace_waits hl hgo⟩, fun t0 a hgo hwaits hbound hscan => compactionDrainStart_drains hl hgo hwaits hbound hscan,
      fun a hgo => preempt_leaves hl hgo⟩

end Sys2Proof
end
